-- ==== Sys2Proof/Word.lean ====
section
/-! DEFINITION. The word types of the KQ-4 (R7, R34, R192, R255). -/

namespace Sys2Proof

/-- A scalar register, a CSR or a virtual address (R255, R47). -/
abbrev Word := BitVec 64

/-- One byte of memory. -/
abbrev Byte := BitVec 8

/-- The payload of a token, a hold register (R192, R188). -/
abbrev Payload := BitVec 256

/-- The pair of 256-bit keys of a key slot (R412). -/
abbrev KeyMat := BitVec 512

/-- Which sequencer of the package: 16 times the die plus SEQN (R4, R257). -/
abbrev SeqId := Fin 64

end Sys2Proof
end

