-- ==== Sys2Proof/Syntax.lean ====
section
/-! DEFINITION. The instructions of the KQ-4 and the events of the machine: one constructor of Instr for each
row of the opcode table.  Sequencer words carry their fields as the formats of R30 lay them out, element words
carry the layout of R34, and an event carries what comes from outside or which pending work it takes up. -/

namespace Sys2Proof

/-- A scalar register number, s0 to s63 (R30). -/
abbrev Reg := BitVec 6

/-- A predicate number, p0 to p15 (R30). -/
abbrev Pred := BitVec 4

/-- The order and scope fields of R32, as the word holds them. -/
structure OrdScope where
  ord : BitVec 3
  scope : BitVec 3
  deriving DecidableEq, Repr

/-- A word of an element, converter, island or comb slot without its opcode (R34). -/
structure EWord where
  ty : BitVec 4
  mod : BitVec 4
  t0 : BitVec 16
  t1 : BitVec 16
  x : BitVec 16
  deriving DecidableEq, Repr

/-- A node of the fabric: the die and the NODEID of R388. -/
structure NodeRef where
  die : Nat
  id : Nat
  deriving DecidableEq, Repr

/-- The match key of a token (R194). -/
structure Key where
  ctx : BitVec 12
  iter : BitVec 16
  path : BitVec 8
  deriving DecidableEq, Repr

/-- An operand of a slot, in the coding of OPD (R36). -/
inductive Opd where
  | a | b | c | g
  deriving DecidableEq, Repr

/-- Where a token is sent: a node, a slot of it and an operand (R36). -/
structure Dest where
  node : NodeRef
  slot : Nat
  opd : Opd
  deriving DecidableEq, Repr

/-- One of the four streams of the AGN of a tile (R189). -/
structure StreamRef where
  die : Nat
  x : Nat
  y : Nat
  str : Nat
  deriving DecidableEq, Repr

/-- The sender of an edge: an output of a slot (out 0 for T0, 1 for T1) or a source stream (R202, R271). -/
inductive EdgeSrc where
  | slot (node : NodeRef) (slot : Nat) (out : Nat)
  | stream (s : StreamRef)
  deriving DecidableEq, Repr

/-- One array: die, slice, index (R2). -/
structure ArrayRef where
  die : Nat
  slice : Nat
  index : Nat
  deriving DecidableEq, Repr

/-- The block of a tile, or the instances of an island, named by a node, and the key of one instance (R214, R344). -/
structure BlockRef where
  node : NodeRef
  key : Key
  deriving DecidableEq, Repr

/-- A page as a peer sends it: encrypted under the key of its source slot at its source address (R80); the bytes stand
for what that key decrypts. -/
structure PulledPage where
  key : KeyMat
  pa : Nat
  bytes : List Byte
  deriving DecidableEq, Repr

/-- A peer's request for a page of a lent context (R411). -/
structure PullReq where
  lendId : Word
  va : Word
  requester : BitVec 256
  port : Nat
  deriving DecidableEq, Repr

/-- The request that creates a partition: its number, the two record words and the resource maps (R404, R405),
and the bucket entries it names. -/
structure CreateReq where
  part : Nat
  pctl : Word
  ctxtab : Word
  tiles : BitVec 1024
  quads : BitVec 4096
  seqs : BitVec 16
  llcWays : BitVec 504
  pchs : BitVec 512
  lp6 : BitVec 16
  keys : BitVec 4096
  ctrs : BitVec 4096
  buckets : List Nat
  deriving DecidableEq, Repr

/-- A key that the host has wrapped to the device's seal key: its public key for ECDH on P-256, the ciphertext and the tag of
AES-256-GCM (R412). -/
structure WrappedKey where
  epub : List Byte
  wrapped : List Byte
  tag : List Byte
  deriving DecidableEq, Repr

/-- An access of a linked peer (R4): the port it came in by, the device physical address, the key slot it is made
under, and the bytes of a write or the length of a read. -/
inductive PeerReq where
  | read (port pa key len : Nat)
  | write (port pa key : Nat) (bytes : List Byte)
  deriving DecidableEq, Repr

/-- Every row of the opcode table. -/
inductive Instr where
  -- integer operations on registers (R258 to R264)
  | add (d a b : Reg)
  | sub (d a b : Reg)
  | mul (d a b : Reg)
  | mulh (d a b : Reg)
  | mulhu (d a b : Reg)
  | div (d a b : Reg)
  | divu (d a b : Reg)
  | rem (d a b : Reg)
  | remu (d a b : Reg)
  | and (d a b : Reg)
  | or (d a b : Reg)
  | xor (d a b : Reg)
  | shl (d a b : Reg)
  | shr (d a b : Reg)
  | sra (d a b : Reg)
  | min (d a b : Reg)
  | max (d a b : Reg)
  | minu (d a b : Reg)
  | maxu (d a b : Reg)
  | clz (d a : Reg)
  | popc (d a : Reg)
  | sel (d a b : Reg) (p : Pred)
  | mov (d a : Reg)
  | addi (d a : Reg) (i : BitVec 12)
  | andi (d a : Reg) (i : BitVec 12)
  | ori (d a : Reg) (i : BitVec 12)
  | xori (d a : Reg) (i : BitVec 12)
  | shli (d a : Reg) (i : BitVec 6)
  | shri (d a : Reg) (i : BitVec 6)
  | srai (d a : Reg) (i : BitVec 6)
  | cmpeqi (d : Pred) (a : Reg) (i : BitVec 12)
  | cmpnei (d : Pred) (a : Reg) (i : BitVec 12)
  | cmplti (d : Pred) (a : Reg) (i : BitVec 12)
  | cmpgei (d : Pred) (a : Reg) (i : BitVec 12)
  | liShort (d : Reg) (i : BitVec 18)
  | liLong (d : Reg) (i : BitVec 46)
  | lih (d : Reg) (i : BitVec 18)
  | cmpeq (d : Pred) (a b : Reg)
  | cmpne (d : Pred) (a b : Reg)
  | cmplt (d : Pred) (a b : Reg)
  | cmpge (d : Pred) (a b : Reg)
  | cmpltu (d : Pred) (a b : Reg)
  | cmpgeu (d : Pred) (a b : Reg)
  | pand (d a b : Pred)
  | por (d a b : Pred)
  | pnot (d a : Pred)
  -- control flow (R266 to R269)
  | b (o : BitVec 19)
  | bc (p : Pred) (n : BitVec 1) (o : BitVec 19)
  | call (o : BitVec 19)
  | ret
  | jr (a : Reg)
  | loop (d : Reg) (i : BitVec 12)
  -- memory instructions of the sequencer (R124 to R142)
  | ldsShort (w : BitVec 3) (d a : Reg) (i : BitVec 12)
  | ldsLong (w : BitVec 3) (d a : Reg) (os : OrdScope) (off : BitVec 32)
  | stsShort (w : BitVec 3) (d a : Reg) (i : BitVec 12)
  | stsLong (w : BitVec 3) (d a : Reg) (os : OrdScope) (off : BitVec 32)
  | amoadd (d a b : Reg) (os : OrdScope)
  | amomin (d a b : Reg) (os : OrdScope)
  | amomax (d a b : Reg) (os : OrdScope)
  | amoand (d a b : Reg) (os : OrdScope)
  | amoor (d a b : Reg) (os : OrdScope)
  | amoxor (d a b : Reg) (os : OrdScope)
  | amoswap (d a b : Reg) (os : OrdScope)
  | amocas (d a b : Reg) (os : OrdScope)
  | amaxrs (d a : Reg) (os : OrdScope)
  | fence (os : OrdScope)
  | cclean (a b : Reg)
  | cinval (a b : Reg)
  | cflush (a b : Reg)
  | cpref (a b : Reg)
  | aconv (a : Reg) (m : BitVec 3)
  | aquery (d a : Reg)
  -- copy tags and counters (R154 to R156)
  | wany (d a : Reg)
  | wall (d a : Reg)
  | cffr (d a : Reg)
  | ctagclr (a : Reg)
  | waitc (l s c t : BitVec 4)
  -- streams and work (R270 to R284)
  | strmend (d a : Reg) (x : BitVec 1)
  | join (d a b : Reg)
  | cont (a b : Reg)
  | endU
  | cancel (d a : Reg) (l : BitVec 3)
  | cdone (d a : Reg) (w : BitVec 1) (l : BitVec 3)
  | bar (d a : Reg)
  | barc (a b : Reg)
  | recfg (d a b : Reg) (r : BitVec 1)
  | loadcfg (d a b : Reg)
  -- tensor identifier table (R285 to R287)
  | tdef (d a b : Reg)
  | tscale (d a b : Reg)
  | tread (d a b : Reg)
  -- traps, CSRs, cuts, security (R400 to R424)
  | trap (i : BitVec 18)
  | eret
  | csrr (d : Reg) (c : BitVec 12)
  | csrw (a : Reg) (c : BitVec 12)
  | mark (d : Reg) (k : BitVec 1)
  | seal (d a b : Reg) (m : BitVec 1)
  | unseal (d a b : Reg)
  | keyz (d a : Reg)
  | scrub (d : Reg)
  | ctrinc (d a : Reg) (r : BitVec 1)
  -- copies, dot jobs, streams, launches: the QX forms (R147 to R159, R270, R275)
  | copy (d a b : Reg) (tag : BitVec 6)
  | copyx (d a b f : Reg) (pl : BitVec 32)
  | copyg (d a b f : Reg) (pl : BitVec 32)
  | bdot (d a b : Reg) (pl : BitVec 32)
  | strm (d a b : Reg) (pl : BitVec 32)
  | strm2 (d a b f : Reg) (pl : BitVec 32)
  | spawn (d a b f : Reg) (pl : BitVec 32)
  -- the two CSRs whose CSRW has behaviour of its own (R70, R257)
  | xlinvWrite (a : Reg)
  | radepthWrite (a : Reg)
  -- element instructions: integer (R300 to R302)
  | iadd (e : EWord)
  | isub (e : EWord)
  | imul (e : EWord)
  | imulh (e : EWord)
  | imac (e : EWord)
  | imin (e : EWord)
  | imax (e : EWord)
  | iabs (e : EWord)
  | iand (e : EWord)
  | ior (e : EWord)
  | ixor (e : EWord)
  | inot (e : EWord)
  | ishl (e : EWord)
  | ishr (e : EWord)
  | iclz (e : EWord)
  | ipopc (e : EWord)
  | icmp (e : EWord)
  -- float (R303, R304)
  | fadd (e : EWord)
  | fsub (e : EWord)
  | fmul (e : EWord)
  | ffma (e : EWord)
  | fmin (e : EWord)
  | fmax (e : EWord)
  | fabs (e : EWord)
  | fneg (e : EWord)
  | fcmp (e : EWord)
  | fclamp (e : EWord)
  | frcp (e : EWord)
  | frsq (e : EWord)
  | fexp2 (e : EWord)
  | flog2 (e : EWord)
  -- lanes (R305)
  | vred (e : EWord)
  | vperm (e : EWord)
  | vbcast (e : EWord)
  | vsel (e : EWord)
  | vext (e : EWord)
  | vins (e : EWord)
  | vshuf (e : EWord)
  -- dataflow (R306 to R315)
  | steer (e : EWord)
  | steerc (e : EWord)
  | merge (e : EWord)
  | wadv (e : EWord)
  | gate (e : EWord)
  | sync (e : EWord)
  | dup (e : EWord)
  | const (e : EWord)
  | sink (e : EWord)
  | tagget (e : EWord)
  | tagset (e : EWord)
  | blkx (e : EWord)
  -- memory (R316 to R322)
  | lde (e : EWord)
  | ste (e : EWord)
  | ldx (e : EWord)
  | stx (e : EWord)
  | amoe (e : EWord)
  | fencee (e : EWord)
  -- converter (R323 to R327)
  | cvt (e : EWord)
  | cvts (e : EWord)
  | qnt (e : EWord)
  -- island (R340 to R346)
  | mma (e : EWord)
  | tload (e : EWord)
  | tstore (e : EWord)
  | tzero (e : EWord)
  | tbound (e : EWord)
  | tcvt (e : EWord)
  -- comb (R354 to R358)
  | ceval (e : EWord)
  | csched (e : EWord)
  | cloadctx (e : EWord)
  | csavectx (e : EWord)
  | cstate (e : EWord)
  -- every kind (R328, R329)
  | nop
  | trape (e : EWord)
  -- events of the fabric
  | tokenArrival (src : EdgeSrc) (dst : Dest)
  | wadvGrant (node : NodeRef) (slot : Nat) (key : Key)
  | blockCommit (b : BlockRef)
  | streamReadReturn (s : StreamRef)
  | reconfPass (ctx : BitVec 12) (handle : Nat)
  -- events of translation
  | pageWalk (die : Nat)
  | cowCopyDone (ctx : BitVec 12) (page : Nat)
  | cwPoolRefill (ctx : BitVec 12) (page : Nat)
  | cwemptyDelivery (ctx : BitVec 12) (page : Nat)
  | remotePullComplete (ctx : BitVec 12) (page : Nat) (r : PulledPage)
  | remotePullFail (ctx : BitVec 12) (page : Nat)
  | pullRequest (r : PullReq)
  | xlinvComplete (q : SeqId)
  -- events of arrays, engines and channels
  | aconvComplete (r : ArrayRef)
  | copyComplete (q : SeqId) (tag : BitVec 6)
  | refreshDue (pch bankGroup bank : Nat)
  | pchPowerDownRequest (pch : Nat)
  | deferralExpiry (pch : Nat)
  | pchWake (pch : Nat)
  | powerTrim (watts : Nat)
  | waggleToken
  -- events of queues and admission
  | queueTailUpdate (part q : Nat)
  | recordPop (q : SeqId)
  | admissionArbitrate (part : Nat)
  | barrierWatchdog (ctx : BitVec 12) (bar : Nat)
  -- events of faults and containment
  | faultRecordArrival (ctx : BitVec 12) (handle : Nat)
  | fabricTrap (ctx : BitVec 12) (handle : Nat)
  | subgraphSeal (ctx : BitVec 12) (handle : Nat)
  | uncorrectableError (part : Nat)
  | llcTagParityError (base set : Nat)
  -- events of cuts and scrubs
  | sliceExpiry (ctx : BitVec 12)
  | cutComplete (ctx : BitVec 12)
  | scrubBegin (part : Nat)
  | scrubComplete (part : Nat)
  -- the host and the management core
  | hostRead (addr len : Nat)
  | hostWrite (addr : Nat) (bytes : List Byte)
  | linkRetrain (up : Bool)
  | coldReset
  | warmReset
  | firmwareImage (bytes : List Byte)
  | partitionCreate (r : CreateReq)
  | partitionDestroy (part : Nat)
  | keyLoad (slot part : Nat) (key : WrappedKey)
  | bucketWrite (i : Nat) (v : Word)
  | queueRegisterWrite (part q : Nat) (ctl : Bool) (v : Word)
  | admissionRegisterWrite (part : Nat) (v : Word)
  | apertureWrite (i : Nat) (v : Word)
  | sliceSet (ctx : BitVec 12) (cycles : Nat)
  | restoreStart (ctx : BitVec 12)
  | lendRelease (lendId : Word)
  | summary
  | blackBoxRead (first count : Nat)
  | powerLimitSet (watts : Nat)
  | warmResetRequest
  | peerKeyReport (part ctr : Nat)
  | spdmCarry (req : List Byte)
  | getVersion (req : List Byte)
  | getCapabilities (req : List Byte)
  | negotiateAlgorithms (req : List Byte)
  | getDigests (req : List Byte)
  | getCertificate (req : List Byte)
  | challenge (req : List Byte)
  | getMeasurements (req : List Byte)
  | spdmUnsupportedRequest (req : List Byte)
  | managementRequestRefused (code : Nat)
  -- accesses, ports, power, errors, peers
  | accessPerformed (id : Nat)
  | bucketTokenGain
  | powerLoss
  | residencyMaskError (base set : Nat)
  | peerAccess (r : PeerReq)
  deriving DecidableEq, Repr

end Sys2Proof
end

