-- ==== Sys2Proof/Decode.lean ====
section
/-! DEFINITION. Reading the words of R30 and R34, the checks of R42, R33 and R44 on them, and an encoder written from
the same tables.  The decoder rejects by name; the range checks are separate, so that a word of an assigned opcode
with a reserved value is read as the instruction it would be and then refused. -/

namespace Sys2Proof

/-- Why a word is no instruction (R42, R44). -/
inductive Reject where
  /-- its opcode is unassigned -/
  | unassigned
  /-- a field it must leave zero is non-zero -/
  | reserved
  /-- fewer bytes than a word -/
  | short
  deriving DecidableEq, Repr

/-! ## Bit fields and byte order -/

/-- The little-endian number of a list of bytes (R7). -/
def leNat : List Byte → Nat
  | [] => 0
  | b :: bs => b.toNat + 256 * leNat bs

/-- The n little-endian bytes of a number (R7). -/
def leBytes : Nat → Nat → List Byte
  | 0, _ => []
  | n + 1, v => BitVec.ofNat 8 v :: leBytes n (v / 256)

def fOp (w : BitVec 32) : BitVec 8 := w.extractLsb' 24 8
def fD (w : BitVec 32) : BitVec 6 := w.extractLsb' 18 6
def fA (w : BitVec 32) : BitVec 6 := w.extractLsb' 12 6
def fB (w : BitVec 32) : BitVec 6 := w.extractLsb' 6 6
def fF (w : BitVec 32) : BitVec 6 := w.extractLsb' 0 6
def fI12 (w : BitVec 32) : BitVec 12 := w.extractLsb' 0 12
def fI18 (w : BitVec 32) : BitVec 18 := w.extractLsb' 0 18
def fOff (w : BitVec 32) : BitVec 19 := w.extractLsb' 0 19
def fP (w : BitVec 32) : BitVec 4 := w.extractLsb' 20 4
def fN (w : BitVec 32) : BitVec 1 := w.extractLsb' 19 1
/-- The order and scope of F (R32). -/
def fOS (w : BitVec 32) : OrdScope := { ord := w.extractLsb' 3 3, scope := w.extractLsb' 0 3 }

/-- The instruction i, when the fields it must leave zero are zero (R33, R42). -/
def need (ok : Bool) (i : Instr) : Except Reject Instr :=
  if ok then .ok i else .error .reserved

/-- A register field names a predicate only with its high two bits zero (R30). -/
def fPred (f : BitVec 6) : Pred := f.extractLsb' 0 4
def predOk (f : BitVec 6) : Bool := f.extractLsb' 4 2 == 0

/-- Whether an opcode is one of the QX forms, whose payload is the next word (R30, R40). -/
def isQX (w : BitVec 32) : Bool := 0xE0 ≤ (fOp w).toNat

/-! ## The sequencer decoder (R39, R40) -/

/-- The sequencer instruction of a word and, for the QX forms, its payload. -/
def decodeSeq (w pl : BitVec 32) : Except Reject Instr :=
  let d := fD w
  let a := fA w
  let b := fB w
  let f := fF w
  let i := fI12 w
  let p := fPred d
  match (fOp w).toNat with
  | 0x00 => need (f == 0) (.add d a b)
  | 0x01 => need (f == 0) (.sub d a b)
  | 0x02 => need (f == 0) (.mul d a b)
  | 0x03 => need (f == 0) (.mulh d a b)
  | 0x04 => need (f == 0) (.mulhu d a b)
  | 0x05 => need (f == 0) (.div d a b)
  | 0x06 => need (f == 0) (.divu d a b)
  | 0x07 => need (f == 0) (.rem d a b)
  | 0x08 => need (f == 0) (.remu d a b)
  | 0x09 => need (f == 0) (.and d a b)
  | 0x0A => need (f == 0) (.or d a b)
  | 0x0B => need (f == 0) (.xor d a b)
  | 0x0C => need (f == 0) (.shl d a b)
  | 0x0D => need (f == 0) (.shr d a b)
  | 0x0E => need (f == 0) (.sra d a b)
  | 0x0F => need (f == 0) (.min d a b)
  | 0x10 => need (f == 0) (.max d a b)
  | 0x11 => need (f == 0) (.minu d a b)
  | 0x12 => need (f == 0) (.maxu d a b)
  | 0x13 => need (b == 0 && f == 0) (.clz d a)
  | 0x14 => need (b == 0 && f == 0) (.popc d a)
  | 0x15 => need (predOk f) (.sel d a b (fPred f))
  | 0x16 => need (b == 0 && f == 0) (.mov d a)
  | 0x20 => .ok (.addi d a i)
  | 0x21 => .ok (.andi d a i)
  | 0x22 => .ok (.ori d a i)
  | 0x23 => .ok (.xori d a i)
  | 0x24 => need (b == 0) (.shli d a f)
  | 0x25 => need (b == 0) (.shri d a f)
  | 0x26 => need (b == 0) (.srai d a f)
  | 0x27 => need (predOk d) (.cmpeqi p a i)
  | 0x28 => need (predOk d) (.cmpnei p a i)
  | 0x29 => need (predOk d) (.cmplti p a i)
  | 0x2A => need (predOk d) (.cmpgei p a i)
  | 0x2E => .ok (.liShort d (fI18 w))
  | 0x2F => .ok (.lih d (fI18 w))
  | 0x30 => need (predOk d && f == 0) (.cmpeq p a b)
  | 0x31 => need (predOk d && f == 0) (.cmpne p a b)
  | 0x32 => need (predOk d && f == 0) (.cmplt p a b)
  | 0x33 => need (predOk d && f == 0) (.cmpge p a b)
  | 0x34 => need (predOk d && f == 0) (.cmpltu p a b)
  | 0x35 => need (predOk d && f == 0) (.cmpgeu p a b)
  | 0x38 => need (predOk d && predOk a && predOk b && f == 0) (.pand p (fPred a) (fPred b))
  | 0x39 => need (predOk d && predOk a && predOk b && f == 0) (.por p (fPred a) (fPred b))
  | 0x3A => need (predOk d && predOk a && b == 0 && f == 0) (.pnot p (fPred a))
  | 0x40 => need (fP w == 0 && fN w == 0) (.b (fOff w))
  | 0x41 => .ok (.bc (fP w) (fN w) (fOff w))
  | 0x42 => need (fP w == 0 && fN w == 0) (.call (fOff w))
  | 0x43 => need (d == 0 && a == 0 && b == 0 && f == 0) .ret
  | 0x44 => need (d == 0 && b == 0 && f == 0) (.jr a)
  | 0x45 => need (a == 0) (.loop d i)
  | 0x50 => .ok (.ldsShort 0 d a i)
  | 0x51 => .ok (.ldsShort 1 d a i)
  | 0x52 => .ok (.ldsShort 2 d a i)
  | 0x53 => .ok (.ldsShort 3 d a i)
  | 0x54 => .ok (.ldsShort 4 d a i)
  | 0x55 => .ok (.ldsShort 5 d a i)
  | 0x56 => .ok (.ldsShort 6 d a i)
  | 0x57 => .ok (.ldsShort 7 d a i)
  | 0x58 => .ok (.stsShort 0 d a i)
  | 0x59 => .ok (.stsShort 1 d a i)
  | 0x5A => .ok (.stsShort 2 d a i)
  | 0x5B => .ok (.stsShort 3 d a i)
  | 0x5C => .ok (.stsShort 4 d a i)
  | 0x60 => .ok (.amoadd d a b (fOS w))
  | 0x61 => .ok (.amomin d a b (fOS w))
  | 0x62 => .ok (.amomax d a b (fOS w))
  | 0x63 => .ok (.amoand d a b (fOS w))
  | 0x64 => .ok (.amoor d a b (fOS w))
  | 0x65 => .ok (.amoxor d a b (fOS w))
  | 0x66 => .ok (.amoswap d a b (fOS w))
  | 0x67 => .ok (.amocas d a b (fOS w))
  | 0x68 => need (b == 0) (.amaxrs d a (fOS w))
  | 0x69 => need (d == 0 && a == 0 && b == 0) (.fence (fOS w))
  | 0x6A => need (d == 0 && f == 0) (.cclean a b)
  | 0x6B => need (d == 0 && f == 0) (.cinval a b)
  | 0x6C => need (d == 0 && f == 0) (.cflush a b)
  | 0x6D => need (d == 0 && f == 0) (.cpref a b)
  | 0x6E => need (d == 0 && b == 0 && f.extractLsb' 3 3 == 0) (.aconv a (f.extractLsb' 0 3))
  | 0x6F => need (b == 0 && f == 0) (.aquery d a)
  | 0x70 => need (b == 0 && f == 0) (.wany d a)
  | 0x71 => need (b == 0 && f == 0) (.wall d a)
  | 0x72 => need (b == 0 && f == 0) (.cffr d a)
  | 0x73 => need (d == 0 && b == 0 && f == 0) (.ctagclr a)
  | 0x74 => need (d == 0 && w.extractLsb' 16 2 == 0)
      (.waitc (w.extractLsb' 12 4) (w.extractLsb' 8 4) (w.extractLsb' 4 4) (w.extractLsb' 0 4))
  | 0x80 => need (b == 0 && f.extractLsb' 1 5 == 0) (.strmend d a (f.extractLsb' 0 1))
  | 0x81 => need (f == 0) (.join d a b)
  | 0x82 => need (d == 0 && f == 0) (.cont a b)
  | 0x83 => need (d == 0 && a == 0 && b == 0 && f == 0) .endU
  | 0x84 => need (b == 0 && f.extractLsb' 3 3 == 0) (.cancel d a (f.extractLsb' 0 3))
  | 0x85 => need (b == 0 && f.extractLsb' 4 2 == 0) (.cdone d a (f.extractLsb' 3 1) (f.extractLsb' 0 3))
  | 0x86 => need (b == 0 && f == 0) (.bar d a)
  | 0x87 => need (d == 0 && f == 0) (.barc a b)
  | 0x88 => need (f.extractLsb' 1 5 == 0) (.recfg d a b (f.extractLsb' 0 1))
  | 0x89 => need (f == 0) (.loadcfg d a b)
  | 0x90 => need (f == 0) (.tdef d a b)
  | 0x91 => need (f == 0) (.tscale d a b)
  | 0x92 => need (f == 0) (.tread d a b)
  | 0xC0 => need (d == 0) (.trap (fI18 w))
  | 0xC1 => need (d == 0 && a == 0 && b == 0 && f == 0) .eret
  | 0xC2 => need (a == 0) (.csrr d i)
  | 0xC3 => need (d == 0)
      (if i == 0x412 then .xlinvWrite a else if i == 0x409 then .radepthWrite a else .csrw a i)
  | 0xC4 => need (a == 0 && b == 0 && f.extractLsb' 1 5 == 0) (.mark d (f.extractLsb' 0 1))
  | 0xC5 => need (f.extractLsb' 1 5 == 0) (.seal d a b (f.extractLsb' 0 1))
  | 0xC6 => need (f == 0) (.unseal d a b)
  | 0xC7 => need (b == 0 && f == 0) (.keyz d a)
  | 0xC8 => need (a == 0 && b == 0 && f == 0) (.scrub d)
  | 0xC9 => need (b == 0 && f.extractLsb' 1 5 == 0) (.ctrinc d a (f.extractLsb' 0 1))
  | 0xE0 => need (b.extractLsb' 3 3 == 0) (.ldsLong (b.extractLsb' 0 3) d a (fOS w) pl)
  | 0xE1 => need (b.extractLsb' 3 3 == 0) (.stsLong (b.extractLsb' 0 3) d a (fOS w) pl)
  | 0xE2 => need (a.extractLsb' 2 4 == 0) (.liLong d (a.extractLsb' 0 2 ++ b ++ f ++ pl))
  | 0xE3 => need (f == 0 && pl.extractLsb' 6 26 == 0) (.copy d a b (pl.extractLsb' 0 6))
  | 0xE4 => .ok (.copyx d a b f pl)
  | 0xE5 => .ok (.copyg d a b f pl)
  | 0xE6 => need (f == 0) (.bdot d a b pl)
  | 0xE7 => need (f == 0) (.strm d a b pl)
  | 0xE8 => .ok (.strm2 d a b f pl)
  | 0xE9 => .ok (.spawn d a b f pl)
  | _ => .error .unassigned

/-- The sequencer instruction at the head of a list of bytes; the payload of a form that has none is not read. -/
def decodeBytes (bs : List Byte) : Except Reject Instr :=
  if bs.length < 4 then .error .short
  else
    let w := BitVec.ofNat 32 (leNat (bs.take 4))
    if isQX w && bs.length < 8 then .error .short
    else decodeSeq w (BitVec.ofNat 32 (leNat ((bs.drop 4).take 4)))

/-- How many bytes the instruction of a first word takes (R21, R30). -/
def seqBytes (w : BitVec 32) : Nat := if isQX w then 8 else 4

/-! ## The element decoder (R34, R41) -/

/-- The instruction of an opcode of R41 with the rest of its word. -/
def elemOf (op : Nat) (e : EWord) : Option Instr :=
  match op with
  | 0x00 => some (.iadd e)
  | 0x01 => some (.isub e)
  | 0x02 => some (.imul e)
  | 0x03 => some (.imulh e)
  | 0x04 => some (.imac e)
  | 0x05 => some (.imin e)
  | 0x06 => some (.imax e)
  | 0x07 => some (.iabs e)
  | 0x08 => some (.iand e)
  | 0x09 => some (.ior e)
  | 0x0A => some (.ixor e)
  | 0x0B => some (.inot e)
  | 0x0C => some (.ishl e)
  | 0x0D => some (.ishr e)
  | 0x0E => some (.iclz e)
  | 0x0F => some (.ipopc e)
  | 0x10 => some (.icmp e)
  | 0x20 => some (.fadd e)
  | 0x21 => some (.fsub e)
  | 0x22 => some (.fmul e)
  | 0x23 => some (.ffma e)
  | 0x24 => some (.fmin e)
  | 0x25 => some (.fmax e)
  | 0x26 => some (.fabs e)
  | 0x27 => some (.fneg e)
  | 0x28 => some (.fcmp e)
  | 0x29 => some (.fclamp e)
  | 0x2A => some (.frcp e)
  | 0x2B => some (.frsq e)
  | 0x2C => some (.fexp2 e)
  | 0x2D => some (.flog2 e)
  | 0x40 => some (.vred e)
  | 0x41 => some (.vperm e)
  | 0x42 => some (.vbcast e)
  | 0x43 => some (.vsel e)
  | 0x44 => some (.vext e)
  | 0x45 => some (.vins e)
  | 0x46 => some (.vshuf e)
  | 0x50 => some (.steer e)
  | 0x51 => some (.steerc e)
  | 0x52 => some (.merge e)
  | 0x53 => some (.wadv e)
  | 0x54 => some (.gate e)
  | 0x55 => some (.sync e)
  | 0x56 => some (.dup e)
  | 0x57 => some (.const e)
  | 0x58 => some (.sink e)
  | 0x59 => some (.tagget e)
  | 0x5A => some (.tagset e)
  | 0x5B => some (.blkx e)
  | 0x70 => some (.lde e)
  | 0x71 => some (.ste e)
  | 0x72 => some (.ldx e)
  | 0x73 => some (.stx e)
  | 0x74 => some (.amoe e)
  | 0x75 => some (.fencee e)
  | 0x80 => some (.cvt e)
  | 0x81 => some (.cvts e)
  | 0x82 => some (.qnt e)
  | 0x90 => some (.mma e)
  | 0x91 => some (.tload e)
  | 0x92 => some (.tstore e)
  | 0x93 => some (.tzero e)
  | 0x94 => some (.tbound e)
  | 0x95 => some (.tcvt e)
  | 0xA0 => some (.ceval e)
  | 0xA1 => some (.csched e)
  | 0xA2 => some (.cloadctx e)
  | 0xA3 => some (.csavectx e)
  | 0xA4 => some (.cstate e)
  | 0xF1 => some (.trape e)
  | 0xF0 => if e == { ty := 0, mod := 0, t0 := 0, t1 := 0, x := 0 } then some .nop else none
  | _ => none

/-- The opcode byte of an element, converter, island or comb word. -/
def eOp (w : BitVec 64) : Nat := (w.extractLsb' 56 8).toNat

/-- The fields of a word under the opcode (R34). -/
def eWord (w : BitVec 64) : EWord :=
  { ty := w.extractLsb' 52 4, mod := w.extractLsb' 48 4, t0 := w.extractLsb' 32 16, t1 := w.extractLsb' 16 16,
    x := w.extractLsb' 0 16 }

/-- The instruction of a slot's word. -/
def decodeElem (w : BitVec 64) : Option Instr := elemOf (eOp w) (eWord w)

/-! ## Targets (R36, R37) -/

def tV (t : BitVec 16) : Bool := t.extractLsb' 15 1 == 1
def tDX (t : BitVec 16) : Int := (t.extractLsb' 12 3).toInt
def tDY (t : BitVec 16) : Int := (t.extractLsb' 9 3).toInt
def tE (t : BitVec 16) : Nat := (t.extractLsb' 7 2).toNat
def tSlot (t : BitVec 16) : Nat := (t.extractLsb' 2 5).toNat
def tOpd (t : BitVec 16) : Opd :=
  match (t.extractLsb' 0 2).toNat with
  | 0 => .a
  | 1 => .b
  | 2 => .c
  | _ => .g
/-- A long route: DX = DY = −4 (R37). -/
def tLong (t : BitVec 16) : Bool := tV t && t.extractLsb' 9 6 == 0b100100
/-- A target breaks R36 or R37. -/
def tBad (t : BitVec 16) : Bool :=
  (!tV t && t != 0) || (tLong t && t.extractLsb' 0 9 != 0)

/-! ## The checks on a configuration word (R44) -/

/-- Kinds of slot (R38). -/
inductive SlotKind where
  | element | converter | island | comb
  deriving DecidableEq, Repr

/-- Whether a slot of a kind accepts an opcode (R38). -/
def kindAccepts (k : SlotKind) (op : Nat) : Bool :=
  match k with
  | .element => op ≤ 0x7F || op == 0xF0 || op == 0xF1
  | .converter => (0x80 ≤ op && op ≤ 0x8F) || op == 0xF0 || op == 0xF1
  | .island => (0x90 ≤ op && op ≤ 0x9F) || op == 0xF0
  | .comb => (0xA0 ≤ op && op ≤ 0xAF) || op == 0xF0

/-- Whether an opcode is assigned in an encoding version (R41, R46). -/
def elemAssigned (ver op : Nat) : Bool :=
  (op ≤ 0x10 || (0x20 ≤ op && op ≤ 0x2D) || (0x40 ≤ op && op ≤ 0x46) || (0x50 ≤ op && op ≤ 0x5B) ||
    (0x70 ≤ op && op ≤ 0x75) || (0x80 ≤ op && op ≤ 0x82) || (0x90 ≤ op && op ≤ 0x95 && !(op == 0x94 && ver < 3)) ||
    (0xA0 ≤ op && op ≤ 0xA4 && 2 ≤ ver) || op == 0xF0 || op == 0xF1)

/-- The lane width of a type code (R230). -/
def tyWidth (ty : Nat) : Nat :=
  match ty with
  | 0 | 4 => 8
  | 1 | 5 | 8 | 9 => 16
  | 2 | 6 | 10 => 32
  | 3 | 7 => 64
  | _ => 1

/-- The lane count of a type code (R230). -/
def tyLanes (ty : Nat) : Nat := 256 / tyWidth ty

/-- Whether an immediate X keeps to the row of its type (R295). -/
def immOk (ty : Nat) (x : BitVec 16) : Bool :=
  match ty with
  | 0 => x.extractLsb' 8 8 == (if x.extractLsb' 7 1 == 1 then 0xFF else 0)
  | 4 => x.extractLsb' 8 8 == 0
  | _ => true

/-- Whether an integer or float opcode waits on b (R300, R303). -/
def hasB (op : Nat) : Bool :=
  !(op == 0x07 || op == 0x0B || op == 0x0E || op == 0x0F || op == 0x26 || op == 0x27 || (0x2A ≤ op && op ≤ 0x2D))

/-- Whether an opcode has the saturation slot (R300). -/
def hasSat (op : Nat) : Bool :=
  op == 0 || op == 1 || op == 2 || op == 4 || op == 7 || op == 0xC

/-- Whether a float opcode has the rounding slot (R303). -/
def hasRnd (op : Nat) : Bool :=
  (0x20 ≤ op && op ≤ 0x23) || (0x2A ≤ op && op ≤ 0x2D)

/-- The reasons, R44, of the MOD and X of an integer or float word (R294, R295, R300 to R303).  A long route in one target
takes its half of X alone: beside that of T0, HB and HW still stand in X[15:8] and must be 0; beside that of T1, X[7:0] is
unused (R33, R37). -/
def arithReasons (op : Nat) (e : EWord) : List Nat :=
  let ty := e.ty.toNat
  let long := tLong e.t0 || tLong e.t1
  let imm := e.mod.extractLsb' 3 1 == 1
  let sat := e.mod.extractLsb' 2 1 == 1
  let rnd := e.mod.extractLsb' 0 2
  let cnd := (e.mod.extractLsb' 0 3).toNat
  let int := op ≤ 0x10
  let logic := 8 ≤ op && op ≤ 0xB
  let tyBad := if int then !(ty ≤ 7 || (logic && ty == 11)) else !(8 ≤ ty && ty ≤ 10)
  let modBad :=
    if op == 0x10 then 6 ≤ cnd
    else if op == 0x28 then cnd == 7
    else if int then (sat && !hasSat op) || rnd != 0
    else sat || (rnd != 0 && !hasRnd op)
  let hb := e.x.extractLsb' 15 1 == 1
  let hw := e.x.extractLsb' 11 1 == 1
  let lowBad := !tLong e.t0 && e.x.extractLsb' 0 8 != 0
  let holdBad := !tLong e.t1 && ((!hb && e.x.extractLsb' 12 3 != 0) || (!hw && e.x.extractLsb' 8 3 != 0))
  let xBad := if imm then !long && !immOk ty e.x else lowBad || holdBad
  let held := !imm && !tLong e.t1
  (if tyBad || (imm && ty == 11) then [0x0A] else []) ++
  (if modBad || xBad || (imm && !hasB op) || (held && hb && !hasB op) then [0x02] else []) ++
  (if long && (imm || (held && (hb || hw))) then [0x0B] else [])

/-- A word that uses X may not have a long route (R37). -/
def noLong (e : EWord) : List Nat := if tLong e.t0 || tLong e.t1 then [0x0B] else []

/-- A word that does not use X holds zero there, unless a long route takes a fanout entry from it (R33, R37). -/
def xFree (e : EWord) : List Nat :=
  let lo := e.x.extractLsb' 0 8
  let hi := e.x.extractLsb' 8 8
  if (!tLong e.t0 && lo != 0) || (!tLong e.t1 && hi != 0) then [0x02] else []

def reasonIf (bad : Bool) (r : Nat) : List Nat := if bad then [r] else []

/-- The reasons of a lane instruction (R305). -/
def laneReasons (op : Nat) (e : EWord) : List Nat :=
  let ty := e.ty.toNat
  let n := tyLanes ty
  let flt := 8 ≤ ty && ty ≤ 10
  reasonIf (10 < ty) 0x0A ++
  (if op == 0x40 then
    reasonIf (e.mod.extractLsb' 2 2 == 3 ||
      (e.mod.extractLsb' 0 2 != 0 && !(flt && e.mod.extractLsb' 2 2 == 0))) 0x02 ++ xFree e
  else reasonIf (e.mod != 0) 0x02 ++
    (if op == 0x42 || op == 0x44 || op == 0x45 then
      noLong e ++ reasonIf (e.x.extractLsb' 8 8 != 0 || n ≤ (e.x.extractLsb' 0 8).toNat) 0x02
    else if op == 0x46 then noLong e ++ reasonIf (e.x.extractLsb' 2 14 != 0) 0x02
    else xFree e))

/-- The reasons of a dataflow instruction but for the loop of WADV (R306 to R315). -/
def flowReasons (op : Nat) (e : EWord) : List Nat :=
  let ty := e.ty.toNat
  match op with
  | 0x53 => reasonIf (ty != 0) 0x0A ++ noLong e ++ reasonIf (3 ≤ e.mod.toNat) 0x02
  | 0x54 => reasonIf (ty != 0) 0x0A ++ reasonIf (2 ≤ e.mod.toNat) 0x02 ++ xFree e
  | 0x56 => reasonIf (ty != 0) 0x0A ++ noLong e ++ reasonIf (e.mod != 0 || tBad e.x || tLong e.x) 0x02
  | 0x57 =>
    if e.mod == 0 then reasonIf (11 ≤ ty) 0x0A ++ noLong e ++ reasonIf (!immOk ty e.x) 0x02
    else if e.mod == 8 then reasonIf (ty != 0) 0x0A ++ noLong e ++ reasonIf (e.x.extractLsb' 3 13 != 0) 0x02
    else [0x02]
  | 0x58 => reasonIf (ty != 0) 0x0A ++ reasonIf (e.mod != 0 || tV e.t0 || tV e.t1) 0x02 ++ xFree e
  | 0x5A =>
    reasonIf (ty != 0) 0x0A ++
    (if e.mod == 0 then xFree e
    else if e.mod == 1 || e.mod == 2 then noLong e ++ reasonIf (e.x.extractLsb' 8 8 != 0) 0x02
    else [0x02])
  | _ => reasonIf (ty != 0) 0x0A ++ reasonIf (e.mod != 0) 0x02 ++ xFree e

/-- The orders a memory instruction of an element accepts (R316). -/
def elemOrders (op : Nat) : List Nat :=
  match op with
  | 0x70 => [0, 1, 4]
  | 0x71 => [0, 2, 4]
  | 0x72 => [0, 1]
  | 0x73 => [0, 2]
  | 0x74 => [0, 1, 2, 3, 4]
  | _ => [1, 2, 3, 4]

/-- The reasons of a memory instruction (R316 to R321). -/
def memReasons (op : Nat) (e : EWord) : List Nat :=
  let ty := e.ty.toNat
  let o := (e.x.extractLsb' 5 3).toNat
  let sc := (e.x.extractLsb' 2 3).toNat
  noLong e ++
  reasonIf (if op == 0x72 || op == 0x73 then 7 < ty else ty != 0) 0x0A ++
  reasonIf (!(elemOrders op).contains o || 5 ≤ sc || e.x.extractLsb' 0 2 != 0 ||
    (e.x.extractLsb' 15 1 == 0 && e.x.extractLsb' 8 7 != 0)) 0x02 ++
  reasonIf (if op == 0x70 || op == 0x71 then 6 ≤ e.mod.toNat || (o == 4 && e.mod == 5)
    else if op == 0x74 then 8 ≤ e.mod.toNat else e.mod != 0) 0x02

/-- The reasons of a converter instruction (R325 to R327, R46). -/
def convReasons (ver op : Nat) (e : EWord) : List Nat :=
  let ty := e.ty.toNat
  noLong e ++
  match op with
  | 0x80 =>
    let dt := (e.x.extractLsb' 0 4).toNat
    let part := (e.x.extractLsb' 4 2).toNat
    let ws := tyWidth ty
    let wd := tyWidth dt
    let sat := e.mod.extractLsb' 2 1 == 1
    reasonIf (11 ≤ ty || 11 ≤ dt) 0x0A ++
    reasonIf (e.mod.extractLsb' 3 1 == 1 || e.x.extractLsb' 6 10 != 0 ||
      (ty ≤ 10 && dt ≤ 10 && (if wd ≤ ws then part != 0 else wd / ws ≤ part)) ||
      (sat && !(ty ≤ 7 && dt ≤ 7 && wd < ws))) 0x02
  | 0x81 =>
    let enc := e.mod.extractLsb' 2 1 == 1
    reasonIf (!(ty == 8 || ty == 9)) 0x0A ++
    reasonIf ((ver < 3 && e.mod.extractLsb' 3 1 == 1) || e.x.extractLsb' 11 5 != 0 ||
      (enc && (e.mod.extractLsb' 0 2 != 0 || e.x.extractLsb' 10 1 == 1))) 0x02
  | _ => reasonIf (!(ty == 8 || ty == 9)) 0x0A ++ reasonIf (e.mod != 0 || e.x.extractLsb' 10 6 != 0) 0x02

/-- The reasons of an island instruction (R335, R340, R46). -/
def islandReasons (ver op : Nat) (e : EWord) : List Nat :=
  let modMask : Nat := match op with
    | 0x90 | 0x95 => if ver < 3 then 0 else 8
    | 0x91 | 0x93 => 4
    | _ => 0
  reasonIf (e.ty != 0) 0x0A ++ xFree e ++ reasonIf (!(e.mod.toNat == 0 || e.mod.toNat == modMask)) 0x02

/-- The reasons of a comb instruction (R354). -/
def combReasons (op : Nat) (e : EWord) : List Nat :=
  reasonIf (e.ty != 0) 0x0A ++ noLong e ++
  reasonIf (match op with
    | 0xA0 => 2 ≤ e.mod.toNat || e.x.extractLsb' 8 8 != 0 || (e.mod == 0 && e.x.extractLsb' 4 4 != 0)
    | 0xA1 => e.mod != 0 || e.x.extractLsb' 4 12 != 0
    | 0xA4 => 2 ≤ e.mod.toNat || e.x.extractLsb' 4 12 != 0
    | _ => e.mod != 0 || e.x.extractLsb' 4 4 != 0 || (e.x.extractLsb' 15 1 == 0 && e.x.extractLsb' 8 7 != 0)) 0x02

/-- The reasons of the fields of a word whose opcode is assigned, in any order. -/
def fieldReasons (ver op : Nat) (e : EWord) : List Nat :=
  reasonIf (tBad e.t0 || tBad e.t1 || 12 ≤ e.ty.toNat) 0x02 ++
  (if op ≤ 0x2D then arithReasons op e
  else if op ≤ 0x46 then laneReasons op e
  else if op ≤ 0x5B then flowReasons op e
  else if op ≤ 0x75 then memReasons op e
  else if op ≤ 0x82 then convReasons ver op e
  else if op ≤ 0x95 then islandReasons ver op e
  else if op ≤ 0xA4 then combReasons op e
  else if op == 0xF0 then reasonIf (e != { ty := 0, mod := 0, t0 := 0, t1 := 0, x := 0 }) 0x02
  else reasonIf (2 ≤ e.mod.toNat) 0x02 ++ reasonIf (e.ty != 0) 0x0A ++ noLong e)

/-- The reasons of a word in a slot of a kind that its own bits show (R44); LOADCFG adds those that its place and the
other records show. -/
def wordReasons (ver : Nat) (k : SlotKind) (w : BitVec 64) : List Nat :=
  let op := eOp w
  if !elemAssigned ver op then [0x01]
  else (if kindAccepts k op then [] else if 0x80 ≤ op && op ≤ 0x8F then [0x04] else [0x03]) ++ fieldReasons ver op (eWord w)

/-! ## The checks on a sequencer instruction (R33, R42, R121) -/

def ordIn (os : OrdScope) (orders : List Nat) : Bool := orders.contains os.ord.toNat && os.scope.toNat < 5

/-- Whether a COPYX payload keeps to its layout (R149). -/
def copyxOk (f : Reg) (pl : BitVec 32) : Bool :=
  let xf := (pl.extractLsb' 6 2).toNat
  let sty := (pl.extractLsb' 8 4).toNat
  let logb := (pl.extractLsb' 13 4).toNat
  pl.extractLsb' 17 15 == 0 && 8 ≤ sty && sty ≤ 10 &&
  (if xf == 3 then 1 ≤ logb && logb ≤ 12 && f == 0 else logb == 0 && pl.extractLsb' 12 1 == 0)

/-- Whether a STRM payload keeps to its layout (R270). -/
def strmOk (pl : BitVec 32) : Bool :=
  let tgt := pl.extractLsb' 0 16
  pl.extractLsb' 16 2 == 0 &&
  (if pl.extractLsb' 19 1 == 1 then pl.extractLsb' 18 1 == 0 && tgt.extractLsb' 9 7 == 0 && tgt.extractLsb' 0 2 == 0
  else !tLong tgt && !tBad tgt)

/-- The range checks of a sequencer instruction in an encoding version. -/
def seqOk (ver : Nat) : Instr → Bool
  | .ldsShort w d _ _ => w != 7 || d.extractLsb' 0 1 == 0
  | .stsShort w d _ _ => w.toNat ≤ 4 && (w != 4 || d.extractLsb' 0 1 == 0)
  | .ldsLong w d _ os _ => ordIn os [0, 1, 4] && (w != 7 || d.extractLsb' 0 1 == 0)
  | .stsLong w d _ os _ =>
    ordIn os [0, 2, 4] && w != 1 && w != 3 && w != 5 && (w != 7 || d.extractLsb' 0 1 == 0)
  | .amoadd _ _ _ os | .amomin _ _ _ os | .amomax _ _ _ os | .amoand _ _ _ os | .amoor _ _ _ os | .amoxor _ _ _ os
  | .amoswap _ _ _ os | .amocas _ _ _ os => ordIn os [0, 1, 2, 3, 4]
  | .amaxrs _ _ os => ordIn os [0, 1, 2, 3, 4]
  | .fence os => ordIn os [1, 2, 3, 4]
  | .csrw _ c => c != 0x412 && c != 0x409
  | .aconv _ m => m.toNat ≤ (if ver == 1 then 2 else 4)
  | .cancel _ _ l => 1 ≤ l.toNat && l.toNat ≤ 4
  | .cdone _ _ _ l => 1 ≤ l.toNat && l.toNat ≤ 4
  | .copyx _ _ _ f pl => copyxOk f pl
  | .copyg _ _ _ _ pl =>
    pl.extractLsb' 11 21 == 0 && 7 ≤ (pl.extractLsb' 6 5).toNat && (pl.extractLsb' 6 5).toNat ≤ 16
  | .bdot _ _ _ pl => pl.extractLsb' 12 20 == 0 && pl.extractLsb' 10 2 != 3 && pl.extractLsb' 7 2 != 3
  | .strm _ _ _ pl => strmOk pl
  | .strm2 _ _ _ f pl => strmOk pl && f.extractLsb' 0 1 == 0
  | .spawn _ _ _ f pl =>
    pl.extractLsb' 0 4 == 0 && 11 ≤ (pl.extractLsb' 4 5).toNat && (pl.extractLsb' 4 5).toNat ≤ 26 && f.extractLsb' 0 1 == 0
  | _ => true

/-! ## The encoder (R30, R34) -/

def q3 (op : BitVec 8) (d a b f : BitVec 6) : BitVec 32 := op ++ d ++ a ++ b ++ f
def qi (op : BitVec 8) (d a : BitVec 6) (i : BitVec 12) : BitVec 32 := op ++ d ++ a ++ i
def ql (op : BitVec 8) (d : BitVec 6) (i : BitVec 18) : BitVec 32 := op ++ d ++ i
def qb (op : BitVec 8) (p : BitVec 4) (n : BitVec 1) (o : BitVec 19) : BitVec 32 := op ++ p ++ n ++ o
/-- A predicate in a register field (R30). -/
def pf (p : Pred) : BitVec 6 := 0#2 ++ p
/-- An order and scope in F (R32). -/
def osf (os : OrdScope) : BitVec 6 := os.ord ++ os.scope

/-- The words of a sequencer instruction: the word, and the payload of a QX form. -/
def encodeSeq : Instr → Option (BitVec 32 × Option (BitVec 32))
  | .add d a b => some (q3 0x00 d a b 0, none)
  | .sub d a b => some (q3 0x01 d a b 0, none)
  | .mul d a b => some (q3 0x02 d a b 0, none)
  | .mulh d a b => some (q3 0x03 d a b 0, none)
  | .mulhu d a b => some (q3 0x04 d a b 0, none)
  | .div d a b => some (q3 0x05 d a b 0, none)
  | .divu d a b => some (q3 0x06 d a b 0, none)
  | .rem d a b => some (q3 0x07 d a b 0, none)
  | .remu d a b => some (q3 0x08 d a b 0, none)
  | .and d a b => some (q3 0x09 d a b 0, none)
  | .or d a b => some (q3 0x0A d a b 0, none)
  | .xor d a b => some (q3 0x0B d a b 0, none)
  | .shl d a b => some (q3 0x0C d a b 0, none)
  | .shr d a b => some (q3 0x0D d a b 0, none)
  | .sra d a b => some (q3 0x0E d a b 0, none)
  | .min d a b => some (q3 0x0F d a b 0, none)
  | .max d a b => some (q3 0x10 d a b 0, none)
  | .minu d a b => some (q3 0x11 d a b 0, none)
  | .maxu d a b => some (q3 0x12 d a b 0, none)
  | .clz d a => some (q3 0x13 d a 0 0, none)
  | .popc d a => some (q3 0x14 d a 0 0, none)
  | .sel d a b p => some (q3 0x15 d a b (pf p), none)
  | .mov d a => some (q3 0x16 d a 0 0, none)
  | .addi d a i => some (qi 0x20 d a i, none)
  | .andi d a i => some (qi 0x21 d a i, none)
  | .ori d a i => some (qi 0x22 d a i, none)
  | .xori d a i => some (qi 0x23 d a i, none)
  | .shli d a i => some (q3 0x24 d a 0 i, none)
  | .shri d a i => some (q3 0x25 d a 0 i, none)
  | .srai d a i => some (q3 0x26 d a 0 i, none)
  | .cmpeqi d a i => some (qi 0x27 (pf d) a i, none)
  | .cmpnei d a i => some (qi 0x28 (pf d) a i, none)
  | .cmplti d a i => some (qi 0x29 (pf d) a i, none)
  | .cmpgei d a i => some (qi 0x2A (pf d) a i, none)
  | .liShort d i => some (ql 0x2E d i, none)
  | .lih d i => some (ql 0x2F d i, none)
  | .cmpeq d a b => some (q3 0x30 (pf d) a b 0, none)
  | .cmpne d a b => some (q3 0x31 (pf d) a b 0, none)
  | .cmplt d a b => some (q3 0x32 (pf d) a b 0, none)
  | .cmpge d a b => some (q3 0x33 (pf d) a b 0, none)
  | .cmpltu d a b => some (q3 0x34 (pf d) a b 0, none)
  | .cmpgeu d a b => some (q3 0x35 (pf d) a b 0, none)
  | .pand d a b => some (q3 0x38 (pf d) (pf a) (pf b) 0, none)
  | .por d a b => some (q3 0x39 (pf d) (pf a) (pf b) 0, none)
  | .pnot d a => some (q3 0x3A (pf d) (pf a) 0 0, none)
  | .b o => some (qb 0x40 0 0 o, none)
  | .bc p n o => some (qb 0x41 p n o, none)
  | .call o => some (qb 0x42 0 0 o, none)
  | .ret => some (q3 0x43 0 0 0 0, none)
  | .jr a => some (q3 0x44 0 a 0 0, none)
  | .loop d i => some (qi 0x45 d 0 i, none)
  | .ldsShort w d a i => some (qi (0b01010#5 ++ w) d a i, none)
  | .stsShort w d a i => some (qi (0b01011#5 ++ w) d a i, none)
  | .amoadd d a b os => some (q3 0x60 d a b (osf os), none)
  | .amomin d a b os => some (q3 0x61 d a b (osf os), none)
  | .amomax d a b os => some (q3 0x62 d a b (osf os), none)
  | .amoand d a b os => some (q3 0x63 d a b (osf os), none)
  | .amoor d a b os => some (q3 0x64 d a b (osf os), none)
  | .amoxor d a b os => some (q3 0x65 d a b (osf os), none)
  | .amoswap d a b os => some (q3 0x66 d a b (osf os), none)
  | .amocas d a b os => some (q3 0x67 d a b (osf os), none)
  | .amaxrs d a os => some (q3 0x68 d a 0 (osf os), none)
  | .fence os => some (q3 0x69 0 0 0 (osf os), none)
  | .cclean a b => some (q3 0x6A 0 a b 0, none)
  | .cinval a b => some (q3 0x6B 0 a b 0, none)
  | .cflush a b => some (q3 0x6C 0 a b 0, none)
  | .cpref a b => some (q3 0x6D 0 a b 0, none)
  | .aconv a m => some (q3 0x6E 0 a 0 (0#3 ++ m), none)
  | .aquery d a => some (q3 0x6F d a 0 0, none)
  | .wany d a => some (q3 0x70 d a 0 0, none)
  | .wall d a => some (q3 0x71 d a 0 0, none)
  | .cffr d a => some (q3 0x72 d a 0 0, none)
  | .ctagclr a => some (q3 0x73 0 a 0 0, none)
  | .waitc l s c t => some (ql 0x74 0 (0#2 ++ l ++ s ++ c ++ t), none)
  | .strmend d a x => some (q3 0x80 d a 0 (0#5 ++ x), none)
  | .join d a b => some (q3 0x81 d a b 0, none)
  | .cont a b => some (q3 0x82 0 a b 0, none)
  | .endU => some (q3 0x83 0 0 0 0, none)
  | .cancel d a l => some (q3 0x84 d a 0 (0#3 ++ l), none)
  | .cdone d a w l => some (q3 0x85 d a 0 (0#2 ++ w ++ l), none)
  | .bar d a => some (q3 0x86 d a 0 0, none)
  | .barc a b => some (q3 0x87 0 a b 0, none)
  | .recfg d a b r => some (q3 0x88 d a b (0#5 ++ r), none)
  | .loadcfg d a b => some (q3 0x89 d a b 0, none)
  | .tdef d a b => some (q3 0x90 d a b 0, none)
  | .tscale d a b => some (q3 0x91 d a b 0, none)
  | .tread d a b => some (q3 0x92 d a b 0, none)
  | .trap i => some (ql 0xC0 0 i, none)
  | .eret => some (q3 0xC1 0 0 0 0, none)
  | .csrr d c => some (qi 0xC2 d 0 c, none)
  | .csrw a c => some (qi 0xC3 0 a c, none)
  | .mark d k => some (q3 0xC4 d 0 0 (0#5 ++ k), none)
  | .seal d a b m => some (q3 0xC5 d a b (0#5 ++ m), none)
  | .unseal d a b => some (q3 0xC6 d a b 0, none)
  | .keyz d a => some (q3 0xC7 d a 0 0, none)
  | .scrub d => some (q3 0xC8 d 0 0 0, none)
  | .ctrinc d a r => some (q3 0xC9 d a 0 (0#5 ++ r), none)
  | .xlinvWrite a => some (qi 0xC3 0 a 0x412, none)
  | .radepthWrite a => some (qi 0xC3 0 a 0x409, none)
  | .ldsLong w d a os off => some (q3 0xE0 d a (0#3 ++ w) (osf os), some off)
  | .stsLong w d a os off => some (q3 0xE1 d a (0#3 ++ w) (osf os), some off)
  | .liLong d i => some (q3 0xE2 d (0#4 ++ i.extractLsb' 44 2) (i.extractLsb' 38 6) (i.extractLsb' 32 6), some (i.extractLsb' 0 32))
  | .copy d a b tag => some (q3 0xE3 d a b 0, some (0#26 ++ tag))
  | .copyx d a b f pl => some (q3 0xE4 d a b f, some pl)
  | .copyg d a b f pl => some (q3 0xE5 d a b f, some pl)
  | .bdot d a b pl => some (q3 0xE6 d a b 0, some pl)
  | .strm d a b pl => some (q3 0xE7 d a b 0, some pl)
  | .strm2 d a b f pl => some (q3 0xE8 d a b f, some pl)
  | .spawn d a b f pl => some (q3 0xE9 d a b f, some pl)
  | _ => none

/-- The word of an element, converter, island or comb instruction. -/
def packE (op : BitVec 8) (e : EWord) : BitVec 64 := op ++ e.ty ++ e.mod ++ e.t0 ++ e.t1 ++ e.x

/-- The 64-bit word of an element, converter, island or comb instruction, from the opcode tables of 10 and 12 (R34). -/
def encodeElem : Instr → Option (BitVec 64)
  | .iadd e => some (packE 0x00 e)
  | .isub e => some (packE 0x01 e)
  | .imul e => some (packE 0x02 e)
  | .imulh e => some (packE 0x03 e)
  | .imac e => some (packE 0x04 e)
  | .imin e => some (packE 0x05 e)
  | .imax e => some (packE 0x06 e)
  | .iabs e => some (packE 0x07 e)
  | .iand e => some (packE 0x08 e)
  | .ior e => some (packE 0x09 e)
  | .ixor e => some (packE 0x0A e)
  | .inot e => some (packE 0x0B e)
  | .ishl e => some (packE 0x0C e)
  | .ishr e => some (packE 0x0D e)
  | .iclz e => some (packE 0x0E e)
  | .ipopc e => some (packE 0x0F e)
  | .icmp e => some (packE 0x10 e)
  | .fadd e => some (packE 0x20 e)
  | .fsub e => some (packE 0x21 e)
  | .fmul e => some (packE 0x22 e)
  | .ffma e => some (packE 0x23 e)
  | .fmin e => some (packE 0x24 e)
  | .fmax e => some (packE 0x25 e)
  | .fabs e => some (packE 0x26 e)
  | .fneg e => some (packE 0x27 e)
  | .fcmp e => some (packE 0x28 e)
  | .fclamp e => some (packE 0x29 e)
  | .frcp e => some (packE 0x2A e)
  | .frsq e => some (packE 0x2B e)
  | .fexp2 e => some (packE 0x2C e)
  | .flog2 e => some (packE 0x2D e)
  | .vred e => some (packE 0x40 e)
  | .vperm e => some (packE 0x41 e)
  | .vbcast e => some (packE 0x42 e)
  | .vsel e => some (packE 0x43 e)
  | .vext e => some (packE 0x44 e)
  | .vins e => some (packE 0x45 e)
  | .vshuf e => some (packE 0x46 e)
  | .steer e => some (packE 0x50 e)
  | .steerc e => some (packE 0x51 e)
  | .merge e => some (packE 0x52 e)
  | .wadv e => some (packE 0x53 e)
  | .gate e => some (packE 0x54 e)
  | .sync e => some (packE 0x55 e)
  | .dup e => some (packE 0x56 e)
  | .const e => some (packE 0x57 e)
  | .sink e => some (packE 0x58 e)
  | .tagget e => some (packE 0x59 e)
  | .tagset e => some (packE 0x5A e)
  | .blkx e => some (packE 0x5B e)
  | .lde e => some (packE 0x70 e)
  | .ste e => some (packE 0x71 e)
  | .ldx e => some (packE 0x72 e)
  | .stx e => some (packE 0x73 e)
  | .amoe e => some (packE 0x74 e)
  | .fencee e => some (packE 0x75 e)
  | .cvt e => some (packE 0x80 e)
  | .cvts e => some (packE 0x81 e)
  | .qnt e => some (packE 0x82 e)
  | .mma e => some (packE 0x90 e)
  | .tload e => some (packE 0x91 e)
  | .tstore e => some (packE 0x92 e)
  | .tzero e => some (packE 0x93 e)
  | .tbound e => some (packE 0x94 e)
  | .tcvt e => some (packE 0x95 e)
  | .ceval e => some (packE 0xA0 e)
  | .csched e => some (packE 0xA1 e)
  | .cloadctx e => some (packE 0xA2 e)
  | .csavectx e => some (packE 0xA3 e)
  | .cstate e => some (packE 0xA4 e)
  | .trape e => some (packE 0xF1 e)
  | .nop => some 0xF000000000000000
  | _ => none

/-- The 32-bit words of an instruction in memory order; an event has none. -/
def encode (i : Instr) : List (BitVec 32) :=
  match encodeSeq i with
  | some (w, none) => [w]
  | some (w, some pl) => [w, pl]
  | none =>
    match encodeElem i with
    | some w => [w.extractLsb' 0 32, w.extractLsb' 32 32]
    | none => []

/-- The instruction the sequencer decoder reads from bits numbered as the opcode table numbers them: the bytes of w
in memory order, with zeros above. -/
def decodeTableWord (nbits w : Nat) : Option Instr :=
  match decodeBytes (leBytes 8 (w % 2 ^ nbits)) with
  | .ok i => some i
  | .error _ => none

end Sys2Proof
end

