-- ==== Sys2Proof/Config.lean ====
section
/-! DEFINITION. What an implementation fixes and the spec leaves open.  Every opaque constant here has no body: no
proof can see a value of it.  Each is named in the assumption log. -/

namespace Sys2Proof.Config

/-- A byte of HBM4E, the LP6 tier or a window that no party has been seen to write under the key it is read with, by
key, address and the epoch of its line: "unpredictable" (R445). -/
opaque unwrittenByte : KeyMat → Nat → Nat → Byte

/-- A byte of a line that was last written under another key: the key it is read with, the address, the key and the
bytes it was written with (R445). -/
opaque mismatchByte : KeyMat → Nat → KeyMat → List (Option Byte) → Byte

/-- A free choice between two outcomes the spec allows, by a counter of State. -/
opaque freeBit : Nat → Bool

/-- A free choice of one among several outcomes the spec allows, by a counter of State. -/
opaque freeIndex : Nat → Nat

/-- 256 random bits of the I/O die, by a counter of State (R423). -/
opaque randomBits : Nat → BitVec 256

/-- The source's own cycle count in a black-box entry (R441). -/
opaque cycleCount : Nat → Word

/-- The P-256 private keys DK and SK that the boot ROM derives from the identity seed (R417); the derivation is not
given. -/
opaque deviceKey : BitVec 256 → Nat

/-- SK, derived so (R417). -/
opaque sealKey : BitVec 256 → Nat

/-- The Svarun firmware public key that the boot ROM holds, x and y (R435). -/
opaque firmwareKeyX : Nat

/-- Its y (R435). -/
opaque firmwareKeyY : Nat

/-- The digest of the boot ROM (R437). -/
opaque bootRomDigest : BitVec 256

/-- The device key of a certificate chain that ends at the Svarun root, x and y, or none when it does not (R423);
the layout of certificates is outside the spec. -/
opaque chainKey : List Byte → Option (Nat × Nat)

/-- The DER chain of slot 0 (R420). -/
opaque certificateChain : List Byte

/-- The key and the IV under which a host wraps a key for the device, from the x coordinate of the ECDH product and the public
key that the host sends (R412): the spec names ECDH and AES-256-GCM and no derivation. -/
opaque keyLoadKek : List Byte → List Byte → List Byte × List Byte

/-- The content of the MEAS4 to MEAS8 stages of a firmware image, one digest a stage (R437). -/
opaque firmwareStages : List Byte → List (BitVec 256)

/-- The word of a slot, by its place among those of CFG, that a stream which needs a conversion fails at, where no route
leads it to a converter node (R44, R220), from every header and word of CFG: no field of an image says that a stream needs
one. -/
opaque conversionWithoutRoute : List Word → Option Nat

/-- The bytes that hold a saved state in the cut area, by a counter of State: the layout is private (R410). -/
opaque cutBytes : Nat → List Byte

end Sys2Proof.Config
end

