-- ==== Sys2Proof/Machine/Bits.lean ====
section
/-! DEFINITION. Bit fields, byte order and list helpers that the operations share (R7). -/

namespace Sys2Proof.Machine

/-- Bits hi to lo of a word, as a number. -/
def bits (w : Word) (hi lo : Nat) : Nat := w.toNat / 2 ^ lo % 2 ^ (hi + 1 - lo)

/-- Bits hi to lo of a number. -/
def nbits (x hi lo : Nat) : Nat := x / 2 ^ lo % 2 ^ (hi + 1 - lo)

/-- Bit i of a word. -/
def bit (w : Word) (i : Nat) : Bool := w.getLsbD i

/-- The two's complement value of the low n bits of x (R7: SX). -/
def sxInt (n x : Nat) : Int := if x % 2 ^ n < 2 ^ (n - 1) then (x % 2 ^ n : Nat) else (x % 2 ^ n : Nat) - (2 ^ n : Nat)

/-- The low n bits of an integer (R7: WRAP). -/
def wrapInt (n : Nat) (x : Int) : Nat := (x % (2 ^ n : Nat)).toNat

/-- The bytes of a number, little-endian, n of them (R7). -/
def toBytes : Nat → Nat → List Byte
  | 0, _ => []
  | n + 1, x => BitVec.ofNat 8 x :: toBytes n (x / 256)

/-- The number that bytes spell, little-endian (R7). -/
def ofBytes : List Byte → Nat
  | [] => 0
  | b :: bs => b.toNat + 256 * ofBytes bs

/-- The number that bytes spell, big-endian. -/
def ofBytesBE (bs : List Byte) : Nat := ofBytes bs.reverse

/-- The bytes of a number, big-endian. -/
def toBytesBE (n x : Nat) : List Byte := (toBytes n x).reverse

/-- n bytes of a list from an offset, with zero beyond its end. -/
def sliceOf (bs : List Byte) (off n : Nat) : List Byte :=
  let t := (bs.drop off).take n
  t ++ List.replicate (n - t.length) 0

/-- A little-endian field of a byte list. -/
def fieldOf (bs : List Byte) (off n : Nat) : Nat := ofBytes (sliceOf bs off n)

/-- Bytes written over a list at an offset. -/
def patch (bs : List Byte) (off : Nat) (new : List Byte) : List Byte :=
  (bs.take off ++ new ++ bs.drop (off + new.length)).take (max bs.length (off + new.length))

/-- True when the bytes from off are all zero, n of them. -/
def zeroAt (bs : List Byte) (off n : Nat) : Bool := (sliceOf bs off n).all (· == 0)

/-- Change every element that a test picks. -/
def mapIf {α : Type} (p : α → Bool) (f : α → α) (l : List α) : List α := l.map fun x => if p x then f x else x

/-- Change the first element that a test picks. -/
def mapFirst {α : Type} (p : α → Bool) (f : α → α) (l : List α) : List α := l.modify (l.findIdx p) f

/-- Put an element in the place of those a test picks, or at the end when there is none. -/
def upsert {α : Type} (p : α → Bool) (x : α) (l : List α) : List α :=
  if l.any p then l.map (fun y => if p y then x else y) else l ++ [x]

/-- The element with the least value of a measure, the first of equals. -/
def minBy {α : Type} (m : α → Nat) : List α → Option α
  | [] => none
  | x :: xs =>
    match minBy m xs with
    | none => some x
    | some y => if m x ≤ m y then some x else some y

/-- Sort a list, equals in the order they had: each element goes behind those that must stand before it. -/
def sortBy {α : Type} (le : α → α → Bool) (l : List α) : List α :=
  l.foldr (fun x out => out.takeWhile (fun y => !le x y) ++ x :: out.dropWhile fun y => !le x y) []

/-- The least number of a list, or a default. -/
def minNat (d : Nat) (l : List Nat) : Nat := l.foldl min d

/-- The pieces of n bytes at address a that do not cross a multiple of m, lowest first; fuel bounds their number. -/
def chunks (m : Nat) : Nat → Nat → Nat → List (Nat × Nat)
  | 0, _, _ => []
  | fuel + 1, a, n =>
    if n = 0 then [] else
    let k := min n (m - a % m)
    (a, k) :: chunks m fuel (a + k) (n - k)

/-- Whether [a, a + n) and [b, b + m) share a byte. -/
def overlaps (a n b m : Nat) : Bool := a < b + m && b < a + n && 0 < n && 0 < m

end Sys2Proof.Machine
end

