-- ==== Sys2Proof/Machine/State.lean ====
section
/-! DEFINITION. The state of a KQ-4 package as plain data, and the state after reset. -/

namespace Sys2Proof.Machine

/-! ## Memory and translation -/

/-- What is known of one 128-byte line of HBM4E, the LP6 tier or a window: the key it was last written under, and an
epoch that rises when the key changes (R78, R445). -/
structure LineTag where
  line : Nat
  key : KeyMat
  epoch : Nat
  deriving DecidableEq, Repr

/-- A line that is dirty in the LLC: its home partition, the partitions that have made a line of its set dirty since it became
so, and what the memory beneath it holds (R106, R107, R394). -/
structure LlcDirty where
  line : Nat
  part : Nat
  base : Nat
  since : List Nat
  old : List (Option Byte)
  oldTag : Option (KeyMat × Nat)
  deriving DecidableEq, Repr

/-- A partition that has made a line of an LLC set dirty since the set last held none for certain (R394). -/
structure Residency where
  base : Nat
  set : Nat
  part : Nat
  deriving DecidableEq, Repr

/-- What a translation gives: the frame, log2 of the page size, and the leaf's fields (R54, R63). -/
structure Leaf where
  frame : Nat
  lg : Nat
  w : Bool
  la : Bool
  ord : BitVec 2
  key : Nat
  d : Bool
  deriving DecidableEq, Repr

/-- The owners of translation entries (R63), and the hardware that reaches memory for a context (R369, R410). -/
inductive Holder where
  | seq (q : SeqId)
  | agn (s : StreamRef)
  | island (n : NodeRef) (port : Nat)
  | engine (q : SeqId) (tag : Nat) (side : Nat)
  | queue (part q : Nat)
  | cut (ctx : BitVec 12)
  deriving DecidableEq, Repr

/-- One translation entry (R63). -/
structure TlbEntry where
  holder : Holder
  ctx : BitVec 12
  va : Nat
  leaf : Leaf
  used : Nat
  deriving DecidableEq, Repr

/-- A line of a die's walker cache: a directory entry or a leaf of a level as a walk last read it, with an address that
it lies on the walk to (R66, R69). -/
structure WalkLine where
  die : Nat
  ctx : BitVec 12
  level : Nat
  leaf : Bool
  va : Nat
  pa : Nat
  entry : Word
  deriving DecidableEq, Repr

/-- A fault of an access: FINFO's fields and FADDR (R71). -/
structure FaultInfo where
  cause : Nat
  addr : Nat
  level : Nat
  write : Bool
  atomic : Bool
  key : Nat
  deriving DecidableEq, Repr

/-- A walk request in a die's queue (R66): the address that missed, the first byte of its access (R60), and whether
the access is a prefetch, which pulls no page and takes no trap (R137). -/
structure WalkReq where
  holder : Holder
  die : Nat
  ctx : BitVec 12
  part : Nat
  va : Nat
  first : Nat
  write : Bool
  atomic : Bool
  soft : Bool
  deriving DecidableEq, Repr

/-- The fault of a walk, waiting for its holder (R65). -/
structure WalkFault where
  holder : Holder
  info : FaultInfo
  deriving DecidableEq, Repr

/-- A copy-on-write in progress, or stalled on an empty pool (R73, R76).  Once the leaf is replaced, closing names the
accesses that used the old leaf and are still to be performed (R75). -/
structure Cow where
  req : WalkReq
  waiting : List WalkReq
  page : Nat
  leafPa : Nat
  old : Word
  frame : Nat
  key : Nat
  empty : Bool
  closing : Option (List Nat)
  deriving DecidableEq, Repr

/-- A request for a page that a walker has sent on a port of the Ostrel Link (R82, R411). -/
structure PullSent where
  port : Nat
  lendId : Word
  va : Nat
  requester : List Byte
  deriving DecidableEq, Repr

/-- A remote pull in progress (R82). -/
structure Pull where
  req : WalkReq
  page : Nat
  leafPa : Nat
  old : Word
  waiting : List WalkReq
  deriving DecidableEq, Repr

/-- A valid line of a die's L2 (R97 to R100).  Its pins name tiles by their islands and identities.  A pinned line that was
invalidated keeps its bytes: live is then false (R99). -/
structure L2Line where
  die : Nat
  line : Nat
  way : Nat
  ctx : BitVec 12
  part : Nat
  key : Nat
  ord : BitVec 2
  dirty : Bool
  live : Bool
  pins : List (NodeRef × Nat)
  used : Nat
  data : List Byte
  deriving DecidableEq, Repr

/-- The mode of an array (R87). -/
inductive ArrayMode where
  | off | cache | scratch | load | run
  deriving DecidableEq, Repr

/-- One array: its mode and conversion, its owner (63 when unassigned), and its schedule register (R87, R352). -/
structure ArrayState where
  ref : ArrayRef
  owner : Nat
  mode : ArrayMode
  busy : Bool
  fromMode : ArrayMode
  sched : BitVec 200
  deriving DecidableEq, Repr

/-- A conversion waiting or in progress on an array (R91 to R93). -/
structure Conversion where
  ref : ArrayRef
  mode : ArrayMode
  acc : Nat
  started : Bool
  deriving DecidableEq, Repr

/-- A bandwidth bucket of a slice port: its tokens in 64ths of a line, and how many accesses it has admitted by
borrowing in each of the last 64 cycles, latest first (R112, R113). -/
structure Bucket where
  port : Nat
  index : Nat
  tokens : Nat
  borrowed : List Nat
  deriving DecidableEq, Repr

/-! ## Accesses of sequencers and elements -/

/-- The lines of an access of the fabric that wait at the request ports of a die's L2 to be admitted (R112, R113): its
holder and first byte, its place in arrival order, and the lines not admitted yet. -/
structure PortReq where
  id : Nat
  holder : Holder
  va : Nat
  ctx : BitVec 12
  part : Nat
  die : Nat
  unpaid : List Nat
  deriving DecidableEq, Repr

/-- One translated piece of an access (R60). -/
structure Part where
  va : Nat
  pa : Nat
  n : Nat
  leaf : Leaf
  deriving DecidableEq, Repr

/-- An access that reads, of which some single-copy-atomic parts have been performed and others not (R61): its translated
pieces, the parts left, and the bytes read so far by their addresses. -/
structure Reading where
  va : Nat
  n : Nat
  parts : List Part
  left : List Part
  got : List (Nat × Byte)
  deriving DecidableEq, Repr

/-- What an outstanding operation does (R120). -/
inductive AccKind where
  | load (signed : Bool)
  | store
  | amo (op : Nat)
  | amaxrs
  | aquery
  | cpref
  | cclean
  | cinval
  | cflush
  | aconv
  | fence
  deriving DecidableEq, Repr

/-- The firing an access of the fabric belongs to (R318 to R321): its block, slot, key, and the tag its output
carries. -/
structure ElemOwner where
  node : NodeRef
  slot : Nat
  key : Key
  seq : BitVec 8
  deriving DecidableEq, Repr

/-- An operation that has been issued and not yet performed (R119, R120, R134): its translated parts, the
single-copy-atomic pieces (R61) or lines still to be performed, and the lines that an L2 port has not admitted yet
(R112).  The pieces of a load collect in data. -/
structure Access where
  id : Nat
  q : SeqId
  elem : Option ElemOwner
  ctx : BitVec 12
  part : Nat
  die : Nat
  kind : AccKind
  dest : Nat
  n : Nat
  va : Nat
  parts : List Part
  data : BitVec 256
  cmp : Word
  ord : BitVec 3
  scope : BitVec 3
  counted : Bool
  unpaid : List Nat
  ringed : Bool
  left : List Part
  deriving DecidableEq, Repr

/-- A copy or a dot job under a copy tag (R143 to R160).  Words: the operands of the instruction as read at issue. -/
inductive JobKind where
  | copy
  | copyx (pl : BitVec 32)
  | copyg (pl : BitVec 32)
  | bdot (pl : BitVec 32) (desc : BitVec 256)
  deriving DecidableEq, Repr

/-- A line that a job is to write: its side, its address and bytes, and how many bits of its last byte are written, 0 for
all of them (R79, R150). -/
structure JobWrite where
  side : Nat
  va : Nat
  bytes : List Byte
  top : Nat
  deriving DecidableEq, Repr

/-- A copy or dot job in flight: its unit, its operands, the tensor entry read at issue (R244), how many of its lines,
bytes, rows or groups are done, its dot state, and the source elements of a cast's group whose bound is still to come.
Of the unit in hand (a line, a batch of pages, a row, a group): its stage, the pages still to be translated on each side,
the faults they gave, the lines still to be read, what has been read, the lines still to be written, and the position
after it.  Of a dot job, unit is the pseudo-channel whose near-bank unit works for it. -/
structure Job where
  q : SeqId
  tag : Nat
  ctx : BitVec 12
  part : Nat
  die : Nat
  handle : Nat
  launch : BitVec 32
  kind : JobKind
  dst : Word
  src : Word
  len : Word
  aux : Word
  tensor : BitVec 512
  pos : Nat
  acc : BitVec 32
  spilled : Bool
  group : List Nat
  stage : Nat := 0
  checks : List (Nat × Nat × Nat × Bool) := []
  faults : List (Nat × Nat × Bool) := []
  reads : List (Nat × Nat × Nat) := []
  got : List (Nat × List Byte) := []
  writes : List JobWrite := []
  next : Nat := 0
  unit : Option Nat := none
  deriving DecidableEq, Repr

/-- What a near-bank unit has written to the spill area (R117): the job, its position and accumulator, and the key
slot and the key of the output page, under which the area holds them. -/
structure Spill where
  q : SeqId
  tag : Nat
  pos : Nat
  acc : BitVec 32
  slot : Nat
  key : Option KeyMat
  deriving DecidableEq, Repr

/-- The power state of a pseudo-channel (R115 to R117). -/
structure PchState where
  pch : Nat
  down : Bool
  deferred : Bool
  refreshes : List (Nat × Nat)
  spill : List Spill
  deriving DecidableEq, Repr

/-! ## Sequencers -/

/-- What a sequencer keeps of the record of the unit it runs (R257, R368, R372): started are the streams that it has started and
not ended by STRMEND, ended the results of those of them that another unit's stream has replaced at its AGN port (R273). -/
structure UnitRec where
  ctx : BitVec 12
  part : Nat
  handle : BitVec 8
  launch : BitVec 32
  lcm1 : BitVec 16
  unit : BitVec 16
  phase : BitVec 32
  frame : BitVec 52
  prio : Nat
  queue : Nat
  ring : Nat
  anchor : Nat
  ver : Nat
  codeBase : Word
  started : List StreamRef
  ended : List (StreamRef × Word) := []
  deriving DecidableEq, Repr

/-- What an instruction that waits has already done, or a unit just popped waits for its graph's fabric record (R390; R276, R278, R282, R284, R274, R403, R70, R137). -/
inductive Wait where
  | none
  | barrier (bar gen : Nat)
  | passed (gen : Nat) (wide : Bool)
  | timedOut
  | posting (launch next : Nat)
  | contPost
  | loading (img : List (List Byte))
  | bidding (img : List (List Byte))
  | granted (x y : Nat) (img : List (List Byte))
  | unsealing (ctx : BitVec 12) (value : Word)
  | recfg (handle : Nat)
  | reconfPassed (phase : BitVec 32)
  | marking (n : BitVec 32) (keep : Bool) (d : Reg)
  | xlinv (page : Option Nat) (accs : List Nat)
  | range (got : List Part) (next : Nat)
  | stopping
  | fabric
  deriving DecidableEq, Repr

/-- One sequencer (R255, R257, R71, R144, R384, R389).  A load that is part of its instruction and has been performed in part
stands in reading (R61). -/
structure Seq where
  regs : Vector Word 64
  preds : BitVec 16
  pc : Word
  ras : List Word
  depth : BitVec 9
  faddr : Word
  finfo : Word
  epc : Word
  ecode : Word
  h : Bool
  tvec : Word
  escr : Word
  eword : Word
  ctag : Word
  ctagf : Word
  ctbusy : Word
  cfaddr : Word
  cfinfo : Word
  frec0 : Word
  frec1 : Word
  frec2 : Word
  frec3 : Word
  ahead : List (Word × BitVec 32)
  run : Option UnitRec
  wait : Wait
  reading : Option Reading := none
  deriving DecidableEq, Repr

/-! ## The fabric -/

/-- Token kinds (R193). -/
inductive Kind where
  | data | eos | eeos | mark | cancel | fault | reconf
  deriving DecidableEq, Repr

/-- A token: payload and tag (R192). -/
structure Token where
  key : Key
  seq : BitVec 8
  kind : Kind
  payload : Payload
  deriving DecidableEq, Repr

/-- A token held in a matching store or an overflow table, in arrival order (R196, R199). -/
structure Held where
  slot : Nat
  opd : Opd
  tok : Token
  src : EdgeSrc
  arr : Nat
  spilled : Bool
  deriving DecidableEq, Repr

/-- An entry of an edge's buffer with its pending-consumer mask (R203). -/
structure OutEntry where
  slot : Nat
  out : Nat
  tok : Token
  pend : List Dest
  deriving DecidableEq, Repr

/-- A key whose other operands are discarded up to their EOS or EEOS (R209). -/
structure Drop where
  slot : Nat
  key : Key
  opds : List Opd
  deriving DecidableEq, Repr

/-- A k-step of the log of an island tile (R339). -/
structure KStep where
  a : Payload
  b : Payload
  bp : Bool
  idle : Bool
  deriving DecidableEq, Repr

/-- An open accumulator tile (R249, R337, R339): its accumulator, its 1,024 FP32 or FP64 encodings, its bound and the
bound it started with, the descriptor and entry that TLOAD read, the entries its k-steps read (R244), and its log.  The
arrival of the token that opened it tells it from the island's other tiles; repin is set while the lines it has read are
still to be pinned again after a restore (R349). -/
structure AccTile where
  id : Nat
  repin : Bool := false
  acc : Nat
  key : Key
  a64 : Bool
  redone : Bool
  cancelled : Bool
  n : Nat
  bnd : BitVec 32
  vals : List (BitVec 64)
  startBnd : BitVec 32
  source : Option (Payload × BitVec 512)
  ents : List (Nat × BitVec 512)
  log : List KStep
  deriving DecidableEq, Repr

/-- How often a memory word has fired for a key, and how many of those firings have been performed (R317). -/
structure Link where
  slot : Nat
  key : Key
  fired : Nat
  performed : Nat
  deriving DecidableEq, Repr

/-- A node of the fabric (R188, R189, R219 to R221).  Of each edge on which RECONF has arrived, reconfs holds how many tokens
had arrived at the node before it. -/
structure Node where
  ref : NodeRef
  ctx : BitVec 12
  handle : Nat
  ver : Nat
  slots : List (BitVec 64)
  holds : List Payload
  store : List Held
  arrivals : Nat
  outs : List OutEntry
  depths : List (Nat × Nat × Nat)
  gated : List Nat
  drops : List Drop
  ends : List (Nat × Opd × Token)
  links : List Link
  marks : List EdgeSrc
  reconfs : List (EdgeSrc × Nat)
  redepth : List (Nat × Nat × Nat)
  passed : Bool
  saved : Bool
  sealed : Bool
  tiles : List AccTile
  dead : List Key
  deriving DecidableEq, Repr

/-- The fanout table of a tile (R189, R22). -/
structure TileState where
  die : Nat
  x : Nat
  y : Nat
  ctx : BitVec 12
  handle : Nat
  fanout : List (Nat × BitVec 64)
  deriving DecidableEq, Repr

/-- A store held for commit (R166, R217, R344): its pieces, none before it has been translated, its bytes, and whether the
L2 ports have admitted it (R112); or a row that CLOADCTX writes at commit (R357); or, with no bytes, the place of a FENCEE
among the stores (R165).  It is stale where an XLINV that waits for it has removed its translation (R70); done names, by
their addresses, the bytes of a released store that have been performed ahead of the others (R61). -/
structure HeldStore where
  slot : Nat
  node : NodeRef
  va : Nat
  spilled : Bool
  parts : List Part
  bytes : List Byte
  ord : BitVec 3
  scope : BitVec 3
  stream : Option StreamRef
  row : Option (ArrayRef × Nat)
  paid : Bool := false
  stale : Bool := false
  done : List Nat := []
  deriving DecidableEq, Repr

/-- An entry of a graph's tag pool (R211, R212). -/
structure PoolEntry where
  iter : BitVec 16
  loop : BitVec 16
  parent : BitVec 16
  ordinal : Nat
  pos : Nat
  fromReserve : Bool
  deriving DecidableEq, Repr

/-- A fault record on its way or at the root (R388, R389), with the pool entry of its ITER as it was at the fault, which
places it in wave order (R216, R390). -/
structure FRec where
  count : Nat
  iter : BitVec 16
  path : BitVec 8
  cause : Nat
  code : Nat
  aux : BitVec 16
  slot : Nat
  node : Nat
  addr : Word
  wave : Option PoolEntry
  deriving DecidableEq, Repr

/-- That an access has been performed on an array of a quad, when, and whether it was one of a row by CLOADCTX or CSAVECTX
(R95, R96). -/
structure Touch where
  quad : Nat × Nat × Nat
  row : Bool
  at_ : Nat
  deriving DecidableEq, Repr

/-- A block instance that has fired and has not committed or been discarded (R214 to R216).  After a cut has rewound
it, replay is set until it fires again, and ahead holds the logged values it then emits (R397).  Where released is
set it is no instance but the stores of one firing of a node with no block, released and still to be performed (R214).  Of
an island, tile is the tile whose pins go when it has committed or been discarded (R339); touched are the quads that its
firings have reached (R96), spills the elements whose entries of its log stand in the overflow table (R217, R397), and soft says that no fault but SMISM has
set exc (R383). -/
structure Instance where
  blk : BlockRef
  handle : Nat
  fired : List (Nat × Nat)
  exited : Bool
  exc : Bool
  faults : List FRec
  consumed : List (NodeRef × Held)
  atoms : List (Nat × Nat × Payload)
  stores : List HeldStore
  result : List (NodeRef × Nat × Token)
  ahead : List (Nat × Nat × Payload)
  replay : Bool
  released : Bool := false
  tile : Option Nat := none
  touched : List Touch := []
  spills : List Nat := []
  soft : Bool := true
  deriving DecidableEq, Repr

/-- A stream (R270 to R273).  Of a source, early holds tokens read ahead of their turn, under those that have been read in
part (R61), and buf those sent and not yet accepted; old holds what earlier streams of its AGN port have sent and their own
targets have not accepted. -/
structure Stream where
  ref : StreamRef
  q : SeqId
  ctx : BitVec 12
  part : Nat
  handle : Nat
  sink : Bool
  base : Word
  count : Nat
  stride : Word
  rows : Nat
  rowStride : Word
  eos : Bool
  dst : Dest
  sent : Nat
  early : List (Nat × Payload)
  buf : List Token
  old : List (Dest × Token)
  ended : Bool
  err : Bool
  marked : Bool
  under : List (Nat × Reading) := []
  deriving DecidableEq, Repr

/-- A loop declaration (R22). -/
structure LoopDecl where
  id : BitVec 16
  window : Nat
  reserve : Nat
  deriving DecidableEq, Repr

/-- Containment that has begun at a node and key (R391), and the place of that key in wave order. -/
structure Sealing where
  node : NodeRef
  key : Key
  wave : Option PoolEntry
  deriving DecidableEq, Repr

/-- A graph: one resident instance of a configuration, or a retired one whose counter is still read (R222, R274). -/
structure Graph where
  gid : Nat
  ctx : BitVec 12
  part : Nat
  handle : Nat
  die : Nat
  x : Nat
  y : Nat
  w : Nat
  h : Nat
  ver : Nat
  prio : Nat
  codeBase : Word
  seqSize : Nat
  islands : List (Nat × Nat)
  loops : List LoopDecl
  allocs : List (BitVec 16 × Nat)
  counter : BitVec 16
  pool : List PoolEntry
  phase : BitVec 32
  tree : List FRec
  recs : List FRec
  lost : Bool
  sealing : List Sealing
  reconf : Option Payload
  cancelled : Bool
  done : Bool
  retiring : Bool
  retired : Bool
  deriving DecidableEq, Repr

/-! ## Work -/

/-- A launch and its counter (R276, R372, R378): cancelled is what CDONE reads, dead says that a CANCEL has reached it, so
that records still to be posted are posted RETIRED (R379). -/
structure Launch where
  ctx : BitVec 12
  id : BitVec 32
  part : Nat
  queue : Nat
  handle : Nat
  first : Nat
  units : Nat
  posted : Nat
  completed : Nat
  removed : Nat
  cancelled : Bool
  dead : Bool
  gen : Nat
  deriving DecidableEq, Repr

/-- A phase of a context on one die (R222, R282). -/
structure Phase where
  ctx : BitVec 12
  die : Nat
  num : BitVec 32
  passed : Bool
  cancelled : Bool
  deriving DecidableEq, Repr

/-- The job of a context (R222, R274, R276): the next launch identifier and the handles given, latest first. -/
structure JobRec where
  ctx : BitVec 12
  nextLaunch : BitVec 32
  given : List Nat
  freed : List Nat
  cancelled : Bool
  deriving DecidableEq, Repr

/-- A barrier (R283, R284).  The parties that wait at it are sequencers; absent are those that a cut has saved and that no
restore has resumed yet, by the sequencers that they ran on (R284). -/
structure Barrier where
  ctx : BitVec 12
  bar : Nat
  word : Word
  die : Nat
  arrivals : Nat
  generation : Nat
  complete : Bool
  waiting : List SeqId
  absent : List SeqId
  deriving DecidableEq, Repr

/-- A queue: its two registers and what the hardware has seen of its ring (R369 to R371); stop is the index at which it has
stopped reading, by an error or the cancel of its job (R371, R379). -/
structure Queue where
  part : Nat
  q : Nat
  qbase : Word
  qctl : Word
  head : Nat
  tail : Nat
  turn : Option SeqId
  stop : Option Nat := none
  deriving DecidableEq, Repr

/-- What the queue hardware watches of a device queue's TAIL: where the word lies, and whether a value that is not the
hardware's own has been stored there since it last looked (R371). -/
structure TailWatch where
  part : Nat
  q : Nat
  pa : Nat
  stored : Bool
  deriving DecidableEq, Repr

/-- A bid for a rectangle (R374, R376), of a LOADCFG or of a restore. -/
structure Bid where
  part : Nat
  q : SeqId
  ctx : BitVec 12
  w : Nat
  h : Nat
  islands : List (Nat × Nat)
  convs : List (Nat × Nat)
  prio : Nat
  issue : Nat
  bypass : Nat
  blocking : Bool
  restore : Option Nat
  deriving DecidableEq, Repr

/-- Tiles held by a grant whose configuration is not resident yet (R374). -/
structure Grant where
  part : Nat
  q : SeqId
  ctx : BitVec 12
  x : Nat
  y : Nat
  w : Nat
  h : Nat
  deriving DecidableEq, Repr

/-- A unit as a cut saves it (R398). -/
structure SavedUnit where
  seqn : Nat
  die : Nat
  state : Seq
  deriving DecidableEq, Repr

/-- The saved state of a context (R398), with the bytes that hold it in the cut area (R410): the layout is private, so
the bytes stand for it; held are the accesses at which units wait for the link (R433). -/
structure SavedCtx where
  bytes : List Byte
  ctx : BitVec 12
  cutNo : BitVec 32
  graphs : List Graph
  nodes : List Node
  tiles : List TileState
  streams : List Stream
  instances : List Instance
  barriers : List Barrier
  units : List SavedUnit
  jobs : List Job
  launches : List Launch
  phases : List Phase
  job : Option JobRec
  queues : List Queue
  scheds : List ((NodeRef × Nat) × BitVec 200)
  held : List Access := []
  deriving DecidableEq, Repr, Inhabited

/-- A restore in progress (R399): the graphs still to admit, the units still to resume, and the sequencer of the
UNSEAL that makes it. -/
structure Restore where
  ctx : BitVec 12
  part : Nat
  die : Nat
  saved : SavedCtx
  graphs : List Graph
  units : List SavedUnit
  placed : List (Nat × Nat × Nat)
  deriving DecidableEq, Repr

/-- A cut in progress (R395). -/
structure Cut where
  ctx : BitVec 12
  num : BitVec 32
  stop : Bool
  failed : Bool
  deriving DecidableEq, Repr

/-! ## Partitions, keys, management -/

/-- A partition record (R404) with its admission register (R375) and SCRPROG (R416). -/
structure Partition where
  pctl : Word
  ctxtab : Word
  tiles : BitVec 1024
  quads : BitVec 4096
  seqs : BitVec 16
  llcWays : BitVec 504
  pchs : BitVec 512
  lp6 : BitVec 16
  keys : BitVec 4096
  ctrs : BitVec 4096
  buckets : List Nat
  blim : Word
  scrTotal : BitVec 32
  scrDone : BitVec 32
  halted : Bool
  deriving DecidableEq, Repr

/-- The state of a key slot (R412). -/
inductive KeyState where
  | empty | loaded | zero
  deriving DecidableEq, Repr

/-- A key slot that is not EMPTY (R412). -/
structure KeySlot where
  slot : Nat
  kst : KeyState
  key : KeyMat
  deriving DecidableEq, Repr

/-- A lend entry (R423). -/
structure Lend where
  lendId : Word
  tgt : BitVec 256
  ctx : BitVec 12
  deriving DecidableEq, Repr

/-- An entry of the black-box ring (R441). -/
structure BlackBox where
  sseq : BitVec 32
  src : Nat
  code : Nat
  part : Nat
  ctx : Nat
  lcyc : Word
  args : List Word
  deriving DecidableEq, Repr

/-- What the package sends to the host or a peer in answer to the last request. -/
inductive Response where
  | refused (code : Nat)
  | accepted (code : Nat)
  | data (bytes : List Byte)
  | page (key : Option KeyMat) (bytes : List Byte) (sourcePa : Nat)
  | pullRefused
  | spdm (code : Nat) (bytes : List Byte)
  | report (bytes : List Byte)
  | summary (sections : List (List (List Byte)))
  | events (es : List (List Byte))
  | bstat (w : Word)
  deriving DecidableEq, Repr

/-- How far an SPDM requester has come (R420). -/
inductive SpdmPhase where
  | start | version | capabilities | algorithms
  deriving DecidableEq, Repr

/-- Firing site: the node, slot and key whose instruction is being executed. -/
structure Site where
  node : NodeRef
  slot : Nat
  key : Key
  deriving DecidableEq, Repr

/-- What a firing that reaches several places has of one of them: a read in part, what it has read, the pieces of a store, a
fault, or a tensor entry with its identifier (R61, R244). -/
inductive Reached where
  | entry (id : Nat) (t : BitVec 512)
  | under (r : Reading)
  | bytes (bs : List Byte)
  | parts (ps : List Part)
  | fault (x : FaultInfo)
  deriving DecidableEq, Repr

/-- A place that a firing under way has reached; again marks the reads of a re-issue (R319, R339, R342, R344). -/
structure Partial where
  site : Site
  holder : Holder
  again : Bool
  va : Nat
  n : Nat
  got : Reached
  touches : List Touch := []
  deriving DecidableEq, Repr

/-- Which agent moves: the schedule and the inputs of the package.  A sequencer executes its next instruction; a node
fires one slot on one key; an event of the opcode table happens; a word is fetched ahead (R43); a source stream reads
ahead (R271); an engine does one more line, row or group; the far end of a link writes its own memory; a scrub engine
clears so many lines more (R416); the host reads BSTAT (R436); the firmware writes its own area of the nonvolatile store
(R417).  Where an access is made of several single-copy-atomic parts (R61), one part of it alone is
performed: of a load of a sequencer's instruction, of a firing of a node, where ahead is set also before a predecessor in link
order (R165), of a token of a source stream, or of a released store. -/
inductive Turn where
  | seq (q : SeqId)
  | node (site : Site)
  | event (i : Instr)
  | prefetch (q : SeqId) (addr : Word)
  | readAhead (s : StreamRef) (i : Nat)
  | engine (q : SeqId) (tag : BitVec 6)
  | farWrite (pa : Nat) (key : KeyMat) (bytes : List Byte)
  | scrub (part : Nat) (lines : Nat)
  | readBstat
  | firmware (lowest : Option (BitVec 32)) (off : Nat) (bytes : List Byte)
  | seqPart (q : SeqId) (k : Nat)
  | nodePart (site : Site) (k : Nat) (ahead : Bool)
  | readPart (s : StreamRef) (i : Nat) (k : Nat)
  | storePart (b : BlockRef) (j : Nat) (k : Nat)
  deriving DecidableEq, Repr

/-- The whole package. -/
structure State where
  -- the schedule and the model's own fields
  turns : List Turn
  cur : SeqId
  site : Site
  /-- The part that a move is to perform alone (R61). -/
  piece : Option Nat
  freeCtr : Nat
  tick : Nat
  -- power and links
  powered : Bool
  powerUps : Nat
  linkUp : Bool
  -- memory
  mem : List Host.Cell
  lineTags : List LineTag
  llc : List LlcDirty
  /-- The masks of the LLC's sets, in the order of the last write that set each bit. -/
  residency : List Residency
  l2 : List L2Line
  l1 : List (SeqId × Nat)
  arrays : List ArrayState
  conversions : List Conversion
  bucketEntries : List (Nat × Word)
  buckets : List Bucket
  portReqs : List PortReq
  portTurn : List (Nat × Nat)
  -- translation
  tlb : List TlbEntry
  latched : List TlbEntry
  walkCache : List WalkLine
  walks : List WalkReq
  walkTurn : List (Nat × Nat)
  walkFaults : List WalkFault
  cows : List Cow
  cwempties : List WalkReq
  pulls : List Pull
  pullsSent : List PullSent
  -- sequencers and their operations
  seqs : Vector Seq 64
  accesses : List Access
  nextAcc : Nat
  jobs : List Job
  pchs : List PchState
  waggle : Nat
  -- fabric
  nodes : List Node
  tiles : List TileState
  streams : List Stream
  instances : List Instance
  partials : List Partial
  graphs : List Graph
  tensors : List ((BitVec 12 × Nat) × BitVec 512)
  -- work
  launches : List Launch
  phases : List Phase
  jobRecs : List JobRec
  barriers : List Barrier
  queues : List Queue
  tailWatch : List TailWatch
  roundRobin : List ((Nat × Nat) × Nat)
  bids : List Bid
  grants : List Grant
  nextBid : Nat
  cuts : List Cut
  savedCtxs : List SavedCtx
  sealable : List (BitVec 12)
  restores : List Restore
  -- partitions, keys, management
  parts : Vector Partition 48
  keySlots : List KeySlot
  slices : List (BitVec 12 × Nat)
  slicePend : List (BitVec 12 × Nat)
  lends : List Lend
  fresh : List (BitVec 12)
  seed : BitVec 256
  minVersion : BitVec 32
  /-- The firmware's own records in its area of the nonvolatile store, by offset. -/
  fwArea : List (Nat × Byte)
  counters : List (Nat × Word)
  meas : Vector (BitVec 256) 8
  bstatErr : Nat
  bstatStage : Nat
  fwVersion : BitVec 32
  apertures : List (Nat × Word)
  blackBox : List BlackBox
  sseqs : List (Nat × BitVec 32)
  powerLimit : Nat
  trimmed : Nat
  spdm : SpdmPhase
  spdmLog : List Byte
  /-- The request that the management core or the boot ROM has taken up and not answered yet. -/
  serving : Option Instr
  /-- What a SUMMARY in service has read: its sections, the last of them in progress. -/
  summary : List (List (List Byte))
  responses : List Response
  deriving DecidableEq, Repr

/-- Why the machine stops. -/
inductive Fault where
  /-- A sequencer instruction was given to exec while the sequencer that moves runs no unit: no word is fetched then
  (R255, R373), so step never raises it.  Raised by the instructions that need the unit's record.  Safe. -/
  | noUnit
  deriving DecidableEq, Repr

/-- Why an instruction has no meaning. -/
inductive Refusal where
  /-- The instruction has no meaning in the model yet; raised by exec's own arms only.  Safe. -/
  | notModelled (mnemonic : String)
  deriving DecidableEq, Repr

/-- A sequencer after reset, and with it every CSR at its reset value (R255, R257, R71, R144, R384). -/
def Seq.reset : Seq where
  regs := Vector.replicate 64 0
  preds := 0
  pc := 0
  ras := []
  depth := 0
  faddr := 0
  finfo := 0
  epc := 0
  ecode := 0
  h := false
  tvec := 0
  escr := 0
  eword := 0
  ctag := 0
  ctagf := 0
  ctbusy := 0
  cfaddr := 0
  cfinfo := 0
  frec0 := 0
  frec1 := 0
  frec2 := 0
  frec3 := 0
  ahead := []
  run := none
  wait := .none

/-- A partition record in FREE, with every map clear (R404, R407); BLIM resets to 8 (R375). -/
def Partition.free : Partition where
  pctl := 0
  ctxtab := 0
  tiles := 0
  quads := 0
  seqs := 0
  llcWays := 0
  pchs := 0
  lp6 := 0
  keys := 0
  ctrs := 0
  buckets := []
  blim := 8
  scrTotal := 0
  scrDone := 0
  halted := false

/-- The package right after a cold reset (R86, R407, R434, R435): no partition, every array OFF and unassigned, every
key slot EMPTY, nothing in memory known, the boot ROM waiting for an image. -/
def State.reset : State where
  turns := []
  cur := 0
  site := { node := { die := 0, id := 0 }, slot := 0, key := { ctx := 0, iter := 0, path := 0 } }
  piece := none
  freeCtr := 0
  tick := 0
  powered := true
  powerUps := 0
  linkUp := true
  mem := []
  lineTags := []
  llc := []
  residency := []
  l2 := []
  l1 := []
  arrays := []
  conversions := []
  bucketEntries := []
  buckets := []
  portReqs := []
  portTurn := []
  tlb := []
  latched := []
  walkCache := []
  walks := []
  walkTurn := []
  walkFaults := []
  cows := []
  cwempties := []
  pulls := []
  pullsSent := []
  seqs := Vector.replicate 64 Seq.reset
  accesses := []
  nextAcc := 0
  jobs := []
  pchs := []
  waggle := 0
  nodes := []
  tiles := []
  streams := []
  instances := []
  partials := []
  graphs := []
  tensors := []
  launches := []
  phases := []
  jobRecs := []
  barriers := []
  queues := []
  tailWatch := []
  roundRobin := []
  bids := []
  grants := []
  nextBid := 0
  cuts := []
  savedCtxs := []
  sealable := []
  restores := []
  parts := Vector.replicate 48 Partition.free
  keySlots := []
  slices := []
  slicePend := []
  lends := []
  fresh := []
  seed := 0
  minVersion := 0
  fwArea := []
  counters := []
  meas := Vector.replicate 8 0
  bstatErr := 0
  bstatStage := 0
  fwVersion := 0
  apertures := []
  blackBox := []
  sseqs := []
  powerLimit := 3600
  trimmed := 0
  spdm := .start
  spdmLog := []
  serving := none
  summary := []
  responses := []

end Sys2Proof.Machine
end

