-- ==== Sys2Proof/Machine/Memory.lean ====
section
/-! DEFINITION. The device physical memory: the map of R49, the canonical list of bytes, keys and lines (R78, R79,
R412, R445), and the LLC (R105 to R107). -/

namespace Sys2Proof.Machine

/-! ## The physical map -/

/-- The regions of R49. -/
inductive Region where
  | hbm (pch : Nat)
  | lp6 (ch : Nat)
  | host
  | peer (port : Nat)
  | array (r : ArrayRef)
  | reserved
  deriving DecidableEq, Repr

/-- The base of the on-die array region (R49). -/
def arrayBase : Nat := 0x300000000000

/-- Whether an address lies in the on-die array region (R49). -/
def inArrays (pa : Nat) : Bool := arrayBase ≤ pa && pa < arrayBase + 0x100000000

/-- The region of a device physical address (R49); a pseudo-channel is numbered 64 times its stack plus itself (R108). -/
def region (pa : Nat) : Region :=
  if pa < 0x8000000000 then .hbm (pa / 0x40000000)
  else if 0x10000000000 ≤ pa && pa < 0x20000000000 then .lp6 ((pa - 0x10000000000) / 0x1000000000)
  else if 0x100000000000 ≤ pa && pa < 0x200000000000 then .host
  else if 0x200000000000 ≤ pa && pa < 0x300000000000 then .peer ((pa - 0x200000000000) / 0x10000000000)
  else if inArrays pa then
    let o := pa - arrayBase
    .array { die := o / 0x40000000, slice := o / 0x4000000 % 16, index := o / 0x10000 % 1024 }
  else .reserved

/-- HBM4E or the LP6 tier. -/
def isDram (pa : Nat) : Bool :=
  match region pa with
  | .hbm _ => true
  | .lp6 _ => true
  | _ => false

/-- The host window or a peer window. -/
def isFar (pa : Nat) : Bool :=
  match region pa with
  | .host => true
  | .peer _ => true
  | _ => false

/-- The base die that is the LLC home of an address (R105). -/
def baseDieOf (pa : Nat) : Nat :=
  match region pa with
  | .hbm p => p / 64
  | .lp6 c => c % 8
  | _ => 0

/-- The LLC set of an address (R106). -/
def llcSetOf (pa : Nat) : Nat := nbits pa 24 7

/-! ## The list of bytes -/

/-- What an address that the list does not name reads as: zero in the arrays, nothing known elsewhere. -/
def defaultByte (a : Nat) : Option Byte := if inArrays a then some 0 else none

/-- The byte the list names at an address. -/
def memGet : List Host.Cell → Nat → Option Byte
  | [], _ => none
  | (x, b) :: t, a => if x = a then some b else memGet t a

/-- The list without an address. -/
def memErase (m : List Host.Cell) (a : Nat) : List Host.Cell := m.filter fun c => c.1 != a

/-- The list with a byte put in its place. -/
def memInsert : List Host.Cell → Nat → Byte → List Host.Cell
  | [], a, b => [(a, b)]
  | (x, y) :: t, a, b =>
    if a < x then (a, b) :: (x, y) :: t
    else if a = x then (a, b) :: t
    else (x, y) :: memInsert t a b

/-- Write one byte, keeping the canonical form. -/
def memPut (m : List Host.Cell) (a : Nat) (b : Byte) : List Host.Cell :=
  if defaultByte a = some b then memErase m a else memInsert m a b

/-- Write bytes at rising addresses. -/
def memPutAll (m : List Host.Cell) (a : Nat) : List Byte → List Host.Cell
  | [] => m
  | b :: bs => memPutAll (memPut m a b) (a + 1) bs

/-- Forget the bytes of one 128-byte line. -/
def memDropLine (m : List Host.Cell) (line : Nat) : List Host.Cell := m.filter fun c => c.1 / 128 != line

/-- The canonical form: addresses strictly rising, and no byte equal to what its address reads as unlisted. -/
def Memory.wf : List Host.Cell → Bool
  | [] => true
  | (a, b) :: t => decide (defaultByte a ≠ some b) && t.all (fun c => decide (a < c.1)) && Memory.wf t

/-! ## Key slots -/

/-- The entry of a key slot; EMPTY slots have none (R412). -/
def keyEntry (s : State) (k : Nat) : Option KeySlot := s.keySlots.find? fun e => e.slot == k

/-- The state of a key slot (R412). -/
def keyState (s : State) (k : Nat) : KeyState :=
  match keyEntry s k with
  | some e => e.kst
  | none => .empty

/-- The key that a LOADED slot holds (R412). -/
def keyMat (s : State) (k : Nat) : Option KeyMat :=
  match keyEntry s k with
  | some e => if e.kst = .loaded then some e.key else none
  | none => none

/-- Put a key slot into a state (R412, R413). -/
def setKey (s : State) (k : Nat) (kst : KeyState) (key : KeyMat) : State :=
  { s with keySlots := upsert (fun e => e.slot == k) { slot := k, kst := kst, key := key } s.keySlots }

/-- The partition whose KEYS map holds a slot, 0x3F when no map does (R412). -/
def keyOwner (s : State) (k : Nat) : Nat :=
  match (List.finRange 48).find? (fun p => (s.parts.get p).keys.getLsbD k) with
  | some p => p.val
  | none => 0x3F

/-- The state word of a key slot (R412). -/
def keyWord (s : State) (k : Nat) : Word :=
  BitVec.ofNat 64 (keyOwner s k * 256 +
    (match keyState s k with
     | .empty => 0
     | .loaded => 1
     | .zero => 2))

/-! ## Reading and writing lines -/

/-- The tag of a line. -/
def lineTag (s : State) (line : Nat) : Option LineTag := s.lineTags.find? fun t => t.line == line

/-- What the list names of the 128 bytes of a line. -/
def lineCells (s : State) (line : Nat) : List (Option Byte) :=
  (List.range 128).map fun i => memGet s.mem (128 * line + i)

/-- One byte read at its LLC home, at the far end of a link or at its array, under a key (R78, R88, R445). -/
def readByte (s : State) (key : KeyMat) (pa : Nat) : Byte :=
  if inArrays pa then (memGet s.mem pa).getD 0
  else
    match lineTag s (pa / 128) with
    | none => Config.unwrittenByte key pa s.powerUps
    | some t =>
      if t.key = key then (memGet s.mem pa).getD (Config.unwrittenByte key pa t.epoch)
      else Config.mismatchByte key pa t.key (lineCells s (pa / 128))

/-- n bytes read so. -/
def readMem (s : State) (key : KeyMat) (pa n : Nat) : List Byte :=
  (List.range n).map fun i => readByte s key (pa + i)

/-- A line takes the key it is written under; bytes known under another key are forgotten (R79, R445). -/
def retag (s : State) (line : Nat) (key : KeyMat) : State :=
  match lineTag s line with
  | none => { s with lineTags := s.lineTags ++ [{ line := line, key := key, epoch := s.powerUps }] }
  | some t =>
    if t.key = key then s
    else
      { s with
        lineTags := mapIf (fun u => u.line == line) (fun _ => { line := line, key := key, epoch := t.epoch + 1 }) s.lineTags
        mem := memDropLine s.mem line }

/-- The ways of a base die's LLC that a partition owns (R404). -/
def llcWaysOf (s : State) (part base : Nat) : Nat :=
  if h : part < 48 then ((s.parts.get ⟨part, h⟩).llcWays.toNat / 2 ^ (63 * base)) % 2 ^ 63 else 0

/-- The residency masks of sets that hold no dirty line are clear (R394). -/
def clearMasks (s : State) : State :=
  { s with residency := s.residency.filter fun r => s.llc.any fun e => e.base == r.base && llcSetOf (128 * e.line) == r.set }

/-- A write makes a line dirty in the writing partition's ways of the LLC, after every other copy is gone, and its set's mask
names the partition (R107, R394); a partition with no way there writes on to the memory. -/
def llcMark (s : State) (part line : Nat) : State :=
  let rest := s.llc.filter fun e => e.line != line
  let r : Residency := { base := baseDieOf (128 * line), set := llcSetOf (128 * line), part := part }
  if llcWaysOf s part r.base = 0 then clearMasks { s with llc := rest }
  else
    { s with
      residency := s.residency.filter (· != r) ++ [r]
      llc :=
        mapIf (fun e => e.base == r.base && llcSetOf (128 * e.line) == r.set && !e.since.contains part)
          (fun e => { e with since := e.since ++ [part] })
          (if s.llc.any (fun e => e.line == line && e.part == part) then s.llc
           else
             rest ++ [{ line := line, part := part, base := r.base, since := [], old := lineCells s line,
                        oldTag := (lineTag s line).map fun t => (t.key, t.epoch) }]) }

/-- Bytes of one line written at its coherence point outside the dies (R79), or at an array. -/
def writeLine (s : State) (part : Nat) (key : KeyMat) (pa : Nat) (bs : List Byte) : State :=
  if inArrays pa then { s with mem := memPutAll s.mem pa bs }
  else
    let s := if isDram pa then llcMark s part (pa / 128) else s
    let s := retag s (pa / 128) key
    { s with mem := memPutAll s.mem pa bs }

/-- Bytes written at their LLC home, far end or array, line by line (R78, R79). -/
def writeMem (s : State) (part : Nat) (key : KeyMat) (pa : Nat) (bs : List Byte) : State :=
  (chunks 128 bs.length pa bs.length).foldl
    (fun s c => writeLine s part key c.1 (sliceOf bs (c.1 - pa) c.2)) s

/-- Bytes read under a key slot. -/
def readSlot (s : State) (slot pa n : Nat) : List Byte := readMem s ((keyMat s slot).getD 0) pa n

/-! ## What the hardware sees of a write -/

/-- PCTL.STATE (R404): 0 FREE, 1 ACTIVE, 2 SCRUBPEND, 3 SCRUBBING. -/
def Partition.stateOf (r : Partition) : Nat := bits r.pctl 62 60

/-- PCTL.DIE. -/
def Partition.dieOf (r : Partition) : Nat := bits r.pctl 59 58

/-- PCTL.CTXBASE. -/
def Partition.ctxBase (r : Partition) : Nat := bits r.pctl 51 40

/-- PCTL.CTXLAST. -/
def Partition.ctxLast (r : Partition) : Nat := bits r.pctl 39 28

/-- CTXTAB.TKEY. -/
def Partition.tkey (r : Partition) : Nat := bits r.ctxtab 59 48

/-- The address of the context table. -/
def Partition.tablePa (r : Partition) : Nat := bits r.ctxtab 47 7 * 128

/-- Whether a byte at v that was written under a key has bit 7 set: CCTL.V of a descriptor.  Table memory that nothing has
written holds no context. -/
def vSet (s : State) (key : KeyMat) (v : Nat) : Bool :=
  ((lineTag s (v / 128)).any fun t => t.key == key) && (memGet s.mem v).any fun b => b.getLsbD 7

/-- The contexts of an ACTIVE partition whose CCTL.V a write of n bytes at pa has set, from one state to the other, as
TKEY reads it (R59, R408). -/
def bornIn (s t : State) (pa n : Nat) (p : Fin 48) : List (Fin 48 × BitVec 12) :=
  let r := s.parts.get p
  match if r.stateOf = 1 then keyMat s r.tkey else none with
  | none => []
  | some k =>
    (List.range (n / 128 + 2)).filterMap fun i =>
      let c := (pa - r.tablePa) / 128 + i
      let v := r.tablePa + 128 * c + 0x27
      if pa ≤ v && v < pa + n && r.ctxBase + c ≤ r.ctxLast && !vSet s k v && vSet t k v then
        some (p, BitVec.ofNat 12 (r.ctxBase + c))
      else none

/-- A context that software creates starts afresh: no tensor entry, no barrier, and TMEAS, at 0x40 of its descriptor, written
with 32 zero bytes under TKEY (R242, R283, R408, R409). -/
def bearContext (s : State) (c : Fin 48 × BitVec 12) : State :=
  let r := s.parts.get c.1
  let s := match keyMat s r.tkey with
    | some k => writeMem s c.1.val k (r.tablePa + 128 * (c.2.toNat - r.ctxBase) + 0x40) (List.replicate 32 0)
    | none => s
  { s with
    tensors := s.tensors.filter fun t => t.1.1 != c.2
    barriers := s.barriers.filter fun b => b.ctx != c.2
    fresh := c.2 :: s.fresh.filter (· != c.2) }

/-- A watched TAIL takes note of a new value (R371). -/
def TailWatch.see (s t : State) (pa n : Nat) (w : TailWatch) : TailWatch :=
  if pa < w.pa + 8 && w.pa < pa + n && (List.range 8).any fun i => memGet s.mem (w.pa + i) != memGet t.mem (w.pa + i) then
    { w with stored := true }
  else w

/-- What the hardware sees of a write of n bytes at pa: the TAIL of a device queue, and byte 0x27 of a context's descriptor,
where CCTL.V lies. -/
def seeWrite (s t : State) (pa n : Nat) : State :=
  let t := { t with tailWatch := t.tailWatch.map (TailWatch.see s t pa n) }
  if (pa % 128 ≤ 0x27 && 0x27 < pa % 128 + n) || 0xA7 < pa % 128 + n then
    ((List.finRange 48).flatMap (bornIn s t pa n)).foldl bearContext t
  else t

/-- Bytes written under a key slot; a write that finds no key there is discarded (R413). -/
def writeSlot (s : State) (part slot pa : Nat) (bs : List Byte) : State :=
  if inArrays pa then writeMem s part 0 pa bs
  else
    match keyMat s slot with
    | some k => seeWrite s (writeMem s part k pa bs) pa bs.length
    | none => s

/-- A 64-bit word read under a key slot (R67). -/
def readWord (s : State) (slot pa : Nat) : Word := BitVec.ofNat 64 (ofBytes (readSlot s slot pa 8))

/-- A 64-bit word written under a key slot. -/
def writeWord (s : State) (part slot pa : Nat) (w : Word) : State := writeSlot s part slot pa (toBytes 8 w.toNat)

/-! ## Losing what the LLC holds -/

/-- The data of a dirty LLC line is lost: the memory beneath it reads again (R393, R394). -/
def llcLose (s : State) (e : LlcDirty) : State :=
  let s := { s with llc := s.llc.filter fun x => x != e }
  let s := { s with mem := memDropLine s.mem e.line, lineTags := s.lineTags.filter fun t => t.line != e.line }
  match e.oldTag with
  | none => s
  | some (k, ep) =>
    let s := { s with lineTags := s.lineTags ++ [{ line := e.line, key := k, epoch := ep }] }
    (List.range 128).foldl
      (fun s i =>
        match (e.old[i]?).getD none with
        | some b => { s with mem := memPut s.mem (128 * e.line + i) b }
        | none => s) s

/-- A dirty LLC line is discarded: its data is lost, unless the line had been evicted before, which the spec leaves free
(R393). -/
def llcDiscard (s : State) (e : LlcDirty) : State :=
  let t := { s with freeCtr := s.freeCtr + 1 }
  if Config.freeBit s.freeCtr then { t with llc := t.llc.filter fun x => x != e } else llcLose t e

/-- Every dirty LLC line that a test picks is discarded. -/
def llcDiscardIf (s : State) (p : LlcDirty → Bool) : State := clearMasks ((s.llc.filter p).foldl llcDiscard s)

end Sys2Proof.Machine
end

