-- ==== Sys2Proof/Machine/Cache.lean ====
section
/-! DEFINITION. Partition records, contexts, arrays, and the L2 and L1 of the compute dies (R86 to R104, R404, R408). -/

namespace Sys2Proof.Machine

/-! ## Partition records and descriptors -/

/-- The record of a partition; a free one outside 0 to 47 (R404). -/
def partOf (s : State) (p : Nat) : Partition := if h : p < 48 then s.parts.get ⟨p, h⟩ else Partition.free

/-- Change the record of a partition. -/
def setPart (s : State) (p : Nat) (f : Partition → Partition) : State :=
  if h : p < 48 then { s with parts := s.parts.set p (f (s.parts.get ⟨p, h⟩)) } else s

/-- Write PCTL.STATE. -/
def Partition.withState (r : Partition) (n : Nat) : Partition :=
  { r with pctl := (r.pctl &&& ~~~(7#64 <<< 60)) ||| (BitVec.ofNat 64 n <<< 60) }

/-- Whether a context number lies in a partition's range. -/
def Partition.hasCtx (r : Partition) (ctx : Nat) : Bool :=
  bit r.pctl 63 && r.ctxBase ≤ ctx && ctx ≤ r.ctxLast

/-- The partition whose range holds a context (R48, R404). -/
def partOfCtx (s : State) (ctx : BitVec 12) : Option Nat :=
  ((List.finRange 48).find? fun p => (s.parts.get p).hasCtx ctx.toNat && (s.parts.get p).stateOf != 0).map Fin.val

/-- The address of a context's descriptor (R408). -/
def descPa (s : State) (part : Nat) (ctx : BitVec 12) : Nat :=
  (partOf s part).tablePa + 128 * (ctx.toNat - (partOf s part).ctxBase)

/-- A word of a context's descriptor, read under TKEY (R59, R408). -/
def descWord (s : State) (part : Nat) (ctx : BitVec 12) (off : Nat) : Word :=
  readWord s (partOf s part).tkey (descPa s part ctx + off)

/-- Write a word of a context's descriptor under TKEY. -/
def setDescWord (s : State) (part : Nat) (ctx : BitVec 12) (off : Nat) (w : Word) : State :=
  writeWord s part (partOf s part).tkey (descPa s part ctx + off) w

/-- CCTL.CST (R408): 0 IDLE, 1 RUNNING, 2 SUSPENDED, 3 LENT, 4 RESTORING. -/
def ctxState (s : State) (part : Nat) (ctx : BitVec 12) : Nat := bits (descWord s part ctx 0x20) 62 60

/-- Write CCTL.CST. -/
def setCtxState (s : State) (part : Nat) (ctx : BitVec 12) (n : Nat) : State :=
  let w := descWord s part ctx 0x20
  setDescWord s part ctx 0x20 ((w &&& ~~~(7#64 <<< 60)) ||| (BitVec.ofNat 64 n <<< 60))

/-- The cause of a fault on a key slot: outside the KEYS map 0x07, holding no key 0x08 (R55, R59). -/
def keyCause (s : State) (part k : Nat) : Option Nat :=
  if !(partOf s part).keys.getLsbD k then some 0x07
  else if keyState s k = .loaded then none
  else some 0x08

/-- Bit n of a resource map. -/
def mapBit {w : Nat} (m : BitVec w) (n : Nat) : Bool := m.getLsbD n

/-! ## Arrays -/

/-- The state of an array; OFF and unassigned when no record names it (R86). -/
def arrayOf (s : State) (r : ArrayRef) : ArrayState :=
  match s.arrays.find? fun a => a.ref == r with
  | some a => a
  | none => { ref := r, owner := 0x3F, mode := .off, busy := false, fromMode := .off, sched := 0 }

/-- Change the state of an array. -/
def setArray (s : State) (r : ArrayRef) (f : ArrayState → ArrayState) : State :=
  { s with arrays := upsert (fun a => a.ref == r) (f (arrayOf s r)) s.arrays }

/-- The device physical address of an array's byte 0 (R49). -/
def arrayPa (r : ArrayRef) : Nat := arrayBase + r.die * 0x40000000 + (r.slice * 1024 + r.index) * 0x10000

/-- The quad of an array (R85). -/
def quadOf (r : ArrayRef) : Nat × Nat × Nat := (r.die, r.slice, r.index / 4)

/-- MODE's codes (R87). -/
def ArrayMode.code : ArrayMode → Nat
  | .off => 0
  | .cache => 1
  | .scratch => 2
  | .load => 3
  | .run => 4

/-- The mode of a code of ACONV (R140). -/
def modeOfCode (c : Nat) : ArrayMode :=
  match c with
  | 0 => .off
  | 1 => .cache
  | 2 => .scratch
  | 3 => .load
  | _ => .run

/-- Clear the bytes of an array (R91). -/
def zeroArray (s : State) (r : ArrayRef) : State :=
  { s with mem := s.mem.filter fun c => !(arrayPa r ≤ c.1 && c.1 < arrayPa r + 0x10000) }

/-- Row c of an array as a number (R350). -/
def arrayRow (s : State) (r : ArrayRef) (c : Nat) : Nat := ofBytes (readMem s 0 (arrayPa r + 256 * c) 256)

/-- The fields of a schedule register (R352). -/
def schRing (x : BitVec 200) (r : Nat) : Nat := (x.extractLsb' (8 * r) 8).toNat
def schLen (x : BitVec 200) : Nat := (x.extractLsb' 64 3).toNat
def schPos (x : BitVec 200) : Nat := (x.extractLsb' 67 3).toNat
def schFlops (x : BitVec 200) (r : Nat) : BitVec 16 := x.extractLsb' (72 + 16 * r) 16

/-- A schedule register with other flops of an entry. -/
def withFlops (x : BitVec 200) (r : Nat) (q : BitVec 16) : BitVec 200 :=
  (x &&& ~~~((0xFFFF#200) <<< (72 + 16 * r))) ||| (q.setWidth 200 <<< (72 + 16 * r))

/-- A schedule register with another POS. -/
def withPos (x : BitVec 200) (p : Nat) : BitVec 200 := (x &&& ~~~((7#200) <<< 67)) ||| (BitVec.ofNat 200 (p % 8) <<< 67)

/-- The INIT field of a row (R350). -/
def rowInit (row : Nat) : BitVec 16 := BitVec.ofNat 16 (row / 2 ^ 1456)

/-- Every entry's flops loaded from INIT, and POS zero (R352). -/
def loadFlops (s : State) (r : ArrayRef) (x : BitVec 200) : BitVec 200 :=
  (List.range 8).foldl (fun x e => withFlops x e (rowInit (arrayRow s r (schRing x e)))) (withPos x 0)

/-! ## The L2 -/

/-- The home slice of an address (R97). -/
def l2Slice (pa : Nat) : Nat := nbits pa 10 7 ^^^ nbits pa 29 26

/-- The bank of an address (R97). -/
def l2Bank (pa : Nat) : Nat := nbits pa 16 11

/-- The index of an address (R97). -/
def l2Index (pa : Nat) : Nat := nbits pa 25 17

/-- The array that holds a line of the L2 (R97). -/
def L2Line.array (l : L2Line) : ArrayRef := { die := l.die, slice := l2Slice (128 * l.line), index := l.way }

/-- The live line of an address in a die's L2, within the reach of a partition (R86, R102). -/
def l2Find (s : State) (die part line : Nat) : Option L2Line :=
  s.l2.find? fun l => l.die == die && l.part == part && l.line == line && l.live

/-- Replace one L2 line by another. -/
def l2Set (s : State) (old new : L2Line) : State := { s with l2 := mapFirst (· == old) (fun _ => new) s.l2 }

/-- Drop every L1 copy of a line on a die (R101). -/
def l1Drop (s : State) (die line : Nat) : State :=
  { s with l1 := s.l1.filter fun e => !(e.1.val / 16 == die && e.2 == line) }

/-- Write a dirty line back under the key slot of its tag; it stays valid and clean (R100, R103, R413). -/
def l2WriteBack (s : State) (l : L2Line) : State :=
  if l.dirty then
    let s := writeSlot s l.part l.key (128 * l.line) l.data
    l2Set s l { l with dirty := false }
  else s

/-- Invalidate a line and every L1 copy; a pinned line keeps its bytes for re-issues (R99, R101). -/
def l2Invalidate (s : State) (l : L2Line) : State :=
  let s := l1Drop s l.die l.line
  if l.pins = [] then { s with l2 := s.l2.filter (· != l) }
  else l2Set s l { l with live := false, dirty := false }

/-- Write back, then invalidate. -/
def l2Flush (s : State) (l : L2Line) : State := l2Invalidate (l2WriteBack s l) { l with dirty := false }

/-- Do something to every live L2 line that a test picks. -/
def l2Each (s : State) (p : L2Line → Bool) (f : State → L2Line → State) : State :=
  (s.l2.filter fun l => l.live && p l).foldl f s

/-- Whether an array is on its way out of CACHE: a conversion stands that waits for its pins (R92). -/
def leavingCache (s : State) (r : ArrayRef) : Bool :=
  (arrayOf s r).mode == .cache && s.conversions.any fun c => c.ref == r && c.mode != .cache

/-- The available ways of the bank of an address: its CACHE arrays that the partition owns (R98), but for those that a
conversion takes out of CACHE or brings into it (R92). -/
def l2Ways (s : State) (die part pa : Nat) : List Nat :=
  ((List.range 16).map fun w => 16 * l2Bank pa + w).filter fun w =>
    let r : ArrayRef := { die := die, slice := l2Slice pa, index := w }
    let a := arrayOf s r
    a.owner == part && a.mode == .cache && !(a.busy && a.fromMode != .cache) && !leavingCache s r

/-- The line that a way holds at the index of an address, live or kept for a pin. -/
def l2Occupant (s : State) (die pa way : Nat) : Option L2Line :=
  s.l2.find? fun l =>
    l.die == die && l2Slice (128 * l.line) == l2Slice pa && l.way == way && l2Index (128 * l.line) == l2Index pa

/-- The way a fill takes, after the line it replaces has left: an invalid one, else the least recently used whose
line is not pinned (R98). -/
def l2Victim (s : State) (die part pa : Nat) : Option (State × Nat) :=
  let ways := l2Ways s die part pa
  match ways.find? fun w => (l2Occupant s die pa w).isNone with
  | some w => some (s, w)
  | none =>
    let lines := ways.filterMap fun w => l2Occupant s die pa w
    match minBy L2Line.used (lines.filter fun l => l.pins == []) with
    | some l => some (l2Flush s l, l.way)
    | none => none

/-- Find a line in the L2, or fill it from its LLC home where a way takes it (R98, R100).  A line of an array that
leaves CACHE is written back and serves nothing: the access is performed at the LLC (R92). -/
def l2Get (s : State) (die part : Nat) (ctx : BitVec 12) (leaf : Leaf) (pa : Nat) : State × Option L2Line :=
  match l2Find s die part (pa / 128) with
  | some l =>
    if leavingCache s l.array then (l1Drop (l2WriteBack s l) die (pa / 128), none)
    else
      let l' := { l with used := s.tick }
      ({ l2Set s l l' with tick := s.tick + 1 }, some l')
  | none =>
    match l2Victim s die part pa with
    | none => (s, none)
    | some (s, way) =>
      let base := 128 * (pa / 128)
      let l : L2Line :=
        { die := die, line := pa / 128, way := way, ctx := ctx, part := part, key := leaf.key, ord := leaf.ord,
          dirty := false, live := true, pins := [], used := s.tick, data := readSlot s leaf.key base 128 }
      ({ s with l2 := s.l2 ++ [l], tick := s.tick + 1 }, some l)

/-- Whether a leaf's lines may lie in the L2 (R57, R100). -/
def allocatable (leaf : Leaf) (pa : Nat) : Bool := leaf.la && (leaf.ord == 1 || leaf.ord == 2) && isDram pa

/-- The issuing die's copy of a line leaves for its LLC home before a strong access is performed there (R119). -/
def l2Yield (s : State) (die part line : Nat) : State :=
  match l2Find s die part line with
  | some l => l2Flush s l
  | none => s

/-- Load within one line at its coherence point (R119); strong: an access that R119 sends to the LLC home. -/
def loadLine (s : State) (die part : Nat) (ctx : BitVec 12) (q : Option SeqId) (leaf : Leaf) (strong : Bool)
    (pa n : Nat) : State × List Byte :=
  if !allocatable leaf pa then (s, readSlot s leaf.key pa n)
  else if strong then
    let s := l2Yield s die part (pa / 128)
    (s, readSlot s leaf.key pa n)
  else
    match l2Get s die part ctx leaf pa with
    | (s, some l) =>
      let s :=
        match q with
        | some q => { s with l1 := if s.l1.contains (q, pa / 128) then s.l1 else s.l1 ++ [(q, pa / 128)] }
        | none => s
      (s, sliceOf l.data (pa % 128) n)
    | (s, none) => (s, readSlot s leaf.key pa n)

/-- Store within one line at its coherence point (R119). -/
def storeLine (s : State) (die part : Nat) (ctx : BitVec 12) (leaf : Leaf) (strong : Bool) (pa : Nat)
    (bs : List Byte) : State :=
  if !allocatable leaf pa then writeSlot s part leaf.key pa bs
  else if strong then writeSlot (l2Yield s die part (pa / 128)) part leaf.key pa bs
  else
    match l2Get s die part ctx leaf pa with
    | (s, some l) => l1Drop (l2Set s l { l with data := patch l.data (pa % 128) bs, dirty := true }) die (pa / 128)
    | (s, none) => writeSlot s part leaf.key pa bs

/-- Load n bytes of one page at its coherence point, line by line. -/
def loadAt (s : State) (die part : Nat) (ctx : BitVec 12) (q : Option SeqId) (leaf : Leaf) (strong : Bool)
    (pa n : Nat) : State × List Byte :=
  (chunks 128 n pa n).foldl
    (fun r c =>
      let t := loadLine r.1 die part ctx q leaf strong c.1 c.2
      (t.1, r.2 ++ t.2)) (s, [])

/-- Store bytes of one page at its coherence point, line by line. -/
def storeAt (s : State) (die part : Nat) (ctx : BitVec 12) (leaf : Leaf) (strong : Bool) (pa : Nat)
    (bs : List Byte) : State :=
  (chunks 128 bs.length pa bs.length).foldl
    (fun s c => storeLine s die part ctx leaf strong c.1 (sliceOf bs (c.1 - pa) c.2)) s

/-! ## Whole-cache treatments -/

/-- The write-back of a release of PKG or SYS scope (R103). -/
def releaseWriteBack (s : State) (die : Nat) (ctx : BitVec 12) : State :=
  l2Each s (fun l => l.die == die && l.ctx == ctx) l2WriteBack

/-- The invalidation of an acquire of PKG or SYS scope: clean RC lines of the context (R104). -/
def acquireInvalidate (s : State) (die : Nat) (ctx : BitVec 12) : State :=
  l2Each s (fun l => l.die == die && l.ctx == ctx && l.ord == 1 && !l.dirty) l2Invalidate

/-- What a reconfiguration token does to the L2 of its graph's die (R103, R104, R172). -/
def reconfFlush (s : State) (die : Nat) (ctx : BitVec 12) : State :=
  let s := releaseWriteBack s die ctx
  l2Each s (fun l => l.die == die && l.ctx == ctx && !l.dirty) l2Invalidate

/-- What a cut does: the context's dirty lines are written back on every die (R173, R398). -/
def cutWriteBack (s : State) (ctx : BitVec 12) : State := l2Each s (fun l => l.ctx == ctx) l2WriteBack

/-- An island pins a line it reads for a tile (R99). -/
def pinLine (s : State) (die part line : Nat) (n : NodeRef × Nat) : State :=
  match l2Find s die part line with
  | some l =>
    if leavingCache s l.array then s
    else l2Set s l { l with pins := if l.pins.contains n then l.pins else l.pins ++ [n] }
  | none => s

/-- An island lets its lines go; a line that was kept for the pin alone leaves its way (R99). -/
def unpinIf (s : State) (p : NodeRef × Nat → Bool) : State :=
  { s with l2 := (s.l2.map fun l => { l with pins := l.pins.filter fun b => !p b }).filter fun l => l.live || l.pins != [] }

/-- An island lets every line go. -/
def unpinNode (s : State) (n : NodeRef) : State := unpinIf s fun b => b.1 == n

/-- The number of dirty lines that an array holds (R87). -/
def dirtyCount (s : State) (r : ArrayRef) : Nat := (s.l2.filter fun l => l.live && l.dirty && l.array == r).length

/-- The state word of an array (R87). -/
def arrayWord (s : State) (r : ArrayRef) : Word :=
  let a := arrayOf s r
  BitVec.ofNat 64 (a.owner * 65536 + (if a.mode = .cache then dirtyCount s r else 0) * 16 +
    (if a.busy then 8 else 0) + a.mode.code)

end Sys2Proof.Machine
end

