-- ==== Sys2Proof/Machine/Crypto.lean ====
section
/-! DEFINITION. The cryptography that the spec names and does not define: SHA-256, AES-256, AES-256-GCM, and ECDH and
ECDSA on P-256 (R27, R409, R412, R420 to R424, R435, R437), as their public standards give them. -/

namespace Sys2Proof.Machine

/-! ## SHA-256 -/

/-- Round constants, part 0. -/
def shaK0 : List (BitVec 32) :=
  [0x428A2F98, 0x71374491, 0xB5C0FBCF, 0xE9B5DBA5, 0x3956C25B, 0x59F111F1, 0x923F82A4, 0xAB1C5ED5,
   0xD807AA98, 0x12835B01, 0x243185BE, 0x550C7DC3, 0x72BE5D74, 0x80DEB1FE, 0x9BDC06A7, 0xC19BF174]

/-- Round constants, part 1. -/
def shaK1 : List (BitVec 32) :=
  [0xE49B69C1, 0xEFBE4786, 0x0FC19DC6, 0x240CA1CC, 0x2DE92C6F, 0x4A7484AA, 0x5CB0A9DC, 0x76F988DA,
   0x983E5152, 0xA831C66D, 0xB00327C8, 0xBF597FC7, 0xC6E00BF3, 0xD5A79147, 0x06CA6351, 0x14292967]

/-- Round constants, part 2. -/
def shaK2 : List (BitVec 32) :=
  [0x27B70A85, 0x2E1B2138, 0x4D2C6DFC, 0x53380D13, 0x650A7354, 0x766A0ABB, 0x81C2C92E, 0x92722C85,
   0xA2BFE8A1, 0xA81A664B, 0xC24B8B70, 0xC76C51A3, 0xD192E819, 0xD6990624, 0xF40E3585, 0x106AA070]

/-- Round constants, part 3. -/
def shaK3 : List (BitVec 32) :=
  [0x19A4C116, 0x1E376C08, 0x2748774C, 0x34B0BCB5, 0x391C0CB3, 0x4ED8AA4A, 0x5B9CCA4F, 0x682E6FF3,
   0x748F82EE, 0x78A5636F, 0x84C87814, 0x8CC70208, 0x90BEFFFA, 0xA4506CEB, 0xBEF9A3F7, 0xC67178F2]

/-- The round constants. -/
def shaK : List (BitVec 32) := shaK0 ++ shaK1 ++ shaK2 ++ shaK3

/-- The initial hash value. -/
def shaInit : List (BitVec 32) :=
  [0x6A09E667, 0xBB67AE85, 0x3C6EF372, 0xA54FF53A, 0x510E527F, 0x9B05688C, 0x1F83D9AB, 0x5BE0CD19]

/-- Word i of a list. -/
def wAt (l : List (BitVec 32)) (i : Nat) : BitVec 32 := l.getD i 0

/-- The next word of the message schedule, from the sixteen before it. -/
def shaNext (w : List (BitVec 32)) : BitVec 32 :=
  let s0 := fun (x : BitVec 32) => x.rotateRight 7 ^^^ x.rotateRight 18 ^^^ (x >>> 3)
  let s1 := fun (x : BitVec 32) => x.rotateRight 17 ^^^ x.rotateRight 19 ^^^ (x >>> 10)
  s1 (wAt w 14) + wAt w 9 + s0 (wAt w 1) + wAt w 0

/-- One round on the eight working words. -/
def shaRound (k w : BitVec 32) (v : List (BitVec 32)) : List (BitVec 32) :=
  let a := wAt v 0
  let e := wAt v 4
  let t1 := wAt v 7 + (e.rotateRight 6 ^^^ e.rotateRight 11 ^^^ e.rotateRight 25) +
    ((e &&& wAt v 5) ^^^ (~~~e &&& wAt v 6)) + k + w
  let t2 := (a.rotateRight 2 ^^^ a.rotateRight 13 ^^^ a.rotateRight 22) +
    ((a &&& wAt v 1) ^^^ (a &&& wAt v 2) ^^^ (wAt v 1 &&& wAt v 2))
  [t1 + t2, a, wAt v 1, wAt v 2, wAt v 3 + t1, e, wAt v 5, wAt v 6]

/-- The rounds of one block. -/
def shaRounds : List (BitVec 32) → List (BitVec 32) → List (BitVec 32) → List (BitVec 32)
  | [], _, v => v
  | k :: ks, w, v => shaRounds ks (w.drop 1 ++ [shaNext w]) (shaRound k (wAt w 0) v)

/-- The blocks of a padded message. -/
def shaBlocks : Nat → List Byte → List (BitVec 32) → List (BitVec 32)
  | 0, _, h => h
  | n + 1, m, h =>
    let w := (List.range 16).map fun i => BitVec.ofNat 32 (ofBytesBE (sliceOf m (4 * i) 4))
    let v := shaRounds shaK w h
    shaBlocks n (m.drop 64) ((List.range 8).map fun i => wAt h i + wAt v i)

/-- SHA-256 of a byte string, as 32 bytes. -/
def sha256 (m : List Byte) : List Byte :=
  let n := m.length
  let pad := (119 - n % 64) % 64
  let p := m ++ [0x80] ++ List.replicate pad 0 ++ toBytesBE 8 (8 * n)
  (shaBlocks (p.length / 64) p shaInit).flatMap fun w => toBytesBE 4 w.toNat

/-! ## AES-256 -/

/-- Doubling in the field of AES. -/
def gfDouble (x : Nat) : Nat := if x < 128 then 2 * x else (2 * x ^^^ 0x11B) % 256

/-- The S-box, 32 entries a row, the first entry in the lowest byte. -/
def aesRows : List Nat :=
  [0xC072A49CAFA2D4ADF04759FA7DC982CA76ABD7FE2B670130C56F6BF27B777C63,
   0x75B227EBE28012079A059618C323C7041531D871F1E5A534CCF73F362693FDB7,
   0xCF584C4A39BECB6A5BB1FC20ED00D153842FE329B3D63B52A05A6E1B1A2C8309,
   0xD2F3FF1021DAB6BCF5389D928F40A351A89F3C507F02F94585334D43FBAAEFD0,
   0xDB0B5EDE14B8EE4688902A22DC4F816073195D643D7EA7C41744975FEC130CCD,
   0x08AE7A65EAF4566CA94ED58D6D37C8E779E4959162ACD3C25C2406490A3A32E0,
   0x9E1DC186B95735610EF6034866B53E708A8BBD4B1F74DDE8C6B4A61C2E2578BA,
   0x16BB54B00F2D99416842E6BF0D89A18CDF2855CEE9871E9B948ED9691198F8E1]

/-- An entry of the S-box. -/
def aesSub (x : Nat) : Nat := aesRows.getD (x / 32) 0 / 256 ^ (x % 32) % 256

/-- The S-box on four bytes. -/
def aesSubWord (w : List Nat) : List Nat := w.map aesSub

/-- Byte-wise exclusive or. -/
def xorBytes (x y : List Nat) : List Nat := List.zipWith (fun a b => a ^^^ b) x y

/-- The key schedule: the 60 words of an AES-256 key, from the last eight and the round constant. -/
def aesExpand : Nat → Nat → List (List Nat) → List (List Nat)
  | 0, _, ws => ws
  | n + 1, rcon, ws =>
    let i := ws.length
    let last := ws.getD (i - 1) []
    let t :=
      if i % 8 = 0 then xorBytes (aesSubWord (last.drop 1 ++ last.take 1)) [rcon, 0, 0, 0]
      else if i % 8 = 4 then aesSubWord last
      else last
    aesExpand n (if i % 8 = 0 then gfDouble rcon else rcon) (ws ++ [xorBytes (ws.getD (i - 8) []) t])

/-- The round keys of a 32-byte key, 15 of 16 bytes. -/
def aesKeys (key : List Nat) : List (List Nat) :=
  let ws := aesExpand 52 1 ((List.range 8).map fun i => (key.drop (4 * i)).take 4)
  (List.range 15).map fun r => ((ws.drop (4 * r)).take 4).flatten

/-- The shift of rows of a state held column by column. -/
def aesShift (s : List Nat) : List Nat :=
  (List.range 16).map fun i => s.getD ((i + 4 * (i % 4)) % 16) 0

/-- The mix of one column. -/
def aesMixColumn (c : List Nat) : List Nat :=
  (List.range 4).map fun i =>
    let x := fun k => c.getD ((i + k) % 4) 0
    gfDouble (x 0) ^^^ (gfDouble (x 1) ^^^ x 1) ^^^ x 2 ^^^ x 3

/-- The mix of the columns. -/
def aesMix (s : List Nat) : List Nat :=
  (List.range 4).flatMap fun c => aesMixColumn ((s.drop (4 * c)).take 4)

/-- The rounds after the first key. -/
def aesRounds : List (List Nat) → List Nat → List Nat
  | [], s => s
  | [k], s => xorBytes (aesShift (aesSubWord s)) k
  | k :: ks, s => aesRounds ks (xorBytes (aesMix (aesShift (aesSubWord s))) k)

/-- AES-256 of one block under expanded keys. -/
def aesBlock (ks : List (List Nat)) (b : List Nat) : List Nat :=
  match ks with
  | [] => b
  | k :: rest => aesRounds rest (xorBytes b k)

/-! ## GCM -/

/-- The product in the field of GCM, bit 127 of a value its first bit. -/
def ghMul : Nat → BitVec 128 → BitVec 128 → BitVec 128 → BitVec 128
  | 0, z, _, _ => z
  | n + 1, z, v, y =>
    let z := if y.getMsbD 0 then z ^^^ v else z
    let v2 := v >>> 1
    ghMul n z (if v.getLsbD 0 then v2 ^^^ 0xE1000000000000000000000000000000#128 else v2) (y <<< 1)

/-- A block of bytes as a value, the first byte highest. -/
def blockOf (bs : List Byte) : BitVec 128 := BitVec.ofNat 128 (ofBytesBE (sliceOf bs 0 16))

/-- The hash of blocks. -/
def ghash (h : BitVec 128) : Nat → BitVec 128 → List Byte → BitVec 128
  | 0, y, _ => y
  | n + 1, y, bs => ghash h n (ghMul 128 0 h (y ^^^ blockOf bs)) (bs.drop 16)

/-- Bytes padded with zero to whole blocks. -/
def padBlocks (bs : List Byte) : List Byte := bs ++ List.replicate ((16 - bs.length % 16) % 16) 0

/-- AES of a 128-bit value. -/
def aesValue (ks : List (List Nat)) (x : BitVec 128) : BitVec 128 :=
  BitVec.ofNat 128 (ofBytesBE ((aesBlock ks ((toBytesBE 16 x.toNat).map BitVec.toNat)).map (BitVec.ofNat 8)))

/-- The counter stream laid over bytes; the counter is the low 32 bits. -/
def gcmCtr (ks : List (List Nat)) : Nat → BitVec 128 → List Byte → List Byte
  | 0, _, _ => []
  | n + 1, j, bs =>
    let j2 : BitVec 128 := j.extractLsb' 32 96 ++ (j.extractLsb' 0 32 + 1)
    let s := toBytesBE 16 (aesValue ks j2).toNat
    List.zipWith (fun a b => a ^^^ b) (bs.take 16) s ++ gcmCtr ks n j2 (bs.drop 16)

/-- The tag of a ciphertext. -/
def gcmTag (ks : List (List Nat)) (iv aad ct : List Byte) : List Byte :=
  let h := aesValue ks 0
  let m := padBlocks aad ++ padBlocks ct ++ toBytesBE 8 (8 * aad.length) ++ toBytesBE 8 (8 * ct.length)
  let j0 : BitVec 128 := BitVec.ofNat 128 (ofBytesBE iv * 2 ^ 32 + 1)
  toBytesBE 16 (ghash h (m.length / 16) 0 m ^^^ aesValue ks j0).toNat

/-- The keys of a 32-byte key. -/
def gcmKeys (key : List Byte) : List (List Nat) := aesKeys (key.map BitVec.toNat)

/-- AES-256-GCM encryption under a 96-bit IV: the ciphertext and the tag; decryption is the same stream. -/
def gcmCrypt (key iv bs : List Byte) : List Byte :=
  gcmCtr (gcmKeys key) ((bs.length + 15) / 16) (BitVec.ofNat 128 (ofBytesBE iv * 2 ^ 32 + 1)) bs

/-- The tag of a ciphertext under a key. -/
def gcmTagOf (key iv aad ct : List Byte) : List Byte := gcmTag (gcmKeys key) iv aad ct

/-! ## P-256 -/

def p256 : Nat := 0xFFFFFFFF00000001000000000000000000000000FFFFFFFFFFFFFFFFFFFFFFFF
def p256n : Nat := 0xFFFFFFFF00000000FFFFFFFFFFFFFFFFBCE6FAADA7179E84F3B9CAC2FC632551
def p256b : Nat := 0x5AC635D8AA3A93E7B3EBBD55769886BC651D06B0CC53B0F63BCE3C3E27D2604B
def p256g : Nat × Nat :=
  (0x6B17D1F2E12C4247F8BCE6E563A440F277037D812DEB33A0F4A13945D898C296,
   0x4FE342E2FE1A7F9B8EE7EB4A7C0F9E162BCE33576B315ECECBB6406837BF51F5)

/-- Difference modulo m. -/
def subMod (m x y : Nat) : Nat := (x + m - y % m) % m

/-- Power modulo m, the exponent's bits read from the low end. -/
def powMod (m : Nat) : Nat → Nat → Nat → Nat → Nat
  | 0, acc, _, _ => acc
  | n + 1, acc, x, e => powMod m n (if e % 2 = 1 then acc * x % m else acc) (x * x % m) (e / 2)

/-- Inverse modulo a prime. -/
def invMod (m x : Nat) : Nat := powMod m 256 1 (x % m) (m - 2)

/-- A point of the curve, none at infinity. -/
abbrev Point := Option (Nat × Nat)

/-- Whether a pair of coordinates lies on the curve. -/
def onCurve (x y : Nat) : Bool := decide (x < p256) && decide (y < p256) && (y * y % p256 == (subMod p256 (x * x % p256) 3 * x + p256b) % p256)

/-- The third point of a line of slope l through (x1, y1) and (x2, _). -/
def chord (l x1 y1 x2 : Nat) : Point :=
  let x := subMod p256 (subMod p256 (l * l % p256) x1) x2
  some (x, subMod p256 (l * subMod p256 x1 x % p256) y1)

/-- The sum of two points. -/
def pAdd : Point → Point → Point
  | none, q => q
  | p, none => p
  | some (x1, y1), some (x2, y2) =>
    if x1 = x2 then
      if (y1 + y2) % p256 = 0 then none
      else chord (subMod p256 (3 * (x1 * x1 % p256)) 3 * invMod p256 (2 * y1) % p256) x1 y1 x2
    else chord (subMod p256 y2 y1 * invMod p256 (subMod p256 x2 x1) % p256) x1 y1 x2

/-- A multiple of a point. -/
def pMul : Nat → Nat → Point → Point → Point
  | 0, _, _, acc => acc
  | n + 1, k, p, acc => pMul n (k / 2) (pAdd p p) (if k % 2 = 1 then pAdd acc p else acc)

/-- The public key of a private key. -/
def publicKey (d : Nat) : Nat × Nat := (pMul 256 d (some p256g) none).getD (0, 0)

/-- A public key as 64 bytes, x and y big-endian (R417). -/
def pubBytes (q : Nat × Nat) : List Byte := toBytesBE 32 q.1 ++ toBytesBE 32 q.2

/-- The x coordinate of the ECDH product, where the point lies on the curve. -/
def ecdh (d : Nat) (pub : List Byte) : Option (List Byte) :=
  let x := ofBytesBE (sliceOf pub 0 32)
  let y := ofBytesBE (sliceOf pub 32 32)
  if onCurve x y then (pMul 256 d (some (x, y)) none).map fun q => toBytesBE 32 q.1 else none

/-- ECDSA r and s, by a private key and a nonce, over a digest. -/
def ecdsaSign (d k : Nat) (digest : List Byte) : List Byte :=
  let r := (publicKey (k % p256n)).1 % p256n
  let s := invMod p256n k * (ofBytesBE digest + r * d) % p256n
  toBytesBE 32 r ++ toBytesBE 32 s

/-- Whether an ECDSA signature over a digest is that of a public key. -/
def ecdsaOk (qx qy : Nat) (sig digest : List Byte) : Bool :=
  let r := ofBytesBE (sliceOf sig 0 32)
  let s := ofBytesBE (sliceOf sig 32 32)
  let w := invMod p256n s
  let p := pAdd (pMul 256 (ofBytesBE digest * w % p256n) (some p256g) none) (pMul 256 (r * w % p256n) (some (qx, qy)) none)
  onCurve qx qy && 0 < r && r < p256n && 0 < s && s < p256n && p.any fun q => q.1 % p256n == r

/-- The device identity: SHA-256 of DK's public key (R417). -/
def ownIdentity (s : State) : List Byte := sha256 (pubBytes (publicKey (Config.deviceKey s.seed)))

end Sys2Proof.Machine
end

