-- ==== Sys2Proof/Machine/Translate.lean ====
section
/-! DEFINITION. Translation: the page table, the walkers, copy-on-write and remote pages (R47 to R84). -/

namespace Sys2Proof.Machine

/-! ## The walk -/

/-- What a walk of the table reads: a fault, or a leaf with its address, log2 of its page size and its level. -/
inductive Walk where
  | fault (cause level key : Nat)
  | leaf (pa lg level : Nat) (pte : Word)
  deriving DecidableEq, Repr

/-- The shift of a level's index in the virtual address (R51). -/
def levelShift (l : Nat) : Nat :=
  match l with
  | 0 => 39
  | 1 => 30
  | 2 => 21
  | _ => 16

/-- The number of entries of a table of a level (R51). -/
def levelEntries (l : Nat) : Nat :=
  match l with
  | 0 => 8192
  | 1 => 512
  | 2 => 512
  | _ => 32

/-- The address of the entry that a virtual address indexes in a table of a level. -/
def entryPa (tbl l va : Nat) : Nat := tbl + 8 * (va / 2 ^ levelShift l % levelEntries l)

/-- log2 of the page size of the leaves that an SZ value announces at a level, 0 for directories; none when the level
does not permit it (R53). -/
def szAt (l sz : Nat) : Option Nat :=
  match l, sz with
  | 0, 0 => some 0
  | 0, 3 => some 30
  | 1, 0 => some 0
  | 1, 2 => some 21
  | 2, 1 => some 16
  | _, _ => none

/-- Whether a table of a level may stand at an address (R52, R53). -/
def tableOk (l tbl : Nat) : Bool := isDram tbl && tbl % (8 * levelEntries l) == 0

/-- What a directory entry of a level names: the next table and log2 of the page size of the leaves there, 0 for
directories; or the cause of the fault it raises (R52, R53). -/
def dirNext (l : Nat) (e : Word) : Except Nat (Nat × Nat) :=
  if !bit e 63 then .error 0x01
  else
    match szAt l (bits e 59 58) with
    | none => .error 0x04
    | some lg =>
      if bits e 62 60 ≠ 0 || bits e 57 48 ≠ 0 || bits e 7 0 ≠ 0 || !tableOk (l + 1) (bits e 47 8 * 256) then .error 0x04
      else .ok (bits e 47 8 * 256, lg)

/-- The walk from a directory entry of a level down (R52, R53, R67), and the directory entries it passes, with their
levels and addresses. -/
def descend (s : State) (ptkey va : Nat) : Nat → Nat → Nat → Word → Walk × List (Nat × Nat × Word)
  | fuel, l, pa, e =>
    match dirNext l e with
    | .error c => (.fault c l 0, [])
    | .ok (tbl, lg) =>
      let pa' := entryPa tbl (l + 1) va
      let e' := readWord s ptkey pa'
      if lg ≠ 0 then (.leaf pa' lg (l + 1) e', [(l, pa, e)])
      else
        match fuel with
        | 0 => (.fault 0x04 l 0, [])
        | fuel + 1 =>
          let r := descend s ptkey va fuel (l + 1) pa' e'
          (r.1, (l, pa, e) :: r.2)

/-- What every walk reads first: the context table under TKEY and XROOT; it gives PTKEY and the root, or a fault (R47,
R58, R59). -/
def walkRoot (s : State) (part : Nat) (ctx : BitVec 12) (va : Nat) : Except Walk (Nat × Nat) :=
  if va ≥ 2 ^ 52 then .error (.fault 0x06 0 0)
  else
    match keyCause s part (partOf s part).tkey with
    | some c => .error (.fault c 0 (partOf s part).tkey)
    | none =>
      let x := descWord s part ctx 0
      if !bit x 63 then .error (.fault 0x01 0 0)
      else
        let ptkey := bits x 15 4
        match keyCause s part ptkey with
        | some c => .error (.fault c 0 ptkey)
        | none =>
          if tableOk 0 (bits x 47 16 * 65536) then .ok (ptkey, bits x 47 16 * 65536) else .error (.fault 0x04 0 0)

/-- The walk from the root through memory, with the directory entries it passes. -/
def walkMemory (s : State) (ptkey root va : Nat) : Walk × List (Nat × Nat × Word) :=
  descend s ptkey va 3 0 (entryPa root 0 va) (readWord s ptkey (entryPa root 0 va))

/-- The walk of a context's table through memory alone (R47, R52, R58, R59). -/
def walkTable (s : State) (part : Nat) (ctx : BitVec 12) (va : Nat) : Walk :=
  match walkRoot s part ctx va with
  | .error w => w
  | .ok (ptkey, root) => (walkMemory s ptkey root va).1

/-- The slot under which the walkers read and write a context's tables (R58). -/
def ptKeyOf (s : State) (part : Nat) (ctx : BitVec 12) : Nat := bits (descWord s part ctx 0) 15 4

/-- Whether a frame lies in the physical map and in the partition's resources (R49, R86, R109). -/
def frameOwned (s : State) (part frame : Nat) : Bool :=
  match region frame with
  | .hbm p => mapBit (partOf s part).pchs p
  | .lp6 c => mapBit (partOf s part).lp6 c
  | .host => true
  | .peer _ => true
  | .array r => r.die == (partOf s part).dieOf && mapBit (partOf s part).quads (256 * r.slice + r.index / 4)
  | .reserved => false

/-- The causes that a leaf raises; the lowest is reported (R49, R50, R55, R56). -/
def leafCauses (s : State) (part lg : Nat) (pte : Word) (write : Bool) : List Nat :=
  if !bit pte 63 then [0x01]
  else
    let frame := bits pte 47 16 * 65536
    let big := decide (16 < lg)
    (if write && !bit pte 62 then [0x02] else []) ++
    (if bits pte 60 59 = 3 then [0x03] else []) ++
    (if bits pte 54 48 ≠ 0 then [0x04] else []) ++
    (if big && (frame % 2 ^ lg ≠ 0 || inArrays frame) then [0x05] else []) ++
    (if inArrays frame then [] else (keyCause s part (bits pte 15 4)).toList) ++
    (if big && (bit pte 58 || bit pte 57) then [0x09] else []) ++
    (if frameOwned s part frame then [] else [0x0B])

/-- The leaf that a PTE gives its holder (R63). -/
def leafOf (pte : Word) (lg : Nat) (d : Bool) : Leaf :=
  { frame := bits pte 47 16 * 65536, lg := lg, w := bit pte 62, la := bit pte 61,
    ord := BitVec.ofNat 2 (bits pte 60 59), key := bits pte 15 4, d := d }

/-- A PTE with A set, and D for a write. -/
def withAD (pte : Word) (write : Bool) : Word := pte ||| (1#64 <<< 56) ||| (if write then 1#64 <<< 55 else 0)

/-- The atomic OR of A, and of D for a write, at the PTE (R68). -/
def markAD (s : State) (part ptkey pa : Nat) (write : Bool) : State :=
  let old := readWord s ptkey pa
  if withAD old write = old then s else writeWord s part ptkey pa (withAD old write)

/-! ## Translation entries -/

/-- How many entries a holder has (R63).  The queue hardware has none of its own: what it walks stands for one step
(ringHold). -/
def holderEntries : Holder → Nat
  | .seq _ => 32
  | .queue _ _ => 65536
  | _ => 1

/-- Whether an entry translates an address of a context for a holder. -/
def TlbEntry.covers (e : TlbEntry) (h : Holder) (ctx : BitVec 12) (va : Nat) : Bool :=
  e.holder == h && e.ctx == ctx && e.va / 2 ^ e.leaf.lg == va / 2 ^ e.leaf.lg

/-- The entries of a holder but for the one that a fill replaces: one for the same page, or the least recently used
when the holder has no other place (R63); and the entry that left for want of a place. -/
def tlbMakeRoom (s : State) (h : Holder) (ctx : BitVec 12) (va : Nat) : List TlbEntry × Option TlbEntry :=
  let rest := s.tlb.filter fun x => !x.covers h ctx va
  let mine := rest.filter fun x => x.holder == h
  if mine.length < holderEntries h then (rest, none)
  else
    match minBy TlbEntry.used mine with
    | some v => (rest.filter (· != v), some v)
    | none => (rest, none)

/-- Fill an entry of a holder for a request.  Where that replaces the entry of a lower page of the same access, the
access keeps that page's translation until it has the others (R60, R63). -/
def tlbPut (s : State) (r : WalkReq) (leaf : Leaf) : State :=
  let room := tlbMakeRoom s r.holder r.ctx r.va
  let kept := room.2.toList.filter fun v => r.first / 65536 * 65536 < (v.va / 2 ^ v.leaf.lg + 1) * 2 ^ v.leaf.lg && v.va / 2 ^ v.leaf.lg * 2 ^ v.leaf.lg < r.va
  { s with
    tlb := room.1 ++ [{ holder := r.holder, ctx := r.ctx, va := r.va, leaf := leaf, used := s.tick }]
    latched := s.latched ++ kept
    tick := s.tick + 1 }

/-- A walk that faults leaves the entry it was to fill empty (R65). -/
def tlbEmpty (s : State) (r : WalkReq) : State := { s with tlb := (tlbMakeRoom s r.holder r.ctx r.va).1 }

/-- Whether the page of a translation of an address meets the 64 KiB range that an XLINV or a rewritten leaf names;
none names every address (R69, R70). -/
def meetsRange (page : Option Nat) (va lg : Nat) : Bool :=
  match page with
  | none => true
  | some p => va / 2 ^ lg == p * 65536 / 2 ^ lg

/-- A held store of a page that a copy-on-write or a pull has moved is translated anew at its commit. -/
def HeldStore.untranslate (page : Option Nat) (h : HeldStore) : HeldStore :=
  if h.parts.any fun p => meetsRange page p.va p.leaf.lg then { h with parts := [], paid := false, stale := false } else h

/-- A held store of a translation that an XLINV removes is one that the XLINV waits for (R70). -/
def HeldStore.outlive (page : Option Nat) (h : HeldStore) : HeldStore :=
  if h.parts.any fun p => meetsRange page p.va p.leaf.lg then { h with stale := true } else h

/-- Whether a place that a firing has translated for a store and not yet held keeps its translation. -/
def Partial.stays (ctx : BitVec 12) (page : Option Nat) (x : Partial) : Bool :=
  match x.got with
  | .parts ps => x.site.key.ctx != ctx || !ps.any fun p => meetsRange page p.va p.leaf.lg
  | _ => true

/-- Remove what translates a byte of a 64 KiB range of a context, or all of it: entries, leaves and the directory
entries on the walk to it (R69, R70); and do what is given to each store that the context holds. -/
def removeTranslations (held : HeldStore → HeldStore) (s : State) (ctx : BitVec 12) (page : Option Nat) : State :=
  { s with
    tlb := s.tlb.filter fun e => !(e.ctx == ctx && meetsRange page e.va e.leaf.lg)
    latched := s.latched.filter fun e => !(e.ctx == ctx && meetsRange page e.va e.leaf.lg)
    walkCache := s.walkCache.filter fun e => !(e.ctx == ctx && meetsRange page e.va (levelShift e.level))
    instances := mapIf (fun i => i.blk.key.ctx == ctx) (fun i => { i with stores := i.stores.map held }) s.instances
    partials := s.partials.filter (Partial.stays ctx page) }

/-- What a copy-on-write or a pull of a page removes (R73, R82). -/
def dropTranslations (s : State) (ctx : BitVec 12) (page : Option Nat) : State :=
  removeTranslations (HeldStore.untranslate page) s ctx page

/-- What an XLINV removes (R70). -/
def xlinvRemove (s : State) (ctx : BitVec 12) (page : Option Nat) : State :=
  removeTranslations (HeldStore.outlive page) s ctx page

/-- Whether a store that an XLINV waits for is still held or released and not performed (R70). -/
def staleStores (s : State) (ctx : BitVec 12) (page : Option Nat) : Bool :=
  s.instances.any fun i => i.blk.key.ctx == ctx && i.stores.any fun h => h.stale && h.parts.any fun p => meetsRange page p.va p.leaf.lg

/-- The accesses of a context that were translated through what such a removal takes (R70, R75). -/
def usersOf (s : State) (ctx : BitVec 12) (page : Option Nat) : List Nat :=
  (s.accesses.filter fun a => a.ctx == ctx && a.parts.any fun p => meetsRange page p.va p.leaf.lg).map Access.id

/-- The word FINFO of a fault (R71). -/
def FaultInfo.word (f : FaultInfo) : Word :=
  BitVec.ofNat 64 (f.key * 4096 + (if f.atomic then 2048 else 0) + (if f.write then 1024 else 0) + f.level * 256 + f.cause)

/-- The physical address of a virtual one under a leaf. -/
def Leaf.pa (l : Leaf) (va : Nat) : Nat := l.frame + va % 2 ^ l.lg

/-- The level of the leaves of a page size. -/
def levelOf (lg : Nat) : Nat := if lg = 30 then 1 else if lg = 21 then 2 else 3

/-! ## Serving a request -/

/-- What becomes of a request: an entry, a fault, or the holder is held by a copy-on-write or a pull. -/
inductive Served where
  | filled (leaf : Leaf)
  | fault (f : FaultInfo)
  | held
  deriving DecidableEq, Repr

/-- The fault of a request. -/
def WalkReq.fault (r : WalkReq) (cause level key : Nat) : FaultInfo :=
  { cause := cause, addr := r.va, level := level, write := r.write, atomic := r.atomic, key := key }

/-- Where the ring of a context's pool stands: its address, log2 of its capacity, HEAD and TAIL (R58). -/
structure PoolRing where
  base : Nat
  cap : Nat
  head : Word
  tail : Word
  deriving DecidableEq, Repr

/-- The pool ring of a context, read under its PTKEY (R58, R59). -/
def poolRing (s : State) (part : Nat) (ctx : BitVec 12) : PoolRing :=
  let pool := descWord s part ctx 0x08
  let base := bits pool 47 7 * 128
  { base := base, cap := bits pool 63 59, head := readWord s (ptKeyOf s part ctx) base
    tail := readWord s (ptKeyOf s part ctx) (base + 8) }

/-- Whether a pool has a frame to give: CAP lies in 4 to 20 and HEAD has not reached TAIL (R58, R76). -/
def PoolRing.ready (p : PoolRing) : Bool := 4 ≤ p.cap && p.cap ≤ 20 && p.head != p.tail

/-- The address of an entry of the ring. -/
def PoolRing.entry (p : PoolRing) (i : Word) : Nat := p.base + 128 + 8 * (i.toNat % 2 ^ p.cap)

/-- Take the frame at HEAD (R73 step 1). -/
def takeFrame (s : State) (part : Nat) (ctx : BitVec 12) (p : PoolRing) : State × Nat :=
  let ptkey := ptKeyOf s part ctx
  (writeWord s part ptkey p.base (p.head + 1), bits (readWord s ptkey (p.entry p.head)) 47 16 * 65536)

/-- Wait for the copy of a page, or begin one: check CWKEY, take a frame, start the Forager (R73, R74, R76).  Foragers
reach no array, so an array frame on either side raises cause 0x0B (R5, R90). -/
def serveCow (s : State) (r : WalkReq) (leafPa : Nat) (pte : Word) : State × Served :=
  let page := r.va / 65536
  match s.cows.find? fun c => c.req.ctx == r.ctx && c.page == page with
  | some c =>
    if c.req.holder == r.holder || c.waiting.any (fun w => w.holder == r.holder) then (s, .held)
    else ({ s with cows := mapIf (· == c) (fun c => { c with waiting := c.waiting ++ [r] }) s.cows }, .held)
  | none =>
    let cwkey := bits (descWord s r.part r.ctx 0x10) 15 4
    match keyCause s r.part cwkey with
    | some c => (s, .fault (r.fault c 3 cwkey))
    | none =>
      if inArrays (bits pte 47 16 * 65536) then (s, .fault (r.fault 0x0B 3 0))
      else
        let pool := poolRing s r.part r.ctx
        let cow : Cow := { req := r, waiting := [], page := page, leafPa := leafPa, old := pte, frame := 0, key := cwkey,
                           empty := true, closing := none }
        if !pool.ready then
          match r.holder with
          | .seq _ => (s, .fault (r.fault 0xF0 3 0))
          | _ => ({ s with cows := s.cows ++ [cow], cwempties := s.cwempties ++ [r] }, .held)
        else
          let t := takeFrame s r.part r.ctx pool
          if inArrays t.2 then (t.1, .fault (r.fault 0x0B 3 0))
          else ({ t.1 with cows := t.1.cows ++ [{ cow with frame := t.2, empty := false }] }, .held)

/-- The migration record of a context, 64 bytes that the walkers read under its PTKEY (R59, R411). -/
def migRecord (s : State) (part : Nat) (ctx : BitVec 12) : List Byte :=
  readSlot s (ptKeyOf s part ctx) (bits (descWord s part ctx 0x30) 47 6 * 64) 64

/-- Wait for the pull of a page, or begin one: the walker reads the migration record and sends its request (R82, R83,
R84, R411).  A walker's pull reaches no array, so an array frame raises cause 0x0B (R4, R90). -/
def servePull (s : State) (r : WalkReq) (leafPa : Nat) (pte : Word) : State × Served :=
  let page := r.va / 65536
  match s.pulls.find? fun p => p.req.ctx == r.ctx && p.page == page with
  | some p =>
    if p.waiting.any (fun w => w.holder == r.holder) then (s, .held)
    else ({ s with pulls := mapIf (· == p) (fun p => { p with waiting := p.waiting ++ [r] }) s.pulls }, .held)
  | none =>
    if inArrays (bits pte 47 16 * 65536) then (s, .fault (r.fault 0x0B 3 0))
    else if r.soft || !bit (descWord s r.part r.ctx 0x30) 63 then (s, .fault (r.fault 0x0A 3 0))
    else
      let m := migRecord s r.part r.ctx
      let ask : PullSent := { port := ofBytes (sliceOf m 0 1) % 16, lendId := BitVec.ofNat 64 (ofBytes (sliceOf m 8 8))
                              va := page * 65536, requester := ownIdentity s }
      ({ s with
          pulls := s.pulls ++ [{ req := r, page := page, leafPa := leafPa, old := pte, waiting := [r] }]
          pullsSent := s.pullsSent ++ [ask] }, .held)

/-- Whether a line of the walker cache lies on the walk of a request. -/
def WalkLine.onWalk (c : WalkLine) (r : WalkReq) : Bool :=
  c.die == r.die && c.ctx == r.ctx && c.va / 2 ^ levelShift c.level == r.va / 2 ^ levelShift c.level

/-- The lines of the walker cache that a walk may use: a leaf, then directory entries, the deepest first (R66). -/
def walkLines (s : State) (r : WalkReq) : List WalkLine :=
  (s.walkCache.filter fun c => c.leaf && c.onWalk r) ++
    [2, 1, 0].flatMap fun l => s.walkCache.filter fun c => !c.leaf && c.level == l && c.onWalk r

/-- The first of some lines that the hardware uses, by free choices. -/
def pickLine : State → List WalkLine → State × Option WalkLine
  | s, [] => (s, none)
  | s, c :: cs =>
    let s' := { s with freeCtr := s.freeCtr + 1 }
    if Config.freeBit s.freeCtr then (s', some c) else pickLine s' cs

/-- Whether a line of the walker cache is what a walk through memory has read there. -/
def lineCurrent (w : Walk × List (Nat × Nat × Word)) (c : WalkLine) : Bool :=
  if c.leaf then w.1 == .leaf c.pa (levelShift c.level) c.level c.entry else w.2.contains (c.level, c.pa, c.entry)

/-- The line of the walker cache that a walk goes on from: the first where all of them are what memory holds, and where
one is stale whichever the hardware uses, by free choices (R66, R69). -/
def walkLine (s : State) (r : WalkReq) (w : Walk × List (Nat × Nat × Word)) : State × Option WalkLine :=
  if (walkLines s r).all (lineCurrent w) then (s, (walkLines s r).head?) else pickLine s (walkLines s r)

/-- Keep lines that a walk has read in its die's walker cache of 4,096 lines; those filled longest ago leave (R66). -/
def walkKeep (s : State) (r : WalkReq) (new : List WalkLine) : State :=
  let old := s.walkCache.filter fun c => !new.any fun n => n.level == c.level && c.onWalk r
  let all := old ++ new
  let mine := all.filter fun c => c.die == r.die
  { s with walkCache := (all.filter fun c => c.die != r.die) ++ mine.drop (mine.length - 4096) }

/-- A line of the walker cache for an entry that a walk has read. -/
def WalkReq.line (r : WalkReq) (leaf : Bool) (x : Nat × Nat × Word) : WalkLine :=
  { die := r.die, ctx := r.ctx, level := x.1, leaf := leaf, va := r.va, pa := x.2.1, entry := x.2.2 }

/-- The walk of a request: XROOT and the key slots are judged, then it goes on from a line of the walker cache that the
hardware uses, else from the root (R58, R59, R66, R69).  The directory entries it reads enter the cache. -/
def walkFor (s : State) (r : WalkReq) : State × Walk :=
  match walkRoot s r.part r.ctx r.va with
  | .error w => (s, w)
  | .ok (ptkey, root) =>
    let w := walkMemory s ptkey root r.va
    match walkLine s r w with
    | (s, some c) =>
      if c.leaf then (s, .leaf c.pa (levelShift c.level) c.level c.entry)
      else
        let w := descend s ptkey r.va 3 c.level c.pa c.entry
        (walkKeep s r (w.2.map (r.line false)), w.1)
    | (s, none) => (walkKeep s r (w.2.map (r.line false)), w.1)

/-- Whether a copy of the page has replaced its leaf and waits for the users of the old one; no write goes ahead of it
(R75). -/
def cowClosing (s : State) (r : WalkReq) : Bool :=
  s.cows.any fun c => c.req.ctx == r.ctx && c.page == r.va / 65536 && c.closing.isSome

/-- A walker serves a request (R52 to R56, R65, R68, R73, R82). -/
def serveWalk (s : State) (r : WalkReq) : State × Served :=
  match walkFor s r with
  | (s, .fault c l k) => (tlbEmpty s r, .fault (r.fault c l k))
  | (s, .leaf pa lg level pte) =>
    match leafCauses s r.part lg pte (r.write || r.atomic) with
    | c :: cs =>
      let c := minNat c cs
      (tlbEmpty s r, .fault (r.fault c level (if c = 0x07 || c = 0x08 then bits pte 15 4 else 0)))
    | [] =>
      let got :=
        if bit pte 57 then servePull s r pa pte
        else if (r.write || r.atomic) && (bit pte 58 || cowClosing s r) then serveCow s r pa pte
        else
          let leaf := leafOf pte lg (r.write || r.atomic)
          let s := markAD s r.part (ptKeyOf s r.part r.ctx) pa (r.write || r.atomic)
          (tlbPut (walkKeep s r [r.line true (level, pa, withAD pte (r.write || r.atomic))]) r leaf, .filled leaf)
      match got with
      | (s, .fault f) => (tlbEmpty s r, .fault f)
      | g => g

/-! ## Looking an address up -/

/-- What the holder's own entries say of an address. -/
inductive Lookup where
  | hit (leaf : Leaf)
  | miss
  | fault (f : FaultInfo)
  deriving DecidableEq, Repr

/-- The entry that translates an address for a holder: of its own entries, or one that its access has kept (R60, R63). -/
def entryFor (s : State) (h : Holder) (ctx : BitVec 12) (va : Nat) : Option TlbEntry :=
  (s.tlb ++ s.latched).find? fun e => e.covers h ctx va

/-- Look an address up in a holder's entries; the key slot is judged each time (R47, R63, R68, R81). -/
def tlbLookup (s : State) (h : Holder) (ctx : BitVec 12) (va : Nat) (write atomic : Bool) : Lookup :=
  let flt := fun (c l k : Nat) =>
    Lookup.fault { cause := c, addr := va, level := l, write := write || atomic, atomic := atomic, key := k }
  if va ≥ 2 ^ 52 then flt 0x06 0 0
  else
    match entryFor s h ctx va with
    | none => .miss
    | some e =>
      if (write || atomic) && !e.leaf.d then .miss
      else if !inArrays e.leaf.frame && keyState s e.leaf.key ≠ .loaded then flt 0x08 (levelOf e.leaf.lg) e.leaf.key
      else .hit e.leaf

/-- The outcome of translating an access of several bytes. -/
inductive Trans where
  | ok (parts : List Part)
  | wait
  | fault (f : FaultInfo)
  deriving DecidableEq, Repr

/-- What an access meets at a page beyond its walk: nothing, a wait, or a fault. -/
abbrev Reach := Leaf → Nat → Option (Option FaultInfo)

/-- The faults that an access meets beyond its walk: 0x0C at a window (R51), AMODE at an array (R88, R89); it waits at
an array that converts or has a conversion to come (R92, R141), and at the host window while the link is down (R433). -/
def reachCheck (s : State) (leaf : Leaf) (va : Nat) (write atomic sc : Bool) : Option (Option FaultInfo) :=
  let flt := fun (c : Nat) =>
    { cause := c, addr := va, level := levelOf leaf.lg, write := write || atomic, atomic := atomic, key := 0 : FaultInfo }
  match region (leaf.pa va) with
  | .host => if atomic || sc then some (some (flt 0x0C)) else if s.linkUp then none else some none
  | .peer _ => if atomic || sc then some (some (flt 0x0C)) else none
  | .array r =>
    let a := arrayOf s r
    if a.busy || s.conversions.any (fun c => c.ref == r) then some none
    else if a.mode = .scratch || (a.mode = .load && !atomic && !sc) then none
    else some (some (flt 0xF1))
  | _ => none

/-- Translate the 64 KiB pieces of an access from a holder's entries alone; the first piece that faults or misses
decides (R60). -/
def lookupPieces (s : State) (h : Holder) (ctx : BitVec 12) (write atomic : Bool) (reach : Reach) :
    List (Nat × Nat) → Trans × Option Nat
  | [] => (.ok [], none)
  | (va, n) :: rest =>
    match tlbLookup s h ctx va write atomic with
    | .fault f => (.fault f, none)
    | .miss => (.wait, some va)
    | .hit leaf =>
      match reach leaf va with
      | some (some f) => (.fault f, none)
      | some none => (.wait, none)
      | none =>
        match lookupPieces s h ctx write atomic reach rest with
        | (.ok ps, m) => (.ok ({ va := va, pa := leaf.pa va, n := n, leaf := leaf } :: ps), m)
        | r => r

/-- The address at which a holder waits for a walk, a copy-on-write or a pull (R64). -/
def missOf (s : State) (h : Holder) : Option Nat :=
  ((s.walks ++ s.cows.flatMap (fun c => c.req :: c.waiting) ++ s.pulls.flatMap Pull.waiting).find?
    fun r => r.holder == h).map WalkReq.va

/-- A holder no longer waits: what it asked for is dropped, and so is a fault it was to get (R64, R65, R387). -/
def forgetMisses (s : State) (p : Holder → Bool) : State :=
  { s with
    walks := s.walks.filter fun r => !p r.holder
    walkFaults := s.walkFaults.filter fun w => !p w.holder
    latched := s.latched.filter fun e => !p e.holder
    portReqs := s.portReqs.filter fun r => !p r.holder
    cows := s.cows.map fun c => { c with waiting := c.waiting.filter fun r => !p r.holder }
    pulls := s.pulls.map fun c => { c with waiting := c.waiting.filter fun r => !p r.holder } }

/-- What a holder's access had kept of its lower pages goes. -/
def dropLatched (s : State) (h : Holder) : State := { s with latched := s.latched.filter fun e => e.holder != h }

/-- The entries that an access has used count as used now; what it kept for itself goes (R63). -/
def touchEntries (s : State) (h : Holder) (ctx : BitVec 12) (ps : List Part) : State :=
  let s := dropLatched s h
  match h with
  | .seq _ =>
    ps.foldl
      (fun s p => { s with tlb := mapFirst (fun e => e.covers h ctx p.va) (fun e => { e with used := s.tick }) s.tlb
                           tick := s.tick + 1 }) s
  | _ => s

/-- Translate an access for a holder of entries, under a test of what its pages allow.  A fault that a walk left is
taken first; a miss enters the die's walk queue when it has room, and the holder waits; while it does, it starts no other
access (R60, R63 to R66). -/
def translateWith (s : State) (h : Holder) (ctx : BitVec 12) (part die va n : Nat) (write atomic soft : Bool)
    (reach : Reach) : State × Trans :=
  let pieces := chunks 65536 (n + 1) va n
  let mine := fun (a : Nat) => pieces.any fun p => p.1 == a
  let s := if s.walkFaults.any (fun w => w.holder == h && !mine w.info.addr) then
      { s with walkFaults := s.walkFaults.filter fun w => !(w.holder == h && !mine w.info.addr) }
    else s
  match s.walkFaults.find? fun w => w.holder == h with
  | some w =>
    (dropLatched { s with walkFaults := s.walkFaults.filter (· != w) } h, .fault w.info)
  | none =>
    match missOf s h with
    | some a =>
      if mine a then
        match lookupPieces s h ctx write atomic reach pieces with
        | (.fault f, _) => (dropLatched s h, .fault f)
        | _ => (s, .wait)
      else (s, .wait)
    | none =>
      match lookupPieces s h ctx write atomic reach pieces with
      | (.ok ps, none) => (touchEntries s h ctx ps, .ok ps)
      | (.fault f, _) => (dropLatched s h, .fault f)
      | (t, none) => (s, t)
      | (t, some miss) =>
        if 256 ≤ (s.walks.filter fun r => r.die == die).length then (s, t)
        else
          ({ s with walks := s.walks ++ [{ holder := h, die := die, ctx := ctx, part := part, va := miss, first := va,
                                            write := write, atomic := atomic, soft := soft }] }, t)

/-- Translate the pieces of an access of hardware that has no translation entry, walking as it goes. -/
def walkPieces (h : Holder) (ctx : BitVec 12) (part die : Nat) (write : Bool) :
    State → List (Nat × Nat) → State × Trans
  | s, [] => (s, .ok [])
  | s, (va, n) :: rest =>
    let r : WalkReq := { holder := h, die := die, ctx := ctx, part := part, va := va, first := va, write := write
                         atomic := false, soft := false }
    let got :=
      match tlbLookup s h ctx va write false with
      | .hit leaf => (s, Served.filled leaf)
      | .fault f => (s, .fault f)
      | .miss => serveWalk s r
    match got with
    | (s, .fault f) => (s, .fault f)
    | (s, .held) => (s, .wait)
    | (s, .filled leaf) =>
      match reachCheck s leaf va write false false with
      | some (some f) => (s, .fault f)
      | some none => (s, .wait)
      | none =>
        match walkPieces h ctx part die write s rest with
        | (s, .ok ps) => (s, .ok ({ va := va, pa := leaf.pa va, n := n, leaf := leaf } :: ps))
        | r => r

/-- Whether a holder is the queue hardware or the hardware of a cut, to which R63 gives no entry: it makes its walks as
it reaches each page. -/
def Holder.walksItself : Holder → Bool
  | .queue _ _ => true
  | .cut _ => true
  | _ => false

/-- Translate an access of a holder (R60, R63 to R66). -/
def translate (s : State) (h : Holder) (ctx : BitVec 12) (part die va n : Nat) (write atomic sc : Bool) :
    State × Trans :=
  if h.walksItself then
    match s.walkFaults.find? fun w => w.holder == h with
    | some w => ({ s with walkFaults := s.walkFaults.filter (· != w) }, .fault w.info)
    | none => walkPieces h ctx part die write s (chunks 65536 (n + 1) va n)
  else translateWith s h ctx part die va n write atomic false fun leaf a => reachCheck s leaf a write atomic sc

/-- The lines of translated pieces that go through the slice request ports: those of HBM4E, of the LP6 tier and of array
frames, whatever their leaf (R112). -/
def meteredLines (ps : List Part) : List Nat :=
  ps.flatMap fun p =>
    if isDram p.pa || inArrays p.pa then (chunks 128 (p.n / 128 + 2) p.pa p.n).map fun c => c.1 / 128 else []

/-- Ask the request ports to admit the lines of an access (R112, R113): the access goes on once every line is admitted, and
then its request is gone. -/
def admitLines (s : State) (h : Holder) (ctx : BitVec 12) (part die va : Nat) (ps : List Part) : State × Bool :=
  let lines := meteredLines ps
  if lines = [] then (s, true)
  else
    match s.portReqs.find? fun r => r.holder == h && r.va == va with
    | some r => if r.unpaid = [] then ({ s with portReqs := s.portReqs.erase r }, true) else (s, false)
    | none =>
      ({ s with
          portReqs := s.portReqs ++ [{ id := s.nextAcc, holder := h, va := va, ctx := ctx, part := part, die := die, unpaid := lines }]
          nextAcc := s.nextAcc + 1 }, false)

/-- Load the bytes of translated parts at their coherence points, the lower first (R60). -/
def loadParts (s : State) (die part : Nat) (ctx : BitVec 12) (q : Option SeqId) (strong : Bool) (ps : List Part) :
    State × List Byte :=
  ps.foldl
    (fun r p =>
      let t := loadAt r.1 die part ctx q p.leaf strong p.pa p.n
      (t.1, r.2 ++ t.2)) (s, [])

/-- Store bytes to translated parts, the lower first (R60). -/
def storeParts (s : State) (die part : Nat) (ctx : BitVec 12) (strong : Bool) : List Part → List Byte → State
  | [], _ => s
  | p :: ps, bs => storeParts (storeAt s die part ctx p.leaf strong p.pa (bs.take p.n)) die part ctx strong ps (bs.drop p.n)

/-- Read bytes of translated parts at their LLC homes, as engines do (R110). -/
def readParts (s : State) (ps : List Part) : List Byte := ps.flatMap fun p => readSlot s p.leaf.key p.pa p.n

/-- Write bytes of translated parts at their LLC homes, as engines do (R110). -/
def writeParts (s : State) (part : Nat) : List Part → List Byte → State
  | [], _ => s
  | p :: ps, bs => writeParts (writeSlot s part p.leaf.key p.pa (bs.take p.n)) part ps (bs.drop p.n)

end Sys2Proof.Machine
end

