-- ==== Sys2Proof/Machine/Operands.lean ====
section
/-! DEFINITION. The operand forms of a sequencer: scalar registers and pairs, immediates and offsets, the program
counter (R30, R31, R125, R255). -/

namespace Sys2Proof.Machine

/-- The value of a scalar register; s0 reads zero (R255). -/
def Seq.reg (c : Seq) (r : Reg) : Word := if r = 0 then 0 else c.regs.get ⟨r.toNat, r.isLt⟩

/-- Write a scalar register; a write to s0 is discarded (R255). -/
def Seq.setReg (c : Seq) (r : Reg) (v : Word) : Seq :=
  if r = 0 then c else { c with regs := c.regs.set r.toNat v r.isLt }

/-- Two consecutive registers as 128 bits, the second high (R126). -/
def Seq.regPair (c : Seq) (r : Reg) : BitVec 128 := c.reg (r + 1) ++ c.reg r

/-- Write two consecutive registers (R126). -/
def Seq.setRegPair (c : Seq) (r : Reg) (v : BitVec 128) : Seq :=
  (c.setReg r (v.setWidth 64)).setReg (r + 1) ((v >>> 64).setWidth 64)

/-- A sign-extended immediate (R7: SX). -/
def sext {n : Nat} (i : BitVec n) : Word := i.signExtend 64

/-- The address of a base register and a signed offset (R126). -/
def Seq.addr {n : Nat} (c : Seq) (a : Reg) (off : BitVec n) : Word := c.reg a + sext off

/-- Go on at the next word. -/
def Seq.next (c : Seq) : Seq := { c with pc := c.pc + 4 }

/-- Go on after a QX instruction and its payload word. -/
def Seq.next2 (c : Seq) : Seq := { c with pc := c.pc + 8 }

/-- Branch: words fetched ahead of the branch are not used (R43). -/
def Seq.jump (c : Seq) (target : Word) : Seq := { c with pc := target, ahead := [] }

/-- The target of a branch: the branch's own address plus four times its offset (R31). -/
def Seq.target {n : Nat} (c : Seq) (o : BitVec n) : Word := c.pc + (sext o <<< 2)

/-- The sequencer that moves. -/
def State.cpu (s : State) : Seq := s.seqs.get s.cur

/-- Change one sequencer. -/
def State.updSeq (s : State) (q : SeqId) (f : Seq → Seq) : State :=
  { s with seqs := s.seqs.set q.val (f (s.seqs.get q)) q.isLt }

/-- Change the sequencer that moves. -/
def State.updCpu (s : State) (f : Seq → Seq) : State := s.updSeq s.cur f

/-- The die of a sequencer. -/
def dieOfSeq (q : SeqId) : Nat := q.val / 16

/-- The number of a sequencer within its die (R257). -/
def seqnOf (q : SeqId) : Nat := q.val % 16

/-- What a step of this machine answers. -/
abbrev Result := Host.Outcome State Fault Refusal

end Sys2Proof.Machine
end

