-- ==== Sys2Proof/Machine/Flags.lean ====
section
/-! DEFINITION. The predicates and the relations that set them (R255, R263, R264), and the saturation test that the
integer elements share (R7). The KQ-4 has no other arithmetic flags. -/

namespace Sys2Proof.Machine

/-- The value of a predicate; p0 reads 1 (R255). -/
def Seq.pred (c : Seq) (p : Pred) : Bool := if p = 0 then true else c.preds.getLsbD p.toNat

/-- Write a predicate; a write to p0 is discarded (R255). -/
def Seq.setPred (c : Seq) (p : Pred) (v : Bool) : Seq :=
  if p = 0 then c
  else
    let m : BitVec 16 := 1#16 <<< p.toNat
    { c with preds := if v then c.preds ||| m else c.preds &&& ~~~m }

/-- The relations of the compare instructions (R263). -/
inductive Rel where
  | eq | ne | lt | ge | ltu | geu
  deriving DecidableEq, Repr

/-- Whether a relation holds between two words; lt and ge are signed (R263). -/
def Rel.holds : Rel → Word → Word → Bool
  | .eq, x, y => x == y
  | .ne, x, y => x != y
  | .lt, x, y => x.slt y
  | .ge, x, y => !x.slt y
  | .ltu, x, y => x.ult y
  | .geu, x, y => !x.ult y

/-- The least and the greatest value of a signed or unsigned integer of n bits. -/
def intRange (signed : Bool) (n : Nat) : Int × Int :=
  if signed then (-(2 ^ (n - 1) : Nat), (2 ^ (n - 1) : Nat) - 1) else (0, (2 ^ n : Nat) - 1)

/-- An exact result narrowed to n bits: the nearest end of the range when sat, else modulo 2^n (R7: SAT, WRAP). -/
def narrow (sat signed : Bool) (n : Nat) (x : Int) : Nat :=
  let r := intRange signed n
  if sat then wrapInt n (max r.1 (min r.2 x)) else wrapInt n x

end Sys2Proof.Machine
end

