-- ==== Sys2Proof/Machine/Ops.lean ====
section
/-! DEFINITION. The operations that the meanings share: the black box, the queue rings, units, taking a trap and
returning from one (R368 to R373, R384 to R387, R400, R401, R441). -/

namespace Sys2Proof.Machine

/-! ## The black-box ring -/

/-- Source number of a sequencer in the black box (R441). -/
def bbSeq (q : SeqId) : Nat := 0x100 + q.val

/-- Enter an event: the next sequence number of its source, and the last 1,024 events stay (R441). -/
def pushEvent (s : State) (src code part ctx : Nat) (args : List Word) : State :=
  let n := (((s.sseqs.find? fun e => e.1 == src).map Prod.snd).getD 0) + 1
  let ev : BlackBox :=
    { sseq := n, src := src, code := code, part := part, ctx := ctx, lcyc := Config.cycleCount s.freeCtr, args := args }
  { s with
    sseqs := upsert (fun e => e.1 == src) (src, n) s.sseqs
    blackBox := (s.blackBox ++ [ev]).drop (s.blackBox.length + 1 - 1024)
    freeCtr := s.freeCtr + 1 }

/-! ## Outstanding operations of a sequencer -/

/-- The classes of R120. -/
def AccKind.isLoad : AccKind → Bool
  | .load _ => true
  | .amo _ => true
  | .amaxrs => true
  | .aquery => true
  | .cpref => true
  | _ => false

/-- The stores class of R120. -/
def AccKind.isStore : AccKind → Bool
  | .store => true
  | .cclean => true
  | .cinval => true
  | .cflush => true
  | .aconv => true
  | _ => false

/-- The outstanding operations of a sequencer's own instructions. -/
def ownAccesses (s : State) (q : SeqId) : List Access := s.accesses.filter fun a => a.q == q && a.elem.isNone

/-- The loads count (R120). -/
def loadCount (s : State) (q : SeqId) : Nat := ((ownAccesses s q).filter fun a => a.counted && a.kind.isLoad).length

/-- The stores count (R120). -/
def storeCount (s : State) (q : SeqId) : Nat := ((ownAccesses s q).filter fun a => a.counted && a.kind.isStore).length

/-- The copies count (R120). -/
def copyCount (s : State) (q : SeqId) : Nat := (s.jobs.filter fun j => j.q == q).length

/-- Whether an operation code of a slot is a tile operation (R347). -/
def isTileOp (op : Nat) : Bool := op == 0x90 || op == 0x91 || op == 0x92 || op == 0x93 || op == 0x95

/-- The operation code in a slot of a node. -/
def Node.opAt (n : Node) (slot : Nat) : Nat := eOp ((n.slots[slot]?).getD 0)

/-- The island nodes of the numbering of R388. -/
def isIslandNode (r : NodeRef) : Bool := 6144 ≤ r.id

/-- The comb nodes of the numbering of R388. -/
def isCombNode (r : NodeRef) : Bool := 5120 ≤ r.id && r.id < 6144

/-- The converter nodes of the numbering of R388. -/
def isConvNode (r : NodeRef) : Bool := 4096 ≤ r.id && r.id < 5120

/-- The elements of the numbering of R191 and R388. -/
def isElemNode (r : NodeRef) : Bool := r.id < 4096

/-- The firings of a command slot of an island whose tokens have entered it: an a token counts for its firing, and a
b token where no a token is there for it, of its key and SEQ, or for TCVT of its key (R196, R338, R347). -/
def slotFirings (n : Node) (slot : Nat) : Nat :=
  let work := n.store.filter fun h => h.slot == slot && (h.tok.kind == .data || h.tok.kind == .cancel)
  let as := work.filter fun h => h.opd == .a
  let bs := work.filter fun h => h.opd == .b
  if n.opAt slot = 0x95 then
    ((work.map fun h => h.tok.key).eraseDups.map fun k =>
      max (as.countP fun h => h.tok.key == k) (bs.countP fun h => h.tok.key == k)).sum
  else as.length + bs.countP fun h => !(as.any fun x => x.tok.key == h.tok.key && x.tok.seq == h.tok.seq)

/-- The tile operations of a graph that are not done: commands in the slots of its islands, and stores that wait for
their commit (R347). -/
def tileCount (s : State) (ctx : BitVec 12) (handle : Nat) : Nat :=
  let isl := s.nodes.filter fun n => isIslandNode n.ref && n.ctx == ctx && n.handle == handle
  (isl.map fun n => ((List.range n.slots.length).map fun k => if isTileOp (n.opAt k) then slotFirings n k else 0).sum).sum +
  s.instances.countP fun i => isIslandNode i.blk.node && i.blk.key.ctx == ctx && i.handle == handle

/-- The tile operations count that a unit reads, saturated at 63 (R347). -/
def tilesOf (s : State) (q : SeqId) : Nat :=
  match (s.seqs.get q).run with
  | some u => min 63 (tileCount s u.ctx u.handle.toNat)
  | none => 0

/-- The cut of a context (R395). -/
def cutOf (s : State) (ctx : BitVec 12) : Option Cut := s.cuts.find? fun c => c.ctx == ctx

/-! ## Queues and rings -/

/-- A queue's registers and pointers; unset where no record names it. -/
def queueOf (s : State) (part q : Nat) : Queue :=
  match s.queues.find? fun x => x.part == part && x.q == q with
  | some x => x
  | none => { part := part, q := q, qbase := 0, qctl := 0, head := 0, tail := 0, turn := none }

/-- Replace a queue's record. -/
def setQueue (s : State) (x : Queue) : State :=
  { s with queues := upsert (fun y => y.part == x.part && y.q == x.q) x s.queues }

/-- QCTL.V and the other fields (R369). -/
def Queue.valid (x : Queue) : Bool := bit x.qctl 63
def Queue.cap (x : Queue) : Nat := 2 ^ bits x.qctl 62 58
def Queue.ext (x : Queue) : Bool := bit x.qctl 57
def Queue.err (x : Queue) : Bool := bit x.qctl 56
def Queue.cq (x : Queue) : Nat := bits x.qctl 55 52
def Queue.ctx (x : Queue) : BitVec 12 := BitVec.ofNat 12 (bits x.qctl 11 0)
def Queue.baseVa (x : Queue) : Nat := bits x.qbase 51 7 * 128

/-- The index up to which the hardware reads a ring (R371). -/
def Queue.seen (x : Queue) : Nat := x.stop.getD x.tail

/-- A queue reads nothing further (R371, R379). -/
def Queue.stopped (x : Queue) : Queue := { x with stop := some x.seen }

/-- The virtual address of record i of a ring (R369). -/
def Queue.recVa (x : Queue) (i : Nat) : Nat := x.baseVa + 128 + 32 * (i % x.cap)

/-- An access to a ring that a step of the queue hardware is to make: its queue, first byte and length, and whether it
writes. -/
structure RingUse where
  x : Queue
  va : Nat
  n : Nat
  write : Bool
  deriving DecidableEq, Repr

/-- The use of a record, of HEAD and of TAIL. -/
def recUse (x : Queue) (i : Nat) (write : Bool) : RingUse := { x := x, va := x.recVa i, n := 32, write := write }
def headUse (x : Queue) : RingUse := { x := x, va := x.baseVa, n := 8, write := true }
def tailUse (x : Queue) (write : Bool) : RingUse := { x := x, va := x.baseVa + 8, n := 8, write := write }

/-- Walk the pages of the accesses that a step is to make to rings (R369).  False where one of them must wait for a
copy-on-write, a pull, a conversion or the link: what makes the step then waits with it, and has made no access (R73,
R82).  The translations stand for the step alone; an access whose page faults has none, and is not made. -/
def ringHold (s : State) (us : List RingUse) : State × Bool :=
  let s := { s with tlb := s.tlb.filter fun e => !us.any fun u => e.holder == .queue u.x.part u.x.q }
  us.foldl
    (fun r u =>
      match translate r.1 (.queue u.x.part u.x.q) u.x.ctx u.x.part (partOf r.1 u.x.part).dieOf u.va u.n u.write false false with
      | (s, .wait) => (s, false)
      | (s, _) => (s, r.2)) (s, true)

/-- The pages of an access to a ring, as the step has walked them. -/
def ringParts (s : State) (x : Queue) (va n : Nat) (write : Bool) : Option (List Part) :=
  match lookupPieces s (.queue x.part x.q) x.ctx write false (fun l a => reachCheck s l a write false false) (chunks 65536 (n + 1) va n) with
  | (.ok ps, _) => some ps
  | _ => none

/-- Bytes of a ring read at the LLC through the bound context's translations (R369). -/
def ringRead (s : State) (x : Queue) (va n : Nat) : Option (List Byte) := (ringParts s x va n false).map (readParts s)

/-- Bytes of a ring written so. -/
def ringWrite (s : State) (x : Queue) (va : Nat) (bs : List Byte) : State :=
  match ringParts s x va bs.length true with
  | some ps => writeParts s x.part ps bs
  | none => s

/-- The hardware watches the TAIL of a device queue where the page that the step has walked puts it (R371). -/
def watchTail (s : State) (x : Queue) : State :=
  match if x.ext then none else ringParts s x (x.baseVa + 8) 8 false with
  | some (p :: _) =>
    let old := s.tailWatch.any fun w => w.part == x.part && w.q == x.q && w.stored
    let w : TailWatch := { part := x.part, q := x.q, pa := p.pa, stored := old }
    { s with tailWatch := upsert (fun w => w.part == x.part && w.q == x.q) w s.tailWatch }
  | _ => s

/-- Whether a value that is not the hardware's own has been stored to the TAIL of a device queue (R371). -/
def tailStored (s : State) (x : Queue) : Bool :=
  s.tailWatch.any fun w => w.part == x.part && w.q == x.q && w.stored

/-- Word k of record i. -/
def recWord (s : State) (x : Queue) (i k : Nat) : Option Word :=
  (ringRead s x (x.recVa i + 8 * k) 8).map fun bs => BitVec.ofNat 64 (ofBytes bs)

/-- Write word k of record i. -/
def setRecWord (s : State) (x : Queue) (i k : Nat) (w : Word) : State := ringWrite s x (x.recVa i + 8 * k) (toBytes 8 w.toNat)

/-- STATE of a record word (R368): 0 QUEUED, 1 RUNNING, 2 RETIRED, 3 MOVED. -/
def recState (w : Word) : Nat := bits w 49 48

/-- A record word with another STATE. -/
def withRecState (w : Word) (n : Nat) : Word := (w &&& ~~~(3#64 <<< 48)) ||| (BitVec.ofNat 64 n <<< 48)

/-- Set STATE of record i (R372). -/
def setRecState (s : State) (x : Queue) (i n : Nat) : State :=
  match recWord s x i 1 with
  | some w => setRecWord s x i 1 (withRecState w n)
  | none => s

/-- HEAD moves past each leading retired record and is published (R370); where a page must wait, it stands. -/
def advanceHead : Nat → State → Nat → Nat → State
  | 0, s, _, _ => s
  | fuel + 1, s, part, q =>
    let x := queueOf s part q
    if x.seen ≤ x.head then s
    else
      match ringHold s [headUse x, recUse x x.head false] with
      | (s, false) => s
      | (s, true) =>
        match recWord s x x.head 1 with
        | some w =>
          if recState w = 2 then
            let s := ringWrite s x x.baseVa (toBytes 8 (x.head + 1))
            advanceHead fuel (setQueue s { x with head := x.head + 1 }) part q
          else s
        | none => s

/-- Move HEAD as far as it goes; while a cut of the queue's context is in progress its pointers are frozen (R395). -/
def retireHead (s : State) (part q : Nat) : State :=
  let x := queueOf s part q
  if (cutOf s x.ctx).isSome then s else advanceHead (x.seen - x.head) s part q

/-! ## Launches and units -/

/-- Change a launch of a context. -/
def updLaunch (s : State) (ctx : BitVec 12) (id : BitVec 32) (f : Launch → Launch) : State :=
  { s with launches := mapIf (fun l => l.ctx == ctx && l.id == id) f s.launches }

/-- Whether a launch has completed (R222, R378). -/
def Launch.done (l : Launch) : Bool := l.posted == l.units && l.completed + l.removed == l.units

/-- The copy-tag CSRs cleared and the return-address store emptied (R146, R278, R279). -/
def Seq.clearUnit (c : Seq) : Seq :=
  { c with ctag := 0, ctagf := 0, ctbusy := 0, cfaddr := 0, cfinfo := 0, ras := [], depth := 0, ahead := [], reading := none }

/-- The queue in whose ring a unit's anchor lies: its launch's (R371, R372). -/
def anchorQueue (s : State) (u : UnitRec) : Nat :=
  match s.launches.find? fun l => l.ctx == u.ctx && l.id == u.launch with
  | some l => l.queue
  | none => u.queue

/-- The ring accesses that retire a unit: those to its anchor and to the record it was popped from (R279, R372). -/
def retireUses (s : State) (u : UnitRec) : List RingUse :=
  [recUse (queueOf s u.part (anchorQueue s u)) u.anchor true, recUse (queueOf s u.part u.queue) u.ring true]

/-- The unit of a sequencer leaves: its record is retired, its launch counts it, and the sequencer is idle (R279,
R372, R378). A removed unit is not a completed child. -/
def retireUnit (s : State) (q : SeqId) (removed : Bool) : State :=
  match (s.seqs.get q).run with
  | none => s
  | some u =>
    let aq := anchorQueue s u
    let s := setRecState s (queueOf s u.part aq) u.anchor 2
    let s := if u.ring = u.anchor && u.queue = aq then s else setRecState s (queueOf s u.part u.queue) u.ring 2
    let s := retireHead (retireHead s u.part aq) u.part u.queue
    let s := updLaunch s u.ctx u.launch fun l =>
      if removed then { l with removed := l.removed + 1, cancelled := true } else { l with completed := l.completed + 1 }
    let s := s.updSeq q fun c => { c.clearUnit with run := none, wait := .none }
    forgetMisses s (· == .seq q)

/-- The number of tokens a stream moves in all (R270). -/
def Stream.total (t : Stream) : Nat := t.rows * t.count

/-- The token of a source stream (R271). -/
def Stream.token (t : Stream) (seq : Nat) (k : Kind) (p : Payload) : Token :=
  { key := { ctx := t.ctx, iter := 0, path := 0 }, seq := BitVec.ofNat 8 seq, kind := k, payload := p }

/-- A control token leaves a source behind every token it has sent, to the target of each (R204, R395). -/
def Stream.post (t : Stream) (k : Token) : Stream :=
  let before := (t.old.map Prod.fst).eraseDups
  if t.sink then { t with old := t.old ++ before.map fun d => (d, k) }
  else { t with buf := t.buf ++ [k], old := t.old ++ (before.filter (· != t.dst)).map fun d => (d, k) }

/-- A stream stops: a source sends no further token but the EOS it owes, a sink takes none (R273). -/
def Stream.stop (t : Stream) : Stream :=
  if t.ended then t
  else if !t.sink && t.eos then
    { t with ended := true, early := [], under := [], buf := t.buf ++ [t.token t.sent .eos 0] }
  else { t with ended := true, early := [], under := [] }

/-- Every stream that a sequencer's unit has started stops (R386). -/
def stopStreams (s : State) (q : SeqId) : State :=
  { s with streams := mapIf (fun t => t.q == q && !t.ended) Stream.stop s.streams }

/-- Whether an aborted unit still has operations or copies to finish (R386). -/
def unitBusy (s : State) (q : SeqId) : Bool := !(ownAccesses s q).isEmpty || s.jobs.any fun j => j.q == q

/-- The last steps of an abort: the record is retired, the launch is marked CANCELLED, the event is entered (R386); they
wait while a page of the ring must. -/
def finishAbort (s : State) (q : SeqId) : State :=
  let c := s.seqs.get q
  match c.run with
  | none => s
  | some u =>
    match ringHold s (retireUses s u) with
    | (s, false) => s
    | (s, true) =>
      let s := retireUnit s q true
      pushEvent s (bbSeq q) (bits c.ecode 7 0) u.part u.ctx.toNat [c.epc, BitVec.ofNat 64 u.unit.toNat]

/-! ## Traps -/

/-- What a trap is taken with: its code and argument, the address to return to, EWORD, and FADDR and FINFO where the
trap writes them (R383 to R385). -/
structure TrapInfo where
  code : Nat
  arg : Nat
  pc : Word
  eword : Word
  fault : Option (Word × Word)
  deriving DecidableEq, Repr

/-- The bits of EPC that may be set (R384). -/
def epcMask : Word := 0x000FFFFFFFFFFFFC#64

/-- ECODE (R384). -/
def ecodeOf (code arg : Nat) : Word := BitVec.ofNat 64 (arg * 2 ^ 14 + code)

/-- A trap is taken (R385); with no handler, or inside one, the unit is aborted (R386).  A walk that the sequencer waits
for is no longer its own. -/
def takeTrap (s : State) (q : SeqId) (t : TrapInfo) : State :=
  let c := s.seqs.get q
  let s := forgetMisses s (· == .seq q)
  if !c.h && bit c.tvec 63 then
    s.updSeq q fun c =>
      { c with
        epc := t.pc &&& epcMask
        ecode := ecodeOf t.code t.arg
        eword := t.eword
        faddr := (t.fault.map Prod.fst).getD c.faddr
        finfo := (t.fault.map Prod.snd).getD c.finfo
        h := true
        wait := .none
        pc := BitVec.ofNat 64 (bits c.tvec 51 2 * 4)
        ahead := []
        reading := none }
  else
    let s := stopStreams s q
    let s := s.updSeq q fun c => { c with epc := t.pc &&& epcMask, ecode := ecodeOf t.code t.arg, wait := .stopping, ahead := [], reading := none }
    if unitBusy s q then s else finishAbort s q

/-- A trap of the sequencer that moves, exact at its instruction. -/
def trapHere (s : State) (code : Nat) (fault : Option (Word × Word)) : State :=
  takeTrap s s.cur { code := code, arg := 0, pc := s.cpu.pc, eword := 0, fault := fault }

/-- OPRNG (R256). -/
def trapOprng (s : State) : State := trapHere s 0x06 (some (0, 0xF5))

/-- MISAL: FADDR holds the address, FINFO.CAUSE 0xF3 with WRITE and ATOMIC of the access (R71, R123). -/
def trapMisal (s : State) (va : Word) (write atomic : Bool) : State :=
  trapHere s 0x05 (some (va, (if atomic then 0x800 else 0) ||| (if write then 0x400 else 0) ||| 0xF3))

/-- EWORD of a word and, for a QX word, its payload (R384). -/
def ewordOf (w pl : BitVec 32) : Word := if isQX w then pl ++ w else w.setWidth 64

/-- EWORD of an instruction. -/
def ewordOfInstr (i : Instr) : Word :=
  match encodeSeq i with
  | some (w, some pl) => ewordOf w pl
  | some (w, none) => ewordOf w 0
  | none => 0

/-- ILLOP at an instruction (R42, R402). -/
def trapIllop (s : State) (i : Instr) : State :=
  takeTrap s s.cur { code := 0x01, arg := 0, pc := s.cpu.pc, eword := ewordOfInstr i, fault := none }

/-- The trap of a fault of an access: CWEMPTY for 0xF0, AMODE for 0xF1, 0xF2 and 0xF4, MISAL for 0xF3, else PGF (R71,
R76, R89, R123, R141, R201). -/
def FaultInfo.code (f : FaultInfo) : Nat :=
  if f.cause = 0xF0 then 0x03
  else if f.cause = 0xF1 || f.cause = 0xF2 || f.cause = 0xF4 then 0x04
  else if f.cause = 0xF3 then 0x05
  else 0x02

/-- The exact trap of a fault of an access (R123). -/
def trapFault (s : State) (f : FaultInfo) : State := trapHere s f.code (some (BitVec.ofNat 64 f.addr, f.word))

/-- The return from a handler: H is cleared and the pc is EPC (R401); words fetched before it are not used (R43). -/
def returnFromTrap (c : Seq) : Seq := { c with h := false, pc := BitVec.ofNat 64 (bits c.epc 51 2 * 4), ahead := [] }

/-- Do something for the unit that the moving sequencer runs; with no unit there is nothing to do it for (R255). -/
def withUnit (s : State) (f : UnitRec → State) : Result :=
  match s.cpu.run with
  | some u => .next (f u)
  | none => .fault .noUnit

/-- Take a Wait of the moving sequencer. -/
def setWait (s : State) (w : Wait) : State := s.updCpu fun c => { c with wait := w }

end Sys2Proof.Machine
end

