-- ==== Sys2Proof/Machine/Access.lean ====
section
/-! DEFINITION. Issuing an operation on memory, the order in which a sequencer's operations are performed, and
performing one (R95, R119 to R142, R168 to R170). -/

namespace Sys2Proof.Machine

/-! ## Orders and scopes -/

/-- The order codes of R32: 0 rlx, 1 acq, 2 rel, 3 ar, 4 sc. -/
def isAcq (o : BitVec 3) : Bool := o == 1 || o == 3 || o == 4
def isRel (o : BitVec 3) : Bool := o == 2 || o == 3 || o == 4
def isSc (o : BitVec 3) : Bool := o == 4

/-- PKG or SYS scope; the scope codes of R32 are 0 elem, 1 graph, 2 die, 3 pkg, 4 sys. -/
def wideScope (c : BitVec 3) : Bool := c == 3 || c == 4

/-- Whether R119 sends an access on an RC or UO leaf with LA = 1 to the LLC home. -/
def isStrong (k : AccKind) (ord scope : BitVec 3) : Bool :=
  isSc ord || k == .amaxrs ||
    (wideScope scope &&
      match k with
      | .load _ => isAcq ord
      | .store => isRel ord
      | .amo _ => true
      | _ => false)

/-- Whether an operation is an access that reads or writes memory or an array's state. -/
def AccKind.isAccess : AccKind → Bool
  | .load _ => true
  | .store => true
  | .amo _ => true
  | .amaxrs => true
  | .aquery => true
  | _ => false

/-- Cache maintenance that FENCE waits for (R134). -/
def AccKind.isMaint : AccKind → Bool
  | .cclean => true
  | .cinval => true
  | .cflush => true
  | _ => false

/-! ## The pieces of an operation -/

/-- The pieces of an operation that are performed one by one: an access that is naturally aligned, of at most 16 bytes,
is one single-copy-atomic piece, any other is its bytes (R60, R61); a maintenance instruction or a prefetch is the lines
that it names in HBM4E and the LP6 tier (R137, R138). -/
def piecesOf (k : AccKind) (n va : Nat) (parts : List Part) : List Part :=
  match k with
  | .fence => []
  | .aconv => []
  | .aquery => parts
  | _ =>
    if k.isMaint || k == .cpref then
      (parts.filter fun p => isDram p.pa).flatMap fun p =>
        (chunks 128 (p.n / 128 + 2) p.pa p.n).map fun c => { p with va := p.va + (c.1 - p.pa), pa := c.1, n := c.2 }
    else if n ≤ 16 && va % n == 0 then parts
    else parts.flatMap fun p => (List.range p.n).map fun i => { p with va := p.va + i, pa := p.pa + i, n := 1 }

/-- The lines of an operation that the request ports must admit: those of an access, and those that a prefetch names
(R112). -/
def unpaidOf (k : AccKind) (parts : List Part) : List Nat :=
  if k == .cpref then meteredLines (parts.filter fun p => isDram p.pa)
  else if k.isAccess && k != .aquery then meteredLines parts
  else []

/-! ## The order among one sequencer's operations -/

/-- Whether a piece has the L2 home of its die as its coherence point (R119). -/
def atL2Home (a : Access) (p : Part) : Bool := allocatable p.leaf p.pa && !isStrong a.kind a.ord a.scope

/-- Whether a piece lies on an SO page; windows are ordered as RC pages (R51, R122). -/
def Part.so (p : Part) : Bool := p.leaf.ord == 0 && !isFar p.pa

/-- Whether pieces of two operations have a byte in common: an address of the context, or a byte of memory at one
coherence point (R122, R163). -/
def meets (a b : Access) (p r : Part) : Bool :=
  overlaps p.va p.n r.va r.n || (overlaps p.pa p.n r.pa r.n && atL2Home a p == atL2Home b r)

/-- Whether an earlier access holds a piece of a later one of the same sequencer: they share a byte, or both lie on SO
pages (R60, R122). -/
def pieceBefore (e l : Access) (p : Part) : Bool :=
  e.kind.isAccess && l.kind.isAccess && e.kind != .aquery && l.kind != .aquery &&
    e.left.any fun r => meets e l r p || (r.so && p.so)

/-- The quads whose arrays pieces reach from a die, by a frame, or by a hit or a fill of a line in its L2, for the pieces that
the L2 home serves (R95, R96). -/
def partQuads (s : State) (die part : Nat) (home : Part → Bool) (ps : List Part) : List (Nat × Nat × Nat) :=
  ps.flatMap fun p =>
    match region p.pa with
    | .array r => [quadOf r]
    | _ =>
      if home p then
        match l2Find s die part (p.pa / 128) with
        | some l => [quadOf l.array]
        | none => (l2Ways s die part p.pa).map fun w => quadOf { die := die, slice := l2Slice p.pa, index := w }
      else []

/-- The quads whose arrays an operation reaches (R95, R96). -/
def quadsOf (s : State) (a : Access) : List (Nat × Nat × Nat) :=
  partQuads s a.die a.part (fun p => a.kind.isAccess && atL2Home a p) a.parts

/-- Whether two operations meet in a quad and one of them is a conversion (R95, R141). -/
def meetsQuad (s : State) (a b : Access) : Bool :=
  (a.kind == .aconv || b.kind == .aconv) && (quadsOf s a).any fun q => (quadsOf s b).contains q

/-- Whether an operation stores to a window (R135). -/
def storesFar (a : Access) : Bool := a.kind == .store && a.parts.any fun p => isFar p.pa

/-- Whether an earlier operation e must be performed before a later one l of the same sequencer, whichever their bytes
(R95, R127, R134, R135, R139). -/
def orderedBefore (s : State) (e l : Access) : Bool :=
  if l.kind == .fence then
    (e.kind == .fence && isSc e.ord && isSc l.ord) ||
    ((l.scope == 4 || isSc l.ord) && storesFar e) ||
    (l.scope != 0 || isSc l.ord) &&
      ((isAcq l.ord && (e.kind.isLoad && e.kind != .cpref)) ||
       (isRel l.ord && (e.kind.isAccess || e.kind.isMaint || e.kind == .aconv)))
  else if e.kind == .fence then
    (isAcq e.ord && (l.kind.isAccess || l.kind == .aconv)) ||
    (isRel e.ord && (l.kind == .store || l.kind == .aconv ||
      match l.kind with
      | .amo _ => true
      | .amaxrs => true
      | _ => false))
  else
    meetsQuad s e l ||
    (e.kind.isAccess && isAcq e.ord && l.kind.isAccess) ||
    (l.kind.isAccess && isRel l.ord && l.scope != 0 && e.kind.isAccess)

/-- Whether a conversion may begin on its array: no issued access of any party is on its way there, no earlier
conversion of it waits, and no line of it is pinned when it leaves CACHE (R91, R92, R95). -/
def conversionReady (s : State) (a : Access) : Bool :=
  a.parts.all fun p =>
    match region p.pa with
    | .array r =>
      !(s.accesses.any fun e => e.kind.isAccess && e.id < a.id && e.kind != .aquery && e.left.any fun x => x.pa / 65536 == p.pa / 65536) &&
      !(s.conversions.any fun c => c.ref == r && c.acc < a.id) &&
      !((arrayOf s r).mode == .cache && a.dest != 1 && s.l2.any fun l => l.array == r && l.pins != [])
    | _ => true

/-- Whether an operation reaches the host window while the link is down (R433). -/
def linkHeld (s : State) (a : Access) : Bool :=
  !s.linkUp && a.parts.any fun p => match region p.pa with
    | .host => true
    | _ => false

/-- Whether nothing earlier of its issuer holds an operation as a whole (R95, R122, R134). -/
def inTurn (s : State) (a : Access) : Bool :=
  s.accesses.all fun e => !(e.q == a.q && e.elem == a.elem && e.id < a.id && orderedBefore s e a)

/-- Whether a piece may be performed: its line is admitted, no earlier access of its issuer holds it, and of an access
the SO pieces go lowest first (R60, R112, R122). -/
def pieceReady (s : State) (a : Access) (p : Part) : Bool :=
  !a.unpaid.contains (p.pa / 128) &&
  (s.accesses.all fun e => !(e.q == a.q && e.elem == a.elem && e.id < a.id && pieceBefore e a p)) &&
  !(p.so && a.kind.isAccess && a.left.any fun r => r.so && r.va < p.va)

/-- Whether an operation may be performed now, or the next of its pieces, as far as order, the link and admission go. -/
def canPerform (s : State) (a : Access) : Bool :=
  !linkHeld s a && inTurn s a && (a.kind != .aconv) && (a.left == [] || a.left.any (pieceReady s a))

/-! ## Performing -/

/-- The write-back or fence effect of a release before an operation (R103, R127, R134, R135). -/
def releaseEffect (s : State) (a : Access) : State :=
  if isRel a.ord && (wideScope a.scope || isSc a.ord) then releaseWriteBack s a.die a.ctx else s

/-- The invalidation of an acquire after an operation (R104, R127, R134, R135). -/
def acquireEffect (s : State) (a : Access) : State :=
  if isAcq a.ord && (wideScope a.scope || isSc a.ord) then acquireInvalidate s a.die a.ctx else s

/-- The new value of an AMO by its code, ADD, MIN, MAX, AND, OR, XOR, SWAP, CAS; none when CAS fails (R129). -/
def amoNew (op : Nat) (old b cmp : Word) : Option Word :=
  match op with
  | 0 => some (old + b)
  | 1 => some (if old.slt b then old else b)
  | 2 => some (if b.slt old then old else b)
  | 3 => some (old &&& b)
  | 4 => some (old ||| b)
  | 5 => some (old ^^^ b)
  | 6 => some b
  | _ => if old = cmp then some b else none

/-- A destination register as a register number. -/
def destReg (n : Nat) : Reg := BitVec.ofNat 6 n

/-- The value of a load as the register takes it (R126). -/
def loadValue (signed : Bool) (n : Nat) (v : Nat) : Word :=
  if signed then BitVec.ofInt 64 (sxInt (8 * n) v) else BitVec.ofNat 64 v

/-- One line treated by a maintenance instruction of the issuing context on its die (R138).  A piece is a line that its
range covers in whole or in part; a line is that of its memory, whichever leaf brought it into the L2. -/
def treatLine (k : AccKind) (a : Access) (s : State) (p : Part) : State :=
  match l2Find s a.die a.part (p.pa / 128) with
  | some x =>
    if x.ctx != a.ctx then s
    else
      match k with
      | .cclean => l2WriteBack s x
      | .cflush => l2Flush s x
      | .cinval => if p.n = 128 then l2Invalidate s x else l2Flush s x
      | _ => s
  | none => s

/-- Fill a line that CPREF names where it is absent and allocatable (R138). -/
def prefetchLine (a : Access) (s : State) (p : Part) : State :=
  if allocatable p.leaf p.pa && (l2Find s a.die a.part (p.pa / 128)).isNone then (l2Get s a.die a.part a.ctx p.leaf p.pa).1
  else s

/-- The effect of some pieces of an operation at their coherence point: the new state and the value they return. -/
def accessEffect (s : State) (a : Access) : State × Nat :=
  let strong := isStrong a.kind a.ord a.scope
  match a.kind with
  | .load _ =>
    let r := loadParts s a.die a.part a.ctx (if a.elem.isNone then some a.q else none) strong a.parts
    (r.1, ofBytes r.2)
  | .store => (storeParts s a.die a.part a.ctx strong a.parts (toBytes a.n a.data.toNat), 0)
  | .amo op =>
    let r := loadParts s a.die a.part a.ctx none strong a.parts
    let old : Word := BitVec.ofNat 64 (ofBytes r.2)
    match amoNew op old (a.data.setWidth 64) a.cmp with
    | some new => (storeParts r.1 a.die a.part a.ctx strong a.parts (toBytes 8 new.toNat), old.toNat)
    | none => (r.1, old.toNat)
  | .amaxrs =>
    let r := loadParts s a.die a.part a.ctx none true a.parts
    (storeParts r.1 a.die a.part a.ctx true a.parts (toBytes 8 0), ofBytes r.2)
  | .aquery =>
    match a.parts with
    | p :: _ =>
      match region p.pa with
      | .array r => (s, (arrayWord s r).toNat)
      | _ => (s, 0)
    | [] => (s, 0)
  | .cpref => (a.parts.foldl (prefetchLine a) s, 0)
  | .cclean => (a.parts.foldl (treatLine .cclean a) s, 0)
  | .cinval => (a.parts.foldl (treatLine .cinval a) s, 0)
  | .cflush => (a.parts.foldl (treatLine .cflush a) s, 0)
  | .aconv => (s, 0)
  | .fence => (s, 0)

/-- The register write of an operation that returns a value (R126, R129, R131, R142). -/
def accessReturn (s : State) (a : Access) (v : Nat) : State :=
  match a.kind with
  | .load sg =>
    s.updSeq a.q fun c =>
      if a.n = 16 then c.setRegPair (destReg a.dest) (BitVec.ofNat 128 v) else c.setReg (destReg a.dest) (loadValue sg a.n v)
  | .amo _ => s.updSeq a.q fun c => c.setReg (destReg a.dest) (BitVec.ofNat 64 v)
  | .amaxrs => s.updSeq a.q fun c => c.setReg (destReg a.dest) (BitVec.ofNat 64 v)
  | .aquery => s.updSeq a.q fun c => c.setReg (destReg a.dest) (BitVec.ofNat 64 v)
  | _ => s

/-- The end of an operation: the acquire effect, the value to its register, and it is no longer outstanding (R119,
R120). -/
def completeAccess (s : State) (a : Access) (v : Nat) : State :=
  let s := accessReturn (acquireEffect s a) a v
  { s with accesses := s.accesses.filter fun e => e.id != a.id }

/-- An operation of one piece or of none is performed: the release effect, the effect at its coherence point, and its
end. -/
def performWhole (s : State) (a : Access) : State :=
  let r := accessEffect (releaseEffect s a) a
  completeAccess r.1 a r.2

/-- A piece of an operation of several is performed; the first one follows the release effect, the last one ends the
operation (R60, R61). -/
def performPiece (s : State) (a : Access) (p : Part) : State :=
  let s := if a.left == piecesOf a.kind a.n a.va a.parts then releaseEffect s a else s
  let off := if a.kind.isAccess then 8 * (p.va - a.va) else 0
  let r := accessEffect s { a with parts := [p], n := p.n, data := a.data >>> off }
  let rest := a.left.erase p
  let data := match a.kind with
    | .load _ => a.data ||| (BitVec.ofNat 256 r.2 <<< off)
    | _ => a.data
  if rest == [] then completeAccess r.1 { a with data := data } (data.toNat % 2 ^ (8 * a.n))
  else { r.1 with accesses := mapIf (fun e => e.id == a.id) (fun e => { e with left := rest, data := data }) r.1.accesses }

/-- An operation is performed, or one of its pieces that may be, by a free choice (R61). -/
def perform (s : State) (a : Access) : State :=
  if a.left.length ≤ 1 && a.left == piecesOf a.kind a.n a.va a.parts then performWhole s a
  else
    let ready := a.left.filter (pieceReady s a)
    match ready[Config.freeIndex s.freeCtr % ready.length]? with
    | some p => performPiece { s with freeCtr := s.freeCtr + 1 } a p
    | none => if a.left == [] then performWhole s a else s

/-! ## The Waggle ring -/

/-- The station of the ring at which an operation is performed (R168, R169): slices of the dies, then base dies. An
element's fence, and what reaches no station of its own, stand at the slice that the graph's handle (dest) picks. -/
def stationOf (a : Access) : Nat :=
  let own := if a.elem.isSome then 16 * a.die + a.dest % 16 else a.q.val
  if a.kind = .fence then own
  else
    match a.parts with
    | p :: _ =>
      match region p.pa with
      | .array r => 16 * r.die + r.slice
      | _ => 64 + baseDieOf p.pa
    | [] => own

/-! ## Issuing -/

/-- A new operation of the moving sequencer, for its unit. -/
def newAccess (s : State) (u : UnitRec) (k : AccKind) (dest n va : Nat) (parts : List Part) (data : BitVec 256)
    (cmp : Word) (os : OrdScope) : Access :=
  { id := s.nextAcc, q := s.cur, elem := none, ctx := u.ctx, part := u.part, die := dieOfSeq s.cur, kind := k,
    dest := dest, n := n, va := va, parts := parts, data := data, cmp := cmp, ord := os.ord, scope := os.scope,
    counted := true, unpaid := unpaidOf k parts, ringed := isSc os.ord
    left := piecesOf k n va parts }

/-- An operation becomes outstanding (R120). -/
def issue (s : State) (a : Access) : State := { s with accesses := s.accesses ++ [{ a with id := s.nextAcc }], nextAcc := s.nextAcc + 1 }

/-- The fence that an .sc access implies on either side (R127). -/
def scFence (a : Access) : Access :=
  { a with kind := .fence, dest := 0, n := 0, parts := [], data := 0, cmp := 0, ord := 4, scope := 4, counted := false,
           unpaid := [], ringed := true, left := [] }

/-- An access becomes outstanding, between two FENCE.sc when it is .sc (R127). -/
def issueAccess (s : State) (a : Access) : State :=
  if isSc a.ord then issue (issue (issue s (scFence a)) a) (scFence a) else issue s a

/-- What a load of the sequencer itself gives at once: bytes, a wait, or a fault. -/
inductive Got where
  | bytes (bs : List Byte)
  | wait
  | fault (f : FaultInfo)
  deriving DecidableEq, Repr

/-! ## Accesses that read part by part (R61) -/

/-- An access that reads, none of its parts performed. -/
def Reading.start (va n : Nat) (ps : List Part) : Reading :=
  { va := va, n := n, parts := ps, left := piecesOf (.load false) n va ps, got := [] }

/-- The parts that may be performed next: of those on SO pages the lowest (R60). -/
def Reading.open_ (r : Reading) : List Part := r.left.filter fun p => !(p.so && r.left.any fun x => x.so && x.va < p.va)

/-- One part is performed. -/
def Reading.take (load : State → List Part → State × List Byte) (x : State × Reading) (p : Part) : State × Reading :=
  let y := load x.1 [p]
  (y.1, { x.2 with left := x.2.left.erase p, got := x.2.got ++ (List.range p.n).map fun i => (p.va + i, (y.2[i]?).getD 0) })

/-- The bytes read. -/
def Reading.bytes (r : Reading) : List Byte :=
  (List.range r.n).map fun i => ((r.got.find? fun g => g.1 == r.va + i).map Prod.snd).getD 0

/-- An access that reads goes on: a move that performs one part alone performs the one it names where others are left, any
other all that are left, and then the bytes are there. -/
def Reading.goOn (load : State → List Part → State × List Byte) (s : State) (r : Reading) : State × Reading × Option (List Byte) :=
  let rest :=
    if r.got = [] then
      let x := load s r.parts
      (x.1, r, some x.2)
    else
      let x := r.left.foldl (Reading.take load) (s, r)
      (x.1, x.2, some x.2.bytes)
  match s.piece with
  | none => rest
  | some k =>
    if r.left.length ≤ 1 then rest
    else
      match r.open_[k % r.open_.length]? with
      | some p =>
        let x := Reading.take load (s, r) p
        (x.1, x.2, none)
      | none => (s, r, none)

/-- The access that has read the same bytes in part, where its translation still stands (R61, R70). -/
def Reading.same (va n : Nat) (ps : List Part) (r : Option Reading) : Option Reading :=
  r.filter fun x => x.va == va && x.n == n && x.parts == ps

/-- What a load of the moving sequencer has read in part. -/
def keepReading (s : State) (r : Option Reading) : State :=
  if s.cpu.reading == r then s else s.updCpu fun c => { c with reading := r }

/-- A load that the sequencer makes as part of an instruction goes on, once the request ports have admitted it (R61,
R112). -/
def seqRead (s : State) (u : UnitRec) (va n : Nat) (ps : List Part) : State × Got :=
  let go := fun (s : State) (r : Reading) =>
    match r.goOn (fun s ps => loadParts s (dieOfSeq s.cur) u.part u.ctx (some s.cur) false ps) s with
    | (s, _, some bs) => (keepReading s none, Got.bytes bs)
    | (s, r, none) => (keepReading s (some r), Got.wait)
  match Reading.same va n ps s.cpu.reading with
  | some r => go s r
  | none =>
    match admitLines s (.seq s.cur) u.ctx u.part (dieOfSeq s.cur) va ps with
    | (s, true) => go s (Reading.start va n ps)
    | (s, false) => (s, .wait)

/-- An rlx load that the sequencer makes as part of an instruction: one access of its own, which takes its place behind
those of its accesses that hold it (R122), and where it is fenced behind its FENCEs (R134). -/
def seqLoadAt (fenced : Bool) (s : State) (u : UnitRec) (va n : Nat) : State × Got :=
  match translate s (.seq s.cur) u.ctx u.part (dieOfSeq s.cur) va n false false false with
  | (s, .ok ps) =>
    let a := { newAccess s u (.load false) 0 n va ps 0 0 { ord := 0, scope := 1 } with unpaid := [] }
    let before := if fenced then s else { s with accesses := s.accesses.filter fun e => e.kind != .fence }
    if inTurn before a && ps.all (pieceReady s { a with left := [] }) then seqRead s u va n ps else (s, .wait)
  | (s, .wait) => (s, .wait)
  | (s, .fault f) => (s, .fault f)

/-- Such a load of an instruction that is an access of the sequencer. -/
def seqLoad (s : State) (u : UnitRec) (va n : Nat) : State × Got := seqLoadAt true s u va n

/-- Every earlier access of the issuer is performed, and its release of PKG scope has written back (R135, R276). -/
def releasePkg (s : State) (u : UnitRec) : State := releaseWriteBack s (dieOfSeq s.cur) u.ctx

/-- Whether a FENCE of DIE scope or wider holds the copies and dot jobs that the sequencer issues (R134, R135, R153). -/
def enginesHeld (s : State) (q : SeqId) : Bool :=
  (ownAccesses s q).any fun a => a.kind == .fence && (2 ≤ a.scope.toNat || isSc a.ord)

/-- Whether such a FENCE, with rel or ar, holds the streams that the sequencer starts (R272). -/
def streamsHeld (s : State) (q : SeqId) : Bool :=
  (ownAccesses s q).any fun a => a.kind == .fence && isRel a.ord && (2 ≤ a.scope.toNat || isSc a.ord)

end Sys2Proof.Machine
end

