-- ==== Sys2Proof/Machine/Control.lean ====
section
/-! DEFINITION. Branches, calls and loops of the sequencer (R266 to R269). -/

namespace Sys2Proof.Machine

/-- B (R266). -/
def execB (o : BitVec 19) (s : State) : Result := .next (s.updCpu fun c => c.jump (c.target o))

/-- BC branches when p[P] XOR N is 1 (R266). -/
def execBc (p : Pred) (n : BitVec 1) (o : BitVec 19) (s : State) : Result :=
  .next (s.updCpu fun c => if xor (c.pred p) (n == 1) then c.jump (c.target o) else c.next)

/-- The address of the slot of a depth in the spill area (R269). -/
def spillVa (u : UnitRec) (depth : Nat) : Nat := u.frame.toNat + 8 * (depth - 1)

/-- Push the return address and branch (R269). -/
def pushAndBranch (keep : Nat) (o : BitVec 19) (c : Seq) : Seq :=
  ({ c with ras := (c.pc + 4) :: c.ras.take keep, depth := c.depth + 1 } : Seq).jump (c.target o)

/-- CALL: RSOV at depth 272; a full store spills its oldest entry first (R266, R269). -/
def execCall (o : BitVec 19) (s : State) : Result :=
  withUnit s fun u =>
    let c := s.cpu
    if c.depth.toNat ≥ 272 then trapHere s 0x08 none
    else if c.ras.length < 16 then s.updCpu (pushAndBranch 16 o)
    else
      let va := spillVa u (c.depth.toNat - 15)
      match translate s (.seq s.cur) u.ctx u.part (dieOfSeq s.cur) va 8 true false false with
      | (s, .fault f) => trapFault s f
      | (s, .wait) => s
      | (s, .ok ps) =>
        let old := (c.ras[15]?).getD 0
        let a := newAccess s u .store 0 8 va ps (old.setWidth 256) 0 { ord := 0, scope := 1 }
        (issue s { a with counted := false }).updCpu (pushAndBranch 15 o)

/-- RET: RSUND at depth 0; an empty store loads the address from the spill area (R267, R269).  The pc holds a multiple
of 4 (R255): a loaded address that is none raises MISAL, as JR does. -/
def execRet (s : State) : Result :=
  withUnit s fun u =>
    let c := s.cpu
    if c.depth = 0 then trapHere s 0x09 none
    else
      match c.ras with
      | ra :: rest => s.updCpu fun c => ({ c with ras := rest, depth := c.depth - 1 } : Seq).jump ra
      | [] =>
        match seqLoad s u (spillVa u c.depth.toNat) 8 with
        | (s, .fault f) => trapFault s f
        | (s, .wait) => s
        | (s, .bytes bs) =>
          let ra : Word := BitVec.ofNat 64 (ofBytes bs)
          if ra &&& 3 ≠ 0 then trapMisal s ra false false
          else s.updCpu fun c => ({ c with depth := c.depth - 1 } : Seq).jump ra

/-- JR; MISAL when the target is no multiple of 4 (R267). -/
def execJr (a : Reg) (s : State) : Result :=
  let t := s.cpu.reg a
  if t &&& 3 ≠ 0 then .next (trapMisal s t false false) else .next (s.updCpu fun c => c.jump t)

/-- LOOP: count down, branch while not zero (R268). -/
def execLoop (d : Reg) (i : BitVec 12) (s : State) : Result :=
  .next (s.updCpu fun c =>
    let v := c.reg d - 1
    let c' := c.setReg d v
    if v ≠ 0 then c'.jump (c.target i) else c'.next)

end Sys2Proof.Machine
end

