-- ==== Sys2Proof/Machine/System.lean ====
section
/-! DEFINITION. TRAP, ERET, the CSRs, XLINV and RADEPTH (R70, R71, R144, R257, R384, R389, R400 to R402). -/

namespace Sys2Proof.Machine

/-- TRAP: EPC is the word after it, ECODE.ARG the operand (R400). -/
def execTrap (i : BitVec 18) (s : State) : Result :=
  .next (takeTrap s s.cur { code := 0x0D, arg := i.toNat, pc := s.cpu.pc + 4, eword := 0, fault := none })

/-- ERET: ILLOP outside a handler (R401). -/
def execEret (s : State) : Result :=
  if s.cpu.h then .next (s.updCpu returnFromTrap) else .next (trapIllop s .eret)

/-- The graph that a handle of a context names: the one most recently given it (R281). -/
def graphOf (s : State) (ctx : BitVec 12) (handle : Nat) : Option Graph :=
  s.graphs.reverse.find? fun g => g.ctx == ctx && g.handle == handle

/-- ESTAT (R384). -/
def estatOf (s : State) (c : Seq) : Word :=
  let pend :=
    match c.run with
    | some u =>
      match graphOf s u.ctx u.handle.toNat with
      | some g => !g.recs.isEmpty
      | none => false
    | none => false
  BitVec.ofNat 64 ((if pend then 2 else 0) + (if c.h then 1 else 0))

/-- OUTST (R144). -/
def outstOf (s : State) (q : SeqId) : Word :=
  BitVec.ofNat 64 (tilesOf s q * 2 ^ 24 + copyCount s q * 2 ^ 16 + storeCount s q * 2 ^ 8 + loadCount s q)

/-- An identifier CSR of the unit that a sequencer runs; 0, its reset value, where no unit has been popped (R257). -/
def unitCsr (run : Option UnitRec) (f : UnitRec → Word) : Option Word := some (run.elim 0 f)

/-- The value of a CSR as CSRR reads it; none for a number that names no readable CSR (R257, R402). -/
def csrRead (s : State) (n : Nat) : Option Word :=
  let c := s.cpu
  match n with
  | 0x400 => unitCsr c.run fun u => u.unit.setWidth 64
  | 0x401 => unitCsr c.run fun u => u.lcm1.setWidth 64 + 1
  | 0x402 => unitCsr c.run fun u => u.launch.setWidth 64
  | 0x403 => unitCsr c.run fun u => u.handle.setWidth 64
  | 0x404 => unitCsr c.run fun u => u.phase.setWidth 64
  | 0x405 => unitCsr c.run fun u => u.ctx.setWidth 64
  | 0x406 => unitCsr c.run fun u => BitVec.ofNat 64 u.part
  | 0x407 => unitCsr c.run fun _ => BitVec.ofNat 64 (dieOfSeq s.cur)
  | 0x408 => unitCsr c.run fun u => u.frame.setWidth 64
  | 0x409 => some (c.depth.setWidth 64)
  | 0x40A => unitCsr c.run fun _ => BitVec.ofNat 64 (seqnOf s.cur)
  | 0x410 => some c.faddr
  | 0x411 => some c.finfo
  | 0x413 => some c.epc
  | 0x414 => some c.ecode
  | 0x415 => some (estatOf s c)
  | 0x416 => some c.tvec
  | 0x417 => some c.escr
  | 0x418 => some c.eword
  | 0x420 => some c.ctag
  | 0x421 => some c.ctagf
  | 0x422 => some c.ctbusy
  | 0x423 => some c.cfaddr
  | 0x424 => some c.cfinfo
  | 0x425 => some (outstOf s s.cur)
  | 0x430 => some c.frec0
  | 0x431 => some c.frec1
  | 0x432 => some c.frec2
  | 0x433 => some c.frec3
  | _ => none

/-- CSRR (R402). -/
def execCsrr (d : Reg) (n : BitVec 12) (s : State) : Result :=
  match csrRead s n.toNat with
  | some v => .next (s.updCpu fun c => (c.setReg d v).next)
  | none => .next (trapIllop s (.csrr d n))

/-- The bits of TVEC that may be set (R384). -/
def tvecMask : Word := 0x800FFFFFFFFFFFFC#64

/-- The bits of XLINV that may be set (R70). -/
def xlinvMask : Word := 0x800FFFFFFFFF0000#64

/-- The 64 KiB range that an XLINV names; none for the whole context (R70). -/
def xlinvPage (v : Word) : Option Nat := if bit v 63 then none else some (bits v 51 16)

/-- A write to XLINV: the translations go at once, and the sequencer waits for the accesses that used them (R70, R83). -/
def writeXlinv (i : Instr) (v : Word) (s : State) : Result :=
  withUnit s fun u =>
    if v &&& ~~~xlinvMask ≠ 0 then trapIllop s i
    else
      match s.cpu.wait with
      | .xlinv _ _ => s
      | _ =>
        let page := xlinvPage v
        setWait (xlinvRemove s u.ctx page) (.xlinv page (usersOf s u.ctx page))

/-- XLINV_WRITE (R70). -/
def execXlinvWrite (a : Reg) (s : State) : Result := writeXlinv (.xlinvWrite a) (s.cpu.reg a) s

/-- XLINV_COMPLETE: every access that used a removed entry has been performed, the stores that the fabric holds among them, and
no pull of a named page is in progress (R70, R83). -/
def execXlinvComplete (q : SeqId) (s : State) : Result :=
  let c := s.seqs.get q
  match c.wait, c.run with
  | .xlinv page ids, some u =>
    if s.accesses.any (fun a => ids.contains a.id) || staleStores s u.ctx page || s.pulls.any (fun p => p.req.ctx == u.ctx && meetsRange page (p.page * 65536) 16) then .next s
    else .next (s.updSeq q fun c => { c.next with wait := .none })
  | _, _ => .next s

/-- A write to RADEPTH: the most recent return addresses above the new depth are discarded (R257). -/
def writeRadepth (i : Instr) (v : Word) (s : State) : Result :=
  let d := s.cpu.depth.toNat
  if v.toNat ≥ 512 then .next (trapIllop s i)
  else if v.toNat > d then .next (trapOprng s)
  else
    .next (s.updCpu fun c =>
      ({ c with depth := BitVec.ofNat 9 v.toNat, ras := c.ras.drop (d - v.toNat) } : Seq).next)

/-- RADEPTH_WRITE (R257). -/
def execRadepthWrite (a : Reg) (s : State) : Result := writeRadepth (.radepthWrite a) (s.cpu.reg a) s

/-- CSRW: ILLOP for a number that names no writable CSR and for a bit that must be written zero (R402). -/
def execCsrw (a : Reg) (n : BitVec 12) (s : State) : Result :=
  let v := s.cpu.reg a
  match n.toNat with
  | 0x409 => writeRadepth (.csrw a n) v s
  | 0x412 => writeXlinv (.csrw a n) v s
  | 0x413 =>
    if v &&& ~~~epcMask ≠ 0 then .next (trapIllop s (.csrw a n))
    else .next (s.updCpu fun c => ({ c with epc := v } : Seq).next)
  | 0x416 =>
    if v &&& ~~~tvecMask ≠ 0 then .next (trapIllop s (.csrw a n))
    else .next (s.updCpu fun c => ({ c with tvec := v } : Seq).next)
  | 0x417 => .next (s.updCpu fun c => ({ c with escr := v } : Seq).next)
  | _ => .next (trapIllop s (.csrw a n))

end Sys2Proof.Machine
end

