-- ==== Sys2Proof/Machine/Graph.lean ====
section
/-! DEFINITION. Graphs: their nodes and edges, occupancy, completion, cancel and retirement (R36, R37, R190, R202,
R210, R222, R335, R378, R379, R388, R391, R392). -/

namespace Sys2Proof.Machine

/-! ## Nodes -/

/-- The tile of a node, in absolute coordinates; an island's is the tile of the die's edge it adjoins (R191, R335,
R388). -/
def tileOfNode (id : Nat) : Nat × Nat :=
  if id < 4096 then (id / 4 % 32, id / 128)
  else if id < 5120 then ((id - 4096) % 32, (id - 4096) / 32)
  else if id < 6144 then ((id - 5120) % 32, (id - 5120) / 32)
  else
    let i := (id - 6144) % 32
    match (id - 6144) / 32 with
    | 0 => (i, 0)
    | 1 => (31, i)
    | 2 => (i, 31)
    | _ => (0, i)

/-- The element of a tile (R191). -/
def elemNode (die x y e : Nat) : NodeRef := { die := die, id := 4 * (32 * y + x) + e }

/-- The converter node and the comb node of a tile (R388). -/
def convNode (die x y : Nat) : NodeRef := { die := die, id := 4096 + 32 * y + x }
def combNode (die x y : Nat) : NodeRef := { die := die, id := 5120 + 32 * y + x }

/-- The island at a position of a side (R388). -/
def islandNode (die side i : Nat) : NodeRef := { die := die, id := 6144 + 32 * side + i }

/-- The node record of a reference. -/
def nodeOf (s : State) (r : NodeRef) : Option Node := s.nodes.find? fun n => n.ref == r

/-- Change a node. -/
def setNode (s : State) (r : NodeRef) (f : Node → Node) : State := { s with nodes := mapIf (fun n => n.ref == r) f s.nodes }

/-- The graph that a node belongs to: the resident one of its context and handle. -/
def graphOfNode (s : State) (n : Node) : Option Graph :=
  s.graphs.find? fun g => g.ctx == n.ctx && g.handle == n.handle && !g.retired

/-- Change a graph. -/
def setGraph (s : State) (gid : Nat) (f : Graph → Graph) : State := { s with graphs := mapIf (fun g => g.gid == gid) f s.graphs }

/-- The nodes of a resident graph. -/
def graphNodes (s : State) (g : Graph) : List Node :=
  if g.retired then [] else s.nodes.filter fun n => n.ctx == g.ctx && n.handle == g.handle && n.ref.die == g.die

/-- The fanout table of a tile. -/
def fanoutOf (s : State) (die x y k : Nat) : Option (BitVec 64) :=
  match s.tiles.find? fun t => t.die == die && t.x == x && t.y == y with
  | some t => (t.fanout.find? fun e => e.1 == k).map Prod.snd
  | none => none

/-- An operand by its code (R36). -/
def opdOf (k : Nat) : Opd :=
  match k with
  | 0 => .a
  | 1 => .b
  | 2 => .c
  | _ => .g

/-- The code of an operand. -/
def Opd.code : Opd → Nat
  | .a => 0
  | .b => 1
  | .c => 2
  | .g => 3

/-- The node that a tile position relative to a rectangle names: an element inside it, an island one step off
(R335). -/
def reachNode (g : Graph) (x y : Int) (e : Nat) : NodeRef :=
  if y < g.y then islandNode g.die 0 x.toNat
  else if x ≥ g.x + g.w then islandNode g.die 1 y.toNat
  else if y ≥ g.y + g.h then islandNode g.die 2 x.toNat
  else if x < g.x then islandNode g.die 3 y.toNat
  else elemNode g.die x.toNat y.toNat e

/-- Where a fanout entry points (R22). -/
def fanoutDest (g : Graph) (x y : Nat) (w : BitVec 64) : Dest :=
  let tx : Int := x + sxInt 8 (bits w 63 56)
  let ty : Int := y + sxInt 8 (bits w 55 48)
  let node :=
    match bits w 38 37 with
    | 1 => convNode g.die tx.toNat ty.toNat
    | 3 => combNode g.die tx.toNat ty.toNat
    | _ => reachNode g tx ty (bits w 47 46)
  { node := node, slot := bits w 45 41, opd := opdOf (bits w 40 39) }

/-- The consumer that a target of a word at a tile feeds; k is the fanout entry of a long route (R36, R37). -/
def targetDest (s : State) (g : Graph) (x y : Nat) (t : BitVec 16) (k : Nat) : Option Dest :=
  if !tV t then none
  else if tLong t then (fanoutOf s g.die x y k).map (fanoutDest g x y)
  else some { node := reachNode g (x + tDX t) (y + tDY t) (tE t), slot := tSlot t, opd := tOpd t }

/-- The tile that a node's targets are measured from: its own, or for an island the tile of the rectangle that it
adjoins (R36, R335). -/
def originTile (g : Graph) (id : Nat) : Nat × Nat :=
  if id < 6144 then tileOfNode id
  else
    let i := (id - 6144) % 32
    match (id - 6144) / 32 with
    | 0 => (i, g.y)
    | 1 => (g.x + g.w - 1, i)
    | 2 => (i, g.y + g.h - 1)
    | _ => (g.x, i)

/-- The word in a slot. -/
def Node.word (n : Node) (slot : Nat) : BitVec 64 := (n.slots[slot]?).getD 0xF000000000000000#64

/-- The consumers of an output of a word at a node; DUP's T0 output also feeds the target in X (R203, R311). -/
def wordConsumers (s : State) (n : Node) (op : Nat) (e : EWord) (out : Nat) : List Dest :=
  match graphOfNode s n with
  | none => []
  | some g =>
    let o := originTile g n.ref.id
    let main := targetDest s g o.1 o.2 (if out = 0 then e.t0 else e.t1)
      (if out = 0 then e.x.toNat % 256 else e.x.toNat / 256)
    let extra := if op == 0x56 && out == 0 then targetDest s g o.1 o.2 e.x 0 else none
    main.toList ++ extra.toList

/-- The consumers of an output of a slot. -/
def consumers (s : State) (n : Node) (slot out : Nat) : List Dest :=
  wordConsumers s n (n.opAt slot) (eWord (n.word slot)) out

/-- Whether a stream has tokens to send to a node, its own or an earlier stream's. -/
def Stream.feeds (t : Stream) (r : NodeRef) : Bool := (!t.sink && t.dst.node == r) || t.old.any fun x => x.1.node == r

/-- The sources of a graph's edges into a node: outputs of slots, and the source streams of running units. -/
def nodeInputs (s : State) (r : NodeRef) : List EdgeSrc :=
  match nodeOf s r with
  | none => []
  | some n =>
    match graphOfNode s n with
    | none => []
    | some g =>
      ((graphNodes s g).flatMap fun m =>
        (List.range m.slots.length).flatMap fun k =>
          [0, 1].filterMap fun o =>
            if (consumers s m k o).any (fun d => d.node == r) then some (EdgeSrc.slot m.ref k o) else none) ++
      ((s.streams.filter fun t => t.ctx == g.ctx && t.handle == g.handle && t.feeds r).map fun t =>
        EdgeSrc.stream t.ref)

/-- Whether an edge into a node is a forward input: its source stands below it in the numbering (R396). -/
def isForward (r : NodeRef) : EdgeSrc → Bool
  | .slot n _ _ => n.id < r.id
  | .stream _ => true

/-! ## Occupancy -/

/-- The kinds that count in occupancy (R193). -/
def Kind.counted : Kind → Bool
  | .data => true
  | .eos => true
  | .eeos => true
  | .cancel => true
  | _ => false

/-- The number of counted tokens of a node that a test picks. -/
def nodeTokens (n : Node) (p : Token → Bool) : Nat :=
  (n.store.countP fun h => h.tok.kind.counted && p h.tok) + (n.outs.countP fun o => o.tok.kind.counted && p o.tok) +
  (n.ends.countP fun e => p e.2.2)

/-- The block instances of a graph. -/
def graphInstances (s : State) (g : Graph) : List Instance :=
  s.instances.filter fun i => i.blk.key.ctx == g.ctx && i.handle == g.handle && i.blk.node.die == g.die && !i.replay

/-- The occupancy of a graph: its counted tokens that a test picks, in stores, in buffers and in its streams, and its
instances that the test on ITER picks (R210). -/
def occupancyOf (s : State) (g : Graph) (p : BitVec 16 → Bool) : Nat :=
  ((graphNodes s g).map fun n => nodeTokens n fun t => p t.key.iter).sum +
  ((s.streams.filter fun t => t.ctx == g.ctx && t.handle == g.handle).map fun t =>
    (t.buf ++ t.old.map Prod.snd).countP fun k => k.kind.counted && p k.key.iter).sum +
  (graphInstances s g).countP fun i => p i.blk.key.iter

/-- The occupancy of one ITER value (R210). -/
def occupancy (s : State) (g : Graph) (v : BitVec 16) : Nat := occupancyOf s g (· == v)

/-- Iterations whose occupancy has reached zero have ended: their pool entries and window positions are freed (R210,
R212). -/
def endIterations (s : State) (g : Graph) : State :=
  setGraph s g.gid fun g => { g with pool := g.pool.filter fun e => occupancy s g e.iter != 0 }

/-- The same for every resident graph of a context. -/
def endIterationsOf (s : State) (ctx : BitVec 12) : State :=
  (s.graphs.filter fun g => g.ctx == ctx && !g.retired).foldl endIterations s

/-! ## Completion -/

/-- The launches bound to a graph (R222). -/
def graphLaunches (s : State) (g : Graph) : List Launch := s.launches.filter fun l => l.ctx == g.ctx && l.gen == g.gid

/-- Whether a graph has completed (R222, R378). -/
def graphDone (s : State) (g : Graph) : Bool :=
  g.done || ((graphLaunches s g).all Launch.done && g.pool.isEmpty && occupancyOf s g (fun _ => true) == 0)

/-- The units of a graph that run. -/
def unitsOf (s : State) (g : Graph) : List SeqId :=
  (List.finRange 64).filter fun q =>
    match (s.seqs.get q).run with
    | some u => u.ctx == g.ctx && u.handle.toNat == g.handle && q.val / 16 == g.die
    | none => false

/-- The graphs of a context that a restore has still to place (R399). -/
def pendingGraphs (s : State) (ctx : BitVec 12) : List Graph := (s.restores.filter fun r => r.ctx == ctx).flatMap Restore.graphs

/-- The graphs of a context: those that are or were resident, and those that a restore has still to place. -/
def allGraphs (s : State) (ctx : BitVec 12) : List Graph := s.graphs.filter (fun g => g.ctx == ctx) ++ pendingGraphs s ctx

/-- Whether a restore has still to place a graph. -/
def isPending (s : State) (g : Graph) : Bool := (pendingGraphs s g.ctx).any fun h => h.gid == g.gid

/-- The restore that has still to place a graph, and the graph as it was saved. -/
def pendingPlace (s : State) (g : Graph) : Option (Restore × Graph) :=
  (s.restores.find? fun r => r.graphs.any fun h => h.gid == g.gid).bind fun r =>
    (r.saved.graphs.find? fun h => h.handle == g.handle && !h.retired).map fun h => (r, h)

/-- Whether units of a graph run, or are still to be resumed by a restore. -/
def unitsLeft (s : State) (g : Graph) : Bool :=
  !(unitsOf s g).isEmpty ||
  s.restores.any fun r => r.ctx == g.ctx && r.units.any fun u => u.state.run.elim false fun z => z.handle.toNat == g.handle

/-- Whether a graph has completed, be it resident or still to be placed by a restore (R222, R399). -/
def graphOver (s : State) (g : Graph) : Bool :=
  match pendingPlace s g with
  | none => graphDone s g
  | some (r, h) =>
    g.done || ((graphLaunches s g).all Launch.done && g.pool.isEmpty &&
      occupancyOf { s with nodes := r.saved.nodes, streams := r.saved.streams, instances := r.saved.instances } h (fun _ => true) == 0)

/-- The graphs of a phase. -/
def phaseGraphs (s : State) (p : Phase) : List Graph :=
  (allGraphs s p.ctx).filter fun g => g.die == p.die && g.phase == p.num

/-- Whether a phase has completed (R222). -/
def phaseDone (s : State) (p : Phase) : Bool := p.passed && (phaseGraphs s p).all (graphOver s)

/-- Whether a job has completed (R222). -/
def jobDone (s : State) (ctx : BitVec 12) : Bool :=
  ((s.phases.filter fun p => p.ctx == ctx).all (phaseDone s)) &&
  ((s.queues.filter fun x => x.valid && x.ctx == ctx).all fun x => x.head == x.seen)

/-- The current phase number of a context on a die: 1 before the first RECONF has passed, then one above the phase that the
last one ended (R222, R282). -/
def currentPhase (s : State) (ctx : BitVec 12) (die : Nat) : BitVec 32 :=
  (s.phases.filter fun p => p.ctx == ctx && p.die == die).foldl
    (fun n p => if n ≤ p.num then (if p.passed then p.num + 1 else p.num) else n) 1

/-- The phase of a graph exists from its first graph on (R222). -/
def ensurePhase (s : State) (ctx : BitVec 12) (die : Nat) (n : BitVec 32) : State :=
  if s.phases.any fun p => p.ctx == ctx && p.die == die && p.num == n then s
  else { s with phases := s.phases ++ [{ ctx := ctx, die := die, num := n, passed := false, cancelled := false }] }

/-- The words FREC0 to FREC2 of a record (R389). -/
def FRec.words (r : FRec) : List Word :=
  [BitVec.ofNat 64 (r.count * 2 ^ 48 + r.iter.toNat * 2 ^ 32 + r.path.toNat * 2 ^ 24 + r.cause * 256 + r.code),
   BitVec.ofNat 64 (r.aux.toNat * 2 ^ 48 + r.slot * 65536 + r.node), r.addr]

/-- Two records with equal ITER merge: the one of the lower NODEID stays whole (R388). -/
def FRec.merge (a b : FRec) : FRec :=
  let keep := if b.node < a.node then b else a
  { keep with count := min 65535 (a.count + b.count + 1) }

/-- A record reaches the root: it merges with a waiting one, takes one of 16 places, or is dropped (R389). -/
def rootTake (g : Graph) (r : FRec) : Graph :=
  if g.recs.any fun x => x.iter == r.iter then
    { g with recs := mapFirst (fun x => x.iter == r.iter) (fun x => x.merge r) g.recs }
  else if g.recs.length < 16 then { g with recs := g.recs ++ [r] }
  else { g with lost := true }

/-- Records still waiting when a graph retires enter the black-box ring (R390); those that still climb arrive first. -/
def logRecords (s : State) (g : Graph) : State :=
  (g.tree.foldl rootTake g).recs.foldl (fun s r => pushEvent s (0x200 + g.die) 0x100 g.part g.ctx.toNat r.words) s

/-- Change the job record of a context. -/
def setJob (s : State) (ctx : BitVec 12) (f : JobRec → JobRec) : State :=
  let old := (s.jobRecs.find? fun j => j.ctx == ctx).getD
    { ctx := ctx, nextLaunch := 1, given := [], freed := [], cancelled := false }
  { s with jobRecs := upsert (fun j => j.ctx == ctx) (f old) s.jobRecs }

/-- The job record of a context. -/
def jobRecOf (s : State) (ctx : BitVec 12) : JobRec :=
  (s.jobRecs.find? fun j => j.ctx == ctx).getD { ctx := ctx, nextLaunch := 1, given := [], freed := [], cancelled := false }

/-- Whether a holder of translations is a stream, an element or a port of one of some nodes. -/
def Holder.at (h : Holder) (refs : List NodeRef) : Bool :=
  match h with
  | .agn r => refs.any fun n => n.die == r.die && n.id < 6144 && tileOfNode n.id == (r.x, r.y)
  | .island n _ => refs.contains n
  | _ => false

/-- A graph leaves its rectangle: its nodes, tables and streams go, and its handle is freed (R282, R380). -/
def retireGraph (s : State) (g : Graph) : State :=
  let s := logRecords s g
  let gone := (graphNodes s g).map Node.ref
  let s := forgetMisses (gone.foldl unpinNode s) (Holder.at · gone)
  let s :=
    { s with
      nodes := s.nodes.filter fun n => !gone.contains n.ref
      tiles := s.tiles.filter fun t => (t.die == g.die && t.ctx == g.ctx && t.handle == g.handle) == false
      streams := s.streams.filter fun t => (t.ctx == g.ctx && t.handle == g.handle && t.ended) == false
      instances := s.instances.filter fun i => !gone.contains i.blk.node }
  let s := setJob s g.ctx fun j => { j with freed := j.freed ++ [g.handle] }
  setGraph s g.gid fun g => { g with retired := true, done := true, recs := [], tree := [], pool := [] }

/-- Whether a graph that is to retire may: its RECONF has passed and it has completed; or it was cancelled, nothing of it
remains, no record of its launches is left and no unit of it runs (R282, R379). -/
def mayRetire (s : State) (g : Graph) : Bool :=
  !g.retired && g.reconf.isNone &&
  ((g.retiring && graphDone s g && !unitsLeft s g) ||
   (g.cancelled && (graphLaunches s g).all Launch.done && occupancyOf s g (fun _ => true) == 0 && !unitsLeft s g &&
     !(s.jobs.any fun j => j.ctx == g.ctx && j.handle == g.handle && j.die == g.die)))

/-! ## Admission (R374, R376) -/

/-- Whether two rectangles meet. -/
def rectsMeet (x y w h x' y' w' h' : Nat) : Bool := x < x' + w' && x' < x + w && y < y' + h' && y' < y + h

/-- Whether a tile is one of a die's converter tiles (R3). -/
def isConvTile (x y : Nat) : Bool := x % 4 == 0 && (x + y) % 8 == 0

/-- Whether a bid fits at an origin as far as the partition's tiles and the die go (R374). -/
def shapeFits (s : State) (b : Bid) (x y : Nat) : Bool :=
  let p := partOf s b.part
  x + b.w ≤ 32 && y + b.h ≤ 32 &&
  ((List.range b.w).all fun i => (List.range b.h).all fun j => mapBit p.tiles (32 * (y + j) + x + i)) &&
  (b.islands.all fun i =>
    match i.1 with
    | 0 => y == 0
    | 1 => x + b.w == 32
    | 2 => y + b.h == 32
    | _ => x == 0) &&
  b.convs.all fun c => isConvTile (x + c.1) (y + c.2)

/-- Whether a rectangle is held by no resident graph and no grant (R374). -/
def tilesFree (s : State) (die x y w h : Nat) : Bool :=
  !(s.graphs.any fun g => !g.retired && g.die == die && rectsMeet x y w h g.x g.y g.w g.h) &&
  !(s.grants.any fun g => (partOf s g.part).dieOf == die && rectsMeet x y w h g.x g.y g.w g.h)

/-- The origins of a die, the lowest y first, then the lowest x. -/
def origins : List (Nat × Nat) := (List.range 32).flatMap fun y => (List.range 32).map fun x => (x, y)

/-- The fitting origin of a bid; a bid of width 0 fits at once (R374). -/
def fitOrigin (s : State) (b : Bid) : Option (Nat × Nat) :=
  if b.w = 0 then some (0, 0)
  else origins.find? fun o => shapeFits s b o.1 o.2 && tilesFree s (partOf s b.part).dieOf o.1 o.2 b.w b.h

/-- Whether a bid fits somewhere with every tile of the partition free (R274). -/
def fitsSomewhere (s : State) (b : Bid) : Bool := b.w == 0 || origins.any fun o => shapeFits s b o.1 o.2

/-- Whether a bid ranks above another (R376). -/
def bidAbove (a b : Bid) : Bool :=
  b.prio < a.prio || (a.prio == b.prio && (a.issue < b.issue || (a.issue == b.issue && a.q.val ≤ b.q.val)))

/-- A bid is granted: its tiles are held, and its LOADCFG goes on (R376). -/
def grantBid (s : State) (b : Bid) (x y : Nat) : State :=
  let g : Grant := { part := b.part, q := b.q, ctx := b.ctx, x := x, y := y, w := b.w, h := b.h }
  let s := { s with grants := s.grants ++ [g], bids := s.bids.erase b }
  match b.restore with
  | some handle =>
    let f := fun (r : Restore) => if r.ctx == b.ctx then { r with placed := r.placed ++ [(handle, x, y)] } else r
    { s with restores := s.restores.map f }
  | none =>
    s.updSeq b.q fun c =>
      match c.wait with
      | .bidding img => { c with wait := .granted x y img }
      | _ => c

/-- A grant of a bid counts a bypass on every bid above it that still waits (R376). -/
def bypassAbove (s : State) (b : Bid) : State :=
  let lim := bits (partOf s b.part).blim 7 0
  let f := fun (c : Bid) => { c with bypass := c.bypass + 1, blocking := c.blocking || lim ≤ c.bypass + 1 }
  { s with bids := mapIf (fun c => c.part == b.part && c != b && bidAbove c b) f s.bids }

/-- The arbiter's pass over the ranked bids (R376). -/
def arbitrate : State → List Bid → State
  | s, [] => s
  | s, b :: rest =>
    match s.bids.find? fun c => c.part == b.part && c.issue == b.issue && c.q == b.q with
    | none => arbitrate s rest
    | some b =>
      match fitOrigin s b with
      | some o => arbitrate (grantBid (bypassAbove s b) b o.1 o.2) rest
      | none => if b.blocking then s else arbitrate s rest

/-- The waiting bids of a partition by rank. -/
def rankedBids (s : State) (part : Nat) : List Bid := sortBy bidAbove (s.bids.filter fun b => b.part == part)

/-- A bid is withdrawn: the LOADCFG starts afresh when its unit goes on (R387, R395). -/
def withdrawBid (s : State) (q : SeqId) : State := { s with bids := s.bids.filter fun b => b.q != q || b.restore.isSome }

/-- The arbiter of a partition runs: a bid has arrived, or tiles have been freed (R376). -/
def runArbiter (s : State) (part : Nat) : State := arbitrate s (rankedBids s part)

/-- Graphs that may retire do, and the arbiter runs over the tiles that this frees (R376, R379). -/
def settle (s : State) : State :=
  (s.graphs.filter (mayRetire s)).foldl (fun s g => runArbiter (retireGraph s g) g.part) s

/-! ## Cancel and seal -/

/-- Everything that a set of nodes holds is discarded: tokens, entries, buffers, instances, open tiles; stores that a tile
with no block has released are still performed (R214, R379, R391). -/
def discardNodes (s : State) (refs : List NodeRef) : State :=
  let s := forgetMisses (refs.foldl unpinNode s) (Holder.at · refs)
  { s with
    nodes := mapIf (fun n => refs.contains n.ref)
      (fun n => { n with store := [], outs := [], drops := [], ends := [], links := [], tiles := [], dead := [] }) s.nodes
    portReqs := s.portReqs.filter fun r => !r.holder.at refs
    partials := s.partials.filter fun x => !refs.contains x.site.node
    instances := s.instances.filter fun i => i.released || !(refs.contains i.blk.node) }

/-- The streams that feed or tap a set of nodes end: a source sends nothing further, a sink records an error (R379,
R391). -/
def endStreamsAt (s : State) (refs : List NodeRef) : State :=
  let f := fun (t : Stream) =>
    if t.sink then { t with ended := true, err := t.err || !t.ended }
    else { t with ended := true, early := [], buf := [] }
  let keep := fun (t : Stream) => { t with old := t.old.filter fun x => !refs.contains x.1.node }
  { s with streams := (mapIf (fun t => refs.contains t.dst.node) f s.streams).map keep }

/-- The queues whose rings may hold records of a launch: that of its SPAWN or its producer, and for an external queue the
one into which CONT requeues (R369, R372). -/
def launchQueues (s : State) (l : Launch) : List Queue :=
  let x := queueOf s l.part l.queue
  if x.ext && x.cq != l.queue then [x, queueOf s l.part x.cq] else [x]

/-- The indices of a ring that have been posted and not let go. -/
def Queue.indices (x : Queue) : List Nat := (List.range (x.tail - x.head)).map (x.head + ·)

/-- The QUEUED records of a launch in a ring (R368, R379). -/
def queuedRecords (s : State) (x : Queue) (l : Launch) : List Nat :=
  x.indices.filter fun i =>
    (recWord s x i 1).any (fun w => recState w == 0) && (recWord s x i 2).any (fun w => bits w 31 0 == l.id.toNat) &&
      (recWord s x i 3).any fun w => bits w 43 32 == l.ctx.toNat

/-- Walk what the cancel of a launch reads and writes of a ring; false where a page must wait. -/
def holdRecords (s : State) (x : Queue) (l : Launch) : State × Bool :=
  match ringHold s (x.indices.map fun i => recUse x i false) with
  | (s, false) => (s, false)
  | (s, true) =>
    let gone := queuedRecords s x l
    ringHold s (x.indices.map fun i => recUse x i (gone.contains i))

/-- Whether a cancel of some launches can be made now: it waits as a whole while a page of a ring must. -/
def cancelHold (s : State) (ls : List Launch) : State × Bool :=
  (ls.filter fun l => !l.done).foldl
    (fun r l => (launchQueues r.1 l).foldl (fun (r : State × Bool) x =>
      let h := holdRecords r.1 x l
      (h.1, r.2 && h.2)) r) (s, true)

/-- The QUEUED records of a launch in a ring are set to RETIRED, and HEAD goes on; the number removed is the second
result (R370, R379). -/
def cancelRecords (s : State) (x : Queue) (l : Launch) : State × Nat :=
  let s := (holdRecords s x l).1
  let gone := queuedRecords s x l
  let s := gone.foldl (fun s i => setRecState s x i 2) s
  let s := updLaunch s l.ctx l.id fun l => { l with removed := l.removed + gone.length }
  (retireHead s x.part x.q, gone.length)

/-- A launch is cancelled: its queued records are removed, and those still to be posted are posted RETIRED (R379). -/
def cancelLaunch (s : State) (l : Launch) : State × Nat :=
  if l.done then (s, 0)
  else
    (launchQueues s l).foldl
      (fun (r : State × Nat) x =>
        let t := cancelRecords r.1 x l
        (t.1, r.2 + t.2)) (updLaunch s l.ctx l.id fun l => { l with cancelled := true, dead := true }, 0)

/-- A graph that a restore has still to place is cancelled: its launches are, what was saved of it goes, and it is placed empty
(R379, R399). -/
def cancelPending (s : State) (r : Restore) (g : Graph) : State × Nat :=
  let t := (graphLaunches s g).foldl (fun (t : State × Nat) l =>
    let u := cancelLaunch t.1 l
    (u.1, t.2 + u.2)) (s, 0)
  let mine := fun (h : Nat) => h == g.handle
  let stop := fun (x : Stream) =>
    if x.sink then { x with ended := true, err := x.err || !x.ended } else { x with ended := true, early := [], under := [], buf := [], old := [] }
  let empty := fun (n : Node) => { n with store := [], outs := [], drops := [], ends := [], links := [], tiles := [], dead := [] }
  let saved := { r.saved with
    nodes := mapIf (fun n => mine n.handle) empty r.saved.nodes
    streams := mapIf (fun x => mine x.handle) stop r.saved.streams
    instances := r.saved.instances.filter fun i => !mine i.handle }
  let r2 := { r with
    saved := saved
    graphs := mapIf (fun h => h.gid == g.gid) (fun h => { h with cancelled := true, pool := [], sealing := [] }) r.graphs }
  ({ t.1 with restores := mapIf (fun x => x.ctx == r.ctx) (fun _ => r2) t.1.restores }, t.2)

/-- A graph is cancelled; a RECONF token under way in it goes with its tokens and holds nothing up (R172, R379). -/
def cancelGraph (s : State) (g : Graph) : State × Nat :=
  if g.retired || (graphDone s g && !unitsLeft s g && (graphLaunches s g).all Launch.done && g.done) then (s, 0)
  else
    let r := (graphLaunches s g).foldl (fun (r : State × Nat) l =>
      let t := cancelLaunch r.1 l
      (t.1, r.2 + t.2)) (s, 0)
    let refs := (graphNodes s g).map Node.ref
    let s := endStreamsAt (discardNodes r.1 refs) refs
    let s := { s with nodes := mapIf (fun n => refs.contains n.ref) (fun n => { n with passed := g.reconf.isSome, redepth := [] }) s.nodes }
    let s := setGraph s g.gid fun g => { g with cancelled := true, pool := [], sealing := [] }
    (s, r.2)

/-- Array j of a comb node (R221). -/
def combArray (r : NodeRef) (j : Nat) : ArrayRef :=
  let t := tileOfNode r.id
  { die := r.die, slice := t.2 / 2, index := 16 * ((32 * t.2 + t.1) % 64) + j }

/-- The quads of the arrays that the CLOADCTX and CSAVECTX words of a graph name (R95, R96). -/
def combQuads (s : State) (g : Graph) : List (Nat × Nat × Nat) :=
  ((graphNodes s g).filter fun n => isCombNode n.ref).flatMap fun n =>
    (List.range n.slots.length).filterMap fun k =>
      if n.opAt k = 0xA2 || n.opAt k = 0xA3 then
        some (quadOf (combArray n.ref ((eWord (n.word k)).x.extractLsb' 0 4).toNat)) else none

/-- The element that the link of a comb word names as its predecessor (R317, R357). -/
def combLink (n : Node) (slot : Nat) : Option NodeRef :=
  let w := eWord (n.word slot)
  if isCombNode n.ref && (n.opAt slot == 0xA2 || n.opAt slot == 0xA3) && w.x.getLsbD 15 then
    let t := tileOfNode n.ref.id
    some (elemNode n.ref.die t.1 t.2 (w.x.extractLsb' 13 2).toNat)
  else none

/-- The nodes that a node of its graph is joined to, in either direction: by targets, fanout entries and channels, and by
comb links (R391). -/
def neighbours (s : State) (g : Graph) (r : NodeRef) : List NodeRef :=
  (graphNodes s g).filterMap fun m =>
    let reaches := fun (n : Node) (r2 : NodeRef) =>
      (List.range n.slots.length).any fun k =>
        combLink n k == some r2 || [0, 1].any fun o => (consumers s n k o).any fun d => d.node == r2
    let from_ := match nodeOf s r with
      | some n => reaches n m.ref
      | none => false
    if from_ || reaches m r then some m.ref else none

/-- The nodes reached in so many steps. -/
def grow (next : NodeRef → List NodeRef) : Nat → List NodeRef → List NodeRef
  | 0, l => l
  | n + 1, l => grow next n (l.foldl (fun acc r => (next r).foldl (fun acc m => if acc.contains m then acc else acc ++ [m]) acc) l)

/-- The connected subgraph of a node (R391). -/
def subgraphOf (s : State) (g : Graph) (r : NodeRef) : List NodeRef := grow (neighbours s g) (graphNodes s g).length [r]

/-- The nodes that a node feeds. -/
def fedBy (s : State) (r : NodeRef) : List NodeRef :=
  match nodeOf s r with
  | none => []
  | some n => (List.range n.slots.length).flatMap fun k => [0, 1].flatMap fun o => (consumers s n k o).map Dest.node

/-- Whether an edge into a node of a graph lies on a cycle: the node reaches the edge's source. -/
def onCycle (s : State) (g : Graph) (r : NodeRef) : EdgeSrc → Bool
  | .slot n _ _ => n == r || (grow (fedBy s) (graphNodes s g).length (fedBy s r)).contains n
  | .stream _ => false

end Sys2Proof.Machine
end

