-- ==== Sys2Proof/Machine/Work.lean ====
section
/-! DEFINITION. Launches, joining, continuing and ending units, cancel, counters and barriers (R275 to R284, R368 to
R380). -/

namespace Sys2Proof.Machine

/-! ## Posting records -/

/-- The four words of a record (R368). -/
def recordWords (handle prio frame st join entry lcm1 unit launch ctx phase : Nat) : List Word :=
  [BitVec.ofNat 64 (handle * 2 ^ 56 + prio * 2 ^ 52 + frame % 2 ^ 52),
   BitVec.ofNat 64 (st * 2 ^ 48 + join * 2 ^ 32 + entry),
   BitVec.ofNat 64 (lcm1 * 2 ^ 48 + unit * 2 ^ 32 + launch),
   BitVec.ofNat 64 (ctx * 2 ^ 32 + phase)]

/-- Write a record at an index of a ring. -/
def writeRecord (s : State) (x : Queue) (i : Nat) (ws : List Word) : State :=
  ringWrite s x (x.recVa i) (ws.flatMap fun w => toBytes 8 w.toNat)

/-- A record is posted at the tail: it is written and the hardware's tail moves (R276, R371).  The caller has walked the
page. -/
def postRecord (s : State) (x : Queue) (ws : List Word) : State :=
  let s := writeRecord s x x.tail ws
  setQueue s { x with tail := x.tail + 1 }

/-- A ring's TAIL is published (R276); from then on the hardware watches the word there for stores of others (R371). -/
def publishTail (s : State) (part q : Nat) : State :=
  let x := queueOf s part q
  let before := s.tailWatch
  let s := ringWrite s x (x.baseVa + 8) (toBytes 8 x.tail)
  watchTail { s with tailWatch := before } x

/-- Whether a ring has room for one more record (R371). -/
def ringRoom (x : Queue) : Bool := x.tail - x.head < x.cap

/-- Take or give back a queue's producer turn (R276). -/
def setTurn (s : State) (part q : Nat) (t : Option SeqId) : State := setQueue s { queueOf s part q with turn := t }

/-! ## SPAWN -/

/-- The fields of SPAWN's payload (R275). -/
def spUnits (pl : BitVec 32) : Nat := (pl.extractLsb' 16 16).toNat + 1
def spQueue (pl : BitVec 32) : Nat := (pl.extractLsb' 12 4).toNat
def spPrio (pl : BitVec 32) : Nat := (pl.extractLsb' 9 3).toNat
def spFlog (pl : BitVec 32) : Nat := (pl.extractLsb' 4 5).toNat

/-- The resident graph that a handle of a context names. -/
def residentGraph (s : State) (ctx : BitVec 12) (h : Word) : Option Graph :=
  s.graphs.find? fun g => g.ctx == ctx && g.handle == h.toNat && !g.retired

/-- Whether a queue takes the records of a context's SPAWN (R371). -/
def queueTakes (x : Queue) (ctx : BitVec 12) : Bool := x.valid && !x.ext && !x.err && x.ctx == ctx

/-- Whether a CANCEL has reached a launch, so that its further records are posted RETIRED (R379). -/
def launchDead (s : State) (ctx : BitVec 12) (id : BitVec 32) : Bool :=
  (s.launches.find? fun l => l.ctx == ctx && l.id == id).elim false Launch.dead

/-- Post the records of a launch from unit i on, while the ring has room and neither its page nor TAIL's need wait (R276,
R379). The first unit not posted is the second result. -/
def postUnits (u : UnitRec) (handle : Nat) (f : Reg) (entry : Nat) (pl : BitVec 32) (id : BitVec 32) (phase : BitVec 32) :
    Nat → State → Nat → State × Nat
  | 0, s, i => (s, i)
  | fuel + 1, s, i =>
    let x := queueOf s u.part (spQueue pl)
    if spUnits pl ≤ i || !ringRoom x then (s, i)
    else
      match ringHold s [recUse x x.tail true, tailUse x true] with
      | (s, false) => (s, i)
      | (s, true) =>
        let dead := launchDead s u.ctx id
        let frame := (s.cpu.reg f).toNat + i * 2 ^ spFlog pl
        let join := (s.cpu.reg (f + 1)).toNat
        let s := postRecord s x (recordWords handle (spPrio pl) frame (if dead then 2 else 0) join entry (spUnits pl - 1) i
          id.toNat u.ctx.toNat phase.toNat)
        let s := updLaunch s u.ctx id fun l =>
          { l with posted := l.posted + 1, removed := if dead then l.removed + 1 else l.removed }
        postUnits u handle f entry pl id phase fuel s (i + 1)

/-- Go on posting, publish a new TAIL at once, and complete when the last record is posted (R276); HEAD moves past the records of a
cancelled launch, which are posted RETIRED (R370, R379). -/
def spawnGoOn (d b f : Reg) (pl : BitVec 32) (u : UnitRec) (handle : Nat) (id : BitVec 32) (i : Nat) (s : State) : State :=
  let s := retireHead s u.part (spQueue pl)
  let r := postUnits u handle f (s.cpu.reg b).toNat pl id (currentPhase s u.ctx (dieOfSeq s.cur)) (spUnits pl) s i
  if r.2 = i then setWait r.1 (.posting id.toNat i)
  else
    let s := publishTail r.1 u.part (spQueue pl)
    let s := if launchDead s u.ctx id then retireHead s u.part (spQueue pl) else s
    if r.2 = spUnits pl then
      let s := setTurn s u.part (spQueue pl) none
      s.updCpu fun c => ({ c.setReg d (id.setWidth 64) with wait := .none } : Seq).next2
    else setWait s (.posting id.toNat r.2)

/-- A launch begins: after a release of PKG scope it takes the job's next identifier, and its queue's producer turn (R275,
R276); on a graph that has been cancelled it is cancelled with it (R379). -/
def spawnOpen (s : State) (u : UnitRec) (g : Graph) (pl : BitVec 32) : State :=
  let x := queueOf s u.part (spQueue pl)
  let id := (jobRecOf s u.ctx).nextLaunch
  let s := setJob (releasePkg s u) u.ctx fun j => { j with nextLaunch := j.nextLaunch + 1 }
  let l : Launch :=
    { ctx := u.ctx, id := id, part := u.part, queue := spQueue pl, handle := g.handle, first := x.tail,
      units := spUnits pl, posted := 0, completed := 0, removed := 0, cancelled := g.cancelled, dead := g.cancelled,
      gen := g.gid }
  setTurn { s with launches := s.launches ++ [l] } u.part (spQueue pl) (some s.cur)

/-- Whether the producer turn of a queue is taken, by a sequencer or by a SPAWN that a cut has saved as it posted and that a
restore has still to resume (R276, R395, R399). -/
def turnTaken (s : State) (x : Queue) : Bool :=
  x.turn.isSome || s.restores.any fun r => r.units.any fun u =>
    match u.state.wait with
    | .posting id _ => s.launches.any fun l => l.ctx == r.ctx && l.id.toNat == id && l.part == x.part && l.queue == x.q
    | _ => false

/-- A SPAWN begins: its operands are checked, its release is made, and it takes the queue's turn (R275, R276). -/
def spawnBegin (d a b f : Reg) (pl : BitVec 32) (u : UnitRec) (s : State) : State :=
  let c := s.cpu
  let x := queueOf s u.part (spQueue pl)
  let entry := (c.reg b).toNat
  match residentGraph s u.ctx (c.reg a) with
  | none => trapOprng s
  | some g =>
    if entry % 4 ≠ 0 || entry ≥ g.seqSize || (c.reg f).toNat % 2 ^ spFlog pl ≠ 0 || (c.reg (f + 1)).toNat > 65535 ||
        !queueTakes x u.ctx then trapOprng s
    else if !(ownAccesses s s.cur).isEmpty || turnTaken s x ||
        1024 ≤ (s.launches.filter fun l => l.part == u.part && !l.done).length then s
    else spawnGoOn d b f pl u g.handle (jobRecOf s u.ctx).nextLaunch 0 (spawnOpen s u g pl)

/-- SPAWN (R275, R276); one that has begun goes on posting whatever has become of its graph (R379). -/
def execSpawn (d a b f : Reg) (pl : BitVec 32) (s : State) : Result :=
  withUnit s fun u =>
    match s.cpu.wait with
    | .posting id i => spawnGoOn d b f pl u (bits (s.cpu.reg a) 7 0) (BitVec.ofNat 32 id) i s
    | _ => spawnBegin d a b f pl u s

/-! ## JOIN -/

/-- Whether a record is that of a unit of a launch, as its words say (R368). -/
def recordIs (s : State) (l : Launch) (unit : Nat) (x : Queue) (i : Nat) : Bool :=
  ((recWord s x i 2).any fun w => bits w 31 0 == l.id.toNat && bits w 47 32 == unit) &&
    (recWord s x i 3).any fun w => bits w 43 32 == l.ctx.toNat

/-- The state word of a unit's record and its ring, where it is QUEUED with a counter above 0 (R277). -/
def joinAt (s : State) (l : Launch) (unit : Nat) (x : Queue) (i : Nat) : Option (Word × Queue × Nat) :=
  match recWord s x i 1 with
  | some w => if recordIs s l unit x i && recState w = 0 && bits w 47 32 ≠ 0 then some (w, x, i) else none
  | none => none

/-- Where the unit of a launch has its record: at its anchor, or where a MOVED anchor forwards to (R372). -/
def joinPlace (s : State) (l : Launch) (unit : Nat) : Queue × Nat :=
  let x := queueOf s l.part l.queue
  let i := l.first + unit
  match recWord s x i 1, recWord s x i 3 with
  | some w, some w3 => if recState w = 3 then (if x.ext then queueOf s l.part x.cq else x, bits w3 63 44) else (x, i)
  | _, _ => (x, i)

/-- The record on which a JOIN acts, where it decrements (R277, R372); false where a page of a ring must wait. -/
def joinTarget (s : State) (l : Launch) (unit : Nat) : State × Bool × Option (Word × Queue × Nat) :=
  let x := queueOf s l.part l.queue
  if l.posted ≤ unit || l.first + unit < x.head then (s, true, none)
  else
    match ringHold s [recUse x (l.first + unit) false] with
    | (s, false) => (s, false, none)
    | (s, true) =>
      let p := joinPlace s l unit
      match ringHold s [recUse p.1 p.2 true] with
      | (s, ready) => (s, ready, joinAt s l unit p.1 p.2)

/-- JOIN: one decrement at the record, after a release of PKG scope (R277). -/
def execJoin (d a b : Reg) (s : State) : Result :=
  withUnit s fun u =>
    if !(ownAccesses s s.cur).isEmpty then s
    else
      let s := releasePkg s u
      let la := s.cpu.reg a
      let un := (s.cpu.reg b).toNat
      let zero := fun (s : State) => s.updCpu fun c => (c.setReg d 0).next
      match s.launches.find? fun l => l.ctx == u.ctx && l.id.toNat == la.toNat with
      | none => zero s
      | some l =>
        match joinTarget s l un with
        | (s, false, _) => s
        | (s, true, none) => zero s
        | (s, true, some (w, x, i)) =>
          let n := bits w 47 32
          let s := setRecWord s x i 1 (w - (1#64 <<< 32))
          s.updCpu fun c => (c.setReg d (BitVec.ofNat 64 n)).next

/-! ## END and CONT -/

/-- Whether tokens are on their way to the islands of a unit's graph: what they will find there is a tile operation of it as
soon as they arrive (R347, R367). -/
def islandBound (s : State) (u : UnitRec) : Bool :=
  (s.nodes.any fun n => n.ctx == u.ctx && n.handle == u.handle.toNat &&
    n.outs.any fun o => o.tok.kind.counted && o.pend.any fun d => isIslandNode d.node) ||
  s.streams.any fun t => t.ctx == u.ctx && t.handle == u.handle.toNat &&
    ((isIslandNode t.dst.node && t.buf.any fun k => k.kind.counted) || t.old.any fun x => isIslandNode x.1.node && x.2.kind.counted)

/-- Whether END must wait (R279, R367). -/
def endWaits (s : State) (q : SeqId) : Bool :=
  !(ownAccesses s q).isEmpty || tilesOf s q != 0 || (s.seqs.get q).ctbusy != 0 || (s.jobs.any fun j => j.q == q) ||
  (s.streams.any fun t => t.q == q && !t.ended) || (s.seqs.get q).run.elim false (islandBound s)

/-- END (R279). -/
def execEndU (s : State) : Result :=
  withUnit s fun u =>
    if endWaits s s.cur then s
    else
      match ringHold (releasePkg s u) (retireUses s u) with
      | (s, false) => s
      | (s, true) => settle (retireUnit s s.cur false)

/-- The queue into which a unit's CONT requeues (R369). -/
def contQueue (s : State) (u : UnitRec) : Nat :=
  let x := queueOf s u.part u.queue
  if x.ext then x.cq else u.queue

/-- The ring accesses of a CONT: the new record and TAIL, the anchor, and the record that the unit was popped from. -/
def contUses (s : State) (u : UnitRec) : List RingUse :=
  let x := queueOf s u.part (contQueue s u)
  [recUse x x.tail true, tailUse x true] ++ retireUses s u

/-- The unit's record is requeued, its anchor forwards to it, and the sequencer is idle (R278, R372).  PHASE is the phase at
this posting (R368). -/
def contPost (s : State) (u : UnitRec) (entry join : Nat) : State :=
  let q := contQueue s u
  let x := queueOf s u.part q
  let s := postRecord s x (recordWords u.handle.toNat u.prio u.frame.toNat 0 join entry u.lcm1.toNat u.unit.toNat
    u.launch.toNat u.ctx.toNat (currentPhase s u.ctx (dieOfSeq s.cur)).toNat)
  let aq := anchorQueue s u
  let ax := queueOf s u.part aq
  let s := if u.ring = u.anchor && u.queue = aq then s else setRecState s (queueOf s u.part u.queue) u.ring 2
  let s :=
    match recWord s ax u.anchor 3 with
    | some w3 => setRecWord s ax u.anchor 3 (BitVec.ofNat 64 (x.tail % 2 ^ 20 * 2 ^ 44 + bits w3 43 0))
    | none => s
  let s := setRecState s ax u.anchor 3
  let s := setTurn (publishTail s u.part q) u.part q none
  let s := retireHead (retireHead s u.part u.queue) u.part aq
  s.updSeq s.cur fun c => { c.clearUnit with run := none, wait := .none }

/-- A CONT takes the producer turn, as SPAWN does, and keeps it until it has posted: it waits for the turn, for room, and
for the pages of its rings (R278, R371). -/
def contTurn (s : State) (u : UnitRec) (entry join : Nat) : State :=
  let q := contQueue s u
  let t := (queueOf s u.part q).turn
  if t != some s.cur && turnTaken s (queueOf s u.part q) then setWait s .contPost
  else
    let s := retireHead (setTurn s u.part q (some s.cur)) u.part q
    if !ringRoom (queueOf s u.part q) then setWait s .contPost
    else
      match ringHold s (contUses s u) with
      | (s, false) => setWait s .contPost
      | (s, true) => contPost s u entry join

/-- A CONT that is taken from its wait gives its turn back (R387, R395). -/
def leaveTurn (s : State) (q : SeqId) : State :=
  { s with queues := mapIf (fun x => x.turn == some q) (fun x => { x with turn := none }) s.queues }

/-- CONT (R278). -/
def execCont (a b : Reg) (s : State) : Result :=
  withUnit s fun u =>
    let c := s.cpu
    let entry := (c.reg a).toNat
    let join := (c.reg b).toNat
    let size := (residentGraph s u.ctx (u.handle.setWidth 64)).elim 0 Graph.seqSize
    match c.wait with
    | .contPost => contTurn s u entry join
    | _ =>
      if entry % 4 ≠ 0 || entry ≥ size || join > 65535 then trapOprng s
      else if endWaits s s.cur then s
      else contTurn ((releasePkg s u).updCpu Seq.clearUnit) u entry join

/-! ## CANCEL and CDONE -/

/-- What a level's name stands for: nothing that the job holds, or the level (R280, R281). -/
inductive Level where
  | launch (l : Launch)
  | graph (g : Graph)
  | phase (p : Phase)
  | job
  deriving DecidableEq, Repr

/-- The level that a code and a name stand for (R280). -/
def levelNamed (s : State) (u : UnitRec) (code : Nat) (name : Word) : Option Level :=
  match code with
  | 1 => (s.launches.find? fun l => l.ctx == u.ctx && l.id.toNat == name.toNat).map .launch
  | 2 => (((pendingGraphs s u.ctx).find? fun g => g.handle == name.toNat).or (graphOf s u.ctx name.toNat)).map .graph
  | 3 => (s.phases.find? fun p => p.ctx == u.ctx && p.die == dieOfSeq s.cur && p.num.toNat == name.toNat).map .phase
  | _ => some .job

/-- The graphs that a level's cancel reaches. -/
def levelGraphs (s : State) (u : UnitRec) : Level → List Graph
  | .launch _ => []
  | .graph g => [g]
  | .phase p => phaseGraphs s p
  | .job => allGraphs s u.ctx

/-- Whether a level is DONE (R222, R281). -/
def levelDone (s : State) (u : UnitRec) : Level → Bool
  | .launch l => l.done
  | .graph g => graphOver s g && (g.retired || !unitsLeft s g)
  | .phase p => phaseDone s p
  | .job => jobDone s u.ctx

/-- Whether a level is CANCELLED. -/
def levelCancelled (s : State) (u : UnitRec) : Level → Bool
  | .launch l => l.cancelled
  | .graph g => g.cancelled
  | .phase p => p.cancelled
  | .job => (jobRecOf s u.ctx).cancelled

/-- The completed children of a level (R281). -/
def levelChildren (s : State) (u : UnitRec) : Level → Nat
  | .launch l => l.completed
  | .graph g => (graphLaunches s g).countP Launch.done
  | .phase p => (phaseGraphs s p).countP (graphOver s)
  | .job => (s.phases.filter fun p => p.ctx == u.ctx).countP (phaseDone s)

/-- Mark a level CANCELLED; a launch and a graph are marked where they are cancelled. With a job, the queues bound to its
context stop reading (R379). -/
def markLevel (s : State) (u : UnitRec) : Level → State
  | .phase p => { s with phases := mapIf (· == p) (fun p => { p with cancelled := true }) s.phases }
  | .job =>
    let s := setJob s u.ctx fun j => { j with cancelled := true }
    { s with queues := mapIf (fun x => x.valid && x.ctx == u.ctx) Queue.stopped s.queues }
  | _ => s

/-- Cancel a graph, be it resident or still to be placed by a restore. -/
def cancelOne (s : State) (g : Graph) : State × Nat :=
  match pendingPlace s g with
  | some (r, _) => cancelPending s r g
  | none => cancelGraph s g

/-- Cancel a level; the number of records removed is the second result (R379). -/
def cancelLevel (s : State) (u : UnitRec) (lv : Level) : State × Nat :=
  match lv with
  | .launch l => cancelLaunch s l
  | _ =>
    let r := (levelGraphs s u lv).foldl (fun (r : State × Nat) g =>
      let t := cancelOne r.1 g
      (t.1, r.2 + t.2)) (s, 0)
    (markLevel r.1 u lv, r.2)

/-- The launches that a level's cancel reaches. -/
def levelLaunches (s : State) (u : UnitRec) (lv : Level) : List Launch :=
  match lv with
  | .launch l => [l]
  | _ => (levelGraphs s u lv).flatMap (graphLaunches s)

/-- CANCEL (R280, R379); it waits, with nothing done, while a page of a ring that it reads or writes must. -/
def execCancel (d a : Reg) (l : BitVec 3) (s : State) : Result :=
  withUnit s fun u =>
    match levelNamed s u l.toNat (s.cpu.reg a) with
    | none => trapOprng s
    | some lv =>
      if levelDone s u lv then s.updCpu fun c => (c.setReg d 0).next
      else
        match cancelHold s (levelLaunches s u lv) with
        | (s, false) => s
        | (s, true) =>
          let r := cancelLevel s u lv
          (settle r.1).updCpu fun c => (c.setReg d (BitVec.ofNat 64 r.2)).next

/-- The word of CDONE (R281). -/
def levelWord (s : State) (u : UnitRec) (lv : Level) : Word :=
  BitVec.ofNat 64 ((if levelDone s u lv then 2 ^ 63 else 0) + (if levelCancelled s u lv then 2 ^ 62 else 0) +
    levelChildren s u lv % 2 ^ 32)

/-- CDONE (R281). -/
def execCdone (d a : Reg) (w : BitVec 1) (l : BitVec 3) (s : State) : Result :=
  withUnit s fun u =>
    match levelNamed s u l.toNat (s.cpu.reg a) with
    | none => trapOprng s
    | some lv =>
      if w = 1 && !levelDone s u lv then s
      else
        let v := levelWord s u lv
        let s := if levelDone s u lv then acquireInvalidate s (dieOfSeq s.cur) u.ctx else s
        s.updCpu fun c => (c.setReg d v).next

/-! ## Barriers -/

/-- The fields of a barrier's word (R283). -/
def barCount (w : Word) : Nat := bits w 12 0
def barAuto (w : Word) : Bool := bit w 15
def barWd (w : Word) : Nat := bits w 47 16
def barScope (w : Word) : Nat := bits w 50 48

/-- Whether BARC accepts a word (R283). -/
def barOk (w : Word) : Bool :=
  bits w 63 51 == 0 && bits w 14 13 == 0 && (barScope w == 2 || barScope w == 3 || barScope w == 4) &&
  (barWd w == 0 || 1024 ≤ barWd w) && 1 ≤ barCount w && barCount w ≤ 4096

/-- A barrier of a context; none when it is unset. -/
def barrierOf (s : State) (ctx : BitVec 12) (n : Nat) : Option Barrier :=
  s.barriers.find? fun b => b.ctx == ctx && b.bar == n

/-- Replace a barrier. -/
def setBarrier (s : State) (b : Barrier) : State :=
  { s with barriers := upsert (fun x => x.ctx == b.ctx && x.bar == b.bar) b s.barriers }

/-- BARC (R283). -/
def execBarc (a b : Reg) (s : State) : Result :=
  withUnit s fun u =>
    let n := (s.cpu.reg a).toNat
    let w := s.cpu.reg b
    if n > 63 || !barOk w then trapOprng s
    else
      let old := barrierOf s u.ctx n
      if old.elim false (fun x => x.arrivals != 0 && !x.complete) then trapHere s 0x0B none
      else
        (setBarrier s { ctx := u.ctx, bar := n, word := w, die := dieOfSeq s.cur, arrivals := 0,
                        generation := old.elim 0 Barrier.generation, complete := false, waiting := [], absent := [] }).updCpu Seq.next

/-- Whether a saved unit is the one that ran on a sequencer. -/
def SavedUnit.ranOn (u : SavedUnit) (q : SeqId) : Bool := q.val == 16 * u.die + u.seqn

/-- Every party that waits at a barrier goes on with a generation, or gets its trap (R284): one that a restore has still to
resume does so when it is resumed. -/
def releaseParties (s : State) (b : Barrier) (w : Wait) : State :=
  let s := b.waiting.foldl (fun s q => s.updSeq q fun c => { c with wait := w }) s
  let f := fun (r : Restore) => { r with
    units := mapIf (fun u => b.absent.any u.ranOn) (fun u => { u with state := { u.state with wait := w } }) r.units }
  { s with restores := mapIf (fun r => r.ctx == b.ctx) f s.restores }

/-- Whether the scope of a barrier takes in other dies. -/
def Barrier.wide (b : Barrier) : Bool := 3 ≤ barScope b.word

/-- BAR (R174, R284). -/
def execBar (d a : Reg) (s : State) : Result :=
  withUnit s fun u =>
    let c := s.cpu
    let n := (c.reg a).toNat
    match c.wait with
    | .passed gen wide =>
      let s := if wide then acquireInvalidate s (dieOfSeq s.cur) u.ctx else s
      s.updCpu fun c => ({ c.setReg d (BitVec.ofNat 64 gen) with wait := .none } : Seq).next
    | .timedOut => trapHere s 0x0A none
    | .barrier _ _ => s
    | _ =>
      match barrierOf s u.ctx n with
      | none => trapOprng s
      | some b =>
        if n > 63 || (barScope b.word = 2 && b.die ≠ dieOfSeq s.cur) then trapOprng s
        else if b.complete then trapHere s 0x0B none
        else if !(ownAccesses s s.cur).isEmpty then s
        else
          let s := if b.wide then releasePkg s u else s
          if b.arrivals + 1 = barCount b.word then
            let gen := b.generation + 1
            let s := releaseParties s b (.passed gen b.wide)
            let s := setBarrier s { b with arrivals := 0, generation := gen, complete := !barAuto b.word, waiting := [], absent := [] }
            let s := if b.wide then acquireInvalidate s (dieOfSeq s.cur) u.ctx else s
            s.updCpu fun c => (c.setReg d (BitVec.ofNat 64 gen)).next
          else
            setWait (setBarrier s { b with arrivals := b.arrivals + 1, waiting := b.waiting ++ [s.cur] })
              (.barrier n b.generation)

/-- BARRIER_WATCHDOG: every waiting party is to raise BARTO, and the barrier is armed again (R284). -/
def execBarrierWatchdog (ctx : BitVec 12) (n : Nat) (s : State) : Result :=
  match barrierOf s ctx n with
  | none => .next s
  | some b =>
    if barWd b.word = 0 || (b.waiting.isEmpty && b.absent.isEmpty) then .next s
    else .next (setBarrier (releaseParties s b .timedOut) { b with arrivals := 0, waiting := [], absent := [] })

/-- A party that is taken from its wait at a barrier has not arrived (R387). -/
def leaveBarrier (s : State) (q : SeqId) : State :=
  let f := fun (b : Barrier) => { b with arrivals := b.arrivals - 1, waiting := b.waiting.filter (· != q) }
  { s with barriers := mapIf (fun b => b.waiting.contains q) f s.barriers }

end Sys2Proof.Machine
end

