-- ==== Sys2Proof/Machine/Streams.lean ====
section
/-! DEFINITION. AGN streams (R270 to R273) and fault records on their way up the combining tree (R388). -/

namespace Sys2Proof.Machine

/-! ## Fault records -/

/-- A FAULT token enters a combining tree: where one of its ITER is on its way, the two meet or not, by a free choice, and
merge where they do (R388). -/
def Graph.treeTake (g : Graph) (meet : Bool) (r : FRec) : Graph :=
  if (g.tree.any fun x => x.iter == r.iter) && meet then
    { g with tree := mapFirst (fun x => x.iter == r.iter) (fun x => x.merge r) g.tree }
  else { g with tree := g.tree ++ [r] }

/-- A FAULT token starts up its die's combining tree (R388). -/
def climb (s : State) (gid : Nat) (r : FRec) : State :=
  let f := fun (g : Graph) =>
    g.treeTake (Config.freeBit s.freeCtr) { r with wave := g.pool.find? fun e => e.iter == r.iter }
  { setGraph s gid f with freeCtr := s.freeCtr + 1 }

/-- A record of one fault (R388, R389). -/
def mkRec (k : Key) (code cause aux slot node addr : Nat) : FRec :=
  { count := 0, iter := k.iter, path := k.path, cause := cause, code := code, aux := BitVec.ofNat 16 aux, slot := slot,
    node := node, addr := BitVec.ofNat 64 addr, wave := none }

/-- The fabric code of a fault of an access: AMODE, MISAL or PGF (R383). -/
def FaultInfo.fabricCode (f : FaultInfo) : Nat :=
  if f.cause = 0xF1 || f.cause = 0xF2 || f.cause = 0xF4 then 0x21 else if f.cause = 0xF3 then 0x22 else 0x20

/-- The tag key of a context's base wave (R194). -/
def baseKey (ctx : BitVec 12) : Key := { ctx := ctx, iter := 0, path := 0 }

/-! ## Streams -/

/-- The stream of a reference. -/
def streamOf (s : State) (r : StreamRef) : Option Stream := s.streams.find? fun t => t.ref == r

/-- Change a stream. -/
def setStream (s : State) (r : StreamRef) (f : Stream → Stream) : State :=
  { s with streams := mapIf (fun t => t.ref == r) f s.streams }

/-- The address of token i of a stream (R271). -/
def Stream.va (t : Stream) (i : Nat) : Nat :=
  (t.base + BitVec.ofNat 64 (i / t.count) * t.rowStride + BitVec.ofNat 64 (i % t.count) * t.stride).toNat

/-- The fields of STRM's payload (R270). -/
def stX (pl : BitVec 32) : Nat := (pl.extractLsb' 27 5).toNat
def stY (pl : BitVec 32) : Nat := (pl.extractLsb' 22 5).toNat
def stStr (pl : BitVec 32) : Nat := (pl.extractLsb' 20 2).toNat
def stSink (pl : BitVec 32) : Bool := pl.getLsbD 19
def stEos (pl : BitVec 32) : Bool := pl.getLsbD 18
def stTgt (pl : BitVec 32) : BitVec 16 := pl.extractLsb' 0 16

/-- Whether a source's target lies in the rectangle, from tile (X, Y) of it, or one step off it where the graph has an
island (R270, R335). -/
def targetInside (g : Graph) (x y : Nat) (t : BitVec 16) : Bool :=
  let tx : Int := x + tDX t
  let ty : Int := y + tDY t
  let inX := decide (0 ≤ tx) && decide (tx < g.w)
  let inY := decide (0 ≤ ty) && decide (ty < g.h)
  tV t &&
    (inX && inY || (inX && ty == -1 && g.islands.contains (0, tx.toNat)) ||
      (inX && ty == g.h && g.islands.contains (2, tx.toNat)) || (inY && tx == -1 && g.islands.contains (3, ty.toNat)) ||
      (inY && tx == g.w && g.islands.contains (1, ty.toNat)))

/-- The node and slot of a stream's end in the graph (R270). -/
def streamDest (g : Graph) (pl : BitVec 32) : Dest :=
  let x := g.x + stX pl
  let y := g.y + stY pl
  let t := stTgt pl
  if stSink pl then { node := elemNode g.die x y (tE t), slot := tSlot t, opd := .a }
  else { node := reachNode g (x + tDX t) (y + tDY t) (tE t), slot := tSlot t, opd := tOpd t }

/-- Whether a sink's slot holds an instruction that leaves T0 free (R270). -/
def tapOk (s : State) (d : Dest) : Bool :=
  match nodeOf s d.node with
  | some n => eOp (n.word d.slot) != 0xF0 && !tV (eWord (n.word d.slot)).t0
  | none => false

/-- Whether a sink still has a store that no instance has released (R273). -/
def sinkPending (s : State) (r : StreamRef) : Bool :=
  s.instances.any fun i => !i.released && i.stores.any fun h => h.stream == some r

/-- What STRMEND returns of a stream that has ended (R273). -/
def Stream.result (t : Stream) : Word := BitVec.ofNat 64 ((if t.err then 2 ^ 63 else 0) + t.sent % 2 ^ 32)

/-- The result of an ended stream that another unit's stream replaces at its port stands with the unit that started it (R272,
R273). -/
def leaveResult (s : State) (t : Stream) : State :=
  s.updSeq t.q fun c =>
    { c with run := c.run.map fun u =>
        if u.started.contains t.ref && !u.ended.any (fun e => e.1 == t.ref) then { u with ended := u.ended ++ [(t.ref, t.result)] } else u }

/-- A new source of a graph that a RECONF token is passing begins with that token (R204, R282). -/
def reconfFirst (s : State) (ctx : BitVec 12) (handle : Nat) (t : Stream) : Stream :=
  match (s.graphs.find? fun g => g.ctx == ctx && g.handle == handle && !g.retired).bind Graph.reconf with
  | some p => if t.sink then t else { t with buf := { key := baseKey ctx, seq := 0, kind := .reconf, payload := p } :: t.buf }
  | none => t

/-- STRM and STRM2: the operand limits, then the stream stands (R270, R272), once an earlier one of its port has ended and a sink's
stores are released; what an earlier source has sent still goes to its target (R271). -/
def startStream (d a b : Reg) (pl : BitVec 32) (rows : Nat) (rowStride : Word) (s : State) : Result :=
  withUnit s fun u =>
    let c := s.cpu
    match residentGraph s u.ctx (u.handle.setWidth 64) with
    | none => trapOprng s
    | some g =>
      let count := (c.reg a).toNat
      let base := c.reg d
      let stride := c.reg b
      let dst := streamDest g pl
      let ref : StreamRef := { die := g.die, x := g.x + stX pl, y := g.y + stY pl, str := stStr pl }
      let inside := stX pl < g.w && stY pl < g.h && (stSink pl || targetInside g (stX pl) (stY pl) (stTgt pl))
      if !inside || count ≥ 2 ^ 32 || rows ≥ 2 ^ 32 || (stSink pl && !tapOk s dst) then trapOprng s
      else if base.toNat % 32 ≠ 0 || stride.toNat % 32 ≠ 0 || rowStride.toNat % 32 ≠ 0 then trapMisal s base false false
      else if streamsHeld s s.cur || (streamOf s ref).elim false (fun t => !t.ended) || sinkPending s ref then s
      else
        let s := (streamOf s ref).elim s fun t => if t.q == s.cur then s else leaveResult s t
        let old := (streamOf s ref).elim [] fun t => t.old ++ t.buf.map fun k => (t.dst, k)
        let n := rows * count
        let t : Stream :=
          { ref := ref, q := s.cur, ctx := u.ctx, part := u.part, handle := g.handle, sink := stSink pl, base := base,
            count := count, stride := stride, rows := rows, rowStride := rowStride, eos := stEos pl, dst := dst,
            sent := 0, early := [], buf := [], old := old, ended := n == 0, err := false, marked := false }
        let t := reconfFirst s u.ctx g.handle t
        let t := if n = 0 && stEos pl then { t with buf := t.buf ++ [t.token 0 .eos 0] } else t
        let s := { s with streams := (s.streams.filter fun (x : Stream) => x.ref != ref) ++ [t] }
        s.updCpu fun c =>
          ({ c with run := some { u with started := (u.started.filter (· != ref)) ++ [ref]
                                         ended := u.ended.filter fun e => e.1 != ref } } : Seq).next2

/-- STRM (R270). -/
def execStrm (d a b : Reg) (pl : BitVec 32) (s : State) : Result := startStream d a b pl 1 0 s

/-- STRM2 (R270). -/
def execStrm2 (d a b f : Reg) (pl : BitVec 32) (s : State) : Result :=
  startStream d a b pl (s.cpu.reg (f + 1)).toNat (s.cpu.reg f) s

/-- The index that a source reads up to: 16 tokens of it may have been read and not accepted, and it reads no further ahead
(R271). -/
def Stream.horizon (t : Stream) : Nat := min t.total (t.sent + 16 - t.buf.countP fun k => k.kind == .data)

/-- What a token of a source has read in part. -/
def Stream.keep (t : Stream) (i : Nat) (r : Option Reading) : Stream :=
  { t with under := (t.under.filter fun x => x.1 != i) ++ (r.map fun r => (i, r)).toList }

/-- A token of a source read at its coherence point, once the request ports have admitted it (R61, R112). -/
def readToken (s : State) (t : Stream) (i : Nat) : State × Trans × Payload :=
  let load := fun (s : State) (ps : List Part) => loadParts s t.ref.die t.part t.ctx none false ps
  match translate s (.agn t.ref) t.ctx t.part t.ref.die (t.va i) 32 false false false with
  | (s, .ok ps) =>
    let under := Reading.same (t.va i) 32 ps ((t.under.find? fun x => x.1 == i).map Prod.snd)
    match (if under.isSome then (s, true) else admitLines s (.agn t.ref) t.ctx t.part t.ref.die (t.va i) ps) with
    | (s, false) => (s, .wait, 0)
    | (s, true) =>
      match (under.getD (Reading.start (t.va i) 32 ps)).goOn load s with
      | (s, _, some bs) => (s, .ok ps, BitVec.ofNat 256 (ofBytes bs))
      | (s, r, none) => (setStream s t.ref fun t => t.keep i (some r), .wait, 0)
  | (s, x) => (s, x, 0)

/-- A source reads a token ahead of its turn; reads of SO pages keep index order (R271). -/
def readAhead (s : State) (r : StreamRef) (i : Nat) : State :=
  match streamOf s r with
  | none => s
  | some t =>
    if t.sink || t.ended || t.marked || i < t.sent || t.horizon ≤ i || t.early.any (fun e => e.1 == i) then s
    else
      match readToken s t i with
      | (s', .ok ps, p) =>
        let so := ps.any Part.so
        let inOrder := (List.range (i - t.sent)).all fun k => t.early.any fun e => e.1 == t.sent + k
        if so && !inOrder then s else setStream s' r fun t => { t.keep i none with early := t.early ++ [(i, p)] }
      | (s', .wait, _) => s'
      | _ => s

/-- What a source does with its next token: the token is sent; after the last the EOS it owes, and it has ended
(R271). -/
def Stream.send (t : Stream) (p : Payload) : Stream :=
  let n := t.sent + 1
  let last := n == t.total
  let buf := t.buf ++ [t.token t.sent .data p] ++ (if last && t.eos then [t.token n .eos 0] else [])
  { t.keep t.sent none with buf := buf, sent := n, ended := last, early := t.early.filter fun e => e.1 != t.sent }

/-- STREAM_READ_RETURN: the next token of a source in index order, or the EEOS of a read that faults (R271). -/
def execStreamReadReturn (r : StreamRef) (s : State) : Result :=
  match streamOf s r with
  | none => .next s
  | some t =>
    if t.sink || t.ended || t.marked then .next s
    else
      match t.early.find? fun e => e.1 == t.sent with
      | some e => .next (setStream s r fun t => t.send e.2)
      | none =>
        if t.horizon ≤ t.sent then .next s
        else
          match readToken s t t.sent with
          | (s, .ok _, p) => .next (setStream s r fun t => t.send p)
          | (s, .wait, _) => .next s
          | (s, .fault f, _) =>
            let s := setStream s r fun t =>
              { t with buf := t.buf ++ [t.token t.sent .eeos 0], ended := true, err := true, early := [], under := [] }
            match s.graphs.find? fun g => g.ctx == t.ctx && g.handle == t.handle && !g.retired with
            | none => .next s
            | some g =>
              .next (climb s g.gid (mkRec (baseKey t.ctx) f.fabricCode f.cause 0 t.dst.slot t.dst.node.id f.addr))

/-- What a unit has started and STRMEND has returned is no longer its own (R273). -/
def UnitRec.letGo (u : UnitRec) (r : StreamRef) : UnitRec :=
  { u with started := u.started.filter (· != r), ended := u.ended.filter fun e => e.1 != r }

/-- STRMEND (R273). -/
def execStrmend (d a : Reg) (x : BitVec 1) (s : State) : Result :=
  withUnit s fun u =>
    let v := s.cpu.reg a
    match residentGraph s u.ctx (u.handle.setWidth 64) with
    | none => trapOprng s
    | some g =>
      if bits v 63 12 ≠ 0 then trapOprng s
      else
        let ref : StreamRef := { die := g.die, x := g.x + bits v 4 0, y := g.y + bits v 9 5, str := bits v 11 10 }
        let give := fun (s : State) (w : Word) => s.updCpu fun c => ({ c.setReg d w with run := some (u.letGo ref) } : Seq).next
        if !u.started.contains ref then s.updCpu fun c => (c.setReg d 0).next
        else
          match u.ended.find? fun e => e.1 == ref with
          | some e => give s e.2
          | none =>
            let s := if x = 1 then setStream s ref Stream.stop else s
            match streamOf s ref with
            | none => s.updCpu fun c => (c.setReg d 0).next
            | some t => if !t.ended || sinkPending s ref then s else give s t.result

end Sys2Proof.Machine
end

