-- ==== Sys2Proof/Machine/Float.lean ====
section
/-! DEFINITION. The number formats: IEEE binary formats by exact arithmetic and one rounding, and the tapered formats
T8 and T6 (R225 to R237). -/

namespace Sys2Proof.Machine

/-- The rounding directions (R16). -/
inductive Rnd where
  | rne | rtz | rup | rdn
  deriving DecidableEq, Repr

/-- An IEEE format by its exponent and fraction widths (R226). -/
structure Fmt where
  eb : Nat
  fb : Nat
  deriving DecidableEq, Repr

/-- The formats of R226. -/
def fp64 : Fmt := { eb := 11, fb := 52 }
def fp32 : Fmt := { eb := 8, fb := 23 }
def fp16 : Fmt := { eb := 5, fb := 10 }
def bf16 : Fmt := { eb := 8, fb := 7 }

/-- Bits of an encoding. -/
def Fmt.width (f : Fmt) : Nat := 1 + f.eb + f.fb

/-- The exponent bias (R226). -/
def Fmt.bias (f : Fmt) : Int := 2 ^ (f.eb - 1) - 1

/-- The weight of the lowest fraction bit of a subnormal. -/
def Fmt.minExp (f : Fmt) : Int := 1 - f.bias - f.fb

/-- The encodings of infinity, the canonical NaN and the largest finite magnitude (R226). -/
def Fmt.inf (f : Fmt) : Nat := (2 ^ f.eb - 1) * 2 ^ f.fb
def Fmt.nan (f : Fmt) : Nat := f.inf + 2 ^ (f.fb - 1)
def Fmt.maxFin (f : Fmt) : Nat := f.inf - 1
def Fmt.signBit (f : Fmt) : Nat := 2 ^ (f.eb + f.fb)

/-- An exact value: NaN, an infinity, or (-1)^neg * m * 2^e. -/
inductive FV where
  | nan
  | inf (neg : Bool)
  | fin (neg : Bool) (m : Nat) (e : Int)
  deriving DecidableEq, Repr

/-- The value of an encoding (R226). -/
def fdec (f : Fmt) (x : Nat) : FV :=
  let neg := x / f.signBit % 2 == 1
  let ex := x / 2 ^ f.fb % 2 ^ f.eb
  let fr := x % 2 ^ f.fb
  if ex = 2 ^ f.eb - 1 then (if fr = 0 then .inf neg else .nan)
  else if ex = 0 then .fin neg fr f.minExp
  else .fin neg (2 ^ f.fb + fr) (f.minExp + (ex - 1 : Int))

/-- Whether a truncated magnitude is raised by one: r of d is what was cut off. -/
def roundUp (rnd : Rnd) (neg : Bool) (n r d : Nat) : Bool :=
  match rnd with
  | .rne => d < 2 * r || (2 * r == d && n % 2 == 1)
  | .rtz => false
  | .rup => !neg && 0 < r
  | .rdn => neg && 0 < r

/-- p / q rounded to an integer. -/
def roundDiv (rnd : Rnd) (neg : Bool) (p q : Nat) : Nat := if roundUp rnd neg (p / q) (p % q) q then p / q + 1 else p / q

/-- The floor of log2 of p / q, for positive p and q. -/
def log2Ratio (p q : Nat) : Int :=
  let k : Int := Nat.log2 p - (Nat.log2 q : Int)
  let below := if 0 ≤ k then p < q * 2 ^ k.toNat else p * 2 ^ (-k).toNat < q
  if below then k - 1 else k

/-- (p / q) * 2^s as a ratio. -/
def scaleRatio (p q : Nat) (s : Int) : Nat × Nat := if 0 ≤ s then (p * 2 ^ s.toNat, q) else (p, q * 2 ^ (-s).toNat)

/-- The encoding of (-1)^neg * (p / q) * 2^e, rounded once (R227). -/
def encRatio (f : Fmt) (rnd : Rnd) (neg : Bool) (p q : Nat) (e : Int) : Nat :=
  let sign := if neg then f.signBit else 0
  if p = 0 then sign
  else
    let top := log2Ratio p q + e
    let ex := max (top - f.fb) f.minExp
    let r := scaleRatio p q (e - ex)
    let m := roundDiv rnd neg r.1 r.2
    let mag := (ex - f.minExp).toNat * 2 ^ f.fb + m
    let past :=
      match rnd with
      | .rne => f.inf
      | .rtz => f.maxFin
      | .rup => if neg then f.maxFin else f.inf
      | .rdn => if neg then f.inf else f.maxFin
    sign + (if mag ≥ f.inf then past else mag)

/-- The encoding of an exact value, rounded once (R227). -/
def fenc (f : Fmt) (rnd : Rnd) : FV → Nat
  | .nan => f.nan
  | .inf neg => (if neg then f.signBit else 0) + f.inf
  | .fin neg m e => encRatio f rnd neg m 1 e

/-- The integer of a signed magnitude. -/
def signed (neg : Bool) (m : Nat) : Int := if neg then -(m : Int) else m

/-- Whether a value is zero. -/
def FV.isZero : FV → Bool
  | .fin _ 0 _ => true
  | _ => false

/-- The sign of a value. -/
def FV.neg : FV → Bool
  | .nan => false
  | .inf n => n
  | .fin n _ _ => n

/-- A value with the other sign. -/
def FV.negate : FV → FV
  | .nan => .nan
  | .inf n => .inf !n
  | .fin n m e => .fin (!n) m e

/-- A value without its sign. -/
def FV.abs : FV → FV
  | .nan => .nan
  | .inf _ => .inf false
  | .fin _ m e => .fin false m e

/-- The exact sum; a zero sum of unlike zeros or of opposite values is +0, -0 under RDN (R227). -/
def vadd (rnd : Rnd) (x y : FV) : FV :=
  match x, y with
  | .nan, _ => .nan
  | _, .nan => .nan
  | .inf a, .inf b => if a == b then .inf a else .nan
  | .inf a, _ => .inf a
  | _, .inf b => .inf b
  | .fin a m e, .fin b n d =>
    if m = 0 && n = 0 then .fin (if a == b then a else rnd == .rdn) 0 0
    else
      let lo := min e d
      let v := signed a m * 2 ^ (e - lo).toNat + signed b n * 2 ^ (d - lo).toNat
      if v = 0 then .fin (rnd == .rdn) 0 0 else .fin (v < 0) v.natAbs lo

/-- The exact product (R227). -/
def vmul (x y : FV) : FV :=
  match x, y with
  | .nan, _ => .nan
  | _, .nan => .nan
  | .inf a, .inf b => .inf (a != b)
  | .inf a, .fin b n _ => if n = 0 then .nan else .inf (a != b)
  | .fin a m _, .inf b => if m = 0 then .nan else .inf (a != b)
  | .fin a m e, .fin b n d => .fin (a != b) (m * n) (e + d)

/-- The order of two numbers that are not NaN: -1, 0 or 1; zeros of either sign are equal. -/
def vcmp (x y : FV) : Int :=
  match x, y with
  | .inf a, .inf b => if a == b then 0 else if a then -1 else 1
  | .inf a, _ => if a then -1 else 1
  | _, .inf b => if b then 1 else -1
  | .fin a m e, .fin b n d =>
    let lo := min e d
    let v := signed a m * 2 ^ (e - lo).toNat - signed b n * 2 ^ (d - lo).toNat
    if v < 0 then -1 else if v = 0 then 0 else 1
  | _, _ => 0

/-- A value as the greater: +0 above -0 (R151). -/
def vmax (x y : FV) : FV :=
  match x, y with
  | .nan, y => y
  | x, .nan => x
  | x, y =>
    let c := vcmp x y
    if c < 0 then y else if 0 < c then x else if x.neg then y else x

/-- The lesser, -0 below +0; the other operand when one is NaN. -/
def vmin (x y : FV) : FV := (vmax x.negate y.negate).negate

/-- The exact value of an integer. -/
def ofIntFV (x : Int) : FV := .fin (x < 0) x.natAbs 0

/-- The encoding of a quotient, with the special values of IEEE 754, rounded once. -/
def fdivEnc (f : Fmt) (rnd : Rnd) (x y : FV) : Nat :=
  match x, y with
  | .nan, _ => f.nan
  | _, .nan => f.nan
  | .inf _, .inf _ => f.nan
  | .inf a, .fin b _ _ => fenc f rnd (.inf (a != b))
  | .fin a _ _, .inf b => fenc f rnd (.fin (a != b) 0 0)
  | .fin a m e, .fin b n d =>
    if n = 0 then (if m = 0 then f.nan else fenc f rnd (.inf (a != b)))
    else encRatio f rnd (a != b) m n (e - d)

/-- A value rounded to an integer and saturated into a type of n bits; NaN gives 0 (R228). -/
def toIntSat (rnd : Rnd) (isSigned : Bool) (n : Nat) (x : FV) : Nat :=
  let r := intRange isSigned n
  match x with
  | .nan => 0
  | .inf neg => wrapInt n (if neg then r.1 else r.2)
  | .fin neg m e =>
    let q := scaleRatio m 1 e
    narrow true isSigned n (signed neg (roundDiv rnd neg q.1 q.2))

/-! ## T8 and T6 -/

/-- The number of leading bits equal to b among the top n bits of m. -/
def leadRun (m : Nat) (b : Bool) : Nat → Nat
  | 0 => 0
  | n + 1 => if m.testBit n == b then 1 + leadRun m b n else 0

/-- The magnitude of a code of n bits with es exponent bits, in units of 2^-12 (R231). -/
def taperMag (n es m : Nat) : Nat :=
  if m = 0 then 0
  else
    let b := m.testBit (n - 2)
    let run := leadRun m b (n - 1)
    let k : Int := if b then (run : Int) - 1 else -(run : Int)
    let left := n - 1 - run - 1
    let rest := m % 2 ^ left
    let e := if left < es then rest * 2 ^ (es - left) else rest / 2 ^ (left - es)
    let nf := left - es
    let f := rest % 2 ^ nf
    let x : Int := k * 2 ^ es + e + 12
    (2 ^ nf + f) * 2 ^ x.toNat / 2 ^ nf

/-- A tapered format: T8 or T6. -/
structure Taper where
  n : Nat
  es : Nat
  deriving DecidableEq, Repr

def t8 : Taper := { n := 8, es := 1 }
def t6 : Taper := { n := 6, es := 0 }

/-- The value of a code; NaV is NaN here (R231, R232). -/
def taperDec (t : Taper) (c : Nat) : FV :=
  let neg := c / 2 ^ (t.n - 1) % 2 == 1
  let m := c % 2 ^ (t.n - 1)
  if m = 0 then (if neg then .nan else .fin false 0 0) else .fin neg (taperMag t.n t.es m) (-12)

/-- The largest magnitude field. -/
def Taper.top (t : Taper) : Nat := 2 ^ (t.n - 1) - 1

/-- The greatest magnitude field, at most k, whose value is at most (p / q) in units of 2^-12. -/
def taperFloor (t : Taper) (p q : Nat) : Nat → Nat
  | 0 => 0
  | k + 1 => if taperMag t.n t.es (k + 1) * q ≤ p then k + 1 else taperFloor t p q k

/-- The magnitude field to which a positive p / q, in units of 2^-12, rounds (R235). -/
def taperRoundMag (t : Taper) (p q : Nat) : Nat :=
  let lo := taperFloor t p q t.top
  if lo = 0 then 1
  else if lo = t.top then lo
  else
    let twice := (taperMag t.n t.es lo + taperMag t.n t.es (lo + 1)) * q
    if 2 * p < twice then lo else if twice < 2 * p then lo + 1 else if lo % 2 = 0 then lo else lo + 1

/-- The code of (-1)^neg * (p / q) * 2^e (R235). -/
def taperRatio (t : Taper) (neg : Bool) (p q : Nat) (e : Int) : Nat :=
  if p = 0 then 0
  else
    let r := scaleRatio p q (e + 12)
    (if neg then 2 ^ (t.n - 1) else 0) + taperRoundMag t r.1 r.2

/-- NaV (R232). -/
def Taper.nav (t : Taper) : Nat := 2 ^ (t.n - 1)

/-- The code of the quotient of a value and a positive finite value (R150, R235, R241). -/
def taperQuot (t : Taper) (x y : FV) : Nat :=
  match x, y with
  | .nan, _ => t.nav
  | .inf neg, _ => (if neg then 2 ^ (t.n - 1) else 0) + t.top
  | .fin neg m e, .fin b n d => if n = 0 then t.nav else taperRatio t (neg != b) m n (e - d)
  | _, _ => t.nav

/-! ## Lanes -/

/-- Lane l of a payload with lanes of w bits (R230). -/
def lane (p : Payload) (w l : Nat) : Nat := p.toNat / 2 ^ (w * l) % 2 ^ w

/-- A payload from its lanes, lane 0 lowest (R230). -/
def ofLanes (w : Nat) : List Nat → Nat
  | [] => 0
  | x :: xs => x % 2 ^ w + 2 ^ w * ofLanes w xs

/-- Every lane made from its number. -/
def mapLanes (w : Nat) (f : Nat → Nat) : Payload := BitVec.ofNat 256 (ofLanes w ((List.range (256 / w)).map f))

/-- The IEEE format of a TY code: 8 FP16, 9 BF16, 10 FP32 (R35). -/
def fmtOfTy (ty : Nat) : Fmt :=
  match ty with
  | 8 => fp16
  | 9 => bf16
  | _ => fp32

end Sys2Proof.Machine
end

