-- ==== Sys2Proof/Machine/Tensor.lean ====
section
/-! DEFINITION. The tensor identifier table and its instructions, the placing of tensors, conversion into a tensor and
its bound (R238 to R244, R252, R285 to R287). -/

namespace Sys2Proof.Machine

/-! ## Entries -/

/-- An entry of the tensor identifier table: eight 64-bit words (R242). -/
abbrev Tensor := BitVec 512

/-- Word k of an entry. -/
def tWord (t : Tensor) (k : Nat) : Word := t.extractLsb' (64 * k) 64

/-- The fields of R242. -/
def tBase (t : Tensor) : Nat := bits (tWord t 0) 51 0
def tScaleBits (t : Tensor) : Nat := bits (tWord t 1) 63 32
def tBtest (t : Tensor) : Bool := bit (tWord t 1) 27
def tBsto (t : Tensor) : Bool := bit (tWord t 1) 26
def tValid (t : Tensor) : Bool := bit (tWord t 1) 24
def tTheta (t : Tensor) : Int := sxInt 8 (bits (tWord t 1) 23 16)
def tSmode (t : Tensor) : Nat := bits (tWord t 1) 9 8
def tRank (t : Tensor) : Nat := bits (tWord t 1) 6 4
def tFmt (t : Tensor) : Nat := bits (tWord t 1) 3 0
def tDim (t : Tensor) (i : Nat) : Nat := bits (tWord t 2) (16 * i + 15) (16 * i) + 1
def tStride (t : Tensor) (i : Nat) : Nat :=
  match i with
  | 1 => bits (tWord t 3) 31 0
  | 2 => bits (tWord t 3) 63 32
  | _ => bits (tWord t 4) 31 0
def tSbase (t : Tensor) : Nat := bits (tWord t 5) 51 0
def tBbase (t : Tensor) : Nat := bits (tWord t 6) 51 0
def tAmax (t : Tensor) : Nat := bits (tWord t 7) 51 0

/-- T8 or T6. -/
def tTapered (t : Tensor) : Bool := tFmt t == 12 || tFmt t == 13

/-- The tapered format of an entry. -/
def tTaper (t : Tensor) : Taper := if tFmt t = 13 then t6 else t8

/-- Bytes of an element of a format that is not tapered (R239). -/
def fmtSize (f : Nat) : Nat :=
  match f with
  | 0 => 1
  | 10 => 4
  | _ => 2

/-- The IEEE format of a format code. -/
def tIeee (t : Tensor) : Fmt := fmtOfTy (tFmt t)

/-- Bytes of a tile of a tapered tensor (R239). -/
def tileBytes (t : Tensor) : Nat := if tFmt t = 13 then 768 else 1024

/-- The SCALE that values use: 1 without a scale (R238). -/
def tScale (t : Tensor) : FV := if tSmode t = 0 then .fin false 1 0 else fdec fp32 (tScaleBits t)

/-- Whether an FP32 encoding is positive, finite and non-zero (R243). -/
def scaleOk (x : Nat) : Bool := 0 < x && x < 0x7F800000

/-- Whether a reserved bit of an entry is set (R242). -/
def tReserved (t : Tensor) : Bool :=
  bits (tWord t 0) 63 52 != 0 || bits (tWord t 1) 31 28 != 0 || bit (tWord t 1) 25 || bits (tWord t 1) 15 10 != 0 ||
  bit (tWord t 1) 7 || bits (tWord t 4) 63 32 != 0 || bits (tWord t 5) 63 52 != 0 || bits (tWord t 6) 63 52 != 0 ||
  bits (tWord t 7) 63 52 != 0

/-- The status of an image with V = 1: 0, or the lowest that applies (R243, R285). -/
def tStatus (t : Tensor) : Nat :=
  let f := tFmt t
  let fmtOk := f == 0 || f == 8 || f == 9 || f == 10 || f == 12 || f == 13
  let al := if tTapered t then 128 else fmtSize f
  if !fmtOk || tSmode t = 3 || (tSmode t = 2 && !tTapered t) then 1
  else if tRank t < 1 || 4 < tRank t || (List.range 4).any (fun i => tRank t ≤ i && tDim t i != 1) then 2
  else if tTapered t && (tDim t 0 % 32 != 0 || tDim t 1 % 32 != 0) then 3
  else if [1, 2, 3].any (fun i => tStride t i % al != 0) then 4
  else if tBase t % al != 0 || (tBsto t && tBbase t % 4 != 0) || tAmax t % 8 != 0 then 5
  else if tReserved t then 6
  else if tSmode t != 0 && !scaleOk (tScaleBits t) then 7
  else 0

/-- The entry of a context's table; zero where nothing has been written (R242). -/
def tensorOf (s : State) (ctx : BitVec 12) (id : Nat) : Tensor :=
  ((s.tensors.find? fun e => e.1 == (ctx, id)).map Prod.snd).getD 0

/-- Write an entry at the table's coherence point (R288). -/
def setTensor (s : State) (ctx : BitVec 12) (id : Nat) (t : Tensor) : State :=
  { s with tensors :=
      if t = 0 then s.tensors.filter fun e => e.1 != (ctx, id) else upsert (fun e => e.1 == (ctx, id)) ((ctx, id), t) s.tensors }

/-- An entry as the loader or UNSEAL writes it: undefined when V is 0 or a limit is broken (R243). -/
def tChecked (t : Tensor) : Tensor := if tValid t && tStatus t = 0 then t else 0

/-! ## TDEF, TSCALE, TREAD -/

/-- TDEF (R285, R288). -/
def execTdef (d a b : Reg) (s : State) : Result :=
  withUnit s fun u =>
    let id := (s.cpu.reg a).toNat
    let va := s.cpu.reg b
    if id > 1023 then trapOprng s
    else if va.toNat % 64 ≠ 0 then trapMisal s va false false
    else
      match seqLoad s u va.toNat 64 with
      | (s, .fault f) => trapFault s f
      | (s, .wait) => s
      | (s, .bytes bs) =>
        let t : Tensor := BitVec.ofNat 512 (ofBytes bs)
        if !tValid t then (setTensor s u.ctx id 0).updCpu fun c => (c.setReg d 0).next
        else if tStatus t = 0 then (setTensor s u.ctx id t).updCpu fun c => (c.setReg d 0).next
        else s.updCpu fun c => (c.setReg d (BitVec.ofNat 64 (tStatus t))).next

/-- An entry with another SCALE. -/
def tWithScale (t : Tensor) (x : Nat) : Tensor :=
  (t &&& ~~~((0xFFFFFFFF#512) <<< 96)) ||| (BitVec.ofNat 512 (x % 2 ^ 32) <<< 96)

/-- TSCALE (R286, R288). -/
def execTscale (d a b : Reg) (s : State) : Result :=
  withUnit s fun u =>
    let id := (s.cpu.reg a).toNat
    let x := bits (s.cpu.reg b) 31 0
    let t := tensorOf s u.ctx id
    if id > 1023 then trapOprng s
    else if !scaleOk x then s.updCpu fun c => (c.setReg d 7).next
    else if !tValid t then s.updCpu fun c => (c.setReg d 8).next
    else (setTensor s u.ctx id (tWithScale t x)).updCpu fun c => (c.setReg d 0).next

/-- TREAD (R287). -/
def execTread (d a b : Reg) (s : State) : Result :=
  withUnit s fun u =>
    let id := (s.cpu.reg a).toNat
    let k := (s.cpu.reg b).toNat
    if id > 1023 || k > 7 then trapOprng s
    else s.updCpu fun c => (c.setReg d (tWord (tensorOf s u.ctx id) k)).next

/-! ## Placing -/

/-- Tiles along dimensions 0 and 1 (R240). -/
def tTiles0 (t : Tensor) : Nat := (tDim t 0 + 31) / 32
def tTiles1 (t : Tensor) : Nat := (tDim t 1 + 31) / 32

/-- The number of tiles of a tensor. -/
def tTileCount (t : Tensor) : Nat := tTiles0 t * tTiles1 t * tDim t 2 * tDim t 3

/-- The tile coordinates of a tile number (R240). -/
def tileCoords (t : Tensor) (n : Nat) : Nat × Nat × Nat × Nat :=
  (n % tTiles0 t, n / tTiles0 t % tTiles1 t, n / (tTiles0 t * tTiles1 t) % tDim t 2,
   n / (tTiles0 t * tTiles1 t * tDim t 2))

/-- The address of a tile of a tapered tensor (R239). -/
def tileVa (t : Tensor) (n : Nat) : Nat :=
  match tileCoords t n with
  | (c0, c1, c2, c3) => tBase t + c0 * tileBytes t + c1 * tStride t 1 + c2 * tStride t 2 + c3 * tStride t 3

/-- The address of an element of a tensor that is not tapered (R239). -/
def elemVa (t : Tensor) (i0 i1 i2 i3 : Nat) : Nat :=
  tBase t + i0 * fmtSize (tFmt t) + i1 * tStride t 1 + i2 * tStride t 2 + i3 * tStride t 3

/-- The address of a tile's stored bound (R240). -/
def boundVa (t : Tensor) (n : Nat) : Nat := tBbase t + 4 * n

/-- The address of the block exponents of a tile (R240). -/
def blockExpVa (t : Tensor) (n : Nat) : Nat := tSbase t + 32 * n

/-! ## Conversion into a tensor's format -/

/-- A power of two as a value. -/
def pow2 (e : Int) : FV := .fin false 1 e

/-- The code that a value gives in an entry's format, with a block exponent: ROUND of x / (SCALE * 2^e) (R235, R241). -/
def tRound (t : Tensor) (e : Int) (x : FV) : Nat :=
  let sc := vmul (tScale t) (pow2 e)
  if tTapered t then taperQuot (tTaper t) x sc else fdivEnc (tIeee t) .rne x sc

/-- The value of a code, in the value domain (R238). -/
def tValue (t : Tensor) (e : Int) (c : Nat) : FV :=
  let v := if tTapered t then taperDec (tTaper t) c else if tFmt t = 0 then ofIntFV (sxInt 8 c) else fdec (tIeee t) c
  vmul v (vmul (tScale t) (pow2 e))

/-- The greatest magnitude of a list, NaN left out. -/
def maxMag (xs : List FV) : FV := xs.foldl (fun m x => if x = .nan then m else vmax m x.abs) (.fin false 0 0)

/-- The exponent of a block: the smallest e with Mx * 2^-e at most maxT (R241). -/
def blockExp (t : Tensor) (xs : List FV) : Int :=
  let bad := xs.any fun x => match x with
    | .fin _ _ _ => false
    | _ => true
  match maxMag xs, tScale t with
  | .fin _ m a, .fin _ n b =>
    if bad || m = 0 || n = 0 then 0
    else
      let lg : Int := if tFmt t = 13 then 4 else 12
      -- Mx = (m / n) * 2^(a - b); the least e with Mx <= 2^(lg + e)
      let k := log2Ratio m n
      let r := scaleRatio m n (-k)
      let up := if r.1 = r.2 then k else k + 1
      max (-128) (min 127 (up + (a - b) - lg))
  | _, _ => 0

/-- The gap of R252 at the magnitude of an IEEE encoding. -/
def ieeeGap (f : Fmt) (c : Nat) : FV :=
  let m := min (c % f.signBit) f.maxFin
  let ex := m / 2 ^ f.fb
  .fin false 1 (f.minExp + (if ex = 0 then 0 else (ex - 1 : Int)))

/-- The gap of R252 at the magnitude of a code, in units of the format's own codes. -/
def codeGap (t : Tensor) (c : Nat) : FV :=
  if tTapered t then
    let f := tTaper t
    let m := c % 2 ^ (f.n - 1)
    let lo := if m = f.top then m - 1 else m
    .fin false (taperMag f.n f.es (lo + 1) - taperMag f.n f.es lo) (-12)
  else if tFmt t = 0 then .fin false 1 0
  else ieeeGap (tIeee t) c

/-- Whether a value saturates or is raised to the minimum in a tapered entry (R235, R252). -/
def clipped (t : Tensor) (e : Int) (x : FV) : Bool :=
  if !tTapered t then false
  else
    match x with
    | .nan => false
    | .inf _ => true
    | .fin _ m _ =>
      let sc := vmul (tScale t) (pow2 e)
      let f := tTaper t
      m != 0 && (vcmp x.abs (vmul (.fin false (taperMag f.n f.es f.top) (-12)) sc) == 1 ||
                 vcmp x.abs (vmul (.fin false (taperMag f.n f.es 1) (-12)) sc) == -1)

/-- What a conversion of one block gives: its exponent, its codes, and the greatest output magnitude, NaN where an output is
NaN, with its gap and the greatest clipping error (R241, R252). -/
structure Block where
  exp : Int
  codes : List Nat
  top : FV
  gap : FV
  err : FV
  deriving DecidableEq, Repr

/-- Convert a block of values into an entry's format (R150, R241, R252). -/
def convBlock (t : Tensor) (xs : List FV) : Block :=
  let e := if tSmode t = 2 then blockExp t xs else 0
  let codes := xs.map (tRound t e)
  let best := codes.foldl
    (fun (b : Nat) c =>
      let v := tValue t e c
      if v = .nan then b else if vcmp (tValue t e b).abs v.abs == -1 then c else b) 0
  let errs := (xs.zip codes).map fun p =>
    if clipped t e p.1 then (vadd .rne (tValue t e p.2) p.1.negate).abs else .fin false 0 0
  { exp := e, codes := codes, top := if codes.any fun c => tValue t e c == .nan then .nan else (tValue t e best).abs,
    gap := vmul (codeGap t best) (vmul (tScale t) (pow2 e)), err := maxMag errs }

/-- An FP32 sum rounded upward (R249). -/
def upAdd (x y : Nat) : Nat := fenc fp32 .rup (vadd .rup (fdec fp32 x) (fdec fp32 y))

/-- An FP32 product rounded upward; a factor of 0 makes it 0 (R249, R250). -/
def upMul (x y : Nat) : Nat :=
  if (fdec fp32 x).isZero || (fdec fp32 y).isZero then 0 else fenc fp32 .rup (vmul (fdec fp32 x) (fdec fp32 y))

/-- A value rounded upward into FP32. -/
def upConv (x : FV) : Nat := fenc fp32 .rup x

/-- B_out of R252, from the factor |s|, the source bound and the blocks of the output.  An output that overflowed to an
infinity lies above the largest magnitude, where the gap is the one at that magnitude; +∞ where an output is NaN (DEDUCED,
log 34). -/
def boundOut (s : FV) (b : Nat) (bs : List Block) : Nat :=
  let best := bs.foldl (fun (r : FV × FV) x => if vcmp r.1 x.top == -1 || (r.1.isZero && x.top.isZero) then (x.top, x.gap) else r)
    (.fin false 0 0, .fin false 0 0)
  let half := vmul best.2 (pow2 (-1))
  let err := maxMag (bs.map Block.err)
  let sb := if s.isZero || (fdec fp32 b).isZero then 0 else fenc fp32 .rup (vmul s.abs (fdec fp32 b))
  if bs.any fun b => b.top == .nan then fp32.inf else upAdd sb (upConv (vmax half err))

/-- The bits of codes laid end to end, n bits each, little-endian. -/
def packBits (n : Nat) : List Nat → Nat
  | [] => 0
  | c :: cs => c % 2 ^ n + 2 ^ n * packBits n cs

/-- Bits of a code of an entry's format. -/
def codeBits (t : Tensor) : Nat :=
  match tFmt t with
  | 13 => 6
  | 12 => 8
  | f => 8 * fmtSize f

end Sys2Proof.Machine
end

