-- ==== Sys2Proof/Machine/Fabric.lean ====
section
/-! DEFINITION. What every firing of the fabric shares: operands and their tokens, firing modes, room, links, block
instances, emission, sinks, faults, containment (R188 to R218, R271, R297, R317, R322, R388 to R392). -/

namespace Sys2Proof.Machine

/-! ## Operands and modes -/

/-- Whether a word takes operand b from its immediate or from a hold register (R294). -/
def bSupplied (op : Nat) (e : EWord) : Bool :=
  hasB op && op < 0x40 && (e.mod.getLsbD 3 || (e.x.getLsbD 15 && !tLong e.t0 && !tLong e.t1))

/-- The operands that the entry of an opcode waits on, the gate apart (R195, R300, R303, R305 to R329, R340, R354). -/
def entryWaits (op : Nat) (e : EWord) : List Opd :=
  if [0x04, 0x23, 0x29].contains op then (if bSupplied op e then [.a, .c] else [.a, .b, .c])
  else if op < 0x40 then (if hasB op && !bSupplied op e then [.a, .b] else [.a])
  else if op = 0x43 || op = 0x73 || (op = 0x74 && e.mod == 7) then [.a, .b, .c]
  else if [0x41, 0x44, 0x45, 0x46, 0x50, 0x51, 0x52, 0x54, 0x55, 0x71, 0x72, 0x74, 0x82, 0x90, 0x95].contains op then [.a, .b]
  else if op = 0x5A then (if e.mod == 0 then [.a, .b] else [.a])
  else if op = 0x81 then (if e.mod.getLsbD 2 && e.mod.getLsbD 3 then [.a, .b, .c] else [.a, .b])
  else if op = 0xF0 then []
  else [.a]

/-- The operands that a slot waits on, the gate with them (R195, R297). -/
def slotWaits (n : Node) (slot op : Nat) (e : EWord) : List Opd :=
  entryWaits op e ++ if n.gated.contains slot then [.g] else []

/-- The oldest token of a key on an operand of a slot (R196). -/
def headOf (n : Node) (slot : Nat) (key : Key) (o : Opd) : Option Held :=
  minBy Held.arr (n.store.filter fun h => h.slot == slot && h.opd == o && h.tok.key == key)

/-- The tokens that a firing would take. -/
def headsOf (n : Node) (slot op : Nat) (e : EWord) (key : Key) : List Held :=
  (slotWaits n slot op e).filterMap (headOf n slot key)

/-- How a firing goes (R206, R208, R209, R297). -/
inductive Mode where
  | fire | cancel | ends | eeos | mixed | quiet
  deriving DecidableEq, Repr

/-- The mode of a firing that takes these tokens. -/
def modeOf (hs : List Held) : Mode :=
  let ks := hs.map fun h => h.tok.kind
  if ks.contains .eeos then .eeos
  else if ks.contains .cancel then .cancel
  else if ks.contains .eos then (if ks.all (· == .eos) then .ends else .mixed)
  else if hs.any fun h => h.opd == .g && !h.tok.payload.getLsbD 0 then .quiet
  else .fire

/-- The kind that a firing in another mode emits. -/
def Mode.kind : Mode → Kind
  | .cancel => .cancel
  | .ends => .eos
  | .fire => .data
  | _ => .eeos

/-- A firing: the node and graph, its slot and word, its key and the tokens it takes. -/
structure Firing where
  n : Node
  g : Graph
  slot : Nat
  op : Nat
  w : EWord
  key : Key
  heads : List Held
  deriving DecidableEq, Repr

/-- The token that a firing takes on an operand. -/
def Firing.tok (f : Firing) (o : Opd) : Option Token := (f.heads.find? fun h => h.opd == o).map Held.tok

/-- The payload on an operand. -/
def Firing.pay (f : Firing) (o : Opd) : Payload := ((f.tok o).map Token.payload).getD 0

/-- The SEQ of the output: that of operand a, or of the only operand (R196). -/
def Firing.seq (f : Firing) : BitVec 8 :=
  match f.tok .a with
  | some t => t.seq
  | none => (f.heads.head?.map fun h => h.tok.seq).getD 0

/-- The output token of a firing with a payload (R196). -/
def Firing.token (f : Firing) (p : Payload) : Token := { key := f.key, seq := f.seq, kind := .data, payload := p }

/-- The same token on both outputs (R293). -/
def both (t : Token) : List (Nat × Token) := [(0, t), (1, t)]

/-- Whether a token on an operand of a node stands behind a RECONF token that still passes the graph: it came on a source
stream after RECONF had (R172).  Inside the graph nothing is behind it, since what the nodes make comes of tokens ahead. -/
def behindReconf (g : Graph) (n : Node) (h : Held) : Bool :=
  g.reconf.isSome &&
  match h.src with
  | .stream _ => n.reconfs.any fun r => r.1 == h.src && r.2 ≤ h.arr
  | .slot _ _ _ => false

/-- What a firing emits when it does nothing else in its mode (R206, R208, R209). -/
def Firing.plain (f : Firing) (m : Mode) : List (Nat × Token) :=
  if m = .quiet then [] else both { f.token 0 with kind := m.kind }

/-! ## Room -/

/-- The entries of an output's buffer (R202, R219 to R221). -/
def depthOf (n : Node) (slot out : Nat) : Nat :=
  if isElemNode n.ref then ((n.depths.find? fun d => d.1 == slot && d.2.1 == out).map fun d => d.2.2).getD 2 else 16

/-- The entries of a buffer in use. -/
def usedOf (n : Node) (slot out : Nat) : Nat := n.outs.countP fun o => o.slot == slot && o.out == out && o.tok.kind.counted

/-- Whether each output with a valid target has a free entry (R197). -/
def roomOk (s : State) (n : Node) (slot op : Nat) (w : EWord) : Bool :=
  [0, 1].all fun o => (wordConsumers s n op w o).isEmpty || usedOf n slot o < depthOf n slot o

/-! ## Blocks -/

/-- The node that names the block of a node's tile (R214). -/
def blockNode (r : NodeRef) : NodeRef :=
  let t := tileOfNode r.id
  elemNode r.die t.1 t.2 0

/-- Whether a node's firings belong to its tile's block. -/
def inTileBlock (r : NodeRef) : Bool := isElemNode r || isCombNode r

/-- The BLKX slots of a tile: element and slot (R214). -/
def blkxSlots (s : State) (r : NodeRef) : List (Nat × Nat) :=
  let b := blockNode r
  (List.range 4).flatMap fun e =>
    match nodeOf s { die := b.die, id := b.id + e } with
    | some n => (List.range 32).filterMap fun k => if n.opAt k = 0x5B then some (e, k) else none
    | none => []

/-- Whether a node's firings belong to a block (R214, R323). -/
def hasBlock (s : State) (r : NodeRef) : Bool := inTileBlock r && !(blkxSlots s r).isEmpty

/-- The instance of a node and key that is still firing. -/
def openInstance (s : State) (r : NodeRef) (key : Key) : Option Instance :=
  s.instances.find? fun i => i.blk == { node := blockNode r, key := key } && !i.exited

/-- Change that instance. -/
def updInstance (s : State) (r : NodeRef) (key : Key) (f : Instance → Instance) : State :=
  { s with instances := mapFirst (fun i => i.blk == { node := blockNode r, key := key } && !i.exited) f s.instances }

/-- The pool entry of an ITER (R211). -/
def poolOf (g : Graph) (iter : BitVec 16) : Option PoolEntry := g.pool.find? fun e => e.iter == iter

/-- Whether one pool entry comes before another in wave order: an earlier iteration of its activation (R216). -/
def PoolEntry.before (a b : PoolEntry) : Bool := a.loop == b.loop && a.parent == b.parent && a.ordinal < b.ordinal

/-- Whether every iteration before a place in wave order has ended (R216). -/
def waveClear (g : Graph) (w : Option PoolEntry) : Bool := w.elim true fun b => !(g.pool.any fun a => a.before b)

/-- Whether every earlier iteration of an ITER's activation has ended (R216). -/
def waveFirst (g : Graph) (x : BitVec 16) : Bool := waveClear g (poolOf g x)

/-- The nodes whose firings share the instances of a node: those of its tile where it holds a block (R214, R317). -/
def blockNodes (s : State) (r : NodeRef) : List NodeRef :=
  if hasBlock s r then
    let t := tileOfNode r.id
    combNode r.die t.1 t.2 :: (List.range 4).map (elemNode r.die t.1 t.2)
  else [r]

/-- Whether containment has begun before an instance of this node and ITER (R391). -/
def contained (s : State) (g : Graph) (r : NodeRef) (iter : BitVec 16) : Bool :=
  g.sealing.any fun c =>
    (match c.wave, poolOf g iter with
     | some a, some b => a.before b
     | _, _ => false) && (blockNodes s r).any fun m => (subgraphOf s g c.node).contains m

/-- An empty instance. -/
def newInstance (blk : BlockRef) (handle : Nat) (exc : Bool) : Instance :=
  { soft := !exc, blk := blk, handle := handle, fired := [], exited := false, exc := exc, faults := [], consumed := [], atoms := [],
    stores := [], result := [], ahead := [], replay := false }

/-- Whether a firing performs no access because its instance has its exception bit set (R215, R391). -/
def excepted (s : State) (f : Firing) : Bool :=
  contained s f.g f.n.ref f.key.iter || (hasBlock s f.n.ref && (openInstance s f.n.ref f.key).elim false Instance.exc)

/-- Whether the outputs of a firing stay in its tile: its instance has its exception bit set.  Where SMISM alone has set it, EEOS
carries on (R208, R215, R383). -/
def muted (s : State) (f : Firing) (m : Mode) : Bool :=
  excepted s f &&
  !((m == .eeos || m == .mixed) && !contained s f.g f.n.ref f.key.iter &&
    (openInstance s f.n.ref f.key).elim false Instance.soft)

/-! ## Faults and containment -/

/-- A fault of a firing: fabric code, cause, AUX and address (R383, R389). -/
structure FabFault where
  code : Nat
  cause : Nat
  aux : Nat
  addr : Nat
  deriving DecidableEq, Repr

/-- The fabric fault of a fault of an access. -/
def FaultInfo.fab (x : FaultInfo) : FabFault := { code := x.fabricCode, cause := x.cause, aux := 0, addr := x.addr }

/-- A fault with a code alone. -/
def fabCode (c : Nat) : FabFault := { code := c, cause := 0, aux := 0, addr := 0 }

/-- The codes that contain the connected subgraph (R383). -/
def containsSubgraph (code : Nat) : Bool := [0x20, 0x21, 0x22, 0x23, 0x24, 0x26, 0x27, 0x28].contains code

/-- Whether a node has been sealed (R392). -/
def isSealed (s : State) (r : NodeRef) : Bool := (nodeOf s r).elim false Node.sealed

/-- A FAULT token starts to climb, and containment begins (R388, R391); a fault inside a sealed subgraph sends no
record (R392). -/
def raiseRec (s : State) (gid : Nat) (r : NodeRef) (key : Key) (x : FRec) (contain : Bool) : State :=
  if isSealed s r then s
  else
    let s := climb s gid x
    if contain then setGraph s gid fun g => { g with sealing := g.sealing ++ [{ node := r, key := key, wave := poolOf g key.iter }] } else s

/-- The record of a fault of a slot. -/
def recOf (r : NodeRef) (slot : Nat) (key : Key) (x : FabFault) : FRec := mkRec key x.code x.cause x.aux slot r.id x.addr

/-- A fault that is exact at its firing (R214, R322). -/
def raiseExact (s : State) (f : Firing) (x : FabFault) : State :=
  raiseRec s f.g.gid f.n.ref f.key (recOf f.n.ref f.slot f.key x) (containsSubgraph x.code)

/-- A fault of a firing: it sets the instance's exception bit, or is exact (R215, R322). -/
def raiseFault (s : State) (f : Firing) (x : FabFault) : State :=
  if hasBlock s f.n.ref then
    updInstance s f.n.ref f.key fun i =>
      { i with exc := true, soft := i.soft && x.code == 0x25, faults := i.faults ++ [recOf f.n.ref f.slot f.key x] }
  else raiseExact s f x

/-! ## Overflow tables -/

/-- The number of overflow arrays of a partition (R199, R404). -/
def ovfCount (s : State) (part : Nat) : Nat := bits (partOf s part).pctl 13 8 + 1

/-- The set of an overflow table for an entry (R199). -/
def ovfSet (s : State) (part id : Nat) (key : Key) : Nat :=
  (((id ^^^ key.iter.toNat) ^^^ (key.path.toNat * 256)) ^^^ (key.ctx.toNat * 16)) % (64 * ovfCount s part)

/-- The entries of a set in use by a partition: spilled tokens, spilled stores and spilled entries of instance logs (R199, R217,
R397). -/
def ovfUsed (s : State) (part set : Nat) : Nat :=
  let mine := fun (ctx : BitVec 12) => (partOf s part).hasCtx ctx.toNat
  ((s.nodes.filter fun n => mine n.ctx).map fun n =>
    n.store.countP fun h => h.spilled && ovfSet s part n.ref.id h.tok.key == set).sum +
  ((s.instances.filter fun i => mine i.blk.key.ctx).map fun i =>
    (i.stores.countP fun h => h.spilled && ovfSet s part h.node.id i.blk.key == set) +
      i.spills.countP fun id => ovfSet s part id i.blk.key == set).sum

/-- Whether an entry finds a place in the overflow table (R199, R200). -/
def ovfRoom (s : State) (part id : Nat) (key : Key) : Bool := ovfUsed s part (ovfSet s part id key) < 16

/-- The oldest spilled tokens of a node move back while its store has room (R198). -/
def unspill (n : Node) : Node :=
  let free := 64 - n.store.countP fun h => !h.spilled
  let back := (sortBy (fun x y => x.arr ≤ y.arr) (n.store.filter Held.spilled)).take free
  { n with store := n.store.map fun h => if back.contains h then { h with spilled := false } else h }

/-! ## Stores held for commit -/

/-- The translation holder of a held store: the AGN stream of its element, stream 3 of the tile for a comb node, the
sink stream, or the tile-store port of an island (R63, R316, R344, R357). -/
def holderAt (r : NodeRef) : Holder :=
  let t := tileOfNode r.id
  if isElemNode r then .agn { die := r.die, x := t.1, y := t.2, str := r.id % 4 }
  else if isCombNode r then .agn { die := r.die, x := t.1, y := t.2, str := 3 }
  else if isConvNode r then .agn { die := r.die, x := t.1, y := t.2, str := 0 }
  else .island r 2

/-- The holder that translates a held store. -/
def HeldStore.holder (h : HeldStore) : Holder :=
  match h.stream with
  | some r => .agn r
  | none => holderAt h.node

/-- Whether an entry among an instance's stores is the place of a FENCEE, which takes no room (R165, R217). -/
def HeldStore.isFence (h : HeldStore) : Bool := h.bytes.isEmpty && h.row.isNone

/-- Whether a token that an instance of a block has consumed came from outside its tile: one from inside is made again when the
instance fires again (R397). -/
def fromOutside (b : NodeRef) (h : Held) : Bool :=
  match h.src with
  | .slot n _ _ => blockNode n != b || !inTileBlock n
  | .stream _ => true

/-- The entries of an instance's log: the operands that came to it from outside its tile, and the values of its AMOE and .sc
firings (R397). -/
def Instance.logSize (i : Instance) : Nat :=
  (i.consumed.countP fun c => fromOutside i.blk.node c.2) + i.atoms.length + i.ahead.length

/-- The store-queue entries of a tile in use, by stores and by instance logs (R189, R217, R397). -/
def queueUsed (s : State) (r : NodeRef) : Nat :=
  ((s.instances.filter fun i => i.blk.node == blockNode r && !i.released).map fun i =>
    (i.stores.countP fun h => !h.spilled && !h.isFence) + (i.logSize - i.spills.length)).sum

/-- The entries that a firing adds to its instance's log (R397). -/
def Firing.logs (f : Firing) : Nat :=
  (f.heads.countP (fromOutside (blockNode f.n.ref))) +
  if f.op == 0x74 || ([0x70, 0x71, 0x75].contains f.op && (f.w.x.extractLsb' 5 3) == 4#3) then 1 else 0

/-- The stores of a firing of a node with no block are released when it fires and performed after (R214, R271): they stand
as an instance of their own until then. -/
def releaseStores (s : State) (f : Firing) (hs : List HeldStore) : State :=
  let i := newInstance { node := f.n.ref, key := f.key } f.g.handle false
  { s with instances := s.instances ++ [{ i with exited := true, stores := hs, released := true }] }

/-- A store enters the AGN store queue of the instance of a firing, or the overflow table; when that set is full the
instance gets FSPILL (R217). -/
def holdStore (s : State) (f : Firing) (h : HeldStore) : State :=
  let add := fun (s : State) (sp : Bool) =>
    updInstance s f.n.ref f.key fun i => { i with stores := i.stores ++ [{ h with spilled := sp }] }
  if queueUsed s f.n.ref + (if hasBlock s f.n.ref then f.logs else 0) < 64 then add s false
  else if ovfRoom s f.g.part h.node.id f.key then add s true
  else raiseFault s f (fabCode 0x24)

/-- A firing's entries of the instance log find their places: in the store queue, past its 64 entries in the overflow table, and
where that set is full the instance gets FSPILL (R217, R397). -/
def reserveLog (s : State) (f : Firing) : State :=
  let more := f.logs - (64 - queueUsed s f.n.ref)
  if more = 0 then s
  else if ovfUsed s f.g.part (ovfSet s f.g.part f.n.ref.id f.key) + more ≤ 16 then
    updInstance s f.n.ref f.key fun i => { i with spills := i.spills ++ List.replicate more f.n.ref.id }
  else if (openInstance s f.n.ref f.key).elim false Instance.exc then s
  else raiseFault s f (fabCode 0x24)

/-- The instance of a firing exists, where the tile holds a block, with room for what the firing logs (R214, R391, R397). -/
def ensureInstance (s : State) (f : Firing) : State :=
  if !hasBlock s f.n.ref then s
  else
    let exc := contained s f.g f.n.ref f.key.iter
    let room := fun (s : State) => reserveLog s f
    room <| match openInstance s f.n.ref f.key with
    | some _ => updInstance s f.n.ref f.key fun i => { i with replay := false, exc := i.exc || exc, soft := i.soft && !exc }
    | none =>
      { s with instances := s.instances ++ [newInstance { node := blockNode f.n.ref, key := f.key } f.g.handle exc] }

/-! ## Sinks -/

/-- The sink streams that tap a slot (R270). -/
def sinksAt (s : State) (r : NodeRef) (slot : Nat) : List Stream :=
  s.streams.filter fun t => t.sink && !t.ended && t.dst.node == r && t.dst.slot == slot

/-- What a sink does when it has taken a data token (R271). -/
def Stream.took (t : Stream) : Stream := { t with sent := t.sent + 1, ended := t.ended || t.sent + 1 == t.total }

/-- The store by which a sink takes a data token of a slot (R271). -/
def sinkStore (r : NodeRef) (slot : Nat) (t : Stream) (p : Payload) : HeldStore :=
  { slot := slot, node := r, va := t.va t.sent, spilled := false, parts := [], bytes := toBytes 32 p.toNat, ord := 0, scope := 1,
    stream := some t.ref, row := none }

/-- A sink takes a data token: a store of the emitting instance, or one that a node with no block releases (R271). -/
def sinkData (s : State) (f : Firing) (t : Stream) (p : Payload) : State :=
  let h := sinkStore f.n.ref f.slot t p
  let put := fun (s : State) (h : HeldStore) => if hasBlock s f.n.ref then holdStore s f h else releaseStores s f [h]
  let taken := fun (s : State) => setStream s t.ref Stream.took
  if excepted s f then taken s
  else
    match translate s (.agn t.ref) t.ctx t.part t.ref.die h.va 32 true false false with
    | (s, .fault x) => taken (raiseFault s f x.fab)
    | (s, .ok ps) => taken (put s { h with parts := ps })
    | (s, .wait) => taken (put s h)

/-- A sink is given a token that its tapped slot emits on T0 (R271, R398). -/
def sinkTake (f : Firing) (tok : Token) (s : State) (t : Stream) : State :=
  match tok.kind with
  | .data => sinkData s f t tok.payload
  | .eos => setStream s t.ref fun t => { t with ended := true }
  | .eeos => setStream s t.ref fun t => { t with ended := true, err := true }
  | .mark => setStream s t.ref fun t => { t with marked := true }
  | _ => s

/-! ## Emission -/

/-- Whether a destination lies in the tile of a node. -/
def inTile (r d : NodeRef) : Bool := d.id < 6144 && r.id < 6144 && d.die == r.die && tileOfNode d.id == tileOfNode r.id

/-- One token leaves on one output, and each sink that taps it takes it so; where it is local it goes to targets in
the tile alone (R203, R215, R271). -/
def emitTo (take : Token → State → Stream → State) (f : Firing) (loc : Bool) (s : State) (x : Nat × Token) : State :=
  let ds := (wordConsumers s f.n f.op f.w x.1).filter fun d => !loc || inTile f.n.ref d.node
  let s :=
    if ds.isEmpty then s
    else setNode s f.n.ref fun n => { n with outs := n.outs ++ [{ slot := f.slot, out := x.1, tok := x.2, pend := ds }] }
  if x.1 = 0 && !tV f.w.t0 then (sinksAt s f.n.ref f.slot).foldl (take x.2) s else s

/-- One token of a firing leaves on one output. -/
def emitOne (f : Firing) (loc : Bool) (s : State) (x : Nat × Token) : State := emitTo (sinkTake f) f loc s x

/-- Tokens leave in order. -/
def emitAll (s : State) (f : Firing) (loc : Bool) (outs : List (Nat × Token)) : State := outs.foldl (emitOne f loc) s

/-! ## Taking tokens -/

/-- The EEOS of a firing discards the other operands up to their ends (R209). -/
def dropOthers (n : Node) (slot : Nat) (key : Key) (o : Opd) : Node :=
  let mine := sortBy (fun x y => x.arr ≤ y.arr) (n.store.filter fun h => h.slot == slot && h.opd == o && h.tok.key == key)
  let isEnd := fun (h : Held) => h.tok.kind == .eos || h.tok.kind == .eeos
  let gone := mine.takeWhile (fun h => !isEnd h) ++ (mine.find? isEnd).toList
  let n := { n with store := n.store.filter fun h => !gone.contains h }
  if mine.any isEnd then n else { n with drops := n.drops ++ [{ slot := slot, key := key, opds := [o] }] }

/-- A firing takes its tokens; the instance logs them (R196, R198, R209, R397). -/
def takeTokens (s : State) (f : Firing) (m : Mode) : State :=
  let s := setNode s f.n.ref fun n => unspill { n with store := n.store.filter fun h => !(f.heads.any fun x => x.arr == h.arr) }
  let s :=
    if m = .eeos then
      let others := (slotWaits f.n f.slot f.op f.w).filter fun o =>
        !(f.heads.any fun h => h.opd == o && (h.tok.kind == .eos || h.tok.kind == .eeos))
      setNode s f.n.ref fun n => unspill (others.foldl (fun n o => dropOthers n f.slot f.key o) n)
    else s
  if hasBlock s f.n.ref then
    updInstance s f.n.ref f.key fun i => { i with consumed := i.consumed ++ f.heads.map fun h => (f.n.ref, h) }
  else s

/-! ## Exit -/

/-- An instance leaves; a discarded one sends its FAULT tokens (R215, R216). -/
def dropInstance (s : State) (i : Instance) : State := { s with instances := s.instances.erase i }

/-- A BLKX has fired: when every BLKX of the tile has, the instance exits, and one with its exception bit set is
discarded (R214, R215). -/
def markExit (s : State) (f : Firing) : State :=
  match openInstance s f.n.ref f.key with
  | none => s
  | some i =>
    let fired := i.fired ++ [(f.n.ref.id % 4, f.slot)]
    if !((blkxSlots s f.n.ref).all fired.contains) then updInstance s f.n.ref f.key fun i => { i with fired := fired }
    else if i.exc then
      let s := i.faults.foldl (fun s x => raiseRec s f.g.gid { die := f.n.ref.die, id := x.node } f.key x (containsSubgraph x.code)) s
      dropInstance s i
    else updInstance s f.n.ref f.key fun i => { i with fired := fired, exited := true }

/-! ## Links (R317) -/

/-- Whether an opcode stands in a chain of links: the memory words, and the comb words that have a link. -/
def isLinkOp (op : Nat) : Bool := (0x70 ≤ op && op ≤ 0x75) || op == 0xA2 || op == 0xA3

/-- The count record of a slot and key. -/
def linkOf (n : Node) (slot : Nat) (key : Key) : Link :=
  (n.links.find? fun l => l.slot == slot && l.key == key).getD { slot := slot, key := key, fired := 0, performed := 0 }

/-- Change the count record of a slot and key. -/
def updLink (s : State) (r : NodeRef) (slot : Nat) (key : Key) (f : Link → Link) : State :=
  setNode s r fun n => { n with links := upsert (fun l => l.slot == slot && l.key == key) (f (linkOf n slot key)) n.links }

/-- How many firings of a slot and key have stores released and still to be performed (R214). -/
def releasedFirings (s : State) (r : NodeRef) (slot : Nat) (key : Key) : Nat :=
  s.instances.countP fun i =>
    i.released && i.blk == { node := r, key := key } && i.stores.any fun h => h.slot == slot && h.stream.isNone

/-- A memory firing has fired: it has been performed or held, has fired quiet or in cancel mode, or has faulted; one whose
stores a node with no block has released counts as performed when they are. -/
def markLink (s : State) (f : Firing) : State :=
  if !isLinkOp f.op then s
  else
    updLink s f.n.ref f.slot f.key fun l =>
      { l with fired := l.fired + 1, performed := l.fired + 1 - releasedFirings s f.n.ref f.slot f.key }

/-- Whether the predecessor of a firing has been performed for its key. -/
def linkReady (s : State) (n : Node) (slot op : Nat) (w : EWord) (key : Key) : Bool :=
  if !isLinkOp op || !w.x.getLsbD 15 then true
  else
    let b := blockNode n.ref
    match nodeOf s { die := b.die, id := b.id + (w.x.extractLsb' 13 2).toNat } with
    | some p => (linkOf n slot key).fired < (linkOf p (w.x.extractLsb' 8 5).toNat key).performed
    | none => false

/-! ## Firings that reach several places of memory -/

/-- The order and scope of a memory word (R316). -/
def memOrd (w : EWord) : BitVec 3 := w.x.extractLsb' 5 3
def memScope (w : EWord) : BitVec 3 := w.x.extractLsb' 2 3

/-- The owner of an access of a firing. -/
def Firing.owner (f : Firing) : ElemOwner := { node := f.n.ref, slot := f.slot, key := f.key, seq := f.seq }

/-- An access of a firing, performed whole; its dest is the graph's handle, which picks its station (R169). -/
def Firing.access (s : State) (f : Firing) (k : AccKind) (n va : Nat) (parts : List Part) (data : BitVec 256) (cmp : Word) :
    Access :=
  { id := s.nextAcc, q := s.cur, elem := some f.owner, ctx := f.g.ctx, part := f.g.part, die := f.n.ref.die, kind := k,
    dest := f.g.handle, n := n, va := va, parts := parts, data := data, cmp := cmp, ord := memOrd f.w,
    scope := memScope f.w, counted := false, unpaid := [], ringed := isSc (memOrd f.w), left := parts }

/-- The site of a firing. -/
def Firing.site (f : Firing) : Site := { node := f.n.ref, slot := f.slot, key := f.key }

/-! ## The order of the accesses to a quad whose rows a graph reads or writes (R95, R96)

CLOADCTX and CSAVECTX of a graph are performed in the order of their instances' commits among its accesses to the quad.  Between
instances that no wave order ranks, what has been performed first decides which commits first. -/

/-- The block whose instance a firing at a site belongs to. -/
def Site.block (x : Site) : BlockRef := { node := blockNode x.node, key := x.key }

/-- What the firings under way of a block have reached. -/
def partialTouches (s : State) (b : BlockRef) : List Touch := (s.partials.filter fun x => x.site.block == b).flatMap Partial.touches

/-- The instances of a graph that have not committed, with what their firings under way have reached; a firing under way of
which no instance is there yet counts as one. -/
def uncommitted (s : State) (g : Graph) : List Instance :=
  let have_ := s.instances.filter fun i => !i.released && i.blk.key.ctx == g.ctx && i.handle == g.handle && i.blk.node.die == g.die
  let at_ := (s.partials.filter fun x => x.touches != [] && ((nodeOf s x.site.node).elim false fun n => n.ctx == g.ctx && n.handle == g.handle)).map
    fun x => x.site.block
  let new := (at_.eraseDups.filter fun b => !(have_.any fun i => i.blk == b && !i.exited)).map fun b => newInstance b g.handle false
  (have_ ++ new).map fun i => if i.exited then i else { i with touched := i.touched ++ partialTouches s i.blk }

/-- The quads that a held store reaches when it is performed. -/
def HeldStore.quads (s : State) (g : Graph) (h : HeldStore) : List (Nat × Nat × Nat) :=
  match h.row with
  | some r => [quadOf r.1]
  | none => partQuads s h.node.die g.part (fun p => allocatable p.leaf p.pa && !isStrong .store h.ord h.scope) h.parts

/-- Whether an instance still holds an access to a quad that is ordered against one of a row there, or against any where it is
itself one of a row. -/
def Instance.holdsIn (s : State) (g : Graph) (i : Instance) (q : Nat × Nat × Nat) (row : Bool) : Bool :=
  i.stores.any fun h => (row || h.row.isSome) && (h.quads s g).contains q

/-- Whether what has been performed makes one instance commit before another: it has reached a quad before the other, which has
reached it since or has still to do so, and one of the two accesses is one of a row. -/
def commitsFirst (s : State) (g : Graph) (a b : Instance) : Bool :=
  a.touched.any fun x =>
    (b.touched.any fun y => x.quad == y.quad && (x.row || y.row) && x.at_ < y.at_) || b.holdsIn s g x.quad x.row

/-- The instance of a firing as it stands, or an empty one. -/
def firingInstance (s : State) (f : Firing) : Instance :=
  let b := f.site.block
  ((uncommitted s f.g).find? fun i => i.blk == b && !i.exited).getD (newInstance b f.g.handle false)

/-- The touches that an access to quads makes now. -/
def touchNow (s : State) (qs : List (Nat × Nat × Nat)) (row : Bool) : List Touch := qs.map fun q => { quad := q, row := row, at_ := s.tick }

/-- Whether an access of a firing to quads, one of a row or another, must wait: its instance would have to commit both before
and after another; an earlier instance of its block comes first, and a firing with no block commits as it fires. -/
def rowWait (s : State) (f : Firing) (qs : List (Nat × Nat × Nat)) (row : Bool) : Bool :=
  let b := f.site.block
  let me := firingInstance s f
  let me := { me with touched := me.touched ++ touchNow s qs row }
  (uncommitted s f.g).any fun y =>
    (y.exited || y.blk != b) && (commitsFirst s f.g y me || y.blk == b) && (!hasBlock s f.n.ref || commitsFirst s f.g me y)

/-- Whether stores of a graph that have been released to a quad are still to be performed. -/
def releasedIn (s : State) (g : Graph) (q : Nat × Nat × Nat) : Bool :=
  s.instances.any fun i => i.released && i.blk.key.ctx == g.ctx && i.handle == g.handle && i.holdsIn s g q true

/-- The quads among those whose rows its graph reads or writes that an access of a firing reaches. -/
def rowQuads (s : State) (f : Firing) (ps : List Part) : List (Nat × Nat × Nat) :=
  (quadsOf s (f.access s (.load false) 0 0 ps 0 0)).filter (combQuads s f.g).contains

/-- Whether an access that a firing is to perform at once must wait for the row writes and row reads of other instances in a
quad that it reaches: those of earlier waves, and those that it may not come between (R95, R96). -/
def behindRows (s : State) (f : Firing) (ps : List Part) : Bool :=
  let qs := rowQuads s f ps
  qs != [] && ((hasBlock s f.n.ref && !waveFirst f.g f.key.iter) || rowWait s f qs false)

/-- Whether a word on a row of an array must wait to perform its access: for the instances that commit before its own, and for
stores that the graph has released (R95, R96). -/
def rowHeld (s : State) (f : Firing) (r : ArrayRef) : Bool :=
  (hasBlock s f.n.ref && !waveFirst f.g f.key.iter) || rowWait s f [quadOf r] true || releasedIn s f.g (quadOf r)

/-- The instance of a firing has reached quads. -/
def noteTouch (s : State) (f : Firing) (qs : List (Nat × Nat × Nat)) (row : Bool) : State :=
  if qs = [] || !hasBlock s f.n.ref then s
  else { updInstance s f.n.ref f.key (fun i => { i with touched := i.touched ++ touchNow s qs row }) with tick := s.tick + 1 }

/-- The tensor entry that a firing under way has read: its first reading stays (R244). -/
def entryOf (s : State) (f : Firing) (id : Nat) : Tensor :=
  ((s.partials.filter fun x => x.site == f.site).findSome? fun x =>
    match x.got with
    | .entry i t => if i = id then some t else none
    | _ => none).getD (tensorOf s f.g.ctx id)

/-- A firing that waits keeps the tensor entry that it has read (R244). -/
def keepEntry (f : Firing) (id : Nat) (s : State) : State :=
  let x : Partial := { site := f.site, holder := holderAt f.n.ref, again := false, va := id, n := 0, got := .entry id (entryOf s f id) }
  { s with partials := (s.partials.filter fun y => y != x) ++ [x] }

/-- What a place has read in part. -/
def Reached.reading : Reached → Option Reading
  | .under r => some r
  | _ => none

/-- A firing reaches one place of memory: a store is translated, a load is admitted and performed, in its parts where it has
several; what it comes to is kept until the firing ends, so that the firing goes on from there.  None means that it waits
(R61, R64, R112). -/
def reachPlace (f : Firing) (h : Holder) (again : Bool) (va n : Nat) (write : Bool)
    (load : State → List Part → State × List Byte) (s : State) : State × Option Reached :=
  let here := fun (x : Partial) => x.site == f.site && x.holder == h && x.again == again && x.va == va && x.n == n
  let keep := fun (s : State) (x : Reached) (ts : List Touch) =>
    { s with
      partials := (s.partials.filter fun y => !here y) ++
        [{ site := f.site, holder := h, again := again, va := va, n := n, got := x,
           touches := ((s.partials.find? here).elim [] Partial.touches) ++ ts }]
      tick := s.tick + ts.length }
  let got := (s.partials.find? here).map Partial.got
  match got.filter fun x => x.reading.isNone with
  | some x => (s, some x)
  | none =>
    match translate s h f.g.ctx f.g.part f.n.ref.die va n write false false with
    | (s, .wait) => (s, none)
    | (s, .fault x) => (keep s (.fault x) [], some (.fault x))
    | (s, .ok ps) =>
      if (!write || !hasBlock s f.n.ref) && behindRows s f ps then (s, none)
      else if write then (keep s (.parts ps) [], some (.parts ps))
      else
        let under := Reading.same va n ps (got.bind Reached.reading)
        match (if under.isSome then (s, true) else admitLines s h f.g.ctx f.g.part f.n.ref.die va ps) with
        | (s, false) => (s, none)
        | (s, true) =>
          let ts := touchNow s (rowQuads s f ps) false
          match (under.getD (Reading.start va n ps)).goOn load s with
          | (s, _, some bs) => (keep s (.bytes bs) ts, some (.bytes bs))
          | (s, r, none) => (keep s (.under r) ts, none)

/-- What a firing has reached goes with it; its instance knows which quads. -/
def dropPartials (s : State) (f : Firing) : State :=
  let ts := (s.partials.filter fun x => x.site == f.site).flatMap Partial.touches
  let s := { s with partials := s.partials.filter fun x => x.site != f.site }
  if ts = [] || !hasBlock s f.n.ref then s else updInstance s f.n.ref f.key fun i => { i with touched := i.touched ++ ts }

/-! ## The end of a firing -/

/-- A firing ends: its tokens are taken, its outputs leave, where they are local only within the tile, a BLKX marks the
exit, ended iterations are freed (R196, R197, R210, R214). -/
def endFiringAt (s : State) (f : Firing) (m : Mode) (loc : Bool) (outs : List (Nat × Token)) : State :=
  let s := markLink (takeTokens (dropPartials s f) f m) f
  let s := emitAll s f loc outs
  let s := if f.op = 0x5B then markExit s f else s
  settle (endIterations s f.g)

/-- A firing ends with outputs that leave its tile unless its instance has its exception bit set (R215, R383). -/
def endFiring (s : State) (f : Firing) (m : Mode) (outs : List (Nat × Token)) : State :=
  endFiringAt s f m (muted s f m) outs

/-- A firing ends in a fault: zero payloads to the targets in the tile where a block holds it, EEOS from a converter.
With no block a TRAPE emits its zero payload to the targets in the tile, any other word nothing (R322, R323, R329). -/
def endFault (s : State) (f : Firing) (x : FabFault) : State :=
  let s := raiseFault s f x
  if hasBlock s f.n.ref then endFiring s f .fire (both (f.token 0))
  else if isConvNode f.n.ref then endFiring s f .fire (both { f.token 0 with kind := .eeos })
  else if f.op = 0xF1 then endFiringAt s f .fire true (both (f.token 0))
  else endFiring s f .fire []

/-! ## Whether a site fires -/

/-- Whether a holder waits for a page or for its admission (R64, R112). -/
def holderStalled (s : State) (h : Holder) : Bool :=
  (missOf s h).isSome || s.portReqs.any fun r => r.holder == h && r.unpaid != []

/-- Whether a holder waits for a pull or at an empty pool, for which a cut does not wait (R76, R84). -/
def holderParked (s : State) (h : Holder) : Bool :=
  s.cows.any (fun c => c.empty && (c.req.holder == h || c.waiting.any fun w => w.holder == h)) ||
  s.pulls.any (fun p => p.waiting.any fun w => w.holder == h)

/-- Whether an .sc access of a slot stands in the Waggle ring. -/
def scPending (s : State) (r : NodeRef) (slot : Nat) : Bool :=
  s.accesses.any fun a => a.elem.elim false fun o => o.node == r && o.slot == slot

/-- Whether the tokens that a slot needs for a key are there: EEOS on any operand is enough, MERGE needs one of a and b
beside its gate, and a command whose tile is dead takes what comes (R195, R209, R308, R341, R348). -/
def tokensReady (n : Node) (slot op : Nat) (w : EWord) (key : Key) : Bool :=
  let waits := slotWaits n slot op w
  let hs := headsOf n slot op w key
  if op = 0xF0 then false
  else if hs.any fun h => h.tok.kind == .eeos then true
  else if op = 0x52 then
    (hs.any fun h => h.opd == .a || h.opd == .b) && (!waits.contains .g || hs.any fun h => h.opd == .g)
  else if [0x90, 0x92, 0x94].contains op && n.dead.contains key then !hs.isEmpty
  else waits.length == hs.length

/-- The firing that a site would make of a word, where the node is live and everything it needs is there (R172, R195,
R197, R317, R391, R396). -/
def firingAt (s : State) (site : Site) (op : Nat) (w : EWord) : Option Firing :=
  match nodeOf s site.node with
  | none => none
  | some n =>
    match graphOfNode s n with
    | none => none
    | some g =>
      if n.saved || n.sealed || !tokensReady n site.slot op w site.key || !roomOk s n site.slot op w ||
          !linkReady s n site.slot op w site.key || (headsOf n site.slot op w site.key).any (behindReconf g n) then none
      else
        some { n := n, g := g, slot := site.slot, op := op, w := w, key := site.key,
               heads := headsOf n site.slot op w site.key }

/-- The firing that a node makes of a slot and key of the tokens that are there. -/
def firingFrom (n : Node) (g : Graph) (slot : Nat) (key : Key) : Firing :=
  { n := n, g := g, slot := slot, op := n.opAt slot, w := eWord (n.word slot), key := key,
    heads := headsOf n slot (n.opAt slot) (eWord (n.word slot)) key }

/-- What the meaning of a word comes to. -/
inductive Body where
  | wait (s : State)
  | done (s : State) (outs : List (Nat × Token))
  | fault (s : State) (x : FabFault) (silent : Bool)
  deriving Repr

/-- A firing is made: a quiet one takes its tokens alone (R297), any other is the word's own meaning in its mode. A body
that waits leaves the instances as they were. -/
def fireOf (body : State → Firing → Mode → Body) (s : State) (f : Firing) : Result :=
  let m := modeOf f.heads
  let s1 := ensureInstance s f
  if m = .quiet then .next (endFiring s1 f m [])
  else
    match body s1 f m with
    | .wait s2 => .next { s2 with instances := s.instances }
    | .done s2 outs => .next (endFiring s2 f m outs)
    | .fault s2 x silent => .next (if silent then endFiring (raiseFault s2 f x) f .fire [] else endFault s2 f x)

/-- The site that moves fires a word; where it cannot fire nothing happens. -/
def fireRaw (op : Nat) (w : EWord) (body : State → Firing → Mode → Body) (s : State) : Result :=
  match firingAt s s.site op w with
  | none => .next s
  | some f => fireOf body s f

/-- SMISM of a firing whose heads mix ends and data (R208). -/
def smismIf (m : Mode) (s : State) (f : Firing) : State := if m = .mixed then raiseFault s f (fabCode 0x25) else s

/-- A word that follows R206 to R209 in every mode but its own. -/
def fireWord (op : Nat) (w : EWord) (body : State → Firing → Body) (s : State) : Result :=
  fireRaw op w (fun s f m =>
    if m = .fire then body s f
    else .done (smismIf m s f) (f.plain m)) s

/-- A word whose result is a payload that its operands and hold registers give. -/
def firePure (op : Nat) (w : EWord) (val : Firing → Payload) (s : State) : Result :=
  fireWord op w (fun s f => .done s (both (f.token (val f)))) s

end Sys2Proof.Machine
end

