-- ==== Sys2Proof/Machine/Tokens.lean ====
section
/-! DEFINITION. Tokens arriving at nodes, the tag allocator and WADV, reconfiguration tokens, the commit of instances,
and the choice among what an element has ready (R196 to R218, R282, R308, R309, R328, R391, R396, R406). -/

namespace Sys2Proof.Machine

/-! ## The tag allocator -/

/-- What WADV finds for its output ITER (R309). -/
inductive Wave where
  | mapped (iter : BitVec 16)
  | fresh (parent : BitVec 16) (ordinal : Nat)
  | tagx
  deriving DecidableEq, Repr

/-- The plan of a WADV: mode 0 entry, 1 next, 2 exit (R309). -/
def wavePlan (g : Graph) (mode : Nat) (loop v : BitVec 16) : Wave :=
  let find := fun (parent : BitVec 16) (ord : Nat) =>
    match g.pool.find? fun e => e.loop == loop && e.parent == parent && e.ordinal == ord with
    | some e => Wave.mapped e.iter
    | none => .fresh parent ord
  if mode = 0 then find v 0
  else
    match g.pool.find? fun e => e.iter == v && e.loop == loop with
    | none => .tagx
    | some e => if mode = 1 then find e.parent (e.ordinal + 1) else .mapped e.parent

/-- The first value that the counter reaches past 0 and past every held value (R212, R213). -/
def nextIter (g : Graph) : Nat → BitVec 16 → BitVec 16
  | 0, v => v
  | fuel + 1, v => if v = 0 || g.pool.any (fun e => e.iter == v) then nextIter g fuel (v + 1) else v

/-- The allocations of a loop since load (R212). -/
def allocsOf (g : Graph) (loop : BitVec 16) : Nat := ((g.allocs.find? fun a => a.1 == loop).map Prod.snd).getD 0

/-- The pool entry that a WADV is granted, where its window position and a pool entry are free (R211, R212). -/
def grantFor (g : Graph) (loop parent : BitVec 16) (ordinal : Nat) : Option PoolEntry :=
  match g.loops.find? fun l => l.id == loop with
  | none => none
  | some l =>
    let pos := allocsOf g loop % l.window
    let live := g.pool.countP fun e => e.loop == loop
    let shared := 512 - (g.loops.map LoopDecl.reserve).sum
    let reserve := decide (live < l.reserve)
    if g.pool.any (fun e => e.loop == loop && e.pos == pos) then none
    else if !reserve && shared ≤ g.pool.countP (fun e => !e.fromReserve) then none
    else
      some { iter := nextIter g 1024 g.counter, loop := loop, parent := parent, ordinal := ordinal, pos := pos,
             fromReserve := reserve }

/-- A grant is made (R212). -/
def allocate (s : State) (g : Graph) (e : PoolEntry) : State :=
  setGraph s g.gid fun g =>
    { g with
      pool := g.pool ++ [e]
      counter := e.iter + 1
      allocs := upsert (fun a => a.1 == e.loop) (e.loop, allocsOf g e.loop + 1) g.allocs }

/-- The mode of a WADV word. -/
def wadvMode (w : EWord) : Nat := (w.mod.extractLsb' 0 2).toNat

/-- The output of a WADV with another ITER. -/
def Firing.withIter (f : Firing) (k : Kind) (iter : BitVec 16) : List (Nat × Token) :=
  both { f.token (if k = .data then f.pay .a else 0) with kind := k, key := { f.key with iter := iter } }

/-- WADV (R309). -/
def execWadv (e : EWord) (s : State) : Result :=
  fireRaw 0x53 e (fun s f m =>
    let plan := wavePlan f.g (wadvMode e) e.x f.key.iter
    match m, plan with
    | .fire, .mapped i => .done s (f.withIter .data i)
    | .fire, .fresh p o =>
      match grantFor f.g e.x p o with
      | some x => .done (allocate s f.g x) (f.withIter .data x.iter)
      | none => .wait s
    | .fire, .tagx => .fault s (fabCode 0x26) true
    | .eeos, .mapped i => .done s (f.withIter .eeos i)
    | .eeos, _ => .done s (f.plain .eeos)
    | .mixed, .mapped i => .done (raiseFault s f (fabCode 0x25)) (f.withIter .eeos i)
    | .mixed, _ => .done (raiseFault s f (fabCode 0x25)) (f.plain .eeos)
    | m, .mapped i => .done s (f.withIter m.kind i)
    | _, _ => .done s []) s

/-! ## The choice among what is ready (R197) -/

/-- Whether a memory word is an .sc operation (R316). -/
def isScWord (op : Nat) (w : EWord) : Bool := [0x70, 0x71, 0x74, 0x75].contains op && isSc (w.x.extractLsb' 5 3)

/-- Whether a ready firing waits for what a cut does not wait for: a pull or an empty pool (R76, R84), the waves before its
own for a .sc operation (R170), or its grant (R212). -/
def firingParked (s : State) (f : Firing) : Bool :=
  (isLinkOp f.op && holderParked s (holderAt f.n.ref)) || (isScWord f.op f.w && !waveFirst f.g f.key.iter) ||
  (f.op == 0x53 && modeOf f.heads == .fire &&
    match wavePlan f.g (wadvMode f.w) f.w.x f.key.iter with
    | .fresh p o => (grantFor f.g f.w.x p o).isNone
    | _ => false)

/-- Whether a ready firing must wait for something that is no token and no room: its page (R64), its admission (R112), its
place in the Waggle ring, or what parks it. -/
def firingStalled (s : State) (f : Firing) : Bool :=
  (isLinkOp f.op && (holderStalled s (holderAt f.n.ref) || scPending s f.n.ref f.slot)) || firingParked s f


/-- The keys that have tokens in a slot, with the arrival of the last. -/
def slotKeys (n : Node) (slot : Nat) : List (Key × Nat) :=
  let ks := ((n.store.filter fun h => h.slot == slot).map fun h => h.tok.key).eraseDups
  ks.map fun k =>
    let w := eWord (n.word slot)
    (k, (headsOf n slot (n.opAt slot) w k).foldl (fun m h => max m h.arr) 0)

/-- The keys of a slot whose tokens are ready, the earliest completed first. -/
def readyKeys (n : Node) (slot : Nat) : List Key :=
  let w := eWord (n.word slot)
  (sortBy (fun x y => x.2 ≤ y.2) ((slotKeys n slot).filter fun k => tokensReady n slot (n.opAt slot) w k.1)).map Prod.fst

/-- The firing of a slot and key, where it can be made now. -/
def canFire (s : State) (n : Node) (slot : Nat) (key : Key) : Bool :=
  match firingAt s { node := n.ref, slot := slot, key := key } (n.opAt slot) (eWord (n.word slot)) with
  | some f => !firingStalled s f
  | none => false

/-- The key that a slot would fire next; behind a stalled WADV every later key waits (R309). -/
def slotNext (s : State) (n : Node) (slot : Nat) : Option Key :=
  let ks := readyKeys n slot
  if n.opAt slot = 0x53 then (ks.take 1).find? (canFire s n slot) else ks.find? (canFire s n slot)

/-- What a node fires next: the lowest slot first (R197). -/
def nextSite (s : State) (r : NodeRef) : Option Site :=
  match nodeOf s r with
  | none => none
  | some n =>
    (List.range n.slots.length).findSome? fun k => (slotNext s n k).map fun key => { node := r, slot := k, key := key }

/-- WADV_GRANT: a stalled WADV fires once all three conditions hold, where it is what its node fires next (R197, R212,
R309). -/
def execWadvGrant (node : NodeRef) (slot : Nat) (key : Key) (s : State) : Result :=
  let site : Site := { node := node, slot := slot, key := key }
  match nodeOf s node with
  | none => .next s
  | some n =>
    if n.opAt slot = 0x53 && nextSite s node == some site then
      match execWadv (eWord (n.word slot)) { s with site := site } with
      | .next s' => .next { s' with site := s.site }
      | r => r
    else .next s

/-- Whether a node still has a firing to make before RECONF may pass it: any that its tokens allow, whatever it waits for,
apart from those behind the token (R172). -/
def firingsAhead (g : Graph) (n : Node) : Bool :=
  !n.sealed &&
  (List.range n.slots.length).any fun k =>
    (readyKeys n k).any fun key => !(headsOf n k (n.opAt k) (eWord (n.word k)) key).any (behindReconf g n)

/-- Whether a node still has a firing to make before a cut saves it (R173, R218): one that lacks room or waits for a walk
or the ring counts, one that is parked or waits for a predecessor or a RECONF token does not. A cut does not drain island commands (R173, R349). -/
def mustFire (s : State) (n : Node) : Bool :=
  !isIslandNode n.ref &&
  (List.range n.slots.length).any fun k =>
    (readyKeys n k).any fun key =>
      let w := eWord (n.word k)
      linkReady s n k (n.opAt k) w key &&
      match graphOfNode s n with
      | none => false
      | some g =>
        let f := firingFrom n g k key
        !firingParked s f && !f.heads.any (behindReconf g n)

/-! ## Control tokens -/

/-- A control token on an output, which needs no room of its own. -/
def emitControl (s : State) (n : Node) (keep : Dest → Bool) (tok : Token) : State :=
  (List.range n.slots.length).foldl
    (fun s k =>
      [0, 1].foldl
        (fun s o =>
          let ds := (consumers s n k o).filter keep
          if ds.isEmpty then s
          else setNode s n.ref fun n => { n with outs := n.outs ++ [{ slot := k, out := o, tok := tok, pend := ds }] }) s) s

/-- A control token of a context. -/
def control (ctx : BitVec 12) (k : Kind) (p : Payload) : Token := { key := baseKey ctx, seq := 0, kind := k, payload := p }

/-- The fields of a word of a RECONF payload (R204). -/
def rcE (w : Word) : Nat := bits w 63 62
def rcSlot (w : Word) : Nat := bits w 61 57
def rcOut (w : Word) : Nat := bits w 56 56
def rcDepth (w : Word) : Nat := bits w 55 46
def rcX (w : Word) : Nat := bits w 45 41
def rcY (w : Word) : Nat := bits w 40 36
def rcVld (w : Word) : Bool := bit w 0

/-- The words of a RECONF payload, the highest first (R204). -/
def rcWords (p : Payload) : List Word := [3, 2, 1, 0].map fun i => p.extractLsb' (64 * i) 64

/-- The element that a word names. -/
def rcNode (g : Graph) (w : Word) : NodeRef := elemNode g.die (g.x + rcX w) (g.y + rcY w) (rcE w)

/-- Whether a word of a RECONF payload passes the check of R204. -/
def rcOk (s : State) (g : Graph) (w : Word) : Bool :=
  !rcVld w ||
  (bits w 35 1 == 0 && 1 ≤ rcDepth w && rcDepth w ≤ 512 && rcX w < g.w && rcY w < g.h &&
    match nodeOf s (rcNode g w) with
    | some n => n.opAt (rcSlot w) != 0xF0 && !(consumers s n (rcSlot w) (rcOut w)).isEmpty
    | none => false)

/-- The sum of the depths of the edges of a tile (R202). -/
def tileDepths (s : State) (r : NodeRef) : Nat :=
  let b := blockNode r
  ((List.range 4).map fun e =>
    match nodeOf s { die := b.die, id := b.id + e } with
    | some n =>
      ((List.range n.slots.length).map fun k =>
        ([0, 1].map fun o => if (consumers s n k o).isEmpty then 0 else depthOf n k o).sum).sum
    | none => 0).sum

/-- The new depth of an edge is applied once the edge holds no entry; past the tile's pool the old depth stays and a
FAULT token climbs (R204). -/
def applyDepth (s : State) (g : Graph) (r : NodeRef) (d : Nat × Nat × Nat) : State :=
  match nodeOf s r with
  | none => s
  | some n =>
    if n.outs.any fun o => o.slot == d.1 && o.out == d.2.1 then s
    else
      let s := setNode s r fun n => { n with redepth := n.redepth.erase d }
      if 512 < tileDepths s r - depthOf n d.1 d.2.1 + d.2.2 then
        climb s g.gid (mkRec (baseKey g.ctx) 0x2B 0x0E 0 d.1 r.id 0)
      else
        let put := upsert (fun (x : Nat × Nat × Nat) => x.1 == d.1 && x.2.1 == d.2.1) d
        setNode s r fun n => { n with depths := put n.depths }

/-- The forward inputs of a node from which MARK is still to come (R396). -/
def missingInputs (s : State) (r : NodeRef) (seen : List EdgeSrc) : List EdgeSrc :=
  (nodeInputs s r).filter fun e => isForward r e && !seen.contains e

/-- The inputs of a node from which RECONF is still to come: all but the back edges of its cycles, on which it comes after
it has passed the node (R204). -/
def missingReconf (s : State) (g : Graph) (n : Node) : List EdgeSrc :=
  (nodeInputs s n.ref).filter fun e =>
    (isForward n.ref e || !onCycle s g n.ref e) && !(n.reconfs.any fun r => r.1 == e)

/-- A node passes RECONF on once it has arrived on all of its inputs, the node has fired what it had ready and the new
depths stand; a sealed node absorbs it (R172, R204, R392). -/
def passReconf (s : State) (g : Graph) (r : NodeRef) : State :=
  match g.reconf, nodeOf s r with
  | some p, some n =>
    if n.passed || n.sealed || !(missingReconf s g n).isEmpty then s
    else
      let s := n.redepth.foldl (fun s d => applyDepth s g r d) s
      match nodeOf s r with
      | some n2 =>
        if !n2.redepth.isEmpty || firingsAhead g n2 then s
        else emitControl (setNode s r fun n => { n with passed := true }) n2 (fun _ => true) (control g.ctx .reconf p)
      | none => s
  | _, _ => s

/-! ## Arrival -/

/-- A token that a destination has accepted leaves the edge (R203). -/
def takeFromEdge (s : State) (src : EdgeSrc) (dst : Dest) : Option (State × Token) :=
  match src with
  | .slot node slot out =>
    match nodeOf s node with
    | none => none
    | some n =>
      match n.outs.find? fun o => o.slot == slot && o.out == out && o.pend.contains dst with
      | none => none
      | some o =>
        let drop := mapFirst (· == o) (fun (o : OutEntry) => { o with pend := o.pend.erase dst }) n.outs
        some (setNode s node (fun n => { n with outs := drop.filter fun o => !o.pend.isEmpty }), o.tok)
  | .stream ref =>
    match streamOf s ref with
    | none => none
    | some t =>
      match t.old.find? fun x => x.1 == dst with
      | some x => some (setStream s ref fun t => { t with old := t.old.erase x }, x.2)
      | none =>
        match t.buf with
        | [] => none
        | k :: rest => if !t.sink && t.dst == dst then some (setStream s ref fun t => { t with buf := rest }, k) else none

/-- The graph whose source emitted on an edge. -/
def edgeGraph (s : State) (src : EdgeSrc) : Option Graph :=
  match src with
  | .slot node _ _ => (nodeOf s node).bind (graphOfNode s)
  | .stream ref =>
    (streamOf s ref).bind fun t => s.graphs.find? fun g => g.ctx == t.ctx && g.handle == t.handle && !g.retired

/-- The context range of the partition that holds a tile admits a context (R406). -/
def tileAdmits (s : State) (r : NodeRef) (ctx : BitVec 12) : Bool :=
  let t := tileOfNode r.id
  (List.finRange 48).any fun p =>
    let x := s.parts.get p
    x.stateOf != 0 && x.dieOf == r.die && x.tiles.getLsbD (32 * t.2 + t.1) && x.hasCtx ctx.toNat

/-- A fault of a token that no firing takes: the token is dropped and the record climbs at once, since the instance of its key may
never exit without it; that instance has its exception bit set (R200, R215, R328, R330). -/
def dropFault (s : State) (g : Graph) (n : Node) (slot : Nat) (key : Key) (code : Nat) : State :=
  let s := raiseRec s g.gid n.ref key (mkRec key code 0 0 slot n.ref.id 0) (containsSubgraph code)
  let soft := code == 0x25
  if !hasBlock s n.ref then s
  else
    match openInstance s n.ref key with
    | some _ => updInstance s n.ref key fun i => { i with exc := true, soft := i.soft && soft }
    | none =>
      let i := newInstance { node := blockNode n.ref, key := key } g.handle true
      { s with instances := s.instances ++ [{ i with soft := soft }] }

/-- A data token enters a node: discarded for R209, held in the store, spilled, or dropped with FSPILL (R198 to
R200, R209, R220). -/
def storeToken (s : State) (g : Graph) (n : Node) (src : EdgeSrc) (dst : Dest) (tok : Token) : State :=
  let isEnd := tok.kind == .eos || tok.kind == .eeos
  match n.drops.find? fun d => d.slot == dst.slot && d.key == tok.key && d.opds.contains dst.opd with
  | some d =>
    if isEnd then setNode s n.ref fun n => { n with drops := n.drops.erase d } else s
  | none =>
    let h : Held := { slot := dst.slot, opd := dst.opd, tok := tok, src := src, arr := n.arrivals, spilled := false }
    let put := fun (sp : Bool) =>
      setNode s n.ref fun n => { n with store := n.store ++ [{ h with spilled := sp }], arrivals := n.arrivals + 1 }
    let full := (isElemNode n.ref || isConvNode n.ref) && 64 ≤ n.store.countP (fun h => !h.spilled)
    if !full || canFire (put false) ((nodeOf (put false) n.ref).getD n) dst.slot tok.key then put false
    else if ovfRoom s g.part n.ref.id tok.key then put true
    else dropFault s g n dst.slot tok.key 0x24

/-- What a node does with a token of any kind (R198, R204, R328, R391, R396). -/
def acceptToken (s : State) (src : EdgeSrc) (dst : Dest) (tok : Token) : State :=
  match nodeOf s dst.node with
  | none => s
  | some n =>
    match graphOfNode s n with
    | none => s
    | some g =>
      if n.sealed then s
      else
        match tok.kind with
        | .reconf =>
          setNode s dst.node fun n =>
            { n with reconfs := if n.reconfs.any (fun r => r.1 == src) then n.reconfs else n.reconfs ++ [(src, n.arrivals)] }
        | .mark => setNode s dst.node fun n => { n with marks := if n.marks.contains src then n.marks else n.marks ++ [src] }
        | .fault => s
        | _ =>
          if n.opAt dst.slot = 0xF0 then
            endIterations (dropFault s g n dst.slot tok.key 0x25) g
          else endIterations (storeToken s g n src dst tok) g

/-- Whether an island has a credit for a sender (R219). -/
def creditFor (s : State) (src : EdgeSrc) (dst : Dest) : Bool :=
  !isIslandNode dst.node ||
  match nodeOf s dst.node with
  | some n => n.store.countP (fun h => h.src == src) < 16
  | none => true

/-- The ELEMID that names the receiving tile of a foreign token: the element itself, or the first of the tile of any other node
(R191, R406). -/
def elemIdAt (r : NodeRef) : Nat :=
  let t := tileOfNode r.id
  if isElemNode r then r.id else (elemNode r.die t.1 t.2 0).id

/-- The oldest token of an edge arrives at one of its consumers (R190, R198, R203, R406). -/
def arriveToken (src : EdgeSrc) (dst : Dest) (s : State) : Result :=
  if !creditFor s src dst then .next s
  else
    match takeFromEdge s src dst with
    | none => .next s
    | some (s2, tok) =>
      if !tileAdmits s dst.node tok.key.ctx then
        match edgeGraph s src with
        | some g => .next (settle (endIterations (climb s2 g.gid (mkRec tok.key 0x2A 0 0 0 (elemIdAt dst.node) 0)) g))
        | none => .next s2
      else
        let s3 := acceptToken s2 src dst tok
        match (nodeOf s3 dst.node).bind (graphOfNode s3) with
        | some g => .next (settle (passReconf s3 g dst.node))
        | none => .next s3

/-! ## Commit -/

/-- What a piece of a held store meets as the store is performed: its key slot and its array are judged afresh (R81,
R88, R92). -/
def pieceBar (s : State) (p : Part) : Option (Option FaultInfo) :=
  if !inArrays p.leaf.frame && keyState s p.leaf.key ≠ .loaded then
    some (some { cause := 0x08, addr := p.va, level := levelOf p.leaf.lg, write := true, atomic := false, key := p.leaf.key })
  else reachCheck s p.leaf p.va true false false

/-- A held store is prepared: translated, judged, and admitted by the L2 ports (R65, R88, R112, R166). Beside what it has
become: nothing bars it, it waits, or it faults. A row waits while its array converts (R357). -/
def prepStore (g : Graph) (s : State) (h : HeldStore) : State × HeldStore × Option (Option FaultInfo) :=
  match h.row with
  | some r => (s, h, if (arrayOf s r.1).busy then some none else none)
  | none =>
    if h.isFence then (s, h, none)
    else
      match (if h.parts.isEmpty then translate s h.holder g.ctx g.part h.node.die h.va h.bytes.length true false false
        else (s, .ok h.parts)) with
      | (s, .fault x) => (s, h, some (some x))
      | (s, .wait) => (s, h, some none)
      | (s, .ok ps) =>
        let h := { h with parts := ps }
        match ps.findSome? (pieceBar s) with
        | some b => (s, h, some b)
        | none =>
          if h.paid then (s, h, none)
          else
            let r := admitLines s h.holder g.ctx g.part h.node.die h.va ps
            (r.1, { h with paid := r.2 }, if r.2 then none else some none)

/-- Held stores are prepared in order, up to one that is barred. -/
def prepStores (g : Graph) : State → List HeldStore → State × List HeldStore × Option (Option FaultInfo × HeldStore)
  | s, [] => (s, [], none)
  | s, h :: hs =>
    match prepStore g s h with
    | (s, h, some b) => (s, h :: hs, some (b, h))
    | (s, h, none) =>
      let r := prepStores g s hs
      (r.1, h :: r.2.1, r.2.2)

/-- A row of an array is written, where the array is in LOAD or RUN, and flops of the ring's entries that hold it are
loaded from its INIT (R357). -/
def writeRow (s : State) (r : ArrayRef) (c : Nat) (bytes : List Byte) : State :=
  let a := arrayOf s r
  if a.mode != .load && a.mode != .run then s
  else
    let s := { s with mem := memPutAll s.mem (arrayPa r + 256 * c) bytes }
    let init := rowInit (ofBytes bytes)
    let fix := fun (x : BitVec 200) (e : Nat) => if schRing x e = c then withFlops x e init else x
    setArray s r fun a => { a with sched := (List.range (schLen a.sched + 1)).foldl fix a.sched }

/-- The write-back that a release store makes first (R103, R127). -/
def releaseOf (g : Graph) (s : State) (h : HeldStore) : State :=
  if isRel h.ord && (wideScope h.scope || isSc h.ord) then releaseWriteBack s h.node.die g.ctx else s

/-- The single-copy-atomic parts of a store that are still to be performed (R61). -/
def HeldStore.partsLeft (h : HeldStore) : List Part :=
  (piecesOf .store h.bytes.length h.va h.parts).filter fun p => !h.done.contains p.va

/-- One part of a store is performed. -/
def storePiece (g : Graph) (h : HeldStore) (s : State) (p : Part) : State :=
  storeParts s h.node.die g.part g.ctx (isStrong .store h.ord h.scope) [p] ((h.bytes.drop (p.va - h.va)).take p.n)

/-- A held store is released: performed at its coherence point, after the write-back of its release; of a FENCEE there is
that write-back alone (R103, R165, R166, R318, R321). -/
def releaseStore (g : Graph) (s : State) (h : HeldStore) : State :=
  match h.row with
  | some (r, c) => writeRow s r c h.bytes
  | none =>
    let s := releaseOf g s h
    if h.done = [] then storeParts s h.node.die g.part g.ctx (isStrong .store h.ord h.scope) h.parts h.bytes
    else h.partsLeft.foldl (storePiece g h) s

/-- The firing that a result of an instance leaves by. -/
def resultFiring (g : Graph) (n : Node) (slot : Nat) (key : Key) : Firing :=
  { n := n, g := g, slot := slot, op := n.opAt slot, w := eWord (n.word slot), key := key, heads := [] }

/-- Whether the outputs of an instance's results have room. -/
def resultsRoom (s : State) (i : Instance) : Bool :=
  i.result.all fun r =>
    match nodeOf s r.1 with
    | some n => roomOk s n r.2.1 (n.opAt r.2.1) (eWord (n.word r.2.1))
    | none => true

/-- The stores of the sinks that tap the results of an instance, which are released with its commit (R271, R315). -/
def resultStores (s : State) (i : Instance) : List HeldStore :=
  i.result.flatMap fun r =>
    match nodeOf s r.1 with
    | some n =>
      if tV (eWord (n.word r.2.1)).t0 || r.2.2.kind != .data then []
      else (sinksAt s r.1 r.2.1).map fun t => sinkStore r.1 r.2.1 t r.2.2.payload
    | none => []

/-- A sink takes a result of an instance that has committed, whose store went with the commit (R271). -/
def sinkTakeResult (f : Firing) (tok : Token) (s : State) (t : Stream) : State :=
  if tok.kind == .data then setStream s t.ref Stream.took else sinkTake f tok s t

/-- The results of a committed instance leave (R315, R344, R357). -/
def emitResults (s : State) (g : Graph) (i : Instance) : State :=
  i.result.foldl
    (fun s r =>
      match nodeOf s r.1 with
      | some n =>
        let f := resultFiring g n r.2.1 i.blk.key
        (both r.2.2).foldl (emitTo (sinkTakeResult f) f false) s
      | none => s) s

/-- The pins of the tile of an island's instance go (R99, R339). -/
def unpinTile (s : State) (i : Instance) : State := unpinIf s fun b => i.tile.any fun k => b == (i.blk.node, k)

/-- The firings whose released stores have now been performed, or have faulted, count as performed for their successors
(R317). -/
def linkReleased (s : State) (i : Instance) : State :=
  if !i.released then s
  else
    (i.stores.filter fun h => h.stream.isNone).head?.elim s fun h =>
      updLink s h.node h.slot i.blk.key fun l => { l with performed := l.performed + 1 }

/-- An instance commits: prepare and release are one step here, no other party acts between them (R166). -/
def commitInstance (s : State) (g : Graph) (i : Instance) (hs : List HeldStore) : State :=
  let s := hs.foldl (releaseStore g) s
  let s := linkReleased (dropInstance s i) i
  settle (endIterations (unpinTile (emitResults s g i) i) g)

/-- Whether two stores of a firing must be performed in their order: they share a byte, or both lie on SO pages (R165, R319). -/
def HeldStore.before (a b : HeldStore) : Bool :=
  a.isFence || a.parts.isEmpty ||
    a.parts.any fun p => b.parts.any fun r => overlaps p.va p.n r.va r.n || overlaps p.pa p.n r.pa r.n || (p.so && r.so)

/-- One part of one released store of a node with no block is performed ahead of the others (R61, R214); of those on SO pages
the lowest (R60). -/
def performStorePart (s : State) (b : BlockRef) (j k : Nat) : State :=
  match s.instances.find? fun i => i.released && i.blk == b with
  | none => s
  | some i =>
    match s.graphs.find? fun g => g.ctx == b.key.ctx && g.handle == i.handle && !g.retired, i.stores[j]? with
    | some g, some h =>
      match prepStore g s h with
      | (s, h, some _) => { s with instances := mapFirst (· == i) (fun i => { i with stores := i.stores.set j h }) s.instances }
      | (s, h, none) =>
        let open_ := h.partsLeft.filter fun p => !(p.so && h.partsLeft.any fun x => x.so && x.va < p.va)
        let put := fun (s : State) (h : HeldStore) =>
          { s with instances := mapFirst (· == i) (fun i => { i with stores := i.stores.set j h }) s.instances }
        if h.row.isSome || h.partsLeft.length ≤ 1 || (i.stores.take j).any fun x => x.before h then put s h
        else
          match open_[k % open_.length]? with
          | some p => put (storePiece g h (releaseOf g s h) p) { h with done := h.done ++ [p.va] }
          | none => put s h
    | _, _ => s

/-- An instance that commits nothing is discarded, and its FAULT tokens climb (R166, R215). -/
def discardInstance (s : State) (g : Graph) (i : Instance) : State :=
  let s := i.faults.foldl (fun s x => raiseRec s g.gid { die := i.blk.node.die, id := x.node } i.blk.key x (containsSubgraph x.code)) s
  settle (endIterations (unpinTile (linkReleased (dropInstance s i) i) i) g)

/-- Whether an instance may not commit yet: its turn in wave order has not come, or its results have no room. Released
stores wait for no turn (R166, R214, R216). -/
def commitHeld (s : State) (g : Graph) (i : Instance) : Bool :=
  !i.released && (!waveFirst g i.blk.key.iter || !resultsRoom s i)

/-- Whether an instance whose stores are prepared must let others commit first: one that has reached a quad before it, with
rows there, or for a row that it holds released stores still to be performed (R95, R96). -/
def commitBehind (s : State) (g : Graph) (i : Instance) (hs : List HeldStore) : Bool :=
  let me := { i with stores := hs }
  !i.released && (((uncommitted s g).any fun y => y != i && commitsFirst s g y me) ||
    hs.any fun h => h.row.isSome && (h.quads s g).any (releasedIn s g))

/-- A store of an island's firing has faulted: the firing emits EEOS on each target (R348). -/
def endIslandStore (s : State) (g : Graph) (i : Instance) (h : HeldStore) : State :=
  match (if isIslandNode h.node then nodeOf s h.node else none) with
  | some n =>
    emitAll s (resultFiring g n h.slot i.blk.key) false
      (both { key := i.blk.key, seq := 0, kind := .eeos, payload := 0 })
  | none => s

/-- A store of an instance has faulted as it was prepared: the instance is discarded with the fault's record (R65,
R215, R348). -/
def faultInstance (s : State) (g : Graph) (i : Instance) (x : FaultInfo) (h : HeldStore) : State :=
  let r := mkRec i.blk.key x.fabricCode x.cause 0 h.slot h.node.id x.addr
  let j := { i with exc := true, faults := i.faults ++ [r] }
  let s := { s with instances := mapFirst (· == i) (fun _ => j) s.instances }
  endIslandStore (discardInstance s g j) g j h

/-- BLOCK_COMMIT: an exited instance commits once its turn in wave order has come and its stores are prepared (R166,
R216); one with its exception bit set is discarded. -/
def execBlockCommit (b : BlockRef) (s : State) : Result :=
  match s.instances.find? fun i => i.blk == b && i.exited with
  | none => .next s
  | some i =>
    match s.graphs.find? fun g => g.ctx == b.key.ctx && g.handle == i.handle && !g.retired with
    | none => .next s
    | some g =>
      if !i.released && (i.exc || contained s g b.node b.key.iter) then .next (discardInstance s g i)
      else if commitHeld s g i then .next s
      else
        let r := prepStores g s i.stores
        let i2 := { i with stores := r.2.1 }
        let s := { r.1 with instances := mapFirst (· == i) (fun _ => i2) r.1.instances }
        match r.2.2 with
        | some (some x, h) => .next (faultInstance s g i2 x h)
        | some (none, _) => .next s
        | none =>
          let t := prepStores g s (resultStores s i)
          match t.2.2 with
          | some (some x, h) => .next (faultInstance t.1 g i2 x h)
          | some (none, _) => .next t.1
          | none =>
            if commitBehind t.1 g i2 (i2.stores ++ t.2.1) then .next t.1
            else .next (commitInstance t.1 g i2 (i2.stores ++ t.2.1))

/-! ## RECFG -/

/-- RECONF is placed at every source of a graph: its streams, and its nodes that have no input (R204, R282). -/
def placeReconf (s : State) (g : Graph) (p : Payload) : State :=
  let s := setGraph s g.gid fun g => { g with reconf := some p }
  let words := (rcWords p).filter rcVld
  let prep := fun (n : Node) =>
    { n with
      passed := false
      reconfs := []
      redepth := (words.filter fun w => rcNode g w == n.ref).map fun w => (rcSlot w, rcOut w, rcDepth w) }
  let s := { s with
    nodes := mapIf (fun n => n.ctx == g.ctx && n.handle == g.handle && n.ref.die == g.die) prep s.nodes
    streams := mapIf (fun (t : Stream) => t.ctx == g.ctx && t.handle == g.handle)
      (fun t => t.post (control g.ctx .reconf p)) s.streams }
  (graphNodes s g).foldl (fun s n => passReconf s { g with reconf := some p } n.ref) s

/-- RECFG, its first part: the payload is read and checked and RECONF is placed (R282). -/
def recfgBegin (a b : Reg) (r : BitVec 1) (u : UnitRec) (s : State) : State :=
  let c := s.cpu
  if !(ownAccesses s s.cur).isEmpty then s
  else
    match s.graphs.find? fun g => g.ctx == u.ctx && g.handle == (c.reg a).toNat && !g.retired with
    | none => trapOprng s
    | some g =>
      let go := fun (s : State) (p : Payload) =>
        if (rcWords p).all (rcOk s g) then
          let s := setGraph s g.gid fun g => { g with retiring := g.retiring || r == 1 }
          setWait (placeReconf s g p) (.recfg g.handle)
        else trapOprng s
      if g.reconf.isSome then s
      else if b = 0 then go s 0
      else
        let va := c.reg b
        if va.toNat % 32 ≠ 0 then trapMisal s va false false
        else
          match seqLoad s u va.toNat 32 with
          | (s, .fault f) => trapFault s f
          | (s, .wait) => s
          | (s, .bytes bs) => go s (BitVec.ofNat 256 (ofBytes bs))

/-- RECFG (R282). -/
def execRecfg (d a b : Reg) (r : BitVec 1) (s : State) : Result :=
  withUnit s fun u =>
    match s.cpu.wait with
    | .recfg _ => s
    | .reconfPassed n => settle (s.updCpu fun c => ({ c.setReg d (n.setWidth 64) with wait := .none } : Seq).next)
    | _ => recfgBegin a b r u s

/-- Whether a node holds a counted token that is still on its way to a consumer that can take it. -/
def tokensUnderWay (s : State) (n : Node) : Bool :=
  n.outs.any fun o => o.tok.kind.counted && o.pend.any (creditFor s (.slot n.ref o.slot o.out))

/-- Whether a RECONF token of a graph is still on its way on an edge (R282). -/
def reconfUnderWay (s : State) (g : Graph) : Bool :=
  ((graphNodes s g).any fun n => n.outs.any fun o => o.tok.kind == .reconf) ||
  (s.streams.any fun t => t.ctx == g.ctx && t.handle == g.handle &&
    (t.buf ++ t.old.map Prod.snd).any fun k => k.kind == .reconf)

/-- Whether RECONF may pass a graph: it has reached every node and nothing ahead of it is left to fire or under way, every
instance is gone, every access of the graph's units is performed, and every engine operation and island command of the
configuration is done (R172, R392). -/
def reconfReady (s : State) (g : Graph) : Bool :=
  (graphNodes s g).all (fun n => (n.passed || n.sealed) && !firingsAhead g n && !tokensUnderWay s n) &&
  (graphInstances s g).isEmpty && !reconfUnderWay s g &&
  !(s.accesses.any fun a => a.elem.isNone && (unitsOf s g).contains a.q) &&
  !(s.jobs.any fun j => j.ctx == g.ctx && j.handle == g.handle && j.die == g.die) && tileCount s g.ctx g.handle == 0

/-- The current phase of a context on a die ends; the next has the second number and begins with its first graph (R222,
R282). -/
def endPhase (s : State) (ctx : BitVec 12) (die : Nat) : State × BitVec 32 :=
  let n := currentPhase s ctx die
  let s := ensurePhase s ctx die n
  ({ s with phases := mapIf (fun p => p.ctx == ctx && p.die == die && p.num == n) (fun p => { p with passed := true }) s.phases }, n + 1)

/-- RECONF_PASS: the caches are flushed and the phase ends; its graphs stay graphs of it (R172, R222, R282). -/
def execReconfPass (ctx : BitVec 12) (handle : Nat) (s : State) : Result :=
  match s.graphs.find? fun g => g.ctx == ctx && g.handle == handle && !g.retired with
  | none => .next s
  | some g =>
    if g.reconf.isNone then .next s
    else
      let s := (graphNodes s g).foldl (fun s n => passReconf s g n.ref) s
      if !reconfReady s g then .next s
      else
        let r := endPhase (reconfFlush s g.die ctx) ctx g.die
        let s := setGraph r.1 g.gid fun g => { g with reconf := none }
        let wake := (List.finRange 64).filter fun q =>
          (s.seqs.get q).wait == .recfg handle && (s.seqs.get q).run.elim false fun u => u.ctx == ctx
        .next (wake.foldl (fun s q => s.updSeq q fun c => { c with wait := .reconfPassed r.2 }) s)

end Sys2Proof.Machine
end

