-- ==== Sys2Proof/Machine/ElemInt.lean ====
section
/-! DEFINITION. The integer instructions of the elements (R294 to R296, R300 to R302). -/

namespace Sys2Proof.Machine

/-! ## Operand b, immediates and hold registers -/

/-- The value of a lane that the 16-bit immediate gives (R295). -/
def immLane (ty : Nat) (x : BitVec 16) : Nat :=
  match ty with
  | 2 => wrapInt 32 (sxInt 16 x.toNat)
  | 3 => wrapInt 64 (sxInt 16 x.toNat)
  | 10 => x.toNat * 65536
  | _ => x.toNat % 2 ^ tyWidth ty

/-- Every lane of a type holding a value. -/
def fillLanes (ty v : Nat) : Payload := mapLanes (tyWidth ty) fun _ => v

/-- Whether a word uses X for its immediate (R294). -/
def usesImm (w : EWord) : Bool := w.mod.getLsbD 3

/-- Whether a word's X holds the hold-register fields (R294). -/
def usesHolds (w : EWord) : Bool := !usesImm w && !tLong w.t0 && !tLong w.t1

/-- A hold register of a node (R296). -/
def Node.hold (n : Node) (k : Nat) : Payload := (n.holds[k]?).getD 0

/-- Operand b: the immediate, a hold register, or the token (R294). -/
def Firing.b (f : Firing) : Payload :=
  if usesImm f.w then fillLanes f.w.ty.toNat (immLane f.w.ty.toNat f.w.x)
  else if usesHolds f.w && f.w.x.getLsbD 15 then f.n.hold (f.w.x.extractLsb' 12 3).toNat
  else f.pay .b

/-- The result is written to the hold register that HW names (R294, R296). -/
def keepResult (s : State) (f : Firing) (p : Payload) : State :=
  if usesHolds f.w && f.w.x.getLsbD 11 then
    setNode s f.n.ref fun n => { n with holds := n.holds.set (f.w.x.extractLsb' 8 3).toNat p }
  else s

/-- An integer or float word: its result leaves on both outputs and may be kept. -/
def fireArith (op : Nat) (w : EWord) (val : Firing → Payload) (s : State) : Result :=
  fireWord op w (fun s f => .done (keepResult s f (val f)) (both (f.token (val f)))) s

/-! ## Lanes of integers -/

/-- Whether an integer type is signed (R35). -/
def tySigned (ty : Nat) : Bool := ty < 4

/-- A lane as an integer of its type (R230, R300). -/
def intLane (ty : Nat) (p : Payload) (l : Nat) : Int :=
  let x := lane p (tyWidth ty) l
  if tySigned ty then sxInt (tyWidth ty) x else x

/-- The lanes of an exact integer function, brought into the type once (R301). -/
def intLanes (ty : Nat) (sat : Bool) (g : Nat → Int) : Payload :=
  mapLanes (tyWidth ty) fun l => narrow sat (tySigned ty) (tyWidth ty) (g l)

/-- Whether a word saturates (R294). -/
def usesSat (op : Nat) (w : EWord) : Bool := hasSat op && w.mod.getLsbD 2

/-- A word over integer lanes of a, b and c. -/
def fireInt (op : Nat) (e : EWord) (g : Nat → Int → Int → Int → Int) (s : State) : Result :=
  fireArith op e (fun f =>
    let ty := e.ty.toNat
    intLanes ty (usesSat op e) fun l => g (tyWidth ty) (intLane ty (f.pay .a) l) (intLane ty f.b l) (intLane ty (f.pay .c) l)) s

/-- A word over raw lanes of a and b. -/
def fireBits (op : Nat) (e : EWord) (g : Nat → Nat → Nat → Nat) (s : State) : Result :=
  fireArith op e (fun f =>
    let w := tyWidth e.ty.toNat
    mapLanes w fun l => g w (lane (f.pay .a) w l) (lane f.b w l)) s

/-- The number of one bits in the low n bits. -/
def onesOf (x : Nat) : Nat → Nat
  | 0 => 0
  | n + 1 => onesOf x n + if x.testBit n then 1 else 0

/-- The number of leading zero bits in n bits. -/
def leadZeros (x : Nat) : Nat → Nat
  | 0 => 0
  | n + 1 => if x.testBit n then 0 else 1 + leadZeros x n

/-- The shift amount that changes a lane: past the width nothing changes further (R301). -/
def shiftAmount (w : Nat) (b : Int) : Nat := min w (wrapInt w b)

/-! ## The words -/

/-- IADD (R300). -/
def execIadd (e : EWord) (s : State) : Result := fireInt 0x00 e (fun _ a b _ => a + b) s

/-- ISUB (R300). -/
def execIsub (e : EWord) (s : State) : Result := fireInt 0x01 e (fun _ a b _ => a - b) s

/-- IMUL (R300). -/
def execImul (e : EWord) (s : State) : Result := fireInt 0x02 e (fun _ a b _ => a * b) s

/-- IMULH: the high half of the exact product (R300). -/
def execImulh (e : EWord) (s : State) : Result := fireInt 0x03 e (fun w a b _ => a * b / (2 ^ w : Nat)) s

/-- IMAC (R300). -/
def execImac (e : EWord) (s : State) : Result := fireInt 0x04 e (fun _ a b c => a * b + c) s

/-- IMIN (R300). -/
def execImin (e : EWord) (s : State) : Result := fireInt 0x05 e (fun _ a b _ => min a b) s

/-- IMAX (R300). -/
def execImax (e : EWord) (s : State) : Result := fireInt 0x06 e (fun _ a b _ => max a b) s

/-- IABS (R300, R301). -/
def execIabs (e : EWord) (s : State) : Result := fireInt 0x07 e (fun _ a _ _ => a.natAbs) s

/-- IAND (R300). -/
def execIand (e : EWord) (s : State) : Result := fireBits 0x08 e (fun _ a b => a &&& b) s

/-- IOR (R300). -/
def execIor (e : EWord) (s : State) : Result := fireBits 0x09 e (fun _ a b => a ||| b) s

/-- IXOR (R300). -/
def execIxor (e : EWord) (s : State) : Result := fireBits 0x0A e (fun _ a b => a ^^^ b) s

/-- INOT (R300). -/
def execInot (e : EWord) (s : State) : Result := fireBits 0x0B e (fun w a _ => 2 ^ w - 1 - a) s

/-- ISHL (R300, R301). -/
def execIshl (e : EWord) (s : State) : Result := fireInt 0x0C e (fun w a b _ => a * (2 ^ shiftAmount w b : Nat)) s

/-- ISHR: the floor (R300, R301). -/
def execIshr (e : EWord) (s : State) : Result := fireInt 0x0D e (fun w a b _ => a / (2 ^ shiftAmount w b : Nat)) s

/-- ICLZ (R300). -/
def execIclz (e : EWord) (s : State) : Result := fireBits 0x0E e (fun w a _ => leadZeros a w) s

/-- IPOPC (R300). -/
def execIpopc (e : EWord) (s : State) : Result := fireBits 0x0F e (fun w a _ => onesOf a w) s

/-- The conditions of ICMP (R302). -/
def icmpHolds (c : Nat) (a b : Int) : Bool :=
  match c with
  | 0 => a == b
  | 1 => a != b
  | 2 => a < b
  | 3 => a ≤ b
  | 4 => b < a
  | _ => b ≤ a

/-- ICMP (R300, R302). -/
def execIcmp (e : EWord) (s : State) : Result :=
  fireInt 0x10 e (fun _ a b _ => if icmpHolds (e.mod.extractLsb' 0 3).toNat a b then -1 else 0) s

end Sys2Proof.Machine
end

