-- ==== Sys2Proof/Machine/ElemFloat.lean ====
section
/-! DEFINITION. The float instructions of the elements (R303, R304). -/

namespace Sys2Proof.Machine

/-! ## Lanes of floats -/

/-- The rounding of a word (R294). -/
def rndOf (w : EWord) : Rnd :=
  match (w.mod.extractLsb' 0 2).toNat with
  | 0 => .rne
  | 1 => .rtz
  | 2 => .rup
  | _ => .rdn

/-- A word over float lanes of a, b and c, its result an encoding of the format. -/
def fireFloat (op : Nat) (e : EWord) (g : Fmt → Rnd → FV → FV → FV → Nat) (s : State) : Result :=
  fireArith op e (fun f =>
    let fm := fmtOfTy e.ty.toNat
    let w := tyWidth e.ty.toNat
    let v := fun (p : Payload) (l : Nat) => fdec fm (lane p w l)
    mapLanes w fun l => g fm (rndOf e) (v (f.pay .a) l) (v f.b l) (v (f.pay .c) l)) s

/-! ## The transcendental functions -/

/-- The integer square root, bit by bit from bit n down. -/
def isqrtFrom (x : Nat) : Nat → Nat → Nat
  | 0, r => r
  | n + 1, r => let t := r + 2 ^ n; isqrtFrom x n (if t * t ≤ x then t else r)

/-- The integer square root of a number below 2^(2n). -/
def isqrt (n x : Nat) : Nat := isqrtFrom x n 0

/-- 1 / sqrt(m * 2^e) for positive m, rounded once: 128 bits and whether anything lies below them decide (R303). -/
def rsqrtEnc (f : Fmt) (rnd : Rnd) (m : Nat) (e : Int) : Nat :=
  let odd := e % 2 ≠ 0
  let m := if odd then 2 * m else m
  let e := if odd then e - 1 else e
  let q := 2 ^ 256 / m
  let p := isqrt 130 q
  let sticky := if p * p * m = 2 ^ 256 then 0 else 1
  encRatio f rnd false (2 * p + sticky) 1 (-129 - e / 2)

/-- The number of fraction bits of the fixed-point series. -/
def fixBits : Nat := 384

/-- One in fixed point. -/
def fixOne : Nat := 2 ^ fixBits

/-- ln 2 in fixed point, from the sum of 1 / (k 2^k). -/
def fixLn2 : Nat := (List.range 400).foldl (fun s k => s + fixOne / ((k + 1) * 2 ^ (k + 1))) 0

/-- e^x - 1 in fixed point for 0 ≤ x < 1, from its Taylor series. -/
def fixExpm1 (x : Nat) : Nat :=
  ((List.range 90).foldl (fun (r : Nat × Nat) k =>
    let t := r.1 * x / fixOne / (k + 1)
    (t, r.2 + t)) (fixOne, 0)).2

/-- ln y in fixed point for 1 ≤ y < 2, from the series of the inverse hyperbolic tangent. -/
def fixLn (y : Nat) : Nat :=
  let z := (y - fixOne) * fixOne / (y + fixOne)
  let z2 := z * z / fixOne
  ((List.range 130).foldl (fun (r : Nat × Nat) k => (r.1 * z2 / fixOne, r.2 + 2 * r.1 / (2 * k + 1))) (z, 0)).2

/-- 2^a rounded once; a power of two is exact, and any other value is irrational, so its lowest bit stands for what
follows (R303, R304). -/
def exp2Enc (f : Fmt) (rnd : Rnd) (a : FV) : Nat :=
  match a with
  | .nan => f.nan
  | .inf neg => if neg then 0 else f.inf
  | .fin neg m e =>
    let q := scaleRatio m 1 e
    -- |a| = q.1 / q.2; past 4096 every format overflows or underflows
    if q.1 > 4096 * q.2 then encRatio f rnd false 1 1 (if neg then -4096 else 4096)
    else
      let x : Int := signed neg q.1
      let i := x / (q.2 : Int)
      let r := (x % (q.2 : Int)).toNat
      if r = 0 then encRatio f rnd false 1 1 i
      else
        let t := r * fixLn2 / q.2
        encRatio f rnd false (2 * (fixOne + fixExpm1 t) + 1) 1 (i - fixBits - 1)

/-- log2 a rounded once (R303, R304). -/
def log2Enc (f : Fmt) (rnd : Rnd) (a : FV) : Nat :=
  match a with
  | .nan => f.nan
  | .inf neg => if neg then f.nan else f.inf
  | .fin neg m e =>
    if m = 0 then f.signBit + f.inf
    else if neg then f.nan
    else
      let k := Nat.log2 m
      let y := m * fixOne / 2 ^ k
      let t : Int := (e + k) * (fixOne : Int) + ((fixLn y * fixOne / fixLn2 : Nat) : Int)
      if m = 2 ^ k then fenc f rnd (ofIntFV (e + k)) else encRatio f rnd (t < 0) (2 * t + 1).natAbs 1 (-fixBits - 1)

/-! ## The words -/

/-- FADD (R303). -/
def execFadd (e : EWord) (s : State) : Result := fireFloat 0x20 e (fun f r a b _ => fenc f r (vadd r a b)) s

/-- FSUB (R303). -/
def execFsub (e : EWord) (s : State) : Result := fireFloat 0x21 e (fun f r a b _ => fenc f r (vadd r a b.negate)) s

/-- FMUL (R303). -/
def execFmul (e : EWord) (s : State) : Result := fireFloat 0x22 e (fun f r a b _ => fenc f r (vmul a b)) s

/-- FFMA: one rounding (R303). -/
def execFfma (e : EWord) (s : State) : Result := fireFloat 0x23 e (fun f r a b c => fenc f r (vadd r (vmul a b) c)) s

/-- FMIN (R151, R303). -/
def execFmin (e : EWord) (s : State) : Result := fireFloat 0x24 e (fun f _ a b _ => fenc f .rne (vmin a b)) s

/-- FMAX (R151, R303). -/
def execFmax (e : EWord) (s : State) : Result := fireFloat 0x25 e (fun f _ a b _ => fenc f .rne (vmax a b)) s

/-- FABS (R303). -/
def execFabs (e : EWord) (s : State) : Result := fireFloat 0x26 e (fun f _ a _ _ => fenc f .rne a.abs) s

/-- FNEG (R303). -/
def execFneg (e : EWord) (s : State) : Result := fireFloat 0x27 e (fun f _ a _ _ => fenc f .rne a.negate) s

/-- The conditions of FCMP (R303). -/
def fcmpHolds (c : Nat) (a b : FV) : Bool :=
  let uo := a == .nan || b == .nan
  let o := vcmp a b
  match c with
  | 0 => !uo && o == 0
  | 1 => uo || o != 0
  | 2 => !uo && o < 0
  | 3 => !uo && o ≤ 0
  | 4 => !uo && 0 < o
  | 5 => !uo && 0 ≤ o
  | _ => uo

/-- FCMP (R303). -/
def execFcmp (e : EWord) (s : State) : Result :=
  fireFloat 0x28 e (fun f _ a b _ => if fcmpHolds (e.mod.extractLsb' 0 3).toNat a b then 2 ^ f.width - 1 else 0) s

/-- FCLAMP (R303). -/
def execFclamp (e : EWord) (s : State) : Result := fireFloat 0x29 e (fun f _ a b c => fenc f .rne (vmin (vmax a b) c)) s

/-- FRCP (R303, R304). -/
def execFrcp (e : EWord) (s : State) : Result := fireFloat 0x2A e (fun f r a _ _ => fdivEnc f r (.fin false 1 0) a) s

/-- FRSQ (R303, R304). -/
def frsqEnc (f : Fmt) (rnd : Rnd) (a : FV) : Nat :=
  match a with
  | .nan => f.nan
  | .inf neg => if neg then f.nan else 0
  | .fin neg m e => if m = 0 then fenc f rnd (.inf neg) else if neg then f.nan else rsqrtEnc f rnd m e

/-- FRSQ (R303, R304). -/
def execFrsq (e : EWord) (s : State) : Result := fireFloat 0x2B e (fun f r a _ _ => frsqEnc f r a) s

/-- FEXP2 (R303, R304). -/
def execFexp2 (e : EWord) (s : State) : Result := fireFloat 0x2C e (fun f r a _ _ => exp2Enc f r a) s

/-- FLOG2 (R303, R304). -/
def execFlog2 (e : EWord) (s : State) : Result := fireFloat 0x2D e (fun f r a _ _ => log2Enc f r a) s

end Sys2Proof.Machine
end

