-- ==== Sys2Proof/Machine/Converter.lean ====
section
/-! DEFINITION. The converter instructions (R323 to R327). -/

namespace Sys2Proof.Machine

/-! ## CVT -/

/-- CONV: one lane from a type to another (R228, R325). -/
def convLane (src dst : Nat) (rnd : Rnd) (sat : Bool) (x : Nat) : Nat :=
  let wd := tyWidth dst
  if src < 8 then
    let v : Int := if tySigned src then sxInt (tyWidth src) x else x
    if dst < 8 then narrow sat (tySigned dst) wd v else fenc (fmtOfTy dst) rnd (ofIntFV v)
  else
    let v := fdec (fmtOfTy src) x
    if dst < 8 then toIntSat rnd (tySigned dst) wd v else fenc (fmtOfTy dst) rnd v

/-- CVT (R325). -/
def execCvt (e : EWord) (s : State) : Result :=
  firePure 0x80 e (fun f =>
    let src := e.ty.toNat
    let dst := (e.x.extractLsb' 0 4).toNat
    let part := (e.x.extractLsb' 4 2).toNat
    let ws := tyWidth src
    let wd := tyWidth dst
    let conv := fun l => convLane src dst (rndOf e) (e.mod.getLsbD 2) (lane (f.pay .a) ws l)
    if wd ≤ ws then BitVec.ofNat 256 (ofLanes wd ((List.range (256 / ws)).map conv))
    else mapLanes wd fun l => conv (part * (256 / wd) + l)) s

/-! ## Blocks of tapered tensors -/

/-- A side token: a bound or magnitude and a block exponent (R324). -/
def sideToken (b : Nat) (e : Int) : Payload := BitVec.ofNat 256 (wrapInt 8 e * 2 ^ 32 + b % 2 ^ 32)

/-- A stored or carried bound: NaN, a negative value and +∞ are taken as +∞ (R250, R326). -/
def boundIn (x : Nat) : Nat :=
  match fdec fp32 (x % 2 ^ 32) with
  | .fin false _ _ => x % 2 ^ 32
  | .fin true 0 _ => 0
  | _ => fp32.inf

/-- Code j of a code token (R324). -/
def codeAt (t : Tensor) (p : Payload) (j : Nat) : Nat := p.toNat / 2 ^ (codeBits t * j) % 2 ^ codeBits t

/-- The number of the tensor entry that a converter word reads (R326). -/
def converterId (f : Firing) : Nat := (f.w.x.extractLsb' 0 10).toNat

/-- The tensor entry that a converter word reads; none raises TIDX (R244, R326). -/
def converterTensor (s : State) (f : Firing) : Option Tensor :=
  let t := entryOf s f (converterId f)
  if tValid t && tTapered t then some t else none

/-- The 32 values of the two half tokens (R324). -/
def halfValues (f : Firing) : List FV :=
  let fm := fmtOfTy f.w.ty.toNat
  ((List.range 16).map fun l => fdec fm (lane (f.pay .a) 16 l)) ++ (List.range 16).map fun l => fdec fm (lane (f.pay .b) 16 l)

/-- Whether a value overflows a format: infinite once rounded, or at or past the power of two above its range. -/
def overflows (f : Fmt) (rnd : Rnd) (x : FV) : Bool :=
  match x with
  | .fin _ m _ =>
    (m != 0 && vcmp x.abs (pow2 (f.bias + 1)) != -1) || fenc f rnd x % f.signBit == f.inf
  | _ => false

/-- The decoded half of a code token, and its side token (R326); +∞ where an output is NaN (DEDUCED, log 34). -/
def decodeHalf (t : Tensor) (f : Firing) : Payload × Payload :=
  let fm := fmtOfTy f.w.ty.toNat
  let rnd := rndOf f.w
  let side := (f.pay .b).toNat
  let e : Int := if tSmode t = 2 then sxInt 8 (nbits side 39 32) else 0
  let eps := if f.w.mod.getLsbD 3 then boundIn (side % 2 ^ 32) else 0
  let half := if f.w.x.getLsbD 10 then 16 else 0
  let vals := (List.range 16).map fun k => tValue t e (codeAt t (f.pay .a) (half + k))
  let outs := vals.map (fenc fm rnd)
  let top := outs.foldl (fun m x => max m (x % fm.signBit)) 0
  let b := if outs.any (fun x => fdec fm x == .nan) || vals.any (overflows fm rnd) then fp32.inf else upAdd eps (upConv (vmul (ieeeGap fm top) (pow2 (-1))))
  (BitVec.ofNat 256 (ofLanes 16 outs), sideToken b e)

/-- CVTS (R326). -/
def execCvts (e : EWord) (s : State) : Result :=
  fireWord 0x81 e (fun s f =>
    match converterTensor s f with
    | none => .fault s (fabCode 0x27) false
    | some t =>
      if e.mod.getLsbD 2 then
        let b := convBlock t (halfValues f)
        let eps := if e.mod.getLsbD 3 then boundIn ((f.pay .c).toNat % 2 ^ 32) else 0
        .done s [(0, f.token (BitVec.ofNat 256 (packBits (codeBits t) b.codes))),
                 (1, f.token (sideToken (boundOut (.fin false 1 0) eps [b]) b.exp))]
      else
        let h := decodeHalf t f
        .done s [(0, f.token h.1), (1, f.token h.2)]) s

/-- The magnitude that QNT reports (R327). -/
def quantMag (xs : List FV) : Nat := if xs.contains .nan then 0x7FC00000 else fenc fp32 .rne (maxMag xs)

/-- An amax cell takes an unsigned maximum at its LLC home (R132, R327); a fault climbs and contains nothing. -/
def amaxUpdate (s : State) (f : Firing) (va m : Nat) : State × Bool :=
  match translate s (holderAt f.n.ref) f.g.ctx f.g.part f.n.ref.die va 8 true true false with
  | (s, .wait) => (s, false)
  | (s, .fault x) => (raiseRec s f.g.gid f.n.ref f.key (recOf f.n.ref f.slot f.key x.fab) false, true)
  | (s, .ok ps) =>
    let r := loadParts s f.n.ref.die f.g.part f.g.ctx none true ps
    (storeParts r.1 f.n.ref.die f.g.part f.g.ctx true ps (toBytes 8 (max (ofBytes r.2) m)), true)

/-- QNT (R327). -/
def execQnt (e : EWord) (s : State) : Result :=
  fireWord 0x82 e (fun s f =>
    match converterTensor s f with
    | none => .fault s (fabCode 0x27) false
    | some t =>
      let xs := halfValues f
      let b := convBlock t xs
      let m := quantMag xs
      let outs := [(0, f.token (BitVec.ofNat 256 (packBits (codeBits t) b.codes))), (1, f.token (sideToken m b.exp))]
      if tAmax t = 0 || excepted s f then .done s outs
      else
        match amaxUpdate s f (tAmax t) m with
        | (s, true) => .done s outs
        | (s, false) => .wait (keepEntry f (converterId f) s)) s

end Sys2Proof.Machine
end

