-- ==== Sys2Proof/Machine/ElemFlow.lean ====
section
/-! DEFINITION. The dataflow instructions, NOP and TRAPE (R205 to R209, R306 to R315, R328, R329). -/

namespace Sys2Proof.Machine

/-! ## STEER and MERGE -/

/-- The path with a decision pushed (R205). -/
def pushPath (p : BitVec 8) (d : Bool) : BitVec 8 := (p <<< 1) ||| (if d then 1 else 0)

/-- The path with the latest decision popped (R205). -/
def popPath (p : BitVec 8) : BitVec 8 := p >>> 1

/-- A token of a firing with a decision pushed on its path. -/
def Firing.pushed (f : Firing) (k : Kind) (p : Payload) (d : Bool) : Token :=
  { f.token p with kind := k, key := { f.key with path := pushPath f.key.path d } }

/-- STEER and STEERC: every kind but data goes to both outputs, each with its own bit (R206, R307). -/
def steerBody (cancelOther : Bool) (s : State) (f : Firing) (m : Mode) : Body :=
  match m with
  | .fire =>
    let d := (f.pay .b).getLsbD 0
    let out := if d then 1 else 0
    .done s ([(out, f.pushed .data (f.pay .a) d)] ++ if cancelOther then [(1 - out, f.pushed .cancel 0 !d)] else [])
  | m =>
    .done (smismIf m s f)
      [(0, f.pushed m.kind 0 false), (1, f.pushed m.kind 0 true)]

/-- STEER (R307). -/
def execSteer (e : EWord) (s : State) : Result := fireRaw 0x50 e (steerBody false) s

/-- STEERC (R307). -/
def execSteerc (e : EWord) (s : State) : Result := fireRaw 0x51 e (steerBody true) s

/-- The token of a and b among those that a MERGE takes (R308). -/
def mergeHead (f : Firing) : Option Held := minBy Held.arr (f.heads.filter fun h => h.opd == .a || h.opd == .b)

/-- What a MERGE takes of the heads of a key: the older of a and b, and its gate; before the gate is there, only EEOS
fires it (R209, R297, R308). -/
def mergeFiring (f : Firing) : Firing :=
  let gate := f.heads.filter fun h => h.opd == .g
  let sides := f.heads.filter fun h => h.opd != .g && (!gate.isEmpty || !f.n.gated.contains f.slot || h.tok.kind == .eeos)
  { f with heads := (minBy Held.arr sides).toList ++ gate }

/-- Whether a MERGE has taken a token whose path is that of the other side (R205, R308). -/
def mergeAstray (f : Firing) : Bool := (mergeHead f).any fun h => (h.opd == .b) != f.key.path.getLsbD 0

/-- What a MERGE emits, with the latest decision popped (R205). -/
def Firing.popped (f : Firing) (k : Kind) (p : Payload) : List (Nat × Token) :=
  both { f.token p with kind := k, key := { f.key with path := popPath f.key.path } }

/-- A MERGE's EOS: held until the other side's EOS of an equal popped key is there, then one EOS leaves (R308). -/
def mergeEnd (s : State) (f : Firing) (h : Held) : Body :=
  let path := fun (k : Key) => { k with path := popPath k.path }
  let other : Opd := if h.opd = .a then .b else .a
  match f.n.ends.find? fun e => e.1 == f.slot && e.2.1 == other && path e.2.2.key == path f.key with
  | some e => .done (setNode s f.n.ref fun n => { n with ends := n.ends.erase e }) (f.popped .eos 0)
  | none => .done (setNode s f.n.ref fun n => { n with ends := n.ends ++ [(f.slot, h.opd, h.tok)] }) []

/-- What a MERGE does in each mode; CANCEL is absorbed (R206, R208, R209, R308). -/
def mergeBody (s : State) (f : Firing) (m : Mode) : Body :=
  match m, mergeHead f with
  | .fire, some h => .done s (f.popped .data h.tok.payload)
  | .ends, some h => mergeEnd s f h
  | .eeos, _ => .done s (f.popped .eeos 0)
  | .mixed, _ => .done (smismIf m s f) (f.popped .eeos 0)
  | _, _ => .done s []

/-- MERGE: it fires on a single token, and on its gate where it has one; a token of the wrong side is consumed and raises
SMISM, and nothing is emitted for it (R297, R308).  EEOS of the gate is passed on and discards what is left of the key (R209). -/
def execMerge (e : EWord) (s : State) : Result :=
  match firingAt s s.site 0x52 e with
  | none => .next s
  | some f0 =>
    let f := mergeFiring f0
    if mergeAstray f then
      let s := ensureInstance s f
      let s := raiseFault s f (fabCode 0x25)
      if f.heads.any fun h => h.opd == .g && h.tok.kind == .eeos then .next (endFiring s f .eeos (f.popped .eeos 0))
      else .next (endFiring s f .fire [])
    else fireOf mergeBody s f

/-! ## The other words -/

/-- GATE (R310). -/
def execGate (e : EWord) (s : State) : Result :=
  fireWord 0x54 e (fun s f =>
    if (f.pay .b).getLsbD 0 then .done s (both (f.token (f.pay .a)))
    else if e.mod.getLsbD 0 then .done s (both { f.token 0 with kind := .cancel })
    else .done s []) s

/-- SYNC (R310). -/
def execSync (e : EWord) (s : State) : Result := firePure 0x55 e (fun f => f.pay .a) s

/-- DUP: T0, T1 and, with T0, the target in X (R203, R311). -/
def execDup (e : EWord) (s : State) : Result := firePure 0x56 e (fun f => f.pay .a) s

/-- CONST (R312). -/
def execConst (e : EWord) (s : State) : Result :=
  firePure 0x57 e (fun f =>
    if e.mod.getLsbD 3 then f.n.hold (e.x.extractLsb' 0 3).toNat else fillLanes e.ty.toNat (immLane e.ty.toNat e.x)) s

/-- SINK: a token of any kind is taken and nothing leaves; with a gate its heads may mix (R206, R208, R313). -/
def execSink (e : EWord) (s : State) : Result := fireRaw 0x58 e (fun s f m => .done (smismIf m s f) []) s

/-- The tag of a token as a number (R192). -/
def tagNat (t : Token) : Nat :=
  let k := match t.kind with
    | .data => 0
    | .eos => 1
    | .eeos => 2
    | .mark => 3
    | .cancel => 4
    | .fault => 5
    | .reconf => 6
  t.key.ctx.toNat * 2 ^ 36 + t.key.iter.toNat * 2 ^ 20 + t.key.path.toNat * 2 ^ 12 + t.seq.toNat * 16 + k

/-- TAGGET (R314). -/
def execTagget (e : EWord) (s : State) : Result :=
  firePure 0x59 e (fun f => BitVec.ofNat 256 (((f.tok .a).map tagNat).getD 0)) s

/-- TAGSET (R314). -/
def execTagset (e : EWord) (s : State) : Result :=
  fireWord 0x5A e (fun s f =>
    let t := f.token (f.pay .a)
    match (e.mod.extractLsb' 0 2).toNat with
    | 0 => .done s (both { t with key := { t.key with path := (f.pay .b).extractLsb' 12 8 } })
    | 1 => .done s (both { t with key := { t.key with path := e.x.extractLsb' 0 8 } })
    | _ => .done s (both { t with seq := e.x.extractLsb' 0 8 })) s

/-- BLKX: the payload leaves when the instance commits (R214, R315). -/
def execBlkx (e : EWord) (s : State) : Result :=
  fireWord 0x5B e (fun s f =>
    .done (updInstance s f.n.ref f.key fun i => { i with result := i.result ++ [(f.n.ref, f.slot, f.token (f.pay .a))] }) []) s

/-- NOP never fires (R328). -/
def execNop (s : State) : Result := .next s

/-- TRAPE (R329). -/
def execTrape (e : EWord) (s : State) : Result :=
  fireWord 0xF1 e (fun s f =>
    if e.mod.getLsbD 0 || (f.pay .a).getLsbD 0 then .fault s { code := 0x29, cause := 0, aux := e.x.toNat, addr := 0 } false
    else .done s (both (f.token (f.pay .a)))) s

end Sys2Proof.Machine
end

