-- ==== Sys2Proof/Machine/ElemLane.lean ====
section
/-! DEFINITION. The lane instructions of the elements (R305). -/

namespace Sys2Proof.Machine

/-- A word whose result lanes are made from the lanes of a, b and c: the width, the lane count, the three payloads
read by lane, the lane. -/
def fireLanes (op : Nat) (e : EWord) (g : Nat → Nat → (Nat → Nat) → (Nat → Nat) → (Nat → Nat) → Nat → Nat) (s : State) : Result :=
  firePure op e (fun f =>
    let w := tyWidth e.ty.toNat
    mapLanes w fun l => g w (256 / w) (lane (f.pay .a) w) (lane (f.pay .b) w) (lane (f.pay .c) w) l) s

/-- The lane number or pattern in X (R305). -/
def xLane (e : EWord) : Nat := (e.x.extractLsb' 0 8).toNat

/-- The reduction of float lanes: the sum exact and rounded once (R305). -/
def reduceFloat (f : Fmt) (rnd : Rnd) (op : Nat) : List FV → Nat
  | [] => 0
  | x :: xs =>
    match op with
    | 0 => fenc f rnd (xs.foldl (vadd rnd) x)
    | 1 => fenc f .rne (xs.foldl vmax x)
    | _ => fenc f .rne (xs.foldl vmin x)

/-- The reduction of integer lanes (R305). -/
def reduceInt (w op : Nat) : List Int → Nat
  | [] => 0
  | x :: xs =>
    wrapInt w (match op with
      | 0 => xs.foldl (· + ·) x
      | 1 => xs.foldl max x
      | _ => xs.foldl min x)

/-- VRED (R305). -/
def execVred (e : EWord) (s : State) : Result :=
  firePure 0x40 e (fun f =>
    let ty := e.ty.toNat
    let w := tyWidth ty
    let op := (e.mod.extractLsb' 2 2).toNat
    let ls := List.range (256 / w)
    let r :=
      if ty < 8 then reduceInt w op (ls.map (intLane ty (f.pay .a)))
      else reduceFloat (fmtOfTy ty) (rndOf e) op (ls.map fun l => fdec (fmtOfTy ty) (lane (f.pay .a) w l))
    BitVec.ofNat 256 (r % 2 ^ w)) s

/-- VPERM (R305). -/
def execVperm (e : EWord) (s : State) : Result := fireLanes 0x41 e (fun _ n a b _ l => a (b l % n)) s

/-- VBCAST (R305). -/
def execVbcast (e : EWord) (s : State) : Result := fireLanes 0x42 e (fun _ _ a _ _ _ => a (xLane e)) s

/-- VSEL: a lane of c selects where any bit of it is set (R305). -/
def execVsel (e : EWord) (s : State) : Result := fireLanes 0x43 e (fun _ _ a b c l => if c l ≠ 0 then a l else b l) s

/-- VEXT (R305). -/
def execVext (e : EWord) (s : State) : Result :=
  fireLanes 0x44 e (fun _ n a b _ l => if l + xLane e < n then a (l + xLane e) else b (l + xLane e - n)) s

/-- VINS (R305). -/
def execVins (e : EWord) (s : State) : Result := fireLanes 0x45 e (fun _ _ a b _ l => if l = xLane e then b 0 else a l) s

/-- The patterns of VSHUF (R305). -/
def shuffle (pat n : Nat) (a b : Nat → Nat) (l : Nat) : Nat :=
  let h := n / 2
  match pat with
  | 0 => if l % 2 = 0 then a (l / 2) else b (l / 2)
  | 1 => if l % 2 = 0 then a (l / 2 + h) else b (l / 2 + h)
  | 2 => if l < h then a (2 * l) else b (2 * (l - h))
  | _ => if l < h then a (2 * l + 1) else b (2 * (l - h) + 1)

/-- VSHUF (R305). -/
def execVshuf (e : EWord) (s : State) : Result :=
  fireLanes 0x46 e (fun _ n a b _ l => shuffle (e.x.extractLsb' 0 2).toNat n a b l) s

end Sys2Proof.Machine
end

