-- ==== Sys2Proof/Machine/Integer.lean ====
section
/-! DEFINITION. The integer, constant, compare and predicate instructions of the sequencer (R258 to R264). -/

namespace Sys2Proof.Machine

/-- s[D] := f (s[A], s[B]), and on to the next word. -/
def aluRR (f : Word → Word → Word) (d a b : Reg) (s : State) : Result :=
  .next (s.updCpu fun c => (c.setReg d (f (c.reg a) (c.reg b))).next)

/-- s[D] := f (s[A]), and on to the next word. -/
def aluR (f : Word → Word) (d a : Reg) (s : State) : Result := .next (s.updCpu fun c => (c.setReg d (f (c.reg a))).next)

/-- p[D] := r (s[A], s[B]), and on to the next word. -/
def cmpRR (r : Rel) (d : Pred) (a b : Reg) (s : State) : Result :=
  .next (s.updCpu fun c => (c.setPred d (r.holds (c.reg a) (c.reg b))).next)

/-- p[D] := r (s[A], SX(I12)), and on to the next word. -/
def cmpRI (r : Rel) (d : Pred) (a : Reg) (i : BitVec 12) (s : State) : Result :=
  .next (s.updCpu fun c => (c.setPred d (r.holds (c.reg a) (sext i))).next)

/-- A shift amount: bits 5:0 of a word (R258). -/
def shamt (w : Word) : Nat := w.toNat % 64

/-- Bits 127:64 of the signed product (R258). -/
def mulHigh (x y : Word) : Word := BitVec.ofInt 64 (x.toInt * y.toInt / 2 ^ 64)

/-- Bits 127:64 of the unsigned product (R258). -/
def mulHighU (x y : Word) : Word := BitVec.ofNat 64 (x.toNat * y.toNat / 2 ^ 64)

/-- The signed quotient, rounded toward zero, with the cases of R259. -/
def divS (x y : Word) : Word := if y = 0 then -1 else BitVec.ofInt 64 (x.toInt.tdiv y.toInt)

/-- The unsigned quotient, with the case of R259. -/
def divU (x y : Word) : Word := if y = 0 then -1 else BitVec.ofNat 64 (x.toNat / y.toNat)

/-- The signed remainder, with the sign of the dividend and the cases of R259. -/
def remS (x y : Word) : Word := if y = 0 then x else BitVec.ofInt 64 (x.toInt.tmod y.toInt)

/-- The unsigned remainder, with the case of R259. -/
def remU (x y : Word) : Word := if y = 0 then x else BitVec.ofNat 64 (x.toNat % y.toNat)

/-- The number of leading zero bits, 0 to 64 (R260). -/
def clz64 (x : Word) : Word := BitVec.ofNat 64 (if x = 0 then 64 else 63 - Nat.log2 x.toNat)

/-- The number of one bits (R260). -/
def popc64 (x : Word) : Word := BitVec.ofNat 64 ((List.range 64).countP fun i => x.getLsbD i)

/-- ADD (R258). -/
def execAdd (d a b : Reg) (s : State) : Result := aluRR (fun x y => x + y) d a b s

/-- SUB (R258). -/
def execSub (d a b : Reg) (s : State) : Result := aluRR (fun x y => x - y) d a b s

/-- MUL (R258). -/
def execMul (d a b : Reg) (s : State) : Result := aluRR (fun x y => x * y) d a b s

/-- MULH (R258). -/
def execMulh (d a b : Reg) (s : State) : Result := aluRR mulHigh d a b s

/-- MULHU (R258). -/
def execMulhu (d a b : Reg) (s : State) : Result := aluRR mulHighU d a b s

/-- DIV (R258, R259). -/
def execDiv (d a b : Reg) (s : State) : Result := aluRR divS d a b s

/-- DIVU (R258, R259). -/
def execDivu (d a b : Reg) (s : State) : Result := aluRR divU d a b s

/-- REM (R258, R259). -/
def execRem (d a b : Reg) (s : State) : Result := aluRR remS d a b s

/-- REMU (R258, R259). -/
def execRemu (d a b : Reg) (s : State) : Result := aluRR remU d a b s

/-- AND (R258). -/
def execAnd (d a b : Reg) (s : State) : Result := aluRR (fun x y => x &&& y) d a b s

/-- OR (R258). -/
def execOr (d a b : Reg) (s : State) : Result := aluRR (fun x y => x ||| y) d a b s

/-- XOR (R258). -/
def execXor (d a b : Reg) (s : State) : Result := aluRR (fun x y => x ^^^ y) d a b s

/-- SHL (R258). -/
def execShl (d a b : Reg) (s : State) : Result := aluRR (fun x y => x <<< shamt y) d a b s

/-- SHR (R258). -/
def execShr (d a b : Reg) (s : State) : Result := aluRR (fun x y => x >>> shamt y) d a b s

/-- SRA (R258). -/
def execSra (d a b : Reg) (s : State) : Result := aluRR (fun x y => x.sshiftRight (shamt y)) d a b s

/-- MIN (R258). -/
def execMin (d a b : Reg) (s : State) : Result := aluRR (fun x y => if y.slt x then y else x) d a b s

/-- MAX (R258). -/
def execMax (d a b : Reg) (s : State) : Result := aluRR (fun x y => if x.slt y then y else x) d a b s

/-- MINU (R258). -/
def execMinu (d a b : Reg) (s : State) : Result := aluRR (fun x y => if y.ult x then y else x) d a b s

/-- MAXU (R258). -/
def execMaxu (d a b : Reg) (s : State) : Result := aluRR (fun x y => if x.ult y then y else x) d a b s

/-- CLZ (R260). -/
def execClz (d a : Reg) (s : State) : Result := aluR clz64 d a s

/-- POPC (R260). -/
def execPopc (d a : Reg) (s : State) : Result := aluR popc64 d a s

/-- SEL (R260). -/
def execSel (d a b : Reg) (p : Pred) (s : State) : Result :=
  .next (s.updCpu fun c => (c.setReg d (if c.pred p then c.reg a else c.reg b)).next)

/-- MOV (R260). -/
def execMov (d a : Reg) (s : State) : Result := aluR (fun x => x) d a s

/-- ADDI (R261). -/
def execAddi (d a : Reg) (i : BitVec 12) (s : State) : Result := aluR (fun x => x + sext i) d a s

/-- ANDI (R261). -/
def execAndi (d a : Reg) (i : BitVec 12) (s : State) : Result := aluR (fun x => x &&& sext i) d a s

/-- ORI (R261). -/
def execOri (d a : Reg) (i : BitVec 12) (s : State) : Result := aluR (fun x => x ||| sext i) d a s

/-- XORI (R261). -/
def execXori (d a : Reg) (i : BitVec 12) (s : State) : Result := aluR (fun x => x ^^^ sext i) d a s

/-- SHLI (R261). -/
def execShli (d a : Reg) (i : BitVec 6) (s : State) : Result := aluR (fun x => x <<< i.toNat) d a s

/-- SHRI (R261). -/
def execShri (d a : Reg) (i : BitVec 6) (s : State) : Result := aluR (fun x => x >>> i.toNat) d a s

/-- SRAI (R261). -/
def execSrai (d a : Reg) (i : BitVec 6) (s : State) : Result := aluR (fun x => x.sshiftRight i.toNat) d a s

/-- CMPEQI (R263). -/
def execCmpeqi (d : Pred) (a : Reg) (i : BitVec 12) (s : State) : Result := cmpRI .eq d a i s

/-- CMPNEI (R263). -/
def execCmpnei (d : Pred) (a : Reg) (i : BitVec 12) (s : State) : Result := cmpRI .ne d a i s

/-- CMPLTI (R263). -/
def execCmplti (d : Pred) (a : Reg) (i : BitVec 12) (s : State) : Result := cmpRI .lt d a i s

/-- CMPGEI (R263). -/
def execCmpgei (d : Pred) (a : Reg) (i : BitVec 12) (s : State) : Result := cmpRI .ge d a i s

/-- LI, short form (R262). -/
def execLiShort (d : Reg) (i : BitVec 18) (s : State) : Result := .next (s.updCpu fun c => (c.setReg d (sext i)).next)

/-- LI, long form (R262). -/
def execLiLong (d : Reg) (i : BitVec 46) (s : State) : Result := .next (s.updCpu fun c => (c.setReg d (sext i)).next2)

/-- LIH: bits 63:46 are replaced (R262). -/
def execLih (d : Reg) (i : BitVec 18) (s : State) : Result :=
  .next (s.updCpu fun c => (c.setReg d (i ++ (c.reg d).setWidth 46)).next)

/-- CMPEQ (R263). -/
def execCmpeq (d : Pred) (a b : Reg) (s : State) : Result := cmpRR .eq d a b s

/-- CMPNE (R263). -/
def execCmpne (d : Pred) (a b : Reg) (s : State) : Result := cmpRR .ne d a b s

/-- CMPLT (R263). -/
def execCmplt (d : Pred) (a b : Reg) (s : State) : Result := cmpRR .lt d a b s

/-- CMPGE (R263). -/
def execCmpge (d : Pred) (a b : Reg) (s : State) : Result := cmpRR .ge d a b s

/-- CMPLTU (R263). -/
def execCmpltu (d : Pred) (a b : Reg) (s : State) : Result := cmpRR .ltu d a b s

/-- CMPGEU (R263). -/
def execCmpgeu (d : Pred) (a b : Reg) (s : State) : Result := cmpRR .geu d a b s

/-- PAND (R264). -/
def execPand (d a b : Pred) (s : State) : Result :=
  .next (s.updCpu fun c => (c.setPred d (c.pred a && c.pred b)).next)

/-- POR (R264). -/
def execPor (d a b : Pred) (s : State) : Result :=
  .next (s.updCpu fun c => (c.setPred d (c.pred a || c.pred b)).next)

/-- PNOT (R264). -/
def execPnot (d a : Pred) (s : State) : Result := .next (s.updCpu fun c => (c.setPred d (!c.pred a)).next)

end Sys2Proof.Machine
end

