-- ==== Sys2Proof/Machine/Copies.lean ====
section
/-! DEFINITION. Copies, copies with compute, gathers and near-bank dot jobs, and what their engines do (R110, R111,
R143 to R153, R157 to R160, R254). -/

namespace Sys2Proof.Machine

/-! ## Tags -/

/-- One bit of a 64-bit register. -/
def tagBit (t : Nat) : Word := 1#64 <<< t

/-- A tag becomes BUSY (R143). -/
def tagIssue (t : Nat) (c : Seq) : Seq :=
  { c with ctag := c.ctag &&& ~~~tagBit t, ctagf := c.ctagf &&& ~~~tagBit t, ctbusy := c.ctbusy ||| tagBit t }

/-- CFINFO (R144). -/
def cfinfoWord (job write : Bool) (t cause : Nat) : Word :=
  BitVec.ofNat 64 ((if job then 32768 else 0) + (if write then 16384 else 0) + t * 256 + cause)

/-- A tag becomes READY; with a fault its CTAGF bit, CFADDR and CFINFO are written (R143, R144). -/
def tagReady (t : Nat) (fault : Option (Nat × Nat × Bool × Bool)) (c : Seq) : Seq :=
  let c := { c with ctag := c.ctag ||| tagBit t, ctbusy := c.ctbusy &&& ~~~tagBit t }
  match fault with
  | none => c
  | some (cause, va, write, job) =>
    { c with ctagf := c.ctagf ||| tagBit t, cfaddr := BitVec.ofNat 64 va, cfinfo := cfinfoWord job write t cause }

/-- The tag field of a payload (R147, R157). -/
def plTag (pl : BitVec 32) : Nat := (pl.extractLsb' 0 6).toNat

/-- Whether a copy of the moving sequencer must wait at issue: a fence holds it, its tag is BUSY, or its class is full
(R120, R143, R153). -/
def copyWaits (s : State) (t : Nat) : Bool :=
  enginesHeld s s.cur || bit s.cpu.ctbusy t || copyCount s s.cur ≥ 63

/-- Whether a job is a dot job. -/
def JobKind.isDot : JobKind → Bool
  | .bdot _ _ => true
  | _ => false

/-- The number of a side's entry: those of a copy are 0 to 2, those of a dot job, which are hardware of another kind, 4 to 7
(R63). -/
def sideNo (k : JobKind) (side : Nat) : Nat := if k.isDot then 4 + side else side

/-- A new dot job has each of its entries filled before its first access on that side, whatever an earlier job under its tag
has left there (R63). -/
def forgetDotEntries (s : State) (q : SeqId) (tag : Nat) : State :=
  { s with tlb := s.tlb.filter fun e => match e.holder with
      | .engine p t side => !(p == q && t == tag && 4 ≤ side)
      | _ => true }

/-- A copy or job is issued: its limits decide at once, else its tag is BUSY and the job stands (R143, R145, R148). -/
def startJob (s : State) (u : UnitRec) (k : JobKind) (t : Nat) (dst src len aux : Word) (tensor : Tensor)
    (causes : List Nat) (empty : Bool) : State :=
  let s := if k.isDot then forgetDotEntries s s.cur t else s
  match causes with
  | c :: cs => s.updCpu fun q => (tagReady t (some (minNat c cs, 0, false, k.isDot)) (tagIssue t q)).next2
  | [] =>
    if empty then s.updCpu fun q => (tagReady t none (tagIssue t q)).next2
    else
      let j : Job :=
        { q := s.cur, tag := t, ctx := u.ctx, part := u.part, die := dieOfSeq s.cur, handle := u.handle.toNat,
          launch := u.launch, kind := k, dst := dst, src := src, len := len, aux := aux, tensor := tensor, pos := 0,
          acc := 0, spilled := false, group := [] }
      { s with jobs := s.jobs ++ [j] }.updCpu fun q => (tagIssue t q).next2

/-- A cause when a test holds. -/
def causeIf (b : Bool) (c : Nat) : List Nat := if b then [c] else []

/-- COPY (R147, R148). -/
def execCopy (d a b : Reg) (tag : BitVec 6) (s : State) : Result :=
  withUnit s fun u =>
    if copyWaits s tag.toNat then s
    else
      let dst := s.cpu.reg d
      let src := s.cpu.reg a
      let len := s.cpu.reg b
      startJob s u .copy tag.toNat dst src len 0 0
        (causeIf (len.toNat > 2 ^ 32) 0x20 ++ causeIf (overlaps dst.toNat len.toNat src.toNat len.toNat) 0x26) (len == 0)

/-! ## COPYX -/

/-- The fields of COPYX's payload (R149). -/
def xSty (pl : BitVec 32) : Nat := (pl.extractLsb' 8 4).toNat
def xForm (pl : BitVec 32) : Nat := (pl.extractLsb' 6 2).toNat
def xMax (pl : BitVec 32) : Bool := pl.getLsbD 12
def xLogb (pl : BitVec 32) : Nat := (pl.extractLsb' 13 4).toNat

/-- Bytes of a source element. -/
def xSize (pl : BitVec 32) : Nat := if xSty pl = 10 then 4 else 2

/-- Bits of one output and the number of outputs of n elements (R150). -/
def xOutBits (pl : BitVec 32) (t : Tensor) : Nat := if xForm pl = 2 then codeBits t else 8 * xSize pl
def xOutputs (pl : BitVec 32) (n : Nat) : Nat := if xForm pl = 3 then n / 2 ^ xLogb pl else n

/-- Bytes of the destination range. -/
def xDstLen (pl : BitVec 32) (t : Tensor) (n : Nat) : Nat := (xOutputs pl n * xOutBits pl t + 7) / 8

/-- Bytes of a group of 1,024 outputs that a bound covers (R150). -/
def xGroupBytes (t : Tensor) : Nat :=
  match tFmt t with
  | 12 => 1024
  | 13 => 768
  | f => 1024 * fmtSize f

/-- The limits of COPYX (R150). -/
def xCauses (pl : BitVec 32) (t : Tensor) (dst src len aux : Nat) : List Nat :=
  let e := xSize pl
  let n := len / e
  let dl := xDstLen pl t n
  let inPlace := xForm pl != 2 || xOutBits pl t ≤ 8 * e || n ≤ 1
  causeIf (len > 2 ^ 32) 0x20 ++
  causeIf (src % e != 0 || dst % e != 0 || len % e != 0 || (xForm pl == 1 && aux % e != 0)) 0x21 ++
  causeIf (xForm pl == 3 && n % 2 ^ xLogb pl != 0) 0x21 ++
  causeIf (xForm pl == 2 && tValid t && tBsto t &&
    (dst < tBase t || (dst - tBase t) % xGroupBytes t != 0)) 0x21 ++
  causeIf (xForm pl == 2 && tValid t && (tFmt t == 0 || tSmode t == 2)) 0x22 ++
  causeIf (xForm pl == 2 && !tValid t) 0x23 ++
  causeIf (overlaps dst dl src len && !(dst == src && inPlace)) 0x26 ++
  causeIf (xForm pl == 1 && overlaps dst dl aux len && !(dst == aux && inPlace)) 0x26

/-- COPYX (R149 to R151). -/
def execCopyx (d a b f : Reg) (pl : BitVec 32) (s : State) : Result :=
  withUnit s fun u =>
    if copyWaits s (plTag pl) then s
    else
      let c := s.cpu
      let aux := if xForm pl = 3 then 0 else c.reg f
      let t := if xForm pl = 2 then tensorOf s u.ctx (bits aux 9 0) else 0
      startJob s u (.copyx pl) (plTag pl) (c.reg d) (c.reg a) (c.reg b) aux t
        (xCauses pl t (c.reg d).toNat (c.reg a).toNat (c.reg b).toNat aux.toNat) (c.reg b == 0)

/-- log2 of the row size of COPYG (R152). -/
def gRsz (pl : BitVec 32) : Nat := (pl.extractLsb' 6 5).toNat

/-- COPYG (R152). -/
def execCopyg (d a b f : Reg) (pl : BitVec 32) (s : State) : Result :=
  withUnit s fun u =>
    if copyWaits s (plTag pl) then s
    else
      let c := s.cpu
      let n := (c.reg f).toNat
      let z := 2 ^ gRsz pl
      startJob s u (.copyg pl) (plTag pl) (c.reg d) (c.reg a) (c.reg b) (c.reg f) 0
        (causeIf (n > 2 ^ 20) 0x20 ++
         causeIf ((c.reg a).toNat % z != 0 || (c.reg d).toNat % z != 0 || (c.reg b).toNat % 4 != 0) 0x21 ++
         causeIf (overlaps (c.reg d).toNat (n * z) (c.reg b).toNat (4 * n)) 0x26) (n == 0)

/-! ## BDOT -/

/-- The fields of BDOT's payload (R157). -/
def dVt (pl : BitVec 32) : Nat := (pl.extractLsb' 10 2).toNat
def dSat (pl : BitVec 32) : Bool := pl.getLsbD 9
def dGroup (pl : BitVec 32) : Nat := 32 * 2 ^ (pl.extractLsb' 7 2).toNat
def dSi4 (pl : BitVec 32) : Bool := pl.getLsbD 6

/-- Bytes of a vector element. -/
def dVecSize (pl : BitVec 32) : Nat := 2 ^ dVt pl

/-- The fields of a descriptor (R158). -/
def dWbase (x : BitVec 256) : Nat := (x.extractLsb' 0 64).toNat
def dRows (x : BitVec 256) : Nat := (x.extractLsb' 64 32).toNat
def dLen (x : BitVec 256) : Nat := (x.extractLsb' 96 32).toNat
def dStride (x : BitVec 256) : Nat := (x.extractLsb' 128 64).toNat
def dSbase (x : BitVec 256) : Nat := (x.extractLsb' 192 64).toNat

/-- Whether a descriptor, an output address or a vector address is outside its limits (R158). -/
def dBad (pl : BitVec 32) (x : BitVec 256) (dst vec : Nat) : Bool :=
  dWbase x % 128 != 0 || dRows x < 1 || 65536 < dRows x || dLen x < dGroup pl || 65536 < dLen x || dLen x % dGroup pl != 0 ||
  dStride x % 128 != 0 || dStride x < (if dSi4 pl then dLen x / 2 else dLen x) || dSbase x % 2 != 0 || dst % 4 != 0 ||
  vec % dVecSize pl != 0

/-- BDOT (R157, R158).  A FENCE that holds it has been waited for (copyWaits); one that does not hold it does not hold the load
of its descriptor either (R135). -/
def execBdot (d a b : Reg) (pl : BitVec 32) (s : State) : Result :=
  withUnit s fun u =>
    if copyWaits s (plTag pl) then s
    else
      let c := s.cpu
      let va := c.reg a
      if va.toNat % 32 ≠ 0 then trapMisal s va false false
      else
        match seqLoadAt false s u va.toNat 32 with
        | (s, .fault f) => trapFault s f
        | (s, .wait) => s
        | (s, .bytes bs) =>
          let x : BitVec 256 := BitVec.ofNat 256 (ofBytes bs)
          startJob s u (.bdot pl x) (plTag pl) (c.reg d) va (c.reg b) 0 0
            (causeIf (dBad pl x (c.reg d).toNat (c.reg b).toNat) 0x25) false

/-! ## The engines -/

/-- What one step of an engine comes to. -/
inductive JobStep where
  | more (j : Job)
  | done
  | stall
  | fault (cause va : Nat) (write : Bool)
  deriving DecidableEq, Repr

/-- Whether an address lies in HBM4E. -/
def isHbm (pa : Nat) : Bool :=
  match region pa with
  | .hbm _ => true
  | _ => false

/-- What a page gives a side of a job: base-die engines reach no array (R90); a dot job's weight rows lie in HBM4E, and
its other sides in no window (R90, R158); the host window waits for its link (R433). -/
def engReach (s : State) (j : Job) (side : Nat) (write : Bool) : Reach := fun leaf va =>
  let flt := fun (c : Nat) =>
    some (some { cause := c, addr := va, level := levelOf leaf.lg, write := write, atomic := false, key := 0 : FaultInfo })
  let pa := leaf.pa va
  if inArrays pa then flt 0x0B
  else if j.kind.isDot && side = 0 && !isHbm pa then flt 0x24
  else if j.kind.isDot && isFar pa then flt 0x0B
  else
    match region pa with
    | .host => if s.linkUp then none else some none
    | _ => none

/-- Translate bytes of one page for a side of a job (R63, R147). -/
def engTranslate (s : State) (j : Job) (side va n : Nat) (write : Bool) : State × Trans :=
  translateWith s (.engine j.q j.tag (sideNo j.kind side)) j.ctx j.part j.die va n write false false (engReach s j side write)

/-- The pages of a range on a side, to be translated before the unit begins. -/
def pageChecks (side va n : Nat) (write : Bool) : List (Nat × Nat × Nat × Bool) :=
  (chunks 65536 (n / 65536 + 2) va n).map fun p => (side, p.1, p.2, write)

/-- The lines of a range that a side reads. -/
def lineReads (side va n : Nat) : List (Nat × Nat × Nat) := (chunks 128 (n / 128 + 2) va n).map fun p => (side, p.1, p.2)

/-- The lines of bytes that a side writes, lowest first; top bits of the last byte are written, 0 for all. -/
def lineWrites (side va : Nat) (bs : List Byte) (top : Nat) : List JobWrite :=
  (chunks 128 (bs.length / 128 + 2) va bs.length).map fun p =>
    { side := side, va := p.1, bytes := sliceOf bs (p.1 - va) p.2, top := if p.1 + p.2 = va + bs.length then top else 0 }

/-- The bytes left in a destination page, or of the range. -/
def pageRest (va n : Nat) : Nat := min n (65536 - va % 65536)

/-- What a side of a unit has read. -/
def Job.bytesOf (j : Job) (side : Nat) : List Byte := (j.got.filter fun g => g.1 == side).flatMap Prod.snd

/-- The next line of a COPY; at the first line of a destination page the whole page's bytes are translated on both sides
(R148). -/
def planCopy (j : Job) : Option Job :=
  let d := j.dst.toNat + j.pos
  let a := j.src.toNat + j.pos
  let left := j.len.toNat - j.pos
  if left = 0 then none
  else
    let n := min left (128 - d % 128)
    let page := pageRest d left
    some { j with
      stage := 1
      checks := if j.pos = 0 || d % 65536 = 0 then pageChecks 0 a page false ++ pageChecks 2 d page true else []
      reads := lineReads 0 a n
      next := j.pos + n }

/-- Source elements from bytes. -/
def splitElems (e : Nat) : Nat → List Byte → List Nat
  | 0, _ => []
  | n + 1, bs => ofBytes (bs.take e) :: splitElems e n (bs.drop e)

/-- A block reduced (R150, R151). -/
def reduceBlock (maxOp : Bool) : List FV → FV
  | [] => .fin false 0 0
  | x :: xs =>
    xs.foldl (fun acc y => if maxOp then vmax acc y else fdec fp32 (fenc fp32 .rne (vadd .rne acc y)))
      (fdec fp32 (fenc fp32 .rne x))

/-- The outputs of a COPYX from the source elements of a run, and for add the second source's (R150, R151). -/
def xOuts (pl : BitVec 32) (t : Tensor) (aux : Word) (xs zs : List Nat) : List Nat :=
  let f := fmtOfTy (xSty pl)
  match xForm pl with
  | 0 => xs.map fun x => fenc f .rne (vmul (fdec f x) (fdec fp32 (bits aux 31 0)))
  | 1 => (xs.zip zs).map fun p => fenc f .rne (vadd .rne (fdec f p.1) (fdec f p.2))
  | 2 => xs.map fun x => tRound t 0 (fdec f x)
  | _ =>
    let m := 2 ^ xLogb pl
    (List.range (xs.length / m)).map fun k =>
      fenc f .rne (reduceBlock (xMax pl) ((xs.drop (k * m)).take m |>.map (fdec f)))

/-- Where the batch of destination pages that begins at byte pos of the run ends: at the first page end that no output
straddles, else at the end of the run, so that an output is written only when every page it lies in is (R150). -/
def xBatchEnd (dst ob total pos : Nat) : Nat :=
  let e := pos + (65536 - (dst + pos) % 65536)
  match [e, e + 65536, e + 131072].find? fun x => 8 * x % ob == 0 with
  | some x => min x total
  | none => total

/-- The groups of outputs that end in a batch: the index of each and the source elements it is made from, those of the
group that was open before it first; and the elements of the group that stays open (R150). -/
def xGroups (n : Nat) : Nat → Nat → List Nat → List (Nat × List Nat) × List Nat
  | 0, _, xs => ([], xs)
  | fuel + 1, g, xs =>
    if xs.isEmpty then ([], [])
    else if xs.length ≥ 1024 || g * 1024 + xs.length ≥ n then
      let r := xGroups n fuel (g + 1) (xs.drop 1024)
      ((g, xs.take 1024) :: r.1, r.2)
    else ([], xs)

/-- The batch that a COPYX has in hand: its end, its first output and the number of its outputs (R150). -/
def xBatch (j : Job) (pl : BitVec 32) : Nat × Nat × Nat :=
  let n := j.len.toNat / xSize pl
  let ob := xOutBits pl j.tensor
  let stop := xBatchEnd j.dst.toNat ob (xDstLen pl j.tensor n) j.pos
  let i0 := 8 * j.pos / ob
  (stop, i0, min (xOutputs pl n) (8 * stop / ob) - i0)

/-- How many source elements an output is made from. -/
def xBlock (pl : BitVec 32) : Nat := if xForm pl = 3 then 2 ^ xLogb pl else 1

/-- The groups of a cast that end in the batch, with their source elements, and what stays open (R150). -/
def xBatchGroups (j : Job) (pl : BitVec 32) (i0 : Nat) (xs : List Nat) : List (Nat × List Nat) × List Nat :=
  if xForm pl = 2 && tBsto j.tensor then
    let n := j.len.toNat / xSize pl
    xGroups n (n / 1024 + 1) (i0 / 1024) (j.group ++ xs)
  else ([], j.group)

/-- The tile of the bound of a group (R150). -/
def xTile (j : Job) (g : Nat) : Nat := (j.dst.toNat - tBase j.tensor) / xGroupBytes j.tensor + g

/-- The next batch of destination pages of a COPYX: every page on every side is translated before any is written, those of
the bounds that end in it too (R150). -/
def planCopyx (j : Job) (pl : BitVec 32) : Option Job :=
  let e := xSize pl
  if xDstLen pl j.tensor (j.len.toNat / e) ≤ j.pos then none
  else
    let b := xBatch j pl
    let lo := b.2.1 * xBlock pl
    let cnt := b.2.2 * xBlock pl
    let two := if xForm pl = 1 then cnt * e else 0
    let gs := (xBatchGroups j pl b.2.1 (List.replicate cnt 0)).1
    some { j with
      stage := 1
      checks := pageChecks 0 (j.src.toNat + lo * e) (cnt * e) false ++ pageChecks 1 (j.aux.toNat + lo * e) two false ++
        pageChecks 2 (j.dst.toNat + j.pos) (b.1 - j.pos) true ++
        gs.flatMap fun x => pageChecks 2 (boundVa j.tensor (xTile j x.1)) 4 true
      reads := lineReads 0 (j.src.toNat + lo * e) (cnt * e) ++ lineReads 1 (j.aux.toNat + lo * e) two
      next := b.1 }

/-- The outputs of the batch, and the bounds of the groups of a cast that end in it (R150). -/
def makeCopyx (j : Job) (pl : BitVec 32) : Job :=
  let e := xSize pl
  let ob := xOutBits pl j.tensor
  let b := xBatch j pl
  let cnt := b.2.2 * xBlock pl
  let xs := splitElems e cnt (j.bytesOf 0)
  let zs := splitElems e (if xForm pl = 1 then cnt else 0) (j.bytesOf 1)
  let bits_ := b.2.2 * ob
  let outs := toBytes ((bits_ + 7) / 8) (packBits ob (xOuts pl j.tensor j.aux xs zs) % 2 ^ bits_)
  let gs := xBatchGroups j pl b.2.1 xs
  let bound := fun (x : Nat × List Nat) =>
    boundOut (.fin false 1 0) 0 [convBlock j.tensor (x.2.map (fdec (fmtOfTy (xSty pl))))]
  { j with
    group := gs.2
    writes := lineWrites 2 (j.dst.toNat + j.pos) outs (bits_ % 8) ++
      gs.1.flatMap fun x => lineWrites 2 (boundVa j.tensor (xTile j x.1)) (toBytes 4 (bound x)) 0 }

/-- The next row of a gather: its index is read first, then the row (R152). -/
def planCopyg (j : Job) : Option Job :=
  if j.pos ≥ j.aux.toNat then none
  else
    let iva := j.len.toNat + 4 * j.pos
    some { j with stage := 1, checks := pageChecks 1 iva 4 false, reads := [(1, iva, 4)], next := j.pos + 1 }

/-- After the index the row's pages are translated and it is read whole; then it is written (R152). -/
def makeCopyg (j : Job) (pl : BitVec 32) : Job :=
  let z := 2 ^ gRsz pl
  let d := j.dst.toNat + j.pos * z
  if j.stage = 1 then
    let a := j.src.toNat + ofBytes (j.bytesOf 1) * z
    { j with stage := 2, checks := pageChecks 0 a z false ++ pageChecks 2 d z true, reads := lineReads 0 a z }
  else { j with writes := lineWrites 2 d (j.bytesOf 0) 0 }

/-- The products of one group summed (R159, R254). -/
def groupSum (sat : Bool) (ws vs : List Int) : Int :=
  (ws.zip vs).foldl (fun sum p => sxInt 32 (narrow sat true 32 (sum + p.1 * p.2))) 0

/-- The weights of a group from its bytes (R159, R229). -/
def groupWeights (si4 : Bool) (bs : List Byte) : List Int :=
  if si4 then bs.flatMap fun b => [sxInt 4 (b.toNat % 16), sxInt 4 (b.toNat / 16)] else bs.map fun b => sxInt 8 b.toNat

/-- The next group of a dot job; with a row's last group the page of its output is translated too (R158, R159). -/
def planBdot (j : Job) (pl : BitVec 32) (x : BitVec 256) : Option Job :=
  let g := dGroup pl
  let ng := dLen x / g
  if j.pos ≥ dRows x * ng then none
  else
    let r := j.pos / ng
    let k := j.pos % ng
    let wn := if dSi4 pl then g / 2 else g
    let wva := dWbase x + r * dStride x + k * wn
    let vn := g * dVecSize pl
    let vva := j.len.toNat + k * vn
    let sva := dSbase x + 2 * (r * ng + k)
    some { j with
      stage := 1
      checks := pageChecks 0 wva wn false ++ pageChecks 1 vva vn false ++ pageChecks 2 sva 2 false ++
        if k + 1 < ng then [] else pageChecks 3 (j.dst.toNat + 4 * r) 4 true
      reads := lineReads 0 wva wn ++ lineReads 1 vva vn ++ [(2, sva, 2)]
      next := j.pos + 1 }

/-- The group's term is added; after a row's last group its output is written (R159). -/
def makeBdot (j : Job) (pl : BitVec 32) (x : BitVec 256) : Job :=
  let ng := dLen x / dGroup pl
  let k := j.pos % ng
  let weights := groupWeights (dSi4 pl) (j.bytesOf 0)
  let vec := (splitElems (dVecSize pl) (dGroup pl) (j.bytesOf 1)).map (sxInt (8 * dVecSize pl))
  let sum := groupSum (dSat pl) weights vec
  let sc := fdec bf16 (ofBytes (j.bytesOf 2))
  let acc := fdec fp32 (if k = 0 then 0 else j.acc.toNat)
  let acc := fenc fp32 .rne (vadd .rne acc (vmul (ofIntFV sum) sc))
  let out := if k + 1 < ng then [] else lineWrites 3 (j.dst.toNat + 4 * (j.pos / ng)) (toBytes 4 acc) 0
  { j with acc := BitVec.ofNat 32 acc, writes := out }

/-- The next unit of a job; none when it is done. -/
def planJob (j : Job) : Option Job :=
  match j.kind with
  | .copy => planCopy j
  | .copyx pl => planCopyx j pl
  | .copyg _ => planCopyg j
  | .bdot pl x => planBdot j pl x

/-- A unit is done: the job stands behind it. -/
def Job.advance (j : Job) : Job := { j with pos := j.next, stage := 0, got := [], writes := [] }

/-- What a job makes of what its unit has read; a unit that writes nothing is done. -/
def makeJob (j : Job) : Job :=
  let j' :=
    match j.kind with
    | .copy => { j with writes := lineWrites 2 (j.dst.toNat + j.pos) (j.bytesOf 0) 0 }
    | .copyx pl => makeCopyx j pl
    | .copyg pl => makeCopyg j pl
    | .bdot pl x => makeBdot j pl x
  if j'.stage = j.stage && j'.writes.isEmpty then j'.advance else j'

/-- The lowest cause of the faults that a unit met, and of those the lowest address (R144, R145). -/
def lowestFault (d : Nat × Nat × Bool) (l : List (Nat × Nat × Bool)) : Nat × Nat × Bool :=
  l.foldl (fun a b => if b.1 < a.1 || (b.1 = a.1 && b.2.1 < a.2.1) then b else a) d

/-- The bytes of a line as they are written: the last byte keeps its bits above those written (R79, R150). -/
def JobWrite.merged (w : JobWrite) (old : List Byte) : List Byte :=
  if w.top = 0 then w.bytes
  else
    let i := w.bytes.length - 1
    let b := ((w.bytes[i]?).getD 0).toNat % 2 ^ w.top
    w.bytes.take i ++ [BitVec.ofNat 8 (((old[i]?).getD 0).toNat / 2 ^ w.top * 2 ^ w.top + b)]

/-- The pseudo-channel that translated pieces lie in. -/
def pchIn (ps : List Part) : Option Nat :=
  ps.head?.bind fun p => match region p.pa with
    | .hbm c => some c
    | _ => none

/-- One step of a job's engine: a page of its unit is translated, a line is read, the unit's results are made, or a line
is written.  The near-bank unit that works for a dot job is that of its weights (R111). -/
def stepJob (s : State) (j : Job) : State × JobStep :=
  match j.checks with
  | (side, va, n, write) :: rest =>
    match engTranslate s j side va n write with
    | (s, .ok ps) => (s, .more { j with checks := rest, unit := if j.kind.isDot && side = 0 then pchIn ps else j.unit })
    | (s, .wait) => (s, .stall)
    | (s, .fault f) => (s, .more { j with checks := rest, faults := j.faults ++ [(f.cause, f.addr, write)] })
  | [] =>
    match j.faults with
    | f :: fs =>
      let r := lowestFault f fs
      (s, .fault r.1 r.2.1 r.2.2)
    | [] =>
      match j.writes, j.reads with
      | w :: rest, _ =>
        match engTranslate s j w.side w.va w.bytes.length true with
        | (s, .ok ps) =>
          let j' := { j with writes := rest }
          (writeParts s j.part ps (w.merged (readParts s ps)), .more (if rest.isEmpty then j'.advance else j'))
        | (s, .wait) => (s, .stall)
        | (s, .fault f) => (s, .fault f.cause f.addr true)
      | [], (side, va, n) :: rest =>
        match engTranslate s j side va n false with
        | (s, .ok ps) => (s, .more { j with reads := rest, got := j.got ++ [(side, readParts s ps)] })
        | (s, .wait) => (s, .stall)
        | (s, .fault f) => (s, .fault f.cause f.addr false)
      | [], [] =>
        if j.stage = 0 then
          match planJob j with
          | some j' => (s, .more j')
          | none => (s, .done)
        else (s, .more (makeJob j))

/-- The job that a tag of a sequencer names. -/
def jobOf (s : State) (q : SeqId) (tag : Nat) : Option Job := s.jobs.find? fun j => j.q == q && j.tag == tag

/-- Whether a near-bank unit of a pseudo-channel works for a job and holds its accumulators, which one that has spilled does
not (R111, R116, R117). -/
def Job.liveOn (j : Job) (p : Nat) : Bool := !j.spilled && j.unit == some p

/-- Whether a near-bank unit of a pseudo-channel holds live accumulators (R116). -/
def pchLive (s : State) (p : Nat) : Bool := s.jobs.any fun j => j.liveOn p

/-- Requests that waited for a job to drain take effect when none is left on the channel (R116). -/
def drainPchs (s : State) : State :=
  let f := fun (p : PchState) => if p.deferred && !pchLive s p.pch then { p with deferred := false, down := true } else p
  { s with pchs := s.pchs.map f }

/-- Refreshes that fell due are taken at a row boundary of the jobs on their channels (R115). -/
def takeRefreshes (s : State) (j : Job) : State :=
  { s with pchs := mapIf (fun p => j.liveOn p.pch) (fun p => { p with refreshes := [] }) s.pchs }

/-- A job leaves and its tag is READY (R143); the entries it has used stay (R69). -/
def endJob (s : State) (j : Job) (fault : Option (Nat × Nat × Bool × Bool)) : State :=
  let s := takeRefreshes s j
  let s := { s with jobs := s.jobs.filter fun k => !(k.q == j.q && k.tag == j.tag) }
  let s := forgetMisses s fun h => match h with
    | .engine q t _ => q == j.q && t == j.tag
    | _ => false
  (drainPchs s).updSeq j.q (tagReady j.tag fault)

/-- Advance a job by one step, or end it; one that has spilled waits for its pseudo-channel to wake (R117). -/
def advanceJob (s : State) (j : Job) : State × Bool :=
  if j.spilled then (s, false)
  else
    match stepJob s j with
    | (s, .more j') =>
      (takeRefreshes { s with jobs := mapIf (fun k => k.q == j.q && k.tag == j.tag) (fun _ => j') s.jobs } j, true)
    | (s, .done) => (endJob s j none, false)
    | (s, .stall) => (s, false)
    | (s, .fault c va w) => (endJob s j (some (c, va, w, j.kind.isDot)), false)

/-- Advance the job of a tag until it ends or stalls; fuel bounds its steps. -/
def runJob : Nat → State → SeqId → Nat → State
  | 0, s, _, _ => s
  | fuel + 1, s, q, tag =>
    match jobOf s q tag with
    | none => s
    | some j =>
      match advanceJob s j with
      | (s, true) => runJob fuel s q tag
      | (s, false) => s

/-- A bound on the steps of a job. -/
def jobFuel (j : Job) : Nat :=
  match j.kind with
  | .copy => 8 * j.len.toNat + 8
  | .copyx pl => 16 * (j.len.toNat + xDstLen pl j.tensor (j.len.toNat / xSize pl)) + 8
  | .copyg pl => j.aux.toNat * (8 * 2 ^ gRsz pl) + 8
  | .bdot pl x => dRows x * (dLen x / dGroup pl) * 64 + 8

/-- COPY_COMPLETE: the engine finishes what is left of the job and its tag becomes READY (R143, R145). -/
def execCopyComplete (q : SeqId) (tag : BitVec 6) (s : State) : Result :=
  match jobOf s q tag.toNat with
  | some j => .next (settle (runJob (jobFuel j) s q tag.toNat))
  | none => .next s

/-- One line, row or group of a job (R148, R171). -/
def engineStep (s : State) (q : SeqId) (tag : Nat) : State :=
  match jobOf s q tag with
  | some j => settle (advanceJob s j).1
  | none => s

end Sys2Proof.Machine
end

