-- ==== Sys2Proof/Machine/Power.lean ====
section
/-! DEFINITION. Refresh and power-down of pseudo-channels, and the power governor's trim (R9, R115 to R117). -/

namespace Sys2Proof.Machine

/-- The power state of a pseudo-channel. -/
def pchOf (s : State) (p : Nat) : PchState :=
  (s.pchs.find? fun x => x.pch == p).getD { pch := p, down := false, deferred := false, refreshes := [], spill := [] }

/-- Change it. -/
def setPch (s : State) (p : Nat) (f : PchState → PchState) : State :=
  { s with pchs := upsert (fun x => x.pch == p) (f (pchOf s p)) s.pchs }

/-- REFRESH_DUE: under a dot job the refresh waits for the next row boundary, else it is taken at once; no result
depends on it (R115). -/
def execRefreshDue (pch bankGroup bank : Nat) (s : State) : Result :=
  if pchLive s pch then .next (setPch s pch fun p => { p with refreshes := p.refreshes ++ [(bankGroup, bank)] })
  else .next s

/-- PCH_POWER_DOWN_REQUEST: deferred while a near-bank unit holds live accumulators (R116). -/
def execPchPowerDownRequest (pch : Nat) (s : State) : Result :=
  if pchLive s pch then .next (setPch s pch fun p => { p with deferred := true })
  else .next (setPch s pch fun p => { p with down := true })

/-- The address of the output that a dot job writes next (R159). -/
def jobOutput (j : Job) : Nat :=
  match j.kind with
  | .bdot pl x => j.dst.toNat + 4 * (j.pos / (dLen x / dGroup pl))
  | _ => j.dst.toNat

/-- The key slot of the output page of a job: that of its entry, else that of the page's leaf (R117). -/
def outputSlot (s : State) (j : Job) : Nat :=
  match s.tlb.find? fun e => e.holder == .engine j.q j.tag (sideNo j.kind 3) with
  | some e => e.leaf.key
  | none =>
    match walkTable s j.part j.ctx (jobOutput j) with
    | .leaf _ _ _ pte => bits pte 15 4
    | .fault _ _ _ => 0

/-- What the spill area takes of a job, under the key of its output page (R117). -/
def spillOf (s : State) (j : Job) : Spill :=
  let k := outputSlot s j
  { q := j.q, tag := j.tag, pos := j.pos, acc := j.acc, slot := k, key := keyMat s k }

/-- A job whose unit has spilled: its accumulators have left it, and a group whose sum had not been made is begun
again. -/
def Job.asleep (j : Job) : Job :=
  if j.writes.isEmpty then
    { j with spilled := true, pos := 0, acc := 0, stage := 0, checks := [], faults := [], reads := [], got := [] }
  else { j with spilled := true, pos := 0, acc := 0 }

/-- DEFERRAL_EXPIRY: the units spill their accumulators, positions and tags, and the pseudo-channel powers down
(R117). -/
def execDeferralExpiry (pch : Nat) (s : State) : Result :=
  if !(pchOf s pch).deferred then .next s
  else
    let live := s.jobs.filter fun j => j.liveOn pch
    let saved := live.map (spillOf s)
    let s := setPch s pch fun p => { p with deferred := false, down := true, spill := p.spill ++ saved }
    .next { s with jobs := mapIf (fun j => live.contains j) Job.asleep s.jobs }

/-- A job takes back what its channel's spill area holds for it; where the key that the area was written under has gone,
it ends with fault status 0x08 (R81, R117). -/
def unspill1 (s : State) (x : Spill) : State :=
  match jobOf s x.q x.tag with
  | none => s
  | some j =>
    if !j.spilled then s
    else if x.key.isSome && keyMat s x.slot == x.key then
      { s with jobs := mapIf (· == j) (fun j => { j with pos := x.pos, acc := x.acc, spilled := false }) s.jobs }
    else endJob s j (some (0x08, jobOutput { j with pos := x.pos }, true, true))

/-- A job as a cut saves it, whether it has spilled or not (R118). -/
def unspilled (s : State) (j : Job) : Job :=
  match (s.pchs.flatMap PchState.spill).find? fun x => j.spilled && x.q == j.q && x.tag == j.tag with
  | some x => { j with pos := x.pos, acc := x.acc, spilled := false }
  | none => { j with spilled := false }

/-- The spill area lets go of what it holds for jobs that leave. -/
def dropSpills (s : State) (js : List Job) : State :=
  let gone := fun (x : Spill) => js.any fun j => j.q == x.q && j.tag == x.tag
  { s with pchs := s.pchs.map fun p => { p with spill := p.spill.filter fun x => !gone x } }

/-- PCH_WAKE: the units restore their state before they read (R117). -/
def execPchWake (pch : Nat) (s : State) : Result :=
  let p := pchOf s pch
  let s := setPch s pch fun p => { p with down := false, spill := [] }
  .next (p.spill.foldl unspill1 s)

/-- POWER_TRIM: a cycle in which the estimate would pass the limit trims island issue, and is counted (R9, R440). -/
def execPowerTrim (watts : Nat) (s : State) : Result :=
  if s.powerLimit < watts then .next { s with trimmed := s.trimmed + 1 } else .next s

end Sys2Proof.Machine
end

