-- ==== Sys2Proof/Machine/ElemMemory.lean ====
section
/-! DEFINITION. The memory instructions of the elements (R165 to R167, R316 to R322). -/

namespace Sys2Proof.Machine

/-! ## Accesses of a firing -/

/-- The address in operand a (R316). -/
def Firing.va (f : Firing) : Nat := (f.pay .a).toNat % 2 ^ 64

/-- Translate a piece of an access through the AGN stream of the element (R316). -/
def Firing.translate (s : State) (f : Firing) (va n : Nat) (write atomic : Bool) : State × Trans :=
  Machine.translate s (holderAt f.n.ref) f.g.ctx f.g.part f.n.ref.die va n write atomic (isSc (memOrd f.w))

/-- The bytes of a held store, each with its address and, where it has been translated, its place in memory; a row of an
array has its place alone. -/
def heldBytes (h : HeldStore) : List ((Option Nat × Option Nat) × Byte) :=
  let pas := (h.parts.flatMap fun p => (List.range p.n).map fun k => p.pa + k)
  let at_ := fun (k : Nat) =>
    match h.row with
    | some r => ((none : Option Nat), some (arrayPa r.1 + 256 * r.2 + k))
    | none => (some (h.va + k), pas[k]?)
  ((List.range h.bytes.length).map at_).zip h.bytes

/-- Whether a held byte is a byte at an address and a place. -/
def sameByte (x : Option Nat × Option Nat) (va pa : Nat) : Bool := x.1 == some va || x.2 == some pa

/-- The bytes of pieces with their addresses and places. -/
def partBytes (ps : List Part) (bs : List Byte) : List ((Nat × Nat) × Byte) :=
  (ps.flatMap fun p => (List.range p.n).map fun k => (p.va + k, p.pa + k)).zip bs

/-- What the instance of a firing holds for commit. -/
def heldOf (s : State) (f : Firing) : List HeldStore :=
  (if hasBlock s f.n.ref then openInstance s f.n.ref f.key else none).elim [] Instance.stores

/-- The bytes that a read of a firing gives: its instance's own held stores and rows stand before memory (R95, R165, R166,
R318). -/
def overlayHeld (s : State) (f : Firing) (ps : List Part) (bs : List Byte) : List Byte :=
  let held := ((heldOf s f).flatMap heldBytes).reverse
  (partBytes ps bs).map fun x => ((held.find? fun h => sameByte h.1 x.1.1 x.1.2).map Prod.snd).getD x.2

/-- What an access of a firing writes at once stands after its instance's earlier held stores: where they meet, the held
bytes become those written (R165). -/
def patchHeld (s : State) (f : Firing) (ps : List Part) (bs : List Byte) : State :=
  let new := partBytes ps bs
  let fix := fun (x : (Option Nat × Option Nat) × Byte) => ((new.find? fun y => sameByte x.1 y.1.1 y.1.2).map Prod.snd).getD x.2
  if hasBlock s f.n.ref then
    updInstance s f.n.ref f.key fun i => { i with stores := i.stores.map fun h => { h with bytes := (heldBytes h).map fix } }
  else s

/-- An access is performed at its coherence point with the effects of its order, after what its instance holds (R127, R165,
R318, R320); for .sc the fences that it implies on either side are part of the same step. -/
def performElem (s : State) (f : Firing) (a : Access) : State × Nat :=
  let s := releaseEffect s a
  let strong := isStrong a.kind a.ord a.scope
  let read := fun (s : State) =>
    let r := loadParts s a.die a.part a.ctx none strong a.parts
    (r.1, ofBytes (overlayHeld r.1 f a.parts r.2))
  let write := fun (s : State) (v : Nat) =>
    let bs := toBytes a.n v
    patchHeld (storeParts s a.die a.part a.ctx strong a.parts bs) f a.parts bs
  let r :=
    match a.kind with
    | .load _ => read s
    | .store => (write s a.data.toNat, 0)
    | .amo op =>
      let r := read s
      match amoNew op (BitVec.ofNat 64 r.2) (a.data.setWidth 64) a.cmp with
      | some new => (write r.1 new.toNat, r.2)
      | none => r
    | _ => (s, 0)
  (acquireEffect r.1 a, r.2)

/-- The value that the instance log of a rewound instance holds for a firing (R397). -/
def loggedValue (s : State) (f : Firing) : Option Payload :=
  if hasBlock s f.n.ref then
    (openInstance s f.n.ref f.key).bind fun i => (i.ahead.find? fun e => e.1 == f.n.ref.id && e.2.1 == f.slot).map fun e => e.2.2
  else none

/-- The value of an AMOE or .sc firing enters the instance log, and one that was replayed leaves the list of those
still to come (R397). -/
def logValue (s : State) (f : Firing) (v : Payload) : State :=
  updInstance s f.n.ref f.key fun i =>
    { i with
      atoms := i.atoms ++ [(f.n.ref.id, f.slot, v)]
      ahead := i.ahead.eraseP fun e => e.1 == f.n.ref.id && e.2.1 == f.slot }

/-- MISAL of a firing (R318, R320). -/
def misalFault (va : Nat) : FabFault := { code := 0x22, cause := 0xF3, aux := 0, addr := va }

/-- An access that is not held: an AMOE, or a word with .sc. The value logged before a rewind is emitted again; under
.sc it is queued at its station in wave order and performed when the ring's token reaches it (now), else at once (R112,
R167, R169, R170, R397). out makes the output of the value. -/
def directAccess (now : Bool) (f : Firing) (k : AccKind) (n : Nat) (write atomic : Bool) (data : BitVec 256) (cmp : Word)
    (out : Nat → Payload) (s : State) : Body :=
  let sc := isSc (memOrd f.w)
  let logged := sc || f.op == 0x74
  if excepted s f then .done s (both (f.token 0))
  else
    match (if logged then loggedValue s f else none) with
    | some v => .done (logValue s f v) (both (f.token v))
    | none =>
      if n ≠ 0 && f.va % n ≠ 0 then .fault s (misalFault f.va) false
      else if !now && (scPending s f.n.ref f.slot || (sc && !waveFirst f.g f.key.iter)) then .wait s
      else
        match (if n = 0 then (s, Trans.ok []) else f.translate s f.va n write atomic) with
        | (s, .fault x) => .fault s x.fab false
        | (s, .wait) => .wait s
        | (s, .ok ps) =>
          if behindRows s f ps then .wait s
          else
            match (if now then (s, true) else admitLines s (holderAt f.n.ref) f.g.ctx f.g.part f.n.ref.die f.va ps) with
            | (s, false) => .wait s
            | (s, true) =>
              let a := f.access s k n f.va ps data cmp
              if sc && !now then .wait (issue s a)
              else
                let r := performElem (noteTouch s f (rowQuads s f ps) false) f a
                let v := out r.2
                .done (if logged then logValue r.1 f v else r.1) (both (f.token v))

/-! ## Loads -/

/-- Bytes of LDE's and STE's widths (R318). -/
def ldeBytes (w : EWord) : Nat := 2 ^ (w.mod.extractLsb' 0 3).toNat

/-- One plain load of a firing, with the effects of its order. -/
def plainLoad (f : Firing) (s : State) (ps : List Part) : State × List Byte :=
  let a := f.access s (.load false) 0 0 ps 0 0
  let r := loadParts (releaseEffect s a) a.die a.part a.ctx none (isStrong a.kind a.ord a.scope) ps
  (acquireEffect r.1 a, overlayHeld r.1 f ps r.2)

/-- A firing reaches places of one width, one after another; none where one waits (R319). -/
def reachLanes (f : Firing) (n : Nat) (write : Bool) : State → List Nat → State × Option (List Reached)
  | s, [] => (s, some [])
  | s, va :: rest =>
    match reachPlace f (holderAt f.n.ref) false va n write (plainLoad f) s with
    | (s, none) => (s, none)
    | (s, some x) =>
      let r := reachLanes f n write s rest
      (r.1, r.2.map fun xs => x :: xs)

/-- The fault of the lowest address among places (R389). -/
def lowestReached (xs : List Reached) : Option FaultInfo :=
  minBy FaultInfo.addr (xs.filterMap fun x => match x with | .fault i => some i | _ => none)

/-- What was read at a place. -/
def Reached.value : Reached → Nat
  | .bytes bs => ofBytes bs
  | _ => 0

/-- The pieces of a place. -/
def Reached.pieces : Reached → List Part
  | .parts ps => ps
  | _ => []

/-- LDE (R318). -/
def ldeWord (now : Bool) (e : EWord) (s : State) : Result :=
  fireWord 0x70 e (fun s f =>
    let n := ldeBytes e
    if isSc (memOrd e) then directAccess now f (.load false) n false false 0 0 (fun v => BitVec.ofNat 256 v) s
    else if excepted s f then .done s (both (f.token 0))
    else
      match reachLanes f n false s [f.va] with
      | (s, none) => .wait s
      | (s, some xs) =>
        match lowestReached xs with
        | some x => .fault s x.fab false
        | none => .done s (both (f.token (BitVec.ofNat 256 ((xs.head?.map Reached.value).getD 0))))) s

/-- LDE (R318). -/
def execLde (e : EWord) (s : State) : Result := ldeWord false e s

/-- The addresses of the lanes (R319). -/
def laneVas (f : Firing) : List Nat :=
  let ty := f.w.ty.toNat
  let w := tyWidth ty
  (List.range (256 / w)).map fun l => wrapInt 64 (f.va + intLane ty (f.pay .b) l * (w / 8 : Nat))

/-- LDX (R319). -/
def execLdx (e : EWord) (s : State) : Result :=
  fireWord 0x72 e (fun s f =>
    if excepted s f then .done s (both (f.token 0))
    else
      let w := tyWidth e.ty.toNat
      match reachLanes f (w / 8) false s (laneVas f) with
      | (s, none) => .wait s
      | (s, some xs) =>
        match lowestReached xs with
        | some x => .fault s x.fab false
        | none => .done s (both (f.token (BitVec.ofNat 256 (ofLanes w (xs.map Reached.value)))))) s

/-! ## Loads performed before a predecessor in link order (R165, R186, R317) -/

/-- The places that a memory word accesses, by address and length; none for a word that is no plain access. -/
def placesOf (f : Firing) : Option (List (Nat × Nat)) :=
  let w := tyWidth f.w.ty.toNat / 8
  if f.op = 0x70 || f.op = 0x71 then some [(f.va, ldeBytes f.w)]
  else if f.op = 0x72 || f.op = 0x73 then some ((laneVas f).map fun va => (va, w))
  else if f.op = 0x74 then some [(f.va, 8)]
  else none

/-- The pieces of places as the page table has them; none where one has no leaf. -/
def tablePieces (s : State) (g : Graph) : List (Nat × Nat) → Option (List Part)
  | [] => some []
  | (va, n) :: rest =>
    match walkTable s g.part g.ctx va, tablePieces s g rest with
    | .leaf _ lg _ pte, some ps =>
      let leaf := leafOf pte lg false
      if bit pte 63 && va / 65536 = (va + n - 1) / 65536 then some ({ va := va, pa := leaf.pa va, n := n, leaf := leaf } :: ps) else none
    | _, _ => none

/-- Whether nothing orders a later access of a chain behind an earlier one: they share no byte, and do not both lie on SO
pages (R165). -/
def unordered (a b : List Part) : Bool :=
  a.all fun p => b.all fun r => !overlaps p.va p.n r.va r.n && !overlaps p.pa p.n r.pa r.n && !(p.so && r.so)

/-- Whether a load of these pieces may be performed before every predecessor of its chain that has not been performed: the
address of each is known, and neither its bytes, its page nor its order holds the load (R165, R318). -/
def mayPass (g : Graph) (key : Key) (mine : List Part) : Nat → State → Node → Nat → Bool
  | 0, _, _, _ => false
  | fuel + 1, s, n, slot =>
    let w := eWord (n.word slot)
    if linkReady s n slot (n.opAt slot) w key then true
    else
      let b := blockNode n.ref
      match nodeOf s { die := b.die, id := b.id + (w.x.extractLsb' 13 2).toNat } with
      | none => false
      | some p =>
        let k := (w.x.extractLsb' 8 5).toNat
        let f := firingFrom p g k key
        tokensReady p k f.op f.w key &&
          (modeOf f.heads != .fire || (!isAcq (memOrd f.w) &&
            match (placesOf f).bind (tablePieces s g) with
            | some theirs => unordered theirs mine
            | none => false)) &&
          mayPass g key mine fuel s p k

/-- A load whose tokens are there is performed ahead of its predecessors in link order, where R165 leaves the two in either
order; the firing itself still waits for them (R317), and takes what has been read. -/
def readEarly (s : State) (site : Site) : State :=
  match nodeOf s site.node with
  | none => s
  | some n =>
    match graphOfNode s n with
    | none => s
    | some g =>
      let f := firingFrom n g site.slot site.key
      if n.saved || n.sealed || !tokensReady n site.slot f.op f.w site.key || linkReady s n site.slot f.op f.w site.key ||
          !(f.op == 0x70 || f.op == 0x72) || isRel (memOrd f.w) || modeOf f.heads != .fire || excepted s f ||
          f.heads.any (behindReconf g n) then s
      else
        match (placesOf f).bind fun ps => (tablePieces s g ps).map fun ms => (ps, ms) with
        | some (ps, mine) =>
          if mayPass g site.key mine 128 s n site.slot then
            (reachLanes f ((ps.head?.map Prod.snd).getD 1) false s (ps.map Prod.fst)).1
          else s
        | none => s

/-! ## Stores -/

/-- A store of a firing as it is held. -/
def Firing.held (f : Firing) (va : Nat) (ps : List Part) (bytes : List Byte) : HeldStore :=
  { slot := f.slot, node := f.n.ref, va := va, spilled := false, parts := ps, bytes := bytes, ord := memOrd f.w,
    scope := memScope f.w, stream := none, row := none }

/-- The stores of a firing are held for commit in order, or in a tile with no block released (R166, R214, R318). -/
def putStores (s : State) (f : Firing) (hs : List HeldStore) : State :=
  if hasBlock s f.n.ref then hs.foldl (fun s h => holdStore s f h) s else releaseStores s f hs

/-- A word that stores at some addresses: every place is translated, then the stores are put and a payload leaves. -/
def storeFiring (f : Firing) (xs : List (Nat × List Byte)) (n : Nat) (p : Payload) (s : State) : Body :=
  if excepted s f then .done s (both (f.token p))
  else
    match reachLanes f n true s (xs.map Prod.fst) with
    | (s, none) => .wait s
    | (s, some rs) =>
      match lowestReached rs with
      | some x => .fault s x.fab false
      | none => .done (putStores s f ((xs.zip rs).map fun x => f.held x.1.1 x.2.pieces x.1.2)) (both (f.token p))

/-- STE (R318). -/
def steWord (now : Bool) (e : EWord) (s : State) : Result :=
  fireWord 0x71 e (fun s f =>
    let n := ldeBytes e
    if isSc (memOrd e) then directAccess now f .store n true false (f.pay .b) 0 (fun _ => f.pay .b) s
    else storeFiring f [(f.va, toBytes n (f.pay .b).toNat)] n (f.pay .b) s) s

/-- STE (R318). -/
def execSte (e : EWord) (s : State) : Result := steWord false e s

/-- STX: the lanes in increasing order (R319). -/
def execStx (e : EWord) (s : State) : Result :=
  fireWord 0x73 e (fun s f =>
    let w := tyWidth e.ty.toNat
    let lanes := (List.range (256 / w)).map fun l => toBytes (w / 8) (lane (f.pay .c) w l)
    storeFiring f ((laneVas f).zip lanes) (w / 8) (f.pay .c) s) s

/-! ## Atomics and fences -/

/-- AMOE (R320). -/
def amoeWord (now : Bool) (e : EWord) (s : State) : Result :=
  fireWord 0x74 e (fun s f =>
    let op := (e.mod.extractLsb' 0 3).toNat
    directAccess now f (.amo op) 8 true true (f.pay .b) ((f.pay .c).setWidth 64) (fun v => BitVec.ofNat 256 v) s) s

/-- AMOE (R320). -/
def execAmoe (e : EWord) (s : State) : Result := amoeWord false e s

/-- A FENCEE takes its place among the stores that its instance holds, so that those before it are written back before
those after it are performed (R165). -/
def holdFence (s : State) (f : Firing) : State :=
  updInstance s f.n.ref f.key fun i => { i with stores := i.stores ++ [f.held 0 [] []] }

/-- FENCEE: what it waits for was performed or queued when it fired; its write-back and invalidation happen here, and for
the stores that its instance holds at their commit (R134, R135, R165, R321). -/
def fenceeWord (now : Bool) (e : EWord) (s : State) : Result :=
  fireWord 0x75 e (fun s f =>
    match directAccess now f .fence 0 false false 0 0 (fun _ => f.pay .a) s with
    | .done s outs => .done (if hasBlock s f.n.ref then holdFence s f else s) outs
    | b => b) s

/-- FENCEE (R321). -/
def execFencee (e : EWord) (s : State) : Result := fenceeWord false e s

/-- The memory word of a slot, when the ring's token reaches the .sc operation that it has queued (R169). -/
def ringWord (op : Nat) (e : EWord) (s : State) : Result :=
  match op with
  | 0x70 => ldeWord true e s
  | 0x71 => steWord true e s
  | 0x74 => amoeWord true e s
  | _ => fenceeWord true e s

end Sys2Proof.Machine
end

