-- ==== Sys2Proof/Machine/Comb.lean ====
section
/-! DEFINITION. The comb instructions (R221, R350 to R359). -/

namespace Sys2Proof.Machine

/-! ## Arrays and evaluation -/

/-- A bit of a port word or of flops. -/
def bitNat (x : BitVec 16) (i : Nat) : Nat := if x.getLsbD i then 1 else 0

/-- The value of LUT k of a row at an input word (R350). -/
def lutBit (row k x : Nat) : Nat := row / 2 ^ (64 * k + x) % 2

/-- The input word that six bits give, input 0 lowest. -/
def inputWord (f : Nat → Nat) : Nat := (List.range 6).foldl (fun n m => n + f m * 2 ^ m) 0

/-- The output of LUT Ak (R351). -/
def levelA (row : Nat) (inp : BitVec 16) (k : Nat) : Nat :=
  lutBit row k (inputWord fun m => bitNat inp (row / 2 ^ (1024 + 24 * k + 4 * m) % 16))

/-- A source of level B (R350, R351). -/
def sourceB (row : Nat) (inp q : BitVec 16) (c : Nat) : Nat :=
  if c < 16 then bitNat inp c else if c < 24 then levelA row inp (c - 16) else bitNat q (c - 24)

/-- The output of LUT Bk (R351). -/
def levelB (row : Nat) (inp q : BitVec 16) (k : Nat) : Nat :=
  lutBit row (8 + k) (inputWord fun m => sourceB row inp q (row / 2 ^ (1216 + 30 * k + 5 * m) % 32))

/-- One evaluation of a context (R351). -/
def evalRow (row : Nat) (inp q : BitVec 16) : BitVec 16 :=
  BitVec.ofNat 16 (ofLanes 1 ((List.range 16).map fun o =>
    let c := row / 2 ^ (1472 + 4 * o) % 16
    if c < 8 then levelA row inp c else levelB row inp q (c - 8)))

/-- The ring's next context evaluated: the register and the output (R352). -/
def evalNext (s : State) (r : ArrayRef) (x : BitVec 200) (inp : BitVec 16) : BitVec 200 × BitVec 16 :=
  let p := schPos x
  let out := evalRow (arrayRow s r (schRing x p)) inp (schFlops x p)
  (withPos (withFlops x p out) ((p + 1) % (schLen x + 1)), out)

/-- Evaluations in order. -/
def evalAll (s : State) (r : ArrayRef) : BitVec 200 → List (BitVec 16) → BitVec 200 × List Nat
  | x, [] => (x, [])
  | x, i :: is =>
    let e := evalNext s r x i
    let t := evalAll s r e.1 is
    (t.1, e.2.toNat :: t.2)

/-- Whether a row of a ring has a reserved bit set (R350, R352). -/
def ringBad (s : State) (r : ArrayRef) (x : BitVec 200) : Bool :=
  (List.range (schLen x + 1)).any fun e => arrayRow s r (schRing x e) / 2 ^ 1536 != 0

/-! ## What every comb word shares -/

/-- COMBX (R359). -/
def combx : FabFault := fabCode 0x28

/-- A comb word on its array: with the instance's exception bit set it reaches no array; a busy array is waited for;
then the mode and the owner are judged (R215, R359). -/
def fireComb (op : Nat) (e : EWord) (modes : List ArrayMode) (body : State → Firing → ArrayRef → Body) (s : State) : Result :=
  fireWord op e (fun s f =>
    if excepted s f then .done s (both (f.token 0))
    else
      let r := combArray f.n.ref (e.x.extractLsb' 0 4).toNat
      let a := arrayOf s r
      if a.busy then .wait s
      else if !modes.contains a.mode || a.owner != f.g.part then
        .fault s { code := 0x21, cause := 0xF1, aux := 0, addr := 0 } false
      else body s f r) s

/-- CEVAL (R355). -/
def execCeval (e : EWord) (s : State) : Result :=
  fireComb 0xA0 e [.run] (fun s f r =>
    let x := (arrayOf s r).sched
    if ringBad s r x then .fault s combx false
    else
      let p := f.pay .a
      let ins :=
        if e.mod.getLsbD 0 then List.replicate ((e.x.extractLsb' 4 4).toNat + 1) (p.extractLsb' 0 16)
        else (List.range 16).map fun k => p.extractLsb' (16 * k) 16
      let t := evalAll s r x ins
      .done (setArray s r fun a => { a with sched := t.1 }) (both (f.token (BitVec.ofNat 256 (ofLanes 16 t.2))))) s

/-- CSCHED (R352, R356). -/
def execCsched (e : EWord) (s : State) : Result :=
  fireComb 0xA1 e [.load, .run] (fun s f r =>
    let p := f.pay .a
    let x : BitVec 200 := (p.extractLsb' 0 67).setWidth 200
    if p >>> 67 ≠ 0 || ringBad s r x then .fault s combx false
    else .done (setArray s r fun a => { a with sched := loadFlops s r x }) (both (f.token p))) s

/-- CSTATE (R358). -/
def execCstate (e : EWord) (s : State) : Result :=
  fireComb 0xA4 e [.cache, .scratch, .load, .run] (fun s f r =>
    let p := f.pay .a
    let x := (arrayOf s r).sched
    if !e.mod.getLsbD 0 then .done s (both (f.token (x.setWidth 256)))
    else if p >>> 128 ≠ 0 then .fault s combx false
    else
      let y := (x.extractLsb' 0 72).setWidth 200 ||| ((p.extractLsb' 0 128).setWidth 200 <<< 72)
      .done (setArray s r fun a => { a with sched := y }) (both (f.token p))) s

/-- The address and context of a payload, with the faults of R357 and R359 before the access's own. -/
def ctxOperand (p : Payload) : Except FabFault (Nat × Nat) :=
  let va := p.toNat % 2 ^ 64
  if p >>> 72 ≠ 0 then .error combx
  else if va % 8 ≠ 0 then .error { code := 0x22, cause := 0xF3, aux := 0, addr := va }
  else .ok (va, (p.extractLsb' 64 8).toNat)

/-- A comb access of 256 bytes through stream 3 of the tile's AGN (R357). -/
def combReach (f : Firing) (va : Nat) (write : Bool) (s : State) : State × Option Reached :=
  reachPlace f (holderAt f.n.ref) false va 256 write (fun s ps =>
    let r := loadParts s f.n.ref.die f.g.part f.g.ctx none false ps
    (r.1, overlayHeld r.1 f ps r.2)) s

/-- A store of a comb word as it is held, of rlx order and GRAPH scope (R357). -/
def Firing.heldPlain (f : Firing) (va : Nat) (ps : List Part) (bytes : List Byte) : HeldStore :=
  { f.held va ps bytes with ord := 0, scope := 1 }

/-- CLOADCTX: the row is read when it fires and written when its instance commits (R357). -/
def execCloadctx (e : EWord) (s : State) : Result :=
  fireComb 0xA2 e [.load, .run] (fun s f r =>
    match ctxOperand (f.pay .a) with
    | .error x => .fault s x false
    | .ok (va, c) =>
      match combReach f va false s with
      | (s, some (.fault x)) => .fault s x.fab false
      | (s, some (.bytes bs)) =>
        let tok := f.token (f.pay .a)
        if hasBlock s f.n.ref then
          let s := holdStore s f { f.heldPlain va [] bs with row := some (r, c) }
          .done (updInstance s f.n.ref f.key fun i => { i with result := i.result ++ [(f.n.ref, f.slot, tok)] }) []
        else if rowHeld s f r then .wait s
        else .done (writeRow s r c bs) (both tok)
      | (s, _) => .wait s) s

/-- A row as CSAVECTX stores it, after what its instance holds for it: with the flops of the lowest ring entry that holds it
in its INIT, which a held row loads from its own (R95, R352, R357). -/
def savedRow (s : State) (f : Firing) (r : ArrayRef) (c : Nat) : List Byte :=
  let x := (arrayOf s r).sched
  let pa := arrayPa r + 256 * c
  let held := (heldOf s f).flatMap heldBytes |>.reverse
  let bs := (List.range 256).zip (readMem s 0 pa 256) |>.map fun y => ((held.find? fun h => h.1.2 == some (pa + y.1)).map Prod.snd).getD y.2
  match (List.range (schLen x + 1)).find? fun e => schRing x e == c with
  | some e =>
    match (heldOf s f).reverse.find? fun h => h.row == some (r, c) with
    | some h => patch bs 182 ((h.bytes.drop 182).take 2)
    | none => patch bs 182 (toBytes 2 (schFlops x e).toNat)
  | none => bs

/-- CSAVECTX: a held store of the row, which it reads once the instances that commit before its own have (R95, R96,
R357). -/
def execCsavectx (e : EWord) (s : State) : Result :=
  fireComb 0xA3 e [.load, .run] (fun s f r =>
    match ctxOperand (f.pay .a) with
    | .error x => .fault s x false
    | .ok (va, c) =>
      if rowHeld s f r then .wait s
      else
        match combReach f va true s with
        | (s, none) => .wait s
        | (s, some (.fault x)) => .fault s x.fab false
        | (s, some x) =>
          let h := f.heldPlain va x.pieces (savedRow s f r c)
          .done (putStores (noteTouch s f [quadOf r] true) f [h]) (both (f.token (f.pay .a)))) s

end Sys2Proof.Machine
end

