-- ==== Sys2Proof/Machine/Island.lean ====
section
/-! DEFINITION. The matrix islands (R219, R245 to R253, R335 to R349). -/

namespace Sys2Proof.Machine

/-! ## Descriptors -/

/-- The fields of a descriptor (R336). -/
def dscTid (p : Payload) : Nat := (p.extractLsb' 0 10).toNat
def dscTile (p : Payload) : Nat := (p.extractLsb' 16 32).toNat
def dscCount (p : Payload) : Nat := (p.extractLsb' 64 16).toNat

/-- Whether a descriptor has a bit set that must be zero; COUNT is one where the command has none (R336). -/
def dscBad (p : Payload) (count : Bool) : Bool :=
  p.extractLsb' 10 6 != 0 || p.extractLsb' 48 16 != 0 || p >>> 80 != 0 || (!count && dscCount p != 0)

/-- The formats that tile loads, stores and conversions permit (R343, R344, R346). -/
def tileFormat (t : Tensor) : Bool := [8, 9, 10, 12, 13].contains (tFmt t)

/-- Whether an entry and a tile number name a tile (R342 to R344). -/
def namesTile (t : Tensor) (n : Nat) : Bool := tValid t && n < tTileCount t

/-! ## Fetching a tile -/

/-- Bytes of one line read for a tile of an island: a re-issue takes a line that the tile has pinned from its way (R99,
R339). -/
def islandLoadLine (again : Bool) (id : Nat) (f : Firing) (leaf : Leaf) (s : State) (pa n : Nat) : State × List Byte :=
  let kept :=
    if again then s.l2.find? fun l => l.die == f.n.ref.die && l.line == pa / 128 && l.pins.contains (f.n.ref, id) else none
  match kept with
  | some l => (s, sliceOf l.data (pa % 128) n)
  | none => loadLine s f.n.ref.die f.g.part f.g.ctx none leaf false pa n

/-- The lines of some pieces read for a tile and pinned for it (R99). -/
def islandLoad (again : Bool) (id : Nat) (f : Firing) (s : State) (ps : List Part) : State × List Byte :=
  ps.foldl (fun (r : State × List Byte) p =>
    (chunks 128 p.n p.pa p.n).foldl (fun (r : State × List Byte) c =>
      let t := islandLoadLine again id f p.leaf r.1 c.1 c.2
      (pinLine t.1 f.n.ref.die f.g.part (c.1 / 128) (f.n.ref, id), r.2 ++ t.2)) r) (s, [])

/-- Bytes read for a tile through a translation entry of an island (R63). -/
def islandRead (again : Bool) (id : Nat) (f : Firing) (port va n : Nat) (s : State) : State × Got :=
  match reachPlace f (.island f.n.ref port) again va n false (islandLoad again id f) s with
  | (s, some (.bytes bs)) => (s, .bytes bs)
  | (s, some (.fault x)) => (s, .fault x)
  | (s, _) => (s, .wait)

/-- What a fetch comes to. -/
inductive Fetched (α : Type) where
  | ok (x : α)
  | wait
  | fault (x : FabFault)

/-- Read, then go on. -/
def withRead {α : Type} (r : State × Got) (k : State → List Byte → State × Fetched α) : State × Fetched α :=
  match r with
  | (s, .bytes bs) => k s bs
  | (s, .wait) => (s, .wait)
  | (s, .fault x) => (s, .fault x.fab)

/-- Fetch, then go on. -/
def withFetch {α β : Type} (r : State × Fetched α) (k : State → α → State × Fetched β) : State × Fetched β :=
  match r with
  | (s, .ok x) => k s x
  | (s, .wait) => (s, .wait)
  | (s, .fault x) => (s, .fault x)

/-- The rows of a tile of a tensor that is not tapered, from row r on; elements beyond the sizes read 0 (R336). -/
def fetchRows (again : Bool) (id : Nat) (f : Firing) (port : Nat) (t : Tensor) (n : Nat) : Nat → State → State × Fetched (List (List Nat))
  | 0, s => (s, .ok [])
  | k + 1, s =>
    let r := 31 - k
    let c := tileCoords t n
    let i0 := 32 * c.1
    let i1 := 32 * c.2.1 + r
    let w := min 32 (tDim t 0 - i0)
    let z := fmtSize (tFmt t)
    if i1 < tDim t 1 then
      withRead (islandRead again id f port (elemVa t i0 i1 c.2.2.1 c.2.2.2) (w * z) s) fun s bs =>
        withFetch (fetchRows again id f port t n k s) fun s rest =>
          (s, .ok (((List.range w).map (fun j => fieldOf bs (z * j) z) ++ List.replicate (32 - w) 0) :: rest))
    else
      withFetch (fetchRows again id f port t n k s) fun s rest => (s, .ok (List.replicate 32 0 :: rest))

/-- The codes of a tile by row (R239, R336). -/
def fetchCodes (again : Bool) (id : Nat) (f : Firing) (port : Nat) (t : Tensor) (n : Nat) (s : State) : State × Fetched (List (List Nat)) :=
  if tTapered t then
    withRead (islandRead again id f port (tileVa t n) (tileBytes t) s) fun s bs =>
      let x := ofBytes bs
      let b := codeBits t
      (s, .ok ((List.range 32).map fun r => (List.range 32).map fun k => x / 2 ^ (b * (32 * r + k)) % 2 ^ b))
  else fetchRows again id f port t n 32 s

/-- The block exponents of a tile; zero without them (R238, R240). -/
def fetchExps (again : Bool) (id : Nat) (f : Firing) (port : Nat) (t : Tensor) (n : Nat) (s : State) : State × Fetched (List Int) :=
  if tSmode t = 2 then
    withRead (islandRead again id f port (blockExpVa t n) 32 s) fun s bs => (s, .ok (bs.map fun b => sxInt 8 b.toNat))
  else (s, .ok (List.replicate 32 0))

/-- The stored bound of a tile, where the entry stores bounds and they are asked for (R250). -/
def fetchBound (again : Bool) (id : Nat) (f : Firing) (port : Nat) (t : Tensor) (n : Nat) (bp : Bool) (s : State) : State × Fetched Nat :=
  if bp && tBsto t then
    withRead (islandRead again id f port (boundVa t n) 4 s) fun s bs => (s, .ok (boundIn (ofBytes bs)))
  else (s, .ok 0)

/-- A fetched operand tile: its decoded codes and block exponents by row, its scale, its stored bound. -/
structure Operand where
  rows : List (List FV)
  exps : List Int
  scale : FV
  eps : Nat

/-- The decoded value of a code, scale and exponents apart. -/
def codeValue (t : Tensor) (c : Nat) : FV := if tTapered t then taperDec (tTaper t) c else fdec (tIeee t) c

/-- Fetch an operand tile. -/
def fetchOperand (again : Bool) (id : Nat) (f : Firing) (port : Nat) (t : Tensor) (n : Nat) (bp : Bool) (s : State) : State × Fetched Operand :=
  withFetch (fetchCodes again id f port t n s) fun s codes =>
  withFetch (fetchExps again id f port t n s) fun s exps =>
  withFetch (fetchBound again id f port t n bp s) fun s eps =>
    (s, .ok { rows := codes.map fun r => r.map (codeValue t), exps := exps, scale := tScale t, eps := eps })

/-- The values of an operand tile in the value domain (R238). -/
def Operand.values (o : Operand) : List FV :=
  (o.rows.zip o.exps).flatMap fun r => r.1.map fun x => vmul (vmul x o.scale) (pow2 r.2)

/-- The largest magnitude of a tile's values; +∞ where an element is NaN or infinite (R250). -/
def magOf (xs : List FV) : FV :=
  if xs.any (fun x => match x with | .fin _ _ _ => false | _ => true) then .inf false else maxMag xs

/-- The largest magnitude as an FP32 value rounded up (R250). -/
def magUp (xs : List FV) : Nat := upConv (magOf xs)

/-- A product with an operand magnitude, rounded up; a factor of 0 makes it 0 (R249, R250). -/
def upMulMag (m : FV) (y : Nat) : Nat :=
  if m.isZero || (fdec fp32 y).isZero then 0 else fenc fp32 .rup (vmul m (fdec fp32 y))

/-! ## One k-step -/

/-- A value rounded toward zero to 48 significant bits (R246). -/
def trunc48 (x : FV) : FV :=
  match x with
  | .fin neg m e =>
    let k := Nat.log2 m + 1
    if k ≤ 48 then x else .fin neg (m / 2 ^ (k - 48)) (e + (k - 48 : Nat))
  | x => x

/-- The sum of 32 products: exact for tapered operands, to 48 bits for BF16 (R245, R246). -/
def dotRow (tapered : Bool) (a b : List FV) : FV :=
  match ((a.zip b).map fun p => vmul p.1 p.2) with
  | [] => .fin false 0 0
  | x :: xs =>
    let t := xs.foldl (vadd .rne) x
    if tapered then (if t.isZero then .fin false 0 0 else t) else trunc48 t

/-- The sum of the magnitudes of 32 products (R250). -/
def absRow (a b : List FV) : FV := ((a.zip b).map fun p => (vmul p.1 p.2).abs).foldl (vadd .rne) (.fin false 0 0)

/-- The format of an accumulator tile (R245). -/
def accFmt (a64 : Bool) : Fmt := if a64 then fp64 else fp32

/-- The accumulators after one k-step (R245, R246). -/
def addStep (tapered a64 : Bool) (a b : Operand) (vals : List (BitVec 64)) : List (BitVec 64) :=
  let fm := accFmt a64
  let sab := vmul a.scale b.scale
  let upd := fun (p : ((List FV × Int) × (List FV × Int))) (v : BitVec 64) =>
    let t := vmul (vmul (dotRow tapered p.1.1 p.2.1) (pow2 (p.1.2 + p.2.2))) sab
    BitVec.ofNat 64 (fenc fm .rne (vadd .rne (fdec fm v.toNat) t))
  let pairs := (a.rows.zip a.exps).flatMap fun r => (b.rows.zip b.exps).map fun c => (r, c)
  (pairs.zip vals).map fun x => upd x.1 x.2

/-- m of R250: the largest accumulator, rounded up into FP32. -/
def tileMag (a64 : Bool) (vals : List (BitVec 64)) : Nat := magUp (vals.map fun v => fdec (accFmt a64) v.toNat)

/-- B after one k-step (R250). -/
def boundStep (tapered a64 : Bool) (a b : Operand) (vals : List (BitVec 64)) (bnd : Nat) : Nat :=
  let m := tileMag a64 vals
  let u : FV := pow2 (if a64 then -53 else -24)
  let fl : FV := pow2 (if a64 then -1022 else -126)
  let big := vmax (fdec fp32 m) fl
  let bnd := upAdd bnd (fenc fp32 .rup (vmul u big))
  let bnd :=
    if tapered then bnd
    else
      let sab := (vmul a.scale b.scale).abs
      let ps := (a.rows.zip a.exps).flatMap fun r => (b.rows.zip b.exps).map fun c =>
        vmul (vmul (absRow r.1 c.1) (pow2 (r.2 + c.2))) sab
      upAdd bnd (upMul (upConv (pow2 (-47))) (magUp ps))
  let ma := magOf a.values
  let mb := magOf b.values
  let e := upAdd (upAdd (upMulMag ma b.eps) (upMulMag mb a.eps)) (upMul a.eps b.eps)
  upAdd bnd (upMul (upConv (.fin false 32 0)) e)

/-- A tile after a k-step that adds. -/
def AccTile.add (t : AccTile) (tapered : Bool) (a b : Operand) : AccTile :=
  let vals := addStep tapered t.a64 a b t.vals
  { t with vals := vals, bnd := BitVec.ofNat 32 (boundStep tapered t.a64 a b vals t.bnd.toNat) }

/-! ## Tiles of an island -/

/-- The open tile of a key (R337). -/
def tileOf (n : Node) (key : Key) : Option AccTile := n.tiles.find? fun t => t.key == key

/-- Replace the tile of a key. -/
def setTile (s : State) (f : Firing) (t : AccTile) : State :=
  setNode s f.n.ref fun n => { n with tiles := upsert (fun x => x.key == f.key) t n.tiles }

/-- The tile of a key leaves its accumulator (R337). -/
def freeTile (s : State) (f : Firing) : State := setNode s f.n.ref fun n => { n with tiles := n.tiles.filter fun t => t.key != f.key }

/-- The identity of the tile that a firing opens or reads on its own: the arrival of its a token. -/
def Firing.opens (f : Firing) : Nat := ((f.heads.find? fun h => h.opd == .a).map Held.arr).getD 0

/-- The pins of a tile of the firing's island go (R99). -/
def unpinOf (s : State) (f : Firing) (id : Nat) : State := unpinIf s (· == (f.n.ref, id))

/-- The tile of a key is discarded: its pins go, and later tokens of the key have no effect (R341, R348). -/
def discardTile (s : State) (f : Firing) (t : AccTile) : State :=
  let s := unpinOf (freeTile s f) f t.id
  setNode s f.n.ref fun n => { n with dead := if n.dead.contains f.key then n.dead else n.dead ++ [f.key] }

/-- An output of an island: the key of the firing's tile and SEQ 0 (R340). -/
def islandToken (f : Firing) (k : Kind) (p : Payload) : Token := { key := f.key, seq := 0, kind := k, payload := p }

/-- A fault of an island firing: what it pinned for itself goes, and the open tile of its key (R348); BNDX emits nothing
(R344). -/
def islandFault (s : State) (f : Firing) (x : FabFault) : State :=
  let s := unpinOf s f f.opens
  let s := (tileOf f.n f.key).elim s (discardTile s f)
  let s := raiseExact s f x
  endFiring s f .fire (if x.code = 0x23 then [] else both (islandToken f .eeos 0))

/-- TIDX (R348). -/
def tidx : FabFault := fabCode 0x27

/-- The firing that a site of an island could make, its tokens not chosen yet: the node is live, its outputs have room
and its subgraph is not contained (R197, R219, R391). -/
def islandAt (s : State) (site : Site) (op : Nat) (w : EWord) : Option Firing :=
  match nodeOf s site.node with
  | none => none
  | some n =>
    match graphOfNode s n with
    | none => none
    | some g =>
      if n.saved || n.sealed || contained s g n.ref site.key.iter || !roomOk s n site.slot op w then none
      else some { n := n, g := g, slot := site.slot, op := op, w := w, key := site.key, heads := [] }

/-- The tokens of a slot and key. -/
def keyTokens (f : Firing) : List Held := f.n.store.filter fun h => h.slot == f.slot && h.tok.key == f.key

/-- Ends of streams at an island, where they are the heads: as R208 and R209 give, no tile changed (R341). -/
def islandEnds (s : State) (f : Firing) : Option State :=
  let hs := headsOf f.n f.slot f.op f.w f.key
  let all := hs.length == (slotWaits f.n f.slot f.op f.w).length
  let m := modeOf hs
  let f := { f with heads := hs }
  if m = .eeos || (all && (m = .ends || m = .mixed)) then
    let s := if m = .mixed then raiseExact s f (fabCode 0x25) else s
    some (endFiring s f m (both (islandToken f m.kind 0)))
  else none

/-- An island command of one kind of token: dead keys and stream ends first, then the command on the oldest tokens
(R337, R341, R348). -/
def fireIsland (op : Nat) (w : EWord) (body : State → Firing → Mode → State) (s : State) : Result :=
  match islandAt s s.site op w with
  | none => .next s
  | some f =>
    if (op = 0x92 || op = 0x94) && f.n.dead.contains f.key && !(keyTokens f).isEmpty then
      .next (endFiring s { f with heads := keyTokens f } .fire [])
    else
      match islandEnds s f with
      | some s => .next s
      | none =>
        let hs := headsOf f.n f.slot op w f.key
        if hs.length ≠ (slotWaits f.n f.slot op w).length then .next s
        else
          let f := { f with heads := hs }
          let m := modeOf hs
          .next (body s f m)

/-! ## Opening -/

/-- The lowest free accumulator (R337). -/
def freeAcc (n : Node) : Option Nat := (List.range 16).find? fun k => !(n.tiles.any fun t => t.acc == k)

/-- The greatest rounding error of a loaded tile in A32; +∞ where an element overflows (R343). -/
def loadError (xs : List FV) : Nat :=
  let errs := xs.map fun x =>
    match x, fdec fp32 (fenc fp32 .rne x) with
    | .fin _ _ _, .inf _ => FV.inf false
    | .fin n m e, .fin a b d => (vadd .rne (.fin n m e) (FV.fin a b d).negate).abs
    | _, _ => .fin false 0 0
  upConv (maxMag errs)

/-- The values, and the bound, with which a tile opens in a mode (R343). -/
def startOf (a64 : Bool) (xs : List FV) (bound : Nat) : List (BitVec 64) × Nat :=
  (xs.map fun x => BitVec.ofNat 64 (fenc (accFmt a64) .rne x), if a64 then bound else upAdd bound (loadError xs))

/-- A tile opened for a key. -/
def openTile (f : Firing) (acc : Nat) (cancelled : Bool) (st : List (BitVec 64) × Nat) (src : Option (Payload × Tensor)) : AccTile :=
  { id := f.opens, acc := acc, key := f.key, a64 := f.w.mod.getLsbD 2, redone := false, cancelled := cancelled, n := 0,
    bnd := BitVec.ofNat 32 st.2, vals := st.1, startBnd := BitVec.ofNat 32 st.2, source := src, ents := [], log := [] }

/-- A tile opens and the command's output leaves (R337, R340). -/
def finishOpen (s : State) (f : Firing) (m : Mode) (t : AccTile) : State :=
  let s := setNode s f.n.ref fun n => { n with tiles := n.tiles ++ [t], dead := n.dead.erase f.key }
  endFiring s f m (both (if m = .cancel then islandToken f .cancel 0 else islandToken f .data (f.pay .a)))

/-- What TZERO and TLOAD share: a quiet firing, a double open, the wait for an accumulator, a cancelled opening (R297,
R337, R341). -/
def opening (load : State → Firing → Nat → State) (s : State) (f : Firing) (m : Mode) : State :=
  if m = .quiet then endFiring s f m []
  else if (tileOf f.n f.key).isSome then
    endFiring (raiseExact s f (fabCode 0x25)) f .fire (both (islandToken f .eeos 0))
  else
    match freeAcc f.n with
    | none => s
    | some k =>
      if m = .cancel then finishOpen s f m (openTile f k true (List.replicate 1024 0, 0) none) else load s f k

/-- TZERO (R343). -/
def execTzero (e : EWord) (s : State) : Result :=
  fireIsland 0x93 e (opening fun s f k => finishOpen s f .fire (openTile f k false (List.replicate 1024 0, 0) none)) s

/-- The values of a stored tile and its bound, as TLOAD reads them (R343). -/
def loadSource (again : Bool) (id : Nat) (f : Firing) (p : Payload) (t : Tensor) (s : State) : State × Fetched (List FV × Nat) :=
  withFetch (fetchOperand again id f 0 t (dscTile p) true s) fun s o => (s, .ok (o.values, o.eps))

/-- TLOAD (R343). -/
def execTload (e : EWord) (s : State) : Result :=
  fireIsland 0x91 e (opening fun s f k =>
    let p := f.pay .a
    let t := entryOf s f (dscTid p)
    if dscBad p false || !tileFormat t || !namesTile t (dscTile p) then islandFault s f tidx
    else
      match loadSource false f.opens f p t s with
      | (s, .wait) => keepEntry f (dscTid p) s
      | (s, .fault x) => islandFault s f x
      | (s, .ok o) => finishOpen s f .fire (openTile f k false (startOf (e.mod.getLsbD 2) o.1 o.2) (some (p, t)))) s

/-! ## MMA -/

/-- The entry that a tile reads for a tensor: the first reading stays (R244). -/
def tileEntry (s : State) (f : Firing) (t : AccTile) (id : Nat) : Tensor :=
  ((t.ents.find? fun e => e.1 == id).map Prod.snd).getD (entryOf s f id)

/-- The entries of a k-step, kept in the tile. -/
def AccTile.keep (t : AccTile) (id : Nat) (x : Tensor) : AccTile :=
  if t.ents.any fun e => e.1 == id then t else { t with ents := t.ents ++ [(id, x)] }

/-- Fetch and add one logged or arriving k-step (R339, R342). -/
def stepTile (again : Bool) (f : Firing) (k : KStep) (t : AccTile) (s : State) : State × Fetched AccTile :=
  if k.idle then (s, .ok t)
  else
    let ea := tileEntry s f t (dscTid k.a)
    let eb := tileEntry s f t (dscTid k.b)
    if dscBad k.a false || dscBad k.b false || !namesTile ea (dscTile k.a) || !namesTile eb (dscTile k.b) ||
        tFmt ea != tFmt eb || !([9, 12, 13].contains (tFmt ea)) then (s, .fault tidx)
    else
      withFetch (fetchOperand again t.id f 0 ea (dscTile k.a) k.bp s) fun s a =>
      withFetch (fetchOperand again t.id f 1 eb (dscTile k.b) k.bp s) fun s b =>
        (s, .ok (((t.keep (dscTid k.a) ea).keep (dscTid k.b) eb).add (tTapered ea) a b))

/-- k-steps in SEQ order. -/
def stepAll (f : Firing) : List KStep → AccTile → State → State × Fetched AccTile
  | [], t, s => (s, .ok t)
  | k :: ks, t, s => withFetch (stepTile true f k t s) fun s t => stepAll f ks t s

/-- A tile re-issued in A64 from its starting state, B at its starting value (R251, R339). -/
def reissue (f : Firing) (t : AccTile) (s : State) : State × Fetched AccTile :=
  let go := fun (s : State) (vals : List (BitVec 64)) =>
    stepAll f t.log { t with a64 := true, redone := true, vals := vals, bnd := t.startBnd } s
  match t.source with
  | none => go s (List.replicate 1024 0)
  | some (p, e) =>
    withFetch (loadSource true t.id f p e s) fun s o => go s (startOf true o.1 o.2).1

/-- A read for the sake of its pins alone: what faults is not pinned. -/
def pinRead {α : Type} (r : State × Fetched α) : State × Fetched Unit :=
  match r with
  | (s, .wait) => (s, .wait)
  | (s, _) => (s, .ok ())

/-- The lines that a tile's steps have read are pinned again, one read after another (R349). -/
def repinSteps (f : Firing) (t : AccTile) : List KStep → State → State × Fetched Unit
  | [], s => (s, .ok ())
  | k :: ks, s =>
    if k.idle then repinSteps f t ks s
    else
      withFetch (pinRead (fetchOperand true t.id f 0 (tileEntry s f t (dscTid k.a)) (dscTile k.a) k.bp s)) fun s _ =>
      withFetch (pinRead (fetchOperand true t.id f 1 (tileEntry s f t (dscTid k.b)) (dscTile k.b) k.bp s)) fun s _ =>
        repinSteps f t ks s

/-- A restored tile pins again what it had pinned, its source and its steps, before a command acts on it (R343, R349). -/
def withPins (f : Firing) (t : AccTile) (s : State) (k : AccTile → State → State) : State :=
  if !t.repin then k t s
  else
    let source := fun (s : State) =>
      match t.source with
      | none => (s, .ok ())
      | some (p, e) => pinRead (loadSource true t.id f p e s)
    match withFetch (source s) fun s _ => repinSteps f t t.log s with
    | (s, .wait) => s
    | (s, _) =>
      let t := { t with repin := false }
      k t (setTile s f t)

/-- One k-step, with the promotion of an A32 tile at its 257th (R338, R339). -/
def nextStep (f : Firing) (k : KStep) (t : AccTile) (s : State) : State × Fetched AccTile :=
  let ready := if !t.a64 && 256 ≤ t.log.length then reissue f t s else (s, .ok t)
  withFetch ready fun s t =>
  withFetch (stepTile false f k t s) fun s t2 =>
    (s, .ok { t2 with n := t2.n + 1, log := if t2.a64 then t2.log else t2.log ++ [k] })

/-- The pair of tokens of an MMA slot whose turn has come, and its gate token (R338). -/
def mmaHeads (f : Firing) (n : Nat) : Option (List Held) :=
  let turn := fun (o : Opd) =>
    minBy Held.arr ((keyTokens f).filter fun h =>
      h.opd == o && h.tok.seq.toNat == n % 256 && (h.tok.kind == .data || h.tok.kind == .cancel))
  match turn .a, turn .b with
  | some a, some b =>
    if f.n.gated.contains f.slot then (headOf f.n f.slot f.key .g).map fun g => [a, b, g] else some [a, b]
  | _, _ => none

/-- MMA on the tile of its key (R341, R342). -/
def mmaStep (f : Firing) (t : AccTile) (s : State) : State :=
  match mmaHeads f t.n with
  | none => s
  | some hs =>
    let f := { f with heads := hs }
    let m := if t.cancelled then .cancel else modeOf hs
    let k : KStep := { a := f.pay .a, b := f.pay .b, bp := f.w.mod.getLsbD 3, idle := m = .cancel || m = .quiet }
    match nextStep f k t s with
    | (s, .wait) => if k.idle then s else keepEntry f (dscTid k.a) (keepEntry f (dscTid k.b) s)
    | (s, .fault x) => islandFault s f x
    | (s, .ok t2) =>
      let outs :=
        if m = .quiet then []
        else if m = .cancel then both (islandToken f .cancel 0)
        else both (islandToken f .data (f.pay .a))
      endFiring (setTile s f t2) f m outs

/-- MMA (R338, R341, R342). -/
def execMma (e : EWord) (s : State) : Result :=
  match islandAt s s.site 0x90 e with
  | none => .next s
  | some f =>
    if f.n.dead.contains f.key && !(keyTokens f).isEmpty then .next (endFiring s { f with heads := keyTokens f } .fire [])
    else
      match islandEnds s f with
      | some s => .next s
      | none =>
        match tileOf f.n f.key with
        | none => .next s
        | some t => .next (withPins f t s (mmaStep f))

/-! ## Storing -/

/-- The stores of a tile: its codes, its block exponents, its bound (R240, R253, R344). -/
def tileStores (d : Tensor) (n : Nat) (bs : List Block) (bout : Nat) : List (Nat × List Byte) :=
  let c := tileCoords d n
  let data :=
    if tTapered d then [(tileVa d n, toBytes (tileBytes d) (packBits (codeBits d) (bs.flatMap Block.codes)))]
    else
      let z := fmtSize (tFmt d)
      let w := min 32 (tDim d 0 - 32 * c.1)
      let h := min 32 (tDim d 1 - 32 * c.2.1)
      ((List.range h).zip bs).map fun r =>
        (elemVa d (32 * c.1) (32 * c.2.1 + r.1) c.2.2.1 c.2.2.2, (r.2.codes.take w).flatMap (toBytes z))
  data ++ (if tSmode d = 2 then [(blockExpVa d n, bs.map fun b => BitVec.ofInt 8 b.exp)] else []) ++
    (if tBsto d then [(boundVa d n, toBytes 4 bout)] else [])

/-- The stores cut into lines, each translated through the tile-store entry (R344, R348). -/
def translateStores (f : Firing) : State → List (Nat × List Byte) → State × Fetched (List HeldStore)
  | s, [] => (s, .ok [])
  | s, (va, bytes) :: rest =>
    match reachPlace f (.island f.n.ref 2) false va bytes.length true (fun s _ => (s, [])) s with
    | (s, some (.parts ps)) => withFetch (translateStores f s rest) fun s hs => (s, .ok (f.heldPlain va ps bytes :: hs))
    | (s, some (.fault x)) => (s, .fault x.fab)
    | (s, _) => (s, .wait)

/-- The line-sized pieces of stores. -/
def linePieces (xs : List (Nat × List Byte)) : List (Nat × List Byte) :=
  xs.flatMap fun x => (chunks 128 x.2.length x.1 x.2.length).map fun c => (c.1, sliceOf x.2 (c.1 - x.1) c.2)

/-- The lines of an island's store queue in use (R344). -/
def islandQueue (s : State) (r : NodeRef) : Nat :=
  ((s.instances.filter fun i => i.blk.node == r).map fun i => i.stores.countP fun h => !h.spilled).sum

/-- The held stores of a firing become an instance of the island that may commit, and the pins of its tile stay until then;
lines past the queue's 128 spill, and where the overflow set is full there is none (R217, R339, R344). -/
def islandInstance (s : State) (f : Firing) (id : Nat) (hs : List HeldStore) (word : Payload) : Option State :=
  let blk : BlockRef := { node := f.n.ref, key := f.key }
  let used := islandQueue s f.n.ref
  let free := 128 - used
  let extra := hs.length - free
  let set := ovfSet s f.g.part f.n.ref.id f.key
  if 16 < ovfUsed s f.g.part set + extra then none
  else
    let held := hs.take free ++ (hs.drop free).map fun h => { h with spilled := true }
    let i := newInstance blk f.g.handle false
    let i := { i with exited := true, tile := some id, stores := held, result := [(f.n.ref, f.slot, islandToken f .data word)] }
    some { s with instances := s.instances ++ [i] }

/-- A tile of values converted and held for commit, with the bound that R252 gives; word makes the result word of the
bound (R344, R346). -/
def holdTile (f : Firing) (id : Nat) (d : Tensor) (n : Nat) (xs : List FV) (bnd : Nat) (word : Nat → Payload) (s : State) :
    State × Fetched State :=
  let bs := (List.range 32).map fun r => convBlock d ((xs.drop (32 * r)).take 32)
  let bout := boundOut (.fin false 1 0) bnd bs
  withFetch (translateStores f s (linePieces (tileStores d n bs bout))) fun s hs =>
    match islandInstance s f id hs (word bout) with
    | some s2 => (s, .ok s2)
    | none => (s, .fault (fabCode 0x24))

/-- The test of R251: it fails when B is +∞ or above 2^θ times m. -/
def boundFails (d : Tensor) (t : AccTile) : Bool :=
  let b := fdec fp32 t.bnd.toNat
  let m := fdec fp32 (tileMag t.a64 t.vals)
  b == .inf false || vcmp b (vmul (pow2 (tTheta d)) m) == 1

/-- The tile that TSTORE converts, after the test and a re-issue (R251, R344). -/
def testedTile (f : Firing) (d : Tensor) (t : AccTile) (s : State) : State × Fetched AccTile :=
  if !tBtest d || !boundFails d t then (s, .ok t)
  else if t.a64 then (s, .fault (fabCode 0x23))
  else withFetch (reissue f t s) fun s t2 => if boundFails d t2 then (s, .fault (fabCode 0x23)) else (s, .ok t2)

/-- The result word of TSTORE (R344). -/
def storeWord (t : AccTile) (bout : Nat) : Payload :=
  BitVec.ofNat 256 (bout + (if t.a64 then 2 ^ 32 else 0) + (if t.redone then 2 ^ 33 else 0))

/-- TSTORE on the tile of its key (R341, R344). -/
def storeTile (f : Firing) (m : Mode) (t : AccTile) (s : State) : State :=
  let p := f.pay .a
  if m = .quiet then endFiring s f m []
  else if m = .cancel then endFiring (discardTile s f t) f m (both (islandToken f .cancel 0))
  else if t.n ≠ dscCount p then s
  else if t.cancelled then
    endFiring (unpinOf (freeTile s f) f t.id) f .fire (both (islandToken f .cancel 0))
  else
    let d := entryOf s f (dscTid p)
    if dscBad p true || !tileFormat d || !namesTile d (dscTile p) then islandFault s f tidx
    else
      let r := withFetch (testedTile f d t s) fun s t2 =>
        holdTile f t.id d (dscTile p) (t2.vals.map fun v => fdec (accFmt t2.a64) v.toNat) t2.bnd.toNat (storeWord t2) s
      match r with
      | (s, .wait) => keepEntry f (dscTid p) s
      | (s, .fault x) => islandFault s f x
      | (_, .ok s2) => endFiring (freeTile s2 f) f .fire []

/-- TSTORE (R344). -/
def execTstore (e : EWord) (s : State) : Result :=
  fireIsland 0x92 e (fun s f m =>
    match tileOf f.n f.key with
    | none => s
    | some t => withPins f t s (storeTile f m)) s

/-- The bound word (R345). -/
def boundWord (t : AccTile) : Payload :=
  BitVec.ofNat 256 (t.bnd.toNat + tileMag t.a64 t.vals * 2 ^ 32 + if t.a64 then 2 ^ 64 else 0)

/-- TBOUND (R345). -/
def execTbound (e : EWord) (s : State) : Result :=
  fireIsland 0x94 e (fun s f m =>
    match tileOf f.n f.key with
    | none => s
    | some t =>
      if m = .quiet then endFiring s f m []
      else if m = .cancel then endFiring s f m (both (islandToken f .cancel 0))
      else if t.n ≠ dscCount (f.pay .a) then s
      else endFiring s f m (both (islandToken f .data (boundWord t)))) s

/-- TCVT (R346). -/
def execTcvt (e : EWord) (s : State) : Result :=
  fireIsland 0x95 e (fun s f m =>
    if m = .quiet then endFiring s f m []
    else if m = .cancel then endFiring s f m (both (islandToken f .cancel 0))
    else
      let a := f.pay .a
      let b := f.pay .b
      let src := entryOf s f (dscTid a)
      let dst := entryOf s f (dscTid b)
      if dscBad a false || dscBad b false || !tileFormat src || !tileFormat dst || !namesTile src (dscTile a) ||
          !namesTile dst (dscTile b) then islandFault s f tidx
      else
        let r := withFetch (fetchOperand false f.opens f 0 src (dscTile a) (e.mod.getLsbD 3) s) fun s o =>
          holdTile f f.opens dst (dscTile b) o.values o.eps (fun bout => BitVec.ofNat 256 bout) s
        match r with
        | (s, .wait) => keepEntry f (dscTid a) (keepEntry f (dscTid b) s)
        | (s, .fault x) => islandFault s f x
        | (_, .ok s2) => endFiring s2 f m []) s

end Sys2Proof.Machine
end

