-- ==== Sys2Proof/Machine/Image.lean ====
section
/-! DEFINITION. LOADCFG, the checks it makes on an image, and the arbiter that admits it (R19 to R29, R44, R274, R374 to
R377, R409). -/

namespace Sys2Proof.Machine

/-! ## The image (R19, R20) -/

/-- A failed check: its reason code and the offset that FADDR names, from the image's start (R29, R274). -/
abbrev Reject := Option (Nat × Nat)

/-- A check with a reason and a place. -/
def failIf (b : Bool) (reason off : Nat) : Reject := if b then some (reason, off) else none

/-- The first failure of two checks. -/
def Reject.orElse (a b : Reject) : Reject :=
  match a with
  | some x => some x
  | none => b

/-- The first failure of a list of checks. -/
def firstReject (l : List Reject) : Reject := l.foldr Reject.orElse none

/-- The fields of section descriptor i of a header. -/
def secKind (h : List Byte) (i : Nat) : Nat := fieldOf h (0x40 + 16 * i) 4
def secOff (h : List Byte) (i : Nat) : Nat := fieldOf h (0x48 + 16 * i) 4
def secSize (h : List Byte) (i : Nat) : Nat := fieldOf h (0x4C + 16 * i) 4

/-- The fields of a header. -/
def hdrVer (h : List Byte) : Nat := fieldOf h 0x04 2
def hdrEntry (h : List Byte) : Nat := fieldOf h 0x10 8
def hdrW (h : List Byte) : Nat := fieldOf h 0x18 1
def hdrH (h : List Byte) : Nat := fieldOf h 0x19 1
def hdrNloop (h : List Byte) : Nat := fieldOf h 0x1A 2
def hdrTagmin (h : List Byte) : Nat := fieldOf h 0x1C 2

/-- The order and bounds of a section against the one before it. -/
def secOrder (h : List Byte) (i : Nat) : Reject :=
  let last := if i = 0 then 0 else secOff h (i - 1) + secSize h (i - 1)
  failIf (secOff h i % 64 ≠ 0 || secOff h i < last || 2 ^ 32 < secOff h i + secSize h i ||
    (i == 0 && (secOff h i != 0 || secSize h i != 192))) 0x0C 0

/-- What the header alone shows (R29 step 1). -/
def checkHeader (h : List Byte) : Reject :=
  let whole := fun (b : Bool) (r : Nat) => failIf b r 0
  firstReject
    ([whole (fieldOf h 0 4 != 0x4F4B4A2E || fieldOf h 8 4 != 192) 0x0C,
      whole (32 < hdrW h || 32 < hdrH h || ((hdrW h == 0) != (hdrH h == 0)) || hdrEntry h % 4 != 0 ||
        secSize h 1 ≤ hdrEntry h) 0x0F,
      whole (!zeroAt h 0x06 2 || !zeroAt h 0x0C 4 || !zeroAt h 0x1E 34) 0x0F] ++
     (List.range 8).map (secOrder h) ++
     (List.range 8).map (fun i => whole (secKind h i != i + 1) 0x0C) ++
     (List.range 8).map (fun i => whole (!zeroAt h (0x44 + 16 * i) 4) 0x0F))

/-- The sections of an image as LOADCFG has read them, HDR first. -/
abbrev Image := List (List Byte)

def Image.sec (m : Image) (i : Nat) : List Byte := m.getD i []

/-- The records of a section of a given size. -/
def records (n : Nat) : Nat → List Byte → List (List Byte)
  | 0, _ => []
  | k + 1, bs => bs.take n :: records n k (bs.drop n)

/-- The records of a section. -/
def recordsOf (n : Nat) (bs : List Byte) : List (List Byte) := records n (bs.length / n) bs

/-- SYM: its count, entries and names lie within it (R26). -/
def symOk (b : List Byte) : Bool :=
  b.isEmpty ||
  (let n := fieldOf b 0 4
   let names := b.drop (4 + 16 * n)
   4 ≤ b.length && 4 + 16 * n ≤ b.length &&
   (records 16 n (b.drop 4)).all fun e => (names.drop (fieldOf e 0 4)).contains 0)

/-- An entry of RELO keeps to R25. -/
def reloOk (m : Image) (e : List Byte) : Bool :=
  let sect := fieldOf e 0 1
  let ty := fieldOf e 1 1
  (sect == 4 || sect == 5) && 1 ≤ ty && ty ≤ 5 && zeroAt e 2 2 && fieldOf e 4 4 + 8 ≤ (m.sec (sect - 1)).length

/-- The rest of step 1 of R29, once the sections are read. -/
def checkSections (m : Image) : Reject :=
  let div := fun (i n : Nat) => (m.sec i).length % n == 0
  firstReject
    [failIf (!div 3 32 || !div 4 72 || !div 5 264 || !div 6 16 || 32 * 4096 < (m.sec 3).length) 0x0C 0,
     failIf ((recordsOf 72 (m.sec 4)).any fun r => 1024 ≤ fieldOf r 0 8) 0x0C 0,
     failIf ((recordsOf 264 (m.sec 5)).any fun r => 256 ≤ fieldOf r 0 8) 0x0C 0,
     failIf (!symOk (m.sec 7)) 0x0C 0,
     failIf (!(recordsOf 16 (m.sec 6)).all (reloOk m)) 0x0D 0]

/-- Step 2 of R29: ENCVER, then COMB under version 1. -/
def checkVersion (m : Image) : Reject :=
  let h := m.sec 0
  (failIf (hdrVer h == 0 || 3 < hdrVer h) 0x06 4).orElse
    (failIf (hdrVer h == 1 && !(m.sec 5).isEmpty) 0x0C (secOff h 5))

/-! ## CFG (R22) -/

/-- A record of CFG: its offset in the image, whether its header is whole, its header and those of its words that lie
within CFG. -/
structure CfgRec where
  off : Nat
  whole : Bool
  hdr : Word
  words : List Word
  deriving DecidableEq, Repr

def CfgRec.kind (r : CfgRec) : Nat := bits r.hdr 63 56
def CfgRec.x (r : CfgRec) : Nat := bits r.hdr 55 48
def CfgRec.y (r : CfgRec) : Nat := bits r.hdr 47 40
def CfgRec.e (r : CfgRec) : Nat := bits r.hdr 39 38
def CfgRec.count (r : CfgRec) : Nat := bits r.hdr 31 16
def CfgRec.first (r : CfgRec) : Nat := bits r.hdr 15 0

/-- A 64-bit word of bytes. -/
def word64 (bs : List Byte) : Word := BitVec.ofNat 64 (ofBytes bs)

/-- The records of CFG from an offset on. -/
def cfgRecs : Nat → Nat → List Byte → List CfgRec
  | 0, _, _ => []
  | fuel + 1, off, bs =>
    if bs.isEmpty then []
    else if bs.length < 8 then [{ off := off, whole := false, hdr := 0, words := [] }]
    else
      let h := word64 (bs.take 8)
      let n := bits h 31 16
      let rest := bs.drop 8
      let ws := (records 8 (min n (rest.length / 8)) rest).map word64
      { off := off, whole := true, hdr := h, words := ws } :: cfgRecs fuel (off + 8 + 8 * n) (rest.drop (8 * n))

/-- The records of an image. -/
def Image.cfg (m : Image) : List CfgRec := cfgRecs ((m.sec 2).length / 8 + 1) (secOff (m.sec 0) 2) (m.sec 2)

/-- The records of a kind. -/
def cfgOf (rs : List CfgRec) (k : Nat) : List CfgRec := rs.filter fun r => r.whole && r.kind == k

/-- The islands that records place, by side and position, and the tiles with converter records (R22, R335). -/
def cfgIslands (rs : List CfgRec) : List (Nat × Nat) := ((cfgOf rs 3).map fun r => (r.x, r.y)).eraseDups
def cfgConvs (rs : List CfgRec) : List (Nat × Nat) := ((cfgOf rs 2).map fun r => (r.x, r.y)).eraseDups

/-- The loop declarations, each with its word's offset. -/
def cfgLoops (rs : List CfgRec) : List (Nat × LoopDecl) :=
  (cfgOf rs 6).flatMap fun r =>
    r.words.mapIdx fun i w =>
      (r.off + 8 + 8 * i, { id := BitVec.ofNat 16 (bits w 63 48), window := bits w 47 40, reserve := bits w 39 32 })

/-- Whether a record writes a fanout entry of a tile. -/
def fanoutWritten (rs : List CfgRec) (x y k : Nat) : Bool :=
  (cfgOf rs 5).any fun r => r.x == x && r.y == y && r.first ≤ k && k < r.first + r.words.length

/-- Where a tile position stands to the rectangle: inside, one step off where a record places an island, or neither
(R335). -/
inductive Place where
  | inside | island | outside
  deriving DecidableEq, Repr

def placeOf (h : List Byte) (rs : List CfgRec) (x y : Int) : Place :=
  let inX := decide (0 ≤ x) && decide (x < hdrW h)
  let inY := decide (0 ≤ y) && decide (y < hdrH h)
  let isl := fun (side : Nat) (pos : Int) => if (cfgIslands rs).contains (side, pos.toNat) then Place.island else .outside
  if inX && inY then .inside
  else if inX && y == -1 then isl 0 x
  else if inX && y == hdrH h then isl 2 x
  else if inY && x == -1 then isl 3 y
  else if inY && x == hdrW h then isl 1 y
  else .outside

/-- The tile that a record's targets are measured from (R36, R335). -/
def CfgRec.origin (h : List Byte) (r : CfgRec) : Nat × Nat :=
  if r.kind = 3 then
    match r.x with
    | 0 => (r.y, 0)
    | 1 => (hdrW h - 1, r.y)
    | 2 => (r.y, hdrH h - 1)
    | _ => (0, r.y)
  else (r.x, r.y)

/-- The kind of slot a record writes (R22). -/
def slotKindOf (k : Nat) : SlotKind :=
  match k with
  | 2 => .converter
  | 3 => .island
  | 4 => .comb
  | _ => .element

/-- The reasons that a target's place gives (R44 0x08, 0x0B); k is the fanout entry of a long route. -/
def targetReasons (h : List Byte) (rs : List CfgRec) (o : Nat × Nat) (t : BitVec 16) (k : Nat) : List Nat :=
  if !tV t then []
  else if tLong t then reasonIf (!fanoutWritten rs o.1 o.2 k) 0x0B
  else reasonIf (placeOf h rs (o.1 + tDX t) (o.2 + tDY t) == .outside) 0x08

/-- The reasons of an instruction word in its place (R44). -/
def slotReasons (h : List Byte) (rs : List CfgRec) (r : CfgRec) (w : Word) : List Nat :=
  let op := eOp w
  let e := eWord w
  let o := r.origin h
  let own := wordReasons (hdrVer h) (slotKindOf r.kind) w
  if own.contains 0x01 then own
  else
    own ++ targetReasons h rs o e.t0 (e.x.toNat % 256) ++ targetReasons h rs o e.t1 (e.x.toNat / 256) ++
    (if op = 0x56 && !tLong e.x then targetReasons h rs o e.x 0 else []) ++
    reasonIf (op == 0x53 && !(cfgLoops rs).any fun l => l.2.id == e.x) 0x02

/-- The reasons of a fanout entry (R22). -/
def fanoutReasons (h : List Byte) (rs : List CfgRec) (r : CfgRec) (w : Word) : List Nat :=
  let x : Int := r.x + sxInt 8 (bits w 63 56)
  let y : Int := r.y + sxInt 8 (bits w 55 48)
  let p := placeOf h rs x y
  let ok :=
    match bits w 38 37 with
    | 1 => p == .inside && (cfgConvs rs).contains (x.toNat, y.toNat)
    | 2 => p == .island
    | _ => p == .inside
  reasonIf (bits w 36 0 != 0) 0x02 ++ reasonIf (!ok) 0x08

/-- The reasons of a word of a record (R22, R44). -/
def cfgWordReasons (h : List Byte) (rs : List CfgRec) (r : CfgRec) (w : Word) : List Nat :=
  match r.kind with
  | 5 => fanoutReasons h rs r w
  | 6 =>
    let wd := bits w 47 40
    let mn := bits w 39 32
    reasonIf (bits w 31 0 != 0) 0x02 ++ reasonIf (wd == 0 || 64 < wd || mn == 0 || wd < mn) 0x09
  | 7 => reasonIf (bits w 45 0 != 0) 0x02 ++ reasonIf (bits w 55 46 == 0 || 512 < bits w 55 46) 0x0E
  | _ => slotReasons h rs r w

/-- How many slots or entries the node of a record has (R44 0x11); records of the other kinds begin at 0. -/
def cfgCapacity (k : Nat) : Nat :=
  match k with
  | 1 | 2 => 32
  | 3 | 4 => 16
  | _ => 256

/-- Whether two records write a slot or an entry both; one of no word writes none. -/
def sameEntry (a b : CfgRec) : Bool :=
  0 < a.count && 0 < b.count && a.kind ≤ 5 && a.kind == b.kind && a.x == b.x && a.y == b.y && a.e == b.e &&
  a.first < b.first + b.count && b.first < a.first + a.count

/-- The checks on one record, the records before it given (R29 step 3): header, position, extent, its words lying
within CFG, then its words in order. -/
def checkRec (h : List Byte) (rs before : List CfgRec) (r : CfgRec) : Reject :=
  let k := r.kind
  let posBad :=
    if k = 3 then 3 < r.x || (if r.x = 0 || r.x = 2 then hdrW h else hdrH h) ≤ r.y
    else k != 6 && (hdrW h ≤ r.x || hdrH h ≤ r.y)
  let extBad :=
    if k = 6 || k = 7 then r.first != 0 else cfgCapacity k < r.first + r.count || before.any (sameEntry r)
  firstReject
    ([failIf (!r.whole || k == 0 || 7 < k) 0x0C r.off,
      failIf (bits r.hdr 37 32 != 0 || (r.e != 0 && k != 1 && k != 7)) 0x0F r.off,
      failIf posBad 0x08 r.off,
      failIf extBad 0x11 r.off,
      failIf (r.words.length != r.count) 0x0C r.off] ++
     r.words.mapIdx fun i w =>
      match (cfgWordReasons h rs r w).min? with
      | some reason => some (reason, r.off + 8 + 8 * i)
      | none => none)

/-- Every record in section order. -/
def checkRecs (h : List Byte) (rs : List CfgRec) : List CfgRec → List CfgRec → Reject
  | _, [] => none
  | before, r :: rest => (checkRec h rs before r).orElse (checkRecs h rs (before ++ [r]) rest)

/-! ## The whole graph (R29 step 4) -/

/-- A slot as a record writes it: the record's kind and place, the slot, the word and its offset. -/
structure CfgSlot where
  kind : Nat
  x : Nat
  y : Nat
  e : Nat
  slot : Nat
  word : Word
  off : Nat
  deriving DecidableEq, Repr

/-- The slots that records write, in CFG order. -/
def cfgSlots (rs : List CfgRec) : List CfgSlot :=
  (rs.filter fun r => r.whole && r.kind ≤ 4).flatMap fun r =>
    r.words.mapIdx fun i w =>
      { kind := r.kind, x := r.x, y := r.y, e := r.e, slot := r.first + i, word := w, off := r.off + 8 + 8 * i }

/-- The edge depths of a tile's record: element, slot, output, depth. -/
def cfgDepths (rs : List CfgRec) (x y : Nat) : List (Nat × Nat × Nat × Nat) :=
  ((cfgOf rs 7).filter fun r => r.x == x && r.y == y).flatMap fun r =>
    r.words.map fun w => (bits w 63 62, bits w 61 57, bits w 56 56, bits w 55 46)

/-- The depth of an edge: the last record that names it, else 2 (R202). -/
def cfgDepth (rs : List CfgRec) (c : CfgSlot) (out : Nat) : Nat :=
  (((cfgDepths rs c.x c.y).reverse.find? fun d => d.1 == c.e && d.2.1 == c.slot && d.2.2.1 == out).map
    fun d => d.2.2.2).getD 2

/-- The depths that an element slot's edges draw from its tile's pool (R202, R311). -/
def slotDepth (rs : List CfgRec) (c : CfgSlot) : Nat :=
  let e := eWord c.word
  (if tV e.t0 || (eOp c.word == 0x56 && tV e.x) then cfgDepth rs c 0 else 0) + (if tV e.t1 then cfgDepth rs c 1 else 0)

/-- Whether some tile's depths pass its pool. -/
def depthsBad (rs : List CfgRec) : Bool :=
  let es := (cfgSlots rs).filter fun c => c.kind == 1
  es.any fun c => 512 < ((es.filter fun d => d.x == c.x && d.y == c.y).map (slotDepth rs)).sum

/-- The slot that a memory or comb instruction's link names as its predecessor: element and slot (R316, R317, R357). -/
def linkTo (c : CfgSlot) : Option (Nat × Nat) :=
  let op := eOp c.word
  let x := (eWord c.word).x
  if ((c.kind == 1 && 0x70 ≤ op && op ≤ 0x75) || (c.kind == 4 && (op == 0xA2 || op == 0xA3))) && x.getLsbD 15 then
    some ((x.extractLsb' 13 2).toNat, (x.extractLsb' 8 5).toNat)
  else none

/-- The memory instruction that a link names, in the same tile. -/
def linkPred (cs : List CfgSlot) (c : CfgSlot) : Option CfgSlot :=
  match linkTo c with
  | none => none
  | some (e, k) =>
    cs.find? fun d =>
      d.kind == 1 && d.x == c.x && d.y == c.y && d.e == e && d.slot == k && 0x70 ≤ eOp d.word && eOp d.word ≤ 0x75

/-- Whether following links from a slot, so many times, comes back to it. -/
def linkCycle (cs : List CfgSlot) (start : CfgSlot) : Nat → CfgSlot → Bool
  | 0, _ => false
  | n + 1, c =>
    match linkPred cs c with
    | none => false
    | some p => p == start || linkCycle cs start n p

/-- The links (R317): a word whose predecessor is no memory instruction of its tile, the later of two words that name
one predecessor, the first word of a cycle. -/
def checkLinks (cs : List CfgSlot) : Reject :=
  let bad := cs.find? fun c =>
    (linkTo c).isSome &&
    match linkPred cs c with
    | none => true
    | some p => cs.any fun d => d.off < c.off && linkPred cs d == some p
  match bad with
  | some c => some (0x02, c.off)
  | none => ((cs.find? fun c => linkCycle cs c cs.length c).map fun c => (0x02, c.off))

/-- The loop declarations against the header (R44 0x10). -/
def checkLoops (h : List Byte) (rs : List CfgRec) : Reject :=
  let ls := cfgLoops rs
  let dup := ls.find? fun l => ls.any fun m => m.1 < l.1 && m.2.id == l.2.id
  firstReject
    [failIf (hdrNloop h != ls.length) 0x10 0x1A,
     failIf (hdrTagmin h != (ls.map fun l => l.2.reserve).sum) 0x10 0x1C,
     dup.map fun l => (0x10, l.1)]

/-- The route check of R44 0x05.  Only islands and converter nodes read or write T8 and T6 (R35), so a stream needs a
conversion only where the image places one of them and some word sends a token (R220); what it then finds in the records is
free. -/
def checkRoutes (rs : List CfgRec) : Reject :=
  let cs := cfgSlots rs
  if (cs.any fun c => tV (eWord c.word).t0 || tV (eWord c.word).t1) && cs.any (fun c => c.kind == 2 || c.kind == 3) then
    (Config.conversionWithoutRoute (rs.flatMap fun r => r.hdr :: r.words)).bind fun i => (cs[i]?).map fun c => (0x05, c.off)
  else none

/-- Steps 1 (from the sections on) to 4 of R29. -/
def checkImage (m : Image) : Reject :=
  let h := m.sec 0
  let rs := m.cfg
  firstReject
    [checkSections m, checkVersion m, checkRecs h rs [] rs, checkRoutes rs, checkLoops h rs,
     failIf (512 < hdrTagmin h) 0x07 0x1C, failIf (depthsBad rs) 0x0E 0, checkLinks (cfgSlots rs)]

/-! ## The measurement (R27) -/

/-- A section with the fields that RELO names in it hashed as zero. -/
def unrelocated (m : Image) (i : Nat) : List Byte :=
  (recordsOf 16 (m.sec 6)).foldl
    (fun bs e => if fieldOf e 0 1 = i + 1 then patch bs (fieldOf e 4 4) (List.replicate 8 0) else bs) (m.sec i)

/-- The tenant measurement of an image. -/
def Image.measure (m : Image) : List Byte :=
  sha256 ((List.range 8).flatMap fun i => if i = 3 || i = 4 then unrelocated m i else m.sec i)

/-! ## Admission (R374, R376) -/

/-- The bid that an image makes. -/
def imageBid (s : State) (u : UnitRec) (m : Image) (prio : Nat) : Bid :=
  { part := u.part, q := s.cur, ctx := u.ctx, w := hdrW (m.sec 0), h := hdrH (m.sec 0), islands := cfgIslands m.cfg,
    convs := cfgConvs m.cfg, prio := prio, issue := s.nextBid, bypass := 0, blocking := false, restore := none }

/-! ## Making an image resident (R274 step 3) -/

/-- The words of a node's slots: those that records write, NOP elsewhere (R22). -/
def loadedSlots (cs : List CfgSlot) (kind x y e n : Nat) : List (BitVec 64) :=
  let mine := cs.filter fun c => c.kind == kind && c.x == x && c.y == y && c.e == e
  (List.range n).map fun k => ((mine.find? fun c => c.slot == k).map CfgSlot.word).getD 0xF000000000000000

/-- A node as LOADCFG writes it. -/
def freshNode (r : NodeRef) (g : Graph) (slots : List (BitVec 64)) (depths : List (Nat × Nat × Nat)) : Node :=
  { ref := r, ctx := g.ctx, handle := g.handle, ver := g.ver, slots := slots, holds := List.replicate 8 0, store := [],
    arrivals := 0, outs := [], depths := depths, gated := [], drops := [], ends := [], links := [], marks := [],
    reconfs := [], redepth := [], passed := false, saved := false, sealed := false, tiles := [], dead := [] }

/-- The tiles of a graph, relative to its rectangle. -/
def rectTiles (g : Graph) : List (Nat × Nat) := (List.range g.h).flatMap fun y => (List.range g.w).map fun x => (x, y)

/-- The absolute island that a side and a position of a graph's rectangle name (R335). -/
def graphIsland (g : Graph) (i : Nat × Nat) : NodeRef :=
  islandNode g.die i.1 (if i.1 = 0 || i.1 = 2 then g.x + i.2 else g.y + i.2)

/-- The nodes of a graph as its image writes them. -/
def loadedNodes (m : Image) (g : Graph) : List Node :=
  let rs := m.cfg
  let cs := cfgSlots rs
  ((rectTiles g).flatMap fun t =>
    let depths := fun (e : Nat) => (cfgDepths rs t.1 t.2).reverse.filterMap fun d =>
      if d.1 == e then some (d.2.1, d.2.2.1, d.2.2.2) else none
    ((List.range 4).map fun e =>
      freshNode (elemNode g.die (g.x + t.1) (g.y + t.2) e) g (loadedSlots cs 1 t.1 t.2 e 32) (depths e)) ++
    [freshNode (combNode g.die (g.x + t.1) (g.y + t.2)) g (loadedSlots cs 4 t.1 t.2 0 16) []]) ++
  ((cfgConvs rs).map fun t =>
    freshNode (convNode g.die (g.x + t.1) (g.y + t.2)) g (loadedSlots cs 2 t.1 t.2 0 32) []) ++
  (cfgIslands rs).map fun i => freshNode (graphIsland g i) g (loadedSlots cs 3 i.1 i.2 0 16) []

/-- The fanout tables of a graph as its image writes them. -/
def loadedTiles (m : Image) (g : Graph) : List TileState :=
  let rs := m.cfg
  (rectTiles g).map fun t =>
    { die := g.die, x := g.x + t.1, y := g.y + t.2, ctx := g.ctx, handle := g.handle,
      fanout := ((cfgOf rs 5).filter fun r => r.x == t.1 && r.y == t.2).flatMap fun r =>
        r.words.mapIdx fun i w => (r.first + i, w) }

/-- The slots that some target names with operand g wait on it too (R195). -/
def markGated (s : State) (g : Graph) : State :=
  let ds := (graphNodes s g).flatMap fun n =>
    (List.range n.slots.length).flatMap fun k => [0, 1].flatMap fun o => consumers s n k o
  let gs := ds.filter fun d => d.opd == .g
  let f := fun (n : Node) => { n with gated := ((gs.filter fun d => d.node == n.ref).map Dest.slot).eraseDups }
  { s with nodes := mapIf (fun n => gs.any fun d => d.node == n.ref) f s.nodes }

/-- The handle that a LOADCFG gives: the lowest not yet given in the job, else the one freed longest ago (R274). -/
def nextHandle (s : State) (ctx : BitVec 12) : Option Nat :=
  let j := jobRecOf s ctx
  match (List.range' 1 255).find? fun h => !j.given.contains h with
  | some h => some h
  | none => j.freed.head?

/-- An identity for a graph that no other graph of the state has. -/
def freshGid (s : State) : Nat :=
  ((s.graphs.map Graph.gid) ++ (s.launches.map Launch.gen)).foldl max 0 + 1

/-- Whether a granted part still holds state of an earlier graph (R377). -/
def partLocked (s : State) (die : Nat) (refs : List NodeRef) : Bool :=
  (s.nodes.any fun n => refs.contains n.ref) || (s.instances.any fun i => refs.contains i.blk.node) ||
  s.accesses.any fun a => a.die == die && a.elem.any fun o => refs.contains o.node

/-- The tensor entries of an image are written, a broken or undefined one as zero (R24, R243, R274). -/
def writeTens (s : State) (ctx : BitVec 12) (m : Image) : State :=
  (recordsOf 72 (m.sec 4)).foldl
    (fun s r => setTensor s ctx (fieldOf r 0 8) (tChecked (BitVec.ofNat 512 (ofBytes (r.drop 8))))) s

/-- The tenant measurement of a context: zeros from its creation on, until the hardware writes it (R408, R409). -/
def tmeas (s : State) (part : Nat) (ctx : BitVec 12) : List Byte :=
  if s.fresh.contains ctx then toBytes 32 0
  else (List.range 4).flatMap fun i => toBytes 8 (descWord s part ctx (0x40 + 8 * i)).toNat

/-- Write it. -/
def setTmeas (s : State) (part : Nat) (ctx : BitVec 12) (d : List Byte) : State :=
  (List.range 4).foldl (fun s i => setDescWord s part ctx (0x40 + 8 * i) (word64 (sliceOf d (8 * i) 8)))
    { s with fresh := s.fresh.filter (· != ctx) }

/-- The graph that an image becomes. -/
def loadedGraph (s : State) (u : UnitRec) (m : Image) (h x y prio : Nat) (base : Word) : Graph :=
  { gid := freshGid s, ctx := u.ctx, part := u.part, handle := h, die := dieOfSeq s.cur, x := x, y := y,
    w := hdrW (m.sec 0), h := hdrH (m.sec 0), ver := hdrVer (m.sec 0), prio := prio,
    codeBase := base + BitVec.ofNat 64 (secOff (m.sec 0) 1), seqSize := secSize (m.sec 0) 1,
    islands := cfgIslands m.cfg, loops := (cfgLoops m.cfg).map Prod.snd, allocs := [], counter := 0, pool := [],
    phase := currentPhase s u.ctx (dieOfSeq s.cur), tree := [], recs := [], lost := false, sealing := [], reconf := none,
    cancelled := false, done := false, retiring := false, retired := false }

/-- The fault of an access to the context table under a TKEY that the partition may not use or that has no key (R59). -/
def tkeyFault (s : State) (part va cause : Nat) : FaultInfo :=
  { cause := cause, addr := va, level := 0, write := true, atomic := false, key := (partOf s part).tkey }

/-- The fault of an instruction where TKEY gives no access to the context table (R59). -/
def tableFault (s : State) (part va : Nat) : Option FaultInfo :=
  (keyCause s part (partOf s part).tkey).map (tkeyFault s part va)

/-- Steps 3 to 5 of R274. -/
def makeResident (d a b : Reg) (u : UnitRec) (m : Image) (x y : Nat) (s : State) : State :=
  match nextHandle s u.ctx with
  | none => s
  | some h =>
    let c := s.cpu
    let g := loadedGraph s u m h x y (c.reg b).toNat (c.reg a)
    let ns := loadedNodes m g
    let ungranted := fun (s : State) => { s with grants := s.grants.filter fun r => r.q != s.cur || r.ctx != u.ctx }
    if partLocked s g.die (ns.map Node.ref) then s
    else if let some x := tableFault s u.part (c.reg a).toNat then trapFault (ungranted s) x
    else
      let s := setJob s u.ctx fun j =>
        { j with given := if j.given.contains h then j.given else j.given ++ [h], freed := j.freed.erase h }
      let s := { s with
        graphs := s.graphs ++ [g]
        nodes := s.nodes ++ ns
        tiles := s.tiles ++ loadedTiles m g
        grants := (ungranted s).grants }
      let s := writeTens (markGated (ensurePhase s u.ctx g.die g.phase) g) u.ctx m
      let s := setTmeas s u.part u.ctx (sha256 (tmeas s u.part u.ctx ++ m.measure))
      s.updCpu fun c => ({ c.setReg d (BitVec.ofNat 64 h) with wait := .none } : Seq).next

/-! ## LOADCFG (R274) -/

/-- What reading an image gives: its sections, or the check that fails before they are read. -/
inductive Loaded where
  | image (m : Image)
  | reject (reason off : Nat)
  | wait (m : Image)
  | fault (f : FaultInfo)
  deriving DecidableEq, Repr

/-- The sections of an image read in order (R29). -/
def readSections (u : UnitRec) (base : Nat) (h : List Byte) : List Nat → State → Image → State × Loaded
  | [], s, m => (s, .image m)
  | i :: rest, s, m =>
    if secSize h i = 0 then readSections u base h rest s (m ++ [[]])
    else
      match seqLoad s u (base + secOff h i) (secSize h i) with
      | (s, .bytes bs) => readSections u base h rest s (m ++ [bs])
      | (s, .wait) => (s, .wait m)
      | (s, .fault f) => (s, .fault f)

/-- The header is read and checked, then the sections that its descriptors name (R29); what has been read is kept while
the next section waits. -/
def readImage (s : State) (u : UnitRec) (base : Nat) : Image → State × Loaded
  | h :: m => readSections u base h (List.range' (1 + m.length) (7 - m.length)) s (h :: m)
  | [] =>
    match seqLoad s u base 192 with
    | (s, .wait) => (s, .wait [])
    | (s, .fault f) => (s, .fault f)
    | (s, .bytes h) =>
      match checkHeader h with
      | some (r, o) => (s, .reject r o)
      | none => readSections u base h (List.range' 1 7) s [h]

/-- CFGREJ at an address (R29, R274). -/
def trapReject (s : State) (base : Word) (reason off : Nat) : State :=
  trapHere s 0x0C (some (base + BitVec.ofNat 64 off, BitVec.ofNat 64 reason))

/-- Steps 1 and 2 of R274; the arbiter runs as the bid arrives (R376). -/
def loadcfgBegin (a b : Reg) (u : UnitRec) (s : State) : State :=
  let c := s.cpu
  let base := c.reg a
  if 8 ≤ (c.reg b).toNat then trapOprng s
  else if base.toNat % 64 ≠ 0 then trapMisal s base false false
  else
    let sofar := match c.wait with
      | .loading m => m
      | _ => []
    match readImage s u base.toNat sofar with
    | (s, .wait m) => setWait s (.loading m)
    | (s, .fault f) => trapFault s f
    | (s, .reject r o) => trapReject s base r o
    | (s, .image m) =>
      match checkImage m with
      | some (r, o) => trapReject s base r o
      | none =>
        let bid := imageBid s u m (c.reg b).toNat
        if !fitsSomewhere s bid then trapReject s base 0x12 0
        else runArbiter (setWait { s with bids := s.bids ++ [bid], nextBid := s.nextBid + 1 } (.bidding m)) u.part

/-- LOADCFG (R274). -/
def execLoadcfg (d a b : Reg) (s : State) : Result :=
  withUnit s fun u =>
    match s.cpu.wait with
    | .bidding _ => s
    | .granted x y m => makeResident d a b u m x y s
    | _ => loadcfgBegin a b u s

end Sys2Proof.Machine
end

