-- ==== Sys2Proof/Machine/SeqMemory.lean ====
section
/-! DEFINITION. The memory instructions of the sequencer, and waiting on tags and counters (R124 to R142, R154 to
R156). Each becomes outstanding at issue; performing it is a step of its own. -/

namespace Sys2Proof.Machine

/-- The default order and scope of a compact form: rlx, graph (R121). -/
def rlxGraph : OrdScope := { ord := 0, scope := 1 }

/-- Bytes of a width code of LDS (R124). -/
def ldsBytes (w : BitVec 3) : Nat :=
  match w.toNat with
  | 0 => 1
  | 1 => 1
  | 2 => 2
  | 3 => 2
  | 4 => 4
  | 5 => 4
  | 6 => 8
  | _ => 16

/-- Whether a width code of LDS is signed (R124). -/
def ldsSigned (w : BitVec 3) : Bool := w == 1 || w == 3 || w == 5

/-- The width code of a short STS, in the order of its operation codes (R124). -/
def stsShortWidth (w : BitVec 3) : BitVec 3 :=
  match w.toNat with
  | 0 => 0
  | 1 => 2
  | 2 => 4
  | 3 => 6
  | _ => 7

/-- A load, store or atomic of the moving sequencer: the class count, MISAL, the translation, then issue (R120, R123).
adv is the pc's advance. -/
def issueMemory (s : State) (u : UnitRec) (k : AccKind) (dest n : Nat) (va : Word) (write atomic : Bool)
    (data : BitVec 256) (cmp : Word) (os : OrdScope) (adv : Seq → Seq) : State :=
  if (if k.isLoad then loadCount s s.cur else storeCount s s.cur) ≥ 63 then s
  else if (atomic || isSc os.ord) && va.toNat % n ≠ 0 then trapMisal s va (write || atomic) atomic
  else
    match translate s (.seq s.cur) u.ctx u.part (dieOfSeq s.cur) va.toNat n write atomic (isSc os.ord) with
    | (s, .fault f) => trapFault s f
    | (s, .wait) => s
    | (s, .ok ps) =>
      let s := issueAccess s (newAccess s u k dest n va.toNat ps data cmp os)
      s.updCpu adv

/-- LDS of any form (R126). -/
def loadScalar (w : BitVec 3) (d : Reg) (va : Word) (os : OrdScope) (adv : Seq → Seq) (s : State) : Result :=
  withUnit s fun u => issueMemory s u (.load (ldsSigned w)) d.toNat (ldsBytes w) va false false 0 0 os adv

/-- STS of any form (R126). -/
def storeScalar (w : BitVec 3) (d : Reg) (va : Word) (os : OrdScope) (adv : Seq → Seq) (s : State) : Result :=
  withUnit s fun u =>
    issueMemory s u .store 0 (ldsBytes w) va true false ((s.cpu.regPair d).setWidth 256) 0 os adv

/-- LDS, short encoding (R124 to R126). -/
def execLdsShort (w : BitVec 3) (d a : Reg) (i : BitVec 12) (s : State) : Result :=
  loadScalar w d (s.cpu.addr a i) rlxGraph Seq.next s

/-- LDS, long encoding (R124 to R127). -/
def execLdsLong (w : BitVec 3) (d a : Reg) (os : OrdScope) (off : BitVec 32) (s : State) : Result :=
  loadScalar w d (s.cpu.addr a off) os Seq.next2 s

/-- STS, short encoding (R124 to R126). -/
def execStsShort (w : BitVec 3) (d a : Reg) (i : BitVec 12) (s : State) : Result :=
  storeScalar (stsShortWidth w) d (s.cpu.addr a i) rlxGraph Seq.next s

/-- STS, long encoding (R124 to R127). -/
def execStsLong (w : BitVec 3) (d a : Reg) (os : OrdScope) (off : BitVec 32) (s : State) : Result :=
  storeScalar w d (s.cpu.addr a off) os Seq.next2 s

/-- The issuing sequencer's L1 copy of a line is invalidated when its atomic issues (R101, R130). -/
def dropOwnL1 (s : State) (va : Word) : State :=
  match s.tlb.find? fun e => e.holder == .seq s.cur && e.va / 2 ^ e.leaf.lg == va.toNat / 2 ^ e.leaf.lg with
  | some e => { s with l1 := s.l1.filter fun x => !(x.1 == s.cur && x.2 == e.leaf.pa va.toNat / 128) }
  | none => s

/-- An AMO: the old value to D, the new value to memory (R128 to R130). -/
def amo (op : Nat) (d a b : Reg) (os : OrdScope) (s : State) : Result :=
  withUnit s fun u =>
    issueMemory (dropOwnL1 s (s.cpu.reg a)) u (.amo op) d.toNat 8 (s.cpu.reg a) true true ((s.cpu.reg b).setWidth 256)
      (s.cpu.reg d) os Seq.next

/-- AMOADD (R129). -/
def execAmoadd (d a b : Reg) (os : OrdScope) (s : State) : Result := amo 0 d a b os s

/-- AMOMIN (R129). -/
def execAmomin (d a b : Reg) (os : OrdScope) (s : State) : Result := amo 1 d a b os s

/-- AMOMAX (R129). -/
def execAmomax (d a b : Reg) (os : OrdScope) (s : State) : Result := amo 2 d a b os s

/-- AMOAND (R129). -/
def execAmoand (d a b : Reg) (os : OrdScope) (s : State) : Result := amo 3 d a b os s

/-- AMOOR (R129). -/
def execAmoor (d a b : Reg) (os : OrdScope) (s : State) : Result := amo 4 d a b os s

/-- AMOXOR (R129). -/
def execAmoxor (d a b : Reg) (os : OrdScope) (s : State) : Result := amo 5 d a b os s

/-- AMOSWAP (R129). -/
def execAmoswap (d a b : Reg) (os : OrdScope) (s : State) : Result := amo 6 d a b os s

/-- AMOCAS (R129). -/
def execAmocas (d a b : Reg) (os : OrdScope) (s : State) : Result := amo 7 d a b os s

/-- AMAXRS: read and reset an amax cell at its LLC home (R131). -/
def execAmaxrs (d a : Reg) (os : OrdScope) (s : State) : Result :=
  withUnit s fun u =>
    issueMemory (dropOwnL1 s (s.cpu.reg a)) u .amaxrs d.toNat 8 (s.cpu.reg a) true true 0 0 os Seq.next

/-- FENCE becomes outstanding and holds what R134 names (R133 to R135). -/
def execFence (os : OrdScope) (s : State) : Result :=
  withUnit s fun u =>
    let a := newAccess s u .fence 0 0 0 [] 0 0 os
    (issue s { a with counted := false }).updCpu fun c => { c.next with ahead := [] }

/-- What a page gives an instruction that names a range of lines or an array: only the walk judges it (R137, R141). -/
def anyReach : Reach := fun _ _ => none

/-- Translate the first byte of an address for ACONV and AQUERY, as a read that the walk alone judges (R141, R142). -/
def translateByte (s : State) (u : UnitRec) (va : Nat) : State × Trans :=
  translateWith s (.seq s.cur) u.ctx u.part (dieOfSeq s.cur) va 1 false false false anyReach

/-- Translate the pages of a range from an address on to its end, one after another, as reads (R137): the pages come
with those already translated, and where a page must wait, with the address it waits at.  For a prefetch, a page that
does not translate is left out. -/
def rangeWalk (u : UnitRec) (soft : Bool) (last : Nat) : Nat → State → List Part → Nat → State × Trans × List Part × Nat
  | 0, s, got, va => (s, .ok got, got, va)
  | fuel + 1, s, got, va =>
    if last ≤ va then (s, .ok got, got, va)
    else
      let n := min (last - va) (65536 - va % 65536)
      match translateWith s (.seq s.cur) u.ctx u.part (dieOfSeq s.cur) va n false false soft anyReach with
      | (s, .ok ps) => rangeWalk u soft last fuel s (got ++ ps) (va + n)
      | (s, .wait) => (s, .wait, got, va)
      | (s, .fault f) => if soft then rangeWalk u soft last fuel s got (va + n) else (s, .fault f, got, va)

/-- CCLEAN, CINVAL, CFLUSH and CPREF (R136 to R139): with L = 0 the instruction is complete; else its pages are
translated, and it becomes outstanding. -/
def maintain (k : AccKind) (a b : Reg) (s : State) : Result :=
  withUnit s fun u =>
    let va := (s.cpu.reg a).toNat
    let len := (s.cpu.reg b).toNat
    if len = 0 then s.updCpu Seq.next
    else if (if k.isLoad then loadCount s s.cur else storeCount s s.cur) ≥ 63 then s
    else
      let start := match s.cpu.wait with
        | .range got next => (got, next)
        | _ => ([], va)
      match rangeWalk u (k == .cpref) (va + len) (len / 65536 + 2) s start.1 start.2 with
      | (s, .fault f, _, _) => trapFault s f
      | (s, .wait, got, next) => setWait s (.range got next)
      | (s, .ok ps, _, _) =>
        (issue s (newAccess s u k 0 0 va ps 0 0 rlxGraph)).updCpu fun c => { c.next with wait := .none }

/-- CCLEAN (R138). -/
def execCclean (a b : Reg) (s : State) : Result := maintain .cclean a b s

/-- CINVAL (R138). -/
def execCinval (a b : Reg) (s : State) : Result := maintain .cinval a b s

/-- CFLUSH (R138). -/
def execCflush (a b : Reg) (s : State) : Result := maintain .cflush a b s

/-- CPREF: never faults; a page that does not translate is skipped (R137, R138). -/
def execCpref (a b : Reg) (s : State) : Result := maintain .cpref a b s

/-- Whether an array is one of its partition's overflow arrays (R201, R404). -/
def isOverflowArray (s : State) (part : Nat) (r : ArrayRef) : Bool :=
  let p := (partOf s part).pctl
  r.die == (partOf s part).dieOf && r.slice == bits p 27 24 && bits p 23 14 ≤ r.index && r.index ≤ bits p 23 14 + bits p 13 8

/-- Begin a conversion: the array reads the mode it enters and BUSY; its lines are written back and leave when it leaves
CACHE (R87, R91, R92). -/
def startConversion (s : State) (c : Conversion) : State :=
  let s := if leavingCache s c.ref && c.mode != .cache then l2Each s (fun l => l.array == c.ref) l2Flush else s
  let s := setArray s c.ref fun a => { a with busy := true, fromMode := a.mode, mode := c.mode }
  { s with conversions := mapIf (· == c) (fun c => { c with started := true }) s.conversions }

/-- End a conversion: what R91 keeps, drops or zeroes, and what becomes of the schedule register (R352). -/
def endConversion (s : State) (c : Conversion) : State :=
  let a := arrayOf s c.ref
  let keep := a.fromMode == c.mode || (a.fromMode == .load && c.mode == .run) || (a.fromMode == .run && c.mode == .load)
  let s := if keep then s else zeroArray s c.ref
  let sched :=
    if !keep then 0
    else if a.fromMode == .load && c.mode == .run then loadFlops s c.ref a.sched
    else a.sched
  let s := setArray s c.ref fun a => { a with busy := false, sched := sched }
  { s with
    conversions := s.conversions.filter fun x => x.acc != c.acc
    accesses := s.accesses.filter fun x => x.id != c.acc }

/-- Start a conversion that may begin (R92, R95, R141). -/
def tryStart (s : State) (c : Conversion) : State :=
  match s.accesses.find? fun a => a.id == c.acc with
  | some a => if !c.started && conversionReady s a && inTurn s a then startConversion s c else s
  | none => s

/-- ACONV (R140, R141, R201).  Its walk is a read; the traps of its own checks report a write. -/
def execAconv (a : Reg) (m : BitVec 3) (s : State) : Result :=
  withUnit s fun u =>
    if storeCount s s.cur ≥ 63 then s
    else
      let va := (s.cpu.reg a).toNat
      match translateByte s u va with
      | (s, .fault f) => trapFault s f
      | (s, .wait) => s
      | (s, .ok ps) =>
        match ps with
        | [] => s
        | p :: _ =>
          let flt := fun (c : Nat) =>
            { cause := c, addr := va, level := levelOf p.leaf.lg, write := true, atomic := false, key := 0 : FaultInfo }
          match region p.pa with
          | .array r =>
            if !p.leaf.w then trapFault s (flt 0x02)
            else if isOverflowArray s u.part r then trapFault s (flt 0xF4)
            else
              let id := s.nextAcc
              let s := issue s (newAccess s u .aconv m.toNat 0 va ps 0 0 rlxGraph)
              let c : Conversion := { ref := r, mode := modeOfCode m.toNat, acc := id, started := false }
              let s := { s with conversions := s.conversions ++ [c] }
              (tryStart s c).updCpu Seq.next
          | _ => trapFault s (flt 0xF2)

/-- AQUERY (R142). -/
def execAquery (d a : Reg) (s : State) : Result :=
  withUnit s fun u =>
    if loadCount s s.cur ≥ 63 then s
    else
      let va := (s.cpu.reg a).toNat
      match translateByte s u va with
      | (s, .fault f) => trapFault s f
      | (s, .wait) => s
      | (s, .ok ps) =>
        match ps.find? fun p => !inArrays p.pa with
        | none => (issue s (newAccess s u .aquery d.toNat 0 va ps 0 0 rlxGraph)).updCpu Seq.next
        | some p =>
          trapFault s { cause := 0xF2, addr := va, level := levelOf p.leaf.lg, write := false, atomic := false, key := 0 }

/-! ## Tags and counters -/

/-- The index of the lowest one bit, 64 when there is none (R155). -/
def lowestBit (w : Word) : Nat := ((List.range 64).find? fun i => w.getLsbD i).getD 64

/-- WANY: wait until a named tag is READY (R154). -/
def execWany (d a : Reg) (s : State) : Result :=
  let c := s.cpu
  let m := c.reg a
  if m = 0 then .next (s.updCpu fun c => (c.setReg d 0).next)
  else if (c.ctag ||| c.ctbusy) &&& m = 0 then .next (trapHere s 0x07 none)
  else if c.ctag &&& m = 0 then .next s
  else .next (s.updCpu fun c => (c.setReg d (c.ctag &&& m)).next)

/-- WALL: wait until every named tag is READY (R154). -/
def execWall (d a : Reg) (s : State) : Result :=
  let c := s.cpu
  let m := c.reg a
  if m = 0 then .next (s.updCpu fun c => (c.setReg d 0).next)
  else if m &&& ~~~(c.ctag ||| c.ctbusy) ≠ 0 then .next (trapHere s 0x07 none)
  else if c.ctag &&& m ≠ m then .next s
  else .next (s.updCpu fun c => (c.setReg d (c.ctagf &&& m)).next)

/-- CFFR (R155). -/
def execCffr (d a : Reg) (s : State) : Result :=
  .next (s.updCpu fun c => (c.setReg d (BitVec.ofNat 64 (lowestBit (c.ctag &&& c.reg a)))).next)

/-- CTAGCLR (R155). -/
def execCtagclr (a : Reg) (s : State) : Result :=
  .next (s.updCpu fun c =>
    let m := c.reg a
    ({ c with ctag := c.ctag &&& ~~~m, ctagf := c.ctagf &&& ~~~m } : Seq).next)

/-- WAITC: wait until every class count is at or below its operand (R156). -/
def execWaitc (l st c t : BitVec 4) (s : State) : Result :=
  if loadCount s s.cur ≤ l.toNat && storeCount s s.cur ≤ st.toNat && copyCount s s.cur ≤ c.toNat &&
    tilesOf s s.cur ≤ t.toNat then .next (s.updCpu Seq.next)
  else .next s

end Sys2Proof.Machine
end

