-- ==== Sys2Proof/Machine/MemEvents.lean ====
section
/-! DEFINITION. The events of memory: accesses performed, bucket admission, the Waggle ring, page walks, copy-on-write,
remote pulls, and conversions (R64 to R84, R93, R112 to R114, R119, R168 to R170, R411). -/

namespace Sys2Proof.Machine

/-! ## Outstanding accesses (R119, R120) -/

/-- ACCESS_PERFORMED: an operation whose turn has come is performed.  One of .sc order waits for the ring (R169), and
a conversion ends with its own event. -/
def execAccessPerformed (id : Nat) (s : State) : Result :=
  match s.accesses.find? fun a => a.id == id with
  | some a => if !a.ringed && a.elem.isNone && canPerform s a then .next (perform s a) else .next s
  | none => .next s

/-! ## Buckets (R112 to R114) -/

/-- A bucket's entry; PART resets to 0x3F (R112). -/
def bucketEntry (s : State) (i : Nat) : Word := ((s.bucketEntries.find? fun e => e.1 == i).map Prod.snd).getD 63

def bkEn (w : Word) : Bool := bit w 63
def bkDepth (w : Word) : Nat := bits w 47 32
def bkRate (w : Word) : Nat := bits w 31 16
def bkPart (w : Word) : Nat := bits w 5 0

/-- A bucket at a port. -/
def bucketAt (s : State) (port i : Nat) : Bucket :=
  (s.buckets.find? fun b => b.port == port && b.index == i).getD { port := port, index := i, tokens := 0, borrowed := [] }

/-- Change a bucket at a port. -/
def setBucket (s : State) (b : Bucket) : State :=
  { s with buckets := upsert (fun x => x.port == b.port && x.index == b.index) b s.buckets }

/-- A bucket gains the tokens of one cycle, and a cycle of its borrowing passes (R113). -/
def gainBucket (s : State) (port : Nat) (e : Nat × Word) : State :=
  let b := bucketAt s port e.1
  let full := 64 * bkDepth e.2
  let t := if bkEn e.2 then min full (b.tokens + bkRate e.2) else b.tokens
  setBucket s { b with tokens := t, borrowed := (0 :: b.borrowed).take 64 }

/-- Every bucket of every port gains. -/
def gainAll (s : State) : State :=
  (List.range 64).foldl (fun s port => s.bucketEntries.foldl (fun s e => gainBucket s port e) s) s

/-- The bucket that a context names (R408). -/
def bucketOf (s : State) (part : Nat) (ctx : BitVec 12) : Nat := bits (descWord s part ctx 0x20) 59 52

/-- The request port of a line: that of its home slice in the issuing die, and of a line of an array frame that of the
array's slice (R97, R112). -/
def portOf (die line : Nat) : Nat :=
  match region (128 * line) with
  | .array r => 16 * r.die + r.slice
  | _ => 16 * die + l2Slice (128 * line)

/-- One line access that waits at a request port (R112): its place in arrival order, its line and die, the bucket it
draws on, and its partition. -/
structure LineWait where
  id : Nat
  die : Nat
  line : Nat
  bucket : Nat
  part : Nat
  deriving DecidableEq, Repr

/-- The line accesses that wait, sequencers' and the fabric's, in arrival order. -/
def lineWaits (s : State) : List LineWait :=
  let seqs := s.accesses.flatMap fun a => a.unpaid.map fun l =>
    { id := a.id, die := a.die, line := l, bucket := bucketOf s a.part a.ctx, part := a.part : LineWait }
  let others := s.portReqs.flatMap fun r => r.unpaid.map fun l =>
    { id := r.id, die := r.die, line := l, bucket := bucketOf s r.part r.ctx, part := r.part : LineWait }
  sortBy (fun a b => a.id ≤ b.id) (seqs ++ others)

/-- Those at one port. -/
def waitsAtPort (s : State) (port : Nat) : List LineWait := (lineWaits s).filter fun w => portOf w.die w.line == port

/-- The quad port that a line access goes through: that of the array that is its frame, that holds its line, or that would
hold it first (R85, R97). -/
def quadPortOf (s : State) (w : LineWait) : Nat :=
  match region (128 * w.line), l2Find s w.die w.part w.line with
  | .array r, _ => r.index / 4
  | _, some l => l.array.index / 4
  | _, none => ((l2Ways s w.die w.part (128 * w.line)).head?.getD (16 * l2Bank (128 * w.line))) / 4

/-- Whether some access waits at a port on a bucket. -/
def bucketBusy (s : State) (port i : Nat) : Bool := (waitsAtPort s port).any fun w => w.bucket == i

/-- Take one token of a bucket at a port. -/
def takeToken (s : State) (port i : Nat) : Option State :=
  let b := bucketAt s port i
  if bkEn (bucketEntry s i) && 64 ≤ b.tokens then some (setBucket s { b with tokens := b.tokens - 64 }) else none

/-- Borrow one token for a bucket at a port, from one that has no access waiting there; at most RATE in 64 cycles
(R113, R114). -/
def borrowToken (s : State) (port i : Nat) : Option State :=
  let own := bucketAt s port i
  let n := own.borrowed.sum
  if bkRate (bucketEntry s i) ≤ n || (bkEn (bucketEntry s i) && 64 ≤ own.tokens) then none
  else
    s.bucketEntries.findSome? fun e =>
      if e.1 == i || bucketBusy s port e.1 then none
      else
        (takeToken s port e.1).map fun s =>
          let own := bucketAt s port i
          setBucket s { own with borrowed := match own.borrowed with
            | [] => [1]
            | k :: r => (k + 1) :: r }

/-- A line access is admitted. -/
def admitLine (s : State) (w : LineWait) : State :=
  { s with
    accesses := mapIf (fun a => a.id == w.id) (fun a => { a with unpaid := a.unpaid.erase w.line }) s.accesses
    portReqs := mapIf (fun r => r.id == w.id) (fun r => { r with unpaid := r.unpaid.erase w.line }) s.portReqs }

/-- The bucket that a port served last (R113). -/
def portLast (s : State) (port : Nat) : Nat := ((s.portTurn.find? fun t => t.1 == port).map Prod.snd).getD 255

/-- One admission at a port: of the first waiting line of each bucket, whose bucket belongs to its partition and whose
quad port is free this cycle, the first in turn after the bucket served last that can pay (R112, R113). -/
def admitOne (pay : State → Nat → Nat → Option State) (s : State) (port : Nat) (quads : List Nat) : Option (State × Nat) :=
  let ws := (waitsAtPort s port).filter fun w => bkPart (bucketEntry s w.bucket) == w.part && !quads.contains (quadPortOf s w)
  (List.range 256).findSome? fun k =>
    let i := (portLast s port + 1 + k) % 256
    match ws.find? fun w => w.bucket == i with
    | none => none
    | some w =>
      (pay s port i).map fun s' =>
        ({ admitLine s' w with portTurn := upsert (fun t => t.1 == port) (port, i) s'.portTurn }, quadPortOf s w)

/-- Up to so many admissions of one round at a port, with the quad ports used so far (R114). -/
def admitRound (pay : State → Nat → Nat → Option State) (port : Nat) : Nat → State → List Nat → State × List Nat × Nat
  | 0, s, quads => (s, quads, 0)
  | cap + 1, s, quads =>
    match admitOne pay s port quads with
    | some (s, q) => admitRound pay port cap s (q :: quads)
    | none => (s, quads, cap + 1)

/-- One cycle of a port: its 256 line accesses go to the owners of tokens first, then to borrowers (R113, R114). -/
def admitPort (s : State) (port : Nat) : State :=
  match admitRound takeToken port 256 s [] with
  | (s, quads, cap) => (admitRound borrowToken port cap s quads).1

/-- BUCKET_TOKEN_GAIN: one cycle at every port (R113, R114). -/
def execBucketTokenGain (s : State) : Result :=
  let s := gainAll s
  .next (((List.range 64).filter fun port => waitsAtPort s port != []).foldl admitPort s)

/-! ## The Waggle ring (R168 to R170) -/

/-- The first operation queued at a station that may be performed. -/
def ringNext (s : State) (st : Nat) : Option Access :=
  s.accesses.find? fun a => a.ringed && stationOf a == st && canPerform s a

/-- A queued operation is performed: a sequencer's, or the firing of an element (R167, R169). -/
def ringPerform (s : State) (a : Access) : State :=
  match a.elem with
  | none => perform s a
  | some o =>
    let gone := { s with accesses := s.accesses.filter fun e => e.id != a.id }
    match nodeOf gone o.node with
    | none => gone
    | some n =>
      let w := n.word o.slot
      match ringWord (eOp w) (eWord w) { gone with site := { node := o.node, slot := o.slot, key := o.key } } with
      | .next s => s
      | _ => gone

/-- Up to so many operations of a station. -/
def ringServe (st : Nat) : Nat → State → State
  | 0, s => s
  | n + 1, s =>
    match ringNext s st with
    | some a => ringServe st n (ringPerform s a)
    | none => s

/-- WAGGLE_TOKEN: the token reaches the next station, which performs up to eight operations (R168). -/
def execWaggleToken (s : State) : Result :=
  let st := (s.waggle + 1) % 72
  .next (ringServe st 8 { s with waggle := st })

/-! ## Page walks (R66) -/

/-- The partition whose request a die's walkers take next: round-robin after the one served last. -/
def walkNext (s : State) (die : Nat) : Option WalkReq :=
  let last := ((s.walkTurn.find? fun t => t.1 == die).map Prod.snd).getD 47
  (List.range 48).findSome? fun k =>
    s.walks.find? fun r => r.die == die && r.part == (last + 1 + k) % 48

/-- PAGE_WALK: a walker of a die takes a request and serves it (R52, R65, R66). -/
def execPageWalk (die : Nat) (s : State) : Result :=
  match walkNext s die with
  | none => .next s
  | some r =>
    let s := { s with
      walks := s.walks.erase r
      walkTurn := upsert (fun t => t.1 == die) (die, r.part) s.walkTurn }
    match serveWalk s r with
    | (s, .filled _) => .next s
    | (s, .held) => .next s
    | (s, .fault f) => .next { s with walkFaults := s.walkFaults ++ [{ holder := r.holder, info := f }] }

/-! ## Copy-on-write (R73 to R77) -/

/-- A leaf after a copy-on-write: the new frame and key, CW clear, A and D set (R73). -/
def cowLeaf (old : Word) (frame key : Nat) : Word :=
  let keep := old &&& ~~~(BitVec.ofNat 64 (2 ^ 58 + (2 ^ 48 - 2 ^ 16) + (2 ^ 16 - 2 ^ 4)))
  keep ||| BitVec.ofNat 64 (2 ^ 56 + 2 ^ 55 + frame + key * 16)

/-- A frame goes back to the pool's ring: as software adds one, at TAIL, so that both indices only grow (R58, R74). -/
def returnFrame (s : State) (part : Nat) (ctx : BitVec 12) (frame : Nat) : State :=
  let p := poolRing s part ctx
  let ptkey := ptKeyOf s part ctx
  writeWord (writeWord s part ptkey (p.entry p.tail) (BitVec.ofNat 64 frame)) part ptkey (p.base + 8) (p.tail + 1)

/-- Requests that a copy-on-write or a pull has held end in a fault: each leaves its holder's entry empty (R65). -/
def failWaiting (s : State) (rs : List WalkReq) (cause key : Nat) : State :=
  let s := rs.foldl tlbEmpty s
  { s with walkFaults := s.walkFaults ++ rs.map fun r => { holder := r.holder, info := r.fault cause 3 key : WalkFault } }

/-- The holders of a copy that cannot go on get a fault (R65, R73). -/
def failCow (s : State) (c : Cow) (cause key : Nat) : State :=
  failWaiting { s with cows := s.cows.erase c } (c.req :: c.waiting) cause key

/-- Whether a frame lies in the host window while the link is down: what reaches it waits (R433). -/
def linkAway (s : State) (frame : Nat) : Bool := !s.linkUp && region frame == .host

/-- The Forager's copy of a page, and the AMOCAS of its leaf; the old leaf goes everywhere, and the accesses that used it
are to be performed first (R73 steps 2 to 4, R75).  A key slot that has lost its key since step 1 faults (R81). -/
def finishCow (s : State) (c : Cow) : State :=
  let r := c.req
  let ptkey := ptKeyOf s r.part r.ctx
  if readWord s ptkey c.leafPa != c.old then returnFrame { s with cows := s.cows.erase c } r.part r.ctx c.frame
  else
    match keyCause s r.part (bits c.old 15 4), keyCause s r.part c.key with
    | some x, _ => failCow (returnFrame s r.part r.ctx c.frame) c x (bits c.old 15 4)
    | none, some x => failCow (returnFrame s r.part r.ctx c.frame) c x c.key
    | none, none =>
      let users := usersOf s r.ctx (some c.page)
      let bytes := readSlot s (bits c.old 15 4) (bits c.old 47 16 * 65536) 65536
      let s := writeSlot s r.part c.key c.frame bytes
      let s := writeWord s r.part ptkey c.leafPa (cowLeaf c.old c.frame c.key)
      let s := dropTranslations s r.ctx (some c.page)
      if users = [] then { s with cows := s.cows.erase c }
      else { s with cows := mapIf (· == c) (fun c => { c with closing := some users }) s.cows }

/-- Whether the next step of a copy can be made: the host window that one of its frames lies in can be reached, or the
accesses that used the old leaf have been performed (R75, R433). -/
def cowReady (s : State) (c : Cow) : Bool :=
  match c.closing with
  | none => !linkAway s (bits c.old 47 16 * 65536) && !linkAway s c.frame
  | some ids => !s.accesses.any fun a => ids.contains a.id

/-- COW_COPY_DONE: the copy is done and the leaf replaced; once the accesses of the old leaf are performed, the holders
go on (R73, R75). -/
def execCowCopyDone (ctx : BitVec 12) (page : Nat) (s : State) : Result :=
  match s.cows.find? fun c => c.req.ctx == ctx && c.page == page && !c.empty with
  | some c =>
    if !cowReady s c then .next s
    else
      match c.closing with
      | none => .next (finishCow s c)
      | some _ => .next { s with cows := s.cows.erase c }
  | none => .next s

/-- CW_POOL_REFILL: a walker that CWEMPTY stalled takes a frame once there is one (R76). -/
def execCwPoolRefill (ctx : BitVec 12) (page : Nat) (s : State) : Result :=
  match s.cows.find? fun c => c.req.ctx == ctx && c.page == page && c.empty with
  | none => .next s
  | some c =>
    let pool := poolRing s c.req.part ctx
    if !pool.ready || pool.tail.toNat ≤ pool.head.toNat then .next s
    else
      let t := takeFrame s c.req.part ctx pool
      if inArrays t.2 then .next (failCow t.1 c 0x0B 0)
      else .next { t.1 with cows := mapIf (· == c) (fun c => { c with frame := t.2, empty := false }) t.1.cows }

/-! ## Traps delivered at a boundary (R387) -/

/-- Whether a sequencer stands at an instruction boundary where a trap can be delivered: it runs a unit, its handler
does not run, and what it waits in counts as a boundary before itself. -/
def atBoundary (s : State) (q : SeqId) : Bool :=
  let c := s.seqs.get q
  c.run.isSome && !c.h &&
  match c.wait with
  | .none => true
  | .barrier _ _ => true
  | .bidding _ => true
  | .contPost => true
  | .fabric => true
  | .range _ _ => true
  | _ => false

/-- A trap is delivered: an arrival, a bid or a producer's turn of the waiting instruction is withdrawn, and EPC is the next
instruction not yet executed (R385, R387). -/
def deliver (s : State) (q : SeqId) (code : Nat) (fault : Option (Word × Word)) : State :=
  let s := leaveTurn (withdrawBid (leaveBarrier s q) q) q
  takeTrap s q { code := code, arg := 0, pc := (s.seqs.get q).pc, eword := 0, fault := fault }

/-- The running unit of a graph whose sequencer has the lowest SEQN (R390). -/
def firstUnit (s : State) (g : Graph) : Option SeqId := (unitsOf s g).head?

/-- The graph of a holder of translations (R76). -/
def holderGraph (s : State) (h : Holder) : Option Graph :=
  match h with
  | .island n _ => (nodeOf s n).bind (graphOfNode s)
  | .agn r =>
    match streamOf s r with
    | some t => s.graphs.find? fun g => g.ctx == t.ctx && g.handle == t.handle && !g.retired
    | none =>
      (s.tiles.find? fun t => t.die == r.die && t.x == r.x && t.y == r.y).bind fun t =>
        s.graphs.find? fun g => g.ctx == t.ctx && g.handle == t.handle && !g.retired
  | _ => none

/-- The unit that takes the CWEMPTY of a holder (R76). -/
def cwemptyUnit (s : State) (h : Holder) : Option SeqId :=
  match h with
  | .engine q _ _ => some q
  | _ => (holderGraph s h).bind (firstUnit s)

/-- CWEMPTY is delivered to a unit (R76, R387). -/
def deliverCwempty (s : State) (q : SeqId) (r : WalkReq) : State :=
  let f := r.fault 0xF0 3 0
  deliver { s with cwempties := s.cwempties.erase r } q 0x03 (some (BitVec.ofNat 64 f.addr, f.word))

/-- The CWEMPTY that a sequencer's unit takes first (R76). -/
def cwemptyFor (s : State) (q : SeqId) : Option WalkReq := s.cwempties.find? fun r => cwemptyUnit s r.holder == some q

/-- CWEMPTY_DELIVERY (R76, R387). -/
def execCwemptyDelivery (ctx : BitVec 12) (page : Nat) (s : State) : Result :=
  match s.cwempties.find? fun r => r.ctx == ctx && r.va / 65536 == page with
  | none => .next s
  | some r =>
    match cwemptyUnit s r.holder with
    | none => .next s
    | some q => if atBoundary s q then .next (deliverCwempty s q r) else .next s

/-! ## Remote pulls (R82 to R84, R411) -/

/-- A leaf whose page has been pulled: RM clear, A set, and D for a write (R82). -/
def pulledLeaf (old : Word) (write : Bool) : Word :=
  (old &&& ~~~(1#64 <<< 57)) ||| (1#64 <<< 56) ||| (if write then 1#64 <<< 55 else 0)

/-- What a key decrypts of a page that a peer has sent, under the source address (R80, R445). -/
def openPage (key : Option KeyMat) (r : PulledPage) : List Byte :=
  if key = some r.key then r.bytes
  else
    (List.range r.bytes.length).map fun i =>
      let at_ := r.pa + i
      let line := (sliceOf r.bytes (i / 128 * 128) 128).map some
      Config.mismatchByte (key.getD 0) at_ r.key line

/-- REMOTE_PULL_COMPLETE (R80, R82). -/
def execRemotePullComplete (ctx : BitVec 12) (page : Nat) (m : PulledPage) (s : State) : Result :=
  match s.pulls.find? fun p => p.req.ctx == ctx && p.page == page with
  | none => .next s
  | some p =>
    if m.bytes.length ≠ 65536 || linkAway s (bits p.old 47 16 * 65536) then .next s
    else
      let r := p.req
      let ptkey := ptKeyOf s r.part ctx
      let s := { s with pulls := s.pulls.erase p }
      let now := readWord s ptkey p.leafPa
      if now != p.old then .next s
      else
        let s := writeSlot s r.part (bits p.old 15 4) (bits p.old 47 16 * 65536) (openPage (keyMat s (bits p.old 15 4)) m)
        let s := writeWord s r.part ptkey p.leafPa (pulledLeaf p.old (r.write || r.atomic))
        .next (dropTranslations s ctx (some page))

/-- REMOTE_PULL_FAIL: every held access raises PGF with cause 0x0A (R84). -/
def execRemotePullFail (ctx : BitVec 12) (page : Nat) (s : State) : Result :=
  match s.pulls.find? fun p => p.req.ctx == ctx && p.page == page with
  | none => .next s
  | some p => .next (failWaiting { s with pulls := s.pulls.erase p } p.waiting 0x0A 0)

/-- PULL_REQUEST: a page of a lent context is served as its memory holds it, or the request is refused (R80, R411).  A
peer reaches HBM4E and the LP6 tier, and no array (R5). -/
def execPullRequest (r : PullReq) (s : State) : Result :=
  let no : Result := .next { s with responses := s.responses ++ [.pullRefused] }
  match s.lends.find? fun l => l.lendId == r.lendId && l.tgt == r.requester with
  | none => no
  | some l =>
    match partOfCtx s l.ctx with
    | none => no
    | some part =>
      match walkTable s part l.ctx r.va.toNat with
      | .leaf _ lg _ pte =>
        let pa := (leafOf pte lg false).pa (r.va.toNat / 65536 * 65536)
        if !bit pte 63 || !isDram pa then no
        else
          let bytes := readSlot s (bits pte 15 4) pa 65536
          .next { s with responses := s.responses ++ [.page (keyMat s (bits pte 15 4)) bytes pa] }
      | .fault _ _ _ => no

/-! ## Conversions (R93) -/

/-- ACONV_COMPLETE: a conversion that may begin does, and one in progress ends. -/
def execAconvComplete (r : ArrayRef) (s : State) : Result :=
  match s.conversions.find? fun c => c.ref == r with
  | none => .next s
  | some c => if c.started then .next (endConversion s c) else .next (tryStart s c)

end Sys2Proof.Machine
end

