-- ==== Sys2Proof/Machine/Cut.lean ====
section
/-! DEFINITION. Cuts of a context, what they save, and its restore (R172, R173, R284, R349, R359, R376, R395 to R399,
R403, R410, R439). -/

namespace Sys2Proof.Machine

/-! ## Cuts in progress (R395) -/

/-- The sequencers that run units of a context. -/
def unitsIn (s : State) (ctx : BitVec 12) : List SeqId :=
  (List.finRange 64).filter fun q => (s.seqs.get q).run.elim false fun u => u.ctx == ctx

/-- Whether what an instruction waits in must run on to the next boundary while a cut stops its unit (R387, R395). A SPAWN that
waits for room stands still where it is, since the queue's pointers are frozen, and is saved so. -/
def Wait.runsOn : Wait → Bool
  | .none => false
  | .barrier _ _ => false
  | .contPost => false
  | .bidding _ => false
  | .marking _ _ _ => false
  | .fabric => false
  | .posting _ _ => false
  | _ => true

/-- Whether a cut holds a sequencer before its next instruction. -/
def heldByCut (s : State) (q : SeqId) : Bool :=
  match (s.seqs.get q).run with
  | some u => (cutOf s u.ctx).isSome && !(s.seqs.get q).wait.runsOn
  | none => false

/-- Whether the next instruction of a sequencer is a MARK that it has fetched: issued while a cut is in progress, it joins the
cut (R395, R403). -/
def marksNext (s : State) (q : SeqId) : Bool :=
  let c := s.seqs.get q
  c.wait == .none && !c.h && c.ahead.any fun x =>
    x.1 == c.pc &&
    match decodeSeq x.2 0 with
    | .ok (.mark _ _) => true
    | _ => false

/-- A stream that belongs to a running unit of a context. -/
def ownedStream (s : State) (ctx : BitVec 12) (t : Stream) : Bool :=
  t.ctx == ctx && (s.seqs.get t.q).run.elim false fun u => u.ctx == ctx && u.started.contains t.ref

/-- A source sends MARK in place of its next token, and what it has read ahead is discarded (R395). -/
def Stream.markNow (t : Stream) : Stream :=
  if t.sink then t.post (t.token t.sent .mark 0) else { t.post (t.token t.sent .mark 0) with marked := true, early := [], under := [] }

/-! ## Saving nodes (R396, R397) -/

/-- The tile of a node that holds a block, or the node alone. -/
def saveGroup (s : State) (r : NodeRef) : List NodeRef :=
  if hasBlock s r then (s.nodes.map Node.ref).filter fun m => m == r || inTile r m && inTileBlock m else [r]

/-- Whether an edge comes from a group. -/
def fromGroup (grp : List NodeRef) : EdgeSrc → Bool
  | .slot n _ _ => grp.contains n
  | .stream _ => false

/-- Whether MARK has arrived on each forward input that reaches a group from outside it, but for streams that belong
to no running unit (R396, R397). -/
def groupMarked (s : State) (grp : List NodeRef) : Bool :=
  grp.all fun r =>
    match nodeOf s r with
    | none => true
    | some n =>
      (missingInputs s r n.marks).all fun e =>
        fromGroup grp e ||
        match e with
        | .stream t => (streamOf s t).elim true fun x => !ownedStream s n.ctx x
        | _ => false

/-- The sink tokens that an instance's held stores hold are given back to their streams (R397). -/
def undoSinks (s : State) (i : Instance) : State :=
  let f := fun (t : Stream) =>
    let k := i.stores.countP fun h => h.stream == some t.ref
    if k = 0 then t else { t with sent := t.sent - k, ended := t.ended && t.sent != t.total }
  { s with streams := s.streams.map f }

/-- A node of a tile forgets what an instance of a key has done in it: consumed tokens that came from outside return,
tokens that came from inside go (R397). -/
def rewindNode (grp : List NodeRef) (i : Instance) (n : Node) : Node :=
  let key := i.blk.key
  let back := (i.consumed.filter fun c => c.1 == n.ref && !fromGroup grp c.2.src).map Prod.snd
  let kept := n.store.filter fun h => !(h.tok.key == key && fromGroup grp h.src)
  let outs := n.outs.map fun (o : OutEntry) =>
    if o.tok.key == key then { o with pend := o.pend.filter fun d => !grp.contains d.node } else o
  { n with
    store := sortBy (fun a b => a.arr ≤ b.arr) (back ++ kept)
    outs := outs.filter fun o => !o.pend.isEmpty
    ends := n.ends.filter fun e => e.2.2.key != key
    links := n.links.filter fun l => l.key != key }

/-- An instance as it stands after a rewind: with logged values it waits to fire again, without them nothing of it is
left (R397). -/
def Instance.rewound (i : Instance) : Option Instance :=
  let ahead := i.atoms ++ i.ahead
  if ahead.isEmpty then none
  else
    some { i with fired := [], exc := false, soft := true, faults := [], consumed := [], atoms := [], stores := [], result := [],
                  ahead := ahead, replay := true, touched := [], spills := [] }

/-- An instance that has not exited is rewound (R397). -/
def rewind (grp : List NodeRef) (s : State) (i : Instance) : State :=
  let s := undoSinks s i
  let s := { s with nodes := mapIf (fun n => grp.contains n.ref) (rewindNode grp i) s.nodes }
  { s with instances := s.instances.filterMap fun x => if x == i then i.rewound else some x }

/-- The instances of a group. -/
def groupInstances (s : State) (grp : List NodeRef) : List Instance :=
  s.instances.filter fun i => grp.any fun r => i.blk.node == blockNode r && inTileBlock r

/-- The instances of a group that have exited and can commit do so (R397). -/
def commitExited (s : State) (grp : List NodeRef) : State :=
  (groupInstances s grp).foldl
    (fun s i =>
      if i.exited then
        match execBlockCommit i.blk s with
        | .next s => s
        | _ => s
      else s) s

/-- Whether a held store waits for what a cut does not wait for: a pull, an empty pool (R76, R84), or the link (R433). -/
def storeParked (s : State) (h : HeldStore) : Bool :=
  holderParked s h.holder || (!s.linkUp && h.parts.any fun p => match region p.pa with
    | .host => true
    | _ => false)

/-- Whether an exited instance must leave before its tile saves: it may commit under R216, and waits for a walk or for the ports
alone (R173, R218, R397). -/
def mustLeave (s : State) (i : Instance) : Bool :=
  i.exited && !i.released &&
  match s.graphs.find? fun g => g.ctx == i.blk.key.ctx && g.handle == i.handle && !g.retired with
  | none => false
  | some g =>
    i.exc || contained s g i.blk.node i.blk.key.iter ||
    (!commitHeld s g i && !i.stores.any (storeParked s) && !commitBehind s g i i.stores)

/-- Whether tokens are on their way inside a tile that holds a block: what they complete is still to fire (R173). -/
def tokensInside (s : State) (grp : List NodeRef) : Bool :=
  grp.any fun r => hasBlock s r && (nodeOf s r).elim false fun n =>
    n.outs.any fun o => o.tok.kind.counted && o.pend.any fun d => grp.contains d.node

/-- The instances of a group that have not exited are rewound (R397). -/
def rewindOpen (s : State) (grp : List NodeRef) : State :=
  ((groupInstances s grp).filter fun i => !i.exited && !i.replay).foldl (rewind grp) s

/-- The accesses that the firings of a node have issued and that have not been performed are withdrawn: their
operands are still held. -/
def withdrawAccesses (s : State) (r : NodeRef) : State :=
  { s with accesses := s.accesses.filter fun a => !(a.elem.any fun o => o.node == r) }

/-- Sinks that tap a node take MARK (R398). -/
def markSinks (s : State) (r : NodeRef) : State :=
  { s with streams := mapIf (fun t => t.sink && t.dst.node == r) (fun t => { t with marked := true }) s.streams }

/-- A node saves: it fires nothing more and emits MARK on each target outside its group (R396, R397). -/
def saveNode (grp : List NodeRef) (s : State) (r : NodeRef) : State :=
  match nodeOf s r with
  | none => s
  | some n =>
    let s := markSinks (withdrawAccesses s r) r
    let s := setNode s r fun n => { n with saved := true }
    emitControl s n (fun d => !(grp.length != 1 && grp.contains d.node)) (control n.ctx .mark 0)

/-- A node saves, with its tile where that holds a block, once MARK has arrived on every forward input, everything that came ahead
of it has fired, and what may commit has (R173, R218, R396, R397).  While RECONF still passes its graph it does not: the RECFG that
waits runs on to its boundary (R387). -/
def trySave (s : State) (r : NodeRef) : State :=
  match nodeOf s r with
  | none => s
  | some n =>
    if (cutOf s n.ctx).isNone || n.saved || n.sealed || (graphOfNode s n).any fun g => g.reconf.isSome then s
    else
      let grp := saveGroup s r
      let busy := tokensInside s grp || grp.any fun m => (nodeOf s m).elim false fun x => mustFire s x
      if busy || !groupMarked s grp then s
      else
        let s := commitExited s grp
        if (groupInstances s grp).any (mustLeave s) then s else grp.foldl (saveNode grp) (rewindOpen s grp)

/-- Every node of a context that can save does. -/
def saveAll (s : State) (ctx : BitVec 12) : State :=
  ((s.nodes.filter fun n => n.ctx == ctx).map Node.ref).foldl trySave s

/-- TOKEN_ARRIVAL: a token arrives, and its node saves when a cut lets it (R190, R198, R396). -/
def execTokenArrival (src : EdgeSrc) (dst : Dest) (s : State) : Result :=
  match arriveToken src dst s with
  | .next s => .next (trySave s dst.node)
  | r => r

/-! ## A cut begins (R395, R403, R439) -/

/-- A unit stops at its boundary: a bid is withdrawn, and a CONT that waits for room starts afresh and gives its turn back;
an arrival at a barrier stands, and a SPAWN that is posting keeps its turn (R276, R284, R387, R395). -/
def stopUnit (s : State) (q : SeqId) : State :=
  let afresh := fun (s : State) => s.updSeq q fun c => { c with wait := .none, ahead := [] }
  match (s.seqs.get q).wait with
  | .bidding _ => afresh (withdrawBid s q)
  | .contPost => afresh (leaveTurn s q)
  | _ => s

/-- CUTNO of a context (R408). -/
def cutNo (s : State) (part : Nat) (ctx : BitVec 12) : BitVec 32 := (descWord s part ctx 0x20).extractLsb' 0 32

/-- Set CUTNO. -/
def setCutNo (s : State) (part : Nat) (ctx : BitVec 12) (n : BitVec 32) : State :=
  let w := descWord s part ctx 0x20
  setDescWord s part ctx 0x20 (w.extractLsb' 32 32 ++ n)

/-- Begin a cut of a context or join the one in progress; its number is the second result (R395). -/
def beginCut (s : State) (part : Nat) (ctx : BitVec 12) (stop : Bool) : State × BitVec 32 :=
  match cutOf s ctx with
  | some c => ({ s with cuts := mapIf (· == c) (fun c => { c with stop := c.stop || stop }) s.cuts }, c.num)
  | none =>
    let n := cutNo s part ctx + 1
    let s := { s with cuts := s.cuts ++ [{ ctx := ctx, num := n, stop := stop, failed := false }] }
    let s := (unitsIn s ctx).foldl stopUnit s
    let s := { s with streams := mapIf (ownedStream s ctx) Stream.markNow s.streams }
    (saveAll s ctx, n)

/-- MARK (R403): the issuer stands after the MARK with D pending. -/
def execMark (d : Reg) (k : BitVec 1) (s : State) : Result :=
  withUnit s fun u =>
    if s.cpu.h then trapIllop s (.mark d k)
    else
      let r := beginCut s u.part u.ctx (k == 0)
      r.1.updCpu fun c => ({ c with wait := .marking r.2 (k == 1) d } : Seq).next

/-- Whether any unit or graph of a context is resident (R439). -/
def ctxResident (s : State) (ctx : BitVec 12) : Bool :=
  !(unitsIn s ctx).isEmpty || s.graphs.any fun g => g.ctx == ctx && !g.retired

/-- SLICE_EXPIRY: a cut that stops begins (R395, R439). -/
def execSliceExpiry (ctx : BitVec 12) (s : State) : Result :=
  match partOfCtx s ctx with
  | some part =>
    if (s.slices.any fun e => e.1 == ctx && e.2 != 0) && ctxResident s ctx then .next (beginCut s part ctx true).1 else .next s
  | none => .next s

/-! ## A cut completes (R398, R410) -/

/-- The accesses of a unit that wait for the link, with those that must wait behind them, in order (R433). -/
def linkStuck (s : State) (q : SeqId) : List Access :=
  (ownAccesses s q).foldl
    (fun held a => if linkHeld s a || held.any (fun e => orderedBefore s e a || a.left.any (pieceBefore e a)) then held ++ [a] else held) []

/-- Whether a unit has stopped for a cut: its accesses are performed, but for those at which it waits for the link (R77, R93,
R395, R433). -/
def unitStopped (s : State) (q : SeqId) : Bool :=
  (ownAccesses s q).length == (linkStuck s q).length && !(s.seqs.get q).wait.runsOn

/-- The restore of a context. -/
def restoreOf (s : State) (ctx : BitVec 12) : Option Restore := s.restores.find? fun r => r.ctx == ctx

/-- Whether everything of a context stands still; a restore that is still under way ends first (R398, R399). -/
def cutReady (s : State) (ctx : BitVec 12) : Bool :=
  (restoreOf s ctx).isNone &&
  !(s.instances.any fun i => i.released && i.blk.key.ctx == ctx) &&
  ((s.graphs.filter fun g => g.ctx == ctx && !g.retired).all fun g =>
    (g.sealing.all fun c => !waveClear g c.wave) && (graphNodes s g).all fun n => n.saved || n.sealed) &&
  ((s.streams.filter fun t => t.ctx == ctx && t.sink).all fun t => t.ended || t.marked) &&
  ((unitsIn s ctx).all (unitStopped s)) &&
  !(s.cows.any fun c => c.req.ctx == ctx && !c.empty && cowReady s c) && !(s.accesses.any fun a => a.ctx == ctx && a.elem.isSome) &&
  !(s.graphs.any fun g => g.ctx == ctx && g.reconf.isSome)

/-- A node without the marks of a cut. -/
def Node.unmarked (n : Node) : Node :=
  { n with marks := [], saved := false, outs := n.outs.filter fun o => o.tok.kind != .mark }

/-- A stream without them. -/
def Stream.unmarked (t : Stream) : Stream :=
  { t with marked := false, buf := t.buf.filter (fun k => k.kind != .mark), old := t.old.filter fun x => x.2.kind != .mark }

/-- What a unit's sequencer holds when a cut has saved it: on a later restore the D of its MARK reads n with bit 63 set
(R398, R403). -/
def Seq.saved (c : Seq) : Seq :=
  match c.wait with
  | .marking n _ d => { c.setReg d (n.setWidth 64 ||| (1#64 <<< 63)) with wait := .none, ahead := [], reading := none }
  | _ => { c with ahead := [], reading := none }

/-- The saved state of a context (R398). -/
def gather (s : State) (ctx : BitVec 12) (n : BitVec 32) (bytes : List Byte) : SavedCtx :=
  let nodes := s.nodes.filter fun x => x.ctx == ctx
  let combs := (nodes.map Node.ref).filter isCombNode
  { bytes := bytes, ctx := ctx, cutNo := n
    graphs := s.graphs.filter fun g => g.ctx == ctx
    nodes := nodes.map Node.unmarked
    tiles := s.tiles.filter fun t => t.ctx == ctx
    streams := (s.streams.filter fun t => t.ctx == ctx).map Stream.unmarked
    instances := s.instances.filter fun i => i.blk.key.ctx == ctx
    barriers := s.barriers.filter fun b => b.ctx == ctx
    units := (unitsIn s ctx).map fun q => { seqn := seqnOf q, die := dieOfSeq q, state := (s.seqs.get q).saved }
    jobs := (s.jobs.filter fun j => j.ctx == ctx).map (unspilled s)
    launches := s.launches.filter fun l => l.ctx == ctx
    phases := s.phases.filter fun p => p.ctx == ctx
    job := s.jobRecs.find? fun j => j.ctx == ctx
    queues := s.queues.filter fun x => x.valid && x.ctx == ctx
    scheds := combs.flatMap fun r => (List.range 16).map fun j => ((r, j), (arrayOf s (combArray r j)).sched)
    held := (unitsIn s ctx).flatMap (linkStuck s) }

/-- A sequencer that runs nothing, its identifier CSRs at their reset values. -/
def Seq.idle (c : Seq) : Seq := { c.clearUnit with run := none, wait := .none }

/-- Whether a holder belongs to a context: a unit or an engine of it, one at its nodes, or its cut. -/
def Holder.ofContext (h : Holder) (refs : List NodeRef) (qs : List SeqId) (ctx : BitVec 12) : Bool :=
  match h with
  | .seq q => qs.contains q
  | .engine q _ _ => qs.contains q
  | .cut c => c == ctx
  | h => h.at refs

/-- What a context's holders wait for is forgotten, with a copy of a page that waits for the pool and a CWEMPTY still to be
delivered: the holder starts afresh from the held access (R76, R84). -/
def forgetContext (s : State) (ctx : BitVec 12) : State :=
  let refs := (s.nodes.filter fun n => n.ctx == ctx).map Node.ref
  let s := forgetMisses s fun h => h.ofContext refs (unitsIn s ctx) ctx
  { s with
    cows := s.cows.filter fun c => c.req.ctx != ctx
    cwempties := s.cwempties.filter fun r => r.ctx != ctx }

/-- The context leaves its tiles and sequencers; its translations stay until R69 removes them (R398). -/
def suspend (s : State) (ctx : BitVec 12) : State :=
  let refs := (s.nodes.filter fun n => n.ctx == ctx).map Node.ref
  let s := dropSpills (refs.foldl unpinNode s) (s.jobs.filter fun j => j.ctx == ctx)
  let s := forgetContext s ctx
  let s := (unitsIn s ctx).foldl (fun s q => (leaveTurn s q).updSeq q Seq.idle) s
  { s with
    graphs := s.graphs.filter fun g => g.ctx != ctx
    nodes := s.nodes.filter fun n => n.ctx != ctx
    tiles := s.tiles.filter fun t => t.ctx != ctx
    streams := s.streams.filter fun t => t.ctx != ctx
    instances := s.instances.filter fun i => i.blk.key.ctx != ctx
    barriers := s.barriers.filter fun b => b.ctx != ctx
    jobs := s.jobs.filter fun j => j.ctx != ctx
    launches := s.launches.filter fun l => l.ctx != ctx
    phases := s.phases.filter fun p => p.ctx != ctx
    jobRecs := s.jobRecs.filter fun j => j.ctx != ctx
    accesses := s.accesses.filter fun a => a.ctx != ctx
    partials := s.partials.filter fun x => x.site.key.ctx != ctx
    portReqs := s.portReqs.filter fun r => r.ctx != ctx }

/-- The context runs on: the MARKs return (R403). -/
def resumeKept (s : State) (ctx : BitVec 12) : State :=
  let s := { s with
    nodes := mapIf (fun n => n.ctx == ctx) Node.unmarked s.nodes
    streams := mapIf (fun t => t.ctx == ctx) Stream.unmarked s.streams }
  (unitsIn s ctx).foldl
    (fun s q => s.updSeq q fun c =>
      match c.wait with
      | .marking n _ d => { c.setReg d (n.setWidth 64) with wait := .none, ahead := [] }
      | _ => c) s

/-- The virtual address of a context's cut area (R408). -/
def cutBase (s : State) (part : Nat) (ctx : BitVec 12) : Nat := bits (descWord s part ctx 0x28) 51 21 * 2 ^ 21

/-- A cut that cannot be written does not complete, and its context stays stopped (R410). -/
def failCut (s : State) (part : Nat) (c : Cut) (f : FaultInfo) : State :=
  let s := { s with cuts := mapIf (· == c) (fun c => { c with failed := true }) s.cuts }
  pushEvent s 0 0x0103 part c.ctx.toNat [BitVec.ofNat 64 f.addr, f.word]

/-- The steps of R398, in order; tiles that it frees are offered to the bids that wait (R376). -/
def completeCut (s : State) (part : Nat) (c : Cut) : State :=
  let ctx := c.ctx
  let s := cutWriteBack s ctx
  let bytes := (Config.cutBytes s.freeCtr).take (2 ^ 28)
  let s := { s with freeCtr := s.freeCtr + 1 }
  match (keyCause s part (partOf s part).tkey).map (tkeyFault s part (cutBase s part ctx)),
      translate s (.cut ctx) ctx part (partOf s part).dieOf (cutBase s part ctx) (max 1 bytes.length) true false false with
  | some f, _ => failCut s part c f
  | none, (s, .wait) => s
  | none, (s, .fault f) => failCut s part c f
  | none, (s, .ok ps) =>
    let saved := gather s ctx c.num bytes
    let s := setCutNo (writeParts s part ps bytes) part ctx c.num
    let s := { s with
      cuts := s.cuts.filter fun x => x.ctx != ctx
      savedCtxs := s.savedCtxs ++ [saved]
      sealable := ctx :: s.sealable.filter (· != ctx) }
    if c.stop then runArbiter (setCtxState (suspend s ctx) part ctx 2) part else resumeKept s ctx

/-- CUT_COMPLETE (R398). -/
def execCutComplete (ctx : BitVec 12) (s : State) : Result :=
  match cutOf s ctx, partOfCtx s ctx with
  | some c, some part =>
    if c.failed then .next s
    else
      let s := saveAll s ctx
      if cutReady s ctx then .next (completeCut s part c) else .next s
  | _, _ => .next s

/-! ## Moving what a cut has saved (R399) -/

/-- A move of a graph: to a context, a die, and by so many tiles. -/
structure Move where
  ctx : BitVec 12
  die : Nat
  dx : Int
  dy : Int

/-- A coordinate moved. -/
def shift (x : Nat) (d : Int) : Nat := (x + d).toNat % 32

def Move.node (v : Move) (r : NodeRef) : NodeRef :=
  let t := tileOfNode r.id
  let x := shift t.1 v.dx
  let y := shift t.2 v.dy
  if r.id < 4096 then elemNode v.die x y (r.id % 4)
  else if r.id < 5120 then convNode v.die x y
  else if r.id < 6144 then combNode v.die x y
  else
    let side := (r.id - 6144) / 32
    islandNode v.die side (shift ((r.id - 6144) % 32) (if side = 0 || side = 2 then v.dx else v.dy))

def Move.key (v : Move) (k : Key) : Key := { k with ctx := v.ctx }
def Move.tok (v : Move) (t : Token) : Token := { t with key := v.key t.key }
def Move.dest (v : Move) (d : Dest) : Dest := { d with node := v.node d.node }
def Move.blk (v : Move) (b : BlockRef) : BlockRef := { node := v.node b.node, key := v.key b.key }
def Move.stream (v : Move) (r : StreamRef) : StreamRef :=
  { r with die := v.die, x := shift r.x v.dx, y := shift r.y v.dy }

def Move.src (v : Move) : EdgeSrc → EdgeSrc
  | .slot n k o => .slot (v.node n) k o
  | .stream r => .stream (v.stream r)

def Move.held (v : Move) (h : Held) : Held := { h with tok := v.tok h.tok, src := v.src h.src }

def Move.store (v : Move) (h : HeldStore) : HeldStore :=
  let row := h.row.map fun r => (combArray (v.node h.node) (r.1.index % 16), r.2)
  { h with node := v.node h.node, parts := [], paid := false, stale := false, done := [], stream := h.stream.map v.stream, row := row }

/-- A node record moved (R399). -/
def Move.nodeRec (v : Move) (n : Node) : Node :=
  { n with
    ref := v.node n.ref
    ctx := v.ctx
    store := n.store.map v.held
    outs := n.outs.map fun o => { o with tok := v.tok o.tok, pend := o.pend.map v.dest }
    drops := n.drops.map fun d => { d with key := v.key d.key }
    ends := n.ends.map fun e => (e.1, e.2.1, v.tok e.2.2)
    links := n.links.map fun l => { l with key := v.key l.key }
    reconfs := n.reconfs.map fun r => (v.src r.1, r.2)
    tiles := n.tiles.map fun t => { t with key := v.key t.key, repin := true }
    dead := n.dead.map v.key }

def Move.inst (v : Move) (i : Instance) : Instance :=
  { i with
    blk := v.blk i.blk
    consumed := i.consumed.map fun c => (v.node c.1, v.held c.2)
    stores := i.stores.map v.store
    result := i.result.map fun r => (v.node r.1, r.2.1, v.tok r.2.2)
    atoms := i.atoms.map fun a => ((v.node { die := v.die, id := a.1 }).id, a.2)
    ahead := i.ahead.map fun a => ((v.node { die := v.die, id := a.1 }).id, a.2) }

def Move.streamRec (v : Move) (part : Nat) (t : Stream) : Stream :=
  { t with ref := v.stream t.ref, ctx := v.ctx, part := part, dst := v.dest t.dst, buf := t.buf.map v.tok
           old := t.old.map fun x => (v.dest x.1, v.tok x.2) }

/-! ## A restore (R399) -/

/-- The saved state that the bytes of a cut area stand for where no cut of this package wrote them: the layout is private to the
hardware, so what bytes stand for is a free function of them (R410, R424). -/
opaque foreignCut : List Byte → SavedCtx

/-- The saved state that the bytes of a cut area stand for. -/
def cutOfBytes (s : State) (ctx : BitVec 12) (bs : List Byte) : SavedCtx :=
  match s.savedCtxs.reverse.find? fun c => bs.take c.bytes.length == c.bytes with
  | some c => { c with ctx := ctx }
  | none => { foreignCut bs with ctx := ctx }

/-- The bid of a saved graph, at the priority that its LOADCFG recorded (R399). -/
def restoreBid (s : State) (part : Nat) (ctx : BitVec 12) (nodes : List Node) (g : Graph) : Bid :=
  let mine := (nodes.filter fun n => n.handle == g.handle).map Node.ref
  let convs := (mine.filter isConvNode).map fun r => ((tileOfNode r.id).1 - g.x, (tileOfNode r.id).2 - g.y)
  { part := part, q := 0, ctx := ctx, w := g.w, h := g.h, islands := g.islands, convs := convs, prio := g.prio,
    issue := s.nextBid, bypass := 0, blocking := false, restore := some g.handle }

/-- A slice set during a cut takes effect (R439). -/
def takeSlice (pend : List (BitVec 12 × Nat)) (ctx : BitVec 12) (now : List (BitVec 12 × Nat)) : List (BitVec 12 × Nat) :=
  match pend.find? fun e => e.1 == ctx with
  | some e => upsert (fun x => x.1 == ctx) e now
  | none => now

/-- A restore begins: what is not bound to tiles returns, and every graph bids, and the arbiter runs (R376, R398, R399). -/
def beginRestore (s : State) (part : Nat) (ctx : BitVec 12) (c : SavedCtx) : State :=
  let base := freshGid s
  let die := (partOf s part).dieOf
  let live := (c.graphs.filter fun g => !g.retired).map fun g => { g with gid := g.gid + base, ctx := ctx, part := part, die := die }
  let old := (c.graphs.filter Graph.retired).map fun g => { g with gid := g.gid + base, ctx := ctx, part := part, die := die }
  let ptr := fun (x : Queue) =>
    match c.queues.find? fun y => y.q == x.q with
    | some y => { x with head := y.head, tail := y.tail, stop := y.stop }
    | none => x
  let r : Restore :=
    { ctx := ctx, part := part, die := die, saved := c, graphs := live,
      units := sortBy (fun a b => a.seqn ≤ b.seqn) c.units, placed := [] }
  let s := { s with
    graphs := s.graphs ++ old
    barriers := s.barriers ++ c.barriers.map fun b =>
      { b with ctx := ctx, die := die, waiting := [], absent := b.waiting ++ b.absent }
    launches := s.launches ++ c.launches.map fun l => { l with ctx := ctx, part := part, gen := l.gen + base }
    phases := s.phases ++ c.phases.map fun p => { p with ctx := ctx, die := die }
    jobRecs := s.jobRecs ++ (c.job.map fun j => { j with ctx := ctx }).toList
    queues := mapIf (fun x => x.part == part && x.ctx == ctx) ptr s.queues
    restores := s.restores ++ [r]
    slices := takeSlice s.slicePend ctx s.slices
    slicePend := s.slicePend.filter fun e => e.1 != ctx }
  live.foldl (fun s g =>
    runArbiter { s with bids := s.bids ++ [restoreBid s part ctx c.nodes g], nextBid := s.nextBid + 1 } part) s

/-- Whether a stream belongs to a saved unit: it started it, and no later stream of its port is another's (R272). -/
def SavedUnit.ownsStream (u : SavedUnit) (t : Stream) : Bool :=
  u.ranOn t.q && u.state.run.elim false fun z => z.started.contains t.ref && !z.ended.any fun e => e.1 == t.ref

/-- The move of a saved graph to its new origin. -/
def placeMove (r : Restore) (g : Graph) (x y : Nat) : Move :=
  { ctx := r.ctx, die := r.die, dx := (x : Int) - g.x, dy := (y : Int) - g.y }

/-- A granted graph takes its place: saved node state in place of configuration words (R399). -/
def placeGraph (s : State) (r : Restore) (g : Graph) (x y : Nat) : State :=
  let v := placeMove r g x y
  let mine := r.saved.nodes.filter fun n => n.handle == g.handle
  let nodes := mine.map v.nodeRec
  let owned := fun (t : Stream) => r.saved.units.any fun u => u.ownsStream t
  let new := { g with ctx := r.ctx, part := r.part, die := r.die, x := x, y := y,
                      sealing := g.sealing.map fun z => { z with node := v.node z.node, key := v.key z.key } }
  let combs := r.saved.scheds.filter fun c => mine.any fun n => n.ref == c.1.1
  let s := { s with
    sealable := s.sealable.filter (· != r.ctx)
    graphs := s.graphs ++ [new]
    nodes := s.nodes ++ nodes
    tiles := s.tiles ++ (r.saved.tiles.filter fun t => t.handle == g.handle).map fun t =>
      { t with die := r.die, x := shift t.x v.dx, y := shift t.y v.dy, ctx := r.ctx }
    streams := s.streams ++ (r.saved.streams.filter fun t => t.handle == g.handle && !owned t).map (v.streamRec r.part)
    instances := s.instances ++ (r.saved.instances.filter fun i => i.handle == g.handle).map v.inst
    grants := s.grants.filter fun z => !(z.ctx == r.ctx && z.part == r.part && z.x == x && z.y == y && z.w == g.w && z.h == g.h) }
  combs.foldl (fun s c => setArray s (combArray (v.node c.1.1) c.1.2) fun a => { a with sched := c.2 }) s

/-- Change a restore. -/
def setRestore (s : State) (ctx : BitVec 12) (f : Restore → Restore) : State :=
  { s with restores := mapIf (fun r => r.ctx == ctx) f s.restores }

/-- Granted graphs whose tiles are clear are placed; with the last the context runs (R377, R399, R424). -/
def placeGranted (s : State) (r : Restore) : State :=
  let s := r.placed.foldl
    (fun s p =>
      match r.graphs.find? fun g => g.handle == p.1 with
      | none => s
      | some g =>
        let v := placeMove r g p.2.1 p.2.2
        let refs := (r.saved.nodes.filter fun n => n.handle == g.handle).map fun n => v.node n.ref
        if partLocked s r.die refs then s
        else
          setRestore (placeGraph s r g p.2.1 p.2.2) r.ctx fun z =>
            { z with graphs := z.graphs.filter (fun h => h.handle != g.handle), placed := z.placed.erase p }) s
  match restoreOf s r.ctx with
  | some z =>
    if z.graphs.isEmpty && !r.graphs.isEmpty then setCtxState s r.part r.ctx 1 else s
  | none => s

/-! ## Units resume (R399) -/

/-- Sequencers that are idle in a partition, the lowest first. -/
def idleSeqs (s : State) (part : Nat) : List SeqId :=
  let p := partOf s part
  (List.finRange 64).filter fun q =>
    let c := s.seqs.get q
    c.run.isNone && c.wait == .none && dieOfSeq q == p.dieOf && mapBit p.seqs (seqnOf q)

/-- The pieces of an access that a restore issues again, as the page table has them (R433). -/
def againParts (s : State) (part : Nat) (ctx : BitVec 12) (va n : Nat) : Option (List Part) :=
  (chunks 65536 (n / 65536 + 2) va n).foldr
    (fun c r =>
      match walkTable s part ctx c.1 with
      | .leaf _ lg _ pte =>
        let leaf := leafOf pte lg false
        if bit pte 63 then r.map fun ps => { va := c.1, pa := leaf.pa c.1, n := c.2, leaf := leaf } :: ps else none
      | _ => none) (some [])

/-- An access at which a unit was saved waits for the link again, and is translated anew; where its page is gone the unit takes
the fault (R65, R399, R433). -/
def issueAgain (s : State) (r : Restore) (q : SeqId) (a : Access) : State :=
  match againParts s r.part r.ctx a.va (if a.parts = [] then 0 else a.n) with
  | some ps =>
    let left := (piecesOf a.kind a.n a.va ps).filter fun p => a.left.any fun x => x.va == p.va
    issue s { a with q := q, ctx := r.ctx, part := r.part, die := r.die, parts := ps, left := left, unpaid := unpaidOf a.kind ps }
  | none =>
    let f : FaultInfo := { cause := 0x01, addr := a.va, level := 3, write := a.kind == .store, atomic := false, key := 0 }
    takeTrap s q { code := f.code, arg := 0, pc := (s.seqs.get q).pc, eword := 0, fault := some (BitVec.ofNat 64 f.addr, f.word) }

/-- The producer turn of a SPAWN that was saved as it posted is its sequencer's again (R276, R399). -/
def retakeTurn (s : State) (r : Restore) (u : SavedUnit) (q : SeqId) : State :=
  match u.state.wait with
  | .posting id _ =>
    match s.launches.find? fun l => l.ctx == r.ctx && l.id.toNat == id with
    | some l => setTurn s l.part l.queue (some q)
    | none => s
  | _ => s

/-- A saved unit resumes on a sequencer: its registers and CSRs, its streams, its copies and dot jobs, its place at a
barrier (R118, R284, R399). -/
def resumeUnit (s : State) (r : Restore) (u : SavedUnit) (q : SeqId) : State :=
  match u.state.run with
  | none => s
  | some z =>
    match s.graphs.find? fun g => g.ctx == r.ctx && g.handle == z.handle.toNat && !g.retired with
    | none => s
    | some g =>
      let old := (r.saved.graphs.find? fun h => h.handle == g.handle && !h.retired).getD g
      let v := placeMove r old g.x g.y
      let was := 16 * u.die + u.seqn
      let run : UnitRec := { z with ctx := r.ctx, part := r.part, started := z.started.map v.stream
                                    ended := z.ended.map fun e => (v.stream e.1, e.2) }
      let s := retakeTurn (s.updSeq q fun _ => { u.state with run := some run }) r u q
      let mine := r.saved.streams.filter u.ownsStream
      let jobs := r.saved.jobs.filter fun j => j.q.val == was
      let bar := fun (b : Barrier) =>
        match b.absent.find? fun w => w.val == was with
        | some w => { b with absent := b.absent.erase w, waiting := b.waiting ++ [q] }
        | none => b
      let back := mine.map fun t => { v.streamRec r.part t with q := q }
      let s := (r.saved.held.filter fun a => a.q.val == was).foldl (fun s a => issueAgain s r q a) s
      { s with
        sealable := s.sealable.filter (· != r.ctx)
        streams := s.streams ++ if (cutOf s r.ctx).isSome then back.map Stream.markNow else back
        jobs := s.jobs ++ jobs.map fun j => { j with q := q, ctx := r.ctx, part := r.part, die := r.die, spilled := false }
        barriers := mapIf (fun b => b.ctx == r.ctx) bar s.barriers }

/-- The first saved unit, in ascending SEQN, whose graph is resident. -/
def nextSaved (s : State) (r : Restore) : Option SavedUnit :=
  r.units.find? fun u =>
    u.state.run.elim false fun z => s.graphs.any fun g => g.ctx == r.ctx && g.handle == z.handle.toNat && !g.retired

/-- Saved units resume while idle sequencers last; a restore with nothing left is over. -/
def resumeUnits : Nat → State → BitVec 12 → State
  | 0, s, _ => s
  | fuel + 1, s, ctx =>
    match restoreOf s ctx with
    | none => s
    | some r =>
      if r.graphs.isEmpty && r.units.isEmpty then { s with restores := s.restores.erase r }
      else
        match nextSaved s r, idleSeqs s r.part with
        | some u, q :: _ =>
          let s := resumeUnit s r u q
          resumeUnits fuel (setRestore s ctx fun z => { z with units := z.units.erase u }) ctx
        | _, _ => s

/-- Everything of the restores of a partition that can go on does. -/
def advanceRestores (s : State) (part : Nat) : State :=
  (s.restores.filter fun r => r.part == part).foldl
    (fun s r => resumeUnits (r.units.length + 1) (placeGranted s r) r.ctx) s

/-- ADMISSION_ARBITRATE (R376, R399). -/
def execAdmissionArbitrate (part : Nat) (s : State) : Result :=
  .next (advanceRestores (arbitrate s (rankedBids s part)) part)

/-- A restore from the saved state of a context begins; a context without a graph runs at once (R399). -/
def restoreFrom (s : State) (part : Nat) (ctx : BitVec 12) (c : SavedCtx) : State :=
  let s := beginRestore (setCtxState s part ctx 4) part ctx c
  if c.graphs.all Graph.retired then
    { setCtxState s part ctx 1 with
      restores := s.restores.filter fun z => z.ctx != ctx
      sealable := s.sealable.filter (· != ctx) }
  else s

/-- A restore from the cut area of a context begins, where the context table and the area can be read: false where they cannot,
none where a page of the area must wait (R59, R399, R433). -/
def startRestore (s : State) (part : Nat) (ctx : BitVec 12) : State × Option Bool :=
  let n := (s.savedCtxs.map fun c => c.bytes.length).foldl max 1
  match keyCause s part (partOf s part).tkey,
      translate s (.cut ctx) ctx part (partOf s part).dieOf (cutBase s part ctx) n false false false with
  | none, (s, .ok ps) => (restoreFrom s part ctx (cutOfBytes s ctx (readParts s ps)), some true)
  | none, (s, .wait) => (s, none)
  | _, (s, _) => (s, some false)

/-- A management request is refused (R438). -/
def refuseRequest (s : State) (code : Nat) : State := { s with responses := s.responses ++ [.refused code] }

/-- What a request of the management channel comes to: it is answered, or it must wait and stays in service (R431). -/
inductive Service where
  | done (s : State)
  | wait (s : State)

/-- The management core serves one request at a time, in arrival order: while one waits it is in service, its event goes on with
it, and any other request still stands on the channel (R431). -/
def inService (i : Instr) (f : State → Service) (s : State) : Result :=
  match s.serving with
  | some j =>
    if j = i then
      match f s with
      | .done t => .next { t with serving := none }
      | .wait t => .next t
    else .next s
  | none =>
    match f s with
    | .done t => .next t
    | .wait t => .next { t with serving := some i }

/-- Management request 0x06, RESTORE_START: refused for a context that is running, one of a partition that is not ACTIVE, or one
whose area cannot be read (R399, R415, R438); it waits where a page of the area must (R433). -/
def execRestoreStart (ctx : BitVec 12) (s : State) : Result :=
  let refuse := fun (s : State) => Service.done (refuseRequest s 0x06)
  inService (.restoreStart ctx) (fun s =>
    if s.bstatStage != 2 then refuse s
    else
      match partOfCtx s ctx with
      | none => refuse s
      | some part =>
        if (partOf s part).stateOf != 1 || !bit (descWord s part ctx 0x20) 63 || ctxResident s ctx || (restoreOf s ctx).isSome then
          refuse s
        else
          match startRestore s part ctx with
          | (s, some true) => .done { s with responses := s.responses ++ [.accepted 0x06] }
          | (s, some false) => refuse s
          | (s, none) => .wait s) s

end Sys2Proof.Machine
end

