-- ==== Sys2Proof/Machine/Queues.lean ====
section
/-! DEFINITION. The queue hardware: reading a ring's new records, and popping a ready one (R255, R257, R368 to R373,
R378, R390). -/

namespace Sys2Proof.Machine

/-! ## Reading records (R368, R371) -/

/-- The four words of record i of a ring, whose page the step has walked. -/
def readRecord (s : State) (x : Queue) (i : Nat) : Option (List Word) :=
  (ringRead s x (x.recVa i) 32).map fun bs => (recordsOf 8 bs).map word64

/-- A word of a record. -/
def recAt (ws : List Word) (k : Nat) : Word := (ws[k]?).getD 0

/-- The fields that a producer writes (R368). -/
def recHandle (ws : List Word) : Nat := bits (recAt ws 0) 63 56
def recPrio (ws : List Word) : Nat := bits (recAt ws 0) 54 52
def recFrame (ws : List Word) : Nat := bits (recAt ws 0) 51 0
def recJoin (ws : List Word) : Nat := bits (recAt ws 1) 47 32
def recEntry (ws : List Word) : Nat := bits (recAt ws 1) 31 0

/-- Whether a record that software wrote keeps to R368; ENTRY is held against SEQ where the graph is known. -/
def recordOk (g : Option Graph) (ws : List Word) : Bool :=
  recHandle ws != 0 && bits (recAt ws 0) 55 55 == 0 && recFrame ws % 2048 == 0 && bits (recAt ws 1) 63 50 == 0 &&
  recState (recAt ws 1) == 0 && recEntry ws % 4 == 0 && g.elim true fun g => recEntry ws < g.seqSize

/-- A queue stops with ERR, and the event is entered (R371). -/
def queueError (s : State) (x : Queue) : State :=
  let s := { s with tailWatch := s.tailWatch.filter fun w => (w.part == x.part && w.q == x.q) == false }
  let s := setQueue s { x.stopped with qctl := x.qctl ||| (1#64 <<< 56) }
  pushEvent s 0 0x0101 x.part x.ctx.toNat [BitVec.ofNat 64 x.q]

/-- The launches of a partition that are not complete (R372). -/
def openLaunches (s : State) (part : Nat) : Nat := s.launches.countP fun l => l.part == part && !l.done

/-- One record of an external queue becomes a launch of one unit; one that names a handle its context does not hold is
retired and counts as removed, and so is one that names a cancelled graph (R371, R373, R379). -/
def takeRecord (s : State) (x : Queue) (i : Nat) (g : Option Graph) (ws : List Word) : State :=
  let id := (jobRecOf s x.ctx).nextLaunch
  let s := setJob s x.ctx fun j => { j with nextLaunch := j.nextLaunch + 1 }
  let phase := currentPhase s x.ctx (partOf s x.part).dieOf
  let dead := g.elim true Graph.cancelled
  let st := if dead then 2 else 0
  let s := writeRecord s x i (recordWords (recHandle ws) (recPrio ws) (recFrame ws) st (recJoin ws) (recEntry ws) 0 0
    id.toNat x.ctx.toNat phase.toNat)
  let l : Launch :=
    { ctx := x.ctx, id := id, part := x.part, queue := x.q, handle := recHandle ws, first := i, units := 1, posted := 1,
      completed := 0, removed := if dead then 1 else 0, cancelled := g.elim false Graph.cancelled, dead := g.elim false Graph.cancelled,
      gen := (g.map Graph.gid).getD 0 }
  setQueue { s with launches := s.launches ++ [l] } { queueOf s x.part x.q with tail := i + 1 }

/-- The records of an external queue up to a new TAIL; one that breaks R368 stops the queue, and reading waits while
the table of launches is full, and while the page of a record must (R73, R82). -/
def takeRecords (part q : Nat) : Nat → State → State
  | 0, s => s
  | n + 1, s =>
    let x := queueOf s part q
    if 1024 ≤ openLaunches s part then s
    else
      match ringHold s [recUse x x.tail true] with
      | (s, false) => s
      | (s, true) =>
        match readRecord s x x.tail with
        | none => s
        | some ws =>
          let g := residentGraph s x.ctx (BitVec.ofNat 64 (recHandle ws))
          if recordOk g ws then takeRecords part q n (takeRecord s x x.tail g ws) else queueError s x

/-- Whether the queue hardware moves the records of a context: no cut is in progress, the context table can be read under
TKEY, and the context is not suspended, lent or being restored (R59, R395, R398, R408). -/
def ctxPops (s : State) (part : Nat) (ctx : BitVec 12) : Bool :=
  (cutOf s ctx).isNone && (keyCause s part (partOf s part).tkey).isNone && ctxState s part ctx < 2

/-- Whether a partition's queues run (R373, R393). -/
def partRuns (s : State) (part : Nat) : Bool := (partOf s part).stateOf == 1 && !(partOf s part).halted

/-- QUEUE_TAIL_UPDATE: the hardware looks at a ring's TAIL (R371, R379). -/
def execQueueTailUpdate (part q : Nat) (s : State) : Result :=
  let x := queueOf s part q
  if !partRuns s part || !x.valid || x.err || x.stop.isSome || !ctxPops s part x.ctx || (jobRecOf s x.ctx).cancelled then .next s
  else
    let s := (ringHold s [tailUse x false]).1
    match ringRead s x (x.baseVa + 8) 8 with
    | none => .next s
    | some bs =>
      let t := ofBytes bs
      let s := watchTail s x
      if t = x.tail && !tailStored s x then .next s
      else if !x.ext || t < x.tail || x.head + x.cap < t then .next (queueError s x)
      else
        let s := takeRecords part q (t - x.tail) s
        .next (settle (retireHead s part q))

/-! ## Popping (R373) -/

/-- A ready record: its queue, its index, its words and its graph. -/
structure Ready where
  q : Nat
  i : Nat
  ws : List Word
  g : Graph
  deriving DecidableEq, Repr

/-- Whether record words are ready for a die: QUEUED, JOINCNT 0, and the graph resident there (R372, R373). -/
def readyGraph (s : State) (x : Queue) (die : Nat) (ws : List Word) : Option Graph :=
  if recState (recAt ws 1) = 0 && recJoin ws = 0 then
    (residentGraph s x.ctx (BitVec.ofNat 64 (recHandle ws))).filter fun g => g.die == die
  else none

/-- The indices of a ring that the hardware has read and not let go. -/
def Queue.readable (x : Queue) : List Nat := (List.range (x.seen - x.head)).map (x.head + ·)

/-- The ready records of a ring, of those whose page the step has walked. -/
def readyRecords (s : State) (x : Queue) (die : Nat) : List Ready :=
  x.readable.filterMap fun i =>
    (readRecord s x i).bind fun ws => (readyGraph s x die ws).map fun g => { q := x.q, i := i, ws := ws, g := g }

/-- The queues of a partition that may give a record now. -/
def poppable (s : State) (part : Nat) : List Queue :=
  s.queues.filter fun x => x.part == part && x.valid && ctxPops s part x.ctx

/-- The ready records of a partition for a die; HEAD of each ring goes on first, where a page held it (R370). -/
def allReady (s : State) (part die : Nat) : State × List Ready :=
  (poppable s part).foldl
    (fun (r : State × List Ready) x =>
      let s := retireHead r.1 part x.q
      let x := queueOf s part x.q
      let s := (ringHold s (x.readable.map fun i => recUse x i false)).1
      (s, r.2 ++ readyRecords s x die)) (s, [])

/-- The queue last popped at a priority on a die. -/
def lastPopped (s : State) (part die prio : Nat) : Nat :=
  ((s.roundRobin.find? fun e => e.1 == (64 * die + part, prio)).map Prod.snd).getD 15

/-- The record that is popped next: the highest PRIO, then round-robin, then the lowest index (R373). -/
def chooseReady (s : State) (part die : Nat) (rs : List Ready) : Option Ready :=
  let p := rs.foldl (fun m r => max m (recPrio r.ws)) 0
  let top := rs.filter fun r => recPrio r.ws == p
  let last := lastPopped s part die p
  match minBy (fun (r : Ready) => (r.q + 15 - last) % 16) top with
  | none => none
  | some a => minBy Ready.i (top.filter fun r => r.q == a.q)

/-- The partition to which a sequencer belongs. -/
def partOfSeq (s : State) (q : SeqId) : Option Nat :=
  ((List.finRange 48).find? fun p =>
    let r := s.parts.get p
    r.stateOf == 1 && r.dieOf == dieOfSeq q && mapBit r.seqs (seqnOf q)).map Fin.val

/-- Whether a CWEMPTY of a graph's holders has still to be delivered (R76). -/
def cwemptyWaits (s : State) (g : Graph) : Bool :=
  s.cwempties.any fun r => (holderGraph s r.holder).any fun h => h.gid == g.gid

/-- The sequencer of a popped unit: every register and predicate zero, the CSRs of R257 from the record, the trap CSRs
reset, the pc at the entry (R255, R257, R368, R384).  While fabric records of the graph or a CWEMPTY of its holders wait,
one is delivered before the first instruction (R76, R390). -/
def poppedSeq (s : State) (part : Nat) (r : Ready) : Seq :=
  let w2 := recAt r.ws 2
  let w3 := recAt r.ws 3
  let ctx := BitVec.ofNat 12 (bits w3 43 32)
  let launch := BitVec.ofNat 32 (bits w2 31 0)
  let unit := bits w2 47 32
  let anchor := match s.launches.find? fun l => l.ctx == ctx && l.id == launch with
    | some l => l.first + unit
    | none => r.i
  let u : UnitRec :=
    { ctx := ctx, part := part, handle := BitVec.ofNat 8 (recHandle r.ws), launch := launch,
      lcm1 := BitVec.ofNat 16 (bits w2 63 48), unit := BitVec.ofNat 16 unit, phase := BitVec.ofNat 32 (bits w3 31 0),
      frame := BitVec.ofNat 52 (recFrame r.ws), prio := recPrio r.ws, queue := r.q, ring := r.i, anchor := anchor,
      ver := r.g.ver, codeBase := r.g.codeBase, started := [] }
  { Seq.reset with
    pc := r.g.codeBase + BitVec.ofNat 64 (recEntry r.ws)
    run := some u
    wait := if r.g.recs.isEmpty && !cwemptyWaits s r.g then .none else .fabric }

/-- A ready record is popped by a sequencer, as an acquire of PKG scope, once its state can be written (R276, R372,
R373). -/
def popRecord (s : State) (part : Nat) (q : SeqId) (r : Ready) : State :=
  let die := dieOfSeq q
  let x := queueOf s part r.q
  let s := (ringHold s [recUse x r.i true]).1
  if (ringParts s x (x.recVa r.i) 32 true).isNone then s
  else
    let s := setRecState s x r.i 1
    let s := acquireInvalidate s die x.ctx
    let turn := (64 * die + part, recPrio r.ws)
    let s := { s with roundRobin := upsert (fun e => e.1 == turn) (turn, r.q) s.roundRobin }
    s.updSeq q fun _ => poppedSeq s part r

/-- RECORD_POP: units of restores resume first; then an idle sequencer, when it is the lowest of its partition, pops
(R373, R399). -/
def execRecordPop (q : SeqId) (s : State) : Result :=
  match partOfSeq s q with
  | none => .next s
  | some part =>
    if !partRuns s part then .next s
    else
      let s := advanceRestores s part
      if (idleSeqs s part).head? ≠ some q then .next s
      else
        match allReady s part (dieOfSeq q) with
        | (s, rs) =>
          match chooseReady s part (dieOfSeq q) rs with
          | some r => .next (popRecord s part q r)
          | none => .next s

end Sys2Proof.Machine
end

