-- ==== Sys2Proof/Machine/Faults.lean ====
section
/-! DEFINITION. Fault records and the FABRIC trap, sealing a subgraph, containment of a partition, and errors of the
LLC (R387 to R394). -/

namespace Sys2Proof.Machine

/-! ## Fault records (R388 to R390) -/

/-- The resident graph of a context and handle. -/
def liveGraph (s : State) (ctx : BitVec 12) (handle : Nat) : Option Graph :=
  s.graphs.find? fun g => g.ctx == ctx && g.handle == handle && !g.retired

/-- FAULT_RECORD_ARRIVAL: the oldest record on its way reaches the root (R388, R389). -/
def execFaultRecordArrival (ctx : BitVec 12) (handle : Nat) (s : State) : Result :=
  match liveGraph s ctx handle with
  | none => .next s
  | some g =>
    match g.tree with
    | [] => .next s
    | r :: rest => .next (setGraph s g.gid fun g => rootTake { g with tree := rest } r)

/-- FREC3 (R389). -/
def frec3Of (g : Graph) (pend : Nat) : Word := BitVec.ofNat 64 ((if g.lost then 65536 else 0) + pend * 256 + g.handle)

/-- The first record of a graph is delivered to a unit (R389, R390): the acquire of DIE scope invalidates nothing, since
the L2 of the die is the unit's own coherence point. -/
def deliverRecord (s : State) (g : Graph) (q : SeqId) (r : FRec) (rest : List FRec) : State :=
  let w := r.words
  let s := setGraph s g.gid fun g => { g with recs := rest, lost := false }
  let s := s.updSeq q fun c =>
    { c with frec0 := w.getD 0 0, frec1 := w.getD 1 0, frec2 := w.getD 2 0, frec3 := frec3Of g rest.length }
  deliver s q 0x0E none

/-- Whether a record of a graph can be delivered now, and to which unit (R387, R390). -/
def recordTarget (s : State) (g : Graph) : Option SeqId :=
  match g.recs with
  | [] => none
  | r :: _ => (firstUnit s g).filter fun q => atBoundary s q && !heldByCut s q && waveClear g r.wave

/-- FABRIC_TRAP: a waiting record is delivered at a boundary, after everything before it in wave order has committed
(R387, R390). -/
def execFabricTrap (ctx : BitVec 12) (handle : Nat) (s : State) : Result :=
  match liveGraph s ctx handle with
  | none => .next s
  | some g =>
    match recordTarget s g, g.recs with
    | some q, r :: rest => .next (settle (deliverRecord s g q r rest))
    | _, _ => .next s

/-! ## Sealing a subgraph (R391, R392) -/

/-- The loops whose WADV words stand in a set of nodes. -/
def loopsIn (s : State) (refs : List NodeRef) : List (BitVec 16) :=
  (s.nodes.filter fun n => refs.contains n.ref).flatMap fun n =>
    (List.range n.slots.length).filterMap fun k => if n.opAt k = 0x53 then some (eWord (n.word k)).x else none

/-- A subgraph is sealed (R391 steps 1 to 5). -/
def sealNodes (s : State) (g : Graph) (refs : List NodeRef) : State :=
  let loops := loopsIn s refs
  let blocks := (refs.filter inTileBlock).map blockNode
  let s := endStreamsAt (discardNodes s refs) refs
  let s := { s with
    nodes := mapIf (fun n => refs.contains n.ref) (fun n => { n with sealed := true, reconfs := [], redepth := [] }) s.nodes
    instances := s.instances.filter fun i => i.released || !blocks.contains i.blk.node
    accesses := s.accesses.filter fun a => !(a.elem.any fun o => refs.contains o.node) }
  setGraph s g.gid fun g =>
    { g with pool := g.pool.filter (fun e => !loops.contains e.loop)
             sealing := g.sealing.filter fun c => !refs.contains c.node }

/-- SUBGRAPH_SEAL: containment that has begun ends in the seal, once no earlier iteration remains (R391). -/
def execSubgraphSeal (ctx : BitVec 12) (handle : Nat) (s : State) : Result :=
  match liveGraph s ctx handle with
  | none => .next s
  | some g =>
    match g.sealing.find? fun c => waveClear g c.wave with
    | none => .next s
    | some c => .next (settle (endIterations (sealNodes s g (subgraphOf s g c.node)) g))

/-! ## Partition containment (R393) -/

/-- The context of a holder's request, where it lies in a partition. -/
def inPart (s : State) (part : Nat) (ctx : BitVec 12) : Bool := (partOf s part).hasCtx ctx.toNat

/-- Whether a holder of translations serves a partition: one of its sequencers or their engines, its queue hardware, a cut
of its contexts, or a stream, element or port at its nodes. -/
def Holder.ofPart (s : State) (part : Nat) (refs : List NodeRef) (qs : List SeqId) (h : Holder) : Bool :=
  match h with
  | .seq q => qs.contains q
  | .engine q _ _ => qs.contains q
  | .queue p _ => p == part
  | .cut c => inPart s part c
  | h => h.at refs

/-- Everything that runs for a partition's contexts stops, and nothing of it is saved (R393 steps 1 and 2). -/
def stopPartition (s : State) (part : Nat) : State :=
  let mine := inPart s part
  let refs := (s.nodes.filter fun n => mine n.ctx).map Node.ref
  let qs := (List.finRange 64).filter fun q => (s.seqs.get q).run.elim false fun u => u.part == part
  let s := forgetMisses (discardNodes s refs) (Holder.ofPart s part refs qs)
  let s := dropSpills s (s.jobs.filter fun j => mine j.ctx)
  let s := qs.foldl (fun s q => s.updSeq q Seq.idle) s
  { s with
    nodes := mapIf (fun n => mine n.ctx) (fun n => { n with sealed := true }) s.nodes
    graphs := mapIf (fun g => mine g.ctx) (fun g => { g with pool := [], sealing := [], reconf := none }) s.graphs
    instances := s.instances.filter fun i => !mine i.blk.key.ctx
    streams := s.streams.filter fun t => !mine t.ctx
    jobs := s.jobs.filter fun j => !mine j.ctx
    barriers := s.barriers.filter fun b => !mine b.ctx
    accesses := s.accesses.filter fun a => !mine a.ctx
    walks := s.walks.filter fun r => !mine r.ctx
    cows := s.cows.filter fun c => !mine c.req.ctx
    cwempties := s.cwempties.filter fun r => !mine r.ctx
    pulls := s.pulls.filter fun p => !mine p.req.ctx
    tlb := s.tlb.filter fun e => !mine e.ctx
    latched := s.latched.filter fun e => !mine e.ctx
    walkCache := s.walkCache.filter fun e => !mine e.ctx
    portReqs := s.portReqs.filter fun r => !mine r.ctx
    partials := s.partials.filter fun x => !mine x.site.key.ctx
    queues := mapIf (fun x => x.part == part) (fun x => { x with turn := none }) s.queues
    conversions := s.conversions.filter fun c => (arrayOf s c.ref).owner != part
    bids := s.bids.filter fun b => b.part != part
    grants := s.grants.filter fun g => g.part != part
    cuts := s.cuts.filter fun c => !mine c.ctx
    restores := s.restores.filter fun r => r.part != part }

/-- What the caches hold for a partition is dropped, dirty data with it (R393 step 3). -/
def dropCaches (s : State) (part : Nat) : State :=
  let s := { s with
    l1 := s.l1.filter fun e => !(s.l2.any fun l => l.part == part && l.die == e.1.val / 16 && l.line == e.2)
    l2 := s.l2.filter fun l => l.part != part
    arrays := mapIf (fun a => a.owner == part) (fun a => { a with busy := false }) s.arrays }
  llcDiscardIf s fun e => e.part == part

/-- A partition is contained (R393); one that is not ACTIVE has nothing to stop. -/
def containPart (s : State) (src part : Nat) : State :=
  if (partOf s part).stateOf != 1 then s
  else
    let s := dropCaches (stopPartition s part) part
    let s := setPart s part fun p => { p.withState 2 with halted := true }
    pushEvent s src 0x0102 part 0 []

/-- UNCORRECTABLE_ERROR in state of a partition, or the request of system software (R393). -/
def execUncorrectableError (part : Nat) (s : State) : Result :=
  .next (containPart s (0x200 + (partOf s part).dieOf) part)

/-! ## Errors of the LLC (R394) -/

/-- The partitions that have left a dirty line in a set since it last held none for certain, in the order of their last
writes (R394). -/
def leftDirty (s : State) (base set : Nat) : List Nat :=
  (s.residency.filter fun r => r.base == base && r.set == set).map Residency.part

/-- The lines of a set that have been made dirty and not written since to the memory for certain. -/
def dirtyInSet (s : State) (base set : Nat) : List LlcDirty :=
  s.llc.filter fun e => e.base == base && llcSetOf (128 * e.line) == set

/-- Those of them that are still dirty: evictions, which the spec leaves free, have written back the others (R106). -/
def stillDirty (s : State) (base set : Nat) : List LlcDirty :=
  ((dirtyInSet s base set).zipIdx.filter fun x => !Config.freeBit (s.freeCtr + x.2)).map Prod.fst

/-- The residency mask of a set whose lines stay are still dirty (R394): clear where none is; else it was cleared at some
moment, by evictions, at which none of those lines was dirty, and names the partitions that have written since. -/
def residencyMask (s : State) (base set : Nat) (stay : List LlcDirty) : List Nat :=
  let c := s.freeCtr + (dirtyInSet s base set).length
  if stay = [] then []
  else
    ((leftDirty s base set).zipIdx.dropWhile fun x =>
      Config.freeBit (c + x.2) && !stay.any fun e => e.since.contains x.1).map Prod.fst

/-- LLC_TAG_PARITY_ERROR: the set is invalidated, its dirty data is lost, and exactly the partitions in its mask are
contained (R394). -/
def execLlcTagParityError (base set : Nat) (s : State) : Result :=
  let all := dirtyInSet s base set
  let stay := stillDirty s base set
  let mask := residencyMask s base set stay
  let s := { s with freeCtr := s.freeCtr + all.length + (leftDirty s base set).length
                    llc := s.llc.filter fun e => !all.contains e }
  let s := clearMasks (stay.foldl llcLose s)
  .next (mask.foldl (fun s p => containPart s (0x300 + base) p) s)

/-- RESIDENCY_MASK_ERROR: every partition that owns a way of the base die's LLC is contained, whatever the set (R394). -/
def execResidencyMaskError (base _set : Nat) (s : State) : Result :=
  .next (((List.range 48).filter fun p => llcWaysOf s p base != 0).foldl (fun s p => containPart s (0x300 + base) p) s)

end Sys2Proof.Machine
end

