-- ==== Sys2Proof/Machine/Security.lean ====
section
/-! DEFINITION. KEYZ, SCRUB and the scrub engine, counters, Propolis images: SEAL and UNSEAL (R405 to R426, R428). -/

namespace Sys2Proof.Machine

/-! ## Key slots (R413) -/

/-- Whether something still to be performed has used a translation that names a key slot: an access, or a store that a tile
has released; an engine translates each line anew (R81). -/
def slotInUse (s : State) (k : Nat) : Bool :=
  let uses := fun (ps : List Part) => ps.any fun p => p.leaf.key == k && !inArrays p.pa
  (s.accesses.any fun a => uses a.parts) || (s.instances.any fun i => i.released && i.stores.any fun h => uses h.parts)

/-- KEYZ: after the issuer's earlier accesses, as FENCE.rel.sys, the slot is ZERO; what has used its translation before is
performed normally, so the engines clear it only after that (R81, R413). -/
def execKeyz (d a : Reg) (s : State) : Result :=
  withUnit s fun u =>
    let k := (s.cpu.reg a).toNat
    if 4095 < k || !(partOf s u.part).keys.getLsbD k then trapOprng s
    else if !(ownAccesses s s.cur).isEmpty || slotInUse s k then s
    else
      let s := releasePkg s u
      let old := keyWord s k
      (setKey s k .zero 0).updCpu fun c => (c.setReg d old).next

/-! ## SCRUB and the scrub engine (R407, R414 to R416) -/

/-- The rings of a partition that a test picks. -/
def partRings (s : State) (part : Nat) (p : Queue → Bool) : List Queue :=
  s.queues.filter fun x => x.part == part && x.valid && p x

/-- Walk the pages of every record of some rings; false where one of them must wait (R73, R82, R369). -/
def holdRings (s : State) (xs : List Queue) : State × Bool :=
  xs.foldl
    (fun (r : State × Bool) x =>
      let h := ringHold r.1 (x.indices.map fun i => recUse x i false)
      (h.1, r.2 && h.2)) (s, true)

/-- Whether some ring has a record whose STATE is below a bound: 1 for QUEUED, 2 for RUNNING also (R368). -/
def anyRecord (s : State) (xs : List Queue) (bound : Nat) : Bool :=
  xs.any fun x => x.indices.any fun i => (recWord s x i 1).any fun w => decide (recState w < bound)

/-- Whether some other unit runs in a partition, or a graph other than the issuer's of width 0 is resident (R415). -/
def scrubHeld (s : State) (u : UnitRec) : Bool :=
  ((List.finRange 64).any fun q => q != s.cur && (s.seqs.get q).run.elim false fun v => v.part == u.part) ||
  s.graphs.any fun g =>
    g.part == u.part && !g.retired && !(g.ctx == u.ctx && g.handle == u.handle.toNat && g.w == 0)

/-- Whether a slot of a partition's KEYS map is LOADED. -/
def anyLoaded (s : State) (part : Nat) : Bool :=
  s.keySlots.any fun e => e.kst == .loaded && (partOf s part).keys.getLsbD e.slot

/-- The partition of an issuer enters SCRUBPEND (R407). -/
def scrubPend (s : State) (part : Nat) : State := setPart s part fun p => p.withState 2

/-- SCRUB (R415). -/
def execScrub (d : Reg) (s : State) : Result :=
  withUnit s fun u =>
    let answer := fun (s : State) (v : Word) => s.updCpu fun c => (c.setReg d v).next
    let rings := partRings s u.part fun _ => true
    match holdRings s rings with
    | (s, false) => s
    | (s, true) =>
      if anyRecord s rings 1 || scrubHeld s u then answer s 1
      else if anyLoaded s u.part then answer s 2
      else if endWaits s s.cur then s
      else
        match ringHold (releasePkg s u) (retireUses s u) with
        | (s, false) => s
        | (s, true) => scrubPend (settle (retireUnit s s.cur false)) u.part

/-- The number of set bits of a map. -/
def popcount {w : Nat} (m : BitVec w) : Nat := (List.range w).countP fun i => m.getLsbD i

/-- SCRPROG.TOTAL (R416). -/
def scrubTotal (p : Partition) : Nat := 512 * (4 * popcount p.quads) + 262144 * popcount p.llcWays

/-- SCRUB_BEGIN: the scrub engine takes up a partition in SCRUBPEND (R407, R416). -/
def beginScrub (s : State) (part : Nat) : State :=
  if (partOf s part).stateOf != 2 then s
  else
    setPart s part fun p =>
      { p.withState 3 with scrTotal := BitVec.ofNat 32 (scrubTotal p), scrDone := 0 }

/-- SCRUB_BEGIN. -/
def execScrubBegin (part : Nat) (s : State) : Result := .next (beginScrub s part)

/-- The scrub engine has cleared some lines more of a partition in SCRUBBING, of which SCRPROG.DONE tells; what stands in
them is seen by nobody before the scrub completes (R407, R416). -/
def scrubLines (s : State) (part n : Nat) : State :=
  if (partOf s part).stateOf != 3 then s
  else setPart s part fun p => { p with scrDone := BitVec.ofNat 32 (min p.scrTotal.toNat (p.scrDone.toNat + n)) }

/-- The arrays of a partition's quads. -/
def partArrays (p : Partition) : List ArrayRef :=
  ((List.range 4096).filter fun i => p.quads.getLsbD i).flatMap fun i =>
    (List.range 4).map fun k => { die := p.dieOf, slice := i / 256, index := 4 * (i % 256) + k }

/-- Whether a partition's QUADS hold an array. -/
def ownsArray (p : Partition) (r : ArrayRef) : Bool := r.die == p.dieOf && mapBit p.quads (256 * r.slice + r.index / 4)

/-- Every byte of a partition's arrays is cleared, and they are unassigned and OFF (R86, R416). -/
def clearArrays (s : State) (p : Partition) : State :=
  let arr := fun (a : Nat) => match region a with
    | .array r => ownsArray p r
    | _ => false
  { s with
    mem := s.mem.filter fun c => !arr c.1
    arrays := s.arrays.filter fun a => !ownsArray p a.ref }

/-- What a partition's contexts leave in the package is cleared: tiles, sequencers, L1s, counters of launches and
phases, streams, saved cuts, slices and lends (R378, R416). -/
def clearTenants (s : State) (part : Nat) : State :=
  let s := stopPartition s part
  let p := partOf s part
  let mine := fun (ctx : BitVec 12) => p.hasCtx ctx.toNat
  let qs := (List.finRange 64).filter fun q => dieOfSeq q == p.dieOf && mapBit p.seqs (seqnOf q)
  let s := qs.foldl (fun s q => s.updSeq q fun _ => Seq.reset) s
  { s with
    l1 := s.l1.filter fun e => !qs.contains e.1
    nodes := s.nodes.filter fun n => !mine n.ctx
    tiles := s.tiles.filter fun t => !mine t.ctx
    graphs := s.graphs.filter fun g => !mine g.ctx
    tensors := s.tensors.filter fun t => !mine t.1.1
    launches := s.launches.filter fun l => l.part != part
    phases := s.phases.filter fun x => !mine x.ctx
    jobRecs := s.jobRecs.filter fun j => !mine j.ctx
    savedCtxs := s.savedCtxs.filter fun c => !mine c.ctx
    sealable := s.sealable.filter fun c => !mine c
    slices := s.slices.filter fun e => !mine e.1
    slicePend := s.slicePend.filter fun e => !mine e.1
    fresh := s.fresh.filter fun c => !mine c
    lends := s.lends.filter fun l => !mine l.ctx
    walkCache := s.walkCache.filter fun w => !mine w.ctx
    queues := s.queues.filter fun x => x.part != part
    tailWatch := s.tailWatch.filter fun w => w.part != part
    roundRobin := s.roundRobin.filter fun e => e.1.1 % 64 != part }

/-- SCRUB_COMPLETE: everything the partition owned is clear, and it is FREE (R407, R416). -/
def execScrubComplete (part : Nat) (s : State) : Result :=
  let p := partOf s part
  if p.stateOf != 3 then .next s
  else
    let s := clearArrays (dropCaches (clearTenants s part) part) p
    let s := { s with residency := s.residency.filter fun r => r.part != part }
    .next (setPart s part fun p => { Partition.free with scrTotal := p.scrTotal, scrDone := p.scrTotal })

/-! ## Counters (R417 to R419) -/

/-- The value of a counter of the nonvolatile store. -/
def counterOf (s : State) (i : Nat) : Word := ((s.counters.find? fun c => c.1 == i).map Prod.snd).getD 0

/-- Write a counter, durably. -/
def setCounter (s : State) (i : Nat) (v : Word) : State := { s with counters := upsert (fun c => c.1 == i) (i, v) s.counters }

/-- SEALX with a reason (R425). -/
def trapSealx (s : State) (reason : Nat) : State := trapHere s 0x10 (some (0, BitVec.ofNat 64 reason))

/-- STALE (R424). -/
def trapStale (s : State) : State := trapHere s 0x0F none

/-- CTRINC (R418, R419). -/
def execCtrinc (d a : Reg) (r : BitVec 1) (s : State) : Result :=
  withUnit s fun u =>
    let i := (s.cpu.reg a).toNat
    if 4095 < i || !(partOf s u.part).ctrs.getLsbD i then trapOprng s
    else if r = 1 then s.updCpu fun c => (c.setReg d (counterOf s i)).next
    else if counterOf s i = BitVec.allOnes 64 then trapSealx s 0x0B
    else
      let v := counterOf s i + 1
      (setCounter s i v).updCpu fun c => (c.setReg d v).next

/-! ## Identity and measurements (R417, R421, R437) -/

/-- The bytes of the eight measurement registers, in index order. -/
def measBytes (s : State) : List Byte := s.meas.toList.flatMap fun m => toBytes 32 m.toNat

/-- FWMEAS (R421). -/
def fwMeas (s : State) : List Byte := sha256 (measBytes s)

/-- The public half of SK. -/
def sealPub (s : State) : List Byte := pubBytes (publicKey (Config.sealKey s.seed))

/-- A private key or nonce from the random source: 1 to n − 1. -/
def randomScalar (i : Nat) : Nat := (Config.randomBits i).toNat % (p256n - 1) + 1

/-! ## SEAL (R421 to R423, R426) -/

/-- The key slots of the valid leaves of a table, level by level (R423). -/
def leafKeys (s : State) (ptkey : Nat) : Nat → Nat → Nat → Bool → List Nat
  | 0, _, _, _ => []
  | fuel + 1, l, tbl, leaves =>
    (List.range (levelEntries l)).flatMap fun i =>
      let e := readWord s ptkey (tbl + 8 * i)
      if !bit e 63 then []
      else if leaves then (if inArrays (bits e 47 16 * 65536) then [] else [bits e 15 4])
      else
        match szAt l (bits e 59 58) with
        | none => []
        | some lg =>
          let nxt := bits e 47 8 * 256
          if !tableOk (l + 1) nxt then [] else leafKeys s ptkey fuel (l + 1) nxt (lg != 0)

/-- The slots that SEAL carries, in ascending order (R423). -/
def carriedKeys (s : State) (part : Nat) (ctx : BitVec 12) : List Nat :=
  let x := descWord s part ctx 0
  let pool := bits (descWord s part ctx 0x08) 63 59
  let cw := if 4 ≤ pool && pool ≤ 20 then [bits (descWord s part ctx 0x10) 15 4] else []
  let root := bits x 47 16 * 65536
  let leaves := if bit x 63 && tableOk 0 root then leafKeys s (bits x 15 4) 4 0 root false else []
  sortBy (fun a b => a ≤ b) ((bits x 15 4 :: cw) ++ leaves).eraseDups

/-- The 64 bytes of a slot as an image carries it (R412, R423). -/
def keyBytes (s : State) (k : Nat) : List Byte := toBytes 64 ((keyMat s k).getD 0).toNat

/-- The TENS section (R422). -/
def tensBytes (s : State) (ctx : BitVec 12) : List Byte :=
  (List.range 1024).flatMap fun i => toBytes 64 (tensorOf s ctx i).toNat

/-- The request of a SEAL. -/
structure SealReq where
  ctx : Nat
  polfw : Bool
  chainLen : Nat
  limit : Nat
  pkr : Nat
  chain : Nat
  pol : List Byte
  deriving DecidableEq, Repr

/-- Read a SEAL request; none where a field breaks its limit (R423). -/
def sealReqOf (b : List Byte) : Option SealReq :=
  let n := fieldOf b 4 4
  if 2 ≤ fieldOf b 2 2 || n = 0 || 65536 < n || fieldOf b 0x10 8 % 64 ≠ 0 || !zeroAt b 0x40 64 then none
  else
    some { ctx := fieldOf b 0 2, polfw := fieldOf b 2 2 == 1, chainLen := n, limit := fieldOf b 8 8,
           pkr := fieldOf b 0x10 8, chain := fieldOf b 0x18 8, pol := sliceOf b 0x20 32 }

/-- Whether a PKR's signature holds under the device key of a chain that ends at the Svarun root (R421, R423). -/
def pkrOk (chain pkr : List Byte) : Bool :=
  match Config.chainKey chain with
  | none => false
  | some (x, y) => ecdsaOk x y (sliceOf pkr 0x90 64) (sha256 (pkr.take 0x90))

/-- What SEAL puts together: the whole image and its lend handle (R422). -/
def buildImage (s : State) (part : Nat) (mig : Bool) (r : SealReq) (pkr cut : List Byte) (ks : List Nat) :
    List Byte × Word :=
  let ctx := BitVec.ofNat 12 r.ctx
  let i := s.freeCtr
  let bodyKey := toBytes 32 (Config.randomBits i).toNat
  let eph := randomScalar (i + 1)
  let iv := (toBytes 32 (Config.randomBits (i + 2)).toNat).take 12
  let lend : Word := if mig then (Config.randomBits (i + 3)).setWidth 64 else 0
  let body := (ks.flatMap (keyBytes s)) ++ tensBytes s ctx ++ cut
  let flags := (if mig then 1 else 0) + if r.polfw then 2 else 0
  let head :=
    toBytes 4 0x4C505250 ++ toBytes 2 1 ++ toBytes 2 flags ++ sliceOf pkr 4 2 ++ toBytes 2 ks.length ++
    toBytes 4 (cutNo s part ctx).toNat ++ sliceOf pkr 8 8 ++ toBytes 8 lend.toNat ++ toBytes 8 body.length ++
    toBytes 8 0 ++ tmeas s part ctx ++ fwMeas s ++ (if r.polfw then r.pol else toBytes 32 0) ++ sliceOf pkr 0x10 32 ++
    ownIdentity s ++ pubBytes (publicKey eph)
  let z := (ecdh eph (sliceOf pkr 0x30 64)).getD []
  let kek := sha256 (z ++ head)
  let zeroIv := toBytes 12 0
  let wrapped := gcmCrypt kek zeroIv bodyKey
  let slots := sliceOf (ks.flatMap fun k => toBytes 2 k) 0 32
  let head := head ++ wrapped ++ gcmTagOf kek zeroIv [] wrapped ++ iv ++ slots ++ toBytes 132 0
  let ct := gcmCrypt bodyKey iv body
  (head ++ gcmTagOf bodyKey iv head ct ++ ct, lend)

/-- The lend of a SEAL.mig: an earlier one of the context is revoked (R423, R426). -/
def makeLend (s : State) (part : Nat) (ctx : BitVec 12) (lend : Word) (tgt : List Byte) : State :=
  let e : Lend := { lendId := lend, tgt := BitVec.ofNat 256 (ofBytes tgt), ctx := ctx }
  setCtxState { s with lends := (s.lends.filter fun l => l.ctx != ctx) ++ [e] } part ctx 3

/-- The image is stored at its LLC homes, page by page translated before any byte is (R423). -/
def storeImage (s : State) (u : UnitRec) (va : Word) (bs : List Byte) (k : State → State) : State :=
  match translate s (.seq s.cur) u.ctx u.part (dieOfSeq s.cur) va.toNat bs.length true false false with
  | (s, .wait) => s
  | (s, .fault f) => trapFault s f
  | (s, .ok ps) => k (storeParts s (dieOfSeq s.cur) u.part u.ctx true ps bs)

/-- A load of SEAL or UNSEAL that must be there before the rest. -/
def withBytes (s : State) (u : UnitRec) (va n : Nat) (k : State → List Byte → State) : State :=
  match seqLoad s u va n with
  | (s, .wait) => s
  | (s, .fault f) => trapFault s f
  | (s, .bytes bs) => k s bs

/-- The bytes of the last completed cut of a context as its cut area holds them (R410, R423). -/
def withCutArea (s : State) (part : Nat) (ctx : BitVec 12) (k : State → List Byte → State) : State :=
  let n := ((s.savedCtxs.reverse.find? fun c => c.ctx == ctx).map fun c => c.bytes.length).getD 1
  match translate s (.cut ctx) ctx part (partOf s part).dieOf (cutBase s part ctx) n false false false with
  | (s, .wait) => s
  | (s, .fault f) => trapFault s f
  | (s, .ok ps) => k s (readParts s ps)

/-- SEAL after its request is read (R423). -/
def sealGoOn (d b : Reg) (mig : Bool) (u : UnitRec) (r : SealReq) (s : State) : State :=
  let ctx := BitVec.ofNat 12 r.ctx
  if (cutOf s ctx).isSome then s
  else if !s.sealable.contains ctx then trapSealx s 0x02
  else if mig && ctxState s u.part ctx ≠ 2 && ctxState s u.part ctx ≠ 3 then trapSealx s 0x02
  else
    withBytes s u r.pkr 256 fun s pkr =>
      withBytes s u r.chain r.chainLen fun s chain =>
        if !pkrOk chain pkr then trapSealx s 0x01
        else
          let ks := carriedKeys s u.part ctx
          if 16 < ks.length then trapSealx s 0x0C
          else
            withCutArea s u.part ctx fun s cut =>
              let n := 512 + 64 * ks.length + 65536 + cut.length
              if r.limit < n then trapSealx s 0x03
              else
                let img := buildImage s u.part mig r pkr cut ks
                storeImage { s with freeCtr := s.freeCtr + 4 } u (s.cpu.reg b) img.1 fun s =>
                  let s := if mig then makeLend s u.part ctx img.2 (sliceOf pkr 0x10 32) else s
                  s.updCpu fun c => (c.setReg d (BitVec.ofNat 64 n)).next

/-- SEAL (R423, R428). -/
def execSeal (d a b : Reg) (m : BitVec 1) (s : State) : Result :=
  withUnit s fun u =>
    let va := s.cpu.reg a
    if !(ownAccesses s s.cur).isEmpty then s
    else if va.toNat % 64 ≠ 0 then trapMisal s va false false
    else
      withBytes s u va.toNat 128 fun s bs =>
        match sealReqOf bs with
        | none => trapOprng s
        | some r =>
          if !(partOf s u.part).hasCtx r.ctx then trapOprng s
          else
            match tableFault s u.part va.toNat with
            | some f => trapFault s f
            | none => sealGoOn d b (m == 1) u r s

/-! ## UNSEAL (R399, R424, R428) -/

/-- The request of an UNSEAL. -/
structure UnsealReq where
  ctx : Nat
  nslot : Nat
  slots : List Nat
  tmexp : List Byte
  deriving DecidableEq, Repr

/-- Read an UNSEAL request; none where a reserved field is not zero. It has room for 16 slots (R424). -/
def unsealReqOf (b : List Byte) : Option UnsealReq :=
  let n := fieldOf b 2 2
  if !zeroAt b 4 12 || !zeroAt b 0x50 48 then none
  else
    some { ctx := fieldOf b 0 2, nslot := n, slots := (List.range (min n 16)).map (fun i => fieldOf b (0x30 + 2 * i) 2),
           tmexp := sliceOf b 0x10 32 }

/-- Whether the context and slots of a request are as R424 demands; the record search is given. -/
def unsealReqOk (s : State) (part : Nat) (r : UnsealReq) (queued : Bool) : Bool :=
  let p := partOf s part
  let ctx := BitVec.ofNat 12 r.ctx
  p.hasCtx r.ctx && (r.slots.all fun k => decide (k < 4096) && p.keys.getLsbD k) && bit (descWord s part ctx 0x20) 63 &&
  ctxState s part ctx == 0 && !ctxResident s ctx && !queued

/-- Whether a header is well-formed (R422, R424). -/
def headerOk (h : List Byte) (nslot : Nat) : Bool :=
  let flags := fieldOf h 6 2
  let n := fieldOf h 0xA 2
  fieldOf h 0 4 == 0x4C505250 && fieldOf h 4 2 == 1 && flags < 4 && n == nslot && 1 ≤ n && n ≤ 16 && zeroAt h 0x28 8 && zeroAt h 0x16C 132 &&
  zeroAt h (0x14C + 2 * n) (32 - 2 * n) && (flags % 2 == 1 || zeroAt h 0x18 8) && (flags / 2 == 1 || zeroAt h 0x70 32)

/-- The checks of R424 on a header against the target, in order: a SEALX reason, or 0 for STALE. -/
def headerFails (s : State) (part : Nat) (h : List Byte) (r : UnsealReq) : Option Nat :=
  let ctr := fieldOf h 8 2
  let val := fieldOf h 0x10 8
  if !headerOk h r.nslot then some 0x04
  else if sliceOf h 0x90 32 != ownIdentity s then some 0x05
  else if 4095 < ctr || !(partOf s part).ctrs.getLsbD ctr then some 0x0A
  else if val < (counterOf s ctr).toNat then some 0
  else if (counterOf s ctr).toNat < val then some 0x09
  else if fieldOf h 6 2 / 2 == 1 && fwMeas s != sliceOf h 0x70 32 then some 0x07
  else if sliceOf h 0x30 32 != r.tmexp then some 0x08
  else none

/-- The body of an image decrypted, none where a tag fails (R422). -/
def openBody (s : State) (h ct : List Byte) : Option (List Byte) :=
  match ecdh (Config.sealKey s.seed) (sliceOf h 0xD0 64) with
  | none => none
  | some z =>
    let kek := sha256 (z ++ h.take 0x110)
    let zeroIv := toBytes 12 0
    let wrapped := sliceOf h 0x110 32
    if gcmTagOf kek zeroIv [] wrapped != sliceOf h 0x130 16 then none
    else
      let bodyKey := gcmCrypt kek zeroIv wrapped
      let iv := sliceOf h 0x140 12
      if gcmTagOf bodyKey iv (h.take 0x1F0) ct != sliceOf h 0x1F0 16 then none else some (gcmCrypt bodyKey iv ct)

/-- An entry of KEYS goes to its slot; one of 64 zero bytes puts it into ZERO (R412, R424). -/
def loadKeyEntry (s : State) (slot : Nat) (bs : List Byte) : State :=
  if zeroAt bs 0 64 then setKey s slot .zero 0 else setKey s slot .loaded (BitVec.ofNat 512 (ofBytes bs))

/-- The KEYS entries in order. -/
def loadKeyEntries (body : List Byte) : Nat → List Nat → State → State
  | _, [], s => s
  | i, k :: ks, s => loadKeyEntries body (i + 1) ks (loadKeyEntry s k (sliceOf body (64 * i) 64))

/-- The TENS section replaces every entry of a context's table, a broken entry by zero (R243, R424). -/
def loadTens (s : State) (ctx : BitVec 12) (bs : List Byte) : State :=
  (List.range 1024).foldl
    (fun s i => setTensor s ctx i (tChecked (BitVec.ofNat 512 (ofBytes (sliceOf bs (64 * i) 64))))) s

/-- The steps of R424 after the tags hold: the counter, the keys, the table, the descriptor, the restore. -/
def unsealApply (d : Reg) (u : UnitRec) (r : UnsealReq) (h body : List Byte) (ps : List Part) (s : State) : State :=
  let ctx := BitVec.ofNat 12 r.ctx
  let val := fieldOf h 0x10 8
  let n := r.slots.length
  let cut := body.drop (64 * n + 65536)
  let s := writeParts s u.part ps cut
  let s := setCounter s (fieldOf h 8 2) (BitVec.ofNat 64 (val + 1))
  let s := loadKeyEntries body 0 r.slots s
  let s := loadTens s ctx (sliceOf body (64 * n) 65536)
  let s := setCutNo (setTmeas s u.part ctx (sliceOf h 0x30 32)) u.part ctx (BitVec.ofNat 32 (fieldOf h 0xC 4))
  let c := cutOfBytes s ctx cut
  let s := restoreFrom s u.part ctx c
  if c.graphs.all Graph.retired then s.updCpu fun c => (c.setReg d (BitVec.ofNat 64 (val + 1))).next
  else setWait s (.unsealing ctx (BitVec.ofNat 64 (val + 1)))

/-- The bytes of the CUT section of a body of n bytes with k KEYS entries, which is what goes to the cut area (R410,
R422, R424). -/
def cutLen (n k : Nat) : Nat := n - 64 * k - 65536

/-- UNSEAL's checks and effect, the request and its records searched (R424); a counter at its maximum is not counted up
(R418, R425). -/
def unsealGoOn (d a : Reg) (u : UnitRec) (r : UnsealReq) (queued : Bool) (s : State) : State :=
  if !unsealReqOk s u.part r queued then trapOprng s
  else
    withBytes s u (s.cpu.reg a).toNat 512 fun s h =>
      match headerFails s u.part h r with
      | some 0 => trapStale s
      | some e => trapSealx s e
      | none =>
        let ctx := BitVec.ofNat 12 r.ctx
        let n := fieldOf h 0x20 8
        let c := cutLen n r.slots.length
        withBytes s u ((s.cpu.reg a).toNat + 512) n fun s ct =>
          match translate s (.cut ctx) ctx u.part (partOf s u.part).dieOf (cutBase s u.part ctx) (max 1 c) true false false with
          | (s, .wait) => s
          | (s, .fault f) => trapFault s f
          | (s, .ok ps) =>
            match openBody s h ct with
            | none => trapSealx (writeParts s u.part ps (List.replicate c 0)) 0x06
            | some body =>
              if fieldOf h 0x10 8 = 2 ^ 64 - 1 then trapSealx (writeParts s u.part ps (List.replicate c 0)) 0x0B
              else unsealApply d u r h body ps s

/-- UNSEAL (R424, R428); one that has made its restore completes when every graph is re-admitted. -/
def execUnseal (d a b : Reg) (s : State) : Result :=
  withUnit s fun u =>
    match s.cpu.wait with
    | .unsealing ctx v =>
      if (restoreOf s ctx).elim false fun r => !r.graphs.isEmpty then s
      else s.updCpu fun c => ({ c.setReg d v with wait := .none } : Seq).next
    | _ =>
      let va := s.cpu.reg b
      if !(ownAccesses s s.cur).isEmpty then s
      else if va.toNat % 64 ≠ 0 then trapMisal s va false false
      else
        withBytes s u va.toNat 128 fun s bs =>
          match unsealReqOf bs with
          | none => trapOprng s
          | some r =>
            let rings := partRings s u.part fun x => x.ctx.toNat == r.ctx
            match tableFault s u.part va.toNat, holdRings s rings with
            | some f, _ => trapFault s f
            | none, (s, false) => s
            | none, (s, true) => unsealGoOn d a u r (anyRecord s rings 1) s

end Sys2Proof.Machine
end

