-- ==== Sys2Proof/Machine/Bringup.lean ====
section
/-! DEFINITION. Host and peer accesses, the link, resets, power and the boot ROM (R4, R5, R80, R407, R418, R432 to
R437). -/

namespace Sys2Proof.Machine

/-! ## The aperture (R432, R433) -/

/-- An aperture entry; PART resets to 0x3F (R432). -/
def apertureOf (s : State) (i : Nat) : Word :=
  ((s.apertures.find? fun e => e.1 == i).map Prod.snd).getD (0x3F#64 <<< 26)

def apV (w : Word) : Bool := bit w 63
def apBase (w : Word) : Nat := bits w 47 32 * 2 ^ 32
def apPart (w : Word) : Nat := bits w 31 26
def apKey (w : Word) : Nat := bits w 11 0

/-- The entry that an address of the aperture names: 256 of 4 GiB each. -/
def apertureAt (s : State) (addr : Nat) : Word := apertureOf s (addr / 2 ^ 32)

/-- Whether an access through the entry of an address is performed. -/
def apertureOpen (s : State) (addr : Nat) : Bool :=
  let w := apertureAt s addr
  addr < 2 ^ 40 && apV w && (keyMat s (apKey w)).isSome

/-- The device physical address of an address of the aperture. -/
def aperturePa (s : State) (addr : Nat) : Nat := apBase (apertureAt s addr) + addr % 2 ^ 32

/-- The event of an access that was not performed (R432). -/
def apertureRefused (s : State) (addr : Nat) : State :=
  pushEvent s 0x400 0x104 (apPart (apertureAt s addr)) 0 [BitVec.ofNat 64 addr]

/-- The pieces of a host access, none across two entries. -/
def aperturePieces (addr n : Nat) : List (Nat × Nat) := chunks (2 ^ 32) (n / 2 ^ 32 + 2) addr n

/-- One piece of a host read: its bytes, or all ones. -/
def hostReadPiece (r : State × List Byte) (p : Nat × Nat) : State × List Byte :=
  if apertureOpen r.1 p.1 then
    (r.1, r.2 ++ readSlot r.1 (apKey (apertureAt r.1 p.1)) (aperturePa r.1 p.1) p.2)
  else (apertureRefused r.1 p.1, r.2 ++ List.replicate p.2 0xFF)

/-- HOST_READ (R432, R433): every host write before it has been performed already. -/
def execHostRead (addr len : Nat) (s : State) : Result :=
  if !s.linkUp then .next s
  else
    let r := (aperturePieces addr len).foldl hostReadPiece (s, [])
    .next { r.1 with responses := r.1.responses ++ [.data r.2] }

/-- HOST_WRITE (R432, R433). -/
def execHostWrite (addr : Nat) (bytes : List Byte) (s : State) : Result :=
  if !s.linkUp then .next s
  else
    .next ((aperturePieces addr bytes.length).foldl
      (fun s p =>
        let w := apertureAt s p.1
        if apertureOpen s p.1 then writeSlot s (apPart w) (apKey w) (aperturePa s p.1) (sliceOf bytes (p.1 - addr) p.2)
        else apertureRefused s p.1) s)

/-- LINK_RETRAIN: the link goes down or comes up (R433). -/
def execLinkRetrain (up : Bool) (s : State) : Result := .next { s with linkUp := up }

/-! ## Peers (R4, R5, R80) -/

/-- The far end of an access lies in HBM4E or the LP6 tier, all of it. -/
def peerReach (pa n : Nat) : Bool := isDram pa && (n == 0 || isDram (pa + n - 1))

/-- PEER_ACCESS: served at the LLC, under the key slot the line names; a read keeps the source's encryption (R80). -/
def execPeerAccess (r : PeerReq) (s : State) : Result :=
  match r with
  | .read _ pa key len =>
    if peerReach pa len && (keyMat s key).isSome then
      .next { s with responses := s.responses ++ [.page (keyMat s key) (readSlot s key pa len) pa] }
    else .next { s with responses := s.responses ++ [.pullRefused] }
  | .write _ pa key bytes =>
    if peerReach pa bytes.length then .next (writeSlot s (keyOwner s key) key pa bytes)
    else .next { s with responses := s.responses ++ [.pullRefused] }

/-! ## Resets (R86, R407, R434, R435) -/

/-- An epoch above every epoch that memory has had: what DRAM holds after a reset is not known. -/
def freshEpoch (s : State) : Nat := (s.lineTags.map LineTag.epoch).foldl max s.powerUps + 1

/-- What no reset of the package touches: the nonvolatile store, the memories at the far ends of the links, and the
model's own fields. -/
def resetFrom (s : State) : State :=
  { State.reset with
    turns := s.turns
    freeCtr := s.freeCtr
    tick := s.tick
    linkUp := s.linkUp
    powerUps := freshEpoch s
    mem := s.mem.filter fun c => isFar c.1
    lineTags := s.lineTags.filter fun t => isFar (128 * t.line)
    seed := s.seed
    minVersion := s.minVersion
    fwArea := s.fwArea
    counters := s.counters
    responses := s.responses }

/-- COLD_RESET: power-up; the secure nonvolatile store alone is kept (R434). -/
def execColdReset (s : State) : Result := .next (resetFrom s)

/-- A partition's record after a warm reset: one that is ACTIVE, SCRUBPEND or SCRUBBING is SCRUBPEND and keeps its
maps (R407). -/
def Partition.warm (p : Partition) : Partition :=
  if p.stateOf = 0 then Partition.free else { p.withState 2 with halted := true }

/-- The boot ROM starts the scrub engine on every partition in SCRUBPEND (R435). -/
def startScrubs (s : State) : State := (List.range 48).foldl beginScrub s

/-- A warm reset (R434, R435): arrays stand until their scrub clears them, and HBM4E and the LP6 tier keep their cells, which
no reset clears (R445); dirty lines of the LLC, which is not among what is kept, are lost. -/
def warmReset (s : State) : State :=
  let s := llcDiscardIf s fun _ => true
  startScrubs
    { resetFrom s with
      powerUps := s.powerUps
      parts := s.parts.map Partition.warm
      arrays := s.arrays.map fun a => { a with busy := false }
      mem := s.mem
      lineTags := s.lineTags
      blackBox := s.blackBox
      sseqs := s.sseqs }

/-- WARM_RESET (R434). -/
def execWarmReset (s : State) : Result := .next (warmReset s)

/-- POWER_LOSS: nothing acts until the next power-up; counters keep their values (R418). -/
def execPowerLoss (s : State) : Result := .next { s with powered := false }

/-! ## Firmware (R435 to R437) -/

/-- A measurement register extended with a digest (R437). -/
def extendMeas (s : State) (i : Nat) (d : List Byte) : State :=
  if h : i < 8 then
    let m := sha256 (toBytes 32 (s.meas.get ⟨i, h⟩).toNat ++ d)
    { s with meas := s.meas.set i (BitVec.ofNat 256 (ofBytes m)) }
  else s

/-- Extend registers with a list of digests, from one on. -/
def extendAll (s : State) : Nat → List (List Byte) → State
  | _, [] => s
  | i, d :: ds => extendAll (extendMeas s i d) (i + 1) ds

/-- The refusal of an image: 1 MAGIC or LENGTH wrong, 2 signature failed, 3 version too low (R436). -/
def imageRefusal (s : State) (b : List Byte) : Option Nat :=
  let n := b.length
  if fieldOf b 0 4 ≠ 0x31574653 || fieldOf b 8 8 ≠ n || 2 ^ 24 < n || n < 128 then some 1
  else if !ecdsaOk Config.firmwareKeyX Config.firmwareKeyY (b.drop (n - 64)) (sha256 (b.take (n - 64))) then some 2
  else if fieldOf b 4 4 < s.minVersion.toNat then some 3
  else none

/-- The digests that the registers of an accepted image are extended with, MEAS1 first (R437). -/
def imageDigests (s : State) (b : List Byte) : List (List Byte) :=
  [toBytes 32 Config.bootRomDigest.toNat, sha256 (b.take (b.length - 64)),
   sha256 (sliceOf b 4 4 ++ toBytes 4 s.minVersion.toNat)] ++
  ((Config.firmwareStages b).take 5).map fun d => toBytes 32 d.toNat

/-- The verdict of the boot ROM on an image that it has checked: it refuses it, or measures it and runs it (R435 to R437). -/
def imageVerdict (b : List Byte) (s : State) : State :=
  match imageRefusal s b with
  | some e => { s with bstatErr := e, bstatStage := 3 }
  | none =>
    let s := extendAll s 0 (imageDigests s b)
    { s with bstatStage := 2, fwVersion := BitVec.ofNat 32 (fieldOf b 4 4) }

/-- FIRMWARE_IMAGE: the boot ROM, while it waits, takes an image and checks it, and as the event goes on gives its verdict (R435,
R436).  Once firmware runs there is no request that takes an image. -/
def execFirmwareImage (b : List Byte) (s : State) : Result :=
  if s.bstatStage = 2 then .next s
  else
    inService (.firmwareImage b) (fun s =>
      if s.bstatStage = 1 then .done (imageVerdict b s) else .wait { s with bstatStage := 1 }) s

/-- BSTAT (R436). -/
def bstatOf (s : State) : Word := BitVec.ofNat 64 (s.bstatErr * 256 + s.bstatStage)

/-- The host reads BSTAT (R436). -/
def readBstat (s : State) : State := { s with responses := s.responses ++ [.bstat (bstatOf s)] }

/-- The firmware writes its own area of the nonvolatile store: the lowest version that the boot ROM accepts, and its own records
(R417). -/
def firmwareWrites (s : State) (lowest : Option (BitVec 32)) (off : Nat) (bytes : List Byte) : State :=
  if s.bstatStage ≠ 2 || 32736 < off + bytes.length then s
  else
    { s with
      minVersion := lowest.getD s.minVersion
      fwArea := bytes.zipIdx.foldl (fun m x => upsert (fun e => e.1 == off + x.2) (off + x.2, x.1) m) s.fwArea }

end Sys2Proof.Machine
end

