-- ==== Sys2Proof/Machine/Management.lean ====
section
/-! DEFINITION. The requests that the management core serves (R112, R369, R375, R404 to R407, R412, R414, R421, R426,
R432, R438 to R443). -/

namespace Sys2Proof.Machine

/-- A request is carried out. -/
def acceptRequest (s : State) (code : Nat) : State := { s with responses := s.responses ++ [.accepted code] }

/-- A request that is answered at once, where no other is in service (R431). -/
def atOnce (f : State → State) (s : State) : Result := if s.serving.isSome then .next s else .next (f s)

/-- A request is served once the firmware is READY, and where its own condition holds; else it is refused and changes
nothing (R438). -/
def serve (code : Nat) (ok : Bool) (f : State → State) (s : State) : Result :=
  atOnce (fun s => if s.bstatStage = 2 && ok then acceptRequest (f s) code else refuseRequest s code) s

/-- A request that reads the records of some rings: it waits while one of their pages must; where it is refused, it has
changed nothing (R73, R82, R369, R431, R438). -/
def serveRings (i : Instr) (code : Nat) (rings : List Queue) (ok : State → Bool) (f : State → State) (s : State) : Result :=
  inService i (fun s =>
    if s.bstatStage = 2 then
      match holdRings s rings with
      | (t, false) => .wait t
      | (t, true) => .done (if ok t then acceptRequest (f t) code else refuseRequest s code)
    else .done (refuseRequest s code)) s

/-- Bits that must be written zero are zero. -/
def zeroBits (w mask : Word) : Bool := w &&& mask == 0

/-! ## 0x01: partitions (R404, R405, R414) -/

/-- The bits of PCTL and CTXTAB that must be written zero (R404). -/
def pctlReserved : Word := BitVec.ofNat 64 (0x3F * 2 ^ 52 + 0xFF)
def ctxtabReserved : Word := BitVec.ofNat 64 (0xF * 2 ^ 60 + 0x7F)

/-- The record that a request makes, STATE ACTIVE. -/
def createRecord (r : CreateReq) : Partition :=
  { Partition.free with
    pctl := r.pctl, ctxtab := r.ctxtab, tiles := r.tiles, quads := r.quads, seqs := r.seqs, llcWays := r.llcWays,
    pchs := r.pchs, lp6 := r.lp6, keys := r.keys, ctrs := r.ctrs, buckets := r.buckets }

/-- Whether two maps have a bit in common. -/
def mapsMeet {w : Nat} (a b : BitVec w) : Bool := a &&& b != 0

/-- Whether a new record names something that another partition holds (R405). -/
def recordsMeet (a b : Partition) : Bool :=
  (a.dieOf == b.dieOf && (mapsMeet a.tiles b.tiles || mapsMeet a.quads b.quads || mapsMeet a.seqs b.seqs)) ||
  mapsMeet a.llcWays b.llcWays || mapsMeet a.pchs b.pchs || mapsMeet a.lp6 b.lp6 || mapsMeet a.keys b.keys ||
  mapsMeet a.ctrs b.ctrs || (a.ctxBase ≤ b.ctxLast && b.ctxBase ≤ a.ctxLast) || a.buckets.any b.buckets.contains

/-- The overflow arrays of a record (R404). -/
def overflowArrays (p : Partition) : List ArrayRef :=
  (List.range (bits p.pctl 13 8 + 1)).map fun i =>
    { die := p.dieOf, slice := bits p.pctl 27 24, index := bits p.pctl 23 14 + i }

/-- Whether a record keeps to R404. -/
def recordFormed (p : Partition) : Bool :=
  bit p.pctl 63 && zeroBits p.pctl pctlReserved && zeroBits p.ctxtab ctxtabReserved && p.ctxBase ≤ p.ctxLast &&
  bits p.pctl 23 14 + bits p.pctl 13 8 ≤ 1023 && isDram p.tablePa && p.keys.getLsbD p.tkey

/-- The partitions in a state other than FREE. -/
def heldParts (s : State) : List Partition := s.parts.toList.filter fun p => p.stateOf != 0

/-- Whether a partition may be created (R405). -/
def createOk (s : State) (r : CreateReq) : Bool :=
  let p := (createRecord r)
  decide (r.part < 48) && (partOf s r.part).stateOf == 0 && recordFormed p && !((heldParts s).any (recordsMeet p)) &&
  ((heldParts s).countP fun x => x.dieOf == p.dieOf) < 12 && (overflowArrays p).all (ownsArray p) &&
  p.buckets.all fun b => b < 256

/-- A partition is created: its overflow arrays become SCRATCH, its record is written, its arrays have their owner
(R86, R405). -/
def createPart (r : CreateReq) (s : State) : State :=
  let p := (createRecord r).withState 1
  let ovf := overflowArrays p
  let own := (partArrays p).map fun a =>
    { ref := a, owner := r.part, mode := if ovf.contains a then .scratch else .off, busy := false, fromMode := .off,
      sched := 0 : ArrayState }
  let s := clearArrays s p
  setPart { s with arrays := s.arrays ++ own } r.part fun _ => p

/-- PARTITION_CREATE. -/
def execPartitionCreate (r : CreateReq) (s : State) : Result := serve 0x01 (createOk s r) (createPart r) s

/-- PARTITION_DESTROY: the management core begins the scrub of a partition that is SCRUBPEND, as one is after containment; an ACTIVE
one leaves that state by SCRUB or by containment alone (R407, R414). -/
def execPartitionDestroy (part : Nat) (s : State) : Result :=
  serve 0x01 ((partOf s part).stateOf == 2) (fun s => beginScrub s part) s

/-! ## 0x02: keys (R412) -/

/-- The key that a host has wrapped, where the tag holds (R412). -/
def unwrapKey (s : State) (w : WrappedKey) : Option KeyMat :=
  match ecdh (Config.sealKey s.seed) w.epub with
  | none => none
  | some z =>
    let k := Config.keyLoadKek z w.epub
    if w.wrapped.length = 64 && gcmTagOf k.1 k.2 [] w.wrapped == w.tag then
      some (BitVec.ofNat 512 (ofBytes (gcmCrypt k.1 k.2 w.wrapped)))
    else none

/-- Whether the two halves of a key differ. -/
def halvesDiffer (key : KeyMat) : Bool := key.extractLsb' 0 256 != key.extractLsb' 256 256

/-- KEY_LOAD: a slot of an ACTIVE partition's map, in any state; a key that does not unwrap and one of two equal halves are
refused. -/
def execKeyLoad (slot part : Nat) (w : WrappedKey) (s : State) : Result :=
  let p := partOf s part
  let key := unwrapKey s w
  serve 0x02 (decide (slot < 4096) && p.stateOf == 1 && p.keys.getLsbD slot && key.any halvesDiffer)
    (fun s => setKey s slot .loaded (key.getD 0)) s

/-! ## 0x03: buckets, queues, admission (R112, R369, R375) -/

/-- The bits of a bucket entry that must be written zero. -/
def bucketReserved : Word := BitVec.ofNat 64 (0x7FFF * 2 ^ 48 + 0x3FF * 2 ^ 6)

/-- The sum of the enabled RATEs with an entry changed. -/
def rateSum (s : State) (i : Nat) (v : Word) : Nat :=
  ((upsert (fun e => e.1 == i) (i, v) s.bucketEntries).map fun e => if bkEn e.2 then bkRate e.2 else 0).sum

/-- BUCKET_WRITE (R112): its fields keep to their limits, and the enabled rates to theirs. -/
def execBucketWrite (i : Nat) (v : Word) (s : State) : Result :=
  serve 0x03 (decide (i < 256) && zeroBits v bucketReserved && bkRate v ≤ 16384 && (!bkEn v || 1 ≤ bkDepth v) &&
      rateSum s i v ≤ 16384)
    (fun s => { s with
      bucketEntries := upsert (fun e => e.1 == i) (i, v) s.bucketEntries
      buckets := mapIf (fun b => b.index == i) (fun b => { b with tokens := min b.tokens (64 * bkDepth v) }) s.buckets }) s

/-- The bits of QBASE and QCTL that must be written zero. -/
def qbaseReserved : Word := BitVec.ofNat 64 (0xFFF * 2 ^ 52 + 0x7F)
def qctlReserved : Word := BitVec.ofNat 64 ((2 ^ 40 - 1) * 2 ^ 12)

/-- Whether a value may be written to a queue's register: no record of it is QUEUED or RUNNING, as far as its ring can be
read (R369). -/
def queueWriteOk (s : State) (part q : Nat) (ctl : Bool) (v : Word) : Bool :=
  let x := queueOf s part q
  decide (part < 48) && decide (q < 16) && !(x.valid && anyRecord s [x] 2) &&
  if ctl then
    zeroBits v qctlReserved && (!bit v 63 || (4 ≤ bits v 62 58 && bits v 62 58 ≤ 20 && (partOf s part).hasCtx (bits v 11 0)))
  else zeroBits v qbaseReserved

/-- QUEUE_REGISTER_WRITE (R369): a write of QCTL clears ERR; the indices start at 0 where a ring comes into use. -/
def execQueueRegisterWrite (part q : Nat) (ctl : Bool) (v : Word) (s : State) : Result :=
  serveRings (.queueRegisterWrite part q ctl v) 0x03 (partRings s part fun x => x.q == q) (fun s => queueWriteOk s part q ctl v)
    (fun s =>
      let x := queueOf s part q
      let s := { s with tailWatch := s.tailWatch.filter fun w => (w.part == part && w.q == q) == false }
      if ctl then
        let y := { x with qctl := v &&& ~~~(1#64 <<< 56), stop := none }
        setQueue s (if x.valid then y else { y with head := 0, tail := 0 })
      else setQueue s { x with qbase := v, head := 0, tail := 0, stop := none }) s

/-- ADMISSION_REGISTER_WRITE: a BLIM of 0 is refused (R375). -/
def execAdmissionRegisterWrite (part : Nat) (v : Word) (s : State) : Result :=
  serve 0x03 (decide (part < 48) && decide (1 ≤ v.toNat) && decide (v.toNat ≤ 255))
    (fun s => setPart s part fun p => { p with blim := v }) s

/-! ## 0x04 and 0x05: apertures and slices (R432, R439) -/

/-- The bits of an aperture entry that must be written zero. -/
def apertureReserved : Word := BitVec.ofNat 64 (0x7FFF * 2 ^ 48 + 0x3FFF * 2 ^ 12)

/-- APERTURE_WRITE: a valid entry names 4 GiB of HBM4E or the LP6 tier. -/
def execApertureWrite (i : Nat) (v : Word) (s : State) : Result :=
  serve 0x04 (decide (i < 256) && zeroBits v apertureReserved && (!apV v || isDram (apBase v)))
    (fun s => { s with apertures := upsert (fun e => e.1 == i) (i, v) s.apertures }) s

/-- SLICE_SET: one set during a cut takes effect at the next restore (R439). -/
def execSliceSet (ctx : BitVec 12) (cycles : Nat) (s : State) : Result :=
  serve 0x05 (partOfCtx s ctx).isSome
    (fun s =>
      if (cutOf s ctx).isSome then { s with slicePend := upsert (fun e => e.1 == ctx) (ctx, cycles) s.slicePend }
      else { s with slices := upsert (fun e => e.1 == ctx) (ctx, cycles) s.slices }) s

/-! ## 0x07: lends (R426) -/

/-- LEND_RELEASE: the entry ends and the context returns to SUSPENDED. -/
def execLendRelease (lendId : Word) (s : State) : Result :=
  let e := s.lends.find? fun l => l.lendId == lendId
  serve 0x07 e.isSome
    (fun s =>
      match e with
      | none => s
      | some l =>
        let s := { s with lends := s.lends.erase l }
        match partOfCtx s l.ctx with
        | some part => setCtxState s part l.ctx 2
        | none => s) s

/-! ## 0x08 and 0x09: SUMMARY and the black box (R440, R441) -/

/-- SCRPROG (R416). -/
def scrprogOf (p : Partition) : Word := p.scrTotal ++ p.scrDone

/-- An item of SUMMARY: its words in 64 bytes. -/
def summaryItem (ws : List Word) : List Byte := ((ws.flatMap fun (w : Word) => toBytes 8 w.toNat) ++ List.replicate 64 0).take 64

/-- PCTL and SCRPROG of every partition. -/
def partItems (s : State) : List (List Byte) := s.parts.toList.map fun p => summaryItem [p.pctl, scrprogOf p]

/-- QCTL, HEAD and TAIL of every queue. -/
def queueItems (s : State) : List (List Byte) :=
  (List.range 48).flatMap fun p => (List.range 16).map fun q =>
    let x := queueOf s p q
    summaryItem [x.qctl, BitVec.ofNat 64 x.head, BitVec.ofNat 64 x.tail]

/-- CCTL of every context of every partition. -/
def contextItems (s : State) : List (List Byte) :=
  (List.range 48).flatMap fun p =>
    let r := partOf s p
    if r.stateOf = 0 then []
    else (List.range (r.ctxLast + 1 - r.ctxBase)).map fun i => summaryItem [descWord s p (BitVec.ofNat 12 (r.ctxBase + i)) 0x20]

/-- The pending fabric records of every graph, FREC3 with each. -/
def recordItems (s : State) : List (List Byte) :=
  (s.graphs.filter fun g => !g.retired).flatMap fun g =>
    if g.recs.isEmpty then [summaryItem [frec3Of g 0]]
    else g.recs.mapIdx fun i r => summaryItem (r.words ++ [frec3Of g (g.recs.length - 1 - i)])

/-- The scrubs in progress. -/
def scrubItems (s : State) : List (List Byte) :=
  ((List.range 48).filter fun p => (partOf s p).stateOf == 3).map fun p => summaryItem [BitVec.ofNat 64 p, scrprogOf (partOf s p)]

/-- The value of every counter that a partition owns. -/
def counterItems (s : State) : List (List Byte) :=
  ((List.range 4096).filter fun i => (heldParts s).any fun p => p.ctrs.getLsbD i).map fun i =>
    summaryItem [BitVec.ofNat 64 i, counterOf s i]

/-- The sources of black-box events (R441). -/
def bbSources : List Nat :=
  [0] ++ (List.range 64).map (0x100 + ·) ++ (List.range 4).map (0x200 + ·) ++ (List.range 8).map (0x300 + ·) ++ [0x400]

/-- The highest SSEQ of a source. -/
def sseqOf (s : State) (src : Nat) : BitVec 32 := ((s.sseqs.find? fun e => e.1 == src).map Prod.snd).getD 0

/-- The highest SSEQ of every source. -/
def sourceItems (s : State) : List (List Byte) := bbSources.map fun x => summaryItem [BitVec.ofNat 64 x, (sseqOf s x).setWidth 64]

/-- The items of a section of SUMMARY as they stand (R440). -/
def sectionItems (s : State) (k : Nat) : List (List Byte) :=
  match k with
  | 0 => partItems s
  | 1 => queueItems s
  | 2 => contextItems s
  | 3 => recordItems s
  | 4 => scrubItems s
  | 5 => counterItems s
  | 6 => sourceItems s
  | _ => [summaryItem [BitVec.ofNat 64 s.powerLimit, BitVec.ofNat 64 s.trimmed]]

/-- SUMMARY reads its next item, goes on to the next section, or after the eighth answers (R440). -/
def summaryStep (s : State) : Service :=
  let done := if s.summary = [] then [[]] else s.summary
  let now := done.getLastD []
  match (sectionItems s (done.length - 1))[now.length]? with
  | some x => .wait { s with summary := done.dropLast ++ [now ++ [x]] }
  | none =>
    if done.length < 8 then .wait { s with summary := done ++ [[]] }
    else .done { s with summary := [], responses := s.responses ++ [.summary done] }

/-- A request that answers with something of its own. -/
def serveWith (code : Nat) (ok : Bool) (r : State → Response) (s : State) : Result :=
  atOnce (fun s => if s.bstatStage = 2 && ok then { s with responses := s.responses ++ [r s] } else refuseRequest s code) s

/-- SUMMARY reads the state of the package item by item and changes none of it (R440). -/
def execSummary (s : State) : Result :=
  inService .summary (fun s => if s.bstatStage = 2 then summaryStep s else .done (refuseRequest s 0x08)) s

/-- The 64 bytes of an event (R441). -/
def BlackBox.bytes (e : BlackBox) : List Byte :=
  toBytes 4 e.sseq.toNat ++ toBytes 2 e.src ++ toBytes 2 e.code ++ toBytes 1 e.part ++ [0] ++ toBytes 2 e.ctx ++ toBytes 4 0 ++
  toBytes 8 e.lcyc.toNat ++ ((e.args.flatMap fun (w : Word) => toBytes 8 w.toNat) ++ List.replicate 40 0).take 40

/-- BLACK_BOX_READ (R441). -/
def execBlackBoxRead (first count : Nat) (s : State) : Result :=
  serveWith 0x09 true (fun s => .events (((s.blackBox.drop first).take count).map BlackBox.bytes)) s

/-! ## 0x0A to 0x0C: power, warm reset, peer key reports (R421, R434, R443) -/

/-- POWER_LIMIT_SET: at most 3,600 W (R443). -/
def execPowerLimitSet (watts : Nat) (s : State) : Result :=
  serve 0x0A (decide (watts ≤ 3600)) (fun s => { s with powerLimit := watts }) s

/-- WARM_RESET_REQUEST (R434). -/
def execWarmResetRequest (s : State) : Result := serve 0x0B true warmReset s

/-- A peer key report for a counter (R421). -/
def pkrOf (s : State) (ctr : Nat) : List Byte :=
  let head :=
    toBytes 4 0x31524B50 ++ toBytes 2 ctr ++ toBytes 2 0 ++ toBytes 8 (counterOf s ctr).toNat ++ ownIdentity s ++
    sealPub s ++ fwMeas s
  head ++ ecdsaSign (Config.deviceKey s.seed) (randomScalar s.freeCtr) (sha256 head) ++ toBytes 48 0

/-- PEER_KEY_REPORT: for a counter of the requesting partition's CTRS map (R421). -/
def execPeerKeyReport (part ctr : Nat) (s : State) : Result :=
  atOnce (fun s =>
    if s.bstatStage = 2 && decide (ctr < 4096) && (partOf s part).ctrs.getLsbD ctr then
      { s with responses := s.responses ++ [.report (pkrOf s ctr)], freeCtr := s.freeCtr + 1 }
    else refuseRequest s 0x0C) s

/-- MANAGEMENT_REQUEST_REFUSED: a code that the table of R438 does not assign, or any before STAGE is 2. -/
def execManagementRequestRefused (code : Nat) (s : State) : Result :=
  atOnce (fun s => if s.bstatStage = 2 && decide (1 ≤ code) && decide (code ≤ 0x0D) then s else refuseRequest s code) s

end Sys2Proof.Machine
end

