-- ==== Sys2Proof/Machine/Spdm.lean ====
section
/-! DEFINITION. The SPDM subset that the management core answers (R420).  R420 gives the requests, what each answer
says and the two errors; the bytes of the messages are SPDM's own. -/

namespace Sys2Proof.Machine

/-- The code of a request: the second byte of an SPDM message. -/
def spdmCode (req : List Byte) : Nat := fieldOf req 1 1

/-- An answer enters the transcript that later signatures cover. -/
def spdmAnswer (s : State) (req : List Byte) (code : Nat) (body : List Byte) : State :=
  { s with responses := s.responses ++ [.spdm code body], spdmLog := s.spdmLog ++ req ++ body }

/-- ERROR with an error code; it enters no transcript. -/
def spdmError (s : State) (e : Nat) : State :=
  { s with responses := s.responses ++ [.spdm 0x7F [0x12, 0x7F, BitVec.ofNat 8 e, 0]] }

/-- ERROR UnsupportedRequest. -/
def spdmUnsupported (s : State) : State := spdmError s 0x07

/-- ERROR UnexpectedRequest (PRESUMED: SPDM's own code). -/
def spdmUnexpected (s : State) : State := spdmError s 0x04

/-- ERROR InvalidRequest (PRESUMED: SPDM's own code). -/
def spdmInvalid (s : State) : State := spdmError s 0x01

/-- The four bytes that begin an answer. -/
def spdmHead (code p1 p2 : Nat) : List Byte := [0x12, BitVec.ofNat 8 code, BitVec.ofNat 8 p1, BitVec.ofNat 8 p2]

/-- The signature by DK over the transcript so far and a message; a nonce of the random source. -/
def spdmSign (s : State) (msg : List Byte) : List Byte :=
  ecdsaSign (Config.deviceKey s.seed) (randomScalar s.freeCtr) (sha256 (s.spdmLog ++ msg))

/-- GET_VERSION begins the sequence: version 1.2 only. -/
def answerVersion (req : List Byte) (s : State) : State :=
  spdmAnswer { s with spdm := .version, spdmLog := [] } req 0x04 [0x10, 0x04, 0, 0, 0, 1, 0, 0x12]

/-- GET_CAPABILITIES: CERT_CAP, CHAL_CAP, and MEAS_CAP with signature. -/
def answerCapabilities (req : List Byte) (s : State) : State :=
  if s.spdm = .version then
    spdmAnswer { s with spdm := .capabilities } req 0x61
      (spdmHead 0x61 0 0 ++ toBytes 4 0 ++ toBytes 4 0x16 ++ toBytes 4 4096 ++ toBytes 4 4096)
  else spdmUnexpected s

/-- Whether a NEGOTIATE_ALGORITHMS request offers the device's algorithms: the DMTF measurement specification, ECDSA on P-256 and
SHA-256 (PRESUMED: the fields and bits of SPDM 1.2). -/
def spdmOffers (req : List Byte) : Bool :=
  32 ≤ req.length && fieldOf req 6 1 % 2 == 1 && fieldOf req 8 4 / 16 % 2 == 1 && fieldOf req 12 4 % 2 == 1

/-- NEGOTIATE_ALGORITHMS: ECDSA on P-256, SHA-256, the DMTF measurements with SHA-256, or ERROR. -/
def answerAlgorithms (req : List Byte) (s : State) : State :=
  if s.spdm != .capabilities then spdmUnexpected s
  else if spdmOffers req then
    spdmAnswer { s with spdm := .algorithms } req 0x63
      (spdmHead 0x63 0 0 ++ toBytes 2 36 ++ [1, 0] ++ toBytes 4 2 ++ toBytes 4 0x10 ++ toBytes 4 1 ++ toBytes 16 0)
  else spdmInvalid s

/-- GET_DIGESTS: slot 0 only. -/
def answerDigests (req : List Byte) (s : State) : State :=
  if s.spdm != .algorithms then spdmUnexpected s
  else spdmAnswer s req 0x01 (spdmHead 0x01 0 1 ++ sha256 Config.certificateChain)

/-- GET_CERTIFICATE: a portion of slot 0's chain, from an offset and of a length. -/
def answerCertificate (req : List Byte) (s : State) : State :=
  if s.spdm != .algorithms then spdmUnexpected s
  else if fieldOf req 2 1 % 16 ≠ 0 then spdmInvalid s
  else
    let rest := Config.certificateChain.drop (fieldOf req 4 2)
    let part := rest.take (min (fieldOf req 6 2) 4096)
    spdmAnswer s req 0x02 (spdmHead 0x02 0 0 ++ toBytes 2 part.length ++ toBytes 2 (rest.length - part.length) ++ part)

/-- CHALLENGE: signed by DK; the answer names slot 0, a nonce and the summary of the measurements. -/
def answerChallenge (req : List Byte) (s : State) : State :=
  if s.spdm != .algorithms then spdmUnexpected s
  else if fieldOf req 2 1 ≠ 0 then spdmInvalid s
  else
    let nonce := toBytes 32 (Config.randomBits (s.freeCtr + 1)).toNat
    let body := spdmHead 0x03 0 1 ++ sha256 Config.certificateChain ++ nonce ++ sha256 (measBytes s) ++ toBytes 2 0
    let s2 := { s with freeCtr := s.freeCtr + 2 }
    spdmAnswer s2 req 0x03 (body ++ spdmSign s (req ++ body))

/-- The block of a measurement index: a SHA-256 digest under the DMTF specification. -/
def measBlock (s : State) (i : Nat) : List Byte :=
  [BitVec.ofNat 8 i, 1] ++ toBytes 2 35 ++ [0] ++ toBytes 2 32 ++ sliceOf (measBytes s) (32 * (i - 1)) 32

/-- GET_MEASUREMENTS: the number of them for index 0, one of 1 to 8, or all for 0xFF; signed by DK when asked. -/
def answerMeasurements (req : List Byte) (s : State) : State :=
  let i := fieldOf req 3 1
  if s.spdm != .algorithms then spdmUnexpected s
  else if 8 < i && i ≠ 0xFF then spdmInvalid s
  else
    let ids := if i = 0 then [] else if i = 0xFF then List.range' 1 8 else [i]
    let blocks := ids.flatMap (measBlock s)
    let nonce := toBytes 32 (Config.randomBits (s.freeCtr + 1)).toNat
    let body := spdmHead 0x60 (if i = 0 then 8 else 0) 0 ++ toBytes 1 ids.length ++ toBytes 3 blocks.length ++ blocks ++ nonce ++ toBytes 2 0
    let s2 := { s with freeCtr := s.freeCtr + 2 }
    spdmAnswer s2 req 0x60 (if fieldOf req 2 1 % 2 = 1 then body ++ spdmSign s (req ++ body) else body)

/-- The answer to a request, by its code (R420). -/
def spdmServe (req : List Byte) (s : State) : State :=
  match spdmCode req with
  | 0x84 => answerVersion req s
  | 0xE1 => answerCapabilities req s
  | 0xE3 => answerAlgorithms req s
  | 0x81 => answerDigests req s
  | 0x82 => answerCertificate req s
  | 0x83 => answerChallenge req s
  | 0xE0 => answerMeasurements req s
  | _ => spdmUnsupported s

/-- Request 0x0D carries one SPDM request (R420, R438). -/
def carried (f : State → State) (s : State) : Result :=
  atOnce (fun s => if s.bstatStage = 2 then f s else refuseRequest s 0x0D) s

/-- SPDM_CARRY. -/
def execSpdmCarry (req : List Byte) (s : State) : Result := carried (spdmServe req) s

/-- GET_VERSION (R420). -/
def execGetVersion (req : List Byte) (s : State) : Result := carried (answerVersion req) s

/-- GET_CAPABILITIES (R420). -/
def execGetCapabilities (req : List Byte) (s : State) : Result := carried (answerCapabilities req) s

/-- NEGOTIATE_ALGORITHMS (R420). -/
def execNegotiateAlgorithms (req : List Byte) (s : State) : Result := carried (answerAlgorithms req) s

/-- GET_DIGESTS (R420). -/
def execGetDigests (req : List Byte) (s : State) : Result := carried (answerDigests req) s

/-- GET_CERTIFICATE (R420). -/
def execGetCertificate (req : List Byte) (s : State) : Result := carried (answerCertificate req) s

/-- CHALLENGE (R420). -/
def execChallenge (req : List Byte) (s : State) : Result := carried (answerChallenge req) s

/-- GET_MEASUREMENTS (R420). -/
def execGetMeasurements (req : List Byte) (s : State) : Result := carried (answerMeasurements req) s

/-- SPDM_UNSUPPORTED_REQUEST: any other request, or one out of the sequence (R420). -/
def execSpdmUnsupportedRequest (req : List Byte) (s : State) : Result :=
  carried (fun s =>
    if [0x84, 0xE1, 0xE3, 0x81, 0x82, 0x83, 0xE0].contains (spdmCode req) then spdmServe req s else spdmUnsupported s) s

end Sys2Proof.Machine
end

