-- ==== Sys2Proof/Machine/Dispatch.lean ====
section
/-! DEFINITION. One arm for each instruction and event: the call of its meaning. -/

namespace Sys2Proof.Machine

/-- What an instruction does. -/
def exec (i : Instr) (s : State) : Host.Outcome State Fault Refusal :=
  match i with
  | .add d a b => Sys2Proof.Machine.execAdd d a b s
  | .sub d a b => Sys2Proof.Machine.execSub d a b s
  | .mul d a b => Sys2Proof.Machine.execMul d a b s
  | .mulh d a b => Sys2Proof.Machine.execMulh d a b s
  | .mulhu d a b => Sys2Proof.Machine.execMulhu d a b s
  | .div d a b => Sys2Proof.Machine.execDiv d a b s
  | .divu d a b => Sys2Proof.Machine.execDivu d a b s
  | .rem d a b => Sys2Proof.Machine.execRem d a b s
  | .remu d a b => Sys2Proof.Machine.execRemu d a b s
  | .and d a b => Sys2Proof.Machine.execAnd d a b s
  | .or d a b => Sys2Proof.Machine.execOr d a b s
  | .xor d a b => Sys2Proof.Machine.execXor d a b s
  | .shl d a b => Sys2Proof.Machine.execShl d a b s
  | .shr d a b => Sys2Proof.Machine.execShr d a b s
  | .sra d a b => Sys2Proof.Machine.execSra d a b s
  | .min d a b => Sys2Proof.Machine.execMin d a b s
  | .max d a b => Sys2Proof.Machine.execMax d a b s
  | .minu d a b => Sys2Proof.Machine.execMinu d a b s
  | .maxu d a b => Sys2Proof.Machine.execMaxu d a b s
  | .clz d a => Sys2Proof.Machine.execClz d a s
  | .popc d a => Sys2Proof.Machine.execPopc d a s
  | .sel d a b p => Sys2Proof.Machine.execSel d a b p s
  | .mov d a => Sys2Proof.Machine.execMov d a s
  | .addi d a imm => Sys2Proof.Machine.execAddi d a imm s
  | .andi d a imm => Sys2Proof.Machine.execAndi d a imm s
  | .ori d a imm => Sys2Proof.Machine.execOri d a imm s
  | .xori d a imm => Sys2Proof.Machine.execXori d a imm s
  | .shli d a imm => Sys2Proof.Machine.execShli d a imm s
  | .shri d a imm => Sys2Proof.Machine.execShri d a imm s
  | .srai d a imm => Sys2Proof.Machine.execSrai d a imm s
  | .cmpeqi d a imm => Sys2Proof.Machine.execCmpeqi d a imm s
  | .cmpnei d a imm => Sys2Proof.Machine.execCmpnei d a imm s
  | .cmplti d a imm => Sys2Proof.Machine.execCmplti d a imm s
  | .cmpgei d a imm => Sys2Proof.Machine.execCmpgei d a imm s
  | .liShort d imm => Sys2Proof.Machine.execLiShort d imm s
  | .liLong d imm => Sys2Proof.Machine.execLiLong d imm s
  | .lih d imm => Sys2Proof.Machine.execLih d imm s
  | .cmpeq d a b => Sys2Proof.Machine.execCmpeq d a b s
  | .cmpne d a b => Sys2Proof.Machine.execCmpne d a b s
  | .cmplt d a b => Sys2Proof.Machine.execCmplt d a b s
  | .cmpge d a b => Sys2Proof.Machine.execCmpge d a b s
  | .cmpltu d a b => Sys2Proof.Machine.execCmpltu d a b s
  | .cmpgeu d a b => Sys2Proof.Machine.execCmpgeu d a b s
  | .pand d a b => Sys2Proof.Machine.execPand d a b s
  | .por d a b => Sys2Proof.Machine.execPor d a b s
  | .pnot d a => Sys2Proof.Machine.execPnot d a s
  | .b o => Sys2Proof.Machine.execB o s
  | .bc p n o => Sys2Proof.Machine.execBc p n o s
  | .call o => Sys2Proof.Machine.execCall o s
  | .ret => Sys2Proof.Machine.execRet s
  | .jr a => Sys2Proof.Machine.execJr a s
  | .loop d imm => Sys2Proof.Machine.execLoop d imm s
  | .ldsShort w d a imm => Sys2Proof.Machine.execLdsShort w d a imm s
  | .ldsLong w d a os off => Sys2Proof.Machine.execLdsLong w d a os off s
  | .stsShort w d a imm => Sys2Proof.Machine.execStsShort w d a imm s
  | .stsLong w d a os off => Sys2Proof.Machine.execStsLong w d a os off s
  | .amoadd d a b os => Sys2Proof.Machine.execAmoadd d a b os s
  | .amomin d a b os => Sys2Proof.Machine.execAmomin d a b os s
  | .amomax d a b os => Sys2Proof.Machine.execAmomax d a b os s
  | .amoand d a b os => Sys2Proof.Machine.execAmoand d a b os s
  | .amoor d a b os => Sys2Proof.Machine.execAmoor d a b os s
  | .amoxor d a b os => Sys2Proof.Machine.execAmoxor d a b os s
  | .amoswap d a b os => Sys2Proof.Machine.execAmoswap d a b os s
  | .amocas d a b os => Sys2Proof.Machine.execAmocas d a b os s
  | .amaxrs d a os => Sys2Proof.Machine.execAmaxrs d a os s
  | .fence os => Sys2Proof.Machine.execFence os s
  | .cclean a b => Sys2Proof.Machine.execCclean a b s
  | .cinval a b => Sys2Proof.Machine.execCinval a b s
  | .cflush a b => Sys2Proof.Machine.execCflush a b s
  | .cpref a b => Sys2Proof.Machine.execCpref a b s
  | .aconv a m => Sys2Proof.Machine.execAconv a m s
  | .aquery d a => Sys2Proof.Machine.execAquery d a s
  | .wany d a => Sys2Proof.Machine.execWany d a s
  | .wall d a => Sys2Proof.Machine.execWall d a s
  | .cffr d a => Sys2Proof.Machine.execCffr d a s
  | .ctagclr a => Sys2Proof.Machine.execCtagclr a s
  | .waitc l x c t => Sys2Proof.Machine.execWaitc l x c t s
  | .strmend d a x => Sys2Proof.Machine.execStrmend d a x s
  | .join d a b => Sys2Proof.Machine.execJoin d a b s
  | .cont a b => Sys2Proof.Machine.execCont a b s
  | .endU => Sys2Proof.Machine.execEndU s
  | .cancel d a l => Sys2Proof.Machine.execCancel d a l s
  | .cdone d a w l => Sys2Proof.Machine.execCdone d a w l s
  | .bar d a => Sys2Proof.Machine.execBar d a s
  | .barc a b => Sys2Proof.Machine.execBarc a b s
  | .recfg d a b r => Sys2Proof.Machine.execRecfg d a b r s
  | .loadcfg d a b => Sys2Proof.Machine.execLoadcfg d a b s
  | .tdef d a b => Sys2Proof.Machine.execTdef d a b s
  | .tscale d a b => Sys2Proof.Machine.execTscale d a b s
  | .tread d a b => Sys2Proof.Machine.execTread d a b s
  | .trap imm => Sys2Proof.Machine.execTrap imm s
  | .eret => Sys2Proof.Machine.execEret s
  | .csrr d c => Sys2Proof.Machine.execCsrr d c s
  | .csrw a c => Sys2Proof.Machine.execCsrw a c s
  | .mark d k => Sys2Proof.Machine.execMark d k s
  | .seal d a b m => Sys2Proof.Machine.execSeal d a b m s
  | .unseal d a b => Sys2Proof.Machine.execUnseal d a b s
  | .keyz d a => Sys2Proof.Machine.execKeyz d a s
  | .scrub d => Sys2Proof.Machine.execScrub d s
  | .ctrinc d a r => Sys2Proof.Machine.execCtrinc d a r s
  | .copy d a b tag => Sys2Proof.Machine.execCopy d a b tag s
  | .copyx d a b f pl => Sys2Proof.Machine.execCopyx d a b f pl s
  | .copyg d a b f pl => Sys2Proof.Machine.execCopyg d a b f pl s
  | .bdot d a b pl => Sys2Proof.Machine.execBdot d a b pl s
  | .strm d a b pl => Sys2Proof.Machine.execStrm d a b pl s
  | .strm2 d a b f pl => Sys2Proof.Machine.execStrm2 d a b f pl s
  | .spawn d a b f pl => Sys2Proof.Machine.execSpawn d a b f pl s
  | .xlinvWrite a => Sys2Proof.Machine.execXlinvWrite a s
  | .radepthWrite a => Sys2Proof.Machine.execRadepthWrite a s
  | .iadd e => Sys2Proof.Machine.execIadd e s
  | .isub e => Sys2Proof.Machine.execIsub e s
  | .imul e => Sys2Proof.Machine.execImul e s
  | .imulh e => Sys2Proof.Machine.execImulh e s
  | .imac e => Sys2Proof.Machine.execImac e s
  | .imin e => Sys2Proof.Machine.execImin e s
  | .imax e => Sys2Proof.Machine.execImax e s
  | .iabs e => Sys2Proof.Machine.execIabs e s
  | .iand e => Sys2Proof.Machine.execIand e s
  | .ior e => Sys2Proof.Machine.execIor e s
  | .ixor e => Sys2Proof.Machine.execIxor e s
  | .inot e => Sys2Proof.Machine.execInot e s
  | .ishl e => Sys2Proof.Machine.execIshl e s
  | .ishr e => Sys2Proof.Machine.execIshr e s
  | .iclz e => Sys2Proof.Machine.execIclz e s
  | .ipopc e => Sys2Proof.Machine.execIpopc e s
  | .icmp e => Sys2Proof.Machine.execIcmp e s
  | .fadd e => Sys2Proof.Machine.execFadd e s
  | .fsub e => Sys2Proof.Machine.execFsub e s
  | .fmul e => Sys2Proof.Machine.execFmul e s
  | .ffma e => Sys2Proof.Machine.execFfma e s
  | .fmin e => Sys2Proof.Machine.execFmin e s
  | .fmax e => Sys2Proof.Machine.execFmax e s
  | .fabs e => Sys2Proof.Machine.execFabs e s
  | .fneg e => Sys2Proof.Machine.execFneg e s
  | .fcmp e => Sys2Proof.Machine.execFcmp e s
  | .fclamp e => Sys2Proof.Machine.execFclamp e s
  | .frcp e => Sys2Proof.Machine.execFrcp e s
  | .frsq e => Sys2Proof.Machine.execFrsq e s
  | .fexp2 e => Sys2Proof.Machine.execFexp2 e s
  | .flog2 e => Sys2Proof.Machine.execFlog2 e s
  | .vred e => Sys2Proof.Machine.execVred e s
  | .vperm e => Sys2Proof.Machine.execVperm e s
  | .vbcast e => Sys2Proof.Machine.execVbcast e s
  | .vsel e => Sys2Proof.Machine.execVsel e s
  | .vext e => Sys2Proof.Machine.execVext e s
  | .vins e => Sys2Proof.Machine.execVins e s
  | .vshuf e => Sys2Proof.Machine.execVshuf e s
  | .steer e => Sys2Proof.Machine.execSteer e s
  | .steerc e => Sys2Proof.Machine.execSteerc e s
  | .merge e => Sys2Proof.Machine.execMerge e s
  | .wadv e => Sys2Proof.Machine.execWadv e s
  | .gate e => Sys2Proof.Machine.execGate e s
  | .sync e => Sys2Proof.Machine.execSync e s
  | .dup e => Sys2Proof.Machine.execDup e s
  | .const e => Sys2Proof.Machine.execConst e s
  | .sink e => Sys2Proof.Machine.execSink e s
  | .tagget e => Sys2Proof.Machine.execTagget e s
  | .tagset e => Sys2Proof.Machine.execTagset e s
  | .blkx e => Sys2Proof.Machine.execBlkx e s
  | .lde e => Sys2Proof.Machine.execLde e s
  | .ste e => Sys2Proof.Machine.execSte e s
  | .ldx e => Sys2Proof.Machine.execLdx e s
  | .stx e => Sys2Proof.Machine.execStx e s
  | .amoe e => Sys2Proof.Machine.execAmoe e s
  | .fencee e => Sys2Proof.Machine.execFencee e s
  | .cvt e => Sys2Proof.Machine.execCvt e s
  | .cvts e => Sys2Proof.Machine.execCvts e s
  | .qnt e => Sys2Proof.Machine.execQnt e s
  | .mma e => Sys2Proof.Machine.execMma e s
  | .tload e => Sys2Proof.Machine.execTload e s
  | .tstore e => Sys2Proof.Machine.execTstore e s
  | .tzero e => Sys2Proof.Machine.execTzero e s
  | .tbound e => Sys2Proof.Machine.execTbound e s
  | .tcvt e => Sys2Proof.Machine.execTcvt e s
  | .ceval e => Sys2Proof.Machine.execCeval e s
  | .csched e => Sys2Proof.Machine.execCsched e s
  | .cloadctx e => Sys2Proof.Machine.execCloadctx e s
  | .csavectx e => Sys2Proof.Machine.execCsavectx e s
  | .cstate e => Sys2Proof.Machine.execCstate e s
  | .nop => Sys2Proof.Machine.execNop s
  | .trape e => Sys2Proof.Machine.execTrape e s
  | .tokenArrival src dst => Sys2Proof.Machine.execTokenArrival src dst s
  | .wadvGrant node slot key => Sys2Proof.Machine.execWadvGrant node slot key s
  | .blockCommit b => Sys2Proof.Machine.execBlockCommit b s
  | .streamReadReturn x => Sys2Proof.Machine.execStreamReadReturn x s
  | .reconfPass ctx handle => Sys2Proof.Machine.execReconfPass ctx handle s
  | .pageWalk die => Sys2Proof.Machine.execPageWalk die s
  | .cowCopyDone ctx page => Sys2Proof.Machine.execCowCopyDone ctx page s
  | .cwPoolRefill ctx page => Sys2Proof.Machine.execCwPoolRefill ctx page s
  | .cwemptyDelivery ctx page => Sys2Proof.Machine.execCwemptyDelivery ctx page s
  | .remotePullComplete ctx page r => Sys2Proof.Machine.execRemotePullComplete ctx page r s
  | .remotePullFail ctx page => Sys2Proof.Machine.execRemotePullFail ctx page s
  | .pullRequest r => Sys2Proof.Machine.execPullRequest r s
  | .xlinvComplete q => Sys2Proof.Machine.execXlinvComplete q s
  | .aconvComplete r => Sys2Proof.Machine.execAconvComplete r s
  | .copyComplete q tag => Sys2Proof.Machine.execCopyComplete q tag s
  | .refreshDue pch bankGroup bank => Sys2Proof.Machine.execRefreshDue pch bankGroup bank s
  | .pchPowerDownRequest pch => Sys2Proof.Machine.execPchPowerDownRequest pch s
  | .deferralExpiry pch => Sys2Proof.Machine.execDeferralExpiry pch s
  | .pchWake pch => Sys2Proof.Machine.execPchWake pch s
  | .powerTrim watts => Sys2Proof.Machine.execPowerTrim watts s
  | .waggleToken => Sys2Proof.Machine.execWaggleToken s
  | .queueTailUpdate part q => Sys2Proof.Machine.execQueueTailUpdate part q s
  | .recordPop q => Sys2Proof.Machine.execRecordPop q s
  | .admissionArbitrate part => Sys2Proof.Machine.execAdmissionArbitrate part s
  | .barrierWatchdog ctx bar => Sys2Proof.Machine.execBarrierWatchdog ctx bar s
  | .faultRecordArrival ctx handle => Sys2Proof.Machine.execFaultRecordArrival ctx handle s
  | .fabricTrap ctx handle => Sys2Proof.Machine.execFabricTrap ctx handle s
  | .subgraphSeal ctx handle => Sys2Proof.Machine.execSubgraphSeal ctx handle s
  | .uncorrectableError part => Sys2Proof.Machine.execUncorrectableError part s
  | .llcTagParityError base set => Sys2Proof.Machine.execLlcTagParityError base set s
  | .sliceExpiry ctx => Sys2Proof.Machine.execSliceExpiry ctx s
  | .cutComplete ctx => Sys2Proof.Machine.execCutComplete ctx s
  | .scrubBegin part => Sys2Proof.Machine.execScrubBegin part s
  | .scrubComplete part => Sys2Proof.Machine.execScrubComplete part s
  | .hostRead addr len => Sys2Proof.Machine.execHostRead addr len s
  | .hostWrite addr bytes => Sys2Proof.Machine.execHostWrite addr bytes s
  | .linkRetrain up => Sys2Proof.Machine.execLinkRetrain up s
  | .coldReset => Sys2Proof.Machine.execColdReset s
  | .warmReset => Sys2Proof.Machine.execWarmReset s
  | .firmwareImage bytes => Sys2Proof.Machine.execFirmwareImage bytes s
  | .partitionCreate r => Sys2Proof.Machine.execPartitionCreate r s
  | .partitionDestroy part => Sys2Proof.Machine.execPartitionDestroy part s
  | .keyLoad slot part key => Sys2Proof.Machine.execKeyLoad slot part key s
  | .bucketWrite imm v => Sys2Proof.Machine.execBucketWrite imm v s
  | .queueRegisterWrite part q ctl v => Sys2Proof.Machine.execQueueRegisterWrite part q ctl v s
  | .admissionRegisterWrite part v => Sys2Proof.Machine.execAdmissionRegisterWrite part v s
  | .apertureWrite imm v => Sys2Proof.Machine.execApertureWrite imm v s
  | .sliceSet ctx cycles => Sys2Proof.Machine.execSliceSet ctx cycles s
  | .restoreStart ctx => Sys2Proof.Machine.execRestoreStart ctx s
  | .lendRelease lendId => Sys2Proof.Machine.execLendRelease lendId s
  | .summary => Sys2Proof.Machine.execSummary s
  | .blackBoxRead first count => Sys2Proof.Machine.execBlackBoxRead first count s
  | .powerLimitSet watts => Sys2Proof.Machine.execPowerLimitSet watts s
  | .warmResetRequest => Sys2Proof.Machine.execWarmResetRequest s
  | .peerKeyReport part ctr => Sys2Proof.Machine.execPeerKeyReport part ctr s
  | .spdmCarry req => Sys2Proof.Machine.execSpdmCarry req s
  | .getVersion req => Sys2Proof.Machine.execGetVersion req s
  | .getCapabilities req => Sys2Proof.Machine.execGetCapabilities req s
  | .negotiateAlgorithms req => Sys2Proof.Machine.execNegotiateAlgorithms req s
  | .getDigests req => Sys2Proof.Machine.execGetDigests req s
  | .getCertificate req => Sys2Proof.Machine.execGetCertificate req s
  | .challenge req => Sys2Proof.Machine.execChallenge req s
  | .getMeasurements req => Sys2Proof.Machine.execGetMeasurements req s
  | .spdmUnsupportedRequest req => Sys2Proof.Machine.execSpdmUnsupportedRequest req s
  | .managementRequestRefused code => Sys2Proof.Machine.execManagementRequestRefused code s
  | .accessPerformed id => Sys2Proof.Machine.execAccessPerformed id s
  | .bucketTokenGain => Sys2Proof.Machine.execBucketTokenGain s
  | .powerLoss => Sys2Proof.Machine.execPowerLoss s
  | .residencyMaskError base set => Sys2Proof.Machine.execResidencyMaskError base set s
  | .peerAccess r => Sys2Proof.Machine.execPeerAccess r s

end Sys2Proof.Machine
end

