-- ==== Sys2Proof/Machine/Fetch.lean ====
section
/-! DEFINITION. Fetching and decoding a sequencer's next word, what a sequencer does before it, and what each other
agent does when it moves (R42, R43, R64, R120, R197, R255, R271, R386, R387, R390, R395). -/

namespace Sys2Proof.Machine

/-! ## Fetching (R43) -/

/-- Whether a FENCE of a sequencer is outstanding: no later fetch is performed before it (R43). -/
def fencePending (s : State) (q : SeqId) : Bool := (ownAccesses s q).any fun a => a.kind == .fence

/-- The bytes of the word at an address: fetched before, or read now as an rlx load through the sequencer's translation
entries and its L1, after every FENCE before it, once the request ports have admitted it (R43, R112). -/
def fetchWord (s : State) (q : SeqId) (u : UnitRec) (va : Word) : State × Got :=
  match (s.seqs.get q).ahead.find? fun e => e.1 == va with
  | some e => (s, .bytes (toBytes 4 e.2.toNat))
  | none =>
    if fencePending s q then (s, .wait)
    else
    match translate s (.seq q) u.ctx u.part (dieOfSeq q) va.toNat 4 false false false with
    | (s, .ok ps) =>
      match admitLines s (.seq q) u.ctx u.part (dieOfSeq q) va.toNat ps with
      | (s, false) => (s, .wait)
      | (s, true) =>
        let r := loadParts s (dieOfSeq q) u.part u.ctx (some q) false ps
        (r.1, .bytes r.2)
    | (s, .wait) => (s, .wait)
    | (s, .fault f) => (s, .fault f)

/-- The word that four bytes spell (R7). -/
def wordOf (bs : List Byte) : BitVec 32 := BitVec.ofNat 32 (ofBytes bs)

/-- What a fetch of a whole instruction gives: its word and payload, a wait, or a fault. -/
inductive Fetch where
  | words (w pl : BitVec 32)
  | wait
  | fault (f : FaultInfo)
  deriving DecidableEq, Repr

/-- The words of the instruction at the pc: the first, and for a QX word the payload after it (R30, R43). -/
def fetchInstr (s : State) (q : SeqId) (u : UnitRec) : State × Fetch :=
  let pc := (s.seqs.get q).pc
  match fetchWord s q u pc with
  | (s, .fault f) => (s, .fault f)
  | (s, .wait) => (s, .wait)
  | (s, .bytes bs) =>
    if isQX (wordOf bs) then
      match fetchWord s q u (pc + 4) with
      | (s, .fault f) => (s, .fault f)
      | (s, .wait) => (s, .wait)
      | (s, .bytes bs2) => (s, .words (wordOf bs) (wordOf bs2))
    else (s, .words (wordOf bs) 0)

/-! ## Registers that an outstanding load will write (R120) -/

/-- The registers that an instruction reads or writes. -/
def regsUsed : Instr → List Reg
  | .add d a b | .sub d a b | .mul d a b | .mulh d a b | .mulhu d a b | .div d a b | .divu d a b | .rem d a b
  | .remu d a b | .and d a b | .or d a b | .xor d a b | .shl d a b | .shr d a b | .sra d a b | .min d a b | .max d a b
  | .minu d a b | .maxu d a b | .sel d a b _ => [d, a, b]
  | .clz d a | .popc d a | .mov d a | .addi d a _ | .andi d a _ | .ori d a _ | .xori d a _ | .shli d a _ | .shri d a _
  | .srai d a _ => [d, a]
  | .cmpeqi _ a _ | .cmpnei _ a _ | .cmplti _ a _ | .cmpgei _ a _ => [a]
  | .liShort d _ | .liLong d _ | .lih d _ => [d]
  | .cmpeq _ a b | .cmpne _ a b | .cmplt _ a b | .cmpge _ a b | .cmpltu _ a b | .cmpgeu _ a b => [a, b]
  | .jr a => [a]
  | .loop d _ => [d]
  | .ldsShort w d a _ | .ldsLong w d a _ _ => if w = 7 then [d, d + 1, a] else [d, a]
  | .stsShort w d a _ => if w = 4 then [d, d + 1, a] else [d, a]
  | .stsLong w d a _ _ => if w = 7 then [d, d + 1, a] else [d, a]
  | .amoadd d a b _ | .amomin d a b _ | .amomax d a b _ | .amoand d a b _ | .amoor d a b _ | .amoxor d a b _
  | .amoswap d a b _ | .amocas d a b _ => [d, a, b]
  | .amaxrs d a _ | .aquery d a | .wany d a | .wall d a | .cffr d a | .strmend d a _ | .cancel d a _ | .cdone d a _ _
  | .bar d a | .keyz d a | .ctrinc d a _ => [d, a]
  | .cclean a b | .cinval a b | .cflush a b | .cpref a b | .cont a b | .barc a b => [a, b]
  | .aconv a _ | .ctagclr a | .csrw a _ | .xlinvWrite a | .radepthWrite a => [a]
  | .join d a b | .recfg d a b _ | .loadcfg d a b | .tdef d a b | .tscale d a b | .tread d a b | .seal d a b _
  | .unseal d a b | .copy d a b _ | .bdot d a b _ | .strm d a b _ => [d, a, b]
  | .csrr d _ | .mark d _ | .scrub d => [d]
  | .copyx d a b f _ | .copyg d a b f _ => [d, a, b, f]
  | .strm2 d a b f _ | .spawn d a b f _ => [d, a, b, f, f + 1]
  | _ => []

/-- The registers that an outstanding operation will write. -/
def Access.writes (a : Access) : List Reg :=
  match a.kind with
  | .load _ => if a.n = 16 then [destReg a.dest, destReg a.dest + 1] else [destReg a.dest]
  | .amo _ => [destReg a.dest]
  | .amaxrs => [destReg a.dest]
  | .aquery => [destReg a.dest]
  | _ => []

/-- Whether an instruction waits for an outstanding load of its sequencer (R120); one that writes the same register
waits too, so that the later value stands.  s0 is written by nothing (R255), so nothing waits for it. -/
def hazard (s : State) (q : SeqId) (i : Instr) : Bool :=
  (ownAccesses s q).any fun a => a.writes.any fun r => r != 0 && (regsUsed i).contains r

/-! ## A sequencer moves -/

/-- ILLOP at a fetched word (R42, R384). -/
def trapWord (s : State) (w pl : BitVec 32) : State :=
  takeTrap s s.cur { code := 0x01, arg := 0, pc := s.cpu.pc, eword := ewordOf w pl, fault := none }

/-- The instructions that wait, each a boundary before itself (R387). -/
def waitsThere : Instr → Bool
  | .wany _ _ | .wall _ _ | .waitc _ _ _ _ | .bar _ _ | .cdone _ _ 1 _ | .strmend _ _ _ | .loadcfg _ _ _ | .cont _ _ => true
  | _ => false

/-- Whether a FAULT record of a graph is on its way to its root, or one will be: a walk has raised a fault for a node that goes on
to take it, or an instance whose exception bit is set goes on to its exit (R215, R388). -/
def recordComing (s : State) (g : Graph) : Bool :=
  let ready := fun (n : Node) (p : Key → Bool) => (List.range n.slots.length).any fun k => (readyKeys n k).any p
  !g.tree.isEmpty ||
  ((graphNodes s g).any fun n => (s.walkFaults.any fun w => w.holder == holderAt n.ref) && ready n fun _ => true) ||
  (graphInstances s g).any fun i =>
    i.exc && !i.exited &&
    (tokensInside s (blockNodes s i.blk.node) ||
      (blockNodes s i.blk.node).any fun r => (nodeOf s r).elim false fun n => ready n (· == i.blk.key))

/-- Whether an instruction that waits has a boundary at which a record still on its way to its graph's root is taken first, for the
unit that takes it (R387, R390, R430). -/
def awaitsRecord (s : State) (u : UnitRec) (i : Instr) : Bool :=
  waitsThere i && !s.cpu.h && (liveGraph s u.ctx u.handle.toNat).elim false fun g => firstUnit s g == some s.cur && recordComing s g

/-- A fetched word is decoded and its instruction executed; a word of no instruction traps (R42), and one that needs a
register still to be loaded waits (R120). -/
def runWords (s : State) (u : UnitRec) (w pl : BitVec 32) : Result :=
  match decodeSeq w pl with
  | .error _ => .next (trapWord s w pl)
  | .ok i =>
    if !seqOk u.ver i then .next (trapWord s w pl)
    else if hazard s s.cur i || awaitsRecord s u i then .next s
    else exec i s

/-- A fetched instruction is kept while it waits; words fetched before the pc are let go. -/
def Seq.hold (c : Seq) (w pl : BitVec 32) : Seq :=
  let own := if isQX w then [(c.pc, w), (c.pc + 4, pl)] else [(c.pc, w)]
  let rest := c.ahead.filter fun e => !(own.any fun o => o.1 == e.1) && c.pc.toNat < e.1.toNat
  { c with ahead := own ++ rest }

/-- The moving sequencer fetches and executes its next instruction. -/
def runNext (s : State) (u : UnitRec) : Result :=
  match fetchInstr s s.cur u with
  | (s, .fault f) => .next (trapFault s f)
  | (s, .wait) => .next s
  | (s, .words w pl) => runWords (s.updCpu fun c => c.hold w pl) u w pl

/-- The records that wait at the graph of a unit (R389). -/
def unitGraph (s : State) (u : UnitRec) : Option Graph := liveGraph s u.ctx u.handle.toNat

/-- The graph whose record is delivered to a sequencer before it goes on (R390). -/
def recordFor (s : State) (q : SeqId) (u : UnitRec) : Option Graph :=
  (unitGraph s u).filter fun g => recordTarget s g == some q

/-- Whether a unit just popped waits for its graph's records: it is the one that takes them, and one is there (R390). -/
def recordAwaited (s : State) (q : SeqId) (u : UnitRec) : Bool :=
  (unitGraph s u).elim false fun g => !g.recs.isEmpty && firstUnit s g == some q

/-- A sequencer moves: it ends an abort that waits (R386), stands still for a cut (R395) or a MARK (R403), completes an
XLINV (R70), takes a CWEMPTY or a fabric record that waits (R76, R387, R390), or fetches and executes. -/
def seqTurn (s : State) (q : SeqId) : Result :=
  let s := { s with cur := q }
  let c := s.seqs.get q
  match c.run with
  | none => .next s
  | some u =>
    match c.wait with
    | .stopping => if unitBusy s q then .next s else .next (settle (finishAbort s q))
    | .marking _ _ _ => .next s
    | .xlinv _ _ => execXlinvComplete q s
    | _ =>
      if heldByCut s q then (if marksNext s q then runNext s u else .next s)
      else
        match if atBoundary s q then cwemptyFor s q else none with
        | some r => .next (deliverCwempty s q r)
        | none =>
          match recordFor s q u with
          | some g => execFabricTrap g.ctx g.handle s
          | none =>
            if c.wait == .fabric then (if recordAwaited s q u then .next s else runNext (setWait s .none) u)
            else runNext s u

/-! ## The other agents -/

/-- A word is fetched ahead of the pc, where its page has an entry and the sequencer waits for no other page (R43,
R64). -/
def prefetchWord (s : State) (q : SeqId) (va : Word) : State :=
  let c := s.seqs.get q
  match c.run with
  | none => s
  | some u =>
    if va.toNat % 4 ≠ 0 || va.toNat ≤ c.pc.toNat || c.ahead.any (fun e => e.1 == va) || fencePending s q ||
      (missOf s (.seq q)).isSome then s
    else
      match lookupPieces s (.seq q) u.ctx false false (fun l a => reachCheck s l a false false false) [(va.toNat, 4)] with
      | (.ok ps, _) =>
        let s := touchEntries s (.seq q) u.ctx ps
        match admitLines s (.seq q) u.ctx u.part (dieOfSeq q) va.toNat ps with
        | (s, false) => s
        | (s, true) =>
          let r := loadParts s (dieOfSeq q) u.part u.ctx (some q) false ps
          r.1.updSeq q fun c => { c with ahead := c.ahead ++ [(va, wordOf r.2)] }
      | _ => s

/-- The host or a peer writes its own memory, which stands in a window. -/
def farWrite (s : State) (pa : Nat) (key : KeyMat) (bytes : List Byte) : State :=
  if isFar pa && isFar (pa + (bytes.length - 1)) then writeMem s 0 key pa bytes else s

/-- A control token that waits for a node passes it, and a cut saves it (R172, R396). -/
def passNode (s : State) (n : Node) : State :=
  match graphOfNode s n with
  | some g => settle (trySave (passReconf s g n.ref) n.ref)
  | none => s

/-- What a node fires: an island any of its commands that is ready (R338), any other node its lowest slot (R197). -/
def firingSite (s : State) (n : Node) (site : Site) : Option Site :=
  if isIslandNode n.ref then (firingAt s site (n.opAt site.slot) (eWord (n.word site.slot))).map fun _ => site
  else nextSite s n.ref

/-- A node moves: it fires, or where it has nothing to fire lets control tokens pass. -/
def nodeTurn (s : State) (site : Site) : Result :=
  match nodeOf s site.node with
  | none => .next s
  | some n =>
    match firingSite s n site with
    | none => .next (passNode s n)
    | some x =>
      match decodeElem (n.word x.slot) with
      | some i => exec i { s with site := x }
      | none => .next s

/-- An event of the opcode table happens; words are executed by their own agents. -/
def eventTurn (s : State) (i : Instr) : Result := if (encode i).isEmpty then exec i s else .next s

/-- A move that performs one part alone of what it reaches (R61). -/
def withPart (k : Nat) (move : State → Result) (s : State) : Result :=
  match move { s with piece := some k } with
  | .next t => .next { t with piece := none }
  | r => r

/-- One part of a token that a source stream reads. -/
def readPart (r : StreamRef) (i : Nat) (s : State) : Result :=
  match streamOf s r with
  | some t => if t.sent = i then execStreamReadReturn r s else .next (readAhead s r i)
  | none => .next s

/-- One turn of the schedule. -/
def takeTurn (s : State) : Turn → Result
  | .seq q => seqTurn s q
  | .node site => nodeTurn s site
  | .event i => eventTurn s i
  | .prefetch q va => .next (prefetchWord s q va)
  | .readAhead r i => .next (readAhead s r i)
  | .engine q tag => .next (engineStep s q tag.toNat)
  | .farWrite pa key bytes => .next (farWrite s pa key bytes)
  | .scrub part n => .next (scrubLines s part n)
  | .readBstat => .next (readBstat s)
  | .firmware lowest off bs => .next (firmwareWrites s lowest off bs)
  | .seqPart q k => withPart k (fun s => seqTurn s q) s
  | .nodePart site k ahead => withPart k (fun s => if ahead then .next (readEarly s site) else nodeTurn s site) s
  | .readPart r i k => withPart k (readPart r i) s
  | .storePart b j k => .next (performStorePart s b j k)

/-! ## What moves when the schedule names nothing -/

/-- The oldest operation of a sequencer is taken one step on. -/
def advanceAccess (s : State) (a : Access) : Result :=
  match a.kind, (a.parts.head?.map fun p => region p.pa) with
  | .aconv, some (.array r) => execAconvComplete r s
  | _, _ =>
    if a.ringed then execWaggleToken s
    else if a.unpaid != [] then execBucketTokenGain s
    else execAccessPerformed a.id s

/-- Walks come first, then copies of pages, the operations and jobs of the current sequencer, then its next
instruction or its next unit. -/
def defaultTurn (s : State) : Result :=
  match s.walks.head?, s.cows.find? (fun c => !c.empty && cowReady s c), (ownAccesses s s.cur).head?, s.jobs.find? (fun j => j.q == s.cur) with
  | some r, _, _, _ => execPageWalk r.die s
  | none, some c, _, _ => execCowCopyDone c.req.ctx c.page s
  | none, none, some a, _ => advanceAccess s a
  | none, none, none, some j => .next (engineStep s s.cur j.tag)
  | none, none, none, none =>
    if s.cpu.run.isNone then execRecordPop s.cur s
    else if holderStalled s (.seq s.cur) then execBucketTokenGain s
    else seqTurn s s.cur

/-- The input that acts on a package without power (R434). -/
def isPowerUp : Turn → Bool
  | .event .coldReset => true
  | _ => false

/-! ## Placing an instruction (for a package with no program) -/

/-- The unit that a placed instruction runs in. -/
def placedUnit : UnitRec :=
  { ctx := 0, part := 0, handle := 0, launch := 0, lcm1 := 0, unit := 0, phase := 0, frame := 0, prio := 0, queue := 0,
    ring := 0, anchor := 0, ver := 3, codeBase := 0x10000, started := [] }

/-- The array whose bytes hold a placed instruction. -/
def placedArray (q : SeqId) : ArrayRef := { die := dieOfSeq q, slice := 0, index := 0 }

/-- The translation entry of its page. -/
def placedEntry (q : SeqId) : TlbEntry :=
  { holder := .seq q, ctx := 0, va := 0x10000,
    leaf := { frame := arrayPa (placedArray q), lg := 16, w := false, la := false, ord := 0, key := 0, d := false }, used := 0 }

/-- The request ports have admitted the fetch of a word of it. -/
def placedReq (q : SeqId) (va : Nat) : PortReq :=
  { id := 0, holder := .seq q, va := va, ctx := 0, part := 0, die := dieOfSeq q, unpaid := [] }

/-- The current sequencer runs a unit whose next instruction is given by bits: the bytes stand in a SCRATCH array that
its translation entry names, and the schedule names the sequencer. -/
def placeInstr (s : State) (nbits w : Nat) : State :=
  let q := s.cur
  let r := placedArray q
  let s := setArray s r fun a => { a with mode := .scratch, busy := false }
  let s := s.updSeq q fun c => { c with pc := 0x10000, ahead := [], wait := .none, run := some placedUnit }
  { s with
    powered := true
    mem := memPutAll s.mem (arrayPa r) (leBytes 8 (w % 2 ^ nbits))
    tlb := placedEntry q :: s.tlb.filter fun e => e.holder != .seq q
    latched := []
    walks := s.walks.filter fun r => r.holder != .seq q
    cows := s.cows.filter fun c => c.req.holder != .seq q && !c.waiting.any fun r => r.holder == .seq q
    cwempties := []
    pulls := s.pulls.filter fun p => !p.waiting.any fun r => r.holder == .seq q
    walkFaults := s.walkFaults.filter fun f => f.holder != .seq q
    accesses := s.accesses.filter fun a => a.q != q
    portReqs := placedReq q 0x10000 :: placedReq q 0x10004 :: s.portReqs.filter fun r => r.holder != .seq q
    cuts := s.cuts.filter fun c => c.ctx != 0
    graphs := s.graphs.filter fun g => !(g.ctx == 0 && g.handle == 0)
    turns := [.seq q] }

end Sys2Proof.Machine
end

