-- ==== Sys2Proof/Machine/Step.lean ====
section
/-! DEFINITION. One step of the package: the schedule names the agent that moves (R4). -/

namespace Sys2Proof.Machine

/-- One step.  Without power only a cold reset acts (R434); with no turn named, what stands first in the default order
moves. -/
def step (s : State) : Host.Outcome State Fault Refusal :=
  match s.turns with
  | [] => if s.powered then defaultTurn s else .next s
  | t :: rest =>
    if s.powered || isPowerUp t then takeTurn { s with turns := rest } t else .next { s with turns := rest }

/-- A state with an instruction where the current sequencer fetches its next one. -/
def State.withFetchWord (s : State) (nbits w : Nat) : State := placeInstr s nbits w

end Sys2Proof.Machine
end

