-- ==== Sys2Proof/Safety.lean ====
section
/-! DEFINITION. What the claims about the machine speak of: an instruction that answers a next state, what it leaves
unchanged, and the invariants of a run. -/

namespace Sys2Proof.Machine

/-- Executing an instruction answers a next state, of which a property holds. -/
def runsTo (i : Instr) (s : State) (P : State → Prop) : Prop := ∃ t, exec i s = .next t ∧ P t

/-- Nothing of the package but the record of the moving sequencer differs: no memory, no other sequencer. -/
def onlyCpu (s t : State) : Prop := { t with seqs := s.seqs } = s ∧ ∀ q, q ≠ s.cur → t.seqs.get q = s.seqs.get q

/-- One register of the moving sequencer takes a value, s0 none; beside it only the pc differs. -/
def writesReg (s t : State) (d : Reg) (v : Word) : Prop :=
  onlyCpu s t ∧ (∀ r, t.cpu.reg r = if r = d ∧ d ≠ 0 then v else s.cpu.reg r) ∧
  { t.cpu with regs := s.cpu.regs, pc := s.cpu.pc } = s.cpu

/-- One predicate takes a value, p0 none; beside it only the pc differs. -/
def writesPred (s t : State) (d : Pred) (v : Bool) : Prop :=
  onlyCpu s t ∧ (∀ p, t.cpu.pred p = if p = d ∧ d ≠ 0 then v else s.cpu.pred p) ∧
  { t.cpu with preds := s.cpu.preds, pc := s.cpu.pc } = s.cpu

/-- The pc goes to an address, words fetched ahead may be let go, and nothing else differs. -/
def onlyPc (s t : State) (pc : Word) : Prop :=
  onlyCpu s t ∧ t.cpu.pc = pc ∧ { t.cpu with pc := s.cpu.pc, ahead := s.cpu.ahead } = s.cpu

/-- The instruction writes a register and goes on at the next word. -/
def givesReg (i : Instr) (s : State) (d : Reg) (v : Word) : Prop :=
  runsTo i s fun t => writesReg s t d v ∧ t.cpu.pc = s.cpu.pc + 4

/-- The instruction writes a predicate and goes on at the next word. -/
def givesPred (i : Instr) (s : State) (d : Pred) (v : Bool) : Prop :=
  runsTo i s fun t => writesPred s t d v ∧ t.cpu.pc = s.cpu.pc + 4

/-- A trap of the moving sequencer finds its handler: one is installed and does not run (R385, R386). -/
def handlerReady (s : State) : Prop := s.cpu.h = false ∧ bit s.cpu.tvec 63 = true

/-- The moving sequencer enters its handler: EPC, ECODE, EWORD and, for a fault, FADDR and FINFO are written, H is set
and the pc is TVEC.ADDR (R384, R385); no register, predicate or return address is touched, and no memory: of the rest
only the requests that the sequencer itself had with the walkers go. -/
def entersHandler (s t : State) (code arg : Nat) (epc eword : Word) (fault : Option (Word × Word)) : Prop :=
  { t with seqs := s.seqs } = forgetMisses s (· == .seq s.cur) ∧
  (∀ q, q ≠ s.cur → t.seqs.get q = s.seqs.get q) ∧
  t.cpu = { s.cpu with
    epc := epc &&& 0x000FFFFFFFFFFFFC#64
    ecode := BitVec.ofNat 64 (arg * 2 ^ 14 + code)
    eword := eword
    faddr := (fault.map Prod.fst).getD s.cpu.faddr
    finfo := (fault.map Prod.snd).getD s.cpu.finfo
    h := true
    pc := s.cpu.tvec &&& 0x000FFFFFFFFFFFFC#64
    wait := .none
    ahead := []
    reading := none }

/-- An instruction whose exact trap enters the handler: EPC is its own address (R385). -/
def trapsExactly (i : Instr) (s : State) (code : Nat) (eword : Word) (fault : Option (Word × Word)) : Prop :=
  runsTo i s fun t => entersHandler s t code 0 s.cpu.pc eword fault

/-- The state in which a unit leaves that a trap aborts: its streams have stopped, its sequencer asks the walkers for
nothing, and EPC and ECODE are written (R386). -/
def aborting (s : State) (code arg : Nat) (epc : Word) : State :=
  (stopStreams (forgetMisses s (· == .seq s.cur)) s.cur).updCpu fun c =>
    { c with
      epc := epc &&& 0x000FFFFFFFFFFFFC#64
      ecode := BitVec.ofNat 64 (arg * 2 ^ 14 + code)
      wait := .stopping
      ahead := []
      reading := none }

/-- A unit can leave at once: none of its operations is outstanding, no job of it works, and no page of its records must
wait (R73, R82, R386). -/
def leavesAtOnce (s : State) (u : UnitRec) (code arg : Nat) (epc : Word) : Prop :=
  unitBusy s s.cur = false ∧ (ringHold (aborting s code arg epc) (retireUses (aborting s code arg epc) u)).2 = true

/-- A unit has been aborted by a trap: its sequencer is idle with its registers as they were and EPC and ECODE written,
its streams have ended, its launch counts it as removed and is CANCELLED, no other sequencer has changed, and the code,
EPC and UNIT stand last in the black box (R386, R441). -/
def abortsUnit (s t : State) (u : UnitRec) (code arg : Nat) (epc : Word) : Prop :=
  let c := t.seqs.get s.cur
  c.run = none ∧ c.wait = .none ∧ c.regs = s.cpu.regs ∧ c.preds = s.cpu.preds ∧
  c.epc = epc &&& 0x000FFFFFFFFFFFFC#64 ∧ c.ecode = BitVec.ofNat 64 (arg * 2 ^ 14 + code) ∧
  (∀ q, q ≠ s.cur → t.seqs.get q = s.seqs.get q) ∧
  (∀ x ∈ t.streams, x.q = s.cur → x.ended = true) ∧
  (∀ l ∈ s.launches, l.ctx = u.ctx → l.id = u.launch → { l with removed := l.removed + 1, cancelled := true } ∈ t.launches) ∧
  ∃ e, t.blackBox.getLast? = some e ∧ e.src = 0x100 + s.cur.val ∧ e.code = code % 256 ∧ e.part = u.part ∧
    e.ctx = u.ctx.toNat ∧ e.args = [epc &&& 0x000FFFFFFFFFFFFC#64, u.unit.setWidth 64]

/-- What an operation is issued with: its kind, destination register, width, address, translated pieces, data, and
order and scope. -/
def Access.isOf (a : Access) (s : State) (u : UnitRec) (k : AccKind) (dest n va : Nat) (ps : List Part)
    (data : BitVec 256) (os : OrdScope) : Prop :=
  a.q = s.cur ∧ a.elem = none ∧ a.ctx = u.ctx ∧ a.part = u.part ∧ a.die = s.cur.val / 16 ∧ a.kind = k ∧
  a.dest = dest ∧ a.n = n ∧ a.va = va ∧ a.parts = ps ∧ a.data = data ∧ a.ord = os.ord ∧ a.scope = os.scope

/-- Nothing has changed but what a translation takes note of: the times at which entries were used, what an access kept,
and faults that its holder has been given. -/
def onlyLookedUp (s t : State) : Prop :=
  { t with tlb := s.tlb, latched := s.latched, tick := s.tick, walkFaults := s.walkFaults } = s

/-- Operations have become outstanding behind those of s; no byte of memory, no other sequencer and no other field has
changed but what their translation takes note of. -/
def outstanding (s t : State) (as : List Access) : Prop :=
  t.accesses = s.accesses ++ as ∧ t.nextAcc = s.nextAcc + as.length ∧
  onlyLookedUp s { t with accesses := s.accesses, nextAcc := s.nextAcc, seqs := s.seqs } ∧
  ∀ q, q ≠ s.cur → t.seqs.get q = s.seqs.get q

/-- Operations have become outstanding, and the pc has moved on; no register and no other field of the sequencer has
changed. -/
def queues (s t : State) (as : List Access) (len : Word) : Prop :=
  outstanding s t as ∧ t.cpu = { s.cpu with pc := s.cpu.pc + len }

/-- An instruction whose access faults in translation traps exactly, with what the fault reports (R71, R123). -/
def faultsExactly (i : Instr) (s s1 : State) (f : FaultInfo) : Prop :=
  runsTo i s fun t => entersHandler s1 t f.code 0 s.cpu.pc 0 (some (BitVec.ofNat 64 f.addr, f.word))

/-- A word of the fabric that fires on its operands: where the site that moves can fire it and its tokens are data (and
the gate open), the firing ends so, its instance there first (R197, R206, R214). -/
def fires (i : Instr) (s : State) (op : Nat) (e : EWord) (P : Firing → State → Prop) : Prop :=
  ∀ f, firingAt s s.site op e = some f → modeOf f.heads = .fire → runsTo i s (P f)

/-- A firing ends from a state with these tokens on its outputs. -/
def endsWith (s1 : State) (f : Firing) (outs : List (Nat × Token)) (t : State) : Prop := t = endFiring s1 f .fire outs

/-- A firing whose result is a payload of given lanes, on both outputs; with keep it is also written to the hold
register that the word names (R230, R293, R296). -/
def givesLanes (i : Instr) (s : State) (op : Nat) (e : EWord) (w : Nat) (keep : Bool) (g : Firing → Nat → Nat) : Prop :=
  fires i s op e fun f t => ∃ v : Payload, (∀ l, l < 256 / w → lane v w l = g f l % 2 ^ w) ∧
    endsWith (if keep then keepResult (ensureInstance s f) f v else ensureInstance s f) f (both (f.token v)) t

/-- A word whose firings follow the rules of ends: where its site cannot fire nothing happens; a firing behind a closed gate
takes its tokens alone; cancel tokens and ends give a token of their kind on both outputs; and ends mixed with data raise
SMISM and give EEOS (R206, R208, R209, R297). -/
def followsEnds (i : Instr) (s : State) (op : Nat) (e : EWord) : Prop :=
  (firingAt s s.site op e = none → exec i s = .next s) ∧
  ∀ f, firingAt s s.site op e = some f →
    let s1 := ensureInstance s f
    let m := modeOf f.heads
    let all := fun (k : Kind) => both { f.token 0 with kind := k }
    (m = .quiet → exec i s = .next (endFiring s1 f .quiet [])) ∧
    (m = .cancel → exec i s = .next (endFiring s1 f .cancel (all .cancel))) ∧
    (m = .ends → exec i s = .next (endFiring s1 f .ends (all .eos))) ∧
    (m = .eeos → exec i s = .next (endFiring s1 f .eeos (all .eeos))) ∧
    (m = .mixed → exec i s = .next (endFiring (raiseFault s1 f (fabCode 0x25)) f .mixed (all .eeos)))

/-- The list of bytes has its canonical form. -/
def MemoryCanonical (s : State) : Prop := Memory.wf s.mem = true

end Sys2Proof.Machine
end

