-- ==== Sys2Proof/WellFormed.lean ====
section
/-! DEFINITION. Well-formed instructions: the values R33, R42 and R44 permit, in an encoding version (R46).  The checks
themselves stand with the encoding tables in Decode. -/

namespace Sys2Proof

/-- The kind of slot an element word belongs to (R38). -/
def opKind (op : Nat) : SlotKind :=
  if 0x80 ≤ op && op ≤ 0x8F then .converter
  else if 0x90 ≤ op && op ≤ 0x9F then .island
  else if 0xA0 ≤ op && op ≤ 0xAF then .comb
  else .element

/-- Whether an instruction keeps to every limit its own fields show.  An event has no word and no such limit. -/
def Instr.wf (ver : Nat) (i : Instr) : Bool :=
  match encodeElem i with
  | some w => (wordReasons ver (opKind (eOp w)) w).isEmpty
  | none => seqOk ver i

end Sys2Proof
end

