-- ==== Sys2Proof/Certificates/Slice0/Obligations.lean ====
section
/-! DEFINITION. The statements about the machine. -/

open Sys2Proof Sys2Proof.Machine

/-! ## The sequencer: integer operations, constants, predicates -/

/-- ADD, SUB, MUL, MULH, MULHU and ADDI give the exact result, wrapped to 64 bits or its high half; one register is
written, s0 discards, and nothing else changes (R258, R261, R255). -/
def Obligations.SumsAndProducts : Prop :=
  ∀ (s : State) (d a b : Reg) (i : BitVec 12),
    let x := s.cpu.reg a
    let y := s.cpu.reg b
    givesReg (.add d a b) s d (BitVec.ofInt 64 (x.toInt + y.toInt)) ∧
    givesReg (.sub d a b) s d (BitVec.ofInt 64 (x.toInt - y.toInt)) ∧
    givesReg (.mul d a b) s d (BitVec.ofInt 64 (x.toInt * y.toInt)) ∧
    givesReg (.mulh d a b) s d (BitVec.ofInt 64 (x.toInt * y.toInt / 2 ^ 64)) ∧
    givesReg (.mulhu d a b) s d (BitVec.ofNat 64 (x.toNat * y.toNat / 2 ^ 64)) ∧
    givesReg (.addi d a i) s d (BitVec.ofInt 64 (x.toInt + i.toInt))

/-- DIV, DIVU, REM and REMU: for a divisor other than zero, quotient and remainder satisfy x = q × y + r and |r| < |y|
with the remainder's sign that of the dividend, but for −2^63 by −1; and the results of the edge cases (R258, R259). -/
def Obligations.QuotientsAndRemainders : Prop :=
  ∀ (s : State) (d a b : Reg),
    let x := s.cpu.reg a
    let y := s.cpu.reg b
    ∃ q r qu ru : Word,
      givesReg (.div d a b) s d q ∧ givesReg (.rem d a b) s d r ∧
      givesReg (.divu d a b) s d qu ∧ givesReg (.remu d a b) s d ru ∧
      (y = 0 → q = -1 ∧ r = x ∧ qu = -1 ∧ ru = x) ∧
      (x.toInt = -2 ^ 63 → y.toInt = -1 → q = x ∧ r = 0) ∧
      (y ≠ 0 → ¬(x.toInt = -2 ^ 63 ∧ y.toInt = -1) →
        x.toInt = q.toInt * y.toInt + r.toInt ∧ r.toInt.natAbs < y.toInt.natAbs ∧ (r = 0 ∨ r.toInt.sign = x.toInt.sign)) ∧
      (y ≠ 0 → x.toNat = qu.toNat * y.toNat + ru.toNat ∧ ru.toNat < y.toNat)

/-- The bitwise operations and the shifts, in register and immediate form; a shift takes its amount modulo 64 (R258,
R261). -/
def Obligations.BitwiseAndShifts : Prop :=
  ∀ (s : State) (d a b : Reg) (i : BitVec 12) (k : BitVec 6),
    let x := s.cpu.reg a
    let y := s.cpu.reg b
    givesReg (.and d a b) s d (x &&& y) ∧
    givesReg (.or d a b) s d (x ||| y) ∧
    givesReg (.xor d a b) s d (x ^^^ y) ∧
    givesReg (.andi d a i) s d (x &&& i.signExtend 64) ∧
    givesReg (.ori d a i) s d (x ||| i.signExtend 64) ∧
    givesReg (.xori d a i) s d (x ^^^ i.signExtend 64) ∧
    givesReg (.shl d a b) s d (BitVec.ofNat 64 (x.toNat * 2 ^ (y.toNat % 64))) ∧
    givesReg (.shr d a b) s d (BitVec.ofNat 64 (x.toNat / 2 ^ (y.toNat % 64))) ∧
    givesReg (.sra d a b) s d (BitVec.ofInt 64 (x.toInt / 2 ^ (y.toNat % 64))) ∧
    givesReg (.shli d a k) s d (BitVec.ofNat 64 (x.toNat * 2 ^ k.toNat)) ∧
    givesReg (.shri d a k) s d (BitVec.ofNat 64 (x.toNat / 2 ^ k.toNat)) ∧
    givesReg (.srai d a k) s d (BitVec.ofInt 64 (x.toInt / 2 ^ k.toNat))

/-- The minima and maxima, the counts of leading zeros and of ones, SEL and MOV (R258, R260).

LI of both forms and LIH; the long form is two words long (R262). -/
def Obligations.SelectionsAndConstants : Prop :=
  (∀ (s : State) (d a b : Reg) (p : Pred),
     let x := s.cpu.reg a
     let y := s.cpu.reg b
     givesReg (.min d a b) s d (BitVec.ofInt 64 (min x.toInt y.toInt)) ∧
     givesReg (.max d a b) s d (BitVec.ofInt 64 (max x.toInt y.toInt)) ∧
     givesReg (.minu d a b) s d (BitVec.ofNat 64 (min x.toNat y.toNat)) ∧
     givesReg (.maxu d a b) s d (BitVec.ofNat 64 (max x.toNat y.toNat)) ∧
     (∃ n : Nat, n ≤ 64 ∧ x.toNat < 2 ^ (64 - n) ∧ (n < 64 → 2 ^ (63 - n) ≤ x.toNat) ∧
       givesReg (.clz d a) s d (BitVec.ofNat 64 n)) ∧
     givesReg (.popc d a) s d (BitVec.ofNat 64 ((List.finRange 64).countP fun k => x.getLsbD k.val)) ∧
     givesReg (.sel d a b p) s d (if s.cpu.pred p then x else y) ∧
     givesReg (.mov d a) s d x) ∧
  (∀ (s : State) (d : Reg) (i : BitVec 18) (k : BitVec 46),
     givesReg (.liShort d i) s d (i.signExtend 64) ∧
     (runsTo (.liLong d k) s fun t => writesReg s t d (k.signExtend 64) ∧ t.cpu.pc = s.cpu.pc + 8) ∧
     givesReg (.lih d i) s d (BitVec.ofNat 64 (i.toNat * 2 ^ 46 + (s.cpu.reg d).toNat % 2 ^ 46)))

/-- The compares and the predicate operations write one predicate, p0 discards, and nothing else changes (R263, R264,
R255). -/
def Obligations.ComparesAndPredicates : Prop :=
  ∀ (s : State) (p q r : Pred) (a b : Reg) (i : BitVec 12),
    let x := s.cpu.reg a
    let y := s.cpu.reg b
    givesPred (.cmpeq p a b) s p (decide (x = y)) ∧
    givesPred (.cmpne p a b) s p (decide (x ≠ y)) ∧
    givesPred (.cmplt p a b) s p (decide (x.toInt < y.toInt)) ∧
    givesPred (.cmpge p a b) s p (decide (y.toInt ≤ x.toInt)) ∧
    givesPred (.cmpltu p a b) s p (decide (x.toNat < y.toNat)) ∧
    givesPred (.cmpgeu p a b) s p (decide (y.toNat ≤ x.toNat)) ∧
    givesPred (.cmpeqi p a i) s p (decide (x.toInt = i.toInt)) ∧
    givesPred (.cmpnei p a i) s p (decide (x.toInt ≠ i.toInt)) ∧
    givesPred (.cmplti p a i) s p (decide (x.toInt < i.toInt)) ∧
    givesPred (.cmpgei p a i) s p (decide (i.toInt ≤ x.toInt)) ∧
    givesPred (.pand p q r) s p (s.cpu.pred q && s.cpu.pred r) ∧
    givesPred (.por p q r) s p (s.cpu.pred q || s.cpu.pred r) ∧
    givesPred (.pnot p q) s p (!s.cpu.pred q)

/-! ## Control flow -/

/-- B always branches, BC when p[P] XOR N is 1, JR to a multiple of 4; the target of B and BC is the word's address
plus four times the offset, and nothing but the pc changes (R31, R266, R267).

CALL pushes PC + 4 and branches: where the store of 16 is full, its oldest entry is first stored into the spill area,
an access of its own; RET, at every depth up to 272, pops the most recent return address, from the spill area where the
store is empty and the load gives its bytes at once; the depth follows, and a RET after a CALL is back at the next word
(R266, R267, R269).

A CALL at depth 272 traps RSOV, a RET at depth 0 traps RSUND, and a JR to an address that is no multiple of 4 traps
MISAL with FADDR the target: each exactly (R267, R269, R383, R385).  That a RET to a spilled address that is no multiple of
4 raises MISAL as JR does is the model's choice (log 102): neither R267 nor R269 says it. -/
def Obligations.ControlFlow : Prop :=
  (∀ (s : State) (o : BitVec 19) (p : Pred) (n : BitVec 1) (a : Reg),
     let target := BitVec.ofInt 64 (s.cpu.pc.toInt + 4 * o.toInt)
     (runsTo (.b o) s fun t => onlyPc s t target) ∧
     (runsTo (.bc p n o) s fun t => onlyPc s t (if xor (s.cpu.pred p) (n == 1) then target else s.cpu.pc + 4)) ∧
     ((s.cpu.reg a).toNat % 4 = 0 → runsTo (.jr a) s fun t => onlyPc s t (s.cpu.reg a))) ∧
  ((∀ (s : State) (o : BitVec 19) (u : UnitRec), s.cpu.run = some u → s.cpu.depth.toNat ≤ 272 →
     let open_ := s.cpu.depth.toNat < 272
      let called := fun (keep : Nat) =>
        { s.cpu with ras := (s.cpu.pc + 4) :: s.cpu.ras.take keep, depth := s.cpu.depth + 1, ahead := []
                     pc := BitVec.ofInt 64 (s.cpu.pc.toInt + 4 * o.toInt) }
      (open_ → s.cpu.ras.length < 16 → runsTo (.call o) s fun t => onlyCpu s t ∧ t.cpu = called 16) ∧
      (∀ ps, open_ → 16 ≤ s.cpu.ras.length →
        let va := u.frame.toNat + 8 * (s.cpu.depth.toNat - 16)
        (translate s (.seq s.cur) u.ctx u.part (s.cur.val / 16) va 8 true false false).2 = .ok ps →
        runsTo (.call o) s fun t => t.cpu = called 15 ∧ ∃ x, outstanding s t [x] ∧
          x.isOf s u .store 0 8 va ps ((s.cpu.ras[15]?.getD 0).setWidth 256) { ord := 0, scope := 1 }) ∧
      (∀ s1 f, open_ → 16 ≤ s.cpu.ras.length → handlerReady s →
        translate s (.seq s.cur) u.ctx u.part (s.cur.val / 16) (u.frame.toNat + 8 * (s.cpu.depth.toNat - 16)) 8 true false false
          = (s1, .fault f) → faultsExactly (.call o) s s1 f) ∧
      (∀ (ra : Word) (rest : List Word), s.cpu.ras = ra :: rest → s.cpu.depth ≠ 0 →
        runsTo .ret s fun t =>
          onlyCpu s t ∧ t.cpu = { s.cpu with ras := rest, depth := s.cpu.depth - 1, ahead := [], pc := ra }) ∧
      (∀ (s1 : State) (bs : List Byte), s.cpu.ras = [] → s.cpu.depth ≠ 0 →
        seqLoad s u (u.frame.toNat + 8 * (s.cpu.depth.toNat - 1)) 8 = (s1, .bytes bs) →
        { s1.cpu with reading := s.cpu.reading } = s.cpu → s1.cur = s.cur →
        let ra : Word := BitVec.ofNat 64 (ofBytes bs)
        (ra.toNat % 4 = 0 → runsTo .ret s fun t =>
          onlyCpu s1 t ∧ t.cpu = { s1.cpu with depth := s.cpu.depth - 1, ahead := [], pc := ra }) ∧
        (ra.toNat % 4 ≠ 0 → handlerReady s → runsTo .ret s fun t =>
          entersHandler s1 t 0x05 0 s.cpu.pc 0 (some (ra, 0xF3)))) ∧
      (open_ → s.cpu.ras.length < 16 → runsTo (.call o) s fun t => runsTo .ret t fun u =>
        u.cpu.pc = s.cpu.pc + 4 ∧ u.cpu.ras = s.cpu.ras ∧ u.cpu.depth = s.cpu.depth)) ∧
   (∀ (s : State) (o : BitVec 19) (a : Reg), s.cpu.run.isSome → handlerReady s →
      (272 ≤ s.cpu.depth.toNat → trapsExactly (.call o) s 0x08 0 none) ∧
      (s.cpu.depth = 0 → trapsExactly .ret s 0x09 0 none) ∧
      ((s.cpu.reg a).toNat % 4 ≠ 0 → trapsExactly (.jr a) s 0x05 0 (some (s.cpu.reg a, 0xF3)))))

/-- LOOP counts its register down by one, wrapped, and branches while the result is not zero; with D = 0 it writes
nothing and always branches.  Its word must leave A zero (R268). -/
def Obligations.LoopCountsDown : Prop :=
  (∀ (s : State) (d : Reg) (i : BitVec 12),
    let v := BitVec.ofInt 64 ((s.cpu.reg d).toInt - 1)
    runsTo (.loop d i) s fun t =>
      onlyCpu s t ∧ (∀ r, t.cpu.reg r = if r = d ∧ d ≠ 0 then v else s.cpu.reg r) ∧
      t.cpu.pc = (if v ≠ 0 then BitVec.ofInt 64 (s.cpu.pc.toInt + 4 * i.toInt) else s.cpu.pc + 4) ∧
      { t.cpu with regs := s.cpu.regs, pc := s.cpu.pc, ahead := s.cpu.ahead } = s.cpu) ∧
  (∀ d a : Reg, ∀ (i : BitVec 12) (pl : BitVec 32),
    decodeSeq (0x45#8 ++ d ++ a ++ i) pl = if a = 0 then .ok (.loop d i) else .error .reserved)

/-! ## Traps and CSRs -/

/-- TRAP with a handler: ECODE.ARG is the operand, ECODE.CODE 0x0D, EPC the word after it, and the trap is taken under
R385 (R400).

A trap with no handler, or inside one, aborts the unit: once nothing of it is outstanding the sequencer is idle, its
registers as they were, EPC and ECODE written, its streams ended, its launch CANCELLED, and the code, EPC and UNIT stand
last in the black box; until then the sequencer is stopped and goes no further (R386). -/
def Obligations.Traps : Prop :=
  (∀ (s : State) (i : BitVec 18), handlerReady s →
     runsTo (.trap i) s fun t => entersHandler s t 0x0D i.toNat (s.cpu.pc + 4) 0 none) ∧
  (∀ (s : State) (i : BitVec 18) (u : UnitRec), s.cpu.run = some u → ¬handlerReady s →
     (leavesAtOnce s u 0x0D i.toNat (s.cpu.pc + 4) →
       runsTo (.trap i) s fun t => abortsUnit s t u 0x0D i.toNat (s.cpu.pc + 4)) ∧
     (unitBusy s s.cur = true → runsTo (.trap i) s fun t => t = aborting s 0x0D i.toNat (s.cpu.pc + 4)))

/-- ERET clears H and goes to EPC.PC; outside a handler it traps ILLOP, which enters a handler that is installed and
otherwise aborts the unit, here one that can leave at once.  Its word is 0xC1000000 alone (R401). -/
def Obligations.ReturnFromHandler : Prop :=
  (∀ s : State, s.cpu.h = true →
    runsTo .eret s fun t =>
      onlyCpu s t ∧ t.cpu = { s.cpu with h := false, pc := s.cpu.epc &&& 0x000FFFFFFFFFFFFC#64, ahead := [] }) ∧
  (∀ s : State, handlerReady s → trapsExactly .eret s 0x01 0xC1000000 none) ∧
  (∀ (s : State) (u : UnitRec), s.cpu.run = some u → s.cpu.h = false → ¬handlerReady s → leavesAtOnce s u 1 0 s.cpu.pc →
     runsTo .eret s fun t => abortsUnit s t u 1 0 s.cpu.pc) ∧
  (∀ (d a b f : BitVec 6) (pl : BitVec 32),
    decodeSeq (0xC1#8 ++ d ++ a ++ b ++ f) pl =
      if d = 0 ∧ a = 0 ∧ b = 0 ∧ f = 0 then .ok .eret else .error .reserved)

/-- CSRR of each CSR that may be read gives its value, in the layout of its table, and writes nothing else; the
identifier CSRs read 0 before a unit is popped; of every other number, which the manual assigns to no CSR or which XLINV
has, it traps ILLOP exactly (R71, R144, R257, R384, R389, R402). -/
def Obligations.CsrReads : Prop :=
  (∀ (s : State) (d : Reg) (u : UnitRec), s.cpu.run = some u →
    let c := s.cpu
    let csrs : List (BitVec 12 × Word) :=
      [(0x400, u.unit.setWidth 64), (0x401, BitVec.ofNat 64 (u.lcm1.toNat + 1)), (0x402, u.launch.setWidth 64),
       (0x403, u.handle.setWidth 64), (0x404, u.phase.setWidth 64), (0x405, u.ctx.setWidth 64), (0x406, BitVec.ofNat 64 u.part),
       (0x407, BitVec.ofNat 64 (s.cur.val / 16)), (0x408, u.frame.setWidth 64), (0x409, c.depth.setWidth 64),
       (0x40A, BitVec.ofNat 64 (s.cur.val % 16)), (0x410, c.faddr), (0x411, c.finfo), (0x413, c.epc), (0x414, c.ecode),
       (0x415, BitVec.ofNat 64 ((if c.h then 1 else 0) +
         (graphOf s u.ctx u.handle.toNat).elim 0 fun g => if g.recs.isEmpty then 0 else 2)),
       (0x416, c.tvec), (0x417, c.escr), (0x418, c.eword), (0x420, c.ctag), (0x421, c.ctagf), (0x422, c.ctbusy),
       (0x423, c.cfaddr), (0x424, c.cfinfo),
       (0x425, BitVec.ofNat 64 (tilesOf s s.cur * 2 ^ 24 + copyCount s s.cur * 2 ^ 16 + storeCount s s.cur * 2 ^ 8 +
         loadCount s s.cur)),
       (0x430, c.frec0), (0x431, c.frec1), (0x432, c.frec2), (0x433, c.frec3)]
    (∀ x ∈ csrs, givesReg (.csrr d x.1) s d x.2) ∧
    (∀ n : BitVec 12, (∀ x ∈ csrs, x.1 ≠ n) → handlerReady s →
      trapsExactly (.csrr d n) s 0x01 ((0xC2#8 ++ d ++ 0#6 ++ n).setWidth 64) none)) ∧
  (∀ (s : State) (d : Reg) (n : BitVec 12), s.cpu.run = none →
    n ∈ [0x400#12, 0x401, 0x402, 0x403, 0x404, 0x405, 0x406, 0x407, 0x408, 0x40A] → givesReg (.csrr d n) s d 0)

/-- CSRW writes EPC, TVEC and ESCR where the value keeps to the fields that may be set; a value that does not, a
read-only CSR and a number that the manual assigns to no CSR trap ILLOP exactly (R384, R402).

A write to RADEPTH, as the CSRW or by its own name, of a value that is not above the depth discards the most recent
return addresses above it; a larger one raises OPRNG with FADDR 0 and FINFO 0xF5 (R256, R257, R402).  That a value with a bit
above the field traps ILLOP, and not OPRNG, is the model's choice (log 113). -/
def Obligations.CsrWrites : Prop :=
  (∀ (s : State) (a : Reg),
     let v := s.cpu.reg a
     let word := fun (n : BitVec 12) => (0xC3#8 ++ 0#6 ++ a ++ n).setWidth 64
     (v &&& ~~~0x000FFFFFFFFFFFFC#64 = 0 → runsTo (.csrw a 0x413) s fun t =>
       onlyCpu s t ∧ t.cpu = { s.cpu with epc := v, pc := s.cpu.pc + 4 }) ∧
     (v &&& ~~~0x800FFFFFFFFFFFFC#64 = 0 → runsTo (.csrw a 0x416) s fun t =>
       onlyCpu s t ∧ t.cpu = { s.cpu with tvec := v, pc := s.cpu.pc + 4 }) ∧
     (runsTo (.csrw a 0x417) s fun t => onlyCpu s t ∧ t.cpu = { s.cpu with escr := v, pc := s.cpu.pc + 4 }) ∧
     (handlerReady s →
       (v &&& ~~~0x000FFFFFFFFFFFFC#64 ≠ 0 → trapsExactly (.csrw a 0x413) s 0x01 (word 0x413) none) ∧
       (v &&& ~~~0x800FFFFFFFFFFFFC#64 ≠ 0 → trapsExactly (.csrw a 0x416) s 0x01 (word 0x416) none) ∧
       (∀ n : BitVec 12, n ∉ [0x409#12, 0x412#12, 0x413#12, 0x416#12, 0x417#12] → trapsExactly (.csrw a n) s 0x01 (word n) none))) ∧
  (∀ (s : State) (a : Reg) (i : Instr), i = .csrw a 0x409 ∨ i = .radepthWrite a →
     let v := s.cpu.reg a
     (v.toNat < 512 → v.toNat ≤ s.cpu.depth.toNat → runsTo i s fun t =>
       onlyCpu s t ∧
       t.cpu = { s.cpu with depth := BitVec.ofNat 9 v.toNat, ras := s.cpu.ras.drop (s.cpu.depth.toNat - v.toNat)
                            pc := s.cpu.pc + 4 }) ∧
     (handlerReady s → s.cpu.depth.toNat < v.toNat → v.toNat < 512 → trapsExactly i s 0x06 0 (some (0, 0xF5))) ∧
     (handlerReady s → 512 ≤ v.toNat → trapsExactly i s 0x01 ((0xC3#8 ++ 0#6 ++ a ++ 0x409#12).setWidth 64) none))

/-- A write to XLINV, as the CSRW or by its own name, removes every translation of a byte of its 64 KiB range, or of the
whole context, from every holder and from the walker caches at once, directory entries among them, and no other of a
holder, and waits; it completes, at the next word, once no access that used one of them and no pull of the range is left,
and till then stands; the stores of the context that its fabric holds or has released count as accesses that used what went;
and where no access of the context is outstanding, no store of it held and no page of it being pulled, nothing holds it
(R70, R83).  A value with a reserved bit traps ILLOP exactly (R70).  That an XLINV with ALL waits for every pull of the
context is the model's choice (log 32): R83 speaks of one that names the page. -/
def Obligations.XlinvRemovesTranslations : Prop :=
  (∀ (s : State) (a : Reg) (u : UnitRec) (i : Instr), i = .csrw a 0x412 ∨ i = .xlinvWrite a → s.cpu.run = some u →
    let v := s.cpu.reg a
    let named := fun (va lg : Nat) => bit v 63 = true ∨ va / 2 ^ lg = bits v 51 16 * 65536 / 2 ^ lg
    ((∀ p ids, s.cpu.wait ≠ .xlinv p ids) → v &&& ~~~0x800FFFFFFFFF0000#64 = 0 →
      runsTo i s fun t =>
        t.mem = s.mem ∧ t.cpu.regs = s.cpu.regs ∧ t.cpu.pc = s.cpu.pc ∧ (∀ q, q ≠ s.cur → t.seqs.get q = s.seqs.get q) ∧
        (∀ e, e ∈ t.tlb ↔ e ∈ s.tlb ∧ ¬(e.ctx = u.ctx ∧ named e.va e.leaf.lg)) ∧
        (∀ e, e ∈ t.walkCache ↔ e ∈ s.walkCache ∧ ¬(e.ctx = u.ctx ∧ named e.va (levelShift e.level))) ∧
        (∃ page ids, t.cpu.wait = .xlinv page ids ∧ (page = none ↔ bit v 63 = true) ∧
          ∀ x ∈ s.accesses, x.id ∈ ids ↔ ∃ y ∈ s.accesses, y.id = x.id ∧ y.ctx = u.ctx ∧ ∃ p ∈ y.parts, named p.va p.leaf.lg) ∧
        (∀ i ∈ t.instances, i.blk.key.ctx = u.ctx → ∀ h ∈ i.stores, ∀ p ∈ h.parts, named p.va p.leaf.lg → h.stale = true) ∧
        ((∀ x ∈ s.accesses, x.ctx ≠ u.ctx) → (∀ p ∈ s.pulls, p.req.ctx ≠ u.ctx) →
          (∀ i ∈ s.instances, i.blk.key.ctx = u.ctx → i.stores = []) →
          runsTo (.xlinvComplete s.cur) t fun w => w.cpu.pc = s.cpu.pc + 4 ∧ w.cpu.wait = .none ∧ w.cpu.regs = s.cpu.regs ∧
            w.mem = s.mem)) ∧
    (v &&& ~~~0x800FFFFFFFFF0000#64 ≠ 0 → handlerReady s →
      trapsExactly i s 0x01 ((0xC3#8 ++ 0#6 ++ a ++ 0x412#12).setWidth 64) none)) ∧
  (∀ (s : State) (q : SeqId) (page : Option Nat) (ids : List Nat) (u : UnitRec), (s.seqs.get q).wait = .xlinv page ids →
    (s.seqs.get q).run = some u →
    let held := (∃ x ∈ s.accesses, x.id ∈ ids) ∨ (∃ p ∈ s.pulls, p.req.ctx = u.ctx ∧ (page = none ∨ page = some p.page)) ∨
      ∃ i ∈ s.instances, i.blk.key.ctx = u.ctx ∧ ∃ h ∈ i.stores, h.stale = true ∧ ∃ p ∈ h.parts,
        page = none ∨ ∃ k, page = some k ∧ p.va / 2 ^ p.leaf.lg = k * 65536 / 2 ^ p.leaf.lg
    (¬held → runsTo (.xlinvComplete q) s fun t =>
      { t with seqs := s.seqs } = s ∧ (∀ r, r ≠ q → t.seqs.get r = s.seqs.get r) ∧
      t.seqs.get q = { s.seqs.get q with pc := (s.seqs.get q).pc + 4, wait := .none }) ∧
    (held → exec (.xlinvComplete q) s = .next s))

/-! ## Tags and counters -/

/-- CFFR gives the lowest one bit of CTAG under a mask, 64 for none, and never waits; CTAGCLR clears the named bits of
CTAG and CTAGF and leaves BUSY tags alone.  Their words must leave the unused fields zero (R155). -/
def Obligations.TagReadAndClear : Prop :=
  (∀ (s : State) (d a : Reg),
    let m := s.cpu.ctag &&& s.cpu.reg a
    (∃ n : Nat, givesReg (.cffr d a) s d (BitVec.ofNat 64 n) ∧ n ≤ 64 ∧ (∀ k < n, m.getLsbD k = false) ∧
      (n < 64 → m.getLsbD n = true)) ∧
    (runsTo (.ctagclr a) s fun t =>
      onlyCpu s t ∧
      t.cpu = { s.cpu with ctag := s.cpu.ctag &&& ~~~s.cpu.reg a, ctagf := s.cpu.ctagf &&& ~~~s.cpu.reg a
                           pc := s.cpu.pc + 4 })) ∧
  (∀ (d a b f : BitVec 6) (pl : BitVec 32),
    decodeSeq (0x72#8 ++ d ++ a ++ b ++ f) pl = (if b = 0 ∧ f = 0 then .ok (.cffr d a) else .error .reserved) ∧
    decodeSeq (0x73#8 ++ d ++ a ++ b ++ f) pl = (if d = 0 ∧ b = 0 ∧ f = 0 then .ok (.ctagclr a) else .error .reserved))

/-- WANY and WALL: with a mask of no bits they give 0; with a named tag, or every named tag, READY they give those
READY, or those FAULTed; otherwise, with the tags BUSY, they wait where they are; and a mask that names an idle tag
traps CTIDLE (R154).

WAITC goes on once every class count is at or below its operand, and until then stands still (R120, R156). -/
def Obligations.Waits : Prop :=
  (∀ (s : State) (d a : Reg),
     let m := s.cpu.reg a
     let c := s.cpu
     (m = 0 → givesReg (.wany d a) s d 0 ∧ givesReg (.wall d a) s d 0) ∧
     (c.ctag &&& m ≠ 0 → givesReg (.wany d a) s d (c.ctag &&& m)) ∧
     (m ≠ 0 → c.ctag &&& m = m → givesReg (.wall d a) s d (c.ctagf &&& m)) ∧
     (c.ctag &&& m = 0 → c.ctbusy &&& m ≠ 0 → exec (.wany d a) s = .next s) ∧
     (m &&& ~~~(c.ctag ||| c.ctbusy) = 0 → c.ctag &&& m ≠ m → exec (.wall d a) s = .next s) ∧
     (handlerReady s → m ≠ 0 →
       ((c.ctag ||| c.ctbusy) &&& m = 0 → trapsExactly (.wany d a) s 0x07 0 none) ∧
       (m &&& ~~~(c.ctag ||| c.ctbusy) ≠ 0 → trapsExactly (.wall d a) s 0x07 0 none))) ∧
  (∀ (s : State) (l st c t : BitVec 4),
     (loadCount s s.cur ≤ l.toNat → storeCount s s.cur ≤ st.toNat → copyCount s s.cur ≤ c.toNat →
       tilesOf s s.cur ≤ t.toNat → runsTo (.waitc l st c t) s fun u => onlyCpu s u ∧ u.cpu = { s.cpu with pc := s.cpu.pc + 4 }) ∧
     (l.toNat < loadCount s s.cur ∨ st.toNat < storeCount s s.cur ∨ c.toNat < copyCount s s.cur ∨
       t.toNat < tilesOf s s.cur → exec (.waitc l st c t) s = .next s))

/-! ## Memory instructions of the sequencer -/

/-- An access that stays in one 64 KiB piece, whose page has an entry of its sequencer that serves it, is translated by
that entry at once: the physical address is the frame plus the offset in the page; and one for which no entry serves it
goes to the walkers of its die, where their queue of 256 has room, and waits (R60, R63, R64, R66).

Whatever is translated for a sequencer comes in its 64 KiB pieces, each by a page of its own, and nothing changes but
what a translation takes note of (R60). -/
def Obligations.TranslationByEntry : Prop :=
  (∀ (s : State) (ctx : BitVec 12) (part die va n : Nat) (write atomic sc : Bool),
    (∀ w ∈ s.walkFaults, w.holder ≠ .seq s.cur) → missOf s (.seq s.cur) = none → va < 2 ^ 52 → 0 < n → va % 65536 + n ≤ 65536 →
    let tr := translate s (.seq s.cur) ctx part die va n write atomic sc
    (∀ e, entryFor s (.seq s.cur) ctx va = some e →
      ((write || atomic) = true → e.leaf.d = true) → (inArrays e.leaf.frame = true ∨ keyState s e.leaf.key = .loaded) →
      reachCheck s e.leaf va write atomic sc = none →
      tr.2 = .ok [{ va := va, pa := e.leaf.frame + va % 2 ^ e.leaf.lg, n := n, leaf := e.leaf }]) ∧
    (entryFor s (.seq s.cur) ctx va = none → (s.walks.filter fun r => r.die == die).length < 256 →
      tr = ({ s with walks := s.walks ++ [{ holder := .seq s.cur, die := die, ctx := ctx, part := part, va := va, first := va
                                            write := write, atomic := atomic, soft := false }] }, .wait))) ∧
  (∀ (s : State) (q : SeqId) (ctx : BitVec 12) (part die va n : Nat) (write atomic sc : Bool) (ps : List Part),
    let tr := translate s (.seq q) ctx part die va n write atomic sc
    tr.2 = .ok ps →
    onlyLookedUp s tr.1 ∧ (ps.map fun p => (p.va, p.n)) = chunks 65536 (n + 1) va n ∧
    ∀ p ∈ ps, p.pa = p.leaf.frame + p.va % 2 ^ p.leaf.lg)

/-- LDS and STS of both encodings: where the class count is below 63 and the address translates, the access becomes
outstanding with the width and extension of its code, and the instruction is done; no register is written yet; with 63
of its class outstanding it waits at issue, and where its translation faults it traps exactly (R120, R123, R124, R126).

An .sc load or store at a natural alignment stands between two FENCE.sc of SYS scope; one that is not aligned traps
MISAL, before any translation, with FADDR the address and FINFO.WRITE for the store (R71, R123, R127). -/
def Obligations.LoadsAndStores : Prop :=
  (∀ (s : State) (u : UnitRec) (w : BitVec 3) (d a : Reg) (i : BitVec 12) (os : OrdScope) (off : BitVec 32),
     s.cpu.run = some u → os.ord ≠ 4 →
     let n := ([1, 1, 2, 2, 4, 4, 8, 16] : List Nat).getD w.toNat 0
     let m := ([1, 2, 4, 8, 16] : List Nat).getD w.toNat 16
     let short := BitVec.ofInt 64 ((s.cpu.reg a).toInt + i.toInt)
     let long := BitVec.ofInt 64 ((s.cpu.reg a).toInt + off.toInt)
     let pair := (s.cpu.reg (d + 1) ++ s.cpu.reg d).setWidth 256
     let out := fun (i : Instr) (k : AccKind) (dest n : Nat) (va : Word) (write : Bool) (data : BitVec 256) (os : OrdScope)
         (len : Word) =>
       let tr := translate s (.seq s.cur) u.ctx u.part (s.cur.val / 16) va.toNat n write false false
       (∀ ps, tr.2 = .ok ps → runsTo i s fun t => ∃ x, queues s t [x] len ∧ x.isOf s u k dest n va.toNat ps data os) ∧
       (∀ f, tr.2 = .fault f → handlerReady s → faultsExactly i s tr.1 f)
     let load := AccKind.load (decide (w = 1 ∨ w = 3 ∨ w = 5))
     (loadCount s s.cur < 63 →
       out (.ldsShort w d a i) load d.toNat n short false 0 { ord := 0, scope := 1 } 4 ∧
       out (.ldsLong w d a os off) load d.toNat n long false 0 os 8) ∧
     (storeCount s s.cur < 63 →
       out (.stsShort w d a i) .store 0 m short true pair { ord := 0, scope := 1 } 4 ∧
       out (.stsLong w d a os off) .store 0 n long true pair os 8) ∧
     (63 ≤ loadCount s s.cur → exec (.ldsShort w d a i) s = .next s ∧ exec (.ldsLong w d a os off) s = .next s) ∧
     (63 ≤ storeCount s s.cur → exec (.stsShort w d a i) s = .next s ∧ exec (.stsLong w d a os off) s = .next s)) ∧
  (∀ (s : State) (u : UnitRec) (w : BitVec 3) (d a : Reg) (scope : BitVec 3) (off : BitVec 32),
     s.cpu.run = some u →
     let n := ([1, 1, 2, 2, 4, 4, 8, 16] : List Nat).getD w.toNat 0
     let va := BitVec.ofInt 64 ((s.cpu.reg a).toInt + off.toInt)
     let pair := (s.cpu.reg (d + 1) ++ s.cpu.reg d).setWidth 256
     let os : OrdScope := { ord := 4, scope := scope }
     let fence := fun (x : Access) => x.q = s.cur ∧ x.kind = .fence ∧ x.ord = 4 ∧ x.scope = 4 ∧ x.ringed = true
     let out := fun (i : Instr) (k : AccKind) (dest : Nat) (write : Bool) (data : BitVec 256) =>
       let tr := translate s (.seq s.cur) u.ctx u.part (s.cur.val / 16) va.toNat n write false true
       (∀ ps, tr.2 = .ok ps → runsTo i s fun t => ∃ x y z, queues s t [x, y, z] 8 ∧ fence x ∧ fence z ∧
         y.isOf s u k dest n va.toNat ps data os ∧ y.ringed = true) ∧
       (∀ f, tr.2 = .fault f → handlerReady s → faultsExactly i s tr.1 f)
     (loadCount s s.cur < 63 → va.toNat % n = 0 →
       out (.ldsLong w d a os off) (.load (decide (w = 1 ∨ w = 3 ∨ w = 5))) d.toNat false 0) ∧
     (storeCount s s.cur < 63 → va.toNat % n = 0 → out (.stsLong w d a os off) .store 0 true pair) ∧
     (handlerReady s → va.toNat % n ≠ 0 →
       (loadCount s s.cur < 63 → trapsExactly (.ldsLong w d a os off) s 0x05 0 (some (va, 0xF3))) ∧
       (storeCount s s.cur < 63 → trapsExactly (.stsLong w d a os off) s 0x05 0 (some (va, 0x4F3)))))

/-- The eight AMOs and AMAXRS: at a multiple of 8 whose page translates as a write, the operation becomes outstanding
with its addend and, for CAS, the value to compare, between two FENCE.sc where its order is sc; the issuing sequencer's L1
copy of the line goes, and D is not written yet.  With 63 loads outstanding it waits at issue; an address that is no
multiple of 8 traps MISAL with FINFO.WRITE and ATOMIC, and one whose translation faults traps so (R71, R120, R123, R127 to
R131). -/
def Obligations.AtomicsIssue : Prop :=
  ∀ (s : State) (u : UnitRec) (d a b : Reg) (os : OrdScope), s.cpu.run = some u →
    let va := s.cpu.reg a
    let s1 := dropOwnL1 s va
    let tr := translate s1 (.seq s.cur) u.ctx u.part (s.cur.val / 16) va.toNat 8 true true (os.ord == 4)
    let fence := fun (x : Access) => x.q = s.cur ∧ x.kind = .fence ∧ x.ord = 4 ∧ x.scope = 4 ∧ x.ringed = true
    let out := fun (i : Instr) (k : AccKind) (data : BitVec 256) =>
      let is := fun (x : Access) ps => x.isOf s u k d.toNat 8 va.toNat ps data os ∧ (k ≠ .amaxrs → x.cmp = s.cpu.reg d)
      (loadCount s s.cur < 63 → va.toNat % 8 = 0 →
        (∀ ps, tr.2 = .ok ps →
          (os.ord ≠ 4 → runsTo i s fun t => ∃ x, queues s1 t [x] 4 ∧ is x ps) ∧
          (os.ord = 4 → runsTo i s fun t => ∃ x y z, queues s1 t [x, y, z] 4 ∧ fence x ∧ fence z ∧ is y ps ∧ y.ringed = true)) ∧
        (∀ f, tr.2 = .fault f → handlerReady s → faultsExactly i s tr.1 f)) ∧
      (loadCount s s.cur < 63 → va.toNat % 8 ≠ 0 → handlerReady s →
        runsTo i s fun t => entersHandler s1 t 0x05 0 s.cpu.pc 0 (some (va, 0xCF3))) ∧
      (63 ≤ loadCount s s.cur → exec i s = .next s1)
    { s1 with l1 := s.l1 } = s ∧ (∀ x ∈ s1.l1, x ∈ s.l1) ∧
    out (.amoadd d a b os) (.amo 0) ((s.cpu.reg b).setWidth 256) ∧
    out (.amomin d a b os) (.amo 1) ((s.cpu.reg b).setWidth 256) ∧
    out (.amomax d a b os) (.amo 2) ((s.cpu.reg b).setWidth 256) ∧
    out (.amoand d a b os) (.amo 3) ((s.cpu.reg b).setWidth 256) ∧
    out (.amoor d a b os) (.amo 4) ((s.cpu.reg b).setWidth 256) ∧
    out (.amoxor d a b os) (.amo 5) ((s.cpu.reg b).setWidth 256) ∧
    out (.amoswap d a b os) (.amo 6) ((s.cpu.reg b).setWidth 256) ∧
    out (.amocas d a b os) (.amo 7) ((s.cpu.reg b).setWidth 256) ∧
    out (.amaxrs d a os) .amaxrs 0

/-- A load that is performed returns its bytes, sign- or zero-extended, to its register and is no longer outstanding; a
store replaces exactly its bytes; an atomic returns the old word and stores the new one, CAS only where the old word
equals the one to compare, and AMAXRS returns the cell and leaves zero; and nothing else changes: here for an operation,
relaxed or of a scope below PKG, on the bytes of one page of the arrays at its natural alignment (R61, R119, R120, R126, R129,
R131).  Of a store that is misaligned one part that may be performed is, and the others stay (R61).

At its natural alignment within one line of any page an operation is performed so: a release of PKG or SYS scope, or of
order sc, first writes back every dirty line of its context on its die; an SO page, one with LA = 0 and an array is read and
written in memory under the leaf's key; for an acquire load, a release store or an atomic of PKG or SYS scope, an operation
of order sc and AMAXRS the die's copy of the line is flushed first and memory is read and written; any other is performed on
the line of the die's L2, or in memory where the L2 has no way for it; and an acquire of PKG or SYS scope, or of order sc,
then invalidates the clean RC lines of its context on its die (R100, R103, R104, R119, R127).

The L2 answers a hit with the line; a miss takes an invalid way of the partition's, or else the least recently used line that
is not pinned leaves, written back where it is dirty, and the line comes from memory, clean, under the leaf's key; where no
way is there, or each is pinned, nothing is allocated (R98, R100).  What a line of an array that leaves CACHE does is the
model's choice (log 25). -/
def Obligations.AccessPerformed : Prop :=
  (∀ (s : State) (a : Access) (p : Part),
    s.accesses.find? (fun x => x.id == a.id) = some a → a.ringed = false → a.elem = none →
    a.ord = 0 ∨ (a.ord ≠ 4 ∧ a.scope.toNat ≤ 2) →
    canPerform s a = true → a.parts = [p] → a.left = [p] → p.n = a.n → 0 < a.n → a.n ≤ 16 → a.va % a.n = 0 →
    inArrays p.pa = true → inArrays (p.pa + (a.n - 1)) = true →
    let old := fun (k : Nat) => (memGet s.mem (p.pa + k)).getD 0
    let read := ofBytes ((List.range a.n).map old)
    let word := BitVec.ofNat 64 read
    let b : Word := a.data.setWidth 64
    let regs := fun (t : State) (v : Word) =>
      (∀ q, q ≠ a.q → t.seqs.get q = s.seqs.get q) ∧
      t.seqs.get a.q = (s.seqs.get a.q).setReg (BitVec.ofNat 6 a.dest) v
    let bytes := fun (t : State) (v : Nat) =>
      ∀ x, (memGet t.mem x).getD 0 =
        if p.pa ≤ x ∧ x < p.pa + a.n then BitVec.ofNat 8 (v / 256 ^ (x - p.pa)) else (memGet s.mem x).getD 0
    let done := fun (t : State) =>
      t.accesses = (s.accesses.filter fun x => x.id != a.id) ∧
      { t with accesses := s.accesses, seqs := s.seqs, mem := s.mem } = s
    (∀ sg, a.kind = .load sg → a.n ≤ 8 → runsTo (.accessPerformed a.id) s fun t =>
      done t ∧ t.mem = s.mem ∧ regs t (if sg then BitVec.ofInt 64 (sxInt (8 * a.n) read) else word)) ∧
    (∀ sg, a.kind = .load sg → a.n = 16 → runsTo (.accessPerformed a.id) s fun t =>
      done t ∧ t.mem = s.mem ∧ (∀ q, q ≠ a.q → t.seqs.get q = s.seqs.get q) ∧
      t.seqs.get a.q = ((s.seqs.get a.q).setReg (BitVec.ofNat 6 a.dest) (BitVec.ofNat 64 (read % 2 ^ 64))).setReg
        (BitVec.ofNat 6 a.dest + 1) (BitVec.ofNat 64 (read / 2 ^ 64))) ∧
    (a.kind = .store → runsTo (.accessPerformed a.id) s fun t => done t ∧ t.seqs = s.seqs ∧ bytes t a.data.toNat) ∧
    (∀ op, a.kind = .amo op → a.n = 8 → op < 8 → runsTo (.accessPerformed a.id) s fun t =>
      done t ∧ regs t word ∧
      let news : List Word := [word + b, BitVec.ofInt 64 (min word.toInt b.toInt), BitVec.ofInt 64 (max word.toInt b.toInt),
        word &&& b, word ||| b, word ^^^ b, b, if word = a.cmp then b else word]
      bytes t (news.getD op 0).toNat) ∧
    (a.kind = .amaxrs → a.n = 8 → runsTo (.accessPerformed a.id) s fun t => done t ∧ regs t word ∧ bytes t 0)) ∧
  (∀ (s : State) (a : Access),
    s.accesses.find? (fun x => x.id == a.id) = some a → a.ringed = false → a.elem = none → a.ord = 0 → a.kind = .store →
    canPerform s a = true → 2 ≤ a.left.length → a.left.Nodup → (∀ p ∈ a.left, inArrays p.pa = true ∧ p.n = 1) →
    runsTo (.accessPerformed a.id) s fun t => ∃ p ∈ a.left, pieceReady s a p = true ∧
      (∀ x, (memGet t.mem x).getD 0 =
        if x = p.pa then BitVec.ofNat 8 (a.data.toNat / 256 ^ (p.va - a.va)) else (memGet s.mem x).getD 0) ∧
      ∃ e ∈ t.accesses, e = { a with left := a.left.erase p }) ∧
  (∀ (s : State) (a : Access) (p : Part),
    a.parts = [p] → a.left = [p] → p.n = a.n → 0 < a.n → a.n ≤ 16 → a.va % a.n = 0 → p.pa % 128 + a.n ≤ 128 → a.elem = none →
    let line := p.pa / 128
    let off := p.pa % 128
    let wide := a.ord = 4 ∨ a.scope = 3 ∨ a.scope = 4
    let acq := a.ord = 1 ∨ a.ord = 3 ∨ a.ord = 4
    let rel := a.ord = 2 ∨ a.ord = 3 ∨ a.ord = 4
    let atHome := a.ord = 4 ∨ a.kind = .amaxrs ∨ ((a.scope = 3 ∨ a.scope = 4) ∧
      (((∃ sg, a.kind = .load sg) ∧ acq) ∨ (a.kind = .store ∧ rel) ∨ ∃ op, a.kind = .amo op))
    let s0 := if rel ∧ wide then releaseWriteBack s a.die a.ctx else s
    let acquired := fun (w : State) => if acq ∧ wide then acquireInvalidate w a.die a.ctx else w
    let gone := fun (w : State) => { w with accesses := w.accesses.filter fun x => x.id != a.id }
    (s.accesses.find? (fun x => x.id == a.id) = some a → a.ringed = false → canPerform s a = true →
      exec (.accessPerformed a.id) s = .next (perform s a)) ∧
    ∀ (w : State) (cell : Option L2Line),
      (allocatable p.leaf p.pa = false ∧ w = s0 ∧ cell = none) ∨
      (allocatable p.leaf p.pa = true ∧ atHome ∧ cell = none ∧ w = (l2Find s0 a.die a.part line).elim s0 (l2Flush s0)) ∨
      (allocatable p.leaf p.pa = true ∧ ¬atHome ∧ (w, cell) = l2Get s0 a.die a.part a.ctx p.leaf p.pa) →
      let read := ofBytes (match cell with
        | some l => sliceOf l.data off a.n
        | none => readSlot w p.leaf.key p.pa a.n)
      let own := match cell with
        | some _ => { w with l1 := if w.l1.contains (a.q, line) then w.l1 else w.l1 ++ [(a.q, line)] }
        | none => w
      let word : Word := BitVec.ofNat 64 read
      let b : Word := a.data.setWidth 64
      (∀ sg, a.kind = .load sg → a.n ≤ 8 → perform s a = gone ((acquired own).updSeq a.q fun c =>
        c.setReg (BitVec.ofNat 6 a.dest) (if sg then BitVec.ofInt 64 (sxInt (8 * a.n) read) else word))) ∧
      (∀ sg, a.kind = .load sg → a.n = 16 → perform s a = gone ((acquired own).updSeq a.q fun c =>
        (c.setReg (BitVec.ofNat 6 a.dest) (BitVec.ofNat 64 (read % 2 ^ 64))).setReg (BitVec.ofNat 6 a.dest + 1)
          (BitVec.ofNat 64 (read / 2 ^ 64)))) ∧
      (a.kind = .store → perform s a = gone (acquired (match cell with
        | some l => l1Drop (l2Set w l { l with data := patch l.data off (toBytes a.n a.data.toNat), dirty := true }) a.die line
        | none => writeSlot w a.part p.leaf.key p.pa (toBytes a.n a.data.toNat)))) ∧
      (∀ op, (a.kind = .amo op ∧ op < 8) ∨ (a.kind = .amaxrs ∧ op = 8) → a.n = 8 →
        let news : List Word := [word + b, BitVec.ofInt 64 (min word.toInt b.toInt), BitVec.ofInt 64 (max word.toInt b.toInt),
          word &&& b, word ||| b, word ^^^ b, b, b, 0]
        let new := news.getD op 0
        let returned := (perform s a).seqs = (w.updSeq a.q fun c => c.setReg (BitVec.ofNat 6 a.dest) word).seqs
        returned ∧ (op = 7 → word ≠ a.cmp → (perform s a).mem = w.mem) ∧
        (op ≠ 7 ∨ word = a.cmp →
          (cell = none → (allocatable p.leaf p.pa = true → atHome → l2Find w a.die a.part line = none) → perform s a = gone ((acquired (writeSlot w a.part p.leaf.key p.pa (toBytes 8 new.toNat))).updSeq a.q fun c =>
            c.setReg (BitVec.ofNat 6 a.dest) word)) ∧
          (∀ l, cell = some l → l.die = a.die → l.part = a.part → l.line = line → l.live = true → leavingCache w l.array = false →
            l2Find w a.die a.part line = some l → (perform s a).mem = w.mem ∧
            ∃ k, l2Find (perform s a) a.die a.part line = some k ∧ k.data = patch l.data off (toBytes 8 new.toNat) ∧ k.dirty = true)))) ∧
  (∀ (s : State) (die part : Nat) (ctx : BitVec 12) (leaf : Leaf) (pa : Nat),
    let line := pa / 128
    let ways := l2Ways s die part pa
    (∀ l, l2Find s die part line = some l → leavingCache s l.array = false →
      l2Get s die part ctx leaf pa = ({ l2Set s l { l with used := s.tick } with tick := s.tick + 1 }, some { l with used := s.tick })) ∧
    (∀ l, l2Find s die part line = some l → leavingCache s l.array = true →
      l2Get s die part ctx leaf pa = (l1Drop (l2WriteBack s l) die line, none)) ∧
    (l2Find s die part line = none →
      let filled := fun (w : State) (way : Nat) => ∃ l, l2Get s die part ctx leaf pa = ({ w with l2 := w.l2 ++ [l], tick := w.tick + 1 }, some l) ∧
        l.die = die ∧ l.line = line ∧ l.way = way ∧ l.ctx = ctx ∧ l.part = part ∧ l.key = leaf.key ∧ l.ord = leaf.ord ∧
        l.dirty = false ∧ l.live = true ∧ l.pins = [] ∧ l.data = readSlot w leaf.key (128 * line) 128
      (∀ way ∈ ways, l2Occupant s die pa way = none → ∃ k ∈ ways, l2Occupant s die pa k = none ∧ filled s k) ∧
      ((∀ way ∈ ways, ∃ l, l2Occupant s die pa way = some l ∧ l.pins ≠ []) → l2Get s die part ctx leaf pa = (s, none)) ∧
      (∀ way l, (∀ k ∈ ways, l2Occupant s die pa k ≠ none) → way ∈ ways → l2Occupant s die pa way = some l → l.pins = [] →
        ∃ k ∈ ways, ∃ v, l2Occupant s die pa k = some v ∧ v.pins = [] ∧ v.used ≤ l.used ∧ filled (l2Flush s v) v.way))) ∧
  (∀ (s : State) (die : Nat) (ctx : BitVec 12),
    (∀ l ∈ (releaseWriteBack s die ctx).l2, l.live = true → l.die = die → l.ctx = ctx → l.dirty = false) ∧
    (∀ l ∈ s.l2, l.live = false ∨ l.die ≠ die ∨ l.ctx ≠ ctx ∨ l.dirty = false → l ∈ (releaseWriteBack s die ctx).l2) ∧
    (∀ l, l2WriteBack s l = if l.dirty = true then
      l2Set (writeSlot s l.part l.key (128 * l.line) l.data) l { l with dirty := false } else s) ∧
    (∀ l ∈ (acquireInvalidate s die ctx).l2, ¬(l.live = true ∧ l.die = die ∧ l.ctx = ctx ∧ l.ord = 1 ∧ l.dirty = false)) ∧
    (∀ l ∈ s.l2, l.live = false ∨ l.die ≠ die ∨ l.ctx ≠ ctx ∨ l.ord ≠ 1 ∨ l.dirty = true → l ∈ (acquireInvalidate s die ctx).l2) ∧
    (acquireInvalidate s die ctx).mem = s.mem)

/-- Bytes written under a key read back under it, and every other byte of a line that has no other key reads under that
key as before; a byte of a line that is not written reads under every key as before (R78, R79, R445). -/
def Obligations.WrittenBytesReadBack : Prop :=
  ∀ (s : State) (part : Nat) (key : KeyMat) (pa : Nat) (bs : List Byte),
    readMem (writeMem s part key pa bs) key pa bs.length = bs ∧
    (∀ x, (x < pa ∨ pa + bs.length ≤ x) →
      (inArrays x = true ∨ (lineTag s (x / 128) = none ∧ memGet s.mem x = none) ∨ ∃ t, lineTag s (x / 128) = some t ∧ t.key = key) →
      readByte (writeMem s part key pa bs) key x = readByte s key x) ∧
    (∀ k x, (x / 128 < pa / 128 ∨ (pa + bs.length + 127) / 128 ≤ x / 128) →
      readByte (writeMem s part key pa bs) k x = readByte s k x)

/-- FENCE, the cache operations, ACONV and AQUERY become outstanding where their class has room and their pages
translate: FENCE with its order and scope, the cache operations on the pieces of their range, ACONV and AQUERY at the
array that holds their address; ACONV takes its conversion to the mode of its code.  With L = 0 a cache operation is
complete at once; with 63 of its class outstanding any of them but FENCE waits (R120, R133, R137, R140 to R142).

An address outside the arrays traps AMODE 0xF2; for ACONV a page that may not be written is a PGF 0x02, and an overflow
array AMODE 0xF4: each exactly (R141, R142); FINFO.WRITE in the traps of ACONV is the model's choice (log 123).

A cache operation is performed line by line, each line that it names once, one that may be treated next: a line that its
die's L2 does not hold for its context and partition is left alone; CCLEAN writes a dirty line back, and it stays valid and
clean; CFLUSH writes it back and invalidates it with every L1 copy on the die; CINVAL of a whole line invalidates it and
discards its data, and of a part of a line does what CFLUSH does; an invalidated line that an island has pinned keeps its
bytes for it alone; and no other line changes.  CPREF fills an absent line that may lie in the L2, and leaves a present one.
The last line ends the operation (R137, R138).  AQUERY writes the array's state word to its register.  FENCE writes back the
dirty lines of its context on its die where it releases at PKG or SYS scope or is sc, then invalidates the clean RC lines
where it acquires so, and is done (R135, R142).

A conversion that has started and ends leaves BUSY clear and the array in the new mode; the bytes stay where the old
and new mode are equal or LOAD and RUN, and read zero otherwise (R91, R93). -/
def Obligations.CacheOperations : Prop :=
  (∀ (s : State) (u : UnitRec) (a b d : Reg) (os : OrdScope) (m : BitVec 3), s.cpu.run = some u →
     let va := (s.cpu.reg a).toNat
     let len := (s.cpu.reg b).toNat
     let rlx : OrdScope := { ord := 0, scope := 1 }
     let start := match s.cpu.wait with
       | .range got next => (got, next)
       | _ => ([], va)
     let range := fun (soft : Bool) => (rangeWalk u soft (va + len) (len / 65536 + 2) s start.1 start.2).2.1
     let out := fun (i : Instr) (k : AccKind) (ps : List Part) =>
       runsTo i s fun t => t.cpu = { s.cpu with pc := s.cpu.pc + 4, wait := .none } ∧
         ∃ x, outstanding s t [x] ∧ x.isOf s u k 0 0 va ps 0 rlx
     let skips := fun (i : Instr) => runsTo i s fun t => onlyCpu s t ∧ t.cpu = { s.cpu with pc := s.cpu.pc + 4 }
     (runsTo (.fence os) s fun t =>
       (∃ x, outstanding s t [x] ∧ x.q = s.cur ∧ x.kind = .fence ∧ x.ord = os.ord ∧ x.scope = os.scope) ∧
       t.cpu = { s.cpu with pc := s.cpu.pc + 4, ahead := [] }) ∧
     (len = 0 → skips (.cclean a b) ∧ skips (.cinval a b) ∧ skips (.cflush a b) ∧ skips (.cpref a b)) ∧
     (0 < len → storeCount s s.cur < 63 → ∀ ps, range false = .ok ps →
       out (.cclean a b) .cclean ps ∧ out (.cinval a b) .cinval ps ∧ out (.cflush a b) .cflush ps) ∧
     (0 < len → loadCount s s.cur < 63 → ∀ ps, range true = .ok ps → out (.cpref a b) .cpref ps) ∧
     (63 ≤ storeCount s s.cur → exec (.aconv a m) s = .next s ∧ (0 < len →
       exec (.cclean a b) s = .next s ∧ exec (.cinval a b) s = .next s ∧ exec (.cflush a b) s = .next s)) ∧
     (63 ≤ loadCount s s.cur → exec (.aquery d a) s = .next s ∧ (0 < len → exec (.cpref a b) s = .next s)) ∧
     (∀ s1 p, translateByte s u va = (s1, .ok [p]) →
       let amode := fun (i : Instr) (code cause : Nat) (w : Bool) =>
         runsTo i s fun t => entersHandler s1 t code 0 s.cpu.pc 0 (some (BitVec.ofNat 64 va,
           BitVec.ofNat 64 ((if w then 1024 else 0) + (if p.leaf.lg = 30 then 1 else if p.leaf.lg = 21 then 2 else 3) * 256 + cause)))
       (∀ r, region p.pa = .array r →
         (loadCount s s.cur < 63 → runsTo (.aquery d a) s fun t => ∃ x, queues s t [x] 4 ∧ x.isOf s u .aquery d.toNat 0 va [p] 0 rlx) ∧
         (storeCount s s.cur < 63 → p.leaf.w = true → isOverflowArray s u.part r = false →
           runsTo (.aconv a m) s fun t => t.cpu = { s.cpu with pc := s.cpu.pc + 4 } ∧
             (∃ x ∈ t.accesses, x.id = s.nextAcc ∧ x.kind = .aconv ∧ x.dest = m.toNat ∧ x.parts = [p]) ∧
             ∃ c ∈ t.conversions, c.ref = r ∧ c.mode = modeOfCode m.toNat ∧ c.acc = s.nextAcc) ∧
         (storeCount s s.cur < 63 → handlerReady s →
           (p.leaf.w = false → amode (.aconv a m) 0x02 0x02 true) ∧
           (p.leaf.w = true → isOverflowArray s u.part r = true → amode (.aconv a m) 0x04 0xF4 true))) ∧
       (inArrays p.pa = false → handlerReady s →
         (loadCount s s.cur < 63 → amode (.aquery d a) 0x04 0xF2 false) ∧
         (storeCount s s.cur < 63 → amode (.aconv a m) 0x04 0xF2 true)))) ∧
  (∀ (s : State) (c : Conversion),
     s.conversions.find? (fun x => x.ref == c.ref) = some c → c.started = true → (arrayOf s c.ref).mode = c.mode →
     let a := arrayOf s c.ref
     let keep := a.fromMode = c.mode ∨ (a.fromMode = .load ∧ c.mode = .run) ∨ (a.fromMode = .run ∧ c.mode = .load)
     runsTo (.aconvComplete c.ref) s fun t =>
       (arrayOf t c.ref).busy = false ∧ (arrayOf t c.ref).mode = c.mode ∧ (arrayOf t c.ref).owner = a.owner ∧
       (∀ x ∈ t.accesses, x.id ≠ c.acc) ∧
       (keep → t.mem = s.mem) ∧
       (¬keep → ∀ x, (memGet t.mem x).getD 0 =
         if arrayPa c.ref ≤ x ∧ x < arrayPa c.ref + 65536 then 0 else (memGet s.mem x).getD 0)) ∧
  (∀ (s : State) (a : Access),
     s.accesses.find? (fun x => x.id == a.id) = some a → (∀ x ∈ s.accesses, x.id = a.id → x = a) → a.ringed = false →
     a.elem = none → canPerform s a = true →
     let gone := fun (w : State) => { w with accesses := w.accesses.filter fun x => x.id != a.id }
     let treats := fun (s : State) (p : Part) (t : State) =>
       (∀ l, (l2Find s a.die a.part (p.pa / 128) = none ∨ (l2Find s a.die a.part (p.pa / 128) = some l ∧ l.ctx ≠ a.ctx)) →
         a.kind ≠ .cpref → t = s) ∧
       (∀ l, l2Find s a.die a.part (p.pa / 128) = some l → l.ctx = a.ctx → s.l2.Nodup →
         (∀ x ∈ s.l2, x.live = true → x.die = l.die → x.part = l.part → x.line = l.line → x = l) →
         let back := if a.kind ≠ .cpref ∧ l.dirty = true ∧ ¬(a.kind = .cinval ∧ p.n = 128) then writeSlot s l.part l.key (128 * l.line) l.data else s
         { t with l1 := s.l1, l2 := s.l2 } = { back with l1 := s.l1, l2 := s.l2 } ∧
         (a.kind = .cclean → t.l1 = s.l1 ∧ ∀ x, x ∈ t.l2 ↔ (x ∈ s.l2 ∧ x ≠ l) ∨ x = { l with dirty := false }) ∧
         (a.kind = .cflush ∨ a.kind = .cinval →
           (∀ e, e ∈ t.l1 ↔ e ∈ s.l1 ∧ ¬(e.1.val / 16 = l.die ∧ e.2 = l.line)) ∧
           ∀ x, x ∈ t.l2 ↔ (x ∈ s.l2 ∧ x ≠ l) ∨ (l.pins ≠ [] ∧ x = { l with live := false, dirty := false }))) ∧
       (a.kind = .cpref →
         (∀ l, l2Find s a.die a.part (p.pa / 128) = some l → t = s) ∧
         (allocatable p.leaf p.pa = false → t = s) ∧
         (l2Find s a.die a.part (p.pa / 128) = none → allocatable p.leaf p.pa = true →
           t = (l2Get s a.die a.part a.ctx p.leaf p.pa).1))
     let cacheOp := a.ord = 0 ∧ (a.kind = .cclean ∨ a.kind = .cinval ∨ a.kind = .cflush ∨ a.kind = .cpref)
     (∀ p, cacheOp → a.parts = [p] → a.left = [p] → isDram p.pa = true → 0 < p.n → p.pa % 128 + p.n ≤ 128 →
       ∃ t, treats s p t ∧ exec (.accessPerformed a.id) s = .next (gone t)) ∧
     (∀ p, cacheOp → a.left = [p] → a.left ≠ piecesOf a.kind a.n a.va a.parts →
       ∃ t, treats { s with freeCtr := s.freeCtr + 1 } p t ∧ exec (.accessPerformed a.id) s = .next (gone t)) ∧
     (cacheOp → 2 ≤ a.left.length →
       ∃ p ∈ a.left, pieceReady s a p = true ∧ ∃ t, treats { s with freeCtr := s.freeCtr + 1 } p t ∧ exec (.accessPerformed a.id) s = .next
         { t with accesses := s.accesses.map fun x => if x = a then { a with left := a.left.erase p } else x }) ∧
     (∀ p r, a.kind = .aquery → a.ord = 0 → a.parts = [p] → a.left = [p] → region p.pa = .array r →
       exec (.accessPerformed a.id) s = .next (gone (s.updSeq a.q fun c => c.setReg (BitVec.ofNat 6 a.dest) (arrayWord s r)))) ∧
     (a.kind = .fence → a.left = [] →
       let wide := a.ord = 4 ∨ a.scope = 3 ∨ a.scope = 4
       let w := if (a.ord = 2 ∨ a.ord = 3 ∨ a.ord = 4) ∧ wide then releaseWriteBack s a.die a.ctx else s
       exec (.accessPerformed a.id) s =
         .next (gone (if (a.ord = 1 ∨ a.ord = 3 ∨ a.ord = 4) ∧ wide then acquireInvalidate w a.die a.ctx else w))))

/-! ## Copies, tensors, streams -/

/-- COPY, COPYX, COPYG and BDOT with no fence that holds them, their tag not BUSY and fewer than 63 copies outstanding:
the job stands with the operands of the instruction, its tag is BUSY, and the pc is past both words; a length or count
of zero makes the tag READY at once, and an operand that breaks a limit makes it READY with the lowest cause in CFINFO
and CFADDR 0, the model's value there (log 22); each waits at issue behind a fence of DIE scope or wider, a BUSY tag and
63 copies; BDOT at no multiple of 32 traps MISAL, and one whose descriptor faults in translation traps so (R120, R123,
R143 to R145, R147 to R150, R152, R153, R157, R158).  That the limits are judged at issue with no page translated is the
model's choice (log 21), and so is the hold behind a FENCE of DIE scope whatever its order (log 128): R134 and R272 name rel
and ar.

A copy or job that its engine finishes leaves the engine, and its tag is READY (R143); and a COPY of bytes of one line to
one line, whose pages its engine holds, leaves at the destination what the source held, and no other line changes
(R147).

The engine reads the lines of a unit in turn, each at its LLC homes, and writes those of its results there.  The outputs of
COPYX are these of the elements read: for scale the element times the factor, rounded once; for add the sum of the two,
rounded once; for cast the code of the tensor's format that the quotient by its scale rounds to; for reduce the block's sum,
rounded to FP32 at each step, or its maximum, rounded once into the source type; laid end to end from the place of the first.
COPYG reads the index and then the row that it names, and writes the row at its place.  A group of BDOT adds its weights'
products to a sum of 32 bits, saturated or wrapped at each step, exact where none leaves the range, and RNE of the
accumulator plus the sum times the group's scale is the next accumulator, +0 before a row's first group; with the last
group it is written (R150 to R152, R159, R254). -/
def Obligations.Copies : Prop :=
  (∀ (s : State) (u : UnitRec) (d a b f : Reg) (tag : BitVec 6) (pl : BitVec 32), s.cpu.run = some u →
     let c := s.cpu
     let t := (pl.extractLsb' 0 6).toNat
     let dst := c.reg d
     let src := c.reg a
     let len := c.reg b
     let one := fun (t : Nat) => 1#64 <<< t
     let free := fun (t : Nat) => enginesHeld s s.cur = false ∧ bit c.ctbusy t = false ∧ copyCount s s.cur < 63
     let stands := fun (s0 : State) (i : Instr) (k : JobKind) (t : Nat) (aux : Word) (ten : BitVec 512) =>
       runsTo i s fun n =>
         n.jobs = s0.jobs ++ [{ q := s.cur, tag := t, ctx := u.ctx, part := u.part, die := s.cur.val / 16
                                handle := u.handle.toNat, launch := u.launch, kind := k, dst := dst, src := src, len := len
                                aux := aux, tensor := ten, pos := 0, acc := 0, spilled := false, group := [] }] ∧
         { n with jobs := s0.jobs, seqs := s0.seqs } = s0 ∧ (∀ q, q ≠ s.cur → n.seqs.get q = s0.seqs.get q) ∧
         n.cpu = { s0.cpu with ctag := c.ctag &&& ~~~one t, ctagf := c.ctagf &&& ~~~one t, ctbusy := c.ctbusy ||| one t
                               pc := c.pc + 8 }
     let ready := fun (t : Nat) =>
       { c with ctag := c.ctag ||| one t, ctbusy := c.ctbusy &&& ~~~one t, ctagf := c.ctagf &&& ~~~one t, pc := c.pc + 8 }
     let empty := fun (i : Instr) (t : Nat) => runsTo i s fun n => onlyCpu s n ∧ n.cpu = ready t
     let fails := fun (i : Instr) (t info : Nat) =>
       runsTo i s fun n => onlyCpu s n ∧
         n.cpu = { ready t with ctagf := c.ctagf ||| one t, cfaddr := 0, cfinfo := BitVec.ofNat 64 (t * 256 + info) }
     (¬free tag.toNat → exec (.copy d a b tag) s = .next s) ∧
     (¬free t → exec (.copyx d a b f pl) s = .next s ∧ exec (.copyg d a b f pl) s = .next s ∧ exec (.bdot d a b pl) s = .next s) ∧
     (free tag.toNat →
       let meet := dst.toNat < src.toNat + len.toNat ∧ src.toNat < dst.toNat + len.toNat
       (len ≠ 0 → len.toNat ≤ 2 ^ 32 → ¬meet → stands s (.copy d a b tag) .copy tag.toNat 0 0) ∧
       (len = 0 → empty (.copy d a b tag) tag.toNat) ∧
       (2 ^ 32 < len.toNat → fails (.copy d a b tag) tag.toNat 0x20) ∧
       (len ≠ 0 → len.toNat ≤ 2 ^ 32 → meet → fails (.copy d a b tag) tag.toNat 0x26)) ∧
     (free t →
       (let aux := if (pl.extractLsb' 6 2).toNat = 3 then 0 else c.reg f
        let ten := if (pl.extractLsb' 6 2).toNat = 2 then tensorOf s u.ctx (aux.toNat % 1024) else 0
        let bad := xCauses pl ten dst.toNat src.toNat len.toNat aux.toNat
        (bad = [] → len ≠ 0 → stands s (.copyx d a b f pl) (.copyx pl) t aux ten) ∧
        (bad = [] → len = 0 → empty (.copyx d a b f pl) t) ∧
        (∀ x ∈ bad, (∀ y ∈ bad, x ≤ y) → fails (.copyx d a b f pl) t x)) ∧
       (let n := (c.reg f).toNat
        let z := 2 ^ (pl.extractLsb' 6 5).toNat
        let aligned := src.toNat % z = 0 ∧ dst.toNat % z = 0 ∧ len.toNat % 4 = 0
        let meet := dst.toNat < len.toNat + 4 * n ∧ len.toNat < dst.toNat + n * z
        (0 < n → n ≤ 2 ^ 20 → aligned → ¬meet → stands s (.copyg d a b f pl) (.copyg pl) t (c.reg f) 0) ∧
        (n = 0 → aligned → empty (.copyg d a b f pl) t) ∧
        (2 ^ 20 < n → fails (.copyg d a b f pl) t 0x20) ∧
        (n ≤ 2 ^ 20 → ¬aligned → fails (.copyg d a b f pl) t 0x21) ∧
        (0 < n → n ≤ 2 ^ 20 → aligned → meet → fails (.copyg d a b f pl) t 0x26)) ∧
       (handlerReady s → src.toNat % 32 ≠ 0 → trapsExactly (.bdot d a b pl) s 0x05 0 (some (src, 0xF3))) ∧
       (∀ s1 x, src.toNat % 32 = 0 → handlerReady s → seqLoadAt false s u src.toNat 32 = (s1, .fault x) →
         faultsExactly (.bdot d a b pl) s s1 x) ∧
       (∀ s1 bs, src.toNat % 32 = 0 → seqLoadAt false s u src.toNat 32 = (s1, .bytes bs) → s1.cur = s.cur →
         { s1.cpu with reading := c.reading } = c → (∀ q, q ≠ s.cur → s1.seqs.get q = s.seqs.get q) →
         let x := BitVec.ofNat 256 (ofBytes bs)
         let s2 := forgetDotEntries s1 s.cur t
         { s2 with tlb := s1.tlb } = s1 ∧
         (∀ e, e ∈ s2.tlb ↔ e ∈ s1.tlb ∧ ∀ k, 4 ≤ k → e.holder ≠ .engine s.cur t k) ∧
         (dBad pl x dst.toNat len.toNat = false → stands s2 (.bdot d a b pl) (.bdot pl x) t 0 0) ∧
         (dBad pl x dst.toNat len.toNat = true → runsTo (.bdot d a b pl) s fun n =>
           { n with seqs := s1.seqs } = s2 ∧ (∀ q, q ≠ s.cur → n.seqs.get q = s.seqs.get q) ∧
           n.cpu = { ready t with ctagf := c.ctagf ||| one t, cfaddr := 0, cfinfo := BitVec.ofNat 64 (32768 + t * 256 + 0x25)
                                  reading := s1.cpu.reading })))) ∧
  (∀ (s : State) (q : SeqId) (tag : BitVec 6) (j : Job), jobOf s q tag.toNat = some j →
     let finished := fun (t : State) =>
       (∀ k ∈ t.jobs, ¬(k.q = q ∧ k.tag = tag.toNat)) ∧
       bit (t.seqs.get q).ctag tag.toNat = true ∧ bit (t.seqs.get q).ctbusy tag.toNat = false ∧
       (t.seqs.get q).regs = (s.seqs.get q).regs ∧ (t.seqs.get q).pc = (s.seqs.get q).pc
     (jobOf (runJob (jobFuel j) s q tag.toNat) q tag.toNat = none → runsTo (.copyComplete q tag) s finished) ∧
     (∀ e0 e2,
       let side := fun (k : Nat) => Holder.engine q tag.toNat k
       let src := e0.leaf.pa j.src.toNat
       let dst := e2.leaf.pa j.dst.toNat
       let n := j.len.toNat
       let held := fun (e : TlbEntry) (k va pa : Nat) => s.tlb.find? (fun e => e.covers (side k) j.ctx va) = some e ∧
         missOf s (side k) = none ∧ (∀ w ∈ s.walkFaults, w.holder ≠ side k) ∧ va < 2 ^ 52 ∧ va % 128 + n ≤ 128 ∧
         e.leaf.frame % 65536 = 0 ∧ isDram pa = true ∧ keyState s e.leaf.key = .loaded ∧ (keyMat s e.leaf.key).isSome
       j = { q := q, tag := tag.toNat, ctx := j.ctx, part := j.part, die := j.die, handle := j.handle, launch := j.launch
             kind := .copy, dst := j.dst, src := j.src, len := j.len, aux := 0, tensor := 0, pos := 0, acc := 0
             spilled := false, group := [] } →
       0 < n → held e0 0 j.src.toNat src → held e2 2 j.dst.toNat dst → e2.leaf.d = true → 16 ≤ e0.leaf.lg → 16 ≤ e2.leaf.lg →
       runsTo (.copyComplete q tag) s fun t => finished t ∧ bit (t.seqs.get q).ctagf tag.toNat = bit (s.seqs.get q).ctagf tag.toNat ∧
         readSlot t e2.leaf.key dst n = readSlot s e0.leaf.key src n ∧
         ∀ k x, x / 128 ≠ dst / 128 → readByte t k x = readByte s k x)) ∧
  (∀ (s s1 : State) (j : Job) (ps : List Part), j.checks = [] → j.faults = [] →
     (∀ side va n rest, j.writes = [] → j.reads = (side, va, n) :: rest → engTranslate s j side va n false = (s1, .ok ps) →
       stepJob s j = (s1, .more { j with reads := rest, got := j.got ++ [(side, ps.flatMap fun p => readSlot s1 p.leaf.key p.pa p.n)] })) ∧
     (∀ w k rest p, j.writes = w :: k :: rest → w.top = 0 → ps = [p] → p.n = w.bytes.length →
       engTranslate s j w.side w.va w.bytes.length true = (s1, .ok ps) →
       stepJob s j = (writeSlot s1 j.part p.leaf.key p.pa w.bytes, .more { j with writes := k :: rest })) ∧
     (j.writes = [] → j.reads = [] → j.stage ≠ 0 → stepJob s j = (s, .more (makeJob j)))) ∧
  (∀ (j : Job) (pl : BitVec 32), j.kind = .copyx pl →
     let e := if (pl.extractLsb' 8 4).toNat = 10 then 4 else 2
     let f := if (pl.extractLsb' 8 4).toNat = 8 then fp16 else if (pl.extractLsb' 8 4).toNat = 9 then bf16 else fp32
     let form := (pl.extractLsb' 6 2).toNat
     let m := if form = 3 then 2 ^ (pl.extractLsb' 13 4).toNat else 1
     let outs := (xBatch j pl).2.2
     let ob := if form = 2 then codeBits j.tensor else 8 * e
     let elem := fun (side k : Nat) => fdec f (ofBytes (((j.bytesOf side).drop (k * e)).take e))
     let acc := fun (k : Nat) => (List.range (m - 1)).foldl (fun a i =>
       if pl.getLsbD 12 then vmax a (elem 0 (k * m + i + 1)) else fdec fp32 (fenc fp32 .rne (vadd .rne a (elem 0 (k * m + i + 1)))))
       (fdec fp32 (fenc fp32 .rne (elem 0 (k * m))))
     let y := fun (k : Nat) =>
       if form = 0 then fenc f .rne (vmul (elem 0 k) (fdec fp32 (j.aux.toNat % 2 ^ 32)))
       else if form = 1 then fenc f .rne (vadd .rne (elem 0 k) (elem 1 k))
       else if form = 2 then tRound j.tensor 0 (elem 0 k)
       else fenc f .rne (acc k)
     let bytes := lineWrites 2 (j.dst.toNat + j.pos) (toBytes ((outs * ob + 7) / 8) (packBits ob ((List.range outs).map y))) (outs * ob % 8)
     ((form = 2 → tBsto j.tensor = false) → (makeCopyx j pl).writes = bytes) ∧
     (form = 2 → tBsto j.tensor = true → j.group = [] → j.pos = 0 → 0 < outs → outs ≤ 1024 → outs = j.len.toNat / e →
       (makeCopyx j pl).writes = bytes ++
         lineWrites 2 (tBbase j.tensor + 4 * ((j.dst.toNat - tBase j.tensor) / xGroupBytes j.tensor))
           (toBytes 4 (boundOut (.fin false 1 0) 0 [convBlock j.tensor ((List.range outs).map (elem 0))])) 0)) ∧
  (∀ (j : Job) (pl : BitVec 32), j.kind = .copyg pl →
     let z := 2 ^ (pl.extractLsb' 6 5).toNat
     let row := j.src.toNat + ofBytes (j.bytesOf 1) * z
     let dst := j.dst.toNat + j.pos * z
     (j.pos < j.aux.toNat → planJob j = some { j with
       stage := 1, checks := pageChecks 1 (j.len.toNat + 4 * j.pos) 4 false, reads := [(1, j.len.toNat + 4 * j.pos, 4)]
       next := j.pos + 1 }) ∧
     (j.aux.toNat ≤ j.pos → planJob j = none) ∧
     (j.stage = 1 → makeJob j = { j with
       stage := 2, checks := pageChecks 0 row z false ++ pageChecks 2 dst z true, reads := lineReads 0 row z }) ∧
     (j.stage = 2 → (makeCopyg j pl).writes = lineWrites 2 dst (j.bytesOf 0) 0)) ∧
  (∀ (j : Job) (pl : BitVec 32) (x : BitVec 256), j.kind = .bdot pl x →
     let g := 32 * 2 ^ (pl.extractLsb' 7 2).toNat
     let vb := 2 ^ (pl.extractLsb' 10 2).toNat
     let ng := (x.extractLsb' 96 32).toNat / g
     let byte := fun (k : Nat) => ((j.bytesOf 0)[k]?).getD 0
     let nibble := fun (n : Nat) => if n < 8 then (n : Int) else n - 16
     let w := fun (c : Nat) =>
       if pl.getLsbD 6 then nibble (if c % 2 = 0 then (byte (c / 2)).toNat % 16 else (byte (c / 2)).toNat / 16) else (byte c).toInt
     let v := fun (c : Nat) => sxInt (8 * vb) (ofBytes (((j.bytesOf 1).drop (c * vb)).take vb))
     let into := fun (z : Int) => if pl.getLsbD 9 then max (-(2 : Int) ^ 31) (min ((2 : Int) ^ 31 - 1) z) else (BitVec.ofInt 32 z).toInt
     let sum := (List.range g).foldl (fun a c => into (a + w c * v c)) 0
     let acc := fenc fp32 .rne (vadd .rne (fdec fp32 (if j.pos % ng = 0 then 0 else j.acc.toNat))
       (vmul (.fin (decide (sum < 0)) sum.natAbs 0) (fdec bf16 (ofBytes (j.bytesOf 2)))))
     (j.bytesOf 0).length = (if pl.getLsbD 6 then g / 2 else g) →
     (makeBdot j pl x).acc = BitVec.ofNat 32 acc ∧
     (makeBdot j pl x).writes = (if j.pos % ng + 1 < ng then [] else
       lineWrites 3 (j.dst.toNat + 4 * (j.pos / ng)) (toBytes 4 acc) 0) ∧
     ((∀ n ≤ g, -(2 : Int) ^ 31 ≤ ((List.range n).map fun c => w c * v c).sum ∧
         ((List.range n).map fun c => w c * v c).sum < (2 : Int) ^ 31) →
       sum = ((List.range g).map fun c => w c * v c).sum))

/-- TDEF writes the entry that it loads, or leaves it undefined where V is 0, and gives 0, or gives the status of an
image that breaks a limit and writes nothing, waits for its load, and faults with it; TSCALE writes SCALE alone; TREAD
gives a word of the entry. An image at no multiple of 64 raises MISAL, and an identifier above 1,023 or a word above 7
OPRNG (R285 to R288).  That an identifier above 1,023 raises OPRNG also where the image is misaligned is the model's choice
(log 28). -/
def Obligations.TensorTable : Prop :=
  ∀ (s s1 : State) (u : UnitRec) (d a b : Reg) (bs : List Byte),
    s.cpu.run = some u →
    let id := (s.cpu.reg a).toNat
    let y := s.cpu.reg b
    let given := fun (i : Instr) (s0 : State) (ten : BitVec 512) (v : Word) =>
      runsTo i s fun t => tensorOf t u.ctx id = ten ∧ (∀ x k, (x, k) ≠ (u.ctx, id) → tensorOf t x k = tensorOf s0 x k) ∧
        { t with tensors := s0.tensors, seqs := s0.seqs } = s0 ∧ (∀ q, q ≠ s0.cur → t.seqs.get q = s0.seqs.get q) ∧
        t.cpu = { s0.cpu.setReg d v with pc := s0.cpu.pc + 4 }
    (id ≤ 1023 →
      (∀ k : Nat, y = BitVec.ofNat 64 k → k ≤ 7 →
        givesReg (.tread d a b) s d ((tensorOf s u.ctx id).extractLsb' (64 * k) 64)) ∧
      (let e := tensorOf s u.ctx id
       let sc := y.toNat % 2 ^ 32
       let ok := 0 < sc ∧ sc < 0x7F800000
       (¬ok → givesReg (.tscale d a b) s d 7) ∧
       (ok → tValid e = false → givesReg (.tscale d a b) s d 8) ∧
       (ok → tValid e = true → given (.tscale d a b) s
          ((e &&& ~~~((0xFFFFFFFF#512) <<< 96)) ||| (BitVec.ofNat 512 sc <<< 96)) 0)) ∧
      (y.toNat % 64 = 0 → seqLoad s u y.toNat 64 = (s1, .bytes bs) → s1.cur = s.cur →
        let e := BitVec.ofNat 512 (ofBytes bs)
        (tValid e = false → given (.tdef d a b) s1 0 0) ∧
        (tValid e = true → tStatus e = 0 → given (.tdef d a b) s1 e 0) ∧
        (tValid e = true → tStatus e ≠ 0 →
          given (.tdef d a b) s1 (tensorOf s1 u.ctx id) (BitVec.ofNat 64 (tStatus e)))) ∧
      (y.toNat % 64 = 0 → seqLoad s u y.toNat 64 = (s1, .wait) → exec (.tdef d a b) s = .next s1) ∧
      (∀ f, y.toNat % 64 = 0 → seqLoad s u y.toNat 64 = (s1, .fault f) → s1.cur = s.cur → s1.cpu.pc = s.cpu.pc →
        handlerReady s1 → faultsExactly (.tdef d a b) s s1 f) ∧
      (handlerReady s → (y.toNat % 64 ≠ 0 → trapsExactly (.tdef d a b) s 0x05 0 (some (y, 0xF3))) ∧
        (7 < y.toNat → trapsExactly (.tread d a b) s 0x06 0 (some (0, 0xF5))))) ∧
    (1023 < id → handlerReady s → trapsExactly (.tdef d a b) s 0x06 0 (some (0, 0xF5)) ∧
      trapsExactly (.tscale d a b) s 0x06 0 (some (0, 0xF5)) ∧ trapsExactly (.tread d a b) s 0x06 0 (some (0, 0xF5)))

/-- STRM and STRM2 inside the rectangle of the unit's graph, or with a target at an island of it, with operands in
range and aligned, no fence with rel or ar that holds them, no stream that still runs there and no store of an ended sink
there that is not yet released: the stream stands, with nothing sent, and the unit has started it; with no token to move it
has ended, and a source sends the EOS it owes; a source of a graph that a RECONF token is passing begins with that token; and
the result of an ended stream that another unit started there stays with that unit (R204, R270 to R273).  Out of range they
raise OPRNG, and at no multiple of 32 MISAL, exactly; behind such a fence, stream or store they wait (R256, R270, R272).  The
model's choices: OPRNG where MISAL holds too (log 28), OPRNG for a target that is absent (log 14), and that what the earlier
stream has sent still goes to that stream's target (log 134).

A read of a source that returns sends its token behind the earlier ones, and after the last the EOS it owes; a source with
16 tokens that have been read and not accepted reads no further; a read that faults ends the stream with an EEOS, and one
that must wait sends nothing (R271). STRMEND of a stream that its unit started gives its error and the tokens it moved once
it has ended, with X also where it has not, and where another unit's stream stands there what its own had given; and 0 for a
stream the unit did not start; until then it waits, and a name with a bit above 11 raises OPRNG (R256, R273). -/
def Obligations.Streams : Prop :=
  (∀ (s : State) (u : UnitRec) (g : Graph) (d a b f : Reg) (pl : BitVec 32),
     s.cpu.run = some u → residentGraph s u.ctx (u.handle.setWidth 64) = some g →
     let x := (pl.extractLsb' 27 5).toNat
     let y := (pl.extractLsb' 22 5).toNat
     let ref : StreamRef := { die := g.die, x := g.x + x, y := g.y + y, str := (pl.extractLsb' 20 2).toNat }
     let sink := pl.getLsbD 19
     let count := (s.cpu.reg a).toNat
     let fits := x < g.w ∧ y < g.h ∧ (sink = false → targetInside g x y (pl.extractLsb' 0 16) = true) ∧
       (sink = true → tapOk s (streamDest g pl) = true) ∧ count < 2 ^ 32
     let aligned := (s.cpu.reg d).toNat % 32 = 0 ∧ (s.cpu.reg b).toNat % 32 = 0
     let free := streamsHeld s s.cur = false ∧ (∀ t, streamOf s ref = some t → t.ended = true) ∧ sinkPending s ref = false
     let tok := fun (n : Nat) (k : Kind) =>
       { key := { ctx := u.ctx, iter := 0, path := 0 }, seq := BitVec.ofNat 8 n, kind := k, payload := 0 : Token }
     let first := match g.reconf with
       | some p => if sink then [] else [{ tok 0 .reconf with payload := p }]
       | none => []
     let all := fun (i : Instr) (rows : Nat) (rowStride : Word) (fits aligned : Prop) =>
       (fits → aligned → free → runsTo i s fun n =>
         streamOf n ref = some
           { ref := ref, q := s.cur, ctx := u.ctx, part := u.part, handle := g.handle, sink := sink, base := s.cpu.reg d
             count := count, stride := s.cpu.reg b, rows := rows, rowStride := rowStride, eos := pl.getLsbD 18
             dst := streamDest g pl, sent := 0, early := []
             buf := first ++ if rows * count = 0 ∧ pl.getLsbD 18 = true then [tok 0 .eos] else []
             old := (streamOf s ref).elim [] fun t => t.old ++ t.buf.map fun k => (t.dst, k)
             ended := decide (rows * count = 0), err := false, marked := false } ∧
         (∀ r, r ≠ ref → streamOf n r = streamOf s r) ∧
         { n with streams := s.streams, seqs := s.seqs } = s ∧
         (∀ q, q ≠ s.cur → n.seqs.get q = s.seqs.get q ∨ ∃ t v, streamOf s ref = some t ∧ t.q = q ∧
           (s.seqs.get q).run = some v ∧ v.started.contains ref = true ∧ (∀ e ∈ v.ended, e.1 ≠ ref) ∧
           n.seqs.get q = { s.seqs.get q with run := some { v with ended := v.ended ++
             [(ref, BitVec.ofNat 64 ((if t.err then 2 ^ 63 else 0) + t.sent % 2 ^ 32))] } }) ∧
         (∀ t v, streamOf s ref = some t → t.q ≠ s.cur → (s.seqs.get t.q).run = some v → v.started.contains ref = true →
           ∃ w, (n.seqs.get t.q).run = some w ∧ ∃ e ∈ w.ended, e.1 = ref) ∧
         n.cpu = { s.cpu with pc := s.cpu.pc + 8
                              run := some { u with started := (u.started.filter (· != ref)) ++ [ref]
                                                   ended := u.ended.filter fun e => e.1 != ref } }) ∧
       (fits → aligned → ¬free → exec i s = .next s) ∧
       (handlerReady s →
         (¬fits → trapsExactly i s 0x06 0 (some (0, 0xF5))) ∧
         (fits → ¬aligned → trapsExactly i s 0x05 0 (some (s.cpu.reg d, 0xF3))))
     all (.strm d a b pl) 1 0 fits aligned ∧
     all (.strm2 d a b f pl) (s.cpu.reg (f + 1)).toNat (s.cpu.reg f) (fits ∧ (s.cpu.reg (f + 1)).toNat < 2 ^ 32)
       (aligned ∧ (s.cpu.reg f).toNat % 32 = 0)) ∧
  ((∀ (s s1 : State) (r : StreamRef) (x : Stream) (ps : List Part) (p : Payload),
     streamOf s r = some x → x.sink = false → x.ended = false → x.marked = false →
     let i := Instr.streamReadReturn r
     let tok := fun (n : Nat) (k : Kind) (p : Payload) =>
       { key := { ctx := x.ctx, iter := 0, path := 0 }, seq := BitVec.ofNat 8 n, kind := k, payload := p : Token }
     let last := x.sent + 1 = x.rows * x.count
     let held := x.buf.countP fun k => k.kind == .data
     let read := x.early.find? (fun e => e.1 == x.sent) = none ∧ held < 16 ∧ x.sent < x.rows * x.count ∧ streamOf s1 r = some x
     let sends := fun (p : Payload) (s0 : State) =>
       runsTo i s fun t => { t with streams := s0.streams } = s0 ∧ (∀ k, k ≠ r → streamOf t k = streamOf s0 k) ∧
         streamOf t r = some { x with
           sent := x.sent + 1, ended := decide last, early := x.early.filter fun e => e.1 != x.sent
           under := x.under.filter fun e => e.1 != x.sent
           buf := x.buf ++ [tok x.sent .data p] ++ (if last ∧ x.eos = true then [tok (x.sent + 1) .eos 0] else []) }
     (∀ e, x.early.find? (fun e => e.1 == x.sent) = some e → sends e.2 s) ∧
     (x.early.find? (fun e => e.1 == x.sent) = none → 16 ≤ held → exec i s = .next s) ∧
     (∀ n, x.sent + 16 ≤ n + held → readAhead s r n = s) ∧
     (read → readToken s x x.sent = (s1, .ok ps, p) → sends p s1) ∧
     (read → readToken s x x.sent = (s1, .wait, p) → exec i s = .next s1) ∧
     (∀ f, read → readToken s x x.sent = (s1, .fault f, p) →
       runsTo i s fun t => (∀ k, k ≠ r → streamOf t k = streamOf s1 k) ∧
         streamOf t r = some { x with ended := true, err := true, early := [], under := [], buf := x.buf ++ [tok x.sent .eeos 0] })) ∧
   (∀ (s : State) (u : UnitRec) (g : Graph) (x : Stream) (d a : Reg) (w : BitVec 1),
     s.cpu.run = some u → residentGraph s u.ctx (u.handle.setWidth 64) = some g →
     let v := (s.cpu.reg a).toNat
     let ref : StreamRef := { die := g.die, x := g.x + v % 32, y := g.y + v / 32 % 32, str := v / 1024 }
     (4096 ≤ v → handlerReady s → trapsExactly (.strmend d a w) s 0x06 0 (some (0, 0xF5))) ∧
     (v < 4096 → u.started.contains ref = false → givesReg (.strmend d a w) s d 0) ∧
     (∀ e, v < 4096 → u.started.contains ref = true → u.ended.find? (fun e => e.1 == ref) = some e →
       runsTo (.strmend d a w) s fun t => onlyCpu s t ∧
         t.cpu = { s.cpu.setReg d e.2 with
           pc := s.cpu.pc + 4
           run := some { u with started := u.started.filter (· != ref), ended := u.ended.filter fun e => e.1 != ref } }) ∧
     (v < 4096 → u.started.contains ref = true → u.ended.find? (fun e => e.1 == ref) = none → streamOf s ref = some x →
       (w = 0 → x.ended = false ∨ sinkPending s ref = true → exec (.strmend d a w) s = .next s) ∧
       (w = 1 → sinkPending s ref = true → exec (.strmend d a w) s = .next (setStream s ref Stream.stop)) ∧
       (w = 1 ∨ x.ended = true → sinkPending s ref = false →
         runsTo (.strmend d a w) s fun t =>
           t.cpu = { s.cpu.setReg d (BitVec.ofNat 64 ((if x.err then 2 ^ 63 else 0) + x.sent % 2 ^ 32)) with
             pc := s.cpu.pc + 4
             run := some { u with started := u.started.filter (· != ref), ended := u.ended.filter fun e => e.1 != ref } } ∧
           { t with streams := s.streams, seqs := s.seqs } = s ∧ (∀ q, q ≠ s.cur → t.seqs.get q = s.seqs.get q) ∧
           (∀ r, r ≠ ref → streamOf t r = streamOf s r) ∧ ∃ y, streamOf t ref = some y ∧ y.ended = true ∧ y.sent = x.sent))))

/-! ## Work -/

/-- A SPAWN whose operands are in range, with every earlier access performed, its queue's turn free, fewer than 1,024
launches of the partition not DONE, room in the ring for all its units and no page of the ring that must wait: D is the
launch identifier, the next in the job, every unit has been posted, and the turn is free again; where the ring takes only
some of them it keeps the turn and waits; on a graph that is cancelled the launch is cancelled with it.  Operands out of
range raise OPRNG exactly; without the rest it waits at issue (R256, R275, R276, R371, R379).

JOIN, every earlier access performed, of a queued unit with a counter above 0 lowers the counter by one and gives its old
value, and of one that is no such unit gives 0; behind an access it waits (R277, R372).  That SPAWN and JOIN wait where a page
of the ring must wait is the model's choice (log 27). -/
def Obligations.LaunchesAndJoins : Prop :=
  ∀ (s : State) (u : UnitRec) (d a b f : Reg) (pl : BitVec 32), s.cpu.run = some u →
    (∀ g, s.cpu.wait = .none → residentGraph s u.ctx (s.cpu.reg a) = some g →
     let i := Instr.spawn d a b f pl
     let n := (pl.extractLsb' 16 16).toNat + 1
     let q := (pl.extractLsb' 12 4).toNat
     let x := queueOf s u.part q
     let id := (jobRecOf s u.ctx).nextLaunch
     let fits := (s.cpu.reg b).toNat % 4 = 0 ∧ (s.cpu.reg b).toNat < g.seqSize ∧
       (s.cpu.reg f).toNat % 2 ^ (pl.extractLsb' 4 5).toNat = 0 ∧ (s.cpu.reg (f + 1)).toNat ≤ 65535 ∧ queueTakes x u.ctx = true
     let free := ownAccesses s s.cur = [] ∧ turnTaken s x = false ∧ (s.launches.filter fun l => l.part == u.part && !l.done).length < 1024
     (¬fits → handlerReady s → trapsExactly i s 0x06 0 (some (0, 0xF5))) ∧
     (fits → ¬free → exec i s = .next s) ∧
     (∀ s1 k, fits → free → (∀ l ∈ s.launches, ¬(l.ctx = u.ctx ∧ l.id = id)) →
       let s0 := retireHead (spawnOpen s u g pl) u.part q
       postUnits u g.handle f (s.cpu.reg b).toNat pl id (currentPhase s0 u.ctx (s.cur.val / 16)) n s0 0 = (s1, k) →
       let begun := fun (t : State) => (∀ p, p ≠ s.cur → t.seqs.get p = s.seqs.get p) ∧ (jobRecOf t u.ctx).nextLaunch = id + 1 ∧
         { ctx := u.ctx, id := id, part := u.part, queue := q, handle := g.handle, first := x.tail, units := n, posted := k
           completed := 0, removed := if g.cancelled then k else 0, cancelled := g.cancelled, dead := g.cancelled, gen := g.gid } ∈ t.launches
       (k = n → runsTo i s fun t =>
         begun t ∧ t.cpu = { s.cpu.setReg d (id.setWidth 64) with pc := s.cpu.pc + 8, wait := .none } ∧
         (queueOf t u.part q).tail = x.tail + n ∧ (queueOf t u.part q).turn = none) ∧
       (k < n → runsTo i s fun t =>
         begun t ∧ t.cpu = { s.cpu with wait := .posting id.toNat k } ∧
         (queueOf t u.part q).tail = x.tail + k ∧ (queueOf t u.part q).turn = some s.cur))) ∧
    (residentGraph s u.ctx (s.cpu.reg a) = none → s.cpu.wait = .none → handlerReady s →
      trapsExactly (.spawn d a b f pl) s 0x06 0 (some (0, 0xF5))) ∧
    (let s0 := releasePkg s u
     let gives := fun (s1 : State) (v : Word) => runsTo (.join d a b) s fun t => writesReg s1 t d v ∧ t.cpu.pc = s.cpu.pc + 4
     (ownAccesses s s.cur ≠ [] → exec (.join d a b) s = .next s) ∧
     (ownAccesses s s.cur = [] →
       ((∀ l ∈ s.launches, ¬(l.ctx = u.ctx ∧ l.id.toNat = (s.cpu.reg a).toNat)) → gives s0 0) ∧
       (∀ l s1, s.launches.find? (fun l => l.ctx == u.ctx && l.id.toNat == (s.cpu.reg a).toNat) = some l →
         let unit := (s.cpu.reg b).toNat
         (l.posted ≤ unit ∨ l.first + unit < (queueOf s l.part l.queue).head → gives s0 0) ∧
         (∀ o, joinTarget s0 l unit = (s1, false, o) → exec (.join d a b) s = .next s1) ∧
         (joinTarget s0 l unit = (s1, true, none) → gives s1 0) ∧
         (∀ w x i, joinTarget s0 l unit = (s1, true, some (w, x, i)) →
           bits w 47 32 ≠ 0 ∧ recState w = 0 ∧ recWord s1 x i 1 = some w ∧ recordIs s1 l unit x i = true ∧
           gives (setRecWord s1 x i 1 (w - 0x100000000#64)) (BitVec.ofNat 64 (bits w 47 32))))))

/-- END with nothing of its unit outstanding, every stream ended, no token on its way to an island of its graph and no page
of its records that must wait: the sequencer
is idle, its registers as they were, its launch counts one unit more as completed, and no other sequencer changes but one
that waits for tiles; until then it stands still (R279, R367, R376, R378).  CONT in range, with nothing outstanding, its queue's
turn free and room, posts one record more at the tail of its queue and leaves the sequencer idle; one for which the turn
is taken, or there is no room, or a page must wait, waits with its turn, and goes on so; out of range it raises OPRNG
exactly (R256, R278, R371).  That END and CONT wait as a whole where a page of a ring must wait is the model's choice
(log 27). -/
def Obligations.UnitsEndAndContinue : Prop :=
  ∀ (s : State) (u : UnitRec) (a b : Reg), s.cpu.run = some u →
    let quiet := ownAccesses s s.cur = [] ∧ tilesOf s s.cur = 0 ∧ s.cpu.ctbusy = 0 ∧ (∀ j ∈ s.jobs, j.q ≠ s.cur) ∧
      (∀ t ∈ s.streams, t.q = s.cur → t.ended = true) ∧ islandBound s u = false
    let idle := fun (t : State) => (t.seqs.get s.cur).run = none ∧ (t.seqs.get s.cur).wait = .none ∧
      (t.seqs.get s.cur).regs = s.cpu.regs ∧ (t.seqs.get s.cur).preds = s.cpu.preds ∧ (t.seqs.get s.cur).depth = 0
    let pages := ringHold (releasePkg s u) (retireUses s u)
    (¬quiet → exec .endU s = .next s) ∧
    (quiet → pages.2 = false → exec .endU s = .next pages.1) ∧
    (quiet → pages.2 = true → runsTo .endU s fun t => idle t ∧
      (∀ q, q ≠ s.cur → (∀ m, (s.seqs.get q).wait ≠ .bidding m) → t.seqs.get q = s.seqs.get q) ∧
      ∀ l ∈ s.launches, l.ctx = u.ctx → l.id = u.launch → { l with completed := l.completed + 1 } ∈ t.launches) ∧
    (let i := Instr.cont a b
     let size := (residentGraph s u.ctx (u.handle.setWidth 64)).elim 0 Graph.seqSize
     let fits := (s.cpu.reg a).toNat % 4 = 0 ∧ (s.cpu.reg a).toNat < size ∧ (s.cpu.reg b).toNat ≤ 65535
     let q := contQueue s u
     let x := queueOf s u.part q
     let goes := fun (s0 : State) =>
       let s1 := retireHead (setTurn s0 u.part q (some s.cur)) u.part q
       (x.turn ≠ some s.cur → turnTaken s x = true → exec i s = .next (setWait s0 .contPost)) ∧
       (x.turn = some s.cur ∨ turnTaken s x = false →
         (ringRoom (queueOf s1 u.part q) = false → exec i s = .next (setWait s1 .contPost)) ∧
         (∀ s2, ringRoom (queueOf s1 u.part q) = true → ringHold s1 (contUses s1 u) = (s2, false) →
           exec i s = .next (setWait s2 .contPost)) ∧
         (∀ s2, ringRoom (queueOf s1 u.part q) = true → ringHold s1 (contUses s1 u) = (s2, true) →
           runsTo i s fun t => idle t ∧ (∀ p, p ≠ s.cur → t.seqs.get p = s.seqs.get p) ∧ t.launches = s.launches ∧
             (queueOf t u.part q).tail = x.tail + 1 ∧ (queueOf t u.part q).turn = none))
     (s.cpu.wait = .none → ¬fits → handlerReady s → trapsExactly i s 0x06 0 (some (0, 0xF5))) ∧
     (s.cpu.wait = .none → fits → ¬quiet → exec i s = .next s) ∧
     (s.cpu.wait = .none → fits → quiet → goes ((releasePkg s u).updCpu Seq.clearUnit)) ∧
     (s.cpu.wait = .contPost → goes s))

/-- CANCEL of a level that is done gives 0; of one that is not done, no page of its rings needing to wait, it removes the
queued records and gives their number: a launch is CANCELLED and counts its queued records as removed, a graph is
CANCELLED and nothing is left in its nodes, those that a restore has still to place among them, a phase or the job is
CANCELLED, and with the job its queues stop reading (R280, R379, R399); that it waits with nothing done where a page must wait
is the model's choice (log 27).  CDONE gives DONE, CANCELLED and the completed children, after an acquire where the level is done, and
with W waits for DONE; and a name that the job does not hold raises OPRNG exactly (R256, R280, R281). -/
def Obligations.CancelAndCompletion : Prop :=
  ∀ (s : State) (u : UnitRec) (d a : Reg) (w : BitVec 1) (l : BitVec 3), s.cpu.run = some u →
    (∀ lv, levelNamed s u l.toNat (s.cpu.reg a) = some lv →
      let done := levelDone s u lv
      let word := BitVec.ofNat 64 ((if done then 2 ^ 63 else 0) + (if levelCancelled s u lv then 2 ^ 62 else 0) +
        levelChildren s u lv % 2 ^ 32)
      let pages := cancelHold s (levelLaunches s u lv)
      (done = true → givesReg (.cancel d a l) s d 0) ∧
      (done = false → pages.2 = false → exec (.cancel d a l) s = .next pages.1) ∧
      (done = false → pages.2 = true →
        let after := (cancelLevel pages.1 u lv).1
        let s1 := settle after
        runsTo (.cancel d a l) s fun t =>
          writesReg s1 t d (BitVec.ofNat 64 (cancelLevel pages.1 u lv).2) ∧ t.cpu.pc = s.cpu.pc + 4 ∧
          (∀ x, lv = .launch x →
            let s2 := updLaunch pages.1 x.ctx x.id fun y => { y with cancelled := true, dead := true }
            (∀ y ∈ t.launches, y.ctx = x.ctx → y.id = x.id → y.cancelled = true ∧ y.dead = true) ∧
            (∀ r, launchQueues pages.1 x = [r] →
              let gone := queuedRecords (holdRecords s2 r x).1 r x
              (cancelLevel pages.1 u lv).2 = gone.length ∧
              ∀ y ∈ s.launches, y.ctx = x.ctx → y.id = x.id →
                { y with cancelled := true, dead := true, removed := y.removed + gone.length } ∈ t.launches)) ∧
          (∀ g, lv = .graph g → g.retired = false → pendingPlace pages.1 g = none →
            (∀ y ∈ after.graphs, y.gid = g.gid → y.cancelled = true) ∧
            ∀ n ∈ s.nodes, (n.ctx == g.ctx && n.handle == g.handle && n.ref.die == g.die) = true →
              ∀ m ∈ after.nodes, m.ref = n.ref → m.store = [] ∧ m.outs = [] ∧ m.tiles = []) ∧
          (∀ g r h, lv = .graph g → pendingPlace pages.1 g = some (r, h) → ∀ x ∈ after.restores, x.ctx = r.ctx →
            (∀ y ∈ x.graphs, y.gid = g.gid → y.cancelled = true) ∧
            ∀ n ∈ x.saved.nodes, n.handle = g.handle → n.store = [] ∧ n.outs = [] ∧ n.tiles = []) ∧
          (∀ p, lv = .phase p → { p with cancelled := true } ∈ t.phases) ∧
          (lv = .job → (jobRecOf t u.ctx).cancelled = true ∧
            ∀ x ∈ after.queues, x.valid = true → x.ctx = u.ctx → x.stop.isSome = true)) ∧
      (done = false → w = 0 → givesReg (.cdone d a w l) s d word) ∧
      (done = false → w = 1 → exec (.cdone d a w l) s = .next s) ∧
      (done = true →
        let s1 := acquireInvalidate s (s.cur.val / 16) u.ctx
        runsTo (.cdone d a w l) s fun t => writesReg s1 t d word ∧ t.cpu.pc = s.cpu.pc + 4)) ∧
    (levelNamed s u l.toNat (s.cpu.reg a) = none → handlerReady s →
      trapsExactly (.cancel d a l) s 0x06 0 (some (0, 0xF5)) ∧ trapsExactly (.cdone d a w l) s 0x06 0 (some (0, 0xF5)))

/-- BARC arms a barrier whose arrivals are none; BAR, every earlier access performed, adds an arrival and waits, and the
last arrival raises the generation, gives it to the issuer and lets every party go on with it; a party that goes on takes
that generation; a barrier of PKG or SYS scope makes a release before the arrival and an acquire after the last; and the
watchdog lets each party that waits raise BARTO (R174, R283, R284).  That a party which a cut has suspended times out with the
others is the model's choice (log 129).

A number above 63, a word outside its limits, an unset barrier, and one of DIE scope of another die raise OPRNG; arming
one that has arrivals, and arriving at one that is complete, raise BARRIER 0x0B: each exactly; and a BAR behind an access
waits at issue (R256, R283, R284). -/
def Obligations.Barriers : Prop :=
  (∀ (s : State) (u : UnitRec) (d a b : Reg) (x : Barrier), s.cpu.run = some u →
    let n := (s.cpu.reg a).toNat
    let w := s.cpu.reg b
    let die := s.cur.val / 16
    let busy := ∃ y, barrierOf s u.ctx n = some y ∧ y.arrivals ≠ 0 ∧ y.complete = false
    (n ≤ 63 → barOk w = true → ¬busy →
      runsTo (.barc a b) s fun t =>
        barrierOf t u.ctx n = some { ctx := u.ctx, bar := n, word := w, die := die, arrivals := 0
                                     generation := ((barrierOf s u.ctx n).map Barrier.generation).getD 0
                                     complete := false, waiting := [], absent := [] } ∧
        (∀ c k, (c, k) ≠ (u.ctx, n) → barrierOf t c k = barrierOf s c k) ∧
        { t with barriers := s.barriers, seqs := s.seqs } = s ∧ (∀ q, q ≠ s.cur → t.seqs.get q = s.seqs.get q) ∧
        t.cpu = { s.cpu with pc := s.cpu.pc + 4 }) ∧
    (handlerReady s → 63 < n ∨ barOk w = false → trapsExactly (.barc a b) s 0x06 0 (some (0, 0xF5))) ∧
    (handlerReady s → n ≤ 63 → barOk w = true → busy → trapsExactly (.barc a b) s 0x0B 0 none) ∧
    (s.cpu.wait = .none → barrierOf s u.ctx n = some x → n ≤ 63 → (barScope x.word = 2 → x.die = die) →
      let s0 := if 3 ≤ barScope x.word then releasePkg s u else s
      (handlerReady s → x.complete = true → trapsExactly (.bar d a) s 0x0B 0 none) ∧
      (x.complete = false → ownAccesses s s.cur ≠ [] → exec (.bar d a) s = .next s) ∧
      (x.complete = false → ownAccesses s s.cur = [] → x.arrivals + 1 ≠ barCount x.word →
        runsTo (.bar d a) s fun t =>
          barrierOf t u.ctx n = some { x with arrivals := x.arrivals + 1, waiting := x.waiting ++ [s.cur] } ∧
          { t with barriers := s0.barriers, seqs := s0.seqs } = s0 ∧ (∀ q, q ≠ s.cur → t.seqs.get q = s.seqs.get q) ∧
          t.cpu = { s.cpu with wait := .barrier n x.generation }) ∧
      (x.complete = false → ownAccesses s s.cur = [] → x.arrivals + 1 = barCount x.word → s.cur ∉ x.waiting →
        runsTo (.bar d a) s fun t =>
          barrierOf t u.ctx n = some { x with arrivals := 0, generation := x.generation + 1, complete := !bit x.word 15
                                              waiting := [], absent := [] } ∧
          t.cpu = { s.cpu.setReg d (BitVec.ofNat 64 (x.generation + 1)) with pc := s.cpu.pc + 4 } ∧
          (∀ q ∈ x.waiting, t.seqs.get q =
            { s.seqs.get q with wait := .passed (x.generation + 1) (decide (3 ≤ barScope x.word)) }) ∧
          ∀ q, q ≠ s.cur → q ∉ x.waiting → t.seqs.get q = s.seqs.get q)) ∧
    (∀ gen wide, s.cpu.wait = .passed gen wide →
      let s0 := if wide then acquireInvalidate s die u.ctx else s
      runsTo (.bar d a) s fun t => onlyCpu s0 t ∧
        t.cpu = { s.cpu.setReg d (BitVec.ofNat 64 gen) with pc := s.cpu.pc + 4, wait := .none }) ∧
    (∀ k gen, s.cpu.wait = .barrier k gen → exec (.bar d a) s = .next s) ∧
    (s.cpu.wait = .timedOut → handlerReady s → trapsExactly (.bar d a) s 0x0A 0 none) ∧
    (handlerReady s → s.cpu.wait = .none →
      (barrierOf s u.ctx n = none ∨ 63 < n ∨ (barrierOf s u.ctx n = some x ∧ barScope x.word = 2 ∧ x.die ≠ die)) →
      trapsExactly (.bar d a) s 0x06 0 (some (0, 0xF5)))) ∧
  (∀ (s : State) (ctx : BitVec 12) (n : Nat) (x : Barrier), barrierOf s ctx n = some x →
    (bits x.word 47 16 = 0 ∨ (x.waiting = [] ∧ x.absent = []) → exec (.barrierWatchdog ctx n) s = .next s) ∧
    (bits x.word 47 16 ≠ 0 → x.waiting ≠ [] ∨ x.absent ≠ [] →
      runsTo (.barrierWatchdog ctx n) s fun t =>
        barrierOf t ctx n = some { x with arrivals := 0, waiting := [], absent := [] } ∧
        { t with barriers := s.barriers, seqs := s.seqs, restores := s.restores } = s ∧
        (∀ q, t.seqs.get q = if q ∈ x.waiting then { s.seqs.get q with wait := .timedOut } else s.seqs.get q) ∧
        t.restores = s.restores.map fun r => if r.ctx ≠ ctx then r else { r with
          units := r.units.map fun v => if x.absent.any v.ranOn then { v with state := { v.state with wait := .timedOut } } else v }))

/-! ## Configurations -/

/-- A RECFG of a resident graph that is not being reconfigured, with every earlier access performed and a payload whose
words are good, or none, places RECONF and waits; a payload at no multiple of 32 raises MISAL, one that faults in
translation traps so, a bad word or an unknown graph raises OPRNG, each exactly, and behind an access or another RECFG of
the graph it waits at issue (R204, R256, R282).  Once RECONF has reached every node, and nothing of the configuration is
left in flight, the phase ends and the next begins; till then it stands (R172, R222).  The RECFG then gives the new phase,
and a graph that it retires, done and with no unit that runs or that a restore has still to resume, leaves (R282).  The
model's choices: an unknown graph raises OPRNG also where the payload is misaligned (log 28), and RECONF has passed once it has
reached every node, but for its back edges (log 29). -/
def Obligations.Reconfiguration : Prop :=
  (∀ (s : State) (u : UnitRec) (d a b : Reg) (r : BitVec 1), s.cpu.run = some u →
    let i := Instr.recfg d a b r
    let idle := s.cpu.wait = .none ∧ ownAccesses s s.cur = []
    let found := s.graphs.find? (fun x => x.ctx == u.ctx && x.handle == (s.cpu.reg a).toNat && !x.retired)
    let placed := fun (s0 : State) (g : Graph) =>
      runsTo i s fun t => t.cpu = { s.cpu with wait := .recfg g.handle } ∧ t.mem = s0.mem ∧
        (∀ q, q ≠ s.cur → t.seqs.get q = s.seqs.get q) ∧
        ∃ x ∈ t.graphs, x.gid = g.gid ∧ x.reconf.isSome ∧ (r = 1 → x.retiring = true)
    (s.cpu.wait = .none → ownAccesses s s.cur ≠ [] → exec i s = .next s) ∧
    (idle → found = none → handlerReady s → trapsExactly i s 0x06 0 (some (0, 0xF5))) ∧
    (∀ g, idle → found = some g → g.reconf.isSome → exec i s = .next s) ∧
    (∀ g, idle → found = some g → g.reconf = none → b = 0 → placed s g) ∧
    (∀ g, idle → found = some g → g.reconf = none → b ≠ 0 →
      let va := s.cpu.reg b
      (va.toNat % 32 ≠ 0 → handlerReady s → trapsExactly i s 0x05 0 (some (va, 0xF3))) ∧
      (∀ s1 f, va.toNat % 32 = 0 → seqLoad s u va.toNat 32 = (s1, .fault f) → handlerReady s → faultsExactly i s s1 f) ∧
      (∀ s1, va.toNat % 32 = 0 → seqLoad s u va.toNat 32 = (s1, .wait) → exec i s = .next s1) ∧
      (∀ s1 bs, va.toNat % 32 = 0 → seqLoad s u va.toNat 32 = (s1, .bytes bs) → s1.cur = s.cur → s1.seqs = s.seqs →
        s1.graphs = s.graphs →
        let good := (rcWords (BitVec.ofNat 256 (ofBytes bs))).all (rcOk s1 g)
        (good = true → placed s1 g) ∧
        (good = false → handlerReady s → runsTo i s fun t => entersHandler s1 t 0x06 0 s.cpu.pc 0 (some (0, 0xF5))))) ∧
    (∀ k, s.cpu.wait = .recfg k → exec i s = .next s) ∧
    (∀ n, s.cpu.wait = .reconfPassed n → runsTo i s fun t =>
      t.cpu = { s.cpu.setReg d (n.setWidth 64) with pc := s.cpu.pc + 4, wait := .none } ∧ t.mem = s.mem ∧
      (∀ q, q ≠ s.cur → (∀ m, (s.seqs.get q).wait ≠ .bidding m) → t.seqs.get q = s.seqs.get q) ∧
      ∀ g ∈ s.graphs, g.retired = false → g.retiring = true → g.reconf = none → graphDone s g = true → unitsLeft s g = false →
        ∀ x ∈ t.graphs, x.gid = g.gid → x.retired = true)) ∧
  (∀ (s : State) (g : Graph),
    s.graphs.find? (fun x => x.ctx == g.ctx && x.handle == g.handle && !x.retired) = some g →
    let i := Instr.reconfPass g.ctx g.handle
    let s1 := (graphNodes s g).foldl (fun s n => passReconf s g n.ref) s
    let n := currentPhase s1 g.ctx g.die
    (g.reconf = none → exec i s = .next s) ∧
    (g.reconf.isSome → reconfReady s1 g = false → exec i s = .next s1) ∧
    (g.reconf.isSome → reconfReady s1 g = true → n.toNat + 1 < 2 ^ 32 →
      runsTo i s fun t =>
        currentPhase t g.ctx g.die = n + 1 ∧ (∃ p ∈ t.phases, p.ctx = g.ctx ∧ p.die = g.die ∧ p.num = n ∧ p.passed = true) ∧
        (∀ x ∈ t.graphs, x.gid = g.gid → x.reconf = none) ∧
        ∀ q, t.seqs.get q =
          if (s1.seqs.get q).wait = .recfg g.handle ∧ (∃ u, (s1.seqs.get q).run = some u ∧ u.ctx = g.ctx)
          then { s1.seqs.get q with wait := .reconfPassed (n + 1) } else s1.seqs.get q))

/-- A LOADCFG whose image passes every check and fits the partition bids, its priority below 8 and its base a multiple of
64: where it is the partition's one bid it is granted at once the lowest rectangle that is free, else it waits.  An image
that fails a check raises CFGREJ with the reason in FINFO and the place in FADDR, one that can fit nowhere with reason
0x12; a priority of 8 or more raises OPRNG, another base MISAL, and an image that faults in translation traps so, each
exactly; while it is being read, and while it bids, it waits (R29, R44, R256, R274, R376).

The LOADCFG that has a grant, with its part free of an earlier graph and a handle left, makes the graph resident and gives
its handle; without it waits; and where TKEY gives no access to the context table it traps PGF 0x07 or 0x08 exactly, its grant
given back (R59, R274, R377).  The one bid of a partition that fits is granted its rectangle when the arbiter runs (R376).

The model's choices: a priority of 8 or more raises OPRNG whatever the base's alignment (log 28), and which place of the image
FADDR names for a reason (logs 50, 51 and 52). -/
def Obligations.Configuration : Prop :=
  (∀ (s s1 : State) (u : UnitRec) (d a b : Reg) (m : List (List Byte)), s.cpu.run = some u →
    let i := Instr.loadcfg d a b
    let base := s.cpu.reg a
    let prio := (s.cpu.reg b).toNat
    let rejects := fun (r off : Nat) => handlerReady s → runsTo i s fun t =>
      entersHandler s1 t 0x0C 0 s.cpu.pc 0 (some (base + BitVec.ofNat 64 off, BitVec.ofNat 64 r))
    (∀ sofar, (s.cpu.wait = .none ∧ sofar = []) ∨ s.cpu.wait = .loading sofar →
      (8 ≤ prio → handlerReady s → trapsExactly i s 0x06 0 (some (0, 0xF5))) ∧
      (prio < 8 → base.toNat % 64 ≠ 0 → handlerReady s → trapsExactly i s 0x05 0 (some (base, 0xF3))) ∧
      (prio < 8 → base.toNat % 64 = 0 → s1.cur = s.cur → s1.seqs = s.seqs →
        (readImage s u base.toNat sofar = (s1, .wait m) → exec i s = .next (setWait s1 (.loading m))) ∧
        (∀ f, readImage s u base.toNat sofar = (s1, .fault f) → handlerReady s → faultsExactly i s s1 f) ∧
        (∀ r off, readImage s u base.toNat sofar = (s1, .reject r off) → rejects r off) ∧
        (readImage s u base.toNat sofar = (s1, .image m) →
          let bid := imageBid s1 u m prio
          let held := fun (t : State) (w : Wait) => t.cpu = { s.cpu with wait := w } ∧
            (∀ q, q ≠ s.cur → (∀ k, (s.seqs.get q).wait ≠ .bidding k) → t.seqs.get q = s.seqs.get q) ∧
            { t with bids := s1.bids, grants := s1.grants, nextBid := s1.nextBid, seqs := s1.seqs, restores := s1.restores } = s1
          (∀ r off, checkImage m = some (r, off) → rejects r off) ∧
          (checkImage m = none → fitsSomewhere s1 bid = false → rejects 0x12 0) ∧
          (checkImage m = none → fitsSomewhere s1 bid = true →
            (runsTo i s fun t => ∃ w, held t w ∧ (w = .bidding m ∨ ∃ x y, w = .granted x y m)) ∧
            ((∀ c ∈ s1.bids, c.part ≠ u.part) →
              (fitOrigin s1 bid = none → runsTo i s fun t => held t (.bidding m) ∧ t.bids = s1.bids ++ [bid] ∧ t.grants = s1.grants) ∧
              (∀ x y, fitOrigin s1 bid = some (x, y) → runsTo i s fun t => held t (.granted x y m) ∧ t.bids = s1.bids ∧
                t.grants = s1.grants ++ [{ part := u.part, q := s.cur, ctx := u.ctx, x := x, y := y, w := bid.w, h := bid.h }])))))) ∧
    (s.cpu.wait = .bidding m → exec i s = .next s) ∧
    (∀ x y, s.cpu.wait = .granted x y m →
      (nextHandle s u.ctx = none → exec i s = .next s) ∧
      (∀ h, nextHandle s u.ctx = some h →
        let g := loadedGraph s u m h x y prio base
        let locked := partLocked s g.die ((loadedNodes m g).map Node.ref)
        (locked = true → exec i s = .next s) ∧
        (∀ f, locked = false → tableFault s u.part base.toNat = some f → handlerReady s → runsTo i s fun t =>
          entersHandler { s with grants := s.grants.filter fun r => r.q != s.cur || r.ctx != u.ctx } t f.code 0 s.cpu.pc 0
            (some (BitVec.ofNat 64 f.addr, f.word))) ∧
        (locked = false → tableFault s u.part base.toNat = none → runsTo i s fun t =>
          t.graphs = s.graphs ++ [g] ∧ g.ctx = u.ctx ∧ g.handle = h ∧ g.x = x ∧ g.y = y ∧ g.retired = false ∧
          (∀ n ∈ loadedNodes m g, ∃ n2 ∈ t.nodes, n2.ref = n.ref ∧ n2.slots = n.slots ∧ n2.depths = n.depths ∧ n2.store = []) ∧
          h ∈ (jobRecOf t u.ctx).given ∧ (∀ r ∈ t.grants, ¬(r.q = s.cur ∧ r.ctx = u.ctx)) ∧
          (∀ q, q ≠ s.cur → t.seqs.get q = s.seqs.get q) ∧
          t.cpu = { s.cpu.setReg d (BitVec.ofNat 64 h) with pc := s.cpu.pc + 4, wait := .none })))) ∧
  (∀ (s : State) (b : Bid) (x y : Nat) (m : List (List Byte)),
    (s.bids.filter fun c => c.part == b.part) = [b] → b.restore = none → (∀ r ∈ s.restores, r.part ≠ b.part) →
    fitOrigin s b = some (x, y) → (s.seqs.get b.q).wait = .bidding m →
    runsTo (.admissionArbitrate b.part) s fun t =>
      t.bids = s.bids.erase b ∧
      t.grants = s.grants ++ [{ part := b.part, q := b.q, ctx := b.ctx, x := x, y := y, w := b.w, h := b.h }] ∧
      { t with bids := s.bids, grants := s.grants, seqs := s.seqs } = s ∧
      t.seqs.get b.q = { s.seqs.get b.q with wait := .granted x y m } ∧ ∀ q, q ≠ b.q → t.seqs.get q = s.seqs.get q)

/-! ## Keys, scrubs, counters -/

/-- KEYZ of a slot in the map, every earlier access performed and nothing still to be performed that has used a
translation of it, puts the slot into ZERO and gives its old state word; until then it waits (R81, R413).  CTRINC gives
the counter's value, or counts it up by one durably, and at its greatest value raises SEALX 0x0B (R418, R419).  A number
outside the partition's map raises OPRNG and neither changes (R256, R413, R419). -/
def Obligations.KeysAndCounters : Prop :=
  ∀ (s : State) (u : UnitRec) (d a : Reg) (r : BitVec 1), s.cpu.run = some u →
    let k := (s.cpu.reg a).toNat
    (k ≤ 4095 → (partOf s u.part).keys.getLsbD k = true →
      (ownAccesses s s.cur ≠ [] ∨ slotInUse s k = true → exec (.keyz d a) s = .next s) ∧
      (ownAccesses s s.cur = [] → slotInUse s k = false →
        runsTo (.keyz d a) s fun t =>
          keyState t k = .zero ∧ keyMat t k = none ∧ (∀ j, j ≠ k → keyState t j = keyState s j ∧ keyMat t j = keyMat s j) ∧
          t.cpu = { s.cpu.setReg d (keyWord s k) with pc := s.cpu.pc + 4 } ∧ ∀ q, q ≠ s.cur → t.seqs.get q = s.seqs.get q)) ∧
    (k ≤ 4095 → (partOf s u.part).ctrs.getLsbD k = true →
      let v := counterOf s k
      (r = 1 → givesReg (.ctrinc d a r) s d v) ∧
      (r = 0 → v.toNat + 1 < 2 ^ 64 →
        runsTo (.ctrinc d a r) s fun t =>
          counterOf t k = v + 1 ∧ (∀ j, j ≠ k → counterOf t j = counterOf s j) ∧
          { t with counters := s.counters, seqs := s.seqs } = s ∧ (∀ q, q ≠ s.cur → t.seqs.get q = s.seqs.get q) ∧
          t.cpu = { s.cpu.setReg d (v + 1) with pc := s.cpu.pc + 4 }) ∧
      (r = 0 → v.toNat = 2 ^ 64 - 1 → handlerReady s → trapsExactly (.ctrinc d a r) s 0x10 0 (some (0, 0x0B)))) ∧
    (handlerReady s →
      (4095 < k ∨ (partOf s u.part).keys.getLsbD k = false → trapsExactly (.keyz d a) s 0x06 0 (some (0, 0xF5))) ∧
      (4095 < k ∨ (partOf s u.part).ctrs.getLsbD k = false → trapsExactly (.ctrinc d a r) s 0x06 0 (some (0, 0xF5))))

/-- SCRUB gives 1 while records are queued or another unit or graph stands, 2 while a key is LOADED, and else, with
nothing of its unit outstanding, ends it and puts the partition into SCRUBPEND; it waits for what its unit has
outstanding (R279, R415); the model's choices are that it waits where a page of a ring must wait (log 27) and which graph it
leaves out of the count (log 86).  The scrub engine takes a partition in SCRUBPEND up with
its TOTAL, and a scrub that completes leaves the partition FREE, its arrays' bytes gone and DONE equal to TOTAL; in any
other state neither does anything (R407, R416). -/
def Obligations.Scrubs : Prop :=
  (∀ (s s1 : State) (u : UnitRec) (d : Reg), s.cpu.run = some u → u.part < 48 →
    let rings := partRings s u.part fun _ => true
    let gives := fun (v : Word) => runsTo (.scrub d) s fun t => writesReg s1 t d v ∧ t.cpu.pc = s.cpu.pc + 4
    let queued := anyRecord s1 rings 1
    let pages := ringHold (releasePkg s1 u) (retireUses s1 u)
    (holdRings s rings = (s1, false) → exec (.scrub d) s = .next s1) ∧
    (holdRings s rings = (s1, true) →
      (queued = true ∨ scrubHeld s1 u = true → gives 1) ∧
      (queued = false → scrubHeld s1 u = false → anyLoaded s1 u.part = true → gives 2) ∧
      (queued = false → scrubHeld s1 u = false → anyLoaded s1 u.part = false →
        (endWaits s s.cur = true → exec (.scrub d) s = .next s1) ∧
        (endWaits s s.cur = false → pages.2 = true → runsTo (.scrub d) s fun t =>
          (partOf t u.part).stateOf = 2 ∧ (t.seqs.get s.cur).run = none ∧ (t.seqs.get s.cur).regs = s.cpu.regs ∧
          ∀ k, k ≠ u.part → partOf t k = partOf s k)))) ∧
  (∀ (s : State) (part : Nat), part < 48 →
    let p := partOf s part
    (p.stateOf ≠ 2 → exec (.scrubBegin part) s = .next s) ∧
    (p.stateOf ≠ 3 → exec (.scrubComplete part) s = .next s) ∧
    (p.stateOf = 2 →
      runsTo (.scrubBegin part) s fun t =>
        (partOf t part).stateOf = 3 ∧ (partOf t part).scrDone = 0 ∧
        (partOf t part).scrTotal = BitVec.ofNat 32 (scrubTotal p) ∧ { t with parts := s.parts } = s ∧
        ∀ k, k ≠ part → partOf t k = partOf s k) ∧
    (p.stateOf = 3 →
      runsTo (.scrubComplete part) s fun t =>
        (partOf t part).stateOf = 0 ∧ (partOf t part).scrDone = p.scrTotal ∧ (partOf t part).scrTotal = p.scrTotal ∧
        (partOf t part).quads = 0 ∧ (partOf t part).keys = 0 ∧
        (∀ r x, region x = .array r → ownsArray p r = true → memGet t.mem x = none) ∧
        (∀ a ∈ t.arrays, ownsArray p a.ref = false) ∧ (∀ l ∈ t.l2, l.part ≠ part) ∧
        ∀ k, k ≠ part → partOf t k = partOf s k))

/-! ## Cuts and images -/

/-- MARK outside a handler begins a cut of its context, or joins the one in progress, and waits in it with its pc past
it; the cut then completes, everything standing still and its area translating under a key slot that the partition may
use: it has saved the context and counted CUTNO, and either nothing of the context is left resident, or every MARK of the
context goes on with the cut's number in its D (R395, R398, R403).  Inside a handler MARK is ILLOP and aborts the unit
(R386, R403).  A slice that runs out begins a cut that stops the context, and one that is 0, or of a context that is not
resident, does nothing (R439).  A cut that does not stand still goes no further, and one whose area cannot be written
fails, with its event (R410).

A restore of a saved context begins: the request is accepted, and each of its graphs bids, or has been granted tiles
(R376, R399, R438).  A context that runs, is none, or of a partition that is not ACTIVE, or whose area cannot be read, is
refused (R399, R415, R438); where a page of its area must wait the request stays in service, and none other is served till it
goes on (R431).  The bytes of a saved context are free, and what a restore reads from bytes is the context kept beside those
bytes, or else a free function of them: the model's choice (log 16). -/
def Obligations.CutsAndRestores : Prop :=
  let area := fun (s : State) (ctx : BitVec 12) (part n : Nat) (write : Bool) =>
    translate s (.cut ctx) ctx part (partOf s part).dieOf (cutBase s part ctx) n write false false
  let begun := fun (s : State) (ctx : BitVec 12) =>
    let s1 := cutWriteBack (saveAll s ctx) ctx
    ({ s1 with freeCtr := s1.freeCtr + 1 }, (Config.cutBytes s1.freeCtr).take (2 ^ 28))
  let writes := fun (s s2 : State) (ctx : BitVec 12) (part : Nat) => cutReady (saveAll s ctx) ctx = true ∧
    keyCause (begun s ctx).1 part (partOf s part).tkey = none ∧
    ∃ ps, area (begun s ctx).1 ctx part (max 1 (begun s ctx).2.length) true = (s2, .ok ps)
  ((∀ (s : State) (u : UnitRec) (d : Reg) (k : BitVec 1), s.cpu.run = some u →
     (s.cpu.h = false →
       runsTo (.mark d k) s fun t => ∃ c, cutOf t u.ctx = some c ∧ t.cpu.wait = .marking c.num (k == 1) d ∧
         t.cpu.pc = s.cpu.pc + 4 ∧ t.cpu.regs = s.cpu.regs ∧ (k = 0 → c.stop = true) ∧
         (cutOf s u.ctx = none → c.num = cutNo s u.part u.ctx + 1 ∧ c.stop = (k == 0) ∧ c.failed = false) ∧
         (∀ b, cutOf s u.ctx = some b → c = { b with stop := b.stop || k == 0 }) ∧
         (∀ s2 part, partOfCtx s u.ctx = some part → writes t s2 u.ctx part → c.failed = false →
           runsTo (.cutComplete u.ctx) t fun w => cutOf w u.ctx = none ∧
             (c.stop = false → w.seqs.get s.cur =
               { (t.seqs.get s.cur).setReg d (c.num.setWidth 64) with wait := .none, ahead := [] }) ∧
             (c.stop = true → (w.seqs.get s.cur).run = none))) ∧
     (s.cpu.h = true →
       (leavesAtOnce s u 1 0 s.cpu.pc → runsTo (.mark d k) s fun t => abortsUnit s t u 1 0 s.cpu.pc) ∧
       (unitBusy s s.cur = true → runsTo (.mark d k) s fun t => t = aborting s 1 0 s.cpu.pc))) ∧
   (∀ (s : State) (ctx : BitVec 12),
     (∀ n, (partOfCtx s ctx).isSome → (ctx, n) ∈ s.slices → n ≠ 0 → ctxResident s ctx = true →
       runsTo (.sliceExpiry ctx) s fun t => ∃ c, cutOf t ctx = some c ∧ c.stop = true ∧
         (∀ b, cutOf s ctx = some b → c = { b with stop := true })) ∧
     ((∀ n, (ctx, n) ∈ s.slices → n = 0) ∨ ctxResident s ctx = false ∨ partOfCtx s ctx = none →
       exec (.sliceExpiry ctx) s = .next s)) ∧
   (∀ (s s2 : State) (ctx : BitVec 12) (c : Cut) (part : Nat), cutOf s ctx = some c → partOfCtx s ctx = some part →
     (c.failed = true → exec (.cutComplete ctx) s = .next s) ∧
     (c.failed = false → cutReady (saveAll s ctx) ctx = false → exec (.cutComplete ctx) s = .next (saveAll s ctx)) ∧
     (c.failed = false → writes s s2 ctx part → runsTo (.cutComplete ctx) s fun t =>
       cutOf t ctx = none ∧ ctx ∈ t.sealable ∧
       (∃ v ∈ t.savedCtxs, v.ctx = ctx ∧ v.cutNo = c.num ∧ v.bytes = (begun s ctx).2 ∧
         v.graphs = (s2.graphs.filter fun g => g.ctx == ctx) ∧ v.launches = (s2.launches.filter fun l => l.ctx == ctx)) ∧
       (c.stop = true →
         (∀ q u, (t.seqs.get q).run = some u → u.ctx ≠ ctx) ∧ (∀ g ∈ t.graphs, g.ctx ≠ ctx) ∧ ∀ n ∈ t.nodes, n.ctx ≠ ctx) ∧
       (c.stop = false → ∀ q, t.seqs.get q = match (s2.seqs.get q).run, (s2.seqs.get q).wait with
         | some u, .marking n _ d => if u.ctx = ctx then { (s2.seqs.get q).setReg d (n.setWidth 64) with wait := .none, ahead := [] }
             else s2.seqs.get q
         | _, _ => s2.seqs.get q)) ∧
     (∀ f, c.failed = false → cutReady (saveAll s ctx) ctx = true →
       keyCause (begun s ctx).1 part (partOf s part).tkey = none →
       area (begun s ctx).1 ctx part (max 1 (begun s ctx).2.length) true = (s2, .fault f) →
       runsTo (.cutComplete ctx) s fun t => t.seqs = s2.seqs ∧ (∃ x, cutOf t ctx = some x ∧ x.failed = true) ∧
         ∃ e, t.blackBox.getLast? = some e ∧ e.code = 0x103 ∧ e.part = part ∧ e.ctx = ctx.toNat))) ∧
  (∀ (s : State) (ctx : BitVec 12),
    let refused := fun (s1 : State) => exec (.restoreStart ctx) s =
      .next { s1 with responses := s1.responses ++ [.refused 6], serving := none }
    (∀ j, s.serving = some j → j ≠ .restoreStart ctx → exec (.restoreStart ctx) s = .next s) ∧
    (s.serving = none ∨ s.serving = some (.restoreStart ctx) →
    (s.bstatStage ≠ 2 ∨ partOfCtx s ctx = none → refused s) ∧
    (∀ part, s.bstatStage = 2 → partOfCtx s ctx = some part →
      let free := (partOf s part).stateOf = 1 ∧ bit (descWord s part ctx 0x20) 63 = true ∧ ctxResident s ctx = false ∧
        restoreOf s ctx = none
      let read := area s ctx part ((s.savedCtxs.map fun c => c.bytes.length).foldl max 1) false
      (¬free → refused s) ∧
      (free → (∃ k, keyCause s part (partOf s part).tkey = some k) ∨ (∃ f, read.2 = .fault f) → refused read.1) ∧
      (free → keyCause s part (partOf s part).tkey = none → read.2 = .wait →
        exec (.restoreStart ctx) s = .next { read.1 with serving := some (.restoreStart ctx) }) ∧
      (∀ ps, free → keyCause s part (partOf s part).tkey = none → read.2 = .ok ps →
        let c := cutOfBytes read.1 ctx (readParts read.1 ps)
        let live := c.graphs.filter fun g => !g.retired
        (live ≠ [] → runsTo (.restoreStart ctx) s fun t =>
          t.responses = s.responses ++ [.accepted 6] ∧ t.serving = none ∧
          ∃ r ∈ t.restores, r.ctx = ctx ∧ r.part = part ∧ r.saved = c ∧
            ∀ g ∈ live, (∃ b ∈ t.bids, b.ctx = ctx ∧ b.restore = some g.handle) ∨ ∃ p ∈ r.placed, p.1 = g.handle) ∧
        (live = [] → runsTo (.restoreStart ctx) s fun t =>
          t.responses = s.responses ++ [.accepted 6] ∧ t.serving = none ∧ ∀ r ∈ t.restores, r.ctx ≠ ctx)))))

/-- SEAL, its request, key report and chain read, the report signed and the cut area and the image's own range
translated: D is the size of the image, which is stored, and with MIG the context is lent under the target of the report.
A request at no multiple of 64 raises MISAL; one whose fields break their limits, or of a context of another partition,
OPRNG; a context with no completed cut, or for MIG in a wrong state, SEALX 2; a report that is not signed SEALX 1; too many
keys SEALX 0x0C; an image above the limit SEALX 3: each exactly.  Behind an access, or while the context is being cut, it
waits (R256, R421 to R423, R425).

UNSEAL, its request good and its image's header passing every check, both tags right: the anti-replay counter is
past the image's value, and a restore of the context begins, after which D is that value plus one; a header that is
behind the counter raises STALE, any other failed check SEALX with its reason; a bad request MISAL or OPRNG; and an UNSEAL
whose restore has every graph completes, and waits till then (R256, R424, R425).

The model's choices: SEALX 0x0B for an image whose counter is 2^64 - 1 (log 91), which fields of the requests raise OPRNG (logs
88 and 90), and that the cut area is wiped where a body does not open or the counter is at its end (log 89). -/
def Obligations.SealsAndUnseals : Prop :=
  (∀ (s : State) (u : UnitRec) (d a b : Reg) (m : BitVec 1), s.cpu.run = some u →
     let i := Instr.seal d a b m
     let va := s.cpu.reg a
     let traps := fun (s1 : State) (code : Nat) (fault : Word) => handlerReady s → s1.cur = s.cur → s1.seqs = s.seqs →
       runsTo i s fun t => entersHandler s1 t code 0 s.cpu.pc 0 (some (0, fault))
     (ownAccesses s s.cur ≠ [] → exec i s = .next s) ∧
     (ownAccesses s s.cur = [] → va.toNat % 64 ≠ 0 → handlerReady s → trapsExactly i s 0x05 0 (some (va, 0xF3))) ∧
     (ownAccesses s s.cur = [] → va.toNat % 64 = 0 →
       (∀ s1 f, seqLoad s u va.toNat 128 = (s1, .fault f) → handlerReady s → faultsExactly i s s1 f) ∧
       (∀ s1, seqLoad s u va.toNat 128 = (s1, .wait) → exec i s = .next s1) ∧
       ∀ s1 rb, seqLoad s u va.toNat 128 = (s1, .bytes rb) →
         (sealReqOf rb = none → traps s1 0x06 0xF5) ∧
         ∀ r, sealReqOf rb = some r →
           let ctx := BitVec.ofNat 12 r.ctx
           let open_ := (partOf s1 u.part).hasCtx r.ctx = true ∧ tableFault s1 u.part va.toNat = none
           let stands := cutOf s1 ctx = none ∧ ctx ∈ s1.sealable ∧ (m = 1 → ctxState s1 u.part ctx = 2 ∨ ctxState s1 u.part ctx = 3)
           ((partOf s1 u.part).hasCtx r.ctx = false → traps s1 0x06 0xF5) ∧
           (∀ f, (partOf s1 u.part).hasCtx r.ctx = true → tableFault s1 u.part va.toNat = some f → handlerReady s →
             faultsExactly i s s1 f) ∧
           (open_ → (cutOf s1 ctx).isSome → exec i s = .next s1) ∧
           (open_ → cutOf s1 ctx = none → ¬stands → traps s1 0x10 2) ∧
           (∀ s2 s3 pkr chain, open_ → stands → seqLoad s1 u r.pkr 256 = (s2, .bytes pkr) →
             seqLoad s2 u r.chain r.chainLen = (s3, .bytes chain) →
             let ks := carriedKeys s3 u.part ctx
             let saved := ((s3.savedCtxs.reverse.find? fun c => c.ctx == ctx).map fun c => c.bytes.length).getD 1
             (pkrOk chain pkr = false → traps s3 0x10 1) ∧
             (pkrOk chain pkr = true → 16 < ks.length → traps s3 0x10 0x0C) ∧
             (∀ s4 ps, pkrOk chain pkr = true → ks.length ≤ 16 →
               translate s3 (.cut ctx) ctx u.part (partOf s3 u.part).dieOf (cutBase s3 u.part ctx) saved false false false
                 = (s4, .ok ps) →
               let cut := readParts s4 ps
               let n := 512 + 64 * ks.length + 65536 + cut.length
               let img := buildImage s4 u.part (m == 1) r pkr cut ks
               (r.limit < n → traps s4 0x10 3) ∧
               (∀ s5 qs, n ≤ r.limit →
                 translate { s4 with freeCtr := s4.freeCtr + 4 } (.seq s4.cur) u.ctx u.part (s4.cur.val / 16) (s4.cpu.reg b).toNat
                   img.1.length true false false = (s5, .ok qs) →
                 s5.cur = s.cur → s5.seqs = s.seqs →
                 runsTo i s fun t =>
                   t.cpu = { s.cpu.setReg d (BitVec.ofNat 64 n) with pc := s.cpu.pc + 4 } ∧
                   (∀ q, q ≠ s.cur → t.seqs.get q = s.seqs.get q) ∧
                   (m = 0 → t.lends = s5.lends ∧ t.mem = (storeParts s5 (s5.cur.val / 16) u.part u.ctx true qs img.1).mem) ∧
                   (m = 1 → { lendId := img.2, tgt := BitVec.ofNat 256 (ofBytes (sliceOf pkr 0x10 32)), ctx := ctx } ∈ t.lends ∧
                     ∀ l ∈ t.lends, l.ctx = ctx → l.lendId = img.2)))))) ∧
  ((∀ (s s1 s2 s3 s4 s5 : State) (u : UnitRec) (d a b : Reg) (rb h ct : List Byte) (ps : List Part),
     s.cpu.run = some u → s.cpu.wait = .none →
     let i := Instr.unseal d a b
     let va := s.cpu.reg b
     let quiet := ownAccesses s s.cur = [] ∧ va.toNat % 64 = 0
     let traps := fun (s1 : State) (code : Nat) (fault : Option (Word × Word)) => handlerReady s → s1.cur = s.cur →
       s1.seqs = s.seqs → runsTo i s fun t => entersHandler s1 t code 0 s.cpu.pc 0 fault
     (ownAccesses s s.cur ≠ [] → exec i s = .next s) ∧
     (ownAccesses s s.cur = [] → va.toNat % 64 ≠ 0 → handlerReady s → trapsExactly i s 0x05 0 (some (va, 0xF3))) ∧
     (∀ f, quiet → seqLoad s u va.toNat 128 = (s1, .fault f) → handlerReady s → faultsExactly i s s1 f) ∧
     (quiet → seqLoad s u va.toNat 128 = (s1, .wait) → exec i s = .next s1) ∧
     (quiet → seqLoad s u va.toNat 128 = (s1, .bytes rb) → unsealReqOf rb = none → traps s1 0x06 (some (0, 0xF5))) ∧
     (∀ r, quiet → seqLoad s u va.toNat 128 = (s1, .bytes rb) → unsealReqOf rb = some r →
       let ctx := BitVec.ofNat 12 r.ctx
       let rings := partRings s1 u.part fun x => x.ctx.toNat == r.ctx
       let held := holdRings s1 rings
       (∀ f, tableFault s1 u.part va.toNat = some f → handlerReady s → faultsExactly i s s1 f) ∧
       (tableFault s1 u.part va.toNat = none → held = (s2, false) → exec i s = .next s2) ∧
       (tableFault s1 u.part va.toNat = none → held = (s2, true) →
         (unsealReqOk s2 u.part r (anyRecord s2 rings 1) = false → traps s2 0x06 (some (0, 0xF5))) ∧
         (unsealReqOk s2 u.part r (anyRecord s2 rings 1) = true → seqLoad s2 u (s2.cpu.reg a).toNat 512 = (s3, .bytes h) →
           (headerFails s3 u.part h r = some 0 → traps s3 0x0F none) ∧
           (∀ e, headerFails s3 u.part h r = some e → e ≠ 0 → traps s3 0x10 (some (0, BitVec.ofNat 64 e))) ∧
           (headerFails s3 u.part h r = none →
             let n := fieldOf h 0x20 8
             let c := cutLen n r.slots.length
             let next := BitVec.ofNat 64 (fieldOf h 0x10 8 + 1)
             seqLoad s3 u ((s3.cpu.reg a).toNat + 512) n = (s4, .bytes ct) →
             translate s4 (.cut ctx) ctx u.part (partOf s4 u.part).dieOf (cutBase s4 u.part ctx) (max 1 c) true false false
               = (s5, .ok ps) → s5.cur = s.cur → s5.seqs = s.seqs →
             let wiped := writeParts s5 u.part ps (List.replicate c 0)
             (openBody s5 h ct = none → traps wiped 0x10 (some (0, 6))) ∧
             (∀ body, openBody s5 h ct = some body →
               (fieldOf h 0x10 8 = 2 ^ 64 - 1 → traps wiped 0x10 (some (0, 0x0B))) ∧
               (fieldOf h 0x10 8 < 2 ^ 64 - 1 → runsTo i s fun t =>
                 counterOf t (fieldOf h 8 2) = next ∧ (∀ k, k ≠ fieldOf h 8 2 → counterOf t k = counterOf s5 k) ∧
                 (t.cpu = { s.cpu with wait := .unsealing ctx next } ∨
                  t.cpu = { s.cpu.setReg d next with pc := s.cpu.pc + 4 })))))))) ∧
   (∀ (s : State) (u : UnitRec) (d a b : Reg) (ctx : BitVec 12) (v : Word), s.cpu.run = some u →
     s.cpu.wait = .unsealing ctx v →
     let left := ∃ r, restoreOf s ctx = some r ∧ r.graphs ≠ []
     (left → exec (.unseal d a b) s = .next s) ∧
     (¬left → runsTo (.unseal d a b) s fun t =>
       onlyCpu s t ∧ t.cpu = { s.cpu.setReg d v with pc := s.cpu.pc + 4, wait := .none })))

/-! ## The fabric -/

/-- A firing takes its tokens, and each of its outputs that has consumers holds the token for all of them: here for a
firing whose instance has no exception, at a node that stays (R196, R203).  Every word but STEER, STEERC, MERGE, WADV,
SINK and the words of the islands follows the rules of ends (R206, R208, R209, R297); that BLKX, as the others, emits its
ends at the firing and not at commit is the model's choice (log 36). -/
def Obligations.FiringsTakeAndEmit : Prop :=
  (∀ (s : State) (f : Firing) (m : Mode) (outs : List (Nat × Token)) (n : Node),
    nodeOf s f.n.ref = some f.n → excepted s f = false →
    nodeOf (endFiring s f m outs) f.n.ref = some n →
    (∀ h ∈ f.heads, ∀ k ∈ n.store, k.arr ≠ h.arr) ∧
    ∀ x ∈ outs, wordConsumers s f.n f.op f.w x.1 ≠ [] →
      { slot := f.slot, out := x.1, tok := x.2, pend := wordConsumers s f.n f.op f.w x.1 } ∈ n.outs) ∧
  (∀ (s : State) (e : EWord), ∀ x ∈
    ([(.iadd e, 0x00), (.isub e, 0x01), (.imul e, 0x02), (.imulh e, 0x03), (.imac e, 0x04), (.imin e, 0x05),
      (.imax e, 0x06), (.iabs e, 0x07), (.iand e, 0x08), (.ior e, 0x09), (.ixor e, 0x0A), (.inot e, 0x0B), (.ishl e, 0x0C),
      (.ishr e, 0x0D), (.iclz e, 0x0E), (.ipopc e, 0x0F), (.icmp e, 0x10), (.fadd e, 0x20), (.fsub e, 0x21),
      (.fmul e, 0x22), (.ffma e, 0x23), (.fmin e, 0x24), (.fmax e, 0x25), (.fabs e, 0x26), (.fneg e, 0x27), (.fcmp e, 0x28),
      (.fclamp e, 0x29), (.frcp e, 0x2A), (.frsq e, 0x2B), (.fexp2 e, 0x2C), (.flog2 e, 0x2D), (.vred e, 0x40),
      (.vperm e, 0x41), (.vbcast e, 0x42), (.vsel e, 0x43), (.vext e, 0x44), (.vins e, 0x45), (.vshuf e, 0x46)] ++
     [(.gate e, 0x54), (.sync e, 0x55), (.dup e, 0x56), (.const e, 0x57), (.tagget e, 0x59), (.tagset e, 0x5A),
      (.blkx e, 0x5B), (.trape e, 0xF1), (.lde e, 0x70), (.ste e, 0x71), (.ldx e, 0x72), (.stx e, 0x73), (.amoe e, 0x74),
      (.fencee e, 0x75), (.cvt e, 0x80), (.cvts e, 0x81), (.qnt e, 0x82), (.ceval e, 0xA0), (.csched e, 0xA1),
      (.cloadctx e, 0xA2), (.csavectx e, 0xA3), (.cstate e, 0xA4)] : List (Instr × Nat)),
    followsEnds x.1 s x.2 e)

/-- The integer words of the elements give in every lane the exact result brought into the type, by saturation where
the word says so and modulo the width otherwise; a shift amount past the width changes nothing further (R300 to R302). -/
def Obligations.ElementIntegers : Prop :=
  ∀ (s : State) (e : EWord),
    let ty := e.ty.toNat
    let w := tyWidth ty
    let sat := e.mod.getLsbD 2
    let a := fun (f : Firing) l => intLane ty (f.pay .a) l
    let b := fun (f : Firing) l => intLane ty f.b l
    let c := fun (f : Firing) l => intLane ty (f.pay .c) l
    let x := fun (f : Firing) l => lane (f.pay .a) w l
    let y := fun (f : Firing) l => lane f.b w l
    let lo : Int := if ty < 4 then -(2 ^ (w - 1)) else 0
    let hi : Int := if ty < 4 then 2 ^ (w - 1) - 1 else 2 ^ w - 1
    let limited := fun (v : Int) => wrapInt w (if sat then max lo (min hi v) else v)
    let holds := fun (f : Firing) l => ([decide (a f l = b f l), decide (a f l ≠ b f l), decide (a f l < b f l),
      decide (a f l ≤ b f l), decide (b f l < a f l), decide (b f l ≤ a f l)] : List Bool).getD (e.mod.toNat % 8)
      (decide (b f l ≤ a f l))
    givesLanes (.iadd e) s 0x00 e w true (fun f l => limited (a f l + b f l)) ∧
    givesLanes (.isub e) s 0x01 e w true (fun f l => limited (a f l - b f l)) ∧
    givesLanes (.imul e) s 0x02 e w true (fun f l => limited (a f l * b f l)) ∧
    givesLanes (.imulh e) s 0x03 e w true (fun f l => wrapInt w (a f l * b f l / 2 ^ w)) ∧
    givesLanes (.imac e) s 0x04 e w true (fun f l => limited (a f l * b f l + c f l)) ∧
    givesLanes (.imin e) s 0x05 e w true (fun f l => wrapInt w (min (a f l) (b f l))) ∧
    givesLanes (.imax e) s 0x06 e w true (fun f l => wrapInt w (max (a f l) (b f l))) ∧
    givesLanes (.iabs e) s 0x07 e w true (fun f l => limited (a f l).natAbs) ∧
    givesLanes (.iand e) s 0x08 e w true (fun f l => x f l &&& y f l) ∧
    givesLanes (.ior e) s 0x09 e w true (fun f l => x f l ||| y f l) ∧
    givesLanes (.ixor e) s 0x0A e w true (fun f l => x f l ^^^ y f l) ∧
    givesLanes (.inot e) s 0x0B e w true (fun f l => 2 ^ w - 1 - x f l) ∧
    givesLanes (.ishl e) s 0x0C e w true (fun f l => limited (a f l * 2 ^ (min w (y f l)))) ∧
    givesLanes (.ishr e) s 0x0D e w true (fun f l => wrapInt w (a f l / 2 ^ (min w (y f l)))) ∧
    givesLanes (.iclz e) s 0x0E e w true (fun f l => leadZeros (x f l) w) ∧
    givesLanes (.ipopc e) s 0x0F e w true (fun f l => (List.range w).countP fun k => (x f l).testBit k) ∧
    givesLanes (.icmp e) s 0x10 e w true (fun f l => if holds f l then 2 ^ w - 1 else 0)

/-- The float words of the elements give in every lane the exact result rounded once in the word's mode, and the
comparisons all ones or zero (R303, R304).  An encoding of each format stands for the value of its sign, exponent and
fraction; a sum and a product are exact, with the signs of zero and the NaNs of IEEE 754; an encoding rounds a finite value
once, to the nearest with ties to even or in the given direction, keeps subnormals, and overflows to infinity or to the
largest finite value by the direction; and so is a quotient rounded to an integer (R226 to R228).  FRCP, FRSQ, FEXP2 and
FLOG2 give what their table gives at the special operands, and an exact case is exact (R304); that for every other operand
FRSQ, FEXP2 and FLOG2 are a computation with 384 bits whose result is rounded once is the model's choice (log 17). -/
def Obligations.ElementFloats : Prop :=
  (∀ (s : State) (e : EWord),
    let w := tyWidth e.ty.toNat
    let fm := fmtOfTy e.ty.toNat
    let r := rndOf e
    let a := fun (f : Firing) l => fdec fm (lane (f.pay .a) w l)
    let b := fun (f : Firing) l => fdec fm (lane f.b w l)
    let c := fun (f : Firing) l => fdec fm (lane (f.pay .c) w l)
    givesLanes (.fadd e) s 0x20 e w true (fun f l => fenc fm r (vadd r (a f l) (b f l))) ∧
    givesLanes (.fsub e) s 0x21 e w true (fun f l => fenc fm r (vadd r (a f l) (b f l).negate)) ∧
    givesLanes (.fmul e) s 0x22 e w true (fun f l => fenc fm r (vmul (a f l) (b f l))) ∧
    givesLanes (.ffma e) s 0x23 e w true (fun f l => fenc fm r (vadd r (vmul (a f l) (b f l)) (c f l))) ∧
    givesLanes (.fmin e) s 0x24 e w true (fun f l => fenc fm .rne (vmin (a f l) (b f l))) ∧
    givesLanes (.fmax e) s 0x25 e w true (fun f l => fenc fm .rne (vmax (a f l) (b f l))) ∧
    givesLanes (.fabs e) s 0x26 e w true (fun f l => fenc fm .rne (a f l).abs) ∧
    givesLanes (.fneg e) s 0x27 e w true (fun f l => fenc fm .rne (a f l).negate) ∧
    givesLanes (.fcmp e) s 0x28 e w true
      (fun f l => if fcmpHolds (e.mod.toNat % 8) (a f l) (b f l) then 2 ^ fm.width - 1 else 0) ∧
    givesLanes (.fclamp e) s 0x29 e w true (fun f l => fenc fm .rne (vmin (vmax (a f l) (b f l)) (c f l))) ∧
    givesLanes (.frcp e) s 0x2A e w true (fun f l => fdivEnc fm r (.fin false 1 0) (a f l)) ∧
    givesLanes (.frsq e) s 0x2B e w true (fun f l => frsqEnc fm r (a f l)) ∧
    givesLanes (.fexp2 e) s 0x2C e w true (fun f l => exp2Enc fm r (a f l)) ∧
    givesLanes (.flog2 e) s 0x2D e w true (fun f l => log2Enc fm r (a f l))) ∧
  (∀ f ∈ [fp64, fp32, fp16, bf16],
    let bias : Int := 2 ^ (f.eb - 1) - 1
    let low : Int := 1 - bias - f.fb
    let inf := (2 ^ f.eb - 1) * 2 ^ f.fb
    let nan := inf + 2 ^ (f.fb - 1)
    let sign := fun (neg : Bool) => if neg then 2 ^ (f.eb + f.fb) else 0
    let one := (2 ^ (f.eb - 1) - 1) * 2 ^ f.fb
    (∀ (neg : Bool) (ex fr : Nat), fr < 2 ^ f.fb → ex < 2 ^ f.eb → fdec f (sign neg + ex * 2 ^ f.fb + fr) =
      if ex = 2 ^ f.eb - 1 then (if fr = 0 then .inf neg else .nan)
      else if ex = 0 then .fin neg fr low else .fin neg (2 ^ f.fb + fr) (low + ex - 1)) ∧
    (∀ (r : Rnd) (neg : Bool) (m : Nat) (e : Int), 0 < m →
      ∃ (n : Nat) (ex : Int), low ≤ ex ∧ n ≤ 2 ^ (f.fb + 1) ∧ (ex = low ∨ 2 ^ f.fb ≤ n) ∧
        (let lo := min e ex
         let x := m * 2 ^ (e - lo).toNat
         let u := 2 ^ (ex - lo).toNat
         let y := n * u
         let up := (r = .rup ∧ neg = false) ∨ (r = .rdn ∧ neg = true)
         (r = .rne → 2 * y ≤ 2 * x + u ∧ 2 * x ≤ 2 * y + u ∧ (2 * y = 2 * x + u ∨ 2 * x = 2 * y + u → n % 2 = 0)) ∧
         (up → x ≤ y ∧ y < x + u) ∧ (r ≠ .rne → ¬up → y ≤ x ∧ x < y + u)) ∧
        let mag := (ex - low).toNat * 2 ^ f.fb + n
        fenc f r (.fin neg m e) = sign neg + (if mag < inf then mag
          else if r = .rtz ∨ (r = .rup ∧ neg = true) ∨ (r = .rdn ∧ neg = false) then inf - 1 else inf)) ∧
    (∀ (r : Rnd) (neg : Bool) (e : Int),
      fenc f r .nan = nan ∧ fenc f r (.inf neg) = sign neg + inf ∧ fenc f r (.fin neg 0 e) = sign neg ∧
      fdivEnc f r (.fin false 1 0) (.fin neg 0 e) = sign neg + inf ∧ fdivEnc f r (.fin false 1 0) (.inf neg) = sign neg ∧
      fdivEnc f r (.fin false 1 0) .nan = nan ∧
      frsqEnc f r (.fin neg 0 e) = sign neg + inf ∧ frsqEnc f r (.inf neg) = (if neg then nan else 0) ∧ frsqEnc f r .nan = nan ∧
      exp2Enc f r (.fin neg 0 e) = one ∧ exp2Enc f r (.inf neg) = (if neg then 0 else inf) ∧ exp2Enc f r .nan = nan ∧
      log2Enc f r (.fin neg 0 e) = sign true + inf ∧ log2Enc f r (.inf neg) = (if neg then nan else inf) ∧ log2Enc f r .nan = nan ∧
      (∀ m, 0 < m → frsqEnc f r (.fin true m e) = nan ∧ log2Enc f r (.fin true m e) = nan) ∧
      (∀ m ≤ 4096, exp2Enc f r (.fin neg m 0) = fenc f r (.fin false 1 (if neg then -(m : Int) else m))) ∧
      log2Enc f r (.fin false 1 e) = fenc f r (.fin (decide (e < 0)) e.natAbs 0))) ∧
  (∀ (r : Rnd) (a b : Bool) (m n : Nat) (e d : Int),
    vmul (.fin a m e) (.fin b n d) = .fin (a != b) (m * n) (e + d) ∧
    (∃ (c : Bool) (k : Nat) (l : Int), vadd r (.fin a m e) (.fin b n d) = .fin c k l ∧ (k ≠ 0 → l = min e d) ∧
      let v : Int := (if a then -(m : Int) else m) * 2 ^ (e - min e d).toNat + (if b then -(n : Int) else n) * 2 ^ (d - min e d).toNat
      (if c then -(k : Int) else k) = v ∧ (v = 0 → c = if m = 0 ∧ n = 0 ∧ a = b then a else decide (r = .rdn))) ∧
    vadd r (.inf a) (.inf b) = (if a = b then .inf a else .nan) ∧ vadd r (.inf a) (.fin b n d) = .inf a ∧
    vadd r (.fin b n d) (.inf a) = .inf a ∧ vmul (.inf a) (.inf b) = .inf (a != b) ∧
    vmul (.inf a) (.fin b n d) = (if n = 0 then .nan else .inf (a != b)) ∧
    vmul (.fin b n d) (.inf a) = (if n = 0 then .nan else .inf (b != a)) ∧
    ∀ x, vadd r .nan x = .nan ∧ vadd r x .nan = .nan ∧ vmul .nan x = .nan ∧ vmul x .nan = .nan) ∧
  (∀ (r : Rnd) (neg : Bool) (p q : Nat), 0 < q →
    let k := roundDiv r neg p q
    let up := (r = .rup ∧ neg = false) ∨ (r = .rdn ∧ neg = true)
    (r = .rne → 2 * (k * q) ≤ 2 * p + q ∧ 2 * p ≤ 2 * (k * q) + q ∧ (2 * (k * q) = 2 * p + q ∨ 2 * p = 2 * (k * q) + q → k % 2 = 0)) ∧
    (up → p ≤ k * q ∧ k * q < p + q) ∧ (r ≠ .rne → ¬up → k * q ≤ p ∧ p < k * q + q))

/-- The lane words: VPERM, VBCAST, VSEL, VEXT, VINS and VSHUF move lanes, and VRED leaves the sum, the maximum or the
minimum of all lanes in lane 0 and zero in the others (R305).  That VSEL reads its mask as raw bits, so that minus zero of a float
type counts as not zero, is the model's choice (log 42). -/
def Obligations.ElementLanes : Prop :=
  ∀ (s : State) (e : EWord),
    let ty := e.ty.toNat
    let w := tyWidth ty
    let n := 256 / w
    let a := fun (f : Firing) l => lane (f.pay .a) w l
    let b := fun (f : Firing) l => lane (f.pay .b) w l
    let k := e.x.toNat % 256
    givesLanes (.vperm e) s 0x41 e w false (fun f l => a f (b f l % n)) ∧
    givesLanes (.vbcast e) s 0x42 e w false (fun f _ => a f k) ∧
    givesLanes (.vsel e) s 0x43 e w false (fun f l => if lane (f.pay .c) w l ≠ 0 then a f l else b f l) ∧
    givesLanes (.vext e) s 0x44 e w false (fun f l => if l + k < n then a f (l + k) else b f (l + k - n)) ∧
    givesLanes (.vins e) s 0x45 e w false (fun f l => if l = k then b f 0 else a f l) ∧
    givesLanes (.vshuf e) s 0x46 e w false (fun f l =>
      match e.x.toNat % 4 with
      | 0 => if l % 2 = 0 then a f (l / 2) else b f (l / 2)
      | 1 => if l % 2 = 0 then a f (l / 2 + n / 2) else b f (l / 2 + n / 2)
      | 2 => if l < n / 2 then a f (2 * l) else b f (2 * (l - n / 2))
      | _ => if l < n / 2 then a f (2 * l + 1) else b f (2 * (l - n / 2) + 1)) ∧
    (fires (.vred e) s 0x40 e fun f t => ∃ v : Payload, (∀ l, 0 < l → l < n → lane v w l = 0) ∧
      endsWith (ensureInstance s f) f (both (f.token v)) t ∧
      (let xs := (List.range n).map fun l => intLane ty (f.pay .a) l
       ty < 8 →
        (e.mod.toNat / 4 = 0 → lane v w 0 = wrapInt w xs.sum) ∧
        (e.mod.toNat / 4 = 1 → ∃ x ∈ xs, (∀ y ∈ xs, y ≤ x) ∧ lane v w 0 = wrapInt w x) ∧
        (e.mod.toNat / 4 = 2 → ∃ x ∈ xs, (∀ y ∈ xs, x ≤ y) ∧ lane v w 0 = wrapInt w x)) ∧
      (8 ≤ ty → lane v w 0 = reduceFloat (fmtOfTy ty) (rndOf e) (e.mod.toNat / 4)
        ((List.range n).map fun l => fdec (fmtOfTy ty) (a f l)) % 2 ^ w))

/-- The dataflow words: STEER and STEERC send a to the output that b names with the decision pushed on the path, STEERC
a cancel token to the other, and ends to both; MERGE pops it, holds the EOS of one side for that of the other, absorbs
CANCEL, and raises SMISM for a token of the wrong side; GATE passes a where b holds and otherwise nothing or a cancel
token; SYNC and DUP pass a; CONST gives its immediate in every lane or a hold register; SINK emits nothing; TAGGET gives
the tag and TAGSET replaces PATH or SEQ; BLKX leaves its result with its instance; NOP never fires; and TRAPE raises USER
or passes a (R205, R206, R208, R209, R297, R307, R308, R310 to R315, R328, R329).  That a token of any kind on MERGE's wrong
side, CANCEL and EEOS among them, raises SMISM and is taken while the other operand stays is the model's choice (log 133); an
EEOS of the gate is passed on beside it (R209, R297).

WADV gives its token the ITER that is mapped for its iteration, or a fresh one that takes a place of the loop's
window and of the pool, and waits where there is none; without an entry of its loop it raises TAGX; and a WADV that waits
fires when it is granted, in its turn (R197, R211, R212, R309). -/
def Obligations.Dataflow : Prop :=
  (∀ (s : State) (e : EWord),
     let s1 := ensureInstance s
     let steered := fun (f : Firing) (k : Kind) (p : Payload) (d : Nat) =>
       { key := { f.key with path := BitVec.ofNat 8 (2 * f.key.path.toNat + d) }, seq := f.seq, kind := k, payload := p : Token }
     let d := fun (f : Firing) => (f.pay .b).toNat % 2
     let passes := fun (i : Instr) (op : Nat) (out : Firing → List (Nat × Token)) =>
       fires i s op e fun f t => endsWith (s1 f) f (out f) t
     let judged := fun (f : Firing) (m : Mode) => if m = .mixed then raiseFault (s1 f) f (fabCode 0x25) else s1 f
     let steersEnds := fun (i : Instr) (op : Nat) =>
       (firingAt s s.site op e = none → exec i s = .next s) ∧
       ∀ f, firingAt s s.site op e = some f →
         (modeOf f.heads = .quiet → exec i s = .next (endFiring (s1 f) f .quiet [])) ∧
         ∀ x ∈ [(Mode.cancel, Kind.cancel), (.ends, .eos), (.eeos, .eeos), (.mixed, .eeos)], modeOf f.heads = x.1 →
           exec i s = .next (endFiring (judged f x.1) f x.1 [(0, steered f x.2 0 0), (1, steered f x.2 0 1)])
     passes (.steer e) 0x50 (fun f => [(d f, steered f .data (f.pay .a) (d f))]) ∧ steersEnds (.steer e) 0x50 ∧
     passes (.steerc e) 0x51
       (fun f => [(d f, steered f .data (f.pay .a) (d f)), (1 - d f, steered f .cancel 0 (1 - d f))]) ∧
     steersEnds (.steerc e) 0x51 ∧
     (firingAt s s.site 0x52 e = none → exec (.merge e) s = .next s) ∧
     (∀ f0, firingAt s s.site 0x52 e = some f0 →
       let f := mergeFiring f0
       let popped := fun (k : Key) => { k with path := BitVec.ofNat 8 (k.path.toNat / 2) }
       let out := fun (k : Kind) (p : Payload) => both { key := popped f.key, seq := f.seq, kind := k, payload := p }
       let ends := fun (s2 : State) (m : Mode) (outs : List (Nat × Token)) => exec (.merge e) s = .next (endFiring s2 f m outs)
       let astray := ∃ h, mergeHead f = some h ∧ ¬(h.opd = .b ↔ f.key.path.toNat % 2 = 1)
       let gateEnds := ∃ h ∈ f.heads, h.opd = .g ∧ h.tok.kind = .eeos
       (astray → gateEnds → ends (raiseFault (s1 f) f (fabCode 0x25)) .eeos (out .eeos 0)) ∧
       (astray → ¬gateEnds → ends (raiseFault (s1 f) f (fabCode 0x25)) .fire []) ∧
       (¬astray →
         (modeOf f.heads = .quiet → ends (s1 f) .quiet []) ∧
         (modeOf f.heads = .cancel → ends (s1 f) .cancel []) ∧
         (modeOf f.heads = .eeos → ends (s1 f) .eeos (out .eeos 0)) ∧
         (modeOf f.heads = .mixed → ends (raiseFault (s1 f) f (fabCode 0x25)) .mixed (out .eeos 0)) ∧
         (∀ h, mergeHead f = some h → modeOf f.heads = .fire → ends (s1 f) .fire (out .data h.tok.payload)) ∧
         (∀ h, mergeHead f = some h → modeOf f.heads = .ends →
           let other := fun (x : Nat × Opd × Token) =>
             x.1 == f.slot && x.2.1 == (if h.opd = .a then .b else .a) && popped x.2.2.key == popped f.key
           (f.n.ends.find? other = none →
             ends (setNode (s1 f) f.n.ref fun n => { n with ends := n.ends ++ [(f.slot, h.opd, h.tok)] }) .ends []) ∧
           (∀ x, f.n.ends.find? other = some x →
             ends (setNode (s1 f) f.n.ref fun n => { n with ends := n.ends.erase x }) .ends (out .eos 0))))) ∧
     passes (.gate e) 0x54
       (fun f => if d f = 1 then both (f.token (f.pay .a)) else if e.mod.toNat % 2 = 1 then both { f.token 0 with kind := .cancel } else []) ∧
     passes (.sync e) 0x55 (fun f => both (f.token (f.pay .a))) ∧
     passes (.dup e) 0x56 (fun f => both (f.token (f.pay .a))) ∧
     (e.mod.getLsbD 3 = true → passes (.const e) 0x57 (fun f => both (f.token ((f.n.holds[e.x.toNat % 8]?).getD 0)))) ∧
     (e.mod.getLsbD 3 = false → givesLanes (.const e) s 0x57 e (tyWidth e.ty.toNat) false (fun _ _ => immLane e.ty.toNat e.x)) ∧
     (firingAt s s.site 0x58 e = none → exec (.sink e) s = .next s) ∧
     (∀ f, firingAt s s.site 0x58 e = some f → exec (.sink e) s =
       .next (endFiring (judged f (modeOf f.heads)) f (modeOf f.heads) [])) ∧
     passes (.tagget e) 0x59 (fun f => both (f.token (BitVec.ofNat 256 (((f.tok .a).map tagNat).getD 0)))) ∧
     passes (.tagset e) 0x5A (fun f =>
       let t := f.token (f.pay .a)
       both (match e.mod.toNat % 4 with
         | 0 => { t with key := { t.key with path := (f.pay .b).extractLsb' 12 8 } }
         | 1 => { t with key := { t.key with path := e.x.extractLsb' 0 8 } }
         | _ => { t with seq := e.x.extractLsb' 0 8 })) ∧
     (fires (.blkx e) s 0x5B e fun f t => endsWith (updInstance (s1 f) f.n.ref f.key fun i =>
       { i with result := i.result ++ [(f.n.ref, f.slot, f.token (f.pay .a))] }) f [] t) ∧
     exec .nop s = .next s ∧
     (fires (.trape e) s 0xF1 e fun f t =>
       if e.mod.toNat % 2 = 1 ∨ (f.pay .a).toNat % 2 = 1
       then t = endFault (s1 f) f { code := 0x29, cause := 0, aux := e.x.toNat, addr := 0 }
       else endsWith (s1 f) f (both (f.token (f.pay .a))) t)) ∧
  (∀ (s : State) (e : EWord),
     (firingAt s s.site 0x53 e = none → exec (.wadv e) s = .next s) ∧
     (∀ f, firingAt s s.site 0x53 e = some f →
       let s1 := ensureInstance s f
       let m := modeOf f.heads
       let plan := wavePlan f.g (e.mod.toNat % 4) e.x f.key.iter
       let out := fun (k : Kind) (p : Payload) (i : BitVec 16) =>
         both { f.token p with kind := k, key := { f.key with iter := i } }
       let ends := fun (s2 : State) (outs : List (Nat × Token)) => exec (.wadv e) s = .next (endFiring s2 f m outs)
       let bad := raiseFault s1 f (fabCode 0x25)
       let mixed := fun (outs : List (Nat × Token)) => exec (.wadv e) s = .next (endFiring bad f .mixed outs)
       (m = .quiet → ends s1 []) ∧
       (m = .fire → plan = .tagx → ends (raiseFault s1 f (fabCode 0x26)) []) ∧
       (∀ i, plan = .mapped i →
         (m = .fire → ends s1 (out .data (f.pay .a) i)) ∧ (m = .cancel → ends s1 (out .cancel 0 i)) ∧
         (m = .ends → ends s1 (out .eos 0 i)) ∧ (m = .eeos → ends s1 (out .eeos 0 i)) ∧ (m = .mixed → mixed (out .eeos 0 i))) ∧
       ((∀ i, plan ≠ .mapped i) →
         (m = .cancel → ends s1 []) ∧ (m = .ends → ends s1 []) ∧ (m = .eeos → ends s1 (out .eeos 0 f.key.iter)) ∧
         (m = .mixed → mixed (out .eeos 0 f.key.iter))) ∧
       (∀ p o, m = .fire → plan = .fresh p o →
         (grantFor f.g e.x p o = none → exec (.wadv e) s = .next s) ∧
         (∀ x, grantFor f.g e.x p o = some x →
           x.loop = e.x ∧ x.parent = p ∧ x.ordinal = o ∧ (∀ y ∈ f.g.pool, y.loop = e.x → y.pos ≠ x.pos) ∧
           ends (allocate s1 f.g x) (out .data (f.pay .a) x.iter)))) ∧
     (∀ (n : Node) (site : Site), nodeOf s site.node = some n →
       (n.opAt site.slot = 0x53 → nextSite s site.node = some site →
         ∃ t, exec (.wadv (eWord (n.word site.slot))) { s with site := site } = .next t ∧
           exec (.wadvGrant site.node site.slot site.key) s = .next { t with site := s.site }) ∧
       (¬(n.opAt site.slot = 0x53 ∧ nextSite s site.node = some site) →
         exec (.wadvGrant site.node site.slot site.key) s = .next s)))

/-- The memory words: each place that LDE, LDX, STE and STX name is translated, and a load admitted and performed, one
after another, so that the word waits where one must wait and ends in the fault of the lowest address where one faults;
a load then gives what it has read, in an array with nothing held before it the bytes there, and a store holds its
bytes for the commit of its instance, or with no block releases them, and passes its value (R64, R112, R166, R214, R316
to R319, R322, R389).

AMOE, FENCEE and the words with .sc order act themselves: they give the value logged before a rewind again; an AMOE or a
word that is not aligned is MISAL; a word waits while one of its slot is under way, for its page, its ports and the rows
of instances that commit before its own; with .sc it takes a place in the ring in wave order; and else it is performed, an AMOE in an array
writing what R129 says, with the effects of its order, its value is logged, and its output leaves (R129, R165, R167
to R170, R320, R321, R397).  In an instance with its exception bit set no word reaches memory (R215).  The model's choices: what
such a firing emits, 0 for a load, an AMOE and a word with .sc, and its value for STE and STX (log 37); and what words with
.sc and AMOE wait for and see (log 135). -/
def Obligations.ElementMemory : Prop :=
  ∀ (s : State) (e : EWord),
    let rlx := e.x.toNat / 32 % 8
    let n := 2 ^ (e.mod.toNat % 8)
    let w := tyWidth e.ty.toNat
    let s1 := ensureInstance s
    let clear := fun (f : Firing) => excepted (s1 f) f = false
    let waits := fun (s2 t : State) => t = { s2 with instances := s.instances }
    let reaches := fun (f : Firing) (t : State) (k : Nat) (write : Bool) (vas : List Nat) (P : State → List Reached → Prop) =>
      clear f → ∀ s2, (reachLanes f k write (s1 f) vas = (s2, none) → waits s2 t) ∧
        ∀ xs, reachLanes f k write (s1 f) vas = (s2, some xs) →
          (∀ x, lowestReached xs = some x → t = endFault s2 f x.fab) ∧ (lowestReached xs = none → P s2 xs)
    let stores := fun (f : Firing) (t s2 : State) (xs : List (Nat × List Byte)) (rs : List Reached) (p : Payload) =>
      let hs := (xs.zip rs).map fun x => f.held x.1.1 x.2.pieces x.1.2
      (hasBlock s2 f.n.ref = true → endsWith (hs.foldl (fun s h => holdStore s f h) s2) f (both (f.token p)) t) ∧
      (hasBlock s2 f.n.ref = false → endsWith { s2 with instances := s2.instances ++
        [{ newInstance { node := f.n.ref, key := f.key } f.g.handle false with exited := true, stores := hs, released := true }] }
        f (both (f.token p)) t)
    let direct := fun (f : Firing) (t : State) (k : AccKind) (n : Nat) (write atomic : Bool) (data : BitVec 256) (cmp : Word)
        (out : Nat → Payload) (also : State → State) =>
      let log := fun (s2 : State) (v : Payload) => if rlx = 4 ∨ atomic = true then logValue s2 f v else s2
      let done := fun (s2 : State) (v : Payload) => endsWith (also s2) f (both (f.token v)) t
      (¬clear f → done (s1 f) 0) ∧
      (clear f →
        (∀ v, (rlx = 4 ∨ atomic = true) → loggedValue (s1 f) f = some v → done (logValue (s1 f) f v) v) ∧
        (((rlx = 4 ∨ atomic = true) → loggedValue (s1 f) f = none) →
          (n ≠ 0 → f.va % n ≠ 0 → t = endFault (s1 f) f { code := 0x22, cause := 0xF3, aux := 0, addr := f.va }) ∧
          (n = 0 ∨ f.va % n = 0 →
            (scPending (s1 f) f.n.ref f.slot = true ∨ (rlx = 4 ∧ waveFirst f.g f.key.iter = false) → t = s) ∧
            (scPending (s1 f) f.n.ref f.slot = false → (rlx = 4 → waveFirst f.g f.key.iter = true) → ∀ s2,
              let tr := if n = 0 then (s1 f, Trans.ok []) else f.translate (s1 f) f.va n write atomic
              (∀ x, tr = (s2, .fault x) → t = endFault s2 f x.fab) ∧ (tr = (s2, .wait) → waits s2 t) ∧
              (∀ ps, tr = (s2, .ok ps) →
                (behindRows s2 f ps = true → waits s2 t) ∧
                (behindRows s2 f ps = false →
                  ∀ s3 ok, admitLines s2 (holderAt f.n.ref) f.g.ctx f.g.part f.n.ref.die f.va ps = (s3, ok) →
                    let a := f.access s3 k n f.va ps data cmp
                    (ok = false → waits s3 t) ∧
                    (ok = true → rlx = 4 → waits { s3 with accesses := s3.accesses ++ [a], nextAcc := s3.nextAcc + 1 } t) ∧
                    (ok = true → rlx ≠ 4 →
                      let r := performElem (noteTouch s3 f (rowQuads s3 f ps) false) f a
                      done (log r.1 (out r.2)) (out r.2))))))))
    (fires (.lde e) s 0x70 e fun f t =>
      (rlx = 4 → direct f t (.load false) n false false 0 0 (fun v => BitVec.ofNat 256 v) id) ∧
      (rlx ≠ 4 → (¬clear f → endsWith (s1 f) f (both (f.token 0)) t) ∧
        reaches f t n false [f.va] (fun s2 xs =>
          endsWith s2 f (both (f.token (BitVec.ofNat 256 ((xs.head?.map Reached.value).getD 0)))) t) ∧
        (∀ s2 p q, clear f → hasBlock s f.n.ref = false → rlx = 0 → (∀ x ∈ s.partials, x.site ≠ f.site) →
          f.translate (s1 f) f.va n false false = (s2, .ok [p]) → behindRows s2 f [p] = false → s2.piece = none →
          s2.portReqs.find? (fun r => r.holder == holderAt f.n.ref && r.va == f.va) = some q → q.unpaid = [] →
          p.n = n → inArrays p.pa = true → inArrays (p.pa + (n - 1)) = true →
          ∃ s3, { s3 with partials := s2.partials, portReqs := s2.portReqs, tick := s2.tick } = s2 ∧ s3.portReqs = s2.portReqs.erase q ∧
            endsWith s3 f (both (f.token (BitVec.ofNat 256
            (ofBytes ((List.range n).map fun k => (memGet s2.mem (p.pa + k)).getD 0))))) t))) ∧
    (fires (.ste e) s 0x71 e fun f t =>
      (rlx = 4 → direct f t .store n true false (f.pay .b) 0 (fun _ => f.pay .b) id) ∧
      (rlx ≠ 4 → (¬clear f → endsWith (s1 f) f (both (f.token (f.pay .b))) t) ∧
        reaches f t n true [f.va] (fun s2 rs => stores f t s2 [(f.va, toBytes n (f.pay .b).toNat)] rs (f.pay .b)))) ∧
    (fires (.ldx e) s 0x72 e fun f t => (¬clear f → endsWith (s1 f) f (both (f.token 0)) t) ∧
      reaches f t (w / 8) false (laneVas f) (fun s2 xs =>
        endsWith s2 f (both (f.token (BitVec.ofNat 256 (ofLanes w (xs.map Reached.value))))) t)) ∧
    (fires (.stx e) s 0x73 e fun f t => (¬clear f → endsWith (s1 f) f (both (f.token (f.pay .c))) t) ∧
      reaches f t (w / 8) true (laneVas f) (fun s2 rs => stores f t s2
        ((laneVas f).zip ((List.range (256 / w)).map fun l => toBytes (w / 8) (lane (f.pay .c) w l))) rs (f.pay .c))) ∧
    (fires (.amoe e) s 0x74 e fun f t =>
      let op := e.mod.toNat % 8
      direct f t (.amo op) 8 true true (f.pay .b) ((f.pay .c).setWidth 64) (fun v => BitVec.ofNat 256 v) id ∧
      (∀ s2 p, hasBlock s2 f.n.ref = false → rlx = 0 → p.n = 8 → inArrays p.pa = true → inArrays (p.pa + 7) = true →
        let r := performElem s2 f (f.access s2 (.amo op) 8 f.va [p] (f.pay .b) ((f.pay .c).setWidth 64))
        let old := ofBytes ((List.range 8).map fun k => (memGet s2.mem (p.pa + k)).getD 0)
        let new := (amoNew op (BitVec.ofNat 64 old) ((f.pay .b).setWidth 64) ((f.pay .c).setWidth 64)).elim old BitVec.toNat
        r.2 = old ∧ ∀ x, (memGet r.1.mem x).getD 0 =
          if p.pa ≤ x ∧ x < p.pa + 8 then BitVec.ofNat 8 (new / 256 ^ (x - p.pa)) else (memGet s2.mem x).getD 0)) ∧
    (fires (.fencee e) s 0x75 e fun f t => direct f t .fence 0 false false 0 0 (fun _ => f.pay .a)
      fun s2 => if hasBlock s2 f.n.ref then updInstance s2 f.n.ref f.key fun i =>
        { i with stores := i.stores ++ [f.held 0 [] []] } else s2)

/-- The converter words: CVT converts every lane, packed or a part of them; CVTS encodes 32 values into codes with
their bound and block exponent, or decodes a half; QNT encodes and reports the greatest magnitude, its amax cell taking
the maximum where there is one, waiting for its page with the entry that it has read, and a fault of the cell climbs and
contains nothing; and an entry that is no tapered tensor is TIDX (R244, R324 to R327).

A lane converts by the table of R228.  The codes of T6 and T8 stand for the values of their tables (R231 to R234), and a
value that is divided by a scale becomes the nearest code that is not zero, the even one of two as near, with zero, NaV and
the saturation of an infinity (R235).  A block exponent is the least with which every value fits (R241); a decoded lane is
the exact product rounded once (R326); and the bound that leaves an encoding is the incoming bound and the greater of half
the gap at the greatest output and the greatest clipping error, each rounded upward (R252).  That the bound is +∞ where an
output is NaN is the model's choice (log 34). -/
def Obligations.Converters : Prop :=
  (∀ (s : State) (e : EWord),
    let src := e.ty.toNat
    let dst := e.x.toNat % 16
    let ws := tyWidth src
    let wd := tyWidth dst
    let conv := fun (f : Firing) (l : Nat) => convLane src dst (rndOf e) (e.mod.getLsbD 2) (lane (f.pay .a) ws l)
    let s1 := ensureInstance s
    (ws < wd → givesLanes (.cvt e) s 0x80 e wd false (fun f l => conv f (e.x.toNat / 16 % 4 * (256 / wd) + l))) ∧
    (wd ≤ ws → givesLanes (.cvt e) s 0x80 e wd false (fun f l => if l < 256 / ws then conv f l else 0)) ∧
    (fires (.cvts e) s 0x81 e fun f t =>
      (converterTensor (s1 f) f = none → t = endFault (s1 f) f (fabCode 0x27)) ∧
      ∀ ten, converterTensor (s1 f) f = some ten →
        (e.mod.getLsbD 2 = true →
          let b := convBlock ten (halfValues f)
          let eps := if e.mod.getLsbD 3 then boundIn ((f.pay .c).toNat % 2 ^ 32) else 0
          endsWith (s1 f) f [(0, f.token (BitVec.ofNat 256 (packBits (codeBits ten) b.codes))),
            (1, f.token (sideToken (boundOut (.fin false 1 0) eps [b]) b.exp))] t) ∧
        (e.mod.getLsbD 2 = false →
          endsWith (s1 f) f [(0, f.token (decodeHalf ten f).1), (1, f.token (decodeHalf ten f).2)] t)) ∧
    (fires (.qnt e) s 0x82 e fun f t =>
      (converterTensor (s1 f) f = none → t = endFault (s1 f) f (fabCode 0x27)) ∧
      ∀ ten, converterTensor (s1 f) f = some ten →
        let b := convBlock ten (halfValues f)
        let m := quantMag (halfValues f)
        let outs := [(0, f.token (BitVec.ofNat 256 (packBits (codeBits ten) b.codes))), (1, f.token (sideToken m b.exp))]
        (tAmax ten = 0 ∨ excepted (s1 f) f = true → endsWith (s1 f) f outs t) ∧
        (tAmax ten ≠ 0 → excepted (s1 f) f = false → ∀ s2,
          let tr := translate (s1 f) (holderAt f.n.ref) f.g.ctx f.g.part f.n.ref.die (tAmax ten) 8 true true false
          (tr = (s2, .wait) → t = { keepEntry f (e.x.toNat % 1024) s2 with instances := s.instances }) ∧
          (∀ x, tr = (s2, .fault x) →
            endsWith (raiseRec s2 f.g.gid f.n.ref f.key (recOf f.n.ref f.slot f.key x.fab) false) f outs t) ∧
          (∀ ps, tr = (s2, .ok ps) →
            let r := loadParts s2 f.n.ref.die f.g.part f.g.ctx none true ps
            endsWith (storeParts r.1 f.n.ref.die f.g.part f.g.ctx true ps (toBytes 8 (max (ofBytes r.2) m))) f outs t)))) ∧
  (∀ (src dst : Nat) (r : Rnd) (sat : Bool) (x : Nat), src ≤ 10 → dst ≤ 10 →
    let wd := tyWidth dst
    let lo : Int := if dst < 4 then -2 ^ (wd - 1) else 0
    let hi : Int := if dst < 4 then 2 ^ (wd - 1) - 1 else 2 ^ wd - 1
    let clamp := fun (v : Int) => (max lo (min hi v) % 2 ^ wd).toNat
    let v : Int := if src < 4 then sxInt (tyWidth src) x else x
    (src < 8 → dst < 8 → convLane src dst r sat x = if sat then clamp v else (v % 2 ^ wd).toNat) ∧
    (src < 8 → 8 ≤ dst → convLane src dst r sat x = fenc (fmtOfTy dst) r (.fin (decide (v < 0)) v.natAbs 0)) ∧
    (8 ≤ src → 8 ≤ dst → convLane src dst r sat x = fenc (fmtOfTy dst) r (fdec (fmtOfTy src) x)) ∧
    (8 ≤ src → dst < 8 → convLane src dst r sat x =
      match fdec (fmtOfTy src) x with
      | .nan => 0
      | .inf neg => clamp (if neg then lo else hi)
      | .fin neg m e =>
        let k : Int := roundDiv r neg (if 0 ≤ e then m * 2 ^ e.toNat else m) (if 0 ≤ e then 1 else 2 ^ (-e).toNat)
        clamp (if neg then -k else k))) ∧
  (∀ (neg : Bool) (c : Nat),
    (c < 32 → taperDec t6 ((if neg then 32 else 0) + c) =
      if c = 0 then (if neg then .nan else .fin false 0 0) else .fin neg (taperMag 6 0 c) (-12)) ∧
    (c < 128 → taperDec t8 ((if neg then 128 else 0) + c) =
      if c = 0 then (if neg then .nan else .fin false 0 0) else .fin neg (taperMag 8 1 c) (-12))) ∧
  (List.range 32).map (taperMag 6 0) = [0, 1, 2, 3, 4, 5, 6, 7, 8, 9, 10, 11, 12, 13, 14, 15, 16, 18, 20, 22, 24, 26, 28, 30,
    32, 40, 48, 56, 64, 96, 128, 256].map (· * 256) ∧
  taperMag 8 1 0x01 = 1 ∧ taperMag 8 1 0x7E = 2 ^ 22 ∧ taperMag 8 1 0x7F = 2 ^ 24 ∧
  (∀ x ∈ [(0x02, 0, 2), (0x04, 1, 4), (0x08, 2, 6), (0x10, 3, 8), (0x20, 4, 10), (0x40, 4, 12), (0x60, 3, 14), (0x70, 2, 16),
      (0x78, 1, 18), (0x7C, 0, 20)], ∀ ex < 2, ∀ fr < 2 ^ x.2.1,
    taperMag 8 1 (x.1 + ex * 2 ^ x.2.1 + fr) * 2 ^ x.2.1 = (2 ^ x.2.1 + fr) * 2 ^ (x.2.2 + ex)) ∧
  (∀ (k : Taper), k = t6 ∨ k = t8 →
    let sign := fun (neg : Bool) => if neg then 2 ^ (k.n - 1) else 0
    let top := 2 ^ (k.n - 1) - 1
    (∀ (a b : Bool) (m n : Nat) (e d : Int), 0 < n →
      (m = 0 → taperQuot k (.fin a m e) (.fin b n d) = 0) ∧
      (0 < m → ∃ c, 0 < c ∧ c ≤ top ∧ taperQuot k (.fin a m e) (.fin b n d) = sign (a != b) + c ∧
        let lo := min (e - d + 12) 0
        let far := fun (j : Nat) =>
          ((taperMag k.n k.es j * n * 2 ^ (-lo).toNat : Nat) - (m * 2 ^ (e - d + 12 - lo).toNat : Nat) : Int).natAbs
        ∀ j, 0 < j → j ≤ top → far c ≤ far j ∧ (j ≠ c → far c = far j → c % 2 = 0))) ∧
    (∀ (a : Bool) (y : FV), taperQuot k .nan y = sign true ∧ taperQuot k (.inf a) y = sign a + top)) ∧
  (∀ (ten : Tensor) (xs : List FV), tFmt ten = 12 ∨ tFmt ten = 13 →
    let k := if tFmt ten = 13 then t6 else t8
    let bad := xs.any fun x => x == .nan || x == .inf false || x == .inf true
    let b := convBlock ten xs
    let unit := vmul (tScale ten) (.fin false 1 b.exp)
    let out := fun (c : Nat) => vmul (taperDec k c) unit
    let size := fun (c : Nat) => taperMag k.n k.es (c % 2 ^ (k.n - 1))
    let least := fun (x : FV) => vcmp x.abs (vmul (taperDec k 1) unit) = -1 ∧ x.isZero = false
    let most := fun (x : FV) => vcmp x.abs (vmul (taperDec k (2 ^ (k.n - 1) - 1)) unit) = 1
    (tSmode ten ≠ 2 → b.exp = 0) ∧ (bad = true → b.exp = 0) ∧ ((∀ x ∈ xs, x.isZero = true) → b.exp = 0) ∧
    (∀ n d, tSmode ten = 2 → bad = false → (∃ x ∈ xs, x.isZero = false) → tScale ten = .fin false n d → 0 < n →
      let fits := fun (ex : Int) => ∀ x ∈ xs, vcmp x.abs (.fin false n (d + ex + (if tFmt ten = 13 then 4 else 12))) ≠ 1
      b.exp ≤ 127 ∧ -128 ≤ b.exp ∧ (b.exp < 127 → fits b.exp) ∧ (-128 < b.exp → ¬fits (b.exp - 1))) ∧
    b.codes = xs.map (fun x => taperQuot k x unit) ∧
    (∀ n d eps, tScale ten = .fin false n d → 0 < n → xs ≠ [] → eps ≤ fp32.inf →
      (2 ^ (k.n - 1) ∈ b.codes → boundOut (.fin false 1 0) eps [b] = fp32.inf) ∧
      (2 ^ (k.n - 1) ∉ b.codes → ∃ c ∈ b.codes, (∀ y ∈ b.codes, size y ≤ size c) ∧
        let g := if size c = size (2 ^ (k.n - 1) - 1) then size (2 ^ (k.n - 1) - 1) - size (2 ^ (k.n - 1) - 2)
          else taperMag k.n k.es (c % 2 ^ (k.n - 1) + 1) - size c
        ∃ q : FV, (∀ x ∈ xs, (∃ a, x = .inf a) ∨ least x ∨ most x → vcmp (vadd .rne (out (taperQuot k x unit)) x.negate).abs q ≠ 1) ∧
          (q.isZero = true ∨ ∃ x ∈ xs, ((∃ a, x = .inf a) ∨ least x ∨ most x) ∧
            q = (vadd .rne (out (taperQuot k x unit)) x.negate).abs) ∧
          boundOut (.fin false 1 0) eps [b] = fenc fp32 .rup (vadd .rup (fdec fp32 (fenc fp32 .rup (fdec fp32 eps)))
            (fdec fp32 (fenc fp32 .rup (vmax (vmul (.fin false g (-13)) unit) q))))))) ∧
  (∀ (ten : Tensor) (f : Firing), tFmt ten = 12 ∨ tFmt ten = 13 →
    let k := if tFmt ten = 13 then t6 else t8
    let ex : Int := if tSmode ten = 2 then sxInt 8 ((f.pay .b).toNat / 2 ^ 32 % 256) else 0
    ∀ j < 16, lane (decodeHalf ten f).1 16 j = fenc (fmtOfTy f.w.ty.toNat) (rndOf f.w) (vmul (taperDec k ((f.pay .a).toNat /
      2 ^ (k.n * ((if f.w.x.getLsbD 10 then 16 else 0) + j)) % 2 ^ k.n)) (vmul (tScale ten) (.fin false 1 ex))) % 2 ^ 16)

/-- The island commands: a command whose tokens are not there changes nothing, ends pass it as R208 and R209 say with no
tile changed, a closed gate takes its tokens alone, and the tokens of a dead key are taken.  TZERO and TLOAD open a tile
at the lowest free accumulator, with zeros or the loaded values and their bound, and wait where none is free; a key with
an open tile is SMISM; MMA adds one k-step to the tile of its key, in SEQ order; TBOUND gives its bound word and TSTORE
and TCVT hold the converted tile for commit once the tile has as many steps as the descriptor says, TSTORE freeing its
accumulator; a cancelled opening makes a cancelled tile, whose steps add nothing and whose store is a cancel token; a
descriptor that names no tile is TIDX, and a fault discards the tile; a command that waits keeps the tensor entries that it
has read (R244, R297, R336 to R346, R348).  That TBOUND of a cancelled tile gives its bound word is the model's choice
(log 44), and so is that a tile of a restored graph pins its lines again before a command acts on it (R349, log 138). -/
def Obligations.IslandCommands : Prop :=
  ∀ (s : State) (e : EWord),
    let word := fun (f : Firing) (k : Kind) (p : Payload) => both { key := f.key, seq := 0, kind := k, payload := p }
    (∀ x ∈ ([(.mma e, 0x90), (.tload e, 0x91), (.tstore e, 0x92), (.tzero e, 0x93), (.tbound e, 0x94), (.tcvt e, 0x95)] :
        List (Instr × Nat)),
      (islandAt s s.site x.2 e = none → exec x.1 s = .next s) ∧
      ∀ f, islandAt s s.site x.2 e = some f →
        let hs := headsOf f.n f.slot x.2 e f.key
        let g := { f with heads := hs }
        let all := hs.length = (slotWaits f.n f.slot x.2 e).length
        let dead := x.2 ∈ [0x90, 0x92, 0x94] ∧ f.n.dead.contains f.key = true ∧ keyTokens f ≠ []
        (dead → exec x.1 s = .next (endFiring s { f with heads := keyTokens f } .fire [])) ∧
        (¬dead →
          (modeOf hs = .eeos → exec x.1 s = .next (endFiring s g .eeos (word f .eeos 0))) ∧
          (all → modeOf hs = .ends → exec x.1 s = .next (endFiring s g .ends (word f .eos 0))) ∧
          (all → modeOf hs = .mixed → exec x.1 s =
            .next (endFiring (raiseExact s g (fabCode 0x25)) g .mixed (word f .eeos 0))) ∧
          (¬all → modeOf hs ≠ .eeos → x.2 ≠ 0x90 → exec x.1 s = .next s) ∧
          (all → modeOf hs = .quiet → x.2 ∈ [0x91, 0x93, 0x95] → exec x.1 s = .next (endFiring s g .quiet [])))) ∧
    (∀ (op : Nat) (f : Firing), islandAt s s.site op e = some f → ¬(f.n.dead.contains f.key = true ∧ keyTokens f ≠ []) ∨ op = 0x91 ∨
        op = 0x93 ∨ op = 0x95 →
      let hs := headsOf f.n f.slot op e f.key
      let g := { f with heads := hs }
      let m := modeOf hs
      let ready := hs.length = (slotWaits f.n f.slot op e).length ∧ (m = .fire ∨ m = .cancel)
      let a := g.pay .a
      let b := g.pay .b
      let ta := entryOf s g (dscTid a)
      let tb := entryOf s g (dscTid b)
      let names := fun (p : Payload) (count : Bool) (ten : Tensor) =>
        dscBad p count = false ∧ tileFormat ten = true ∧ namesTile ten (dscTile p) = true
      let gone := fun (i : Instr) (s2 : State) => exec i s = .next s2
      let opens := fun (i : Instr) (s2 : State) (tile : AccTile) (outs : List (Nat × Token)) =>
        gone i (endFiring (setNode s2 f.n.ref fun n => { n with tiles := n.tiles ++ [tile], dead := n.dead.erase f.key }) g m outs)
      let fresh := fun (k : Nat) (st : List (BitVec 64) × Nat) (src : Option (Payload × Tensor)) =>
        ({ id := g.opens, acc := k, key := f.key, a64 := f.w.mod.getLsbD 2, redone := false, cancelled := m == .cancel, n := 0
           bnd := BitVec.ofNat 32 st.2, vals := st.1, startBnd := BitVec.ofNat 32 st.2, source := src, ents := [], log := [] }
          : AccTile)
      (∀ x ∈ [(Instr.tload e, 0x91), (.tzero e, 0x93)], op = x.2 → ready →
        (∀ tile, tileOf f.n f.key = some tile → gone x.1 (endFiring (raiseExact s g (fabCode 0x25)) g .fire (word f .eeos 0))) ∧
        (tileOf f.n f.key = none →
          ((∀ k < 16, ∃ t ∈ f.n.tiles, t.acc = k) → gone x.1 s) ∧
          (∀ k < 16, (∀ t ∈ f.n.tiles, t.acc ≠ k) → (∀ j < k, ∃ t ∈ f.n.tiles, t.acc = j) →
            (m = .cancel → opens x.1 s (fresh k (List.replicate 1024 0, 0) none) (word f .cancel 0)) ∧
            (m = .fire → op = 0x93 → opens x.1 s (fresh k (List.replicate 1024 0, 0) none) (word f .data a)) ∧
            (m = .fire → op = 0x91 →
              (¬names a false ta → gone x.1 (islandFault s g (fabCode 0x27))) ∧
              (names a false ta → ∀ s2, let r := loadSource false g.opens g a ta s
                (r = (s2, .wait) → gone x.1 (keepEntry g (dscTid a) s2)) ∧ (∀ y, r = (s2, .fault y) → gone x.1 (islandFault s2 g y)) ∧
                (∀ o, r = (s2, .ok o) →
                  opens x.1 s2 (fresh k (startOf (e.mod.getLsbD 2) o.1 o.2) (some (a, ta))) (word f .data a))))))) ∧
      (op = 0x95 → ready →
        (m = .cancel → gone (.tcvt e) (endFiring s g m (word f .cancel 0))) ∧
        (m = .fire → ¬(names a false ta ∧ names b false tb) → gone (.tcvt e) (islandFault s g (fabCode 0x27))) ∧
        (m = .fire → names a false ta → names b false tb → ∀ s2,
          let r := fetchOperand false g.opens g 0 ta (dscTile a) (e.mod.getLsbD 3) s
          (r = (s2, .wait) → gone (.tcvt e) (keepEntry g (dscTid a) (keepEntry g (dscTid b) s2))) ∧ (∀ y, r = (s2, .fault y) → gone (.tcvt e) (islandFault s2 g y)) ∧
          (∀ o s3, r = (s2, .ok o) → let h := holdTile g g.opens tb (dscTile b) o.values o.eps (fun b => BitVec.ofNat 256 b) s2
            (h = (s3, .wait) → gone (.tcvt e) (keepEntry g (dscTid a) (keepEntry g (dscTid b) s3))) ∧ (∀ y, h = (s3, .fault y) → gone (.tcvt e) (islandFault s3 g y)) ∧
            (∀ s4, h = (s3, .ok s4) → gone (.tcvt e) (endFiring s4 g m []))))) ∧
      (∀ x ∈ [(Instr.mma e, 0x90), (.tstore e, 0x92), (.tbound e, 0x94)], op = x.2 →
        (op ≠ 0x90 → hs.length = (slotWaits f.n f.slot op e).length) → m ≠ .eeos →
          (hs.length = (slotWaits f.n f.slot op e).length → m ≠ .ends ∧ m ≠ .mixed) →
        (tileOf f.n f.key = none → gone x.1 s) ∧
        ∀ tile, tileOf f.n f.key = some tile →
          let h := if op = 0x90 then f else g
          let again := withFetch (match tile.source with
            | none => (s, .ok ())
            | some y => pinRead (loadSource true tile.id h y.1 y.2 s)) fun s _ => repinSteps h tile tile.log s
          (tile.repin = true → op ≠ 0x94 → ∀ s0, again = (s0, .wait) → gone x.1 s0) ∧
          ∀ s0 t0, ((tile.repin = false ∨ op = 0x94) ∧ s0 = s ∧ t0 = tile) ∨
              (tile.repin = true ∧ op ≠ 0x94 ∧ again.2 ≠ .wait ∧ t0 = { tile with repin := false } ∧ s0 = setTile again.1 h t0) →
            (op = 0x90 → (mmaHeads f t0.n = none → gone x.1 s0) ∧
              ∀ pair, mmaHeads f t0.n = some pair →
                let h := { f with heads := pair }
                let md := if t0.cancelled then .cancel else modeOf pair
                let k : KStep := { a := h.pay .a, b := h.pay .b, bp := e.mod.getLsbD 3, idle := md = .cancel || md = .quiet }
                let r := nextStep h k t0 s0
                (∀ s2, r = (s2, .wait) → gone x.1 (if k.idle then s2 else keepEntry h (dscTid k.a) (keepEntry h (dscTid k.b) s2))) ∧
                (∀ s2 y, r = (s2, .fault y) → gone x.1 (islandFault s2 h y)) ∧
                (∀ s2 t2, r = (s2, .ok t2) → t2.n = t0.n + 1 ∧ t2.key = t0.key ∧ t2.acc = t0.acc ∧ gone x.1 (endFiring
                  (setTile s2 h t2) h md (if md = .quiet then [] else if md = .cancel then word f .cancel 0 else word f .data (h.pay .a)))) ∧
                (t0.a64 = true ∨ t0.log.length < 256 →
                  (k.idle = true → r = (s0, .ok { t0 with n := t0.n + 1, log := if t0.a64 then t0.log else t0.log ++ [k] })) ∧
                  (k.idle = false →
                    let ea := tileEntry s0 h t0 (dscTid k.a)
                    let eb := tileEntry s0 h t0 (dscTid k.b)
                    let good := dscBad k.a false = false ∧ dscBad k.b false = false ∧ namesTile ea (dscTile k.a) = true ∧
                      namesTile eb (dscTile k.b) = true ∧ tFmt ea = tFmt eb ∧ tFmt ea ∈ [9, 12, 13]
                    (¬good → r.2 = .fault (fabCode 0x27)) ∧
                    (good → ∀ s2 s3 u v, fetchOperand false t0.id h 0 ea (dscTile k.a) k.bp s0 = (s2, .ok u) →
                      fetchOperand false t0.id h 1 eb (dscTile k.b) k.bp s2 = (s3, .ok v) →
                      ∃ t2, r = (s3, .ok t2) ∧ t2.vals = addStep (tTapered ea) t0.a64 u v t0.vals ∧
                        t2.bnd = BitVec.ofNat 32 (boundStep (tTapered ea) t0.a64 u v t2.vals t0.bnd.toNat))))) ∧
            (op ≠ 0x90 → m = .quiet → gone x.1 (endFiring s0 g m [])) ∧
            (op = 0x94 → ready →
              (m = .cancel → gone x.1 (endFiring s0 g m (word f .cancel 0))) ∧
              (m = .fire → t0.n ≠ dscCount a → gone x.1 s0) ∧
              (m = .fire → t0.n = dscCount a → gone x.1 (endFiring s0 g m (word f .data (boundWord t0))))) ∧
            (op = 0x92 → ready →
              (m = .cancel → gone x.1 (endFiring (discardTile s0 g t0) g m (word f .cancel 0))) ∧
              (m = .fire → t0.n ≠ dscCount a → gone x.1 s0) ∧
              (m = .fire → t0.n = dscCount a → t0.cancelled = true →
                gone x.1 (endFiring (unpinOf (freeTile s0 g) g t0.id) g .fire (word f .cancel 0))) ∧
              (m = .fire → t0.n = dscCount a → t0.cancelled = false →
                let d := entryOf s0 g (dscTid a)
                (¬names a true d → gone x.1 (islandFault s0 g (fabCode 0x27))) ∧
                let held := fun (t2 : AccTile) (s2 : State) =>
                  holdTile g t0.id d (dscTile a) (t2.vals.map fun v => fdec (accFmt t2.a64) v.toNat) t2.bnd.toNat (storeWord t2) s2
                (names a true d → ∀ s2, let r := testedTile g d t0 s0
                  (r = (s2, .wait) → gone x.1 (keepEntry g (dscTid a) s2)) ∧ (∀ y, r = (s2, .fault y) → gone x.1 (islandFault s2 g y)) ∧
                  (∀ t2 s3, r = (s2, .ok t2) → let q := held t2 s2
                    (q = (s3, .wait) → gone x.1 (keepEntry g (dscTid a) s3)) ∧ (∀ y, q = (s3, .fault y) → gone x.1 (islandFault s3 g y)) ∧
                    (∀ s4, q = (s3, .ok s4) → gone x.1 (endFiring (freeTile s4 g) g .fire []))))))))

/-- The comb words: in an instance with its exception bit set none reaches its array; a busy array is waited for; a wrong
mode or owner is AMODE with cause 0xF1.  Else CEVAL evaluates the ring's contexts in order, each with its own flops, and
moves the ring on: the eight LUTs of level A on the inputs, the eight of level B on inputs, level A and the flops before the
evaluation, and the outputs by the map, which are the entry's new flops; CSCHED loads a schedule; CSTATE reads the register
or writes its state half; CLOADCTX reads a row and writes it, at once or with the commit of its instance; and CSAVECTX, once
the instances that commit before its own and touch the quad have committed and the graph's released stores there are
performed, stores a row with its flops.  A payload or a ring with a bit set that must be zero is COMBX and a misaligned
address MISAL (R95, R96, R215, R350 to R352, R355 to R359).  That a word of an excepted instance emits payload 0 is the
model's choice (log 37), and that CSCHED loads all eight flops is another (log 43). -/
def Obligations.CombWords : Prop :=
  (∀ (s : State) (e : EWord) (f : Firing),
    let s1 := ensureInstance s f
    let r := combArray f.n.ref (e.x.toNat % 16)
    let a := arrayOf s1 r
    let p := f.pay .a
    let va := p.toNat % 2 ^ 64
    let c := p.toNat / 2 ^ 64
    let on := fun (op : Nat) => firingAt s s.site op e = some f ∧ modeOf f.heads = .fire
    let ready := fun (op : Nat) (modes : List ArrayMode) =>
      on op ∧ excepted s1 f = false ∧ a.busy = false ∧ a.mode ∈ modes ∧ a.owner = f.g.part
    let ends := fun (i : Instr) (s2 : State) (outs : List (Nat × Token)) => runsTo i s fun t => endsWith s2 f outs t
    let waits := fun (i : Instr) (s2 : State) => exec i s = .next { s2 with instances := s.instances }
    let faults := fun (i : Instr) (s2 : State) (x : FabFault) => exec i s = .next (endFault s2 f x)
    let combx := fabCode 0x28
    (∀ x ∈ ([(.ceval e, 0xA0, [.run]), (.csched e, 0xA1, [.load, .run]), (.cloadctx e, 0xA2, [.load, .run]),
        (.csavectx e, 0xA3, [.load, .run]), (.cstate e, 0xA4, [.cache, .scratch, .load, .run])] :
        List (Instr × Nat × List ArrayMode)), on x.2.1 →
      (excepted s1 f = true → ends x.1 s1 (both (f.token 0))) ∧
      (excepted s1 f = false → a.busy = true → waits x.1 s1) ∧
      (excepted s1 f = false → a.busy = false → a.mode ∉ x.2.2 ∨ a.owner ≠ f.g.part →
        faults x.1 s1 { code := 0x21, cause := 0xF1, aux := 0, addr := 0 })) ∧
    (ready 0xA0 [.run] →
      (ringBad s1 r a.sched = true → faults (.ceval e) s1 combx) ∧
      (ringBad s1 r a.sched = false →
        let ins := if e.mod.toNat % 2 = 1 then List.replicate (e.x.toNat / 16 % 16 + 1) (p.extractLsb' 0 16)
          else (List.range 16).map fun k => p.extractLsb' (16 * k) 16
        let v := evalAll s1 r a.sched ins
        v.2.length = ins.length ∧
        ends (.ceval e) (setArray s1 r fun a => { a with sched := v.1 }) (both (f.token (BitVec.ofNat 256 (ofLanes 16 v.2)))))) ∧
    (ready 0xA1 [.load, .run] →
      let x := (p.extractLsb' 0 67).setWidth 200
      (2 ^ 67 ≤ p.toNat ∨ ringBad s1 r x = true → faults (.csched e) s1 combx) ∧
      (p.toNat < 2 ^ 67 → ringBad s1 r x = false →
        ends (.csched e) (setArray s1 r fun a => { a with sched := loadFlops s1 r x }) (both (f.token p)))) ∧
    (ready 0xA4 [.cache, .scratch, .load, .run] →
      (e.mod.toNat % 2 = 0 → ends (.cstate e) s1 (both (f.token (a.sched.setWidth 256)))) ∧
      (e.mod.toNat % 2 = 1 → 2 ^ 128 ≤ p.toNat → faults (.cstate e) s1 combx) ∧
      (e.mod.toNat % 2 = 1 → p.toNat < 2 ^ 128 →
        ends (.cstate e) (setArray s1 r fun a =>
          { a with sched := BitVec.ofNat 200 (p.toNat * 2 ^ 72 + (arrayOf s1 r).sched.toNat % 2 ^ 72) }) (both (f.token p)))) ∧
    (∀ x ∈ ([(.cloadctx e, 0xA2), (.csavectx e, 0xA3)] : List (Instr × Nat)), ready x.2 [.load, .run] →
      (2 ^ 72 ≤ p.toNat → faults x.1 s1 combx) ∧
      (p.toNat < 2 ^ 72 → p.toNat % 8 ≠ 0 → faults x.1 s1 { code := 0x22, cause := 0xF3, aux := 0, addr := va })) ∧
    (ready 0xA2 [.load, .run] → p.toNat < 2 ^ 72 → p.toNat % 8 = 0 → ∀ s2,
      (combReach f va false s1 = (s2, none) → waits (.cloadctx e) s2) ∧
      (∀ x, combReach f va false s1 = (s2, some (.fault x)) → faults (.cloadctx e) s2 x.fab) ∧
      (∀ bs, combReach f va false s1 = (s2, some (.bytes bs)) →
        (hasBlock s2 f.n.ref = false → rowHeld s2 f r = true → waits (.cloadctx e) s2) ∧
        (hasBlock s2 f.n.ref = false → rowHeld s2 f r = false → ends (.cloadctx e) (writeRow s2 r c bs) (both (f.token p))) ∧
        (hasBlock s2 f.n.ref = true →
          let h : HeldStore := { slot := f.slot, node := f.n.ref, va := va, spilled := false, parts := [], bytes := bs, ord := 0
                                 scope := 1, stream := none, row := some (r, c) }
          ends (.cloadctx e) (updInstance (holdStore s2 f h) f.n.ref f.key fun i =>
            { i with result := i.result ++ [(f.n.ref, f.slot, f.token p)] }) []))) ∧
    (ready 0xA3 [.load, .run] → p.toNat < 2 ^ 72 → p.toNat % 8 = 0 →
      (hasBlock s1 f.n.ref = true ∧ waveFirst f.g f.key.iter = false ∨ rowHeld s1 f r = true → waits (.csavectx e) s1) ∧
      (rowHeld s1 f r = false → ∀ s2,
        (combReach f va true s1 = (s2, none) → waits (.csavectx e) s2) ∧
        (∀ x, combReach f va true s1 = (s2, some (.fault x)) → faults (.csavectx e) s2 x.fab) ∧
        (∀ ps, combReach f va true s1 = (s2, some (.parts ps)) →
          let h : HeldStore := { slot := f.slot, node := f.n.ref, va := va, spilled := false, parts := ps
                                 bytes := savedRow s2 f r c, ord := 0, scope := 1, stream := none, row := none }
          (hasBlock s2 f.n.ref = true → ends (.csavectx e) (holdStore (noteTouch s2 f [quadOf r] true) f h) (both (f.token p))) ∧
          (hasBlock s2 f.n.ref = false →
            (let x := (arrayOf s2 r).sched
             let bs := readMem s2 0 (arrayPa r + 256 * c) 256
             ((∀ j, j ≤ schLen x → schRing x j ≠ c) → h.bytes = bs) ∧
             ∀ j, j ≤ schLen x → schRing x j = c → (∀ i < j, schRing x i ≠ c) →
               h.bytes = bs.take 182 ++ toBytes 2 (schFlops x j).toNat ++ bs.drop 184) ∧
            ends (.csavectx e) { s2 with instances := s2.instances ++
              [{ newInstance { node := f.n.ref, key := f.key } f.g.handle false with exited := true, stores := [h], released := true }] }
              (both (f.token p))))))) ∧
  (∀ (s : State) (r : ArrayRef) (x : BitVec 200) (ins : List (BitVec 16)),
    let v := evalAll s r x ins
    let one := fun (a : BitVec 200) (i : BitVec 16) (b : BitVec 200) (out : Nat) =>
      let p := schPos a
      let row := arrayRow s r (schRing a p)
      let inp := fun (j : Nat) => if i.getLsbD j then 1 else 0
      let index := fun (g : Nat → Nat) => g 0 + 2 * g 1 + 4 * g 2 + 8 * g 3 + 16 * g 4 + 32 * g 5
      let la := fun (k : Nat) => row / 2 ^ (64 * k + index fun m => inp (row / 2 ^ (1024 + 24 * k + 4 * m) % 16)) % 2
      let src := fun (c : Nat) =>
        if c < 16 then inp c else if c < 24 then la (c - 16) else if (schFlops a p).getLsbD (c - 24) then 1 else 0
      let lb := fun (k : Nat) => row / 2 ^ (512 + 64 * k + index fun m => src (row / 2 ^ (1216 + 30 * k + 5 * m) % 32)) % 2
      out < 2 ^ 16 ∧
      (∀ j < 16, out / 2 ^ j % 2 = let m := row / 2 ^ (1472 + 4 * j) % 16; if m < 8 then la m else lb (m - 8)) ∧
      schFlops b p = BitVec.ofNat 16 out ∧ (∀ j < 8, j ≠ p → schFlops b j = schFlops a j) ∧
      schPos b = (p + 1) % (schLen a + 1) ∧ schLen b = schLen a ∧ ∀ j < 8, schRing b j = schRing a j
    ∃ regs : List (BitVec 200), regs.length = ins.length + 1 ∧ v.2.length = ins.length ∧ regs[0]? = some x ∧
      regs[ins.length]? = some v.1 ∧
      ∀ k < ins.length, ∃ a i b out, regs[k]? = some a ∧ ins[k]? = some i ∧ regs[k + 1]? = some b ∧ v.2[k]? = some out ∧
        one a i b out)

/-! ## Tokens and commits -/

/-- A token of data, EOS, EEOS or CANCEL at the head of its edge, where its island has a credit and its tile admits its
context, is held in the destination's store behind the earlier ones; in a full store that it does not make fire it goes
to the overflow table, and with no room there FSPILL drops it; one that R209 discards is not held; at a TRAP word a record
climbs, and a sealed node absorbs it; a token so dropped sets the exception bit of its instance.  Nothing else of the
package changes but what the arrival ends (R190, R196, R198, R199, R203, R209, R215, R330, R392).  With no credit it stays on
its edge, and in a tile that does not admit it a record climbs (R219, R406).  That the record of a dropped token climbs at once is
the model's choice (log 136).

An exited instance with no exception, in its turn, commits: exactly the store's bytes are written and the instance is
gone; out of its turn it waits, as it does while its store's array converts and behind an instance that commits first with
rows of a quad that it touches; a store that faults as it is prepared, and an exception bit, write nothing, and the instance is
gone (R88, R95, R96, R166, R215, R216, R391).  That a commit waits for room for its results is the model's choice (log 39). -/
def Obligations.TokensAndCommits : Prop :=
  (∀ (s : State) (src : EdgeSrc) (dst : Dest),
    (creditFor s src dst = false → exec (.tokenArrival src dst) s = .next (trySave s dst.node)) ∧
    (∀ s2 tok g, creditFor s src dst = true → takeFromEdge s src dst = some (s2, tok) →
      tileAdmits s2 dst.node tok.key.ctx = false → edgeGraph s src = some g →
      runsTo (.tokenArrival src dst) s fun t =>
        let tile := tileOfNode dst.node.id
        let id := if isElemNode dst.node then dst.node.id else (elemNode dst.node.die tile.1 tile.2 0).id
        t = trySave (settle (endIterations (climb s2 g.gid (mkRec tok.key 0x2A 0 0 0 id 0)) g)) dst.node)) ∧
  (∀ (s s2 : State) (src : EdgeSrc) (dst : Dest) (tok : Token) (n : Node) (g : Graph),
    creditFor s src dst = true → takeFromEdge s src dst = some (s2, tok) → tileAdmits s2 dst.node tok.key.ctx = true →
    nodeOf s2 dst.node = some n → graphOfNode s2 n = some g → tok.kind.counted = true → cutOf s n.ctx = none →
    let held := fun (sp : Bool) => setNode s2 dst.node fun n => { n with
      store := n.store ++ [{ slot := dst.slot, opd := dst.opd, tok := tok, src := src, arr := n.arrivals, spilled := sp }]
      arrivals := n.arrivals + 1 }
    let ends := fun (s3 : State) => runsTo (.tokenArrival src dst) s fun t => ∃ g3,
      t = settle (passReconf (endIterations s3 g) g3 dst.node)
    let dropped := fun (s3 : State) (soft : Bool) =>
      (hasBlock s3 dst.node = false → ends s3) ∧
      (hasBlock s3 dst.node = true →
        ((openInstance s3 dst.node tok.key).isSome = true →
          ends (updInstance s3 dst.node tok.key fun i => { i with exc := true, soft := i.soft && soft })) ∧
        (openInstance s3 dst.node tok.key = none → ends { s3 with instances := s3.instances ++
          [{ newInstance { node := blockNode dst.node, key := tok.key } g.handle true with soft := soft }] }))
    let full := (isElemNode dst.node || isConvNode dst.node) && decide (64 ≤ n.store.countP fun h => !h.spilled)
    let fits := full = false ∨ ∃ n2, nodeOf (held false) dst.node = some n2 ∧ canFire (held false) n2 dst.slot tok.key = true
    (n.sealed = true → runsTo (.tokenArrival src dst) s fun t => t = settle s2) ∧
    (n.sealed = false →
      (n.opAt dst.slot = 0xF0 → dropped (climb s2 g.gid (mkRec tok.key 0x25 0 0 dst.slot dst.node.id 0)) true) ∧
      (n.opAt dst.slot ≠ 0xF0 →
        (∀ d, n.drops.find? (fun d => d.slot == dst.slot && d.key == tok.key && d.opds.contains dst.opd) = some d →
          ends (if tok.kind = .eos ∨ tok.kind = .eeos then setNode s2 dst.node fun n => { n with drops := n.drops.erase d }
                else s2)) ∧
        ((∀ d ∈ n.drops, ¬(d.slot = dst.slot ∧ d.key = tok.key ∧ dst.opd ∈ d.opds)) →
          (fits → ends (held false)) ∧
          (¬fits → ovfRoom s2 g.part dst.node.id tok.key = true → ends (held true)) ∧
          (¬fits → ovfRoom s2 g.part dst.node.id tok.key = false →
            dropped (raiseRec s2 g.gid dst.node tok.key (mkRec tok.key 0x24 0 0 dst.slot dst.node.id 0) true) false))))) ∧
  (∀ (s : State) (b : BlockRef) (i : Instance) (g : Graph),
    s.instances.find? (fun i => i.blk == b && i.exited) = some i →
    s.graphs.find? (fun g => g.ctx == b.key.ctx && g.handle == i.handle && !g.retired) = some g →
    let gone := fun (t : State) => s.instances.count i = 1 → i ∉ t.instances
    (i.released = false → i.exc = true ∨ contained s g b.node b.key.iter = true →
      runsTo (.blockCommit b) s fun t => t.mem = s.mem ∧ gone t) ∧
    (i.exc = false → contained s g b.node b.key.iter = false → i.released = false →
      waveFirst g b.key.iter = false ∨ resultsRoom s i = false → exec (.blockCommit b) s = .next s) ∧
    (∀ h p, i.exc = false → contained s g b.node b.key.iter = false → i.released = true ∨ waveFirst g b.key.iter = true →
      i.result = [] → i.stores = [h] → h.row = none → h.isFence = false → h.parts = [p] →
      (pieceBar s p = some none → exec (.blockCommit b) s = .next s) ∧
      (∀ x, pieceBar s p = some (some x) → runsTo (.blockCommit b) s fun t => t.mem = s.mem ∧ gone t) ∧
      (pieceBar s p = none → h.paid = true → commitBehind s g i [h] = true → exec (.blockCommit b) s = .next s) ∧
      (pieceBar s p = none → h.paid = true → commitBehind s g i [h] = false → h.done = [] → h.ord = 0 → p.n = h.bytes.length → 0 < p.n → inArrays p.pa = true →
        inArrays (p.pa + (p.n - 1)) = true →
        runsTo (.blockCommit b) s fun t => gone t ∧ (∃ s2, t = settle s2 ∧ s2.seqs = s.seqs ∧ s2.launches = s.launches) ∧
          ∀ x, (memGet t.mem x).getD 0 =
            if p.pa ≤ x ∧ x < p.pa + p.n then (h.bytes[x - p.pa]?).getD 0 else (memGet s.mem x).getD 0)))

/-! ## Translation events -/

/-- A walker serves the next request of its die: a leaf that permits it fills an entry of the holder and marks A, and D
for a write; a walk that fails, and a leaf that does not permit it, leave a fault of the lowest cause and the entry empty
(R52 to R56, R63, R65, R66, R68).  A write to a leaf with CW checks CWKEY, takes the frame at HEAD of the pool and begins the
copy; with no frame a sequencer faults with CWEMPTY and another holder waits at the empty pool (R58, R73, R76).

A copy-on-write whose leaf is as it was copies the page into its frame under CWKEY and gives the leaf the frame and
that key, CW clear and A and D set, and every translation of the page is gone; accesses of the old leaf are performed
before the copy ends; a leaf that has changed gives the frame back; a copy that must reach the host window waits while the
link is down; and a key slot that has lost its key is a fault that leaves every holder's entry empty (R65, R73, R74, R75, R81,
R433).  An empty pool that has a frame again gives it to the walker that waits, and its CWEMPTY is delivered to a unit at a
boundary (R74, R76, R387).  Three points are the model's choice: a frame is given back at TAIL with TAIL raised (log 61), the
FINFO.LEVEL of CWEMPTY is 3 (log 114), and a copy that would reach an array is cause 0x0B (log 118). -/
def Obligations.WalksAndCopyOnWrite : Prop :=
  (∀ (s : State) (die : Nat), walkNext s die = none → exec (.pageWalk die) s = .next s) ∧
  (∀ (s s2 : State) (die : Nat) (r : WalkReq),
     walkNext s die = some r →
     let w := r.write || r.atomic
     let s1 := { s with walks := s.walks.erase r
                        walkTurn := upsert (fun t => t.1 == die) (die, r.part) s.walkTurn }
     let fails := fun (t : State) (cause level key : Nat) =>
       t.walkFaults = s.walkFaults ++ [{ holder := r.holder, info :=
         { cause := cause, addr := r.va, level := level, write := r.write, atomic := r.atomic, key := key } }] ∧
       (∀ e ∈ t.tlb, e ∈ s.tlb ∧ e.covers r.holder r.ctx r.va = false)
     let ends := fun (cause level key : Nat) => runsTo (.pageWalk die) s fun t => fails t cause level key ∧
       t = { s2 with walkFaults := t.walkFaults, tlb := t.tlb }
     r ∈ s.walks ∧ r.die = die ∧
     (∀ cause level key, walkFor s1 r = (s2, .fault cause level key) → ends cause level key) ∧
     (∀ pa lg level pte, walkFor s1 r = (s2, .leaf pa lg level pte) →
       (∀ c ∈ leafCauses s2 r.part lg pte w, (∀ d ∈ leafCauses s2 r.part lg pte w, c ≤ d) →
         ends c level (if c = 7 ∨ c = 8 then bits pte 15 4 else 0)) ∧
       (leafCauses s2 r.part lg pte w = [] → bit pte 57 = false → (w = true → bit pte 58 = false ∧ cowClosing s2 r = false) →
         let key := ptKeyOf s2 r.part r.ctx
         runsTo (.pageWalk die) s fun t =>
           t.walks = s.walks.erase r ∧ t.seqs = s.seqs ∧
           (∃ e ∈ t.tlb, e.holder = r.holder ∧ e.ctx = r.ctx ∧ e.va = r.va ∧ e.leaf = leafOf pte lg w) ∧
           (∀ e ∈ t.tlb, e ∈ s.tlb ∨ (e.holder = r.holder ∧ e.va = r.va)) ∧
           ((keyMat s2 key).isSome → pa % 8 = 0 → readWord t key pa =
             readWord s2 key pa ||| (1#64 <<< 56) ||| (if w = true then 1#64 <<< 55 else 0))) ∧
       (leafCauses s2 r.part lg pte w = [] → bit pte 57 = false → w = true → bit pte 58 = true →
         (∀ c ∈ s2.cows, ¬(c.req.ctx = r.ctx ∧ c.page = r.va / 65536)) →
         let cwkey := bits (descWord s2 r.part r.ctx 0x10) 15 4
         let pool := poolRing s2 r.part r.ctx
         let pt := ptKeyOf s2 r.part r.ctx
         let frame := bits (readWord s2 pt (pool.base + 128 + 8 * (pool.head.toNat % 2 ^ pool.cap))) 47 16 * 65536
         let has := 4 ≤ pool.cap ∧ pool.cap ≤ 20 ∧ pool.head ≠ pool.tail
         let cow : Cow := { req := r, waiting := [], page := r.va / 65536, leafPa := pa, old := pte, frame := 0, key := cwkey
                            empty := true, closing := none }
         (∀ x, keyCause s2 r.part cwkey = some x → ends x 3 cwkey) ∧
         (keyCause s2 r.part cwkey = none → inArrays (bits pte 47 16 * 65536) = true → ends 0x0B 3 0) ∧
         (keyCause s2 r.part cwkey = none → inArrays (bits pte 47 16 * 65536) = false →
           (¬has →
             ((∃ q, r.holder = .seq q) → ends 0xF0 3 0) ∧
             ((∀ q, r.holder ≠ .seq q) → runsTo (.pageWalk die) s fun t =>
               t = { s2 with cows := s2.cows ++ [cow], cwempties := s2.cwempties ++ [r] })) ∧
           (has → inArrays frame = false → runsTo (.pageWalk die) s fun t =>
             t.cows = s2.cows ++ [{ cow with frame := frame, empty := false }] ∧ t.seqs = s.seqs ∧ t.tlb = s.tlb ∧
             ((keyMat s2 pt).isSome → readWord t pt pool.base = pool.head + 1)))))) ∧
  ((∀ (s : State) (ctx : BitVec 12) (page : Nat) (c : Cow),
     s.cows.find? (fun c => c.req.ctx == ctx && c.page == page && !c.empty) = some c →
     let pt := ptKeyOf s c.req.part ctx
     let old := bits c.old 15 4
     let fails := fun (x key : Nat) => runsTo (.cowCopyDone ctx page) s fun t =>
       t.cows = s.cows.erase c ∧ t.seqs = s.seqs ∧
       t.walkFaults = s.walkFaults ++ ((c.req :: c.waiting).map fun r => { holder := r.holder, info :=
         { cause := x, addr := r.va, level := 3, write := r.write, atomic := r.atomic, key := key } }) ∧
       ∀ e ∈ t.tlb, e ∈ s.tlb ∧ ∀ r ∈ c.req :: c.waiting, e.covers r.holder r.ctx r.va = false
     let away := s.linkUp = false ∧ (region (bits c.old 47 16 * 65536) = .host ∨ region c.frame = .host)
     (c.closing = none → away → exec (.cowCopyDone ctx page) s = .next s) ∧
     (c.closing = none → ¬away → readWord s pt c.leafPa ≠ c.old →
       let pool := poolRing s c.req.part ctx
       runsTo (.cowCopyDone ctx page) s fun t => t.cows = s.cows.erase c ∧ t.tlb = s.tlb ∧ t.seqs = s.seqs ∧
         ((keyMat s pt).isSome →
           readWord t pt (pool.base + 8) = pool.tail + 1 ∧
           readWord t pt (pool.base + 128 + 8 * (pool.tail.toNat % 2 ^ pool.cap)) = BitVec.ofNat 64 c.frame)) ∧
     (c.closing = none → ¬away → readWord s pt c.leafPa = c.old →
       (∀ x, keyCause s c.req.part old = some x → fails x old) ∧
       (∀ x, keyCause s c.req.part old = none → keyCause s c.req.part c.key = some x → fails x c.key) ∧
       (keyCause s c.req.part old = none → keyCause s c.req.part c.key = none → (keyMat s pt).isSome →
         c.frame % 65536 = 0 → c.frame < 2 ^ 48 → c.leafPa % 8 = 0 → c.leafPa < c.frame ∨ c.frame + 65536 ≤ c.leafPa →
         runsTo (.cowCopyDone ctx page) s fun t =>
           (let users := usersOf s ctx (some page)
            t.cows = if users = [] then s.cows.erase c
              else mapIf (· == c) (fun c => { c with closing := some users }) s.cows) ∧
           readSlot t c.key c.frame 65536 = readSlot s old (bits c.old 47 16 * 65536) 65536 ∧
           (let w := readWord t pt c.leafPa
            bits w 63 59 = bits c.old 63 59 ∧ bit w 58 = false ∧ bit w 57 = bit c.old 57 ∧ bit w 56 = true ∧ bit w 55 = true ∧
            bits w 54 48 = bits c.old 54 48 ∧ bits w 47 16 * 65536 = c.frame ∧ bits w 15 4 = c.key ∧
            bits w 3 0 = bits c.old 3 0) ∧
           (∀ e ∈ t.tlb, e ∈ s.tlb ∧ (e.ctx = ctx → e.va / 2 ^ e.leaf.lg ≠ page * 65536 / 2 ^ e.leaf.lg)))) ∧
     (∀ ids, c.closing = some ids →
       ((∃ a ∈ s.accesses, a.id ∈ ids) → exec (.cowCopyDone ctx page) s = .next s) ∧
       ((∀ a ∈ s.accesses, a.id ∉ ids) → exec (.cowCopyDone ctx page) s = .next { s with cows := s.cows.erase c }))) ∧
   (∀ (s : State) (ctx : BitVec 12) (page : Nat) (c : Cow),
     s.cows.find? (fun c => c.req.ctx == ctx && c.page == page && c.empty) = some c →
     let pool := poolRing s c.req.part ctx
     let pt := ptKeyOf s c.req.part ctx
     let frame := bits (readWord s pt (pool.base + 128 + 8 * (pool.head.toNat % 2 ^ pool.cap))) 47 16 * 65536
     let has := 4 ≤ pool.cap ∧ pool.cap ≤ 20 ∧ pool.head.toNat < pool.tail.toNat
     (¬has → exec (.cwPoolRefill ctx page) s = .next s) ∧
     (has → inArrays frame = false → runsTo (.cwPoolRefill ctx page) s fun t =>
       ((keyMat s pt).isSome → readWord t pt pool.base = pool.head + 1) ∧ t.seqs = s.seqs ∧ t.cwempties = s.cwempties ∧
       { c with empty := false, frame := frame } ∈ t.cows)) ∧
   (∀ (s : State) (ctx : BitVec 12) (page : Nat),
     ((∀ r ∈ s.cwempties, ¬(r.ctx = ctx ∧ r.va / 65536 = page)) → exec (.cwemptyDelivery ctx page) s = .next s) ∧
     ∀ r, s.cwempties.find? (fun r => r.ctx == ctx && r.va / 65536 == page) = some r →
       (cwemptyUnit s r.holder = none → exec (.cwemptyDelivery ctx page) s = .next s) ∧
       ∀ q, cwemptyUnit s r.holder = some q →
         (atBoundary s q = false → exec (.cwemptyDelivery ctx page) s = .next s) ∧
         (atBoundary s q = true → bit (s.seqs.get q).tvec 63 = true →
           runsTo (.cwemptyDelivery ctx page) s fun t =>
             t.mem = s.mem ∧ t.cows.map Cow.page = s.cows.map Cow.page ∧ t.cwempties = s.cwempties.erase r ∧
             (∀ p, p ≠ q → t.seqs.get p = s.seqs.get p) ∧
             t.seqs.get q = { s.seqs.get q with
               epc := (s.seqs.get q).pc &&& 0x000FFFFFFFFFFFFC#64, ecode := 3, eword := 0, faddr := BitVec.ofNat 64 r.va
               finfo := BitVec.ofNat 64 ((if r.atomic then 2048 else 0) + (if r.write then 1024 else 0) + 3 * 256 + 0xF0)
               h := true, wait := .none, pc := (s.seqs.get q).tvec &&& 0x000FFFFFFFFFFFFC#64, ahead := [] })))

/-- A walk that reaches a leaf with RM begins a pull: the walker reads the migration record under PTKEY and sends its
request, and the holder waits; where MIGREC names none the pull fails, and for a frame of an array, which no walker reaches, it
is cause 0x0B (R4, R59, R82, R84, R90, R411).

A pull that completes with 64 KiB, its leaf as it was, puts them into the page's frame as the leaf's key decrypts them,
clears RM and sets A, and D for a write; into the host window it waits for the link; one that fails raises PGF with cause 0x0A
for every access it holds and leaves each holder's entry empty (R65, R80, R82, R84, R433).  A pull request that names a lend,
comes from its target and reaches memory of HBM4E or the LP6 tier is answered with the page, and any other is refused (R5,
R411).  These are the model's choice: a pull that finds its leaf changed is dropped with no fault (log 62), D is set for a
write though CW is set (log 63), a lent page in an array is refused (log 101), and the page is kept under the leaf's key
(log 142). -/
def Obligations.RemotePulls : Prop :=
  (∀ (s s2 : State) (die : Nat) (r : WalkReq) (pa lg level : Nat) (pte : Word),
    walkNext s die = some r →
    walkFor { s with walks := s.walks.erase r, walkTurn := upsert (fun t => t.1 == die) (die, r.part) s.walkTurn } r =
      (s2, .leaf pa lg level pte) →
    leafCauses s2 r.part lg pte (r.write || r.atomic) = [] → bit pte 57 = true →
    (∀ p ∈ s2.pulls, ¬(p.req.ctx = r.ctx ∧ p.page = r.va / 65536)) →
    let migrec := descWord s2 r.part r.ctx 0x30
    let m := readSlot s2 (ptKeyOf s2 r.part r.ctx) (bits migrec 47 6 * 64) 64
    let inArray := inArrays (bits pte 47 16 * 65536)
    (inArray = true ∨ r.soft = true ∨ bit migrec 63 = false → runsTo (.pageWalk die) s fun t =>
      t.pulls = s.pulls ∧ t.pullsSent = s.pullsSent ∧ t.walkFaults = s.walkFaults ++ [{ holder := r.holder, info :=
        { cause := if inArray = true then 0x0B else 0x0A, addr := r.va, level := 3, write := r.write, atomic := r.atomic, key := 0 } }]) ∧
    (inArray = false → r.soft = false → bit migrec 63 = true → runsTo (.pageWalk die) s fun t =>
      t = { s2 with
        pulls := s2.pulls ++ [{ req := r, page := r.va / 65536, leafPa := pa, old := pte, waiting := [r] }]
        pullsSent := s2.pullsSent ++ [{ port := ofBytes (m.take 1) % 16
                                        lendId := BitVec.ofNat 64 (ofBytes ((m.drop 8).take 8))
                                        va := r.va / 65536 * 65536, requester := ownIdentity s2 }] })) ∧
  (∀ (s : State) (ctx : BitVec 12) (page : Nat) (m : PulledPage),
    let find := s.pulls.find? (fun p => p.req.ctx == ctx && p.page == page)
    (find = none → exec (.remotePullComplete ctx page m) s = .next s ∧ exec (.remotePullFail ctx page) s = .next s) ∧
    (m.bytes.length ≠ 65536 → exec (.remotePullComplete ctx page m) s = .next s) ∧
    ∀ p, find = some p →
    let pt := ptKeyOf s p.req.part ctx
    let key := bits p.old 15 4
    let frame := bits p.old 47 16 * 65536
    let away := s.linkUp = false ∧ region frame = .host
    (away → exec (.remotePullComplete ctx page m) s = .next s) ∧
    (m.bytes.length = 65536 → ¬away → readWord s pt p.leafPa ≠ p.old →
      exec (.remotePullComplete ctx page m) s = .next { s with pulls := s.pulls.erase p }) ∧
    (m.bytes.length = 65536 → ¬away → readWord s pt p.leafPa = p.old → (keyMat s pt).isSome → (keyMat s key).isSome →
      p.leafPa % 8 = 0 → p.leafPa < frame ∨ frame + 65536 ≤ p.leafPa →
      runsTo (.remotePullComplete ctx page m) s fun t =>
        t.pulls = s.pulls.erase p ∧ readSlot t key frame 65536 = openPage (keyMat s key) m ∧
        (keyMat s key = some m.key → openPage (keyMat s key) m = m.bytes) ∧
        readWord t pt p.leafPa =
          ((p.old &&& ~~~(1#64 <<< 57)) ||| (1#64 <<< 56) ||| (if p.req.write || p.req.atomic then 1#64 <<< 55 else 0)) ∧
        (∀ e ∈ t.tlb, e ∈ s.tlb ∧ (e.ctx = ctx → e.va / 2 ^ e.leaf.lg ≠ page * 65536 / 2 ^ e.leaf.lg))) ∧
    (runsTo (.remotePullFail ctx page) s fun t =>
      t = { s with pulls := s.pulls.erase p
                   walkFaults := s.walkFaults ++ p.waiting.map fun r => { holder := r.holder, info :=
                     { cause := 0x0A, addr := r.va, level := 3, write := r.write, atomic := r.atomic, key := 0 } }
                   tlb := t.tlb } ∧
      ∀ e ∈ t.tlb, e ∈ s.tlb ∧ ∀ r ∈ p.waiting, e.covers r.holder r.ctx r.va = false)) ∧
  (∀ (s : State) (r : PullReq),
    let refused := exec (.pullRequest r) s = .next { s with responses := s.responses ++ [.pullRefused] }
    ((∀ l ∈ s.lends, ¬(l.lendId = r.lendId ∧ l.tgt = r.requester)) → refused) ∧
    ∀ l, s.lends.find? (fun l => l.lendId == r.lendId && l.tgt == r.requester) = some l →
      (partOfCtx s l.ctx = none → refused) ∧
      ∀ part, partOfCtx s l.ctx = some part →
        (∀ cause level key, walkTable s part l.ctx r.va.toNat = .fault cause level key → refused) ∧
        (∀ pa lg level pte, walkTable s part l.ctx r.va.toNat = .leaf pa lg level pte →
          let at_ := bits pte 47 16 * 65536 + (r.va.toNat / 65536 * 65536) % 2 ^ lg
          (bit pte 63 = false ∨ isDram at_ = false → refused) ∧
          (bit pte 63 = true → isDram at_ = true → runsTo (.pullRequest r) s fun t => t = { s with responses :=
            s.responses ++ [.page (keyMat s (bits pte 15 4)) (readSlot s (bits pte 15 4) at_ 65536) at_] })))

/-! ## Power, the ring, bandwidth -/

/-- A refresh waits for the jobs of its channel, and with none changes nothing (R115); a power-down is deferred while a
job works there, and else taken at once (R116); when the deferral expires the units spill their state under the key of
their output page and the channel is down, and a wake restores what was spilled, or ends the job with fault status 0x08
where that key has gone (R81, R117; that the job ends so is the model's choice, log 132); the governor counts what it trims
(R440); and without power everything else stands (R418, R434). -/
def Obligations.PowerEvents : Prop :=
  ∀ (s : State) (pch g b watts : Nat),
    let p := pchOf s pch
    let becomes := fun (i : Instr) (x : PchState) =>
      runsTo i s fun t => pchOf t pch = x ∧ (∀ k, k ≠ pch → pchOf t k = pchOf s k) ∧ { t with pchs := s.pchs } = s
    (pchLive s pch = true →
      becomes (.refreshDue pch g b) { p with refreshes := p.refreshes ++ [(g, b)] } ∧
      becomes (.pchPowerDownRequest pch) { p with deferred := true }) ∧
    (pchLive s pch = false →
      exec (.refreshDue pch g b) s = .next s ∧ becomes (.pchPowerDownRequest pch) { p with down := true }) ∧
    (p.deferred = false → exec (.deferralExpiry pch) s = .next s) ∧
    (p.deferred = true →
      let live := fun (j : Job) => !j.spilled && j.unit == some pch
      runsTo (.deferralExpiry pch) s fun t =>
        pchOf t pch = { p with deferred := false, down := true
                               spill := p.spill ++ (s.jobs.filter live).map fun j =>
                                 { q := j.q, tag := j.tag, pos := j.pos, acc := j.acc, slot := outputSlot s j
                                   key := keyMat s (outputSlot s j) } } ∧
        t.jobs = (s.jobs.map fun j => if live j then j.asleep else j) ∧
        (∀ j : Job, j.asleep.spilled = true ∧ j.asleep.pos = 0 ∧ j.asleep.acc = 0) ∧
        { t with pchs := s.pchs, jobs := s.jobs } = s) ∧
    ((s.jobs.map fun j => (j.q, j.tag)).Nodup → (p.spill.map fun x => (x.q, x.tag)).Nodup →
      (∀ x ∈ p.spill, x.key.isSome = true ∧ keyMat s x.slot = x.key) →
      runsTo (.pchWake pch) s fun t =>
        pchOf t pch = { p with down := false, spill := [] } ∧ { t with pchs := s.pchs, jobs := s.jobs } = s ∧
        (∀ x ∈ p.spill, ∀ j ∈ s.jobs, j.q = x.q → j.tag = x.tag → j.spilled = true →
          { j with pos := x.pos, acc := x.acc, spilled := false } ∈ t.jobs) ∧
        ∀ j ∈ s.jobs, (∀ x ∈ p.spill, ¬(x.q = j.q ∧ x.tag = j.tag)) → j ∈ t.jobs) ∧
    (∀ x j, p.spill = [x] → jobOf s x.q x.tag = some j → j.spilled = true → x.key = none ∨ keyMat s x.slot ≠ x.key →
      runsTo (.pchWake pch) s fun t =>
        t = endJob (setPch s pch fun p => { p with down := false, spill := [] }) j
          (some (0x08, jobOutput { j with pos := x.pos }, true, true))) ∧
    (runsTo (.powerTrim watts) s fun t =>
      t = { s with trimmed := if s.powerLimit < watts then s.trimmed + 1 else s.trimmed }) ∧
    (runsTo .powerLoss s fun t => t = { s with powered := false })

/-- The ring's token goes to the next of its 72 stations; with nothing queued there it only moves, and an operation
queued there that may be performed is performed, an element's by its word (R168, R169).  A cycle of the buckets adds RATE to
each enabled bucket, up to 64 times DEPTH, at every port; the first line that waits at a port on a bucket of its own
partition which has 64 is admitted and pays 64, with less it waits, and it borrows 64 where its bucket has fewer, has
borrowed less than RATE in 64 cycles, and another bucket without waiting lines can pay; a line of an array frame asks at the
port of the array's slice; and a sequencer's access is not performed before its lines are admitted (R112 to R114).  That a
bucket that is not enabled keeps what it holds is the model's choice (log 59). -/
def Obligations.RingAndBuckets : Prop :=
  (∀ (s : State),
    let st := (s.waggle + 1) % 72
    let s1 := { s with waggle := st }
    ((∀ a ∈ s.accesses, a.ringed = true → stationOf a = st → canPerform s1 a = false) → runsTo .waggleToken s fun t => t = s1) ∧
    (∀ a, s.accesses = [a] → a.ringed = true → stationOf a = st → canPerform s1 a = true →
      (a.elem = none → a.left.length ≤ 1 → a.left = piecesOf a.kind a.n a.va a.parts → runsTo .waggleToken s fun t => t = perform s1 a ∧ t.accesses = [] ∧ t.waggle = st) ∧
      (∀ o, a.elem = some o → (nodeOf s o.node = none → runsTo .waggleToken s fun t => t = { s1 with accesses := [] }) ∧
        ∀ n, nodeOf s o.node = some n → let w := n.word o.slot
          ∀ t, ringWord (eOp w) (eWord w) { s1 with accesses := [], site := { node := o.node, slot := o.slot, key := o.key } } = .next t →
            t.accesses = [] → exec .waggleToken s = .next t))) ∧
  (∀ (s : State), (s.bucketEntries.map Prod.fst).Nodup →
    let gained := fun (port : Nat) (e : Nat × Word) =>
      if bit e.2 63 then min (64 * bits e.2 47 32) ((bucketAt s port e.1).tokens + bits e.2 31 16)
      else (bucketAt s port e.1).tokens
    (∀ die line r, region (128 * line) = .array r → portOf die line = 16 * r.die + r.slice) ∧
    ((∀ a ∈ s.accesses, a.unpaid = []) → (∀ r ∈ s.portReqs, r.unpaid = []) →
      runsTo .bucketTokenGain s fun t => { t with buckets := s.buckets } = s ∧
        ∀ port < 64, ∀ e ∈ s.bucketEntries, (bucketAt t port e.1).tokens = gained port e) ∧
    (∀ a line v, s.accesses = [a] → a.unpaid = [line] → (∀ r ∈ s.portReqs, r.unpaid = []) → portOf a.die line < 64 →
      let port := portOf a.die line
      let i := bucketOf s a.part a.ctx
      (i, v) ∈ s.bucketEntries → bits v 5 0 = a.part → bit v 63 = true →
      (a.left ≠ [] → (∀ p ∈ a.left, p.pa / 128 = line) → canPerform s a = false) ∧
      (64 ≤ gained port (i, v) →
        runsTo .bucketTokenGain s fun t =>
          t.accesses = [{ a with unpaid := [] }] ∧ (bucketAt t port i).tokens = gained port (i, v) - 64) ∧
      (gained port (i, v) < 64 → (∀ e ∈ s.bucketEntries, e.1 ≠ i → bit e.2 63 = false ∨ gained port e < 64) →
        runsTo .bucketTokenGain s fun t =>
          t.accesses = [a] ∧ (bucketAt t port i).tokens = gained port (i, v)) ∧
      (∀ k u, gained port (i, v) < 64 → (k, u) ∈ s.bucketEntries → k ≠ i → bit u 63 = true → 64 ≤ gained port (k, u) →
        (∀ e ∈ s.bucketEntries, e.1 ≠ i → e.1 ≠ k → bit e.2 63 = false ∨ gained port e < 64) →
        (((bucketAt s port i).borrowed.take 63).sum < bits v 31 16 →
          runsTo .bucketTokenGain s fun t => t.accesses = [{ a with unpaid := [] }] ∧
            (bucketAt t port k).tokens = gained port (k, u) - 64 ∧ (bucketAt t port i).tokens = gained port (i, v)) ∧
        (bits v 31 16 ≤ ((bucketAt s port i).borrowed.take 63).sum →
          runsTo .bucketTokenGain s fun t => t.accesses = [a]))))

/-! ## Queues -/

/-- A look at TAIL changes nothing where the queue is not to be looked at, where its page must wait, and where TAIL is as
the hardware left it; one that finds it changed in a device queue, or gone back or past the ring's capacity, stops the
queue with ERR and enters the event; and one new record of an external queue with good fields becomes a launch of one
unit, of the resident graph that it names, or removed at once where there is none or it is cancelled; a queue that has stopped
reads no record beyond those it had read (R368, R369, R371, R373, R379).  The lowest idle sequencer of a running partition pops
a ready record of the highest PRIO, once its page can be written: its registers and predicates are zero, its CSRs from the
record, and its pc is CODEBASE plus ENTRY (R255, R257, R372, R373, R384).  These are the model's choice: a record of an
external queue is a launch of one unit (log 74), a store that is seen at the TAIL of a device queue is ERR (log 76), the ring's
pages are waited for (log 27), a popped unit whose graph has a record waiting takes it first (log 80), and which CSRs a pop
resets (log 78). -/
def Obligations.QueuesAndPops : Prop :=
  (∀ (s : State) (part q : Nat),
    let x := queueOf s part q
    let looks := partRuns s part = true ∧ x.valid = true ∧ x.err = false ∧ x.stop = none ∧ ctxPops s part x.ctx = true ∧
      (jobRecOf s x.ctx).cancelled = false
    let s1 := (ringHold s [tailUse x false]).1
    let w := watchTail s1 x
    (¬looks → exec (.queueTailUpdate part q) s = .next s) ∧
    (looks → ringRead s1 x (x.baseVa + 8) 8 = none → exec (.queueTailUpdate part q) s = .next s1) ∧
    (looks → ∀ bs, ringRead s1 x (x.baseVa + 8) 8 = some bs →
      let tail := ofBytes bs
      (tail = x.tail → tailStored w x = false → exec (.queueTailUpdate part q) s = .next w) ∧
      (tail ≠ x.tail ∨ tailStored w x = true → x.ext = false ∨ tail < x.tail ∨ x.head + x.cap < tail →
        runsTo (.queueTailUpdate part q) s fun t =>
          queueOf t part q = { x with qctl := x.qctl ||| (1#64 <<< 56), stop := some x.tail } ∧ t.launches = s.launches ∧ t.seqs = s.seqs ∧
          ∃ e, t.blackBox.getLast? = some e ∧ e.code = 0x101 ∧ e.part = x.part ∧ e.ctx = x.ctx.toNat) ∧
      (∀ s2 ws g, tail = x.tail + 1 → x.ext = true → x.tail + 1 ≤ x.head + x.cap → openLaunches w part < 1024 →
        ringHold w [recUse x x.tail true] = (s2, true) → readRecord s2 x x.tail = some ws →
        residentGraph s2 x.ctx (BitVec.ofNat 64 (recHandle ws)) = g →
        (recordOk g ws = false → runsTo (.queueTailUpdate part q) s fun t =>
          queueOf t part q = { x with qctl := x.qctl ||| (1#64 <<< 56), stop := some x.tail } ∧ t.launches = s.launches) ∧
        (recordOk g ws = true → runsTo (.queueTailUpdate part q) s fun t =>
          (queueOf t part q).tail = x.tail + 1 ∧ ∃ l ∈ t.launches, l.ctx = x.ctx ∧ l.id = (jobRecOf s x.ctx).nextLaunch ∧
            l.handle = recHandle ws ∧ l.first = x.tail ∧ l.units = 1 ∧ l.posted = 1 ∧ l.completed = 0 ∧
            l.removed = (if g.elim true Graph.cancelled then 1 else 0) ∧ ∀ y, g = some y → l.gen = y.gid ∧ l.cancelled = y.cancelled)))) ∧
  (∀ (s : State) (q : SeqId),
    (partOfSeq s q = none → exec (.recordPop q) s = .next s) ∧
    ∀ part, partOfSeq s q = some part →
      (partRuns s part = false → exec (.recordPop q) s = .next s) ∧
      (partRuns s part = true →
        let s0 := advanceRestores s part
        ((∀ x ∈ s.restores, x.part ≠ part) → s0 = s) ∧
        ((idleSeqs s0 part).head? ≠ some q → exec (.recordPop q) s = .next s0) ∧
        ((idleSeqs s0 part).head? = some q → ∀ s1 rs, allReady s0 part (q.val / 16) = (s1, rs) →
          (chooseReady s1 part (q.val / 16) rs = none → exec (.recordPop q) s = .next s1) ∧
          ∀ r, chooseReady s1 part (q.val / 16) rs = some r →
            let x := queueOf s1 part r.q
            let s2 := (ringHold s1 [recUse x r.i true]).1
            r ∈ rs ∧ (∀ x ∈ rs, recPrio x.ws ≤ recPrio r.ws) ∧ x.head ≤ r.i ∧ r.i < x.stop.getD x.tail ∧
            (ringParts s2 x (x.recVa r.i) 32 true = none → exec (.recordPop q) s = .next s2) ∧
            ((ringParts s2 x (x.recVa r.i) 32 true).isSome = true → runsTo (.recordPop q) s fun t =>
              (∀ p, p ≠ q → t.seqs.get p = s0.seqs.get p) ∧ t.mem = (setRecState s2 x r.i 1).mem ∧
              (let c := t.seqs.get q
               (∀ k, c.reg k = 0) ∧ (∀ k, c.pred k = (k == 0)) ∧ c.depth = 0 ∧ c.ras = [] ∧ c.h = false ∧ c.tvec = 0 ∧
               c.escr = 0 ∧ c.ctag = 0 ∧ c.ctagf = 0 ∧ c.ctbusy = 0 ∧ c.pc = r.g.codeBase + BitVec.ofNat 64 (recEntry r.ws) ∧
               c.wait = (if r.g.recs = [] ∧ cwemptyWaits s2 r.g = false then .none else .fabric) ∧
               ∃ u, c.run = some u ∧ u.part = part ∧ u.prio = recPrio r.ws ∧ u.handle = BitVec.ofNat 8 (recHandle r.ws) ∧
                 u.frame = BitVec.ofNat 52 (recFrame r.ws) ∧ u.launch = BitVec.ofNat 32 (bits (recAt r.ws 2) 31 0) ∧
                 u.unit = BitVec.ofNat 16 (bits (recAt r.ws 2) 47 32) ∧ u.lcm1 = BitVec.ofNat 16 (bits (recAt r.ws 2) 63 48) ∧
                 u.ctx = BitVec.ofNat 12 (bits (recAt r.ws 3) 43 32) ∧ u.phase = BitVec.ofNat 32 (bits (recAt r.ws 3) 31 0) ∧
                 u.queue = r.q ∧ u.ring = r.i ∧ u.ver = r.g.ver ∧ u.codeBase = r.g.codeBase)))))

/-! ## Faults -/

/-- A FAULT token enters its die's tree behind the others, or meets one of its ITER there and merges with it (R388).  A
record that reaches the root merges with one of its ITER, or takes one of 16 places, or is lost (R388, R389).  A waiting
record that may be delivered enters the handler of the graph's lowest unit with code 0x0E, its words in FREC0 to FREC2 and
what is left of the rest in FREC3 (R387, R389, R390).  And containment whose earlier iterations have ended seals the
connected subgraph: its nodes hold nothing and emit nothing, its instances are gone but for stores already released, and
its streams have ended (R391).  Three points are the model's choice: where FAULT tokens meet in the tree (log 131), when a
subgraph seals and what that removes (log 83), and that a record keeps the place in wave order it had as it was made
(log 111). -/
def Obligations.FabricFaults : Prop :=
  (∀ (s : State) (ctx : BitVec 12) (handle : Nat), liveGraph s ctx handle = none →
    exec (.faultRecordArrival ctx handle) s = .next s ∧ exec (.fabricTrap ctx handle) s = .next s ∧
    exec (.subgraphSeal ctx handle) s = .next s) ∧
  (∀ (s : State) (g : Graph) (r : FRec), s.graphs.find? (fun x => x.gid == g.gid) = some g →
    ∃ x, (climb s g.gid r).graphs.find? (fun x => x.gid == g.gid) = some x ∧ { x with tree := g.tree } = g ∧
      (x.tree = g.tree ++ [{ r with wave := g.pool.find? fun e => e.iter == r.iter }] ∨
        ∃ pre y post, g.tree = pre ++ y :: post ∧ y.iter = r.iter ∧ ∃ z, x.tree = pre ++ z :: post ∧
          z.iter = r.iter ∧ z.node = min y.node r.node ∧ z.count = min 65535 (y.count + r.count + 1))) ∧
  ∀ (s : State) (ctx : BitVec 12) (handle : Nat) (g : Graph), liveGraph s ctx handle = some g →
    (g.tree = [] → exec (.faultRecordArrival ctx handle) s = .next s) ∧
    (∀ r rest, g.tree = r :: rest →
      runsTo (.faultRecordArrival ctx handle) s fun t => { t with graphs := s.graphs } = s ∧
        ∃ x, liveGraph t ctx handle = some x ∧ x.tree = rest ∧
          ((∀ y ∈ g.recs, y.iter ≠ r.iter) →
            (g.recs.length < 16 → x.recs = g.recs ++ [r] ∧ x.lost = g.lost) ∧
            (16 ≤ g.recs.length → x.recs = g.recs ∧ x.lost = true)) ∧
          (∀ pre y post, g.recs = pre ++ y :: post → y.iter = r.iter → (∀ z ∈ pre, z.iter ≠ r.iter) →
            x.lost = g.lost ∧ x.recs = pre ++
              { (if r.node < y.node then r else y) with count := min 65535 (y.count + r.count + 1) } :: post)) ∧
    (recordTarget s g = none → exec (.fabricTrap ctx handle) s = .next s) ∧
    (∀ q r rest, recordTarget s g = some q → g.recs = r :: rest → bit (s.seqs.get q).tvec 63 = true →
      runsTo (.fabricTrap ctx handle) s fun t => ∃ s2, t = settle s2 ∧ s2.mem = s.mem ∧
        (∀ p, p ≠ q → s2.seqs.get p = s.seqs.get p) ∧
        (∃ x ∈ s2.graphs, x = { g with recs := rest, lost := false }) ∧
        s2.seqs.get q = { s.seqs.get q with
          frec0 := BitVec.ofNat 64 (r.count * 2 ^ 48 + r.iter.toNat * 2 ^ 32 + r.path.toNat * 2 ^ 24 + r.cause * 256 + r.code)
          frec1 := BitVec.ofNat 64 (r.aux.toNat * 2 ^ 48 + r.slot * 65536 + r.node)
          frec2 := r.addr
          frec3 := BitVec.ofNat 64 ((if g.lost then 65536 else 0) + rest.length * 256 + g.handle)
          epc := (s.seqs.get q).pc &&& 0x000FFFFFFFFFFFFC#64, ecode := 0x0E, eword := 0, h := true, wait := .none
          pc := (s.seqs.get q).tvec &&& 0x000FFFFFFFFFFFFC#64, ahead := [] }) ∧
    (g.sealing.find? (fun c => waveClear g c.wave) = none → exec (.subgraphSeal ctx handle) s = .next s) ∧
    (∀ c, g.sealing.find? (fun c => waveClear g c.wave) = some c →
      let refs := subgraphOf s g c.node
      runsTo (.subgraphSeal ctx handle) s fun t => ∃ s2, t = settle s2 ∧ s2.mem = s.mem ∧ s2.seqs = s.seqs ∧
        (∀ n ∈ s2.nodes, n.ref ∈ refs → n.sealed = true ∧ n.store = [] ∧ n.outs = [] ∧ n.tiles = []) ∧
        (∀ n ∈ s.nodes, n.ref ∉ refs → ∀ m ∈ s2.nodes, m.ref = n.ref → ∃ k ∈ s.nodes, k = m) ∧
        (∀ i ∈ s2.instances, i ∈ s.instances ∧ (i.released = true ∨
          ∀ r ∈ refs, i.blk.node ≠ r ∧ (inTileBlock r = true → i.blk.node ≠ blockNode r))) ∧
        (∀ a ∈ s2.accesses, ∀ o, a.elem = some o → o.node ∉ refs) ∧
        ∀ x ∈ s2.streams, x.dst.node ∈ refs → x.ended = true)

/-- Containment of an ACTIVE partition stops everything of it, saves nothing, drops what the caches hold for it, and
leaves it in SCRUBPEND with its event entered; no other partition's record and no other partition's sequencer changes
(R393).  A parity error of an LLC set invalidates the set and contains exactly the ACTIVE partitions in its residency
mask, which names the last of those that made lines of the set dirty, and every one that did so while a line whose data is
lost was dirty (R394); which evictions have cleared the mask before is free (log 8), and a residency-mask error contains every ACTIVE partition that owns a way of that LLC
(R394). -/
def Obligations.Containment : Prop :=
  (∀ (s : State) (part : Nat), part < 48 →
    let p := partOf s part
    let mine := fun (ctx : BitVec 12) => p.hasCtx ctx.toNat
    (p.stateOf ≠ 1 → exec (.uncorrectableError part) s = .next s) ∧
    (p.stateOf = 1 → runsTo (.uncorrectableError part) s fun t =>
      (partOf t part).stateOf = 2 ∧ (partOf t part).halted = true ∧
      (∀ k, k ≠ part → partOf t k = partOf s k) ∧
      (∀ q u, (t.seqs.get q).run = some u → u.part ≠ part) ∧
      (∀ q, (∀ u, (s.seqs.get q).run = some u → u.part ≠ part) → t.seqs.get q = s.seqs.get q) ∧
      (∀ n ∈ t.nodes, mine n.ctx = true → n.sealed = true ∧ n.store = [] ∧ n.outs = []) ∧
      (∀ i ∈ t.instances, mine i.blk.key.ctx = false) ∧ (∀ a ∈ t.accesses, mine a.ctx = false) ∧
      (∀ j ∈ t.jobs, mine j.ctx = false) ∧ (∀ l ∈ t.l2, l.part ≠ part) ∧ (∀ e ∈ t.llc, e.part ≠ part) ∧
      ∃ e, t.blackBox.getLast? = some e ∧ e.code = 0x102 ∧ e.part = part)) ∧
  (∀ (s : State) (base set : Nat),
    let left := leftDirty s base set
    (runsTo (.llcTagParityError base set) s fun t =>
      (∀ e ∈ t.llc, e.base = base → llcSetOf (128 * e.line) ≠ set) ∧
      ∃ (n : Nat) (lost : List LlcDirty),
        (∀ e ∈ lost, e ∈ s.llc ∧ e.base = base ∧ llcSetOf (128 * e.line) = set ∧ ∀ k ∈ left, k ∈ e.since → k ∈ left.drop n) ∧
        (∀ x, isDram x = true → memGet t.mem x ≠ memGet s.mem x → (∃ e ∈ lost, x / 128 = e.line) ∨
          ∃ e ∈ s.llc, x / 128 = e.line ∧ e.part ∈ left.drop n) ∧
        ∀ k < 48,
          (k ∈ left.drop n → (partOf s k).stateOf = 1 → (partOf t k).stateOf = 2) ∧
          (k ∉ left.drop n ∨ (partOf s k).stateOf ≠ 1 → partOf t k = partOf s k)) ∧
    (runsTo (.residencyMaskError base set) s fun t => ∀ k < 48,
      (llcWaysOf s k base = 0 ∨ (partOf s k).stateOf ≠ 1 → partOf t k = partOf s k) ∧
      (llcWaysOf s k base ≠ 0 → (partOf s k).stateOf = 1 → (partOf t k).stateOf = 2)))

/-! ## The host, peers, resets -/

/-- A host access through an open entry of the aperture reads or writes the bytes at BASE plus the offset under the
entry's key; one through an entry that is not open reads all ones, writes nothing, and enters event 0x104 (R432).  While
the link retrains the host's accesses wait (R433).  A peer's read is answered with the bytes as the slot's key encrypts
them, its write stored, under the key slot it names; one that reaches beyond HBM4E and the LP6 tier, or reads under a slot
without a key, is refused (R4, R5, R80).  That such an access is refused, and what the answer carries, is the model's choice
(log 101). -/
def Obligations.HostAndPeers : Prop :=
  ∀ (s : State),
    (∀ (addr len : Nat) (bytes : List Byte), addr < 2 ^ 40 → 0 < len → addr % 2 ^ 32 + len ≤ 2 ^ 32 → bytes.length = len →
      let e := apertureOf s (addr / 2 ^ 32)
      let key := bits e 11 0
      let pa := bits e 47 32 * 2 ^ 32 + addr % 2 ^ 32
      let refused := fun (t : State) => ∃ v, t.blackBox.getLast? = some v ∧ v.code = 0x104 ∧ v.part = bits e 31 26 ∧
        v.args = [BitVec.ofNat 64 addr]
      (s.linkUp = false → exec (.hostRead addr len) s = .next s ∧ exec (.hostWrite addr bytes) s = .next s) ∧
      (s.linkUp = true → bit e 63 = true → (keyMat s key).isSome →
        (runsTo (.hostRead addr len) s fun t => t = { s with responses := s.responses ++ [.data (readSlot s key pa len)] }) ∧
        (runsTo (.hostWrite addr bytes) s fun t =>
          readSlot t key pa len = bytes ∧ t.seqs = s.seqs ∧ t.l2 = s.l2 ∧ t.responses = s.responses)) ∧
      (s.linkUp = true → bit e 63 = false ∨ keyMat s key = none →
        (runsTo (.hostRead addr len) s fun t =>
          t.responses = s.responses ++ [.data (List.replicate len 0xFF)] ∧ t.mem = s.mem ∧ refused t) ∧
        (runsTo (.hostWrite addr bytes) s fun t => t.responses = s.responses ∧ t.mem = s.mem ∧ refused t))) ∧
    (∀ up, runsTo (.linkRetrain up) s fun t => t = { s with linkUp := up }) ∧
    (∀ (port pa key len : Nat) (bytes : List Byte),
      let refused := fun (i : Instr) => exec i s = .next { s with responses := s.responses ++ [.pullRefused] }
      let out := fun (n : Nat) => isDram pa = false ∨ (0 < n ∧ isDram (pa + n - 1) = false)
      (out len ∨ keyMat s key = none → refused (.peerAccess (.read port pa key len))) ∧
      (out bytes.length → refused (.peerAccess (.write port pa key bytes))) ∧
      (isDram pa = true → 0 < len → isDram (pa + len - 1) = true → (keyMat s key).isSome →
        runsTo (.peerAccess (.read port pa key len)) s fun t =>
          t = { s with responses := s.responses ++ [.page (keyMat s key) (readSlot s key pa len) pa] }) ∧
      (isDram pa = true → 0 < bytes.length → isDram (pa + bytes.length - 1) = true →
        ((keyMat s key).isSome → runsTo (.peerAccess (.write port pa key bytes)) s fun t =>
          readSlot t key pa bytes.length = bytes ∧ t.seqs = s.seqs ∧ t.responses = s.responses) ∧
        (keyMat s key = none → exec (.peerAccess (.write port pa key bytes)) s = .next s)))

/-- A cold reset leaves every partition, key, array, sequencer and register at its reset value and keeps the secure
nonvolatile store; a warm reset keeps the records of partitions that were not FREE, in SCRUBBING, and the black box
(R407, R434, R435), and every cell of memory that no dirty line of the LLC covered (R445).  The boot ROM takes an image and
checks it, STAGE 1; then it runs one that passes its checks, measured into MEAS1 to MEAS3, and refuses any other with the error
in BSTAT, which the host reads (R435 to R437).  The firmware writes its own records and the lowest version into its area of
the store (R417).  These are the model's choice: memory kept over a warm reset (log 94), BSTAT.ERR kept after an acceptance
(log 95), and what extends MEAS3 (log 96). -/
def Obligations.ResetsAndFirmware : Prop :=
  ∀ (s : State),
    (runsTo .coldReset s fun t =>
      { t with turns := [], freeCtr := 0, tick := 0, linkUp := true, powerUps := 0, mem := [], lineTags := [], seed := 0
               minVersion := 0, fwArea := [], counters := [], responses := [] } = State.reset ∧
      t.seed = s.seed ∧ t.minVersion = s.minVersion ∧ t.fwArea = s.fwArea ∧ t.counters = s.counters ∧
      ∀ x, isFar x = false → memGet t.mem x = none) ∧
    (runsTo .warmReset s fun t =>
      t.keySlots = [] ∧ t.seqs = State.reset.seqs ∧ t.nodes = [] ∧ t.graphs = [] ∧ t.accesses = [] ∧ t.bstatStage = 0 ∧
      t.meas = State.reset.meas ∧ t.counters = s.counters ∧ t.seed = s.seed ∧ t.blackBox = s.blackBox ∧
      (s.llc = [] → t.mem = s.mem ∧ t.lineTags = s.lineTags ∧ t.powerUps = s.powerUps) ∧
      ∀ k < 48,
        ((partOf s k).stateOf = 0 → partOf t k = Partition.free) ∧
        ((partOf s k).stateOf ≠ 0 → (partOf t k).stateOf = 3 ∧ (partOf t k).scrDone = 0 ∧
          (partOf t k).tiles = (partOf s k).tiles ∧ (partOf t k).quads = (partOf s k).quads ∧
          (partOf t k).keys = (partOf s k).keys ∧ (partOf t k).ctxBase = (partOf s k).ctxBase ∧
          (partOf t k).ctxLast = (partOf s k).ctxLast)) ∧
    (∀ (i : Instr) (img : List Byte), s.serving = some i → i ≠ .firmwareImage img →
      exec (.firmwareImage img) s = .next s) ∧
    (∀ img : List Byte, s.serving = none → s.bstatStage = 0 ∨ s.bstatStage = 3 →
      exec (.firmwareImage img) s = .next { s with bstatStage := 1, serving := some (.firmwareImage img) }) ∧
    (runsTo .coldReset s fun t => (readBstat t).responses = t.responses ++ [.bstat 0]) ∧
    readBstat s = { s with responses := s.responses ++ [.bstat (BitVec.ofNat 64 (s.bstatErr * 256 + s.bstatStage))] } ∧
    (∀ lowest off bytes, s.bstatStage = 2 → off + bytes.length ≤ 32736 →
      let t := firmwareWrites s lowest off bytes
      { t with minVersion := s.minVersion, fwArea := s.fwArea } = s ∧ t.minVersion = lowest.getD s.minVersion ∧
      ∀ k, (t.fwArea.find? fun e => e.1 == k).map Prod.snd =
        if off ≤ k ∧ k < off + bytes.length then bytes[k - off]? else (s.fwArea.find? fun e => e.1 == k).map Prod.snd) ∧
    (∀ img : List Byte, s.serving = some (.firmwareImage img) → s.bstatStage = 1 →
      (∀ e, imageRefusal s img = some e →
        runsTo (.firmwareImage img) s fun t => t = { s with bstatErr := e, bstatStage := 3, serving := none }) ∧
      (imageRefusal s img = none →
        let ext := fun (i : Fin 8) (d : List Byte) =>
          BitVec.ofNat 256 (ofBytes (sha256 (toBytes 32 (s.meas.get i).toNat ++ d)))
        runsTo (.firmwareImage img) s fun t =>
          t.bstatStage = 2 ∧ t.bstatErr = s.bstatErr ∧ t.fwVersion = BitVec.ofNat 32 (fieldOf img 4 4) ∧
          { t with meas := s.meas, bstatStage := s.bstatStage, fwVersion := s.fwVersion, serving := s.serving } = s ∧ t.serving = none ∧
          t.meas.get 0 = ext 0 (toBytes 32 Config.bootRomDigest.toNat) ∧
          t.meas.get 1 = ext 1 (sha256 (img.take (img.length - 64))) ∧
          t.meas.get 2 = ext 2 (sha256 (sliceOf img 4 4 ++ toBytes 4 s.minVersion.toNat)))) ∧
    (∀ img : List Byte, s.bstatStage = 2 → exec (.firmwareImage img) s = .next s)

/-! ## The management core -/

/-- What each request changes when the core serves it, with its acceptance, and that one not served is refused and
changes nothing: requests are served one at a time in arrival order, so behind one that waits another stands; a partition is
destroyed that is SCRUBPEND, and no other (R112, R369, R375, R405, R407, R412, R414, R426, R431, R432, R438, R439).  A key is loaded
that unwraps under the seal key and has unlike halves (R412).  These are the model's choice: HEAD and TAIL 0 and ERR clear at a write of
a queue's registers (log 97), that SCRUBPEND alone may be destroyed (log 98), the wait for a ring's page (log 27), a slice set during a
cut (log 99), and the key that ECDH gives for the wrap, which is free (log 73). -/
def Obligations.ManagementRequests : Prop :=
  (∀ (s : State) (j : Instr), s.serving = some j →
    ∀ (r : CreateReq) (part slot i cycles watts : Nat) (key : WrappedKey) (ctl : Bool) (v : Word) (ctx : BitVec 12),
      ∀ x ∈ [Instr.partitionCreate r, .partitionDestroy part, .keyLoad slot part key, .bucketWrite i v, .queueRegisterWrite part i ctl v,
          .admissionRegisterWrite part v, .apertureWrite i v, .sliceSet ctx cycles, .restoreStart ctx, .lendRelease v, .summary,
          .blackBoxRead i part, .powerLimitSet watts, .warmResetRequest, .peerKeyReport part i, .managementRequestRefused i],
        j ≠ x → exec x s = .next s) ∧
  (∀ (s : State) (part q : Nat) (ctl : Bool) (v : Word), let i := Instr.queueRegisterWrite part q ctl v
    s.bstatStage = 2 → s.serving = none ∨ s.serving = some i →
      let h := holdRings s (s.queues.filter fun x => x.part == part && x.valid && x.q == q)
      (h.2 = false → exec i s = .next { h.1 with serving := some i }) ∧
      (h.2 = true → queueWriteOk h.1 part q ctl v = false →
        exec i s = .next { s with serving := none, responses := s.responses ++ [.refused 3] }) ∧
      (h.2 = true → queueWriteOk h.1 part q ctl v = true → runsTo i s fun t =>
        t.responses = s.responses ++ [.accepted 3] ∧ t.serving = none ∧
        (let x := queueOf s part q
         (ctl = false → queueOf t part q = { x with qbase := v, head := 0, tail := 0, stop := none }) ∧
         (ctl = true → (queueOf t part q).qctl = v &&& ~~~(1#64 <<< 56) ∧ (queueOf t part q).qbase = x.qbase) ∧
         ∀ k j, (k, j) ≠ (part, q) → queueOf t k j = queueOf s k j))) ∧
  ∀ (s : State), s.serving = none →
    let served := fun (i : Instr) (code : Nat) (P : State → Prop) =>
      runsTo i s fun t => t.responses = s.responses ++ [.accepted code] ∧ P t
    let refused := fun (i : Instr) (code : Nat) => exec i s = .next { s with responses := s.responses ++ [.refused code] }
    (s.bstatStage ≠ 2 → ∀ (r : CreateReq) (part slot i cycles watts : Nat) (key : WrappedKey) (ctl : Bool) (v : Word)
        (ctx : BitVec 12),
      refused (.partitionCreate r) 1 ∧ refused (.partitionDestroy part) 1 ∧ refused (.keyLoad slot part key) 2 ∧
      refused (.bucketWrite i v) 3 ∧ refused (.queueRegisterWrite part i ctl v) 3 ∧
      refused (.admissionRegisterWrite part v) 3 ∧ refused (.apertureWrite i v) 4 ∧ refused (.sliceSet ctx cycles) 5 ∧
      refused (.lendRelease v) 7 ∧ refused .summary 8 ∧ refused (.blackBoxRead i part) 9 ∧ refused (.powerLimitSet watts) 10 ∧
      refused .warmResetRequest 11 ∧ refused (.peerKeyReport part i) 12 ∧ refused (.managementRequestRefused i) i) ∧
    (s.bstatStage = 2 →
      (∀ r, createOk s r = true → served (.partitionCreate r) 1 fun t =>
        let p := partOf t r.part
        p.stateOf = 1 ∧ p.ctxtab = r.ctxtab ∧ p.tiles = r.tiles ∧ p.quads = r.quads ∧ p.seqs = r.seqs ∧ p.llcWays = r.llcWays ∧
        p.pchs = r.pchs ∧ p.lp6 = r.lp6 ∧ p.keys = r.keys ∧ p.ctrs = r.ctrs ∧ p.blim = 8 ∧
        (∀ k, k ≠ r.part → partOf t k = partOf s k) ∧ ∀ a ∈ partArrays p, (arrayOf t a).owner = r.part) ∧
      (∀ r, createOk s r = false → refused (.partitionCreate r) 1) ∧
      (∀ part,
        ((partOf s part).stateOf = 2 → served (.partitionDestroy part) 1 fun t => (partOf t part).stateOf = 3 ∧
          (partOf t part).scrDone = 0 ∧ ∀ k, k ≠ part → partOf t k = partOf s k) ∧
        ((partOf s part).stateOf ≠ 2 → refused (.partitionDestroy part) 1)) ∧
      (∀ slot part (w : WrappedKey),
        (ecdh (Config.sealKey s.seed) w.epub = none → refused (.keyLoad slot part w) 2) ∧
        ∀ z, ecdh (Config.sealKey s.seed) w.epub = some z →
          let kek := Config.keyLoadKek z w.epub
          let key := BitVec.ofNat 512 (ofBytes (gcmCrypt kek.1 kek.2 w.wrapped))
          let ok := slot < 4096 ∧ (partOf s part).stateOf = 1 ∧ (partOf s part).keys.getLsbD slot = true ∧
            w.wrapped.length = 64 ∧ gcmTagOf kek.1 kek.2 [] w.wrapped = w.tag ∧ key.extractLsb' 0 256 ≠ key.extractLsb' 256 256
          (ok → served (.keyLoad slot part w) 2 fun t => keyState t slot = .loaded ∧ keyMat t slot = some key ∧
            ∀ j, j ≠ slot → keyState t j = keyState s j ∧ keyMat t j = keyMat s j) ∧
          (¬ok → refused (.keyLoad slot part w) 2)) ∧
      (∀ i v,
        let ok := i < 256 ∧ bits v 62 48 = 0 ∧ bits v 15 6 = 0 ∧ bits v 31 16 ≤ 16384 ∧
          (bit v 63 = true → 1 ≤ bits v 47 32) ∧ rateSum s i v ≤ 16384
        (ok → served (.bucketWrite i v) 3 fun t => bucketEntry t i = v ∧ ∀ j, j ≠ i → bucketEntry t j = bucketEntry s j) ∧
        (¬ok → refused (.bucketWrite i v) 3)) ∧
      (∀ part v,
        (part < 48 → 1 ≤ v.toNat → v.toNat ≤ 255 → served (.admissionRegisterWrite part v) 3 fun t =>
          partOf t part = { partOf s part with blim := v } ∧ ∀ k, k ≠ part → partOf t k = partOf s k) ∧
        (48 ≤ part ∨ v = 0 ∨ 255 < v.toNat → refused (.admissionRegisterWrite part v) 3)) ∧
      (∀ i v,
        let ok := i < 256 ∧ bits v 62 48 = 0 ∧ bits v 25 12 = 0 ∧ (bit v 63 = true → isDram (bits v 47 32 * 2 ^ 32) = true)
        (ok → served (.apertureWrite i v) 4 fun t => apertureOf t i = v ∧ ∀ j, j ≠ i → apertureOf t j = apertureOf s j) ∧
        (¬ok → refused (.apertureWrite i v) 4)) ∧
      (∀ ctx cycles, partOfCtx s ctx = none → refused (.sliceSet ctx cycles) 5) ∧
      (∀ ctx cycles, (partOfCtx s ctx).isSome → served (.sliceSet ctx cycles) 5 fun t =>
        (cutOf s ctx = none → (ctx, cycles) ∈ t.slices ∧ t.slicePend = s.slicePend) ∧
        ((cutOf s ctx).isSome → (ctx, cycles) ∈ t.slicePend ∧ t.slices = s.slices)) ∧
      (∀ id l part, s.lends.find? (fun l => l.lendId == id) = some l → partOfCtx s l.ctx = some part →
        (keyMat s (partOf s part).tkey).isSome →
        served (.lendRelease id) 7 fun t => t.lends = s.lends.erase l ∧ ctxState t part l.ctx = 2) ∧
      (∀ id, (∀ l ∈ s.lends, l.lendId ≠ id) → refused (.lendRelease id) 7))

/-- SUMMARY reads its eight sections item by item, each of 64 bytes and as it stands at its moment, then answers, and changes
nothing else of the package; a read of the black box answers with the bytes of its events; a power limit of at most 3,600 W is
set; a warm reset request resets; a peer key report names its counter and the counter's value; and a request code that the
table does not assign is refused (R421, R434, R438, R440, R441, R443).  What the 64 bytes of an item of SUMMARY hold, and where,
is the model's choice (log 144).

The SPDM sequence: GET_VERSION begins it, GET_CAPABILITIES and NEGOTIATE_ALGORITHMS follow in order, and the requests
that need the whole of it are answered only then; CHALLENGE, and GET_MEASUREMENTS where a signature is asked for, end in a
signature over the transcript; a request of another code is unsupported; and SPDM_CARRY serves a request by its code
(R420, R437).  The bytes of the messages and the codes 4, 1 and 0x7F are not in the spec: they are presumed (log 100). -/
def Obligations.ReportsAndSpdm : Prop :=
  (∀ (s : State), s.bstatStage = 2 → s.serving = none ∨ s.serving = some .summary →
     let done := if s.summary = [] then [[]] else s.summary
     let now := done.getLastD []
     let item := (sectionItems s (done.length - 1))[now.length]?
     (∀ x, item = some x →
       exec .summary s = .next { s with summary := done.dropLast ++ [now ++ [x]], serving := some .summary }) ∧
     (item = none → done.length < 8 → exec .summary s = .next { s with summary := done ++ [[]], serving := some .summary }) ∧
     (item = none → 8 ≤ done.length →
       exec .summary s = .next { s with summary := [], serving := none, responses := s.responses ++ [.summary done] })) ∧
  (∀ (s : State),
     let words := fun (ws : List Word) => ((ws.flatMap fun (w : Word) => toBytes 8 w.toNat) ++ List.replicate 64 0).take 64
     (∀ k, ∀ x ∈ sectionItems s k, x.length = 64) ∧
     (∀ p < 48, (sectionItems s 0)[p]? = some (words [(partOf s p).pctl, (partOf s p).scrTotal ++ (partOf s p).scrDone])) ∧
     (∀ p < 48, ∀ q < 16, let x := queueOf s p q
       (sectionItems s 1)[16 * p + q]? = some (words [x.qctl, BitVec.ofNat 64 x.head, BitVec.ofNat 64 x.tail])) ∧
     (∀ p < 48, (partOf s p).stateOf ≠ 0 → ∀ c, (partOf s p).ctxBase ≤ c → c ≤ (partOf s p).ctxLast →
       words [descWord s p (BitVec.ofNat 12 c) 0x20] ∈ sectionItems s 2) ∧
     (∀ g ∈ s.graphs, g.retired = false →
       (g.recs = [] → words [frec3Of g 0] ∈ sectionItems s 3) ∧
       ∀ i r, g.recs[i]? = some r → words (r.words ++ [frec3Of g (g.recs.length - 1 - i)]) ∈ sectionItems s 3) ∧
     (∀ p < 48, (partOf s p).stateOf = 3 →
       words [BitVec.ofNat 64 p, (partOf s p).scrTotal ++ (partOf s p).scrDone] ∈ sectionItems s 4) ∧
     (∀ p < 48, (partOf s p).stateOf ≠ 0 → ∀ i < 4096, (partOf s p).ctrs.getLsbD i = true →
       words [BitVec.ofNat 64 i, counterOf s i] ∈ sectionItems s 5) ∧
     (∀ src, src = 0 ∨ (256 ≤ src ∧ src < 320) ∨ (512 ≤ src ∧ src < 516) ∨ (768 ≤ src ∧ src < 776) ∨ src = 1024 →
       words [BitVec.ofNat 64 src, (sseqOf s src).setWidth 64] ∈ sectionItems s 6) ∧
     sectionItems s 7 = [words [BitVec.ofNat 64 s.powerLimit, BitVec.ofNat 64 s.trimmed]]) ∧
  (∀ (e : BlackBox), let b := e.bytes
     b.length = 64 ∧ fieldOf b 0 4 = e.sseq.toNat ∧ fieldOf b 4 2 = e.src % 65536 ∧ fieldOf b 6 2 = e.code % 65536 ∧
     fieldOf b 8 1 = e.part % 256 ∧ fieldOf b 9 1 = 0 ∧ fieldOf b 10 2 = e.ctx % 65536 ∧ fieldOf b 12 4 = 0 ∧
     fieldOf b 16 8 = e.lcyc.toNat ∧ ∀ i < 5, fieldOf b (24 + 8 * i) 8 = ((e.args[i]?).getD 0).toNat) ∧
  (∀ (s : State), s.bstatStage = 2 → s.serving = none →
     let answers := fun (i : Instr) (r : Response) => runsTo i s fun t => t = { s with responses := s.responses ++ [r] }
     (∀ first count, answers (.blackBoxRead first count) (.events (((s.blackBox.drop first).take count).map BlackBox.bytes))) ∧
     (∀ watts,
       (watts ≤ 3600 → runsTo (.powerLimitSet watts) s fun t =>
         t = { s with powerLimit := watts, responses := s.responses ++ [.accepted 10] }) ∧
       (3600 < watts → answers (.powerLimitSet watts) (.refused 10))) ∧
     (∃ w, exec .warmReset s = .next w ∧
       exec .warmResetRequest s = .next { w with responses := w.responses ++ [.accepted 11] }) ∧
     (∀ part ctr,
       (ctr < 4096 → (partOf s part).ctrs.getLsbD ctr = true → runsTo (.peerKeyReport part ctr) s fun t =>
         ∃ b, t = { s with responses := s.responses ++ [.report b], freeCtr := s.freeCtr + 1 } ∧
           fieldOf b 0 4 = 0x31524B50 ∧ fieldOf b 4 2 = ctr ∧ fieldOf b 6 2 = 0 ∧ fieldOf b 8 8 = (counterOf s ctr).toNat) ∧
       (4096 ≤ ctr ∨ (partOf s part).ctrs.getLsbD ctr = false → answers (.peerKeyReport part ctr) (.refused 12))) ∧
     (∀ code, code = 0 ∨ 13 < code → answers (.managementRequestRefused code) (.refused code))) ∧
  (∀ (s : State) (req : List Byte), s.bstatStage = 2 → s.serving = none →
     let offers := 32 ≤ req.length ∧ fieldOf req 6 1 % 2 = 1 ∧ fieldOf req 8 4 / 16 % 2 = 1 ∧ fieldOf req 12 4 % 2 = 1
     let answered := fun (i : Instr) (code : Nat) (phase : SpdmPhase) (log : List Byte) (P : List Byte → Prop) =>
       runsTo i s fun t => ∃ body, P body ∧ t.responses = s.responses ++ [.spdm code body] ∧ t.spdm = phase ∧
         t.spdmLog = log ++ req ++ body ∧ t.mem = s.mem ∧ t.seqs = s.seqs
     let errs := fun (i : Instr) (e : Byte) =>
       runsTo i s fun t => t = { s with responses := s.responses ++ [.spdm 0x7F [0x12, 0x7F, e, 0]] }
     let signed := fun (body : List Byte) => ∃ msg ctr, body = msg ++
       ecdsaSign (Config.deviceKey s.seed) (randomScalar ctr) (sha256 (s.spdmLog ++ req ++ msg))
     answered (.getVersion req) 0x04 .version [] (fun _ => True) ∧
     (s.spdm = .version → answered (.getCapabilities req) 0x61 .capabilities s.spdmLog (fun _ => True)) ∧
     (s.spdm ≠ .version → errs (.getCapabilities req) 4) ∧
     (s.spdm = .capabilities →
       (offers → answered (.negotiateAlgorithms req) 0x63 .algorithms s.spdmLog (fun _ => True)) ∧
       (¬offers → errs (.negotiateAlgorithms req) 1)) ∧
     (s.spdm ≠ .capabilities → errs (.negotiateAlgorithms req) 4) ∧
     (s.spdm = .algorithms →
       answered (.getDigests req) 0x01 .algorithms s.spdmLog (fun b => b.drop 4 = sha256 Config.certificateChain) ∧
       (fieldOf req 2 1 % 16 = 0 → answered (.getCertificate req) 0x02 .algorithms s.spdmLog fun b =>
         b.drop 8 = (Config.certificateChain.drop (fieldOf req 4 2)).take (min (fieldOf req 6 2) 4096)) ∧
       (fieldOf req 2 1 = 0 → answered (.challenge req) 0x03 .algorithms s.spdmLog signed) ∧
       (fieldOf req 3 1 ≤ 8 ∨ fieldOf req 3 1 = 0xFF →
         answered (.getMeasurements req) 0x60 .algorithms s.spdmLog fun b => fieldOf req 2 1 % 2 = 1 → signed b)) ∧
     (s.spdm ≠ .algorithms → errs (.getDigests req) 4 ∧ errs (.getCertificate req) 4 ∧ errs (.challenge req) 4 ∧
       errs (.getMeasurements req) 4) ∧
     (fieldOf req 1 1 ∉ [0x84, 0xE1, 0xE3, 0x81, 0x82, 0x83, 0xE0] →
       errs (.spdmUnsupportedRequest req) 7 ∧ errs (.spdmCarry req) 7) ∧
     (∀ x ∈ [(0x84, Instr.getVersion req), (0xE1, .getCapabilities req), (0xE3, .negotiateAlgorithms req),
         (0x81, .getDigests req), (0x82, .getCertificate req), (0x83, .challenge req), (0xE0, .getMeasurements req)],
       fieldOf req 1 1 = x.1 → exec (.spdmCarry req) s = exec x.2 s))

/-! ## Decoding and the step -/

/-- Words of several families, written out bit by bit from R31 to R38 and R291, decode to what they stand for. -/
def Obligations.WordsDecode : Prop :=
  decodeSeq 0b00100000_000101_000011_111111111000#32 0 = .ok (.addi 5 3 (-8)) ∧
  decodeSeq 0b00000000_000111_000111_000110_000000#32 0 = .ok (.add 7 7 6) ∧
  decodeSeq 0b01000001_0010_1_1111111111111111101#32 0 = .ok (.bc 2 1 (-3)) ∧
  decodeSeq 0b01000101_000110_000000_111111111111#32 0 = .ok (.loop 6 (-1)) ∧
  decodeSeq 0b11000010_000010_000000_010000010011#32 0 = .ok (.csrr 2 0x413) ∧
  decodeSeq 0b11000001_000000_000000_000000_000000#32 0 = .ok .eret ∧
  decodeSeq 0b11100000_000101_000011_000110_001001#32 0x40#32 = .ok (.ldsLong 6 5 3 { ord := 1, scope := 1 } 0x40) ∧
  decodeElem 0b00100000_1001_0000_1010_000000000000_0000000000000000_1011101100000000#64 =
    some (.fadd { ty := 9, mod := 0, t0 := 0b1010000000000000, t1 := 0, x := 0xBB00 }) ∧
  decodeElem 0x9300000000000000#64 = some (.tzero { ty := 0, mod := 0, t0 := 0, t1 := 0, x := 0 })

/-- Encoding and decoding agree, over every operand that an encoding admits: what a well-formed sequencer or element
instruction encodes to decodes to it, and a word that decodes encodes back to itself, so that no bit of a word is
dropped (R30 to R39). -/
def Obligations.EncodingsRoundTrip : Prop :=
  (∀ (ver : Nat) (i : Instr) (w : BitVec 32) (pl : Option (BitVec 32)),
    i.wf ver = true → encodeSeq i = some (w, pl) → decodeSeq w (pl.getD 0) = .ok i ∧ isQX w = pl.isSome) ∧
  (∀ (i : Instr) (w pl : BitVec 32),
    decodeSeq w pl = .ok i → encodeSeq i = some (w, if isQX w then some pl else none)) ∧
  (∀ (i : Instr) (w : BitVec 64), encodeElem i = some w → decodeElem w = some i) ∧
  (∀ (i : Instr) (w : BitVec 64), decodeElem w = some i → encodeElem i = some w)

/-- A step runs the decoded instruction: a sequencer whose words decode to a well-formed instruction that waits for no
load executes it, its words held till it is done, and a word of no instruction enters the handler with ILLOP; a CWEMPTY and
a fabric record that wait are taken before the next instruction, and a unit that a cut holds goes on only where its next
instruction is a MARK; a node executes the word of the slot that it fires; an event of the schedule happens; and the words
are the bytes at the pc, once the request port has admitted the fetch, the payload of a QX word after it (R4, R30, R42, R43,
R76, R112, R120, R197, R384, R387, R390, R395, R403).  That an instruction which waits stands while a record is on its way to the
root of its graph is the model's choice (log 148). -/
def Obligations.StepRunsTheInstruction : Prop :=
  (∀ (s s1 : State) (q : SeqId) (rest : List Turn) (u : UnitRec) (w pl : BitVec 32),
    s.powered = true → s.turns = .seq q :: rest →
    let s0 := { s with turns := rest, cur := q }
    (s0.seqs.get q).run = some u → (s0.seqs.get q).wait = .none →
    (heldByCut s0 q = true → marksNext s0 q = false → step s = .next s0) ∧
    (heldByCut s0 q = true → marksNext s0 q = true → ∀ d k, fetchInstr s0 q u = (s1, .words w pl) → s1.cur = q →
      let s2 := s1.updCpu fun c => c.hold w pl
      decodeSeq w pl = .ok (.mark d k) → seqOk u.ver (.mark d k) = true → hazard s2 q (.mark d k) = false →
        step s = exec (.mark d k) s2) ∧
    (heldByCut s0 q = false →
    (∀ r, atBoundary s0 q = true → cwemptyFor s0 q = some r → step s = .next (deliverCwempty s0 q r)) ∧
    (atBoundary s0 q = false ∨ cwemptyFor s0 q = none →
      (∀ g, recordFor s0 q u = some g → step s = exec (.fabricTrap g.ctx g.handle) s0) ∧
      (recordFor s0 q u = none → fetchInstr s0 q u = (s1, .words w pl) → s1.cur = q →
        let s2 := s1.updCpu fun c => c.hold w pl
        (∀ i, decodeSeq w pl = .ok i → seqOk u.ver i = true → hazard s2 q i = false → awaitsRecord s2 u i = false →
          step s = exec i s2) ∧
        (∀ i, decodeSeq w pl = .ok i → seqOk u.ver i = true → hazard s2 q i = true ∨ awaitsRecord s2 u i = true →
          step s = .next s2) ∧
        ((∃ e, decodeSeq w pl = .error e) ∨ (∃ i, decodeSeq w pl = .ok i ∧ seqOk u.ver i = false) → handlerReady s2 →
          ∃ t, step s = .next t ∧ entersHandler s2 t 0x01 0 s2.cpu.pc (if isQX w then pl ++ w else w.setWidth 64) none))))) ∧
  (∀ (s : State) (q : SeqId) (u : UnitRec) (p : Part), (s.seqs.get q).ahead = [] → fencePending s q = false →
    let pc := (s.seqs.get q).pc
    let byte := fun (k : Nat) => (memGet s.mem (p.pa + k)).getD 0
    let w := byte 3 ++ byte 2 ++ byte 1 ++ byte 0
    ∀ s1, translate s (.seq q) u.ctx u.part (q.val / 16) pc.toNat 4 false false false = (s1, .ok [p]) → p.n = 4 → p.pa % 4 = 0 →
    inArrays p.pa = true →
      let ask := s1.portReqs.find? fun r => r.holder == .seq q && r.va == pc.toNat
      (∀ r, ask = some r → r.unpaid ≠ [] → fetchInstr s q u = (s1, .wait)) ∧
      (ask = none → fetchInstr s q u = ({ s1 with
        portReqs := s1.portReqs ++ [{ id := s1.nextAcc, holder := .seq q, va := pc.toNat, ctx := u.ctx, part := u.part
                                      die := q.val / 16, unpaid := [p.pa / 128] }]
        nextAcc := s1.nextAcc + 1 }, .wait)) ∧
      (∀ r, ask = some r → r.unpaid = [] → isQX w = false →
        fetchInstr s q u = ({ s1 with portReqs := s1.portReqs.erase r }, .words w 0))) ∧
  (∀ (s : State) (q : SeqId) (u : UnitRec) (w pl : BitVec 32), let pc := (s.seqs.get q).pc
    (s.seqs.get q).ahead = [(pc, w), (pc + 4, pl)] → fetchInstr s q u = (s, .words w (if isQX w then pl else 0))) ∧
  (∀ (s : State) (site x : Site) (rest : List Turn) (n : Node) (i : Instr), s.powered = true → s.turns = .node site :: rest →
    nodeOf s site.node = some n → firingSite { s with turns := rest } n site = some x → decodeElem (n.word x.slot) = some i →
    step s = exec i { s with turns := rest, site := x }) ∧
  (∀ (s : State) (rest : List Turn) (i : Instr), s.powered = true → s.turns = .event i :: rest → encode i = [] →
    step s = exec i { s with turns := rest })

/-! ## The whole machine -/

/-- The list of bytes keeps its canonical form in every step, whatever the step does. -/
def Obligations.StepKeepsMemoryCanonical : Prop :=
  ∀ s t : State, MemoryCanonical s → step s = .next t → MemoryCanonical t

/-- A counter never goes down (R418). -/
def Obligations.CountersNeverFall : Prop :=
  ∀ (s t : State) (k : Nat), step s = .next t → (counterOf s k).toNat ≤ (counterOf t k).toNat

/-- Right after reset the memory is in its canonical form; every partition is FREE with BLIM 8, every array OFF and
unassigned, every key slot EMPTY, every bucket and aperture entry free, every queue and aperture invalid; the boot ROM
waits for an image; no measurement has been made; and every sequencer is idle with its trap CSRs at their reset values
(R86, R112, R369, R375, R384, R407, R412, R432, R435 to R437, R443). -/
def Obligations.ResetState : Prop :=
  let s := State.reset
  MemoryCanonical s ∧ s.mem = [] ∧
  (∀ k, (partOf s k).stateOf = 0 ∧ (partOf s k).blim = 8) ∧
  (∀ r, (arrayOf s r).mode = .off ∧ (arrayOf s r).owner = 0x3F ∧ (arrayOf s r).busy = false) ∧
  (∀ k, keyState s k = .empty ∧ keyMat s k = none) ∧
  (∀ i, bits (bucketEntry s i) 5 0 = 0x3F ∧ bit (bucketEntry s i) 63 = false) ∧
  (∀ i, bits (apertureOf s i) 31 26 = 0x3F ∧ bit (apertureOf s i) 63 = false) ∧
  (∀ part q, (queueOf s part q).valid = false) ∧
  s.bstatStage = 0 ∧ s.bstatErr = 0 ∧ s.fwVersion = 0 ∧ (∀ i, s.meas.get i = 0) ∧ s.powerLimit = 3600 ∧ s.blackBox = [] ∧
  (∀ q, let c := s.seqs.get q
    c.run = none ∧ c.h = false ∧ c.tvec = 0 ∧ c.epc = 0 ∧ c.ecode = 0 ∧ c.ctag = 0 ∧ c.ctagf = 0 ∧ c.ctbusy = 0 ∧ c.depth = 0)
end

