-- ==== Sys2Proof/Laws/State.lean ====
section
/-! SUPPORT. What each update leaves and gives: one lemma per field and update, and the registers, predicates and
sequencers read after a write. -/

namespace Sys2Proof.Machine

/-! ## A vector read at a place -/

theorem get_eq_getElem {α : Type} {n : Nat} (v : Vector α n) (i : Fin n) : v.get i = v[i.val] := rfl

/-! ## Updates of State -/

@[simp] theorem State.updSeq_turns (s : State) (q : SeqId) (f : Seq → Seq) : (s.updSeq q f).turns = s.turns := rfl
@[simp] theorem State.updSeq_cur (s : State) (q : SeqId) (f : Seq → Seq) : (s.updSeq q f).cur = s.cur := rfl
@[simp] theorem State.updSeq_site (s : State) (q : SeqId) (f : Seq → Seq) : (s.updSeq q f).site = s.site := rfl
@[simp] theorem State.updSeq_freeCtr (s : State) (q : SeqId) (f : Seq → Seq) : (s.updSeq q f).freeCtr = s.freeCtr := rfl
@[simp] theorem State.updSeq_tick (s : State) (q : SeqId) (f : Seq → Seq) : (s.updSeq q f).tick = s.tick := rfl
@[simp] theorem State.updSeq_powered (s : State) (q : SeqId) (f : Seq → Seq) : (s.updSeq q f).powered = s.powered := rfl
@[simp] theorem State.updSeq_powerUps (s : State) (q : SeqId) (f : Seq → Seq) : (s.updSeq q f).powerUps = s.powerUps := rfl
@[simp] theorem State.updSeq_linkUp (s : State) (q : SeqId) (f : Seq → Seq) : (s.updSeq q f).linkUp = s.linkUp := rfl
@[simp] theorem State.updSeq_mem (s : State) (q : SeqId) (f : Seq → Seq) : (s.updSeq q f).mem = s.mem := rfl
@[simp] theorem State.updSeq_lineTags (s : State) (q : SeqId) (f : Seq → Seq) : (s.updSeq q f).lineTags = s.lineTags := rfl
@[simp] theorem State.updSeq_llc (s : State) (q : SeqId) (f : Seq → Seq) : (s.updSeq q f).llc = s.llc := rfl
@[simp] theorem State.updSeq_residency (s : State) (q : SeqId) (f : Seq → Seq) : (s.updSeq q f).residency = s.residency := rfl
@[simp] theorem State.updSeq_l2 (s : State) (q : SeqId) (f : Seq → Seq) : (s.updSeq q f).l2 = s.l2 := rfl
@[simp] theorem State.updSeq_l1 (s : State) (q : SeqId) (f : Seq → Seq) : (s.updSeq q f).l1 = s.l1 := rfl
@[simp] theorem State.updSeq_arrays (s : State) (q : SeqId) (f : Seq → Seq) : (s.updSeq q f).arrays = s.arrays := rfl
@[simp] theorem State.updSeq_conversions (s : State) (q : SeqId) (f : Seq → Seq) : (s.updSeq q f).conversions = s.conversions := rfl
@[simp] theorem State.updSeq_bucketEntries (s : State) (q : SeqId) (f : Seq → Seq) : (s.updSeq q f).bucketEntries = s.bucketEntries := rfl
@[simp] theorem State.updSeq_buckets (s : State) (q : SeqId) (f : Seq → Seq) : (s.updSeq q f).buckets = s.buckets := rfl
@[simp] theorem State.updSeq_portReqs (s : State) (q : SeqId) (f : Seq → Seq) : (s.updSeq q f).portReqs = s.portReqs := rfl
@[simp] theorem State.updSeq_portTurn (s : State) (q : SeqId) (f : Seq → Seq) : (s.updSeq q f).portTurn = s.portTurn := rfl
@[simp] theorem State.updSeq_tlb (s : State) (q : SeqId) (f : Seq → Seq) : (s.updSeq q f).tlb = s.tlb := rfl
@[simp] theorem State.updSeq_latched (s : State) (q : SeqId) (f : Seq → Seq) : (s.updSeq q f).latched = s.latched := rfl
@[simp] theorem State.updSeq_walkCache (s : State) (q : SeqId) (f : Seq → Seq) : (s.updSeq q f).walkCache = s.walkCache := rfl
@[simp] theorem State.updSeq_walks (s : State) (q : SeqId) (f : Seq → Seq) : (s.updSeq q f).walks = s.walks := rfl
@[simp] theorem State.updSeq_walkTurn (s : State) (q : SeqId) (f : Seq → Seq) : (s.updSeq q f).walkTurn = s.walkTurn := rfl
@[simp] theorem State.updSeq_walkFaults (s : State) (q : SeqId) (f : Seq → Seq) : (s.updSeq q f).walkFaults = s.walkFaults := rfl
@[simp] theorem State.updSeq_cows (s : State) (q : SeqId) (f : Seq → Seq) : (s.updSeq q f).cows = s.cows := rfl
@[simp] theorem State.updSeq_cwempties (s : State) (q : SeqId) (f : Seq → Seq) : (s.updSeq q f).cwempties = s.cwempties := rfl
@[simp] theorem State.updSeq_pulls (s : State) (q : SeqId) (f : Seq → Seq) : (s.updSeq q f).pulls = s.pulls := rfl
@[simp] theorem State.updSeq_pullsSent (s : State) (q : SeqId) (f : Seq → Seq) : (s.updSeq q f).pullsSent = s.pullsSent := rfl
@[simp] theorem State.updSeq_accesses (s : State) (q : SeqId) (f : Seq → Seq) : (s.updSeq q f).accesses = s.accesses := rfl
@[simp] theorem State.updSeq_nextAcc (s : State) (q : SeqId) (f : Seq → Seq) : (s.updSeq q f).nextAcc = s.nextAcc := rfl
@[simp] theorem State.updSeq_jobs (s : State) (q : SeqId) (f : Seq → Seq) : (s.updSeq q f).jobs = s.jobs := rfl
@[simp] theorem State.updSeq_pchs (s : State) (q : SeqId) (f : Seq → Seq) : (s.updSeq q f).pchs = s.pchs := rfl
@[simp] theorem State.updSeq_waggle (s : State) (q : SeqId) (f : Seq → Seq) : (s.updSeq q f).waggle = s.waggle := rfl
@[simp] theorem State.updSeq_nodes (s : State) (q : SeqId) (f : Seq → Seq) : (s.updSeq q f).nodes = s.nodes := rfl
@[simp] theorem State.updSeq_tiles (s : State) (q : SeqId) (f : Seq → Seq) : (s.updSeq q f).tiles = s.tiles := rfl
@[simp] theorem State.updSeq_streams (s : State) (q : SeqId) (f : Seq → Seq) : (s.updSeq q f).streams = s.streams := rfl
@[simp] theorem State.updSeq_instances (s : State) (q : SeqId) (f : Seq → Seq) : (s.updSeq q f).instances = s.instances := rfl
@[simp] theorem State.updSeq_partials (s : State) (q : SeqId) (f : Seq → Seq) : (s.updSeq q f).partials = s.partials := rfl
@[simp] theorem State.updSeq_graphs (s : State) (q : SeqId) (f : Seq → Seq) : (s.updSeq q f).graphs = s.graphs := rfl
@[simp] theorem State.updSeq_tensors (s : State) (q : SeqId) (f : Seq → Seq) : (s.updSeq q f).tensors = s.tensors := rfl
@[simp] theorem State.updSeq_launches (s : State) (q : SeqId) (f : Seq → Seq) : (s.updSeq q f).launches = s.launches := rfl
@[simp] theorem State.updSeq_phases (s : State) (q : SeqId) (f : Seq → Seq) : (s.updSeq q f).phases = s.phases := rfl
@[simp] theorem State.updSeq_jobRecs (s : State) (q : SeqId) (f : Seq → Seq) : (s.updSeq q f).jobRecs = s.jobRecs := rfl
@[simp] theorem State.updSeq_barriers (s : State) (q : SeqId) (f : Seq → Seq) : (s.updSeq q f).barriers = s.barriers := rfl
@[simp] theorem State.updSeq_queues (s : State) (q : SeqId) (f : Seq → Seq) : (s.updSeq q f).queues = s.queues := rfl
@[simp] theorem State.updSeq_tailWatch (s : State) (q : SeqId) (f : Seq → Seq) : (s.updSeq q f).tailWatch = s.tailWatch := rfl
@[simp] theorem State.updSeq_roundRobin (s : State) (q : SeqId) (f : Seq → Seq) : (s.updSeq q f).roundRobin = s.roundRobin := rfl
@[simp] theorem State.updSeq_bids (s : State) (q : SeqId) (f : Seq → Seq) : (s.updSeq q f).bids = s.bids := rfl
@[simp] theorem State.updSeq_grants (s : State) (q : SeqId) (f : Seq → Seq) : (s.updSeq q f).grants = s.grants := rfl
@[simp] theorem State.updSeq_nextBid (s : State) (q : SeqId) (f : Seq → Seq) : (s.updSeq q f).nextBid = s.nextBid := rfl
@[simp] theorem State.updSeq_cuts (s : State) (q : SeqId) (f : Seq → Seq) : (s.updSeq q f).cuts = s.cuts := rfl
@[simp] theorem State.updSeq_savedCtxs (s : State) (q : SeqId) (f : Seq → Seq) : (s.updSeq q f).savedCtxs = s.savedCtxs := rfl
@[simp] theorem State.updSeq_sealable (s : State) (q : SeqId) (f : Seq → Seq) : (s.updSeq q f).sealable = s.sealable := rfl
@[simp] theorem State.updSeq_restores (s : State) (q : SeqId) (f : Seq → Seq) : (s.updSeq q f).restores = s.restores := rfl
@[simp] theorem State.updSeq_parts (s : State) (q : SeqId) (f : Seq → Seq) : (s.updSeq q f).parts = s.parts := rfl
@[simp] theorem State.updSeq_keySlots (s : State) (q : SeqId) (f : Seq → Seq) : (s.updSeq q f).keySlots = s.keySlots := rfl
@[simp] theorem State.updSeq_slices (s : State) (q : SeqId) (f : Seq → Seq) : (s.updSeq q f).slices = s.slices := rfl
@[simp] theorem State.updSeq_slicePend (s : State) (q : SeqId) (f : Seq → Seq) : (s.updSeq q f).slicePend = s.slicePend := rfl
@[simp] theorem State.updSeq_lends (s : State) (q : SeqId) (f : Seq → Seq) : (s.updSeq q f).lends = s.lends := rfl
@[simp] theorem State.updSeq_fresh (s : State) (q : SeqId) (f : Seq → Seq) : (s.updSeq q f).fresh = s.fresh := rfl
@[simp] theorem State.updSeq_seed (s : State) (q : SeqId) (f : Seq → Seq) : (s.updSeq q f).seed = s.seed := rfl
@[simp] theorem State.updSeq_piece (s : State) (q : SeqId) (f : Seq → Seq) : (s.updSeq q f).piece = s.piece := rfl
@[simp] theorem State.updSeq_serving (s : State) (q : SeqId) (f : Seq → Seq) : (s.updSeq q f).serving = s.serving := rfl
@[simp] theorem State.updSeq_summary (s : State) (q : SeqId) (f : Seq → Seq) : (s.updSeq q f).summary = s.summary := rfl
@[simp] theorem State.updSeq_fwArea (s : State) (q : SeqId) (f : Seq → Seq) : (s.updSeq q f).fwArea = s.fwArea := rfl
@[simp] theorem State.updSeq_minVersion (s : State) (q : SeqId) (f : Seq → Seq) : (s.updSeq q f).minVersion = s.minVersion := rfl
@[simp] theorem State.updSeq_counters (s : State) (q : SeqId) (f : Seq → Seq) : (s.updSeq q f).counters = s.counters := rfl
@[simp] theorem State.updSeq_meas (s : State) (q : SeqId) (f : Seq → Seq) : (s.updSeq q f).meas = s.meas := rfl
@[simp] theorem State.updSeq_bstatErr (s : State) (q : SeqId) (f : Seq → Seq) : (s.updSeq q f).bstatErr = s.bstatErr := rfl
@[simp] theorem State.updSeq_bstatStage (s : State) (q : SeqId) (f : Seq → Seq) : (s.updSeq q f).bstatStage = s.bstatStage := rfl
@[simp] theorem State.updSeq_fwVersion (s : State) (q : SeqId) (f : Seq → Seq) : (s.updSeq q f).fwVersion = s.fwVersion := rfl
@[simp] theorem State.updSeq_apertures (s : State) (q : SeqId) (f : Seq → Seq) : (s.updSeq q f).apertures = s.apertures := rfl
@[simp] theorem State.updSeq_blackBox (s : State) (q : SeqId) (f : Seq → Seq) : (s.updSeq q f).blackBox = s.blackBox := rfl
@[simp] theorem State.updSeq_sseqs (s : State) (q : SeqId) (f : Seq → Seq) : (s.updSeq q f).sseqs = s.sseqs := rfl
@[simp] theorem State.updSeq_powerLimit (s : State) (q : SeqId) (f : Seq → Seq) : (s.updSeq q f).powerLimit = s.powerLimit := rfl
@[simp] theorem State.updSeq_trimmed (s : State) (q : SeqId) (f : Seq → Seq) : (s.updSeq q f).trimmed = s.trimmed := rfl
@[simp] theorem State.updSeq_spdm (s : State) (q : SeqId) (f : Seq → Seq) : (s.updSeq q f).spdm = s.spdm := rfl
@[simp] theorem State.updSeq_spdmLog (s : State) (q : SeqId) (f : Seq → Seq) : (s.updSeq q f).spdmLog = s.spdmLog := rfl
@[simp] theorem State.updSeq_responses (s : State) (q : SeqId) (f : Seq → Seq) : (s.updSeq q f).responses = s.responses := rfl

@[simp] theorem setNode_turns (s : State) (r : NodeRef) (f : Node → Node) : (setNode s r f).turns = s.turns := rfl
@[simp] theorem setNode_cur (s : State) (r : NodeRef) (f : Node → Node) : (setNode s r f).cur = s.cur := rfl
@[simp] theorem setNode_site (s : State) (r : NodeRef) (f : Node → Node) : (setNode s r f).site = s.site := rfl
@[simp] theorem setNode_freeCtr (s : State) (r : NodeRef) (f : Node → Node) : (setNode s r f).freeCtr = s.freeCtr := rfl
@[simp] theorem setNode_tick (s : State) (r : NodeRef) (f : Node → Node) : (setNode s r f).tick = s.tick := rfl
@[simp] theorem setNode_powered (s : State) (r : NodeRef) (f : Node → Node) : (setNode s r f).powered = s.powered := rfl
@[simp] theorem setNode_powerUps (s : State) (r : NodeRef) (f : Node → Node) : (setNode s r f).powerUps = s.powerUps := rfl
@[simp] theorem setNode_linkUp (s : State) (r : NodeRef) (f : Node → Node) : (setNode s r f).linkUp = s.linkUp := rfl
@[simp] theorem setNode_mem (s : State) (r : NodeRef) (f : Node → Node) : (setNode s r f).mem = s.mem := rfl
@[simp] theorem setNode_lineTags (s : State) (r : NodeRef) (f : Node → Node) : (setNode s r f).lineTags = s.lineTags := rfl
@[simp] theorem setNode_llc (s : State) (r : NodeRef) (f : Node → Node) : (setNode s r f).llc = s.llc := rfl
@[simp] theorem setNode_residency (s : State) (r : NodeRef) (f : Node → Node) : (setNode s r f).residency = s.residency := rfl
@[simp] theorem setNode_l2 (s : State) (r : NodeRef) (f : Node → Node) : (setNode s r f).l2 = s.l2 := rfl
@[simp] theorem setNode_l1 (s : State) (r : NodeRef) (f : Node → Node) : (setNode s r f).l1 = s.l1 := rfl
@[simp] theorem setNode_arrays (s : State) (r : NodeRef) (f : Node → Node) : (setNode s r f).arrays = s.arrays := rfl
@[simp] theorem setNode_conversions (s : State) (r : NodeRef) (f : Node → Node) : (setNode s r f).conversions = s.conversions := rfl
@[simp] theorem setNode_bucketEntries (s : State) (r : NodeRef) (f : Node → Node) : (setNode s r f).bucketEntries = s.bucketEntries := rfl
@[simp] theorem setNode_buckets (s : State) (r : NodeRef) (f : Node → Node) : (setNode s r f).buckets = s.buckets := rfl
@[simp] theorem setNode_portReqs (s : State) (r : NodeRef) (f : Node → Node) : (setNode s r f).portReqs = s.portReqs := rfl
@[simp] theorem setNode_portTurn (s : State) (r : NodeRef) (f : Node → Node) : (setNode s r f).portTurn = s.portTurn := rfl
@[simp] theorem setNode_tlb (s : State) (r : NodeRef) (f : Node → Node) : (setNode s r f).tlb = s.tlb := rfl
@[simp] theorem setNode_latched (s : State) (r : NodeRef) (f : Node → Node) : (setNode s r f).latched = s.latched := rfl
@[simp] theorem setNode_walkCache (s : State) (r : NodeRef) (f : Node → Node) : (setNode s r f).walkCache = s.walkCache := rfl
@[simp] theorem setNode_walks (s : State) (r : NodeRef) (f : Node → Node) : (setNode s r f).walks = s.walks := rfl
@[simp] theorem setNode_walkTurn (s : State) (r : NodeRef) (f : Node → Node) : (setNode s r f).walkTurn = s.walkTurn := rfl
@[simp] theorem setNode_walkFaults (s : State) (r : NodeRef) (f : Node → Node) : (setNode s r f).walkFaults = s.walkFaults := rfl
@[simp] theorem setNode_cows (s : State) (r : NodeRef) (f : Node → Node) : (setNode s r f).cows = s.cows := rfl
@[simp] theorem setNode_cwempties (s : State) (r : NodeRef) (f : Node → Node) : (setNode s r f).cwempties = s.cwempties := rfl
@[simp] theorem setNode_pulls (s : State) (r : NodeRef) (f : Node → Node) : (setNode s r f).pulls = s.pulls := rfl
@[simp] theorem setNode_pullsSent (s : State) (r : NodeRef) (f : Node → Node) : (setNode s r f).pullsSent = s.pullsSent := rfl
@[simp] theorem setNode_seqs (s : State) (r : NodeRef) (f : Node → Node) : (setNode s r f).seqs = s.seqs := rfl
@[simp] theorem setNode_accesses (s : State) (r : NodeRef) (f : Node → Node) : (setNode s r f).accesses = s.accesses := rfl
@[simp] theorem setNode_nextAcc (s : State) (r : NodeRef) (f : Node → Node) : (setNode s r f).nextAcc = s.nextAcc := rfl
@[simp] theorem setNode_jobs (s : State) (r : NodeRef) (f : Node → Node) : (setNode s r f).jobs = s.jobs := rfl
@[simp] theorem setNode_pchs (s : State) (r : NodeRef) (f : Node → Node) : (setNode s r f).pchs = s.pchs := rfl
@[simp] theorem setNode_waggle (s : State) (r : NodeRef) (f : Node → Node) : (setNode s r f).waggle = s.waggle := rfl
@[simp] theorem setNode_tiles (s : State) (r : NodeRef) (f : Node → Node) : (setNode s r f).tiles = s.tiles := rfl
@[simp] theorem setNode_streams (s : State) (r : NodeRef) (f : Node → Node) : (setNode s r f).streams = s.streams := rfl
@[simp] theorem setNode_instances (s : State) (r : NodeRef) (f : Node → Node) : (setNode s r f).instances = s.instances := rfl
@[simp] theorem setNode_partials (s : State) (r : NodeRef) (f : Node → Node) : (setNode s r f).partials = s.partials := rfl
@[simp] theorem setNode_graphs (s : State) (r : NodeRef) (f : Node → Node) : (setNode s r f).graphs = s.graphs := rfl
@[simp] theorem setNode_tensors (s : State) (r : NodeRef) (f : Node → Node) : (setNode s r f).tensors = s.tensors := rfl
@[simp] theorem setNode_launches (s : State) (r : NodeRef) (f : Node → Node) : (setNode s r f).launches = s.launches := rfl
@[simp] theorem setNode_phases (s : State) (r : NodeRef) (f : Node → Node) : (setNode s r f).phases = s.phases := rfl
@[simp] theorem setNode_jobRecs (s : State) (r : NodeRef) (f : Node → Node) : (setNode s r f).jobRecs = s.jobRecs := rfl
@[simp] theorem setNode_barriers (s : State) (r : NodeRef) (f : Node → Node) : (setNode s r f).barriers = s.barriers := rfl
@[simp] theorem setNode_queues (s : State) (r : NodeRef) (f : Node → Node) : (setNode s r f).queues = s.queues := rfl
@[simp] theorem setNode_tailWatch (s : State) (r : NodeRef) (f : Node → Node) : (setNode s r f).tailWatch = s.tailWatch := rfl
@[simp] theorem setNode_roundRobin (s : State) (r : NodeRef) (f : Node → Node) : (setNode s r f).roundRobin = s.roundRobin := rfl
@[simp] theorem setNode_bids (s : State) (r : NodeRef) (f : Node → Node) : (setNode s r f).bids = s.bids := rfl
@[simp] theorem setNode_grants (s : State) (r : NodeRef) (f : Node → Node) : (setNode s r f).grants = s.grants := rfl
@[simp] theorem setNode_nextBid (s : State) (r : NodeRef) (f : Node → Node) : (setNode s r f).nextBid = s.nextBid := rfl
@[simp] theorem setNode_cuts (s : State) (r : NodeRef) (f : Node → Node) : (setNode s r f).cuts = s.cuts := rfl
@[simp] theorem setNode_savedCtxs (s : State) (r : NodeRef) (f : Node → Node) : (setNode s r f).savedCtxs = s.savedCtxs := rfl
@[simp] theorem setNode_sealable (s : State) (r : NodeRef) (f : Node → Node) : (setNode s r f).sealable = s.sealable := rfl
@[simp] theorem setNode_restores (s : State) (r : NodeRef) (f : Node → Node) : (setNode s r f).restores = s.restores := rfl
@[simp] theorem setNode_parts (s : State) (r : NodeRef) (f : Node → Node) : (setNode s r f).parts = s.parts := rfl
@[simp] theorem setNode_keySlots (s : State) (r : NodeRef) (f : Node → Node) : (setNode s r f).keySlots = s.keySlots := rfl
@[simp] theorem setNode_slices (s : State) (r : NodeRef) (f : Node → Node) : (setNode s r f).slices = s.slices := rfl
@[simp] theorem setNode_slicePend (s : State) (r : NodeRef) (f : Node → Node) : (setNode s r f).slicePend = s.slicePend := rfl
@[simp] theorem setNode_lends (s : State) (r : NodeRef) (f : Node → Node) : (setNode s r f).lends = s.lends := rfl
@[simp] theorem setNode_fresh (s : State) (r : NodeRef) (f : Node → Node) : (setNode s r f).fresh = s.fresh := rfl
@[simp] theorem setNode_seed (s : State) (r : NodeRef) (f : Node → Node) : (setNode s r f).seed = s.seed := rfl
@[simp] theorem setNode_piece (s : State) (r : NodeRef) (f : Node → Node) : (setNode s r f).piece = s.piece := rfl
@[simp] theorem setNode_serving (s : State) (r : NodeRef) (f : Node → Node) : (setNode s r f).serving = s.serving := rfl
@[simp] theorem setNode_summary (s : State) (r : NodeRef) (f : Node → Node) : (setNode s r f).summary = s.summary := rfl
@[simp] theorem setNode_fwArea (s : State) (r : NodeRef) (f : Node → Node) : (setNode s r f).fwArea = s.fwArea := rfl
@[simp] theorem setNode_minVersion (s : State) (r : NodeRef) (f : Node → Node) : (setNode s r f).minVersion = s.minVersion := rfl
@[simp] theorem setNode_counters (s : State) (r : NodeRef) (f : Node → Node) : (setNode s r f).counters = s.counters := rfl
@[simp] theorem setNode_meas (s : State) (r : NodeRef) (f : Node → Node) : (setNode s r f).meas = s.meas := rfl
@[simp] theorem setNode_bstatErr (s : State) (r : NodeRef) (f : Node → Node) : (setNode s r f).bstatErr = s.bstatErr := rfl
@[simp] theorem setNode_bstatStage (s : State) (r : NodeRef) (f : Node → Node) : (setNode s r f).bstatStage = s.bstatStage := rfl
@[simp] theorem setNode_fwVersion (s : State) (r : NodeRef) (f : Node → Node) : (setNode s r f).fwVersion = s.fwVersion := rfl
@[simp] theorem setNode_apertures (s : State) (r : NodeRef) (f : Node → Node) : (setNode s r f).apertures = s.apertures := rfl
@[simp] theorem setNode_blackBox (s : State) (r : NodeRef) (f : Node → Node) : (setNode s r f).blackBox = s.blackBox := rfl
@[simp] theorem setNode_sseqs (s : State) (r : NodeRef) (f : Node → Node) : (setNode s r f).sseqs = s.sseqs := rfl
@[simp] theorem setNode_powerLimit (s : State) (r : NodeRef) (f : Node → Node) : (setNode s r f).powerLimit = s.powerLimit := rfl
@[simp] theorem setNode_trimmed (s : State) (r : NodeRef) (f : Node → Node) : (setNode s r f).trimmed = s.trimmed := rfl
@[simp] theorem setNode_spdm (s : State) (r : NodeRef) (f : Node → Node) : (setNode s r f).spdm = s.spdm := rfl
@[simp] theorem setNode_spdmLog (s : State) (r : NodeRef) (f : Node → Node) : (setNode s r f).spdmLog = s.spdmLog := rfl
@[simp] theorem setNode_responses (s : State) (r : NodeRef) (f : Node → Node) : (setNode s r f).responses = s.responses := rfl

@[simp] theorem setGraph_turns (s : State) (gid : Nat) (f : Graph → Graph) : (setGraph s gid f).turns = s.turns := rfl
@[simp] theorem setGraph_cur (s : State) (gid : Nat) (f : Graph → Graph) : (setGraph s gid f).cur = s.cur := rfl
@[simp] theorem setGraph_site (s : State) (gid : Nat) (f : Graph → Graph) : (setGraph s gid f).site = s.site := rfl
@[simp] theorem setGraph_freeCtr (s : State) (gid : Nat) (f : Graph → Graph) : (setGraph s gid f).freeCtr = s.freeCtr := rfl
@[simp] theorem setGraph_tick (s : State) (gid : Nat) (f : Graph → Graph) : (setGraph s gid f).tick = s.tick := rfl
@[simp] theorem setGraph_powered (s : State) (gid : Nat) (f : Graph → Graph) : (setGraph s gid f).powered = s.powered := rfl
@[simp] theorem setGraph_powerUps (s : State) (gid : Nat) (f : Graph → Graph) : (setGraph s gid f).powerUps = s.powerUps := rfl
@[simp] theorem setGraph_linkUp (s : State) (gid : Nat) (f : Graph → Graph) : (setGraph s gid f).linkUp = s.linkUp := rfl
@[simp] theorem setGraph_mem (s : State) (gid : Nat) (f : Graph → Graph) : (setGraph s gid f).mem = s.mem := rfl
@[simp] theorem setGraph_lineTags (s : State) (gid : Nat) (f : Graph → Graph) : (setGraph s gid f).lineTags = s.lineTags := rfl
@[simp] theorem setGraph_llc (s : State) (gid : Nat) (f : Graph → Graph) : (setGraph s gid f).llc = s.llc := rfl
@[simp] theorem setGraph_residency (s : State) (gid : Nat) (f : Graph → Graph) : (setGraph s gid f).residency = s.residency := rfl
@[simp] theorem setGraph_l2 (s : State) (gid : Nat) (f : Graph → Graph) : (setGraph s gid f).l2 = s.l2 := rfl
@[simp] theorem setGraph_l1 (s : State) (gid : Nat) (f : Graph → Graph) : (setGraph s gid f).l1 = s.l1 := rfl
@[simp] theorem setGraph_arrays (s : State) (gid : Nat) (f : Graph → Graph) : (setGraph s gid f).arrays = s.arrays := rfl
@[simp] theorem setGraph_conversions (s : State) (gid : Nat) (f : Graph → Graph) : (setGraph s gid f).conversions = s.conversions := rfl
@[simp] theorem setGraph_bucketEntries (s : State) (gid : Nat) (f : Graph → Graph) : (setGraph s gid f).bucketEntries = s.bucketEntries := rfl
@[simp] theorem setGraph_buckets (s : State) (gid : Nat) (f : Graph → Graph) : (setGraph s gid f).buckets = s.buckets := rfl
@[simp] theorem setGraph_portReqs (s : State) (gid : Nat) (f : Graph → Graph) : (setGraph s gid f).portReqs = s.portReqs := rfl
@[simp] theorem setGraph_portTurn (s : State) (gid : Nat) (f : Graph → Graph) : (setGraph s gid f).portTurn = s.portTurn := rfl
@[simp] theorem setGraph_tlb (s : State) (gid : Nat) (f : Graph → Graph) : (setGraph s gid f).tlb = s.tlb := rfl
@[simp] theorem setGraph_latched (s : State) (gid : Nat) (f : Graph → Graph) : (setGraph s gid f).latched = s.latched := rfl
@[simp] theorem setGraph_walkCache (s : State) (gid : Nat) (f : Graph → Graph) : (setGraph s gid f).walkCache = s.walkCache := rfl
@[simp] theorem setGraph_walks (s : State) (gid : Nat) (f : Graph → Graph) : (setGraph s gid f).walks = s.walks := rfl
@[simp] theorem setGraph_walkTurn (s : State) (gid : Nat) (f : Graph → Graph) : (setGraph s gid f).walkTurn = s.walkTurn := rfl
@[simp] theorem setGraph_walkFaults (s : State) (gid : Nat) (f : Graph → Graph) : (setGraph s gid f).walkFaults = s.walkFaults := rfl
@[simp] theorem setGraph_cows (s : State) (gid : Nat) (f : Graph → Graph) : (setGraph s gid f).cows = s.cows := rfl
@[simp] theorem setGraph_cwempties (s : State) (gid : Nat) (f : Graph → Graph) : (setGraph s gid f).cwempties = s.cwempties := rfl
@[simp] theorem setGraph_pulls (s : State) (gid : Nat) (f : Graph → Graph) : (setGraph s gid f).pulls = s.pulls := rfl
@[simp] theorem setGraph_pullsSent (s : State) (gid : Nat) (f : Graph → Graph) : (setGraph s gid f).pullsSent = s.pullsSent := rfl
@[simp] theorem setGraph_seqs (s : State) (gid : Nat) (f : Graph → Graph) : (setGraph s gid f).seqs = s.seqs := rfl
@[simp] theorem setGraph_accesses (s : State) (gid : Nat) (f : Graph → Graph) : (setGraph s gid f).accesses = s.accesses := rfl
@[simp] theorem setGraph_nextAcc (s : State) (gid : Nat) (f : Graph → Graph) : (setGraph s gid f).nextAcc = s.nextAcc := rfl
@[simp] theorem setGraph_jobs (s : State) (gid : Nat) (f : Graph → Graph) : (setGraph s gid f).jobs = s.jobs := rfl
@[simp] theorem setGraph_pchs (s : State) (gid : Nat) (f : Graph → Graph) : (setGraph s gid f).pchs = s.pchs := rfl
@[simp] theorem setGraph_waggle (s : State) (gid : Nat) (f : Graph → Graph) : (setGraph s gid f).waggle = s.waggle := rfl
@[simp] theorem setGraph_nodes (s : State) (gid : Nat) (f : Graph → Graph) : (setGraph s gid f).nodes = s.nodes := rfl
@[simp] theorem setGraph_tiles (s : State) (gid : Nat) (f : Graph → Graph) : (setGraph s gid f).tiles = s.tiles := rfl
@[simp] theorem setGraph_streams (s : State) (gid : Nat) (f : Graph → Graph) : (setGraph s gid f).streams = s.streams := rfl
@[simp] theorem setGraph_instances (s : State) (gid : Nat) (f : Graph → Graph) : (setGraph s gid f).instances = s.instances := rfl
@[simp] theorem setGraph_partials (s : State) (gid : Nat) (f : Graph → Graph) : (setGraph s gid f).partials = s.partials := rfl
@[simp] theorem setGraph_tensors (s : State) (gid : Nat) (f : Graph → Graph) : (setGraph s gid f).tensors = s.tensors := rfl
@[simp] theorem setGraph_launches (s : State) (gid : Nat) (f : Graph → Graph) : (setGraph s gid f).launches = s.launches := rfl
@[simp] theorem setGraph_phases (s : State) (gid : Nat) (f : Graph → Graph) : (setGraph s gid f).phases = s.phases := rfl
@[simp] theorem setGraph_jobRecs (s : State) (gid : Nat) (f : Graph → Graph) : (setGraph s gid f).jobRecs = s.jobRecs := rfl
@[simp] theorem setGraph_barriers (s : State) (gid : Nat) (f : Graph → Graph) : (setGraph s gid f).barriers = s.barriers := rfl
@[simp] theorem setGraph_queues (s : State) (gid : Nat) (f : Graph → Graph) : (setGraph s gid f).queues = s.queues := rfl
@[simp] theorem setGraph_tailWatch (s : State) (gid : Nat) (f : Graph → Graph) : (setGraph s gid f).tailWatch = s.tailWatch := rfl
@[simp] theorem setGraph_roundRobin (s : State) (gid : Nat) (f : Graph → Graph) : (setGraph s gid f).roundRobin = s.roundRobin := rfl
@[simp] theorem setGraph_bids (s : State) (gid : Nat) (f : Graph → Graph) : (setGraph s gid f).bids = s.bids := rfl
@[simp] theorem setGraph_grants (s : State) (gid : Nat) (f : Graph → Graph) : (setGraph s gid f).grants = s.grants := rfl
@[simp] theorem setGraph_nextBid (s : State) (gid : Nat) (f : Graph → Graph) : (setGraph s gid f).nextBid = s.nextBid := rfl
@[simp] theorem setGraph_cuts (s : State) (gid : Nat) (f : Graph → Graph) : (setGraph s gid f).cuts = s.cuts := rfl
@[simp] theorem setGraph_savedCtxs (s : State) (gid : Nat) (f : Graph → Graph) : (setGraph s gid f).savedCtxs = s.savedCtxs := rfl
@[simp] theorem setGraph_sealable (s : State) (gid : Nat) (f : Graph → Graph) : (setGraph s gid f).sealable = s.sealable := rfl
@[simp] theorem setGraph_restores (s : State) (gid : Nat) (f : Graph → Graph) : (setGraph s gid f).restores = s.restores := rfl
@[simp] theorem setGraph_parts (s : State) (gid : Nat) (f : Graph → Graph) : (setGraph s gid f).parts = s.parts := rfl
@[simp] theorem setGraph_keySlots (s : State) (gid : Nat) (f : Graph → Graph) : (setGraph s gid f).keySlots = s.keySlots := rfl
@[simp] theorem setGraph_slices (s : State) (gid : Nat) (f : Graph → Graph) : (setGraph s gid f).slices = s.slices := rfl
@[simp] theorem setGraph_slicePend (s : State) (gid : Nat) (f : Graph → Graph) : (setGraph s gid f).slicePend = s.slicePend := rfl
@[simp] theorem setGraph_lends (s : State) (gid : Nat) (f : Graph → Graph) : (setGraph s gid f).lends = s.lends := rfl
@[simp] theorem setGraph_fresh (s : State) (gid : Nat) (f : Graph → Graph) : (setGraph s gid f).fresh = s.fresh := rfl
@[simp] theorem setGraph_seed (s : State) (gid : Nat) (f : Graph → Graph) : (setGraph s gid f).seed = s.seed := rfl
@[simp] theorem setGraph_piece (s : State) (gid : Nat) (f : Graph → Graph) : (setGraph s gid f).piece = s.piece := rfl
@[simp] theorem setGraph_serving (s : State) (gid : Nat) (f : Graph → Graph) : (setGraph s gid f).serving = s.serving := rfl
@[simp] theorem setGraph_summary (s : State) (gid : Nat) (f : Graph → Graph) : (setGraph s gid f).summary = s.summary := rfl
@[simp] theorem setGraph_fwArea (s : State) (gid : Nat) (f : Graph → Graph) : (setGraph s gid f).fwArea = s.fwArea := rfl
@[simp] theorem setGraph_minVersion (s : State) (gid : Nat) (f : Graph → Graph) : (setGraph s gid f).minVersion = s.minVersion := rfl
@[simp] theorem setGraph_counters (s : State) (gid : Nat) (f : Graph → Graph) : (setGraph s gid f).counters = s.counters := rfl
@[simp] theorem setGraph_meas (s : State) (gid : Nat) (f : Graph → Graph) : (setGraph s gid f).meas = s.meas := rfl
@[simp] theorem setGraph_bstatErr (s : State) (gid : Nat) (f : Graph → Graph) : (setGraph s gid f).bstatErr = s.bstatErr := rfl
@[simp] theorem setGraph_bstatStage (s : State) (gid : Nat) (f : Graph → Graph) : (setGraph s gid f).bstatStage = s.bstatStage := rfl
@[simp] theorem setGraph_fwVersion (s : State) (gid : Nat) (f : Graph → Graph) : (setGraph s gid f).fwVersion = s.fwVersion := rfl
@[simp] theorem setGraph_apertures (s : State) (gid : Nat) (f : Graph → Graph) : (setGraph s gid f).apertures = s.apertures := rfl
@[simp] theorem setGraph_blackBox (s : State) (gid : Nat) (f : Graph → Graph) : (setGraph s gid f).blackBox = s.blackBox := rfl
@[simp] theorem setGraph_sseqs (s : State) (gid : Nat) (f : Graph → Graph) : (setGraph s gid f).sseqs = s.sseqs := rfl
@[simp] theorem setGraph_powerLimit (s : State) (gid : Nat) (f : Graph → Graph) : (setGraph s gid f).powerLimit = s.powerLimit := rfl
@[simp] theorem setGraph_trimmed (s : State) (gid : Nat) (f : Graph → Graph) : (setGraph s gid f).trimmed = s.trimmed := rfl
@[simp] theorem setGraph_spdm (s : State) (gid : Nat) (f : Graph → Graph) : (setGraph s gid f).spdm = s.spdm := rfl
@[simp] theorem setGraph_spdmLog (s : State) (gid : Nat) (f : Graph → Graph) : (setGraph s gid f).spdmLog = s.spdmLog := rfl
@[simp] theorem setGraph_responses (s : State) (gid : Nat) (f : Graph → Graph) : (setGraph s gid f).responses = s.responses := rfl

@[simp] theorem setStream_turns (s : State) (r : StreamRef) (f : Stream → Stream) : (setStream s r f).turns = s.turns := rfl
@[simp] theorem setStream_cur (s : State) (r : StreamRef) (f : Stream → Stream) : (setStream s r f).cur = s.cur := rfl
@[simp] theorem setStream_site (s : State) (r : StreamRef) (f : Stream → Stream) : (setStream s r f).site = s.site := rfl
@[simp] theorem setStream_freeCtr (s : State) (r : StreamRef) (f : Stream → Stream) : (setStream s r f).freeCtr = s.freeCtr := rfl
@[simp] theorem setStream_tick (s : State) (r : StreamRef) (f : Stream → Stream) : (setStream s r f).tick = s.tick := rfl
@[simp] theorem setStream_powered (s : State) (r : StreamRef) (f : Stream → Stream) : (setStream s r f).powered = s.powered := rfl
@[simp] theorem setStream_powerUps (s : State) (r : StreamRef) (f : Stream → Stream) : (setStream s r f).powerUps = s.powerUps := rfl
@[simp] theorem setStream_linkUp (s : State) (r : StreamRef) (f : Stream → Stream) : (setStream s r f).linkUp = s.linkUp := rfl
@[simp] theorem setStream_mem (s : State) (r : StreamRef) (f : Stream → Stream) : (setStream s r f).mem = s.mem := rfl
@[simp] theorem setStream_lineTags (s : State) (r : StreamRef) (f : Stream → Stream) : (setStream s r f).lineTags = s.lineTags := rfl
@[simp] theorem setStream_llc (s : State) (r : StreamRef) (f : Stream → Stream) : (setStream s r f).llc = s.llc := rfl
@[simp] theorem setStream_residency (s : State) (r : StreamRef) (f : Stream → Stream) : (setStream s r f).residency = s.residency := rfl
@[simp] theorem setStream_l2 (s : State) (r : StreamRef) (f : Stream → Stream) : (setStream s r f).l2 = s.l2 := rfl
@[simp] theorem setStream_l1 (s : State) (r : StreamRef) (f : Stream → Stream) : (setStream s r f).l1 = s.l1 := rfl
@[simp] theorem setStream_arrays (s : State) (r : StreamRef) (f : Stream → Stream) : (setStream s r f).arrays = s.arrays := rfl
@[simp] theorem setStream_conversions (s : State) (r : StreamRef) (f : Stream → Stream) : (setStream s r f).conversions = s.conversions := rfl
@[simp] theorem setStream_bucketEntries (s : State) (r : StreamRef) (f : Stream → Stream) : (setStream s r f).bucketEntries = s.bucketEntries := rfl
@[simp] theorem setStream_buckets (s : State) (r : StreamRef) (f : Stream → Stream) : (setStream s r f).buckets = s.buckets := rfl
@[simp] theorem setStream_portReqs (s : State) (r : StreamRef) (f : Stream → Stream) : (setStream s r f).portReqs = s.portReqs := rfl
@[simp] theorem setStream_portTurn (s : State) (r : StreamRef) (f : Stream → Stream) : (setStream s r f).portTurn = s.portTurn := rfl
@[simp] theorem setStream_tlb (s : State) (r : StreamRef) (f : Stream → Stream) : (setStream s r f).tlb = s.tlb := rfl
@[simp] theorem setStream_latched (s : State) (r : StreamRef) (f : Stream → Stream) : (setStream s r f).latched = s.latched := rfl
@[simp] theorem setStream_walkCache (s : State) (r : StreamRef) (f : Stream → Stream) : (setStream s r f).walkCache = s.walkCache := rfl
@[simp] theorem setStream_walks (s : State) (r : StreamRef) (f : Stream → Stream) : (setStream s r f).walks = s.walks := rfl
@[simp] theorem setStream_walkTurn (s : State) (r : StreamRef) (f : Stream → Stream) : (setStream s r f).walkTurn = s.walkTurn := rfl
@[simp] theorem setStream_walkFaults (s : State) (r : StreamRef) (f : Stream → Stream) : (setStream s r f).walkFaults = s.walkFaults := rfl
@[simp] theorem setStream_cows (s : State) (r : StreamRef) (f : Stream → Stream) : (setStream s r f).cows = s.cows := rfl
@[simp] theorem setStream_cwempties (s : State) (r : StreamRef) (f : Stream → Stream) : (setStream s r f).cwempties = s.cwempties := rfl
@[simp] theorem setStream_pulls (s : State) (r : StreamRef) (f : Stream → Stream) : (setStream s r f).pulls = s.pulls := rfl
@[simp] theorem setStream_pullsSent (s : State) (r : StreamRef) (f : Stream → Stream) : (setStream s r f).pullsSent = s.pullsSent := rfl
@[simp] theorem setStream_seqs (s : State) (r : StreamRef) (f : Stream → Stream) : (setStream s r f).seqs = s.seqs := rfl
@[simp] theorem setStream_accesses (s : State) (r : StreamRef) (f : Stream → Stream) : (setStream s r f).accesses = s.accesses := rfl
@[simp] theorem setStream_nextAcc (s : State) (r : StreamRef) (f : Stream → Stream) : (setStream s r f).nextAcc = s.nextAcc := rfl
@[simp] theorem setStream_jobs (s : State) (r : StreamRef) (f : Stream → Stream) : (setStream s r f).jobs = s.jobs := rfl
@[simp] theorem setStream_pchs (s : State) (r : StreamRef) (f : Stream → Stream) : (setStream s r f).pchs = s.pchs := rfl
@[simp] theorem setStream_waggle (s : State) (r : StreamRef) (f : Stream → Stream) : (setStream s r f).waggle = s.waggle := rfl
@[simp] theorem setStream_nodes (s : State) (r : StreamRef) (f : Stream → Stream) : (setStream s r f).nodes = s.nodes := rfl
@[simp] theorem setStream_tiles (s : State) (r : StreamRef) (f : Stream → Stream) : (setStream s r f).tiles = s.tiles := rfl
@[simp] theorem setStream_instances (s : State) (r : StreamRef) (f : Stream → Stream) : (setStream s r f).instances = s.instances := rfl
@[simp] theorem setStream_partials (s : State) (r : StreamRef) (f : Stream → Stream) : (setStream s r f).partials = s.partials := rfl
@[simp] theorem setStream_graphs (s : State) (r : StreamRef) (f : Stream → Stream) : (setStream s r f).graphs = s.graphs := rfl
@[simp] theorem setStream_tensors (s : State) (r : StreamRef) (f : Stream → Stream) : (setStream s r f).tensors = s.tensors := rfl
@[simp] theorem setStream_launches (s : State) (r : StreamRef) (f : Stream → Stream) : (setStream s r f).launches = s.launches := rfl
@[simp] theorem setStream_phases (s : State) (r : StreamRef) (f : Stream → Stream) : (setStream s r f).phases = s.phases := rfl
@[simp] theorem setStream_jobRecs (s : State) (r : StreamRef) (f : Stream → Stream) : (setStream s r f).jobRecs = s.jobRecs := rfl
@[simp] theorem setStream_barriers (s : State) (r : StreamRef) (f : Stream → Stream) : (setStream s r f).barriers = s.barriers := rfl
@[simp] theorem setStream_queues (s : State) (r : StreamRef) (f : Stream → Stream) : (setStream s r f).queues = s.queues := rfl
@[simp] theorem setStream_tailWatch (s : State) (r : StreamRef) (f : Stream → Stream) : (setStream s r f).tailWatch = s.tailWatch := rfl
@[simp] theorem setStream_roundRobin (s : State) (r : StreamRef) (f : Stream → Stream) : (setStream s r f).roundRobin = s.roundRobin := rfl
@[simp] theorem setStream_bids (s : State) (r : StreamRef) (f : Stream → Stream) : (setStream s r f).bids = s.bids := rfl
@[simp] theorem setStream_grants (s : State) (r : StreamRef) (f : Stream → Stream) : (setStream s r f).grants = s.grants := rfl
@[simp] theorem setStream_nextBid (s : State) (r : StreamRef) (f : Stream → Stream) : (setStream s r f).nextBid = s.nextBid := rfl
@[simp] theorem setStream_cuts (s : State) (r : StreamRef) (f : Stream → Stream) : (setStream s r f).cuts = s.cuts := rfl
@[simp] theorem setStream_savedCtxs (s : State) (r : StreamRef) (f : Stream → Stream) : (setStream s r f).savedCtxs = s.savedCtxs := rfl
@[simp] theorem setStream_sealable (s : State) (r : StreamRef) (f : Stream → Stream) : (setStream s r f).sealable = s.sealable := rfl
@[simp] theorem setStream_restores (s : State) (r : StreamRef) (f : Stream → Stream) : (setStream s r f).restores = s.restores := rfl
@[simp] theorem setStream_parts (s : State) (r : StreamRef) (f : Stream → Stream) : (setStream s r f).parts = s.parts := rfl
@[simp] theorem setStream_keySlots (s : State) (r : StreamRef) (f : Stream → Stream) : (setStream s r f).keySlots = s.keySlots := rfl
@[simp] theorem setStream_slices (s : State) (r : StreamRef) (f : Stream → Stream) : (setStream s r f).slices = s.slices := rfl
@[simp] theorem setStream_slicePend (s : State) (r : StreamRef) (f : Stream → Stream) : (setStream s r f).slicePend = s.slicePend := rfl
@[simp] theorem setStream_lends (s : State) (r : StreamRef) (f : Stream → Stream) : (setStream s r f).lends = s.lends := rfl
@[simp] theorem setStream_fresh (s : State) (r : StreamRef) (f : Stream → Stream) : (setStream s r f).fresh = s.fresh := rfl
@[simp] theorem setStream_seed (s : State) (r : StreamRef) (f : Stream → Stream) : (setStream s r f).seed = s.seed := rfl
@[simp] theorem setStream_piece (s : State) (r : StreamRef) (f : Stream → Stream) : (setStream s r f).piece = s.piece := rfl
@[simp] theorem setStream_serving (s : State) (r : StreamRef) (f : Stream → Stream) : (setStream s r f).serving = s.serving := rfl
@[simp] theorem setStream_summary (s : State) (r : StreamRef) (f : Stream → Stream) : (setStream s r f).summary = s.summary := rfl
@[simp] theorem setStream_fwArea (s : State) (r : StreamRef) (f : Stream → Stream) : (setStream s r f).fwArea = s.fwArea := rfl
@[simp] theorem setStream_minVersion (s : State) (r : StreamRef) (f : Stream → Stream) : (setStream s r f).minVersion = s.minVersion := rfl
@[simp] theorem setStream_counters (s : State) (r : StreamRef) (f : Stream → Stream) : (setStream s r f).counters = s.counters := rfl
@[simp] theorem setStream_meas (s : State) (r : StreamRef) (f : Stream → Stream) : (setStream s r f).meas = s.meas := rfl
@[simp] theorem setStream_bstatErr (s : State) (r : StreamRef) (f : Stream → Stream) : (setStream s r f).bstatErr = s.bstatErr := rfl
@[simp] theorem setStream_bstatStage (s : State) (r : StreamRef) (f : Stream → Stream) : (setStream s r f).bstatStage = s.bstatStage := rfl
@[simp] theorem setStream_fwVersion (s : State) (r : StreamRef) (f : Stream → Stream) : (setStream s r f).fwVersion = s.fwVersion := rfl
@[simp] theorem setStream_apertures (s : State) (r : StreamRef) (f : Stream → Stream) : (setStream s r f).apertures = s.apertures := rfl
@[simp] theorem setStream_blackBox (s : State) (r : StreamRef) (f : Stream → Stream) : (setStream s r f).blackBox = s.blackBox := rfl
@[simp] theorem setStream_sseqs (s : State) (r : StreamRef) (f : Stream → Stream) : (setStream s r f).sseqs = s.sseqs := rfl
@[simp] theorem setStream_powerLimit (s : State) (r : StreamRef) (f : Stream → Stream) : (setStream s r f).powerLimit = s.powerLimit := rfl
@[simp] theorem setStream_trimmed (s : State) (r : StreamRef) (f : Stream → Stream) : (setStream s r f).trimmed = s.trimmed := rfl
@[simp] theorem setStream_spdm (s : State) (r : StreamRef) (f : Stream → Stream) : (setStream s r f).spdm = s.spdm := rfl
@[simp] theorem setStream_spdmLog (s : State) (r : StreamRef) (f : Stream → Stream) : (setStream s r f).spdmLog = s.spdmLog := rfl
@[simp] theorem setStream_responses (s : State) (r : StreamRef) (f : Stream → Stream) : (setStream s r f).responses = s.responses := rfl

@[simp] theorem setQueue_turns (s : State) (x : Queue) : (setQueue s x).turns = s.turns := rfl
@[simp] theorem setQueue_cur (s : State) (x : Queue) : (setQueue s x).cur = s.cur := rfl
@[simp] theorem setQueue_site (s : State) (x : Queue) : (setQueue s x).site = s.site := rfl
@[simp] theorem setQueue_freeCtr (s : State) (x : Queue) : (setQueue s x).freeCtr = s.freeCtr := rfl
@[simp] theorem setQueue_tick (s : State) (x : Queue) : (setQueue s x).tick = s.tick := rfl
@[simp] theorem setQueue_powered (s : State) (x : Queue) : (setQueue s x).powered = s.powered := rfl
@[simp] theorem setQueue_powerUps (s : State) (x : Queue) : (setQueue s x).powerUps = s.powerUps := rfl
@[simp] theorem setQueue_linkUp (s : State) (x : Queue) : (setQueue s x).linkUp = s.linkUp := rfl
@[simp] theorem setQueue_mem (s : State) (x : Queue) : (setQueue s x).mem = s.mem := rfl
@[simp] theorem setQueue_lineTags (s : State) (x : Queue) : (setQueue s x).lineTags = s.lineTags := rfl
@[simp] theorem setQueue_llc (s : State) (x : Queue) : (setQueue s x).llc = s.llc := rfl
@[simp] theorem setQueue_residency (s : State) (x : Queue) : (setQueue s x).residency = s.residency := rfl
@[simp] theorem setQueue_l2 (s : State) (x : Queue) : (setQueue s x).l2 = s.l2 := rfl
@[simp] theorem setQueue_l1 (s : State) (x : Queue) : (setQueue s x).l1 = s.l1 := rfl
@[simp] theorem setQueue_arrays (s : State) (x : Queue) : (setQueue s x).arrays = s.arrays := rfl
@[simp] theorem setQueue_conversions (s : State) (x : Queue) : (setQueue s x).conversions = s.conversions := rfl
@[simp] theorem setQueue_bucketEntries (s : State) (x : Queue) : (setQueue s x).bucketEntries = s.bucketEntries := rfl
@[simp] theorem setQueue_buckets (s : State) (x : Queue) : (setQueue s x).buckets = s.buckets := rfl
@[simp] theorem setQueue_portReqs (s : State) (x : Queue) : (setQueue s x).portReqs = s.portReqs := rfl
@[simp] theorem setQueue_portTurn (s : State) (x : Queue) : (setQueue s x).portTurn = s.portTurn := rfl
@[simp] theorem setQueue_tlb (s : State) (x : Queue) : (setQueue s x).tlb = s.tlb := rfl
@[simp] theorem setQueue_latched (s : State) (x : Queue) : (setQueue s x).latched = s.latched := rfl
@[simp] theorem setQueue_walkCache (s : State) (x : Queue) : (setQueue s x).walkCache = s.walkCache := rfl
@[simp] theorem setQueue_walks (s : State) (x : Queue) : (setQueue s x).walks = s.walks := rfl
@[simp] theorem setQueue_walkTurn (s : State) (x : Queue) : (setQueue s x).walkTurn = s.walkTurn := rfl
@[simp] theorem setQueue_walkFaults (s : State) (x : Queue) : (setQueue s x).walkFaults = s.walkFaults := rfl
@[simp] theorem setQueue_cows (s : State) (x : Queue) : (setQueue s x).cows = s.cows := rfl
@[simp] theorem setQueue_cwempties (s : State) (x : Queue) : (setQueue s x).cwempties = s.cwempties := rfl
@[simp] theorem setQueue_pulls (s : State) (x : Queue) : (setQueue s x).pulls = s.pulls := rfl
@[simp] theorem setQueue_pullsSent (s : State) (x : Queue) : (setQueue s x).pullsSent = s.pullsSent := rfl
@[simp] theorem setQueue_seqs (s : State) (x : Queue) : (setQueue s x).seqs = s.seqs := rfl
@[simp] theorem setQueue_accesses (s : State) (x : Queue) : (setQueue s x).accesses = s.accesses := rfl
@[simp] theorem setQueue_nextAcc (s : State) (x : Queue) : (setQueue s x).nextAcc = s.nextAcc := rfl
@[simp] theorem setQueue_jobs (s : State) (x : Queue) : (setQueue s x).jobs = s.jobs := rfl
@[simp] theorem setQueue_pchs (s : State) (x : Queue) : (setQueue s x).pchs = s.pchs := rfl
@[simp] theorem setQueue_waggle (s : State) (x : Queue) : (setQueue s x).waggle = s.waggle := rfl
@[simp] theorem setQueue_nodes (s : State) (x : Queue) : (setQueue s x).nodes = s.nodes := rfl
@[simp] theorem setQueue_tiles (s : State) (x : Queue) : (setQueue s x).tiles = s.tiles := rfl
@[simp] theorem setQueue_streams (s : State) (x : Queue) : (setQueue s x).streams = s.streams := rfl
@[simp] theorem setQueue_instances (s : State) (x : Queue) : (setQueue s x).instances = s.instances := rfl
@[simp] theorem setQueue_partials (s : State) (x : Queue) : (setQueue s x).partials = s.partials := rfl
@[simp] theorem setQueue_graphs (s : State) (x : Queue) : (setQueue s x).graphs = s.graphs := rfl
@[simp] theorem setQueue_tensors (s : State) (x : Queue) : (setQueue s x).tensors = s.tensors := rfl
@[simp] theorem setQueue_launches (s : State) (x : Queue) : (setQueue s x).launches = s.launches := rfl
@[simp] theorem setQueue_phases (s : State) (x : Queue) : (setQueue s x).phases = s.phases := rfl
@[simp] theorem setQueue_jobRecs (s : State) (x : Queue) : (setQueue s x).jobRecs = s.jobRecs := rfl
@[simp] theorem setQueue_barriers (s : State) (x : Queue) : (setQueue s x).barriers = s.barriers := rfl
@[simp] theorem setQueue_tailWatch (s : State) (x : Queue) : (setQueue s x).tailWatch = s.tailWatch := rfl
@[simp] theorem setQueue_roundRobin (s : State) (x : Queue) : (setQueue s x).roundRobin = s.roundRobin := rfl
@[simp] theorem setQueue_bids (s : State) (x : Queue) : (setQueue s x).bids = s.bids := rfl
@[simp] theorem setQueue_grants (s : State) (x : Queue) : (setQueue s x).grants = s.grants := rfl
@[simp] theorem setQueue_nextBid (s : State) (x : Queue) : (setQueue s x).nextBid = s.nextBid := rfl
@[simp] theorem setQueue_cuts (s : State) (x : Queue) : (setQueue s x).cuts = s.cuts := rfl
@[simp] theorem setQueue_savedCtxs (s : State) (x : Queue) : (setQueue s x).savedCtxs = s.savedCtxs := rfl
@[simp] theorem setQueue_sealable (s : State) (x : Queue) : (setQueue s x).sealable = s.sealable := rfl
@[simp] theorem setQueue_restores (s : State) (x : Queue) : (setQueue s x).restores = s.restores := rfl
@[simp] theorem setQueue_parts (s : State) (x : Queue) : (setQueue s x).parts = s.parts := rfl
@[simp] theorem setQueue_keySlots (s : State) (x : Queue) : (setQueue s x).keySlots = s.keySlots := rfl
@[simp] theorem setQueue_slices (s : State) (x : Queue) : (setQueue s x).slices = s.slices := rfl
@[simp] theorem setQueue_slicePend (s : State) (x : Queue) : (setQueue s x).slicePend = s.slicePend := rfl
@[simp] theorem setQueue_lends (s : State) (x : Queue) : (setQueue s x).lends = s.lends := rfl
@[simp] theorem setQueue_fresh (s : State) (x : Queue) : (setQueue s x).fresh = s.fresh := rfl
@[simp] theorem setQueue_seed (s : State) (x : Queue) : (setQueue s x).seed = s.seed := rfl
@[simp] theorem setQueue_piece (s : State) (x : Queue) : (setQueue s x).piece = s.piece := rfl
@[simp] theorem setQueue_serving (s : State) (x : Queue) : (setQueue s x).serving = s.serving := rfl
@[simp] theorem setQueue_summary (s : State) (x : Queue) : (setQueue s x).summary = s.summary := rfl
@[simp] theorem setQueue_fwArea (s : State) (x : Queue) : (setQueue s x).fwArea = s.fwArea := rfl
@[simp] theorem setQueue_minVersion (s : State) (x : Queue) : (setQueue s x).minVersion = s.minVersion := rfl
@[simp] theorem setQueue_counters (s : State) (x : Queue) : (setQueue s x).counters = s.counters := rfl
@[simp] theorem setQueue_meas (s : State) (x : Queue) : (setQueue s x).meas = s.meas := rfl
@[simp] theorem setQueue_bstatErr (s : State) (x : Queue) : (setQueue s x).bstatErr = s.bstatErr := rfl
@[simp] theorem setQueue_bstatStage (s : State) (x : Queue) : (setQueue s x).bstatStage = s.bstatStage := rfl
@[simp] theorem setQueue_fwVersion (s : State) (x : Queue) : (setQueue s x).fwVersion = s.fwVersion := rfl
@[simp] theorem setQueue_apertures (s : State) (x : Queue) : (setQueue s x).apertures = s.apertures := rfl
@[simp] theorem setQueue_blackBox (s : State) (x : Queue) : (setQueue s x).blackBox = s.blackBox := rfl
@[simp] theorem setQueue_sseqs (s : State) (x : Queue) : (setQueue s x).sseqs = s.sseqs := rfl
@[simp] theorem setQueue_powerLimit (s : State) (x : Queue) : (setQueue s x).powerLimit = s.powerLimit := rfl
@[simp] theorem setQueue_trimmed (s : State) (x : Queue) : (setQueue s x).trimmed = s.trimmed := rfl
@[simp] theorem setQueue_spdm (s : State) (x : Queue) : (setQueue s x).spdm = s.spdm := rfl
@[simp] theorem setQueue_spdmLog (s : State) (x : Queue) : (setQueue s x).spdmLog = s.spdmLog := rfl
@[simp] theorem setQueue_responses (s : State) (x : Queue) : (setQueue s x).responses = s.responses := rfl

@[simp] theorem setArray_turns (s : State) (r : ArrayRef) (f : ArrayState → ArrayState) : (setArray s r f).turns = s.turns := rfl
@[simp] theorem setArray_cur (s : State) (r : ArrayRef) (f : ArrayState → ArrayState) : (setArray s r f).cur = s.cur := rfl
@[simp] theorem setArray_site (s : State) (r : ArrayRef) (f : ArrayState → ArrayState) : (setArray s r f).site = s.site := rfl
@[simp] theorem setArray_freeCtr (s : State) (r : ArrayRef) (f : ArrayState → ArrayState) : (setArray s r f).freeCtr = s.freeCtr := rfl
@[simp] theorem setArray_tick (s : State) (r : ArrayRef) (f : ArrayState → ArrayState) : (setArray s r f).tick = s.tick := rfl
@[simp] theorem setArray_powered (s : State) (r : ArrayRef) (f : ArrayState → ArrayState) : (setArray s r f).powered = s.powered := rfl
@[simp] theorem setArray_powerUps (s : State) (r : ArrayRef) (f : ArrayState → ArrayState) : (setArray s r f).powerUps = s.powerUps := rfl
@[simp] theorem setArray_linkUp (s : State) (r : ArrayRef) (f : ArrayState → ArrayState) : (setArray s r f).linkUp = s.linkUp := rfl
@[simp] theorem setArray_mem (s : State) (r : ArrayRef) (f : ArrayState → ArrayState) : (setArray s r f).mem = s.mem := rfl
@[simp] theorem setArray_lineTags (s : State) (r : ArrayRef) (f : ArrayState → ArrayState) : (setArray s r f).lineTags = s.lineTags := rfl
@[simp] theorem setArray_llc (s : State) (r : ArrayRef) (f : ArrayState → ArrayState) : (setArray s r f).llc = s.llc := rfl
@[simp] theorem setArray_residency (s : State) (r : ArrayRef) (f : ArrayState → ArrayState) : (setArray s r f).residency = s.residency := rfl
@[simp] theorem setArray_l2 (s : State) (r : ArrayRef) (f : ArrayState → ArrayState) : (setArray s r f).l2 = s.l2 := rfl
@[simp] theorem setArray_l1 (s : State) (r : ArrayRef) (f : ArrayState → ArrayState) : (setArray s r f).l1 = s.l1 := rfl
@[simp] theorem setArray_conversions (s : State) (r : ArrayRef) (f : ArrayState → ArrayState) : (setArray s r f).conversions = s.conversions := rfl
@[simp] theorem setArray_bucketEntries (s : State) (r : ArrayRef) (f : ArrayState → ArrayState) : (setArray s r f).bucketEntries = s.bucketEntries := rfl
@[simp] theorem setArray_buckets (s : State) (r : ArrayRef) (f : ArrayState → ArrayState) : (setArray s r f).buckets = s.buckets := rfl
@[simp] theorem setArray_portReqs (s : State) (r : ArrayRef) (f : ArrayState → ArrayState) : (setArray s r f).portReqs = s.portReqs := rfl
@[simp] theorem setArray_portTurn (s : State) (r : ArrayRef) (f : ArrayState → ArrayState) : (setArray s r f).portTurn = s.portTurn := rfl
@[simp] theorem setArray_tlb (s : State) (r : ArrayRef) (f : ArrayState → ArrayState) : (setArray s r f).tlb = s.tlb := rfl
@[simp] theorem setArray_latched (s : State) (r : ArrayRef) (f : ArrayState → ArrayState) : (setArray s r f).latched = s.latched := rfl
@[simp] theorem setArray_walkCache (s : State) (r : ArrayRef) (f : ArrayState → ArrayState) : (setArray s r f).walkCache = s.walkCache := rfl
@[simp] theorem setArray_walks (s : State) (r : ArrayRef) (f : ArrayState → ArrayState) : (setArray s r f).walks = s.walks := rfl
@[simp] theorem setArray_walkTurn (s : State) (r : ArrayRef) (f : ArrayState → ArrayState) : (setArray s r f).walkTurn = s.walkTurn := rfl
@[simp] theorem setArray_walkFaults (s : State) (r : ArrayRef) (f : ArrayState → ArrayState) : (setArray s r f).walkFaults = s.walkFaults := rfl
@[simp] theorem setArray_cows (s : State) (r : ArrayRef) (f : ArrayState → ArrayState) : (setArray s r f).cows = s.cows := rfl
@[simp] theorem setArray_cwempties (s : State) (r : ArrayRef) (f : ArrayState → ArrayState) : (setArray s r f).cwempties = s.cwempties := rfl
@[simp] theorem setArray_pulls (s : State) (r : ArrayRef) (f : ArrayState → ArrayState) : (setArray s r f).pulls = s.pulls := rfl
@[simp] theorem setArray_pullsSent (s : State) (r : ArrayRef) (f : ArrayState → ArrayState) : (setArray s r f).pullsSent = s.pullsSent := rfl
@[simp] theorem setArray_seqs (s : State) (r : ArrayRef) (f : ArrayState → ArrayState) : (setArray s r f).seqs = s.seqs := rfl
@[simp] theorem setArray_accesses (s : State) (r : ArrayRef) (f : ArrayState → ArrayState) : (setArray s r f).accesses = s.accesses := rfl
@[simp] theorem setArray_nextAcc (s : State) (r : ArrayRef) (f : ArrayState → ArrayState) : (setArray s r f).nextAcc = s.nextAcc := rfl
@[simp] theorem setArray_jobs (s : State) (r : ArrayRef) (f : ArrayState → ArrayState) : (setArray s r f).jobs = s.jobs := rfl
@[simp] theorem setArray_pchs (s : State) (r : ArrayRef) (f : ArrayState → ArrayState) : (setArray s r f).pchs = s.pchs := rfl
@[simp] theorem setArray_waggle (s : State) (r : ArrayRef) (f : ArrayState → ArrayState) : (setArray s r f).waggle = s.waggle := rfl
@[simp] theorem setArray_nodes (s : State) (r : ArrayRef) (f : ArrayState → ArrayState) : (setArray s r f).nodes = s.nodes := rfl
@[simp] theorem setArray_tiles (s : State) (r : ArrayRef) (f : ArrayState → ArrayState) : (setArray s r f).tiles = s.tiles := rfl
@[simp] theorem setArray_streams (s : State) (r : ArrayRef) (f : ArrayState → ArrayState) : (setArray s r f).streams = s.streams := rfl
@[simp] theorem setArray_instances (s : State) (r : ArrayRef) (f : ArrayState → ArrayState) : (setArray s r f).instances = s.instances := rfl
@[simp] theorem setArray_partials (s : State) (r : ArrayRef) (f : ArrayState → ArrayState) : (setArray s r f).partials = s.partials := rfl
@[simp] theorem setArray_graphs (s : State) (r : ArrayRef) (f : ArrayState → ArrayState) : (setArray s r f).graphs = s.graphs := rfl
@[simp] theorem setArray_tensors (s : State) (r : ArrayRef) (f : ArrayState → ArrayState) : (setArray s r f).tensors = s.tensors := rfl
@[simp] theorem setArray_launches (s : State) (r : ArrayRef) (f : ArrayState → ArrayState) : (setArray s r f).launches = s.launches := rfl
@[simp] theorem setArray_phases (s : State) (r : ArrayRef) (f : ArrayState → ArrayState) : (setArray s r f).phases = s.phases := rfl
@[simp] theorem setArray_jobRecs (s : State) (r : ArrayRef) (f : ArrayState → ArrayState) : (setArray s r f).jobRecs = s.jobRecs := rfl
@[simp] theorem setArray_barriers (s : State) (r : ArrayRef) (f : ArrayState → ArrayState) : (setArray s r f).barriers = s.barriers := rfl
@[simp] theorem setArray_queues (s : State) (r : ArrayRef) (f : ArrayState → ArrayState) : (setArray s r f).queues = s.queues := rfl
@[simp] theorem setArray_tailWatch (s : State) (r : ArrayRef) (f : ArrayState → ArrayState) : (setArray s r f).tailWatch = s.tailWatch := rfl
@[simp] theorem setArray_roundRobin (s : State) (r : ArrayRef) (f : ArrayState → ArrayState) : (setArray s r f).roundRobin = s.roundRobin := rfl
@[simp] theorem setArray_bids (s : State) (r : ArrayRef) (f : ArrayState → ArrayState) : (setArray s r f).bids = s.bids := rfl
@[simp] theorem setArray_grants (s : State) (r : ArrayRef) (f : ArrayState → ArrayState) : (setArray s r f).grants = s.grants := rfl
@[simp] theorem setArray_nextBid (s : State) (r : ArrayRef) (f : ArrayState → ArrayState) : (setArray s r f).nextBid = s.nextBid := rfl
@[simp] theorem setArray_cuts (s : State) (r : ArrayRef) (f : ArrayState → ArrayState) : (setArray s r f).cuts = s.cuts := rfl
@[simp] theorem setArray_savedCtxs (s : State) (r : ArrayRef) (f : ArrayState → ArrayState) : (setArray s r f).savedCtxs = s.savedCtxs := rfl
@[simp] theorem setArray_sealable (s : State) (r : ArrayRef) (f : ArrayState → ArrayState) : (setArray s r f).sealable = s.sealable := rfl
@[simp] theorem setArray_restores (s : State) (r : ArrayRef) (f : ArrayState → ArrayState) : (setArray s r f).restores = s.restores := rfl
@[simp] theorem setArray_parts (s : State) (r : ArrayRef) (f : ArrayState → ArrayState) : (setArray s r f).parts = s.parts := rfl
@[simp] theorem setArray_keySlots (s : State) (r : ArrayRef) (f : ArrayState → ArrayState) : (setArray s r f).keySlots = s.keySlots := rfl
@[simp] theorem setArray_slices (s : State) (r : ArrayRef) (f : ArrayState → ArrayState) : (setArray s r f).slices = s.slices := rfl
@[simp] theorem setArray_slicePend (s : State) (r : ArrayRef) (f : ArrayState → ArrayState) : (setArray s r f).slicePend = s.slicePend := rfl
@[simp] theorem setArray_lends (s : State) (r : ArrayRef) (f : ArrayState → ArrayState) : (setArray s r f).lends = s.lends := rfl
@[simp] theorem setArray_fresh (s : State) (r : ArrayRef) (f : ArrayState → ArrayState) : (setArray s r f).fresh = s.fresh := rfl
@[simp] theorem setArray_seed (s : State) (r : ArrayRef) (f : ArrayState → ArrayState) : (setArray s r f).seed = s.seed := rfl
@[simp] theorem setArray_piece (s : State) (r : ArrayRef) (f : ArrayState → ArrayState) : (setArray s r f).piece = s.piece := rfl
@[simp] theorem setArray_serving (s : State) (r : ArrayRef) (f : ArrayState → ArrayState) : (setArray s r f).serving = s.serving := rfl
@[simp] theorem setArray_summary (s : State) (r : ArrayRef) (f : ArrayState → ArrayState) : (setArray s r f).summary = s.summary := rfl
@[simp] theorem setArray_fwArea (s : State) (r : ArrayRef) (f : ArrayState → ArrayState) : (setArray s r f).fwArea = s.fwArea := rfl
@[simp] theorem setArray_minVersion (s : State) (r : ArrayRef) (f : ArrayState → ArrayState) : (setArray s r f).minVersion = s.minVersion := rfl
@[simp] theorem setArray_counters (s : State) (r : ArrayRef) (f : ArrayState → ArrayState) : (setArray s r f).counters = s.counters := rfl
@[simp] theorem setArray_meas (s : State) (r : ArrayRef) (f : ArrayState → ArrayState) : (setArray s r f).meas = s.meas := rfl
@[simp] theorem setArray_bstatErr (s : State) (r : ArrayRef) (f : ArrayState → ArrayState) : (setArray s r f).bstatErr = s.bstatErr := rfl
@[simp] theorem setArray_bstatStage (s : State) (r : ArrayRef) (f : ArrayState → ArrayState) : (setArray s r f).bstatStage = s.bstatStage := rfl
@[simp] theorem setArray_fwVersion (s : State) (r : ArrayRef) (f : ArrayState → ArrayState) : (setArray s r f).fwVersion = s.fwVersion := rfl
@[simp] theorem setArray_apertures (s : State) (r : ArrayRef) (f : ArrayState → ArrayState) : (setArray s r f).apertures = s.apertures := rfl
@[simp] theorem setArray_blackBox (s : State) (r : ArrayRef) (f : ArrayState → ArrayState) : (setArray s r f).blackBox = s.blackBox := rfl
@[simp] theorem setArray_sseqs (s : State) (r : ArrayRef) (f : ArrayState → ArrayState) : (setArray s r f).sseqs = s.sseqs := rfl
@[simp] theorem setArray_powerLimit (s : State) (r : ArrayRef) (f : ArrayState → ArrayState) : (setArray s r f).powerLimit = s.powerLimit := rfl
@[simp] theorem setArray_trimmed (s : State) (r : ArrayRef) (f : ArrayState → ArrayState) : (setArray s r f).trimmed = s.trimmed := rfl
@[simp] theorem setArray_spdm (s : State) (r : ArrayRef) (f : ArrayState → ArrayState) : (setArray s r f).spdm = s.spdm := rfl
@[simp] theorem setArray_spdmLog (s : State) (r : ArrayRef) (f : ArrayState → ArrayState) : (setArray s r f).spdmLog = s.spdmLog := rfl
@[simp] theorem setArray_responses (s : State) (r : ArrayRef) (f : ArrayState → ArrayState) : (setArray s r f).responses = s.responses := rfl

@[simp] theorem setKey_turns (s : State) (k : Nat) (st : KeyState) (key : KeyMat) : (setKey s k st key).turns = s.turns := rfl
@[simp] theorem setKey_cur (s : State) (k : Nat) (st : KeyState) (key : KeyMat) : (setKey s k st key).cur = s.cur := rfl
@[simp] theorem setKey_site (s : State) (k : Nat) (st : KeyState) (key : KeyMat) : (setKey s k st key).site = s.site := rfl
@[simp] theorem setKey_freeCtr (s : State) (k : Nat) (st : KeyState) (key : KeyMat) : (setKey s k st key).freeCtr = s.freeCtr := rfl
@[simp] theorem setKey_tick (s : State) (k : Nat) (st : KeyState) (key : KeyMat) : (setKey s k st key).tick = s.tick := rfl
@[simp] theorem setKey_powered (s : State) (k : Nat) (st : KeyState) (key : KeyMat) : (setKey s k st key).powered = s.powered := rfl
@[simp] theorem setKey_powerUps (s : State) (k : Nat) (st : KeyState) (key : KeyMat) : (setKey s k st key).powerUps = s.powerUps := rfl
@[simp] theorem setKey_linkUp (s : State) (k : Nat) (st : KeyState) (key : KeyMat) : (setKey s k st key).linkUp = s.linkUp := rfl
@[simp] theorem setKey_mem (s : State) (k : Nat) (st : KeyState) (key : KeyMat) : (setKey s k st key).mem = s.mem := rfl
@[simp] theorem setKey_lineTags (s : State) (k : Nat) (st : KeyState) (key : KeyMat) : (setKey s k st key).lineTags = s.lineTags := rfl
@[simp] theorem setKey_llc (s : State) (k : Nat) (st : KeyState) (key : KeyMat) : (setKey s k st key).llc = s.llc := rfl
@[simp] theorem setKey_residency (s : State) (k : Nat) (st : KeyState) (key : KeyMat) : (setKey s k st key).residency = s.residency := rfl
@[simp] theorem setKey_l2 (s : State) (k : Nat) (st : KeyState) (key : KeyMat) : (setKey s k st key).l2 = s.l2 := rfl
@[simp] theorem setKey_l1 (s : State) (k : Nat) (st : KeyState) (key : KeyMat) : (setKey s k st key).l1 = s.l1 := rfl
@[simp] theorem setKey_arrays (s : State) (k : Nat) (st : KeyState) (key : KeyMat) : (setKey s k st key).arrays = s.arrays := rfl
@[simp] theorem setKey_conversions (s : State) (k : Nat) (st : KeyState) (key : KeyMat) : (setKey s k st key).conversions = s.conversions := rfl
@[simp] theorem setKey_bucketEntries (s : State) (k : Nat) (st : KeyState) (key : KeyMat) : (setKey s k st key).bucketEntries = s.bucketEntries := rfl
@[simp] theorem setKey_buckets (s : State) (k : Nat) (st : KeyState) (key : KeyMat) : (setKey s k st key).buckets = s.buckets := rfl
@[simp] theorem setKey_portReqs (s : State) (k : Nat) (st : KeyState) (key : KeyMat) : (setKey s k st key).portReqs = s.portReqs := rfl
@[simp] theorem setKey_portTurn (s : State) (k : Nat) (st : KeyState) (key : KeyMat) : (setKey s k st key).portTurn = s.portTurn := rfl
@[simp] theorem setKey_tlb (s : State) (k : Nat) (st : KeyState) (key : KeyMat) : (setKey s k st key).tlb = s.tlb := rfl
@[simp] theorem setKey_latched (s : State) (k : Nat) (st : KeyState) (key : KeyMat) : (setKey s k st key).latched = s.latched := rfl
@[simp] theorem setKey_walkCache (s : State) (k : Nat) (st : KeyState) (key : KeyMat) : (setKey s k st key).walkCache = s.walkCache := rfl
@[simp] theorem setKey_walks (s : State) (k : Nat) (st : KeyState) (key : KeyMat) : (setKey s k st key).walks = s.walks := rfl
@[simp] theorem setKey_walkTurn (s : State) (k : Nat) (st : KeyState) (key : KeyMat) : (setKey s k st key).walkTurn = s.walkTurn := rfl
@[simp] theorem setKey_walkFaults (s : State) (k : Nat) (st : KeyState) (key : KeyMat) : (setKey s k st key).walkFaults = s.walkFaults := rfl
@[simp] theorem setKey_cows (s : State) (k : Nat) (st : KeyState) (key : KeyMat) : (setKey s k st key).cows = s.cows := rfl
@[simp] theorem setKey_cwempties (s : State) (k : Nat) (st : KeyState) (key : KeyMat) : (setKey s k st key).cwempties = s.cwempties := rfl
@[simp] theorem setKey_pulls (s : State) (k : Nat) (st : KeyState) (key : KeyMat) : (setKey s k st key).pulls = s.pulls := rfl
@[simp] theorem setKey_pullsSent (s : State) (k : Nat) (st : KeyState) (key : KeyMat) : (setKey s k st key).pullsSent = s.pullsSent := rfl
@[simp] theorem setKey_seqs (s : State) (k : Nat) (st : KeyState) (key : KeyMat) : (setKey s k st key).seqs = s.seqs := rfl
@[simp] theorem setKey_accesses (s : State) (k : Nat) (st : KeyState) (key : KeyMat) : (setKey s k st key).accesses = s.accesses := rfl
@[simp] theorem setKey_nextAcc (s : State) (k : Nat) (st : KeyState) (key : KeyMat) : (setKey s k st key).nextAcc = s.nextAcc := rfl
@[simp] theorem setKey_jobs (s : State) (k : Nat) (st : KeyState) (key : KeyMat) : (setKey s k st key).jobs = s.jobs := rfl
@[simp] theorem setKey_pchs (s : State) (k : Nat) (st : KeyState) (key : KeyMat) : (setKey s k st key).pchs = s.pchs := rfl
@[simp] theorem setKey_waggle (s : State) (k : Nat) (st : KeyState) (key : KeyMat) : (setKey s k st key).waggle = s.waggle := rfl
@[simp] theorem setKey_nodes (s : State) (k : Nat) (st : KeyState) (key : KeyMat) : (setKey s k st key).nodes = s.nodes := rfl
@[simp] theorem setKey_tiles (s : State) (k : Nat) (st : KeyState) (key : KeyMat) : (setKey s k st key).tiles = s.tiles := rfl
@[simp] theorem setKey_streams (s : State) (k : Nat) (st : KeyState) (key : KeyMat) : (setKey s k st key).streams = s.streams := rfl
@[simp] theorem setKey_instances (s : State) (k : Nat) (st : KeyState) (key : KeyMat) : (setKey s k st key).instances = s.instances := rfl
@[simp] theorem setKey_partials (s : State) (k : Nat) (st : KeyState) (key : KeyMat) : (setKey s k st key).partials = s.partials := rfl
@[simp] theorem setKey_graphs (s : State) (k : Nat) (st : KeyState) (key : KeyMat) : (setKey s k st key).graphs = s.graphs := rfl
@[simp] theorem setKey_tensors (s : State) (k : Nat) (st : KeyState) (key : KeyMat) : (setKey s k st key).tensors = s.tensors := rfl
@[simp] theorem setKey_launches (s : State) (k : Nat) (st : KeyState) (key : KeyMat) : (setKey s k st key).launches = s.launches := rfl
@[simp] theorem setKey_phases (s : State) (k : Nat) (st : KeyState) (key : KeyMat) : (setKey s k st key).phases = s.phases := rfl
@[simp] theorem setKey_jobRecs (s : State) (k : Nat) (st : KeyState) (key : KeyMat) : (setKey s k st key).jobRecs = s.jobRecs := rfl
@[simp] theorem setKey_barriers (s : State) (k : Nat) (st : KeyState) (key : KeyMat) : (setKey s k st key).barriers = s.barriers := rfl
@[simp] theorem setKey_queues (s : State) (k : Nat) (st : KeyState) (key : KeyMat) : (setKey s k st key).queues = s.queues := rfl
@[simp] theorem setKey_tailWatch (s : State) (k : Nat) (st : KeyState) (key : KeyMat) : (setKey s k st key).tailWatch = s.tailWatch := rfl
@[simp] theorem setKey_roundRobin (s : State) (k : Nat) (st : KeyState) (key : KeyMat) : (setKey s k st key).roundRobin = s.roundRobin := rfl
@[simp] theorem setKey_bids (s : State) (k : Nat) (st : KeyState) (key : KeyMat) : (setKey s k st key).bids = s.bids := rfl
@[simp] theorem setKey_grants (s : State) (k : Nat) (st : KeyState) (key : KeyMat) : (setKey s k st key).grants = s.grants := rfl
@[simp] theorem setKey_nextBid (s : State) (k : Nat) (st : KeyState) (key : KeyMat) : (setKey s k st key).nextBid = s.nextBid := rfl
@[simp] theorem setKey_cuts (s : State) (k : Nat) (st : KeyState) (key : KeyMat) : (setKey s k st key).cuts = s.cuts := rfl
@[simp] theorem setKey_savedCtxs (s : State) (k : Nat) (st : KeyState) (key : KeyMat) : (setKey s k st key).savedCtxs = s.savedCtxs := rfl
@[simp] theorem setKey_sealable (s : State) (k : Nat) (st : KeyState) (key : KeyMat) : (setKey s k st key).sealable = s.sealable := rfl
@[simp] theorem setKey_restores (s : State) (k : Nat) (st : KeyState) (key : KeyMat) : (setKey s k st key).restores = s.restores := rfl
@[simp] theorem setKey_parts (s : State) (k : Nat) (st : KeyState) (key : KeyMat) : (setKey s k st key).parts = s.parts := rfl
@[simp] theorem setKey_slices (s : State) (k : Nat) (st : KeyState) (key : KeyMat) : (setKey s k st key).slices = s.slices := rfl
@[simp] theorem setKey_slicePend (s : State) (k : Nat) (st : KeyState) (key : KeyMat) : (setKey s k st key).slicePend = s.slicePend := rfl
@[simp] theorem setKey_lends (s : State) (k : Nat) (st : KeyState) (key : KeyMat) : (setKey s k st key).lends = s.lends := rfl
@[simp] theorem setKey_fresh (s : State) (k : Nat) (st : KeyState) (key : KeyMat) : (setKey s k st key).fresh = s.fresh := rfl
@[simp] theorem setKey_seed (s : State) (k : Nat) (st : KeyState) (key : KeyMat) : (setKey s k st key).seed = s.seed := rfl
@[simp] theorem setKey_piece (s : State) (k : Nat) (st : KeyState) (key : KeyMat) : (setKey s k st key).piece = s.piece := rfl
@[simp] theorem setKey_serving (s : State) (k : Nat) (st : KeyState) (key : KeyMat) : (setKey s k st key).serving = s.serving := rfl
@[simp] theorem setKey_summary (s : State) (k : Nat) (st : KeyState) (key : KeyMat) : (setKey s k st key).summary = s.summary := rfl
@[simp] theorem setKey_fwArea (s : State) (k : Nat) (st : KeyState) (key : KeyMat) : (setKey s k st key).fwArea = s.fwArea := rfl
@[simp] theorem setKey_minVersion (s : State) (k : Nat) (st : KeyState) (key : KeyMat) : (setKey s k st key).minVersion = s.minVersion := rfl
@[simp] theorem setKey_counters (s : State) (k : Nat) (st : KeyState) (key : KeyMat) : (setKey s k st key).counters = s.counters := rfl
@[simp] theorem setKey_meas (s : State) (k : Nat) (st : KeyState) (key : KeyMat) : (setKey s k st key).meas = s.meas := rfl
@[simp] theorem setKey_bstatErr (s : State) (k : Nat) (st : KeyState) (key : KeyMat) : (setKey s k st key).bstatErr = s.bstatErr := rfl
@[simp] theorem setKey_bstatStage (s : State) (k : Nat) (st : KeyState) (key : KeyMat) : (setKey s k st key).bstatStage = s.bstatStage := rfl
@[simp] theorem setKey_fwVersion (s : State) (k : Nat) (st : KeyState) (key : KeyMat) : (setKey s k st key).fwVersion = s.fwVersion := rfl
@[simp] theorem setKey_apertures (s : State) (k : Nat) (st : KeyState) (key : KeyMat) : (setKey s k st key).apertures = s.apertures := rfl
@[simp] theorem setKey_blackBox (s : State) (k : Nat) (st : KeyState) (key : KeyMat) : (setKey s k st key).blackBox = s.blackBox := rfl
@[simp] theorem setKey_sseqs (s : State) (k : Nat) (st : KeyState) (key : KeyMat) : (setKey s k st key).sseqs = s.sseqs := rfl
@[simp] theorem setKey_powerLimit (s : State) (k : Nat) (st : KeyState) (key : KeyMat) : (setKey s k st key).powerLimit = s.powerLimit := rfl
@[simp] theorem setKey_trimmed (s : State) (k : Nat) (st : KeyState) (key : KeyMat) : (setKey s k st key).trimmed = s.trimmed := rfl
@[simp] theorem setKey_spdm (s : State) (k : Nat) (st : KeyState) (key : KeyMat) : (setKey s k st key).spdm = s.spdm := rfl
@[simp] theorem setKey_spdmLog (s : State) (k : Nat) (st : KeyState) (key : KeyMat) : (setKey s k st key).spdmLog = s.spdmLog := rfl
@[simp] theorem setKey_responses (s : State) (k : Nat) (st : KeyState) (key : KeyMat) : (setKey s k st key).responses = s.responses := rfl

@[simp] theorem issue_turns (s : State) (a : Access) : (issue s a).turns = s.turns := rfl
@[simp] theorem issue_cur (s : State) (a : Access) : (issue s a).cur = s.cur := rfl
@[simp] theorem issue_site (s : State) (a : Access) : (issue s a).site = s.site := rfl
@[simp] theorem issue_freeCtr (s : State) (a : Access) : (issue s a).freeCtr = s.freeCtr := rfl
@[simp] theorem issue_tick (s : State) (a : Access) : (issue s a).tick = s.tick := rfl
@[simp] theorem issue_powered (s : State) (a : Access) : (issue s a).powered = s.powered := rfl
@[simp] theorem issue_powerUps (s : State) (a : Access) : (issue s a).powerUps = s.powerUps := rfl
@[simp] theorem issue_linkUp (s : State) (a : Access) : (issue s a).linkUp = s.linkUp := rfl
@[simp] theorem issue_mem (s : State) (a : Access) : (issue s a).mem = s.mem := rfl
@[simp] theorem issue_lineTags (s : State) (a : Access) : (issue s a).lineTags = s.lineTags := rfl
@[simp] theorem issue_llc (s : State) (a : Access) : (issue s a).llc = s.llc := rfl
@[simp] theorem issue_residency (s : State) (a : Access) : (issue s a).residency = s.residency := rfl
@[simp] theorem issue_l2 (s : State) (a : Access) : (issue s a).l2 = s.l2 := rfl
@[simp] theorem issue_l1 (s : State) (a : Access) : (issue s a).l1 = s.l1 := rfl
@[simp] theorem issue_arrays (s : State) (a : Access) : (issue s a).arrays = s.arrays := rfl
@[simp] theorem issue_conversions (s : State) (a : Access) : (issue s a).conversions = s.conversions := rfl
@[simp] theorem issue_bucketEntries (s : State) (a : Access) : (issue s a).bucketEntries = s.bucketEntries := rfl
@[simp] theorem issue_buckets (s : State) (a : Access) : (issue s a).buckets = s.buckets := rfl
@[simp] theorem issue_portReqs (s : State) (a : Access) : (issue s a).portReqs = s.portReqs := rfl
@[simp] theorem issue_portTurn (s : State) (a : Access) : (issue s a).portTurn = s.portTurn := rfl
@[simp] theorem issue_tlb (s : State) (a : Access) : (issue s a).tlb = s.tlb := rfl
@[simp] theorem issue_latched (s : State) (a : Access) : (issue s a).latched = s.latched := rfl
@[simp] theorem issue_walkCache (s : State) (a : Access) : (issue s a).walkCache = s.walkCache := rfl
@[simp] theorem issue_walks (s : State) (a : Access) : (issue s a).walks = s.walks := rfl
@[simp] theorem issue_walkTurn (s : State) (a : Access) : (issue s a).walkTurn = s.walkTurn := rfl
@[simp] theorem issue_walkFaults (s : State) (a : Access) : (issue s a).walkFaults = s.walkFaults := rfl
@[simp] theorem issue_cows (s : State) (a : Access) : (issue s a).cows = s.cows := rfl
@[simp] theorem issue_cwempties (s : State) (a : Access) : (issue s a).cwempties = s.cwempties := rfl
@[simp] theorem issue_pulls (s : State) (a : Access) : (issue s a).pulls = s.pulls := rfl
@[simp] theorem issue_pullsSent (s : State) (a : Access) : (issue s a).pullsSent = s.pullsSent := rfl
@[simp] theorem issue_seqs (s : State) (a : Access) : (issue s a).seqs = s.seqs := rfl
@[simp] theorem issue_jobs (s : State) (a : Access) : (issue s a).jobs = s.jobs := rfl
@[simp] theorem issue_pchs (s : State) (a : Access) : (issue s a).pchs = s.pchs := rfl
@[simp] theorem issue_waggle (s : State) (a : Access) : (issue s a).waggle = s.waggle := rfl
@[simp] theorem issue_nodes (s : State) (a : Access) : (issue s a).nodes = s.nodes := rfl
@[simp] theorem issue_tiles (s : State) (a : Access) : (issue s a).tiles = s.tiles := rfl
@[simp] theorem issue_streams (s : State) (a : Access) : (issue s a).streams = s.streams := rfl
@[simp] theorem issue_instances (s : State) (a : Access) : (issue s a).instances = s.instances := rfl
@[simp] theorem issue_partials (s : State) (a : Access) : (issue s a).partials = s.partials := rfl
@[simp] theorem issue_graphs (s : State) (a : Access) : (issue s a).graphs = s.graphs := rfl
@[simp] theorem issue_tensors (s : State) (a : Access) : (issue s a).tensors = s.tensors := rfl
@[simp] theorem issue_launches (s : State) (a : Access) : (issue s a).launches = s.launches := rfl
@[simp] theorem issue_phases (s : State) (a : Access) : (issue s a).phases = s.phases := rfl
@[simp] theorem issue_jobRecs (s : State) (a : Access) : (issue s a).jobRecs = s.jobRecs := rfl
@[simp] theorem issue_barriers (s : State) (a : Access) : (issue s a).barriers = s.barriers := rfl
@[simp] theorem issue_queues (s : State) (a : Access) : (issue s a).queues = s.queues := rfl
@[simp] theorem issue_tailWatch (s : State) (a : Access) : (issue s a).tailWatch = s.tailWatch := rfl
@[simp] theorem issue_roundRobin (s : State) (a : Access) : (issue s a).roundRobin = s.roundRobin := rfl
@[simp] theorem issue_bids (s : State) (a : Access) : (issue s a).bids = s.bids := rfl
@[simp] theorem issue_grants (s : State) (a : Access) : (issue s a).grants = s.grants := rfl
@[simp] theorem issue_nextBid (s : State) (a : Access) : (issue s a).nextBid = s.nextBid := rfl
@[simp] theorem issue_cuts (s : State) (a : Access) : (issue s a).cuts = s.cuts := rfl
@[simp] theorem issue_savedCtxs (s : State) (a : Access) : (issue s a).savedCtxs = s.savedCtxs := rfl
@[simp] theorem issue_sealable (s : State) (a : Access) : (issue s a).sealable = s.sealable := rfl
@[simp] theorem issue_restores (s : State) (a : Access) : (issue s a).restores = s.restores := rfl
@[simp] theorem issue_parts (s : State) (a : Access) : (issue s a).parts = s.parts := rfl
@[simp] theorem issue_keySlots (s : State) (a : Access) : (issue s a).keySlots = s.keySlots := rfl
@[simp] theorem issue_slices (s : State) (a : Access) : (issue s a).slices = s.slices := rfl
@[simp] theorem issue_slicePend (s : State) (a : Access) : (issue s a).slicePend = s.slicePend := rfl
@[simp] theorem issue_lends (s : State) (a : Access) : (issue s a).lends = s.lends := rfl
@[simp] theorem issue_fresh (s : State) (a : Access) : (issue s a).fresh = s.fresh := rfl
@[simp] theorem issue_seed (s : State) (a : Access) : (issue s a).seed = s.seed := rfl
@[simp] theorem issue_piece (s : State) (a : Access) : (issue s a).piece = s.piece := rfl
@[simp] theorem issue_serving (s : State) (a : Access) : (issue s a).serving = s.serving := rfl
@[simp] theorem issue_summary (s : State) (a : Access) : (issue s a).summary = s.summary := rfl
@[simp] theorem issue_fwArea (s : State) (a : Access) : (issue s a).fwArea = s.fwArea := rfl
@[simp] theorem issue_minVersion (s : State) (a : Access) : (issue s a).minVersion = s.minVersion := rfl
@[simp] theorem issue_counters (s : State) (a : Access) : (issue s a).counters = s.counters := rfl
@[simp] theorem issue_meas (s : State) (a : Access) : (issue s a).meas = s.meas := rfl
@[simp] theorem issue_bstatErr (s : State) (a : Access) : (issue s a).bstatErr = s.bstatErr := rfl
@[simp] theorem issue_bstatStage (s : State) (a : Access) : (issue s a).bstatStage = s.bstatStage := rfl
@[simp] theorem issue_fwVersion (s : State) (a : Access) : (issue s a).fwVersion = s.fwVersion := rfl
@[simp] theorem issue_apertures (s : State) (a : Access) : (issue s a).apertures = s.apertures := rfl
@[simp] theorem issue_blackBox (s : State) (a : Access) : (issue s a).blackBox = s.blackBox := rfl
@[simp] theorem issue_sseqs (s : State) (a : Access) : (issue s a).sseqs = s.sseqs := rfl
@[simp] theorem issue_powerLimit (s : State) (a : Access) : (issue s a).powerLimit = s.powerLimit := rfl
@[simp] theorem issue_trimmed (s : State) (a : Access) : (issue s a).trimmed = s.trimmed := rfl
@[simp] theorem issue_spdm (s : State) (a : Access) : (issue s a).spdm = s.spdm := rfl
@[simp] theorem issue_spdmLog (s : State) (a : Access) : (issue s a).spdmLog = s.spdmLog := rfl
@[simp] theorem issue_responses (s : State) (a : Access) : (issue s a).responses = s.responses := rfl

/-! ## Updates of a sequencer -/

@[simp] theorem Seq.next_regs (c : Seq) : (c.next).regs = c.regs := rfl
@[simp] theorem Seq.next_preds (c : Seq) : (c.next).preds = c.preds := rfl
@[simp] theorem Seq.next_ras (c : Seq) : (c.next).ras = c.ras := rfl
@[simp] theorem Seq.next_depth (c : Seq) : (c.next).depth = c.depth := rfl
@[simp] theorem Seq.next_faddr (c : Seq) : (c.next).faddr = c.faddr := rfl
@[simp] theorem Seq.next_finfo (c : Seq) : (c.next).finfo = c.finfo := rfl
@[simp] theorem Seq.next_epc (c : Seq) : (c.next).epc = c.epc := rfl
@[simp] theorem Seq.next_ecode (c : Seq) : (c.next).ecode = c.ecode := rfl
@[simp] theorem Seq.next_h (c : Seq) : (c.next).h = c.h := rfl
@[simp] theorem Seq.next_tvec (c : Seq) : (c.next).tvec = c.tvec := rfl
@[simp] theorem Seq.next_escr (c : Seq) : (c.next).escr = c.escr := rfl
@[simp] theorem Seq.next_eword (c : Seq) : (c.next).eword = c.eword := rfl
@[simp] theorem Seq.next_ctag (c : Seq) : (c.next).ctag = c.ctag := rfl
@[simp] theorem Seq.next_ctagf (c : Seq) : (c.next).ctagf = c.ctagf := rfl
@[simp] theorem Seq.next_ctbusy (c : Seq) : (c.next).ctbusy = c.ctbusy := rfl
@[simp] theorem Seq.next_cfaddr (c : Seq) : (c.next).cfaddr = c.cfaddr := rfl
@[simp] theorem Seq.next_cfinfo (c : Seq) : (c.next).cfinfo = c.cfinfo := rfl
@[simp] theorem Seq.next_frec0 (c : Seq) : (c.next).frec0 = c.frec0 := rfl
@[simp] theorem Seq.next_frec1 (c : Seq) : (c.next).frec1 = c.frec1 := rfl
@[simp] theorem Seq.next_frec2 (c : Seq) : (c.next).frec2 = c.frec2 := rfl
@[simp] theorem Seq.next_frec3 (c : Seq) : (c.next).frec3 = c.frec3 := rfl
@[simp] theorem Seq.next_ahead (c : Seq) : (c.next).ahead = c.ahead := rfl
@[simp] theorem Seq.next_run (c : Seq) : (c.next).run = c.run := rfl
@[simp] theorem Seq.next_wait (c : Seq) : (c.next).wait = c.wait := rfl

@[simp] theorem Seq.next2_regs (c : Seq) : (c.next2).regs = c.regs := rfl
@[simp] theorem Seq.next2_preds (c : Seq) : (c.next2).preds = c.preds := rfl
@[simp] theorem Seq.next2_ras (c : Seq) : (c.next2).ras = c.ras := rfl
@[simp] theorem Seq.next2_depth (c : Seq) : (c.next2).depth = c.depth := rfl
@[simp] theorem Seq.next2_faddr (c : Seq) : (c.next2).faddr = c.faddr := rfl
@[simp] theorem Seq.next2_finfo (c : Seq) : (c.next2).finfo = c.finfo := rfl
@[simp] theorem Seq.next2_epc (c : Seq) : (c.next2).epc = c.epc := rfl
@[simp] theorem Seq.next2_ecode (c : Seq) : (c.next2).ecode = c.ecode := rfl
@[simp] theorem Seq.next2_h (c : Seq) : (c.next2).h = c.h := rfl
@[simp] theorem Seq.next2_tvec (c : Seq) : (c.next2).tvec = c.tvec := rfl
@[simp] theorem Seq.next2_escr (c : Seq) : (c.next2).escr = c.escr := rfl
@[simp] theorem Seq.next2_eword (c : Seq) : (c.next2).eword = c.eword := rfl
@[simp] theorem Seq.next2_ctag (c : Seq) : (c.next2).ctag = c.ctag := rfl
@[simp] theorem Seq.next2_ctagf (c : Seq) : (c.next2).ctagf = c.ctagf := rfl
@[simp] theorem Seq.next2_ctbusy (c : Seq) : (c.next2).ctbusy = c.ctbusy := rfl
@[simp] theorem Seq.next2_cfaddr (c : Seq) : (c.next2).cfaddr = c.cfaddr := rfl
@[simp] theorem Seq.next2_cfinfo (c : Seq) : (c.next2).cfinfo = c.cfinfo := rfl
@[simp] theorem Seq.next2_frec0 (c : Seq) : (c.next2).frec0 = c.frec0 := rfl
@[simp] theorem Seq.next2_frec1 (c : Seq) : (c.next2).frec1 = c.frec1 := rfl
@[simp] theorem Seq.next2_frec2 (c : Seq) : (c.next2).frec2 = c.frec2 := rfl
@[simp] theorem Seq.next2_frec3 (c : Seq) : (c.next2).frec3 = c.frec3 := rfl
@[simp] theorem Seq.next2_ahead (c : Seq) : (c.next2).ahead = c.ahead := rfl
@[simp] theorem Seq.next2_run (c : Seq) : (c.next2).run = c.run := rfl
@[simp] theorem Seq.next2_wait (c : Seq) : (c.next2).wait = c.wait := rfl

@[simp] theorem Seq.jump_regs (c : Seq) (x : Word) : (c.jump x).regs = c.regs := rfl
@[simp] theorem Seq.jump_preds (c : Seq) (x : Word) : (c.jump x).preds = c.preds := rfl
@[simp] theorem Seq.jump_ras (c : Seq) (x : Word) : (c.jump x).ras = c.ras := rfl
@[simp] theorem Seq.jump_depth (c : Seq) (x : Word) : (c.jump x).depth = c.depth := rfl
@[simp] theorem Seq.jump_faddr (c : Seq) (x : Word) : (c.jump x).faddr = c.faddr := rfl
@[simp] theorem Seq.jump_finfo (c : Seq) (x : Word) : (c.jump x).finfo = c.finfo := rfl
@[simp] theorem Seq.jump_epc (c : Seq) (x : Word) : (c.jump x).epc = c.epc := rfl
@[simp] theorem Seq.jump_ecode (c : Seq) (x : Word) : (c.jump x).ecode = c.ecode := rfl
@[simp] theorem Seq.jump_h (c : Seq) (x : Word) : (c.jump x).h = c.h := rfl
@[simp] theorem Seq.jump_tvec (c : Seq) (x : Word) : (c.jump x).tvec = c.tvec := rfl
@[simp] theorem Seq.jump_escr (c : Seq) (x : Word) : (c.jump x).escr = c.escr := rfl
@[simp] theorem Seq.jump_eword (c : Seq) (x : Word) : (c.jump x).eword = c.eword := rfl
@[simp] theorem Seq.jump_ctag (c : Seq) (x : Word) : (c.jump x).ctag = c.ctag := rfl
@[simp] theorem Seq.jump_ctagf (c : Seq) (x : Word) : (c.jump x).ctagf = c.ctagf := rfl
@[simp] theorem Seq.jump_ctbusy (c : Seq) (x : Word) : (c.jump x).ctbusy = c.ctbusy := rfl
@[simp] theorem Seq.jump_cfaddr (c : Seq) (x : Word) : (c.jump x).cfaddr = c.cfaddr := rfl
@[simp] theorem Seq.jump_cfinfo (c : Seq) (x : Word) : (c.jump x).cfinfo = c.cfinfo := rfl
@[simp] theorem Seq.jump_frec0 (c : Seq) (x : Word) : (c.jump x).frec0 = c.frec0 := rfl
@[simp] theorem Seq.jump_frec1 (c : Seq) (x : Word) : (c.jump x).frec1 = c.frec1 := rfl
@[simp] theorem Seq.jump_frec2 (c : Seq) (x : Word) : (c.jump x).frec2 = c.frec2 := rfl
@[simp] theorem Seq.jump_frec3 (c : Seq) (x : Word) : (c.jump x).frec3 = c.frec3 := rfl
@[simp] theorem Seq.jump_run (c : Seq) (x : Word) : (c.jump x).run = c.run := rfl
@[simp] theorem Seq.jump_wait (c : Seq) (x : Word) : (c.jump x).wait = c.wait := rfl

@[simp] theorem Seq.setReg_preds (c : Seq) (d : Reg) (v : Word) : (c.setReg d v).preds = c.preds := by unfold Seq.setReg; split <;> rfl
@[simp] theorem Seq.setReg_pc (c : Seq) (d : Reg) (v : Word) : (c.setReg d v).pc = c.pc := by unfold Seq.setReg; split <;> rfl
@[simp] theorem Seq.setReg_ras (c : Seq) (d : Reg) (v : Word) : (c.setReg d v).ras = c.ras := by unfold Seq.setReg; split <;> rfl
@[simp] theorem Seq.setReg_depth (c : Seq) (d : Reg) (v : Word) : (c.setReg d v).depth = c.depth := by unfold Seq.setReg; split <;> rfl
@[simp] theorem Seq.setReg_faddr (c : Seq) (d : Reg) (v : Word) : (c.setReg d v).faddr = c.faddr := by unfold Seq.setReg; split <;> rfl
@[simp] theorem Seq.setReg_finfo (c : Seq) (d : Reg) (v : Word) : (c.setReg d v).finfo = c.finfo := by unfold Seq.setReg; split <;> rfl
@[simp] theorem Seq.setReg_epc (c : Seq) (d : Reg) (v : Word) : (c.setReg d v).epc = c.epc := by unfold Seq.setReg; split <;> rfl
@[simp] theorem Seq.setReg_ecode (c : Seq) (d : Reg) (v : Word) : (c.setReg d v).ecode = c.ecode := by unfold Seq.setReg; split <;> rfl
@[simp] theorem Seq.setReg_h (c : Seq) (d : Reg) (v : Word) : (c.setReg d v).h = c.h := by unfold Seq.setReg; split <;> rfl
@[simp] theorem Seq.setReg_tvec (c : Seq) (d : Reg) (v : Word) : (c.setReg d v).tvec = c.tvec := by unfold Seq.setReg; split <;> rfl
@[simp] theorem Seq.setReg_escr (c : Seq) (d : Reg) (v : Word) : (c.setReg d v).escr = c.escr := by unfold Seq.setReg; split <;> rfl
@[simp] theorem Seq.setReg_eword (c : Seq) (d : Reg) (v : Word) : (c.setReg d v).eword = c.eword := by unfold Seq.setReg; split <;> rfl
@[simp] theorem Seq.setReg_ctag (c : Seq) (d : Reg) (v : Word) : (c.setReg d v).ctag = c.ctag := by unfold Seq.setReg; split <;> rfl
@[simp] theorem Seq.setReg_ctagf (c : Seq) (d : Reg) (v : Word) : (c.setReg d v).ctagf = c.ctagf := by unfold Seq.setReg; split <;> rfl
@[simp] theorem Seq.setReg_ctbusy (c : Seq) (d : Reg) (v : Word) : (c.setReg d v).ctbusy = c.ctbusy := by unfold Seq.setReg; split <;> rfl
@[simp] theorem Seq.setReg_cfaddr (c : Seq) (d : Reg) (v : Word) : (c.setReg d v).cfaddr = c.cfaddr := by unfold Seq.setReg; split <;> rfl
@[simp] theorem Seq.setReg_cfinfo (c : Seq) (d : Reg) (v : Word) : (c.setReg d v).cfinfo = c.cfinfo := by unfold Seq.setReg; split <;> rfl
@[simp] theorem Seq.setReg_frec0 (c : Seq) (d : Reg) (v : Word) : (c.setReg d v).frec0 = c.frec0 := by unfold Seq.setReg; split <;> rfl
@[simp] theorem Seq.setReg_frec1 (c : Seq) (d : Reg) (v : Word) : (c.setReg d v).frec1 = c.frec1 := by unfold Seq.setReg; split <;> rfl
@[simp] theorem Seq.setReg_frec2 (c : Seq) (d : Reg) (v : Word) : (c.setReg d v).frec2 = c.frec2 := by unfold Seq.setReg; split <;> rfl
@[simp] theorem Seq.setReg_frec3 (c : Seq) (d : Reg) (v : Word) : (c.setReg d v).frec3 = c.frec3 := by unfold Seq.setReg; split <;> rfl
@[simp] theorem Seq.setReg_ahead (c : Seq) (d : Reg) (v : Word) : (c.setReg d v).ahead = c.ahead := by unfold Seq.setReg; split <;> rfl
@[simp] theorem Seq.setReg_run (c : Seq) (d : Reg) (v : Word) : (c.setReg d v).run = c.run := by unfold Seq.setReg; split <;> rfl
@[simp] theorem Seq.setReg_wait (c : Seq) (d : Reg) (v : Word) : (c.setReg d v).wait = c.wait := by unfold Seq.setReg; split <;> rfl

@[simp] theorem Seq.setPred_regs (c : Seq) (d : Pred) (v : Bool) : (c.setPred d v).regs = c.regs := by unfold Seq.setPred; split <;> rfl
@[simp] theorem Seq.setPred_pc (c : Seq) (d : Pred) (v : Bool) : (c.setPred d v).pc = c.pc := by unfold Seq.setPred; split <;> rfl
@[simp] theorem Seq.setPred_ras (c : Seq) (d : Pred) (v : Bool) : (c.setPred d v).ras = c.ras := by unfold Seq.setPred; split <;> rfl
@[simp] theorem Seq.setPred_depth (c : Seq) (d : Pred) (v : Bool) : (c.setPred d v).depth = c.depth := by unfold Seq.setPred; split <;> rfl
@[simp] theorem Seq.setPred_faddr (c : Seq) (d : Pred) (v : Bool) : (c.setPred d v).faddr = c.faddr := by unfold Seq.setPred; split <;> rfl
@[simp] theorem Seq.setPred_finfo (c : Seq) (d : Pred) (v : Bool) : (c.setPred d v).finfo = c.finfo := by unfold Seq.setPred; split <;> rfl
@[simp] theorem Seq.setPred_epc (c : Seq) (d : Pred) (v : Bool) : (c.setPred d v).epc = c.epc := by unfold Seq.setPred; split <;> rfl
@[simp] theorem Seq.setPred_ecode (c : Seq) (d : Pred) (v : Bool) : (c.setPred d v).ecode = c.ecode := by unfold Seq.setPred; split <;> rfl
@[simp] theorem Seq.setPred_h (c : Seq) (d : Pred) (v : Bool) : (c.setPred d v).h = c.h := by unfold Seq.setPred; split <;> rfl
@[simp] theorem Seq.setPred_tvec (c : Seq) (d : Pred) (v : Bool) : (c.setPred d v).tvec = c.tvec := by unfold Seq.setPred; split <;> rfl
@[simp] theorem Seq.setPred_escr (c : Seq) (d : Pred) (v : Bool) : (c.setPred d v).escr = c.escr := by unfold Seq.setPred; split <;> rfl
@[simp] theorem Seq.setPred_eword (c : Seq) (d : Pred) (v : Bool) : (c.setPred d v).eword = c.eword := by unfold Seq.setPred; split <;> rfl
@[simp] theorem Seq.setPred_ctag (c : Seq) (d : Pred) (v : Bool) : (c.setPred d v).ctag = c.ctag := by unfold Seq.setPred; split <;> rfl
@[simp] theorem Seq.setPred_ctagf (c : Seq) (d : Pred) (v : Bool) : (c.setPred d v).ctagf = c.ctagf := by unfold Seq.setPred; split <;> rfl
@[simp] theorem Seq.setPred_ctbusy (c : Seq) (d : Pred) (v : Bool) : (c.setPred d v).ctbusy = c.ctbusy := by unfold Seq.setPred; split <;> rfl
@[simp] theorem Seq.setPred_cfaddr (c : Seq) (d : Pred) (v : Bool) : (c.setPred d v).cfaddr = c.cfaddr := by unfold Seq.setPred; split <;> rfl
@[simp] theorem Seq.setPred_cfinfo (c : Seq) (d : Pred) (v : Bool) : (c.setPred d v).cfinfo = c.cfinfo := by unfold Seq.setPred; split <;> rfl
@[simp] theorem Seq.setPred_frec0 (c : Seq) (d : Pred) (v : Bool) : (c.setPred d v).frec0 = c.frec0 := by unfold Seq.setPred; split <;> rfl
@[simp] theorem Seq.setPred_frec1 (c : Seq) (d : Pred) (v : Bool) : (c.setPred d v).frec1 = c.frec1 := by unfold Seq.setPred; split <;> rfl
@[simp] theorem Seq.setPred_frec2 (c : Seq) (d : Pred) (v : Bool) : (c.setPred d v).frec2 = c.frec2 := by unfold Seq.setPred; split <;> rfl
@[simp] theorem Seq.setPred_frec3 (c : Seq) (d : Pred) (v : Bool) : (c.setPred d v).frec3 = c.frec3 := by unfold Seq.setPred; split <;> rfl
@[simp] theorem Seq.setPred_ahead (c : Seq) (d : Pred) (v : Bool) : (c.setPred d v).ahead = c.ahead := by unfold Seq.setPred; split <;> rfl
@[simp] theorem Seq.setPred_run (c : Seq) (d : Pred) (v : Bool) : (c.setPred d v).run = c.run := by unfold Seq.setPred; split <;> rfl
@[simp] theorem Seq.setPred_wait (c : Seq) (d : Pred) (v : Bool) : (c.setPred d v).wait = c.wait := by unfold Seq.setPred; split <;> rfl

@[simp] theorem Seq.next_pc (c : Seq) : c.next.pc = c.pc + 4 := rfl
@[simp] theorem Seq.next2_pc (c : Seq) : c.next2.pc = c.pc + 8 := rfl
@[simp] theorem Seq.jump_pc (c : Seq) (x : Word) : (c.jump x).pc = x := rfl
@[simp] theorem Seq.jump_ahead (c : Seq) (x : Word) : (c.jump x).ahead = [] := rfl
@[simp] theorem Seq.next_reg (c : Seq) (r : Reg) : c.next.reg r = c.reg r := rfl
@[simp] theorem Seq.next2_reg (c : Seq) (r : Reg) : c.next2.reg r = c.reg r := rfl
@[simp] theorem Seq.jump_reg (c : Seq) (x : Word) (r : Reg) : (c.jump x).reg r = c.reg r := rfl
@[simp] theorem Seq.next_pred (c : Seq) (p : Pred) : c.next.pred p = c.pred p := rfl
@[simp] theorem Seq.jump_pred (c : Seq) (x : Word) (p : Pred) : (c.jump x).pred p = c.pred p := rfl

/-! ## Registers and predicates -/

/-- A register read after a write: s0 takes nothing. -/
theorem Seq.reg_setReg (c : Seq) (d r : Reg) (v : Word) :
    (c.setReg d v).reg r = if r = d ∧ d ≠ 0 then v else c.reg r := by
  unfold Seq.setReg Seq.reg
  by_cases hd : d = 0
  · simp [hd]
  · simp only [hd, if_false, get_eq_getElem, Vector.getElem_set]
    by_cases hr : r = d
    · subst hr; simp only [hd, if_false, if_true, true_and, not_false_eq_true, ne_eq]
    · have : d.toNat ≠ r.toNat := fun e => hr (BitVec.eq_of_toNat_eq e.symm)
      simp [hr, this]

/-- One bit of sixteen is set or cleared. -/
theorem getLsbD_putBit (x : BitVec 16) (d p : BitVec 4) (v : Bool) :
    (if v then x ||| (1#16 <<< d.toNat) else x &&& ~~~(1#16 <<< d.toNat)).getLsbD p.toNat =
      if p = d then v else x.getLsbD p.toNat := by
  have hp : p.toNat < 16 := p.isLt
  have hd : d.toNat < 16 := d.isLt
  have one : (1#16 <<< d.toNat).getLsbD p.toNat = decide (p = d) := by
    rw [BitVec.getLsbD_shiftLeft]
    by_cases h : p = d
    · subst h; simp [hp]
    · have hne : p.toNat ≠ d.toNat := fun e => h (BitVec.eq_of_toNat_eq e)
      by_cases hlt : p.toNat < d.toNat
      · simp [hlt, h]
      · have : p.toNat - d.toNat ≠ 0 := by omega
        simp [this, h]
  cases v
  · simp only [Bool.false_eq_true, if_false, BitVec.getLsbD_and, BitVec.getLsbD_not, one]
    by_cases h : p = d <;> simp [h, hp]
  · simp only [if_true, BitVec.getLsbD_or, one]
    by_cases h : p = d <;> simp [h]

/-- A predicate read after a write: p0 takes nothing. -/
theorem Seq.pred_setPred (c : Seq) (d p : Pred) (v : Bool) :
    (c.setPred d v).pred p = if p = d ∧ d ≠ 0 then v else c.pred p := by
  unfold Seq.setPred Seq.pred
  by_cases hd : d = 0
  · rw [if_pos hd]; simp only [hd, ne_eq, not_true_eq_false, and_false, if_false]
  · rw [if_neg hd]
    have h := getLsbD_putBit c.preds d p v
    simp only at h ⊢
    rw [h]
    by_cases hp : p = d
    · subst hp; rw [if_neg hd, if_pos rfl, if_pos ⟨rfl, hd⟩]
    · have hn : ¬(p = d ∧ d ≠ 0) := fun e => hp e.1
      rw [if_neg hp, if_neg hn]

/-- Beside its register a register write changes nothing. -/
theorem Seq.setReg_frame (c : Seq) (d : Reg) (v : Word) : { c.setReg d v with regs := c.regs } = c := by
  unfold Seq.setReg; split <;> rfl

/-- Beside its predicate a predicate write changes nothing. -/
theorem Seq.setPred_frame (c : Seq) (d : Pred) (v : Bool) : { c.setPred d v with preds := c.preds } = c := by
  unfold Seq.setPred; split <;> rfl

/-! ## One sequencer of the state -/

theorem State.updSeq_get (s : State) (q r : SeqId) (f : Seq → Seq) :
    (s.updSeq q f).seqs.get r = if r = q then f (s.seqs.get q) else s.seqs.get r := by
  simp only [State.updSeq, get_eq_getElem, Vector.getElem_set]
  by_cases h : r = q
  · subst h; simp
  · have : q.val ≠ r.val := fun e => h (Fin.ext e.symm)
    simp [h, this]

@[simp] theorem State.cpu_updCpu (s : State) (f : Seq → Seq) : (s.updCpu f).cpu = f s.cpu := by
  show (s.updSeq s.cur f).seqs.get s.cur = _
  rw [State.updSeq_get, if_pos rfl]; rfl

/-- An update of the moving sequencer touches nothing else. -/
theorem onlyCpu_updCpu (s : State) (f : Seq → Seq) : onlyCpu s (s.updCpu f) :=
  ⟨rfl, fun q hq => by simp [State.updCpu, State.updSeq_get, hq]⟩

/-- Two updates that agree on the moving sequencer are the same. -/
theorem State.updCpu_congr (s : State) {f g : Seq → Seq} (h : f s.cpu = g s.cpu) : s.updCpu f = s.updCpu g := by
  unfold State.updCpu State.updSeq
  have : f (s.seqs.get s.cur) = g (s.seqs.get s.cur) := h
  rw [this]

/-- An instruction that updates the moving sequencer by one register write and goes on. -/
theorem givesReg_of_updCpu {i : Instr} {s : State} {d : Reg} {v : Word} {g : Seq → Seq}
    (h : exec i s = .next (s.updCpu g)) (hg : g s.cpu = (s.cpu.setReg d v).next) : givesReg i s d v := by
  rw [State.updCpu_congr s (g := fun c => (c.setReg d v).next) hg] at h
  refine ⟨_, h, ⟨onlyCpu_updCpu _ _, fun r => ?_, ?_⟩, ?_⟩
  · rw [State.cpu_updCpu]; exact Seq.reg_setReg _ _ _ _
  · rw [State.cpu_updCpu]; unfold Seq.setReg; split <;> rfl
  · rw [State.cpu_updCpu]; simp

/-- An instruction that updates the moving sequencer by one predicate write and goes on. -/
theorem givesPred_of_updCpu {i : Instr} {s : State} {d : Pred} {v : Bool} {g : Seq → Seq}
    (h : exec i s = .next (s.updCpu g)) (hg : g s.cpu = (s.cpu.setPred d v).next) : givesPred i s d v := by
  rw [State.updCpu_congr s (g := fun c => (c.setPred d v).next) hg] at h
  refine ⟨_, h, ⟨onlyCpu_updCpu _ _, fun p => ?_, ?_⟩, ?_⟩
  · rw [State.cpu_updCpu]; exact Seq.pred_setPred _ _ _ _
  · rw [State.cpu_updCpu]; unfold Seq.setPred; split <;> rfl
  · rw [State.cpu_updCpu]; simp

end Sys2Proof.Machine
end

