-- ==== Sys2Proof/Laws/Memory.lean ====
section
/-! SUPPORT. The list of bytes: what a read gives after a write, and that every operation on memory keeps the canonical
form. -/

namespace Sys2Proof.Machine

/-! ## Reads after writes of the list -/

theorem memGet_memInsert (m : List Host.Cell) (a x : Nat) (b : Byte) :
    memGet (memInsert m a b) x = if x = a then some b else memGet m x := by
  induction m with
  | nil =>
    by_cases h : x = a
    · simp [memInsert, memGet, h]
    · simp [memInsert, memGet, h, Ne.symm h]
  | cons c t ih =>
    obtain ⟨k, y⟩ := c
    unfold memInsert
    by_cases h1 : a < k
    · by_cases h : x = a
      · simp [h1, memGet, h]
      · simp [h1, memGet, h, Ne.symm h]
    · by_cases h2 : a = k
      · subst h2
        by_cases h : x = a
        · simp [memGet, h]
        · simp [memGet, h, Ne.symm h]
      · rw [if_neg h1, if_neg h2]
        by_cases h : k = x
        · subst h; simp [memGet, Ne.symm h2]
        · simp [memGet, h, ih]

theorem memGet_filter (m : List Host.Cell) (p : Host.Cell → Bool) (x : Nat) (keep : ∀ b, p (x, b) = true) :
    memGet (m.filter p) x = memGet m x := by
  induction m with
  | nil => rfl
  | cons c t ih =>
    obtain ⟨k, y⟩ := c
    by_cases h : k = x
    · subst h; simp [keep, memGet]
    · by_cases hp : p (k, y) <;> simp [hp, memGet, h, ih]

theorem memGet_filter_none (m : List Host.Cell) (p : Host.Cell → Bool) (x : Nat) (drop : ∀ b, p (x, b) = false) :
    memGet (m.filter p) x = none := by
  induction m with
  | nil => rfl
  | cons c t ih =>
    obtain ⟨k, y⟩ := c
    by_cases h : k = x
    · subst h; simp [drop, ih]
    · by_cases hp : p (k, y) <;> simp [hp, memGet, h, ih]

theorem memGet_memErase (m : List Host.Cell) (a x : Nat) :
    memGet (memErase m a) x = if x = a then none else memGet m x := by
  by_cases h : x = a
  · subst h; simp [memErase, memGet_filter_none]
  · rw [if_neg h]; exact memGet_filter m _ x (fun b => by simp [h])

/-- What a byte reads as, listed or not. -/
def byteAt (m : List Host.Cell) (x : Nat) : Option Byte :=
  match memGet m x with
  | some b => some b
  | none => defaultByte x

/-- A byte reads as written, and every other byte as before. -/
theorem byteAt_memPut (m : List Host.Cell) (a x : Nat) (b : Byte) :
    byteAt (memPut m a b) x = if x = a then some b else byteAt m x := by
  unfold byteAt memPut
  by_cases hd : defaultByte a = some b
  · rw [if_pos hd, memGet_memErase]
    by_cases h : x = a
    · subst h; simp [hd]
    · simp [h]
  · rw [if_neg hd, memGet_memInsert]
    by_cases h : x = a <;> simp [h]

theorem byteAt_memPutAll (bs : List Byte) (m : List Host.Cell) (a x : Nat) :
    byteAt (memPutAll m a bs) x = if h : a ≤ x ∧ x < a + bs.length then some (bs[x - a]'(by omega)) else byteAt m x := by
  induction bs generalizing m a with
  | nil => simp [memPutAll]
  | cons b t ih =>
    rw [memPutAll, ih, byteAt_memPut]
    by_cases h1 : a + 1 ≤ x ∧ x < a + 1 + t.length
    · have h2 : a ≤ x ∧ x < a + (b :: t).length := by simp only [List.length_cons]; omega
      rw [dif_pos h1, dif_pos h2]
      have e : x - a = (x - (a + 1)) + 1 := by omega
      simp [e]
    · rw [dif_neg h1]
      by_cases h3 : x = a
      · subst h3
        have h2 : x ≤ x ∧ x < x + (b :: t).length := by simp
        rw [if_pos rfl, dif_pos h2]; simp
      · have h2 : ¬(a ≤ x ∧ x < a + (b :: t).length) := by simp only [List.length_cons]; omega
        rw [if_neg h3, dif_neg h2]

/-! ## The canonical form -/

theorem wf_cons (a : Nat) (b : Byte) (t : List Host.Cell) :
    Memory.wf ((a, b) :: t) = true ↔ defaultByte a ≠ some b ∧ (∀ c ∈ t, a < c.1) ∧ Memory.wf t = true := by
  simp [Memory.wf, and_assoc]

theorem wf_filter (p : Host.Cell → Bool) {m : List Host.Cell} (h : Memory.wf m = true) : Memory.wf (m.filter p) = true := by
  induction m with
  | nil => rfl
  | cons c t ih =>
    obtain ⟨a, b⟩ := c
    obtain ⟨h1, h2, h3⟩ := (wf_cons a b t).mp h
    by_cases hp : p (a, b)
    · rw [List.filter_cons_of_pos hp]
      exact (wf_cons _ _ _).mpr ⟨h1, fun c hc => h2 c (List.mem_of_mem_filter hc), ih h3⟩
    · rw [List.filter_cons_of_neg hp]; exact ih h3

theorem mem_memInsert {m : List Host.Cell} {a : Nat} {b : Byte} {c : Host.Cell} (h : c ∈ memInsert m a b) :
    c = (a, b) ∨ c ∈ m := by
  induction m with
  | nil => simpa [memInsert] using h
  | cons d t ih =>
    obtain ⟨k, y⟩ := d
    unfold memInsert at h
    split at h
    · simpa using h
    · split at h
      · rcases List.mem_cons.mp h with h | h
        · exact .inl h
        · exact .inr (List.mem_cons_of_mem _ h)
      · rcases List.mem_cons.mp h with h | h
        · exact .inr (by simp [h])
        · rcases ih h with h | h
          · exact .inl h
          · exact .inr (List.mem_cons_of_mem _ h)

theorem wf_memInsert {m : List Host.Cell} {a : Nat} {b : Byte} (hb : defaultByte a ≠ some b) (h : Memory.wf m = true) :
    Memory.wf (memInsert m a b) = true := by
  induction m with
  | nil => exact (wf_cons _ _ _).mpr ⟨hb, by simp, rfl⟩
  | cons c t ih =>
    obtain ⟨k, y⟩ := c
    obtain ⟨h1, h2, h3⟩ := (wf_cons k y t).mp h
    unfold memInsert
    split
    · rename_i hlt
      refine (wf_cons _ _ _).mpr ⟨hb, fun c hc => ?_, h⟩
      rcases List.mem_cons.mp hc with rfl | hc
      · exact hlt
      · exact Nat.lt_trans hlt (h2 c hc)
    · split
      · rename_i he; subst he
        exact (wf_cons _ _ _).mpr ⟨hb, h2, h3⟩
      · refine (wf_cons _ _ _).mpr ⟨h1, fun c hc => ?_, ih h3⟩
        rcases mem_memInsert hc with rfl | hc
        · simp only; omega
        · exact h2 c hc

theorem wf_memPut {m : List Host.Cell} (a : Nat) (b : Byte) (h : Memory.wf m = true) : Memory.wf (memPut m a b) = true := by
  unfold memPut memErase
  split
  · exact wf_filter _ h
  · exact wf_memInsert ‹_› h

theorem wf_memPutAll (bs : List Byte) {m : List Host.Cell} (a : Nat) (h : Memory.wf m = true) :
    Memory.wf (memPutAll m a bs) = true := by
  induction bs generalizing m a with
  | nil => exact h
  | cons b t ih => exact ih _ (wf_memPut _ _ h)

theorem wf_memDropLine {m : List Host.Cell} (line : Nat) (h : Memory.wf m = true) :
    Memory.wf (memDropLine m line) = true := wf_filter _ h

/-! ## Operations on memory keep it -/

/-- An operation that keeps the canonical form may be repeated over a list. -/
theorem MemoryCanonical.foldl {α : Type} (f : State → α → State) (hf : ∀ s x, MemoryCanonical s → MemoryCanonical (f s x))
    (l : List α) {s : State} (h : MemoryCanonical s) : MemoryCanonical (l.foldl f s) := by
  induction l generalizing s with
  | nil => exact h
  | cons x t ih => exact ih (hf _ _ h)

theorem MemoryCanonical.of_mem {s t : State} (h : MemoryCanonical s) (e : t.mem = s.mem) : MemoryCanonical t := by
  unfold MemoryCanonical at *; rw [e]; exact h

theorem MemoryCanonical.llcMark {s : State} (part line : Nat) (h : MemoryCanonical s) :
    MemoryCanonical (llcMark s part line) := by
  refine h.of_mem ?_
  unfold Machine.llcMark
  simp only; split <;> rfl

theorem MemoryCanonical.retag {s : State} (line : Nat) (key : KeyMat) (h : MemoryCanonical s) :
    MemoryCanonical (retag s line key) := by
  unfold Machine.retag
  split
  · exact h
  · split
    · exact h
    · exact wf_memDropLine _ h

theorem MemoryCanonical.writeLine {s : State} (part : Nat) (key : KeyMat) (pa : Nat) (bs : List Byte)
    (h : MemoryCanonical s) : MemoryCanonical (writeLine s part key pa bs) := by
  unfold Machine.writeLine
  split
  · exact wf_memPutAll _ _ h
  · split
    · exact wf_memPutAll _ _ ((h.llcMark part (pa / 128)).retag (pa / 128) key)
    · exact wf_memPutAll _ _ (h.retag (pa / 128) key)

theorem MemoryCanonical.writeMem {s : State} (part : Nat) (key : KeyMat) (pa : Nat) (bs : List Byte)
    (h : MemoryCanonical s) : MemoryCanonical (writeMem s part key pa bs) :=
  MemoryCanonical.foldl _ (fun _ _ h => h.writeLine _ _ _ _) _ h

theorem MemoryCanonical.bearContext {s : State} (c : Fin 48 × BitVec 12) (h : MemoryCanonical s) :
    MemoryCanonical (bearContext s c) := by
  have zeroed : MemoryCanonical (match keyMat s (s.parts.get c.1).tkey with
      | some k => Machine.writeMem s c.1.val k ((s.parts.get c.1).tablePa + 128 * (c.2.toNat - (s.parts.get c.1).ctxBase) + 0x40)
          (List.replicate 32 0)
      | none => s) := by
    split
    · exact h.writeMem _ _ _ _
    · exact h
  exact zeroed.of_mem rfl

/-- What the hardware does at a write it sees keeps the canonical form. -/
theorem MemoryCanonical.seeWrite {t : State} (s : State) (pa n : Nat) (h : MemoryCanonical t) :
    MemoryCanonical (seeWrite s t pa n) := by
  unfold Machine.seeWrite
  simp only
  split
  · exact MemoryCanonical.foldl _ (fun _ _ h => h.bearContext _) _ h
  · exact h

theorem MemoryCanonical.writeSlot {s : State} (part slot pa : Nat) (bs : List Byte) (h : MemoryCanonical s) :
    MemoryCanonical (writeSlot s part slot pa bs) := by
  unfold Machine.writeSlot
  split
  · exact h.writeMem _ _ _ _
  · split
    · exact (h.writeMem _ _ _ _).seeWrite _ _ _
    · exact h

theorem MemoryCanonical.writeWord {s : State} (part slot pa : Nat) (w : Word) (h : MemoryCanonical s) :
    MemoryCanonical (writeWord s part slot pa w) := h.writeSlot _ _ _ _

theorem MemoryCanonical.llcLose {s : State} (e : LlcDirty) (h : MemoryCanonical s) : MemoryCanonical (llcLose s e) := by
  unfold Machine.llcLose
  simp only
  split
  · exact wf_memDropLine _ h
  · refine MemoryCanonical.foldl _ (fun t i ht => ?_) _ ?_
    · split
      · exact wf_memPut _ _ ht
      · exact ht
    · exact wf_memDropLine _ h

theorem MemoryCanonical.llcDiscard {s : State} (e : LlcDirty) (h : MemoryCanonical s) :
    MemoryCanonical (llcDiscard s e) := by
  unfold Machine.llcDiscard
  simp only
  split
  · exact h
  · exact MemoryCanonical.llcLose e h

theorem MemoryCanonical.llcDiscardIf {s : State} (p : LlcDirty → Bool) (h : MemoryCanonical s) :
    MemoryCanonical (llcDiscardIf s p) :=
  (MemoryCanonical.foldl _ (fun _ _ h => h.llcDiscard _) _ h).of_mem rfl

theorem MemoryCanonical.zeroArray {s : State} (r : ArrayRef) (h : MemoryCanonical s) : MemoryCanonical (zeroArray s r) :=
  wf_filter _ h

/-! ## The L2 keeps it -/

theorem MemoryCanonical.l2WriteBack {s : State} (l : L2Line) (h : MemoryCanonical s) :
    MemoryCanonical (l2WriteBack s l) := by
  unfold Machine.l2WriteBack
  split
  · exact h.writeSlot _ _ _ _
  · exact h

theorem MemoryCanonical.l2Invalidate {s : State} (l : L2Line) (h : MemoryCanonical s) :
    MemoryCanonical (l2Invalidate s l) := by
  unfold Machine.l2Invalidate
  simp only; split <;> exact h

theorem MemoryCanonical.l2Flush {s : State} (l : L2Line) (h : MemoryCanonical s) : MemoryCanonical (l2Flush s l) :=
  (h.l2WriteBack l).l2Invalidate _

theorem MemoryCanonical.l2Each {s : State} (p : L2Line → Bool) {f : State → L2Line → State}
    (hf : ∀ s l, MemoryCanonical s → MemoryCanonical (f s l)) (h : MemoryCanonical s) : MemoryCanonical (l2Each s p f) :=
  MemoryCanonical.foldl _ hf _ h

theorem MemoryCanonical.l2Yield {s : State} (die part line : Nat) (h : MemoryCanonical s) :
    MemoryCanonical (l2Yield s die part line) := by
  unfold Machine.l2Yield
  split
  · exact h.l2Flush _
  · exact h

theorem MemoryCanonical.l2Get {s : State} (die part : Nat) (ctx : BitVec 12) (leaf : Leaf) (pa : Nat)
    (h : MemoryCanonical s) : MemoryCanonical (l2Get s die part ctx leaf pa).1 := by
  unfold Machine.l2Get
  split
  · split
    · exact h.l2WriteBack _
    · exact h
  · split
    · exact h
    · rename_i s' way hv
      have : MemoryCanonical s' := by
        unfold l2Victim at hv
        simp only at hv
        split at hv
        · cases hv; exact h
        · split at hv
          · cases hv; exact h.l2Flush _
          · cases hv
      exact this

theorem MemoryCanonical.loadLine {s : State} (die part : Nat) (ctx : BitVec 12) (q : Option SeqId) (leaf : Leaf)
    (strong : Bool) (pa n : Nat) (h : MemoryCanonical s) : MemoryCanonical (loadLine s die part ctx q leaf strong pa n).1 := by
  unfold Machine.loadLine
  split
  · exact h
  · split
    · exact h.l2Yield _ _ _
    · have hg := h.l2Get die part ctx leaf pa
      split
      · rename_i e; rw [e] at hg; split <;> exact hg
      · rename_i e; rw [e] at hg; exact hg

theorem MemoryCanonical.storeLine {s : State} (die part : Nat) (ctx : BitVec 12) (leaf : Leaf) (strong : Bool) (pa : Nat)
    (bs : List Byte) (h : MemoryCanonical s) : MemoryCanonical (storeLine s die part ctx leaf strong pa bs) := by
  unfold Machine.storeLine
  split
  · exact h.writeSlot _ _ _ _
  · split
    · exact (h.l2Yield _ _ _).writeSlot _ _ _ _
    · have hg := h.l2Get die part ctx leaf pa
      split
      · rename_i e; rw [e] at hg; exact hg
      · rename_i e; rw [e] at hg; exact hg.writeSlot _ _ _ _

/-- The same for an operation that answers a value beside the state. -/
theorem MemoryCanonical.foldl_fst {α β : Type} (f : State × β → α → State × β)
    (hf : ∀ r x, MemoryCanonical r.1 → MemoryCanonical (f r x).1) (l : List α) {r : State × β} (h : MemoryCanonical r.1) :
    MemoryCanonical (l.foldl f r).1 := by
  induction l generalizing r with
  | nil => exact h
  | cons x t ih => exact ih (hf _ _ h)

theorem MemoryCanonical.loadAt {s : State} (die part : Nat) (ctx : BitVec 12) (q : Option SeqId) (leaf : Leaf)
    (strong : Bool) (pa n : Nat) (h : MemoryCanonical s) : MemoryCanonical (loadAt s die part ctx q leaf strong pa n).1 := by
  unfold Machine.loadAt
  refine MemoryCanonical.foldl_fst _ (fun r x hr => ?_) _ h
  exact hr.loadLine _ _ _ _ _ _ _ _

theorem MemoryCanonical.storeAt {s : State} (die part : Nat) (ctx : BitVec 12) (leaf : Leaf) (strong : Bool) (pa : Nat)
    (bs : List Byte) (h : MemoryCanonical s) : MemoryCanonical (storeAt s die part ctx leaf strong pa bs) :=
  MemoryCanonical.foldl _ (fun _ _ h => h.storeLine _ _ _ _ _ _ _) _ h

theorem MemoryCanonical.loadParts {s : State} (die part : Nat) (ctx : BitVec 12) (q : Option SeqId) (strong : Bool)
    (ps : List Part) (h : MemoryCanonical s) : MemoryCanonical (loadParts s die part ctx q strong ps).1 := by
  unfold Machine.loadParts
  refine MemoryCanonical.foldl_fst _ (fun r x hr => ?_) _ h
  exact hr.loadAt _ _ _ _ _ _ _ _

theorem MemoryCanonical.storeParts {s : State} (die part : Nat) (ctx : BitVec 12) (strong : Bool) (ps : List Part)
    (bs : List Byte) (h : MemoryCanonical s) : MemoryCanonical (storeParts s die part ctx strong ps bs) := by
  induction ps generalizing s bs with
  | nil => exact h
  | cons p t ih => exact ih _ (h.storeAt _ _ _ _ _ _ _)

theorem MemoryCanonical.writeParts {s : State} (part : Nat) (ps : List Part) (bs : List Byte) (h : MemoryCanonical s) :
    MemoryCanonical (writeParts s part ps bs) := by
  induction ps generalizing s bs with
  | nil => exact h
  | cons p t ih => exact ih _ (h.writeSlot _ _ _ _)

theorem MemoryCanonical.writeRow {s : State} (r : ArrayRef) (c : Nat) (bytes : List Byte) (h : MemoryCanonical s) :
    MemoryCanonical (writeRow s r c bytes) := by
  unfold Machine.writeRow
  simp only
  split
  · exact h
  · exact wf_memPutAll _ _ h

/-- The memory of the package after reset lists nothing. -/
theorem reset_mem : State.reset.mem = [] := rfl

end Sys2Proof.Machine
end

