-- ==== Sys2Proof/Laws/Translate.lean ====
section
/-! SUPPORT. What translating an access does. -/

namespace Sys2Proof.Machine

/-- Where a holder's entries hit every piece of an access, looking it up gives its parts, one for each piece. -/
theorem lookupPieces_of_hits (s : State) (h : Holder) (ctx : BitVec 12) (w a : Bool) (reach : Reach) (leaf : Leaf) :
    ∀ l : List (Nat × Nat), (∀ p ∈ l, tlbLookup s h ctx p.1 w a = .hit leaf ∧ reach leaf p.1 = none) →
      lookupPieces s h ctx w a reach l = (.ok (l.map fun p => { va := p.1, pa := leaf.pa p.1, n := p.2, leaf := leaf }), none)
  | [], _ => rfl
  | (va, n) :: rest, hl => by
    have hr := lookupPieces_of_hits s h ctx w a reach leaf rest fun p hp => hl p (List.mem_cons_of_mem _ hp)
    obtain ⟨h1, h2⟩ := hl (va, n) List.mem_cons_self
    simp only at h1 h2
    simp only [lookupPieces, h1, h2, hr, List.map_cons]

/-- A use of entries changes their times, what an access kept, and the count of uses; nothing else. -/
theorem touchEntries_eq (s : State) (h : Holder) (ctx : BitVec 12) (ps : List Part) :
    ∃ es kept k, touchEntries s h ctx ps = { s with tlb := es, latched := kept, tick := k } := by
  have fold : ∀ (l : List Part) (u : State), ∃ es k,
      l.foldl (fun s p => { s with tlb := mapFirst (fun e => e.covers h ctx p.va) (fun e => { e with used := s.tick }) s.tlb
                                   tick := s.tick + 1 }) u = { u with tlb := es, tick := k } := by
    intro l
    induction l with
    | nil => exact fun u => ⟨u.tlb, u.tick, rfl⟩
    | cons p t ih =>
      intro u
      obtain ⟨es, k, e⟩ := ih
        { u with tlb := mapFirst (fun e => e.covers h ctx p.va) (fun e => { e with used := u.tick }) u.tlb, tick := u.tick + 1 }
      exact ⟨es, k, e⟩
  unfold touchEntries
  cases h with
  | seq q =>
    obtain ⟨es, k, e⟩ := fold ps (dropLatched s (.seq q))
    exact ⟨es, _, k, e⟩
  | _ => exact ⟨_, _, _, rfl⟩

@[simp] theorem touchEntries_cur (s : State) (h : Holder) (ctx : BitVec 12) (ps : List Part) :
    (touchEntries s h ctx ps).cur = s.cur := by
  obtain ⟨_, _, _, e⟩ := touchEntries_eq s h ctx ps
  rw [e]

@[simp] theorem touchEntries_accesses (s : State) (h : Holder) (ctx : BitVec 12) (ps : List Part) :
    (touchEntries s h ctx ps).accesses = s.accesses := by
  obtain ⟨_, _, _, e⟩ := touchEntries_eq s h ctx ps
  rw [e]

/-- A holder that waits for nothing and whose entries hit every piece of an access has it translated; of the state only
the times of use and what the access had kept change. -/
theorem translate_of_hits (s : State) (h : Holder) (hs : h.walksItself = false) (ctx : BitVec 12) (part die va n : Nat)
    (w a sc : Bool) (leaf : Leaf) (hw : s.walkFaults = []) (hm : missOf s h = none)
    (hl : ∀ p ∈ chunks 65536 (n + 1) va n, tlbLookup s h ctx p.1 w a = .hit leaf ∧ reachCheck s leaf p.1 w a sc = none) :
    translate s h ctx part die va n w a sc =
      (touchEntries s h ctx ((chunks 65536 (n + 1) va n).map fun p => { va := p.1, pa := leaf.pa p.1, n := p.2, leaf := leaf }),
       .ok ((chunks 65536 (n + 1) va n).map fun p => { va := p.1, pa := leaf.pa p.1, n := p.2, leaf := leaf })) := by
  unfold translate
  rw [hs]
  simp only [Bool.false_eq_true, if_false]
  unfold translateWith
  simp only [hw, List.any_nil, Bool.false_eq_true, if_false, List.find?_nil, hm]
  rw [lookupPieces_of_hits _ _ _ _ _ _ leaf _ hl]

/-- Hardware that walks as it goes walks nothing where its entries hit every piece, and its access is translated. -/
theorem walkPieces_of_hits (h : Holder) (ctx : BitVec 12) (part die : Nat) (w : Bool) (s : State) (leaf : Leaf) :
    ∀ l : List (Nat × Nat), (∀ p ∈ l, tlbLookup s h ctx p.1 w false = .hit leaf ∧ reachCheck s leaf p.1 w false false = none) →
      walkPieces h ctx part die w s l = (s, .ok (l.map fun p => { va := p.1, pa := leaf.pa p.1, n := p.2, leaf := leaf }))
  | [], _ => rfl
  | (va, n) :: rest, hl => by
    have hr := walkPieces_of_hits h ctx part die w s leaf rest fun p hp => hl p (List.mem_cons_of_mem _ hp)
    obtain ⟨h1, h2⟩ := hl (va, n) List.mem_cons_self
    simp only at h1 h2
    simp only [walkPieces, h1, h2, hr, List.map_cons]

/-- So the hardware of a queue or a cut has an access translated, with no change of the state. -/
theorem translate_itself_of_hits (s : State) (h : Holder) (hs : h.walksItself = true) (ctx : BitVec 12) (part die va n : Nat)
    (w : Bool) (leaf : Leaf) (hw : s.walkFaults = [])
    (hl : ∀ p ∈ chunks 65536 (n + 1) va n, tlbLookup s h ctx p.1 w false = .hit leaf ∧ reachCheck s leaf p.1 w false false = none) :
    translate s h ctx part die va n w false false =
      (s, .ok ((chunks 65536 (n + 1) va n).map fun p => { va := p.1, pa := leaf.pa p.1, n := p.2, leaf := leaf })) := by
  unfold translate
  rw [hs, hw, List.find?_nil]
  simp only [if_true]
  exact walkPieces_of_hits _ _ _ _ _ _ leaf _ hl

/-- The pieces of n bytes at an address start before its end. -/
theorem chunks_start_lt (m : Nat) : ∀ fuel a n : Nat, ∀ p ∈ chunks m fuel a n, p.1 < a + n
  | 0, _, _, p, hp => by simp [chunks] at hp
  | fuel + 1, a, n, p, hp => by
    unfold chunks at hp
    split at hp
    · simp at hp
    · simp only [List.mem_cons] at hp
      rcases hp with rfl | hp
      · simp; omega
      · have := chunks_start_lt m fuel _ _ p hp
        omega

/-- The pieces of n bytes at an address start at it or after it. -/
theorem chunks_start_ge (m : Nat) : ∀ fuel a n : Nat, ∀ p ∈ chunks m fuel a n, a ≤ p.1
  | 0, _, _, p, hp => by simp [chunks] at hp
  | fuel + 1, a, n, p, hp => by
    unfold chunks at hp
    split at hp
    · simp at hp
    · simp only [List.mem_cons] at hp
      rcases hp with rfl | hp
      · simp
      · have := chunks_start_ge m fuel _ _ p hp
        omega

/-- A holder whose entry for an access's addresses is one GiB of HBM4E at address 0 under a LOADED key hits every piece
of the access, where it lies in the first quarter of that GiB. -/
theorem hits_first_gib (s : State) (h : Holder) (ctx : BitVec 12) (va n : Nat) (w : Bool) (e : TlbEntry)
    (hc : ∀ a, va / 2 ^ 30 = a / 2 ^ 30 → entryFor s h ctx a = some e) (hv : va < 2 ^ 50)
    (hd : e.leaf.d = true) (hf : e.leaf.frame = 0) (hl : e.leaf.lg = 30) (hk : keyState s e.leaf.key = .loaded)
    (hn : va % 2 ^ 30 + n ≤ 2 ^ 28) :
    ∀ p ∈ chunks 65536 (n + 1) va n,
      tlbLookup s h ctx p.1 w false = .hit e.leaf ∧ reachCheck s e.leaf p.1 w false false = none := by
  intro p hp
  have hlt := chunks_start_lt _ _ _ _ p hp
  have hge := chunks_start_ge _ _ _ _ p hp
  have hdiv : va / 2 ^ 30 = p.1 / 2 ^ 30 := by omega
  constructor
  · unfold tlbLookup
    simp only [hc p.1 hdiv]
    rw [if_neg (by omega)]
    simp [hd, hk]
  · unfold reachCheck
    have : region (e.leaf.pa p.1) = .hbm (e.leaf.pa p.1 / 0x40000000) := by
      unfold region Leaf.pa
      rw [hf, hl, Nat.zero_add, if_pos (by omega)]
    rw [this]

end Sys2Proof.Machine
end

