-- ==== Sys2Proof/Laws/Access.lean ====
section
/-! SUPPORT. What loading bytes gives: the bytes of the list, where no cache comes between and every piece of the access
hits. -/

namespace Sys2Proof.Machine

/-- Reading in two parts. -/
theorem readMem_add (s : State) (key : KeyMat) (pa n m : Nat) :
    readMem s key pa (n + m) = readMem s key pa n ++ readMem s key (pa + n) m := by
  simp only [readMem, List.range_add, List.map_append, List.map_map]
  congr 1
  exact List.map_congr_left fun i _ => by simp [Nat.add_assoc]

theorem readSlot_add (s : State) (slot pa n m : Nat) :
    readSlot s slot pa (n + m) = readSlot s slot pa n ++ readSlot s slot (pa + n) m := readMem_add _ _ _ _ _

/-- Bytes of an array that the list holds read as it holds them. -/
theorem readSlot_of_array (s : State) (slot pa : Nat) (bs : List Byte)
    (h : ∀ i (hi : i < bs.length), inArrays (pa + i) = true ∧ byteAt s.mem (pa + i) = some bs[i]) :
    readSlot s slot pa bs.length = bs := by
  refine List.ext_getElem (by simp [readSlot, readMem]) fun i h1 h2 => ?_
  obtain ⟨ha, hb⟩ := h i h2
  simp only [readSlot, readMem, List.getElem_map, List.getElem_range, readByte, ha, if_true]
  unfold byteAt defaultByte at hb
  rw [if_pos ha] at hb
  cases hm : memGet s.mem (pa + i) with
  | none => rw [hm] at hb; simpa using hb
  | some b => rw [hm] at hb; simpa using hb

/-- Bytes that no cache may hold are read from the list, line by line. -/
theorem loadLines_uncached (s : State) (die part : Nat) (ctx : BitVec 12) (q : Option SeqId) (leaf : Leaf) (strong : Bool) :
    ∀ (fuel pa n : Nat) (acc : List Byte), n ≤ fuel → (∀ a, pa ≤ a → a < pa + n → allocatable leaf a = false) →
      (chunks 128 fuel pa n).foldl
        (fun r c => ((loadLine r.1 die part ctx q leaf strong c.1 c.2).1, r.2 ++ (loadLine r.1 die part ctx q leaf strong c.1 c.2).2))
        (s, acc) = (s, acc ++ readSlot s leaf.key pa n)
  | 0, pa, n, acc, hn, _ => by
    have : n = 0 := by omega
    subst this
    simp [chunks, readSlot, readMem]
  | fuel + 1, pa, n, acc, hn, ha => by
    unfold chunks
    by_cases h0 : n = 0
    · subst h0; simp [readSlot, readMem]
    · rw [if_neg h0]
      obtain ⟨k, hk⟩ : ∃ k, k = min n (128 - pa % 128) := ⟨_, rfl⟩
      have hlt : pa % 128 < 128 := Nat.mod_lt _ (by decide)
      have h1 : 0 < k ∧ k ≤ n := by omega
      have hl : loadLine s die part ctx q leaf strong pa k = (s, readSlot s leaf.key pa k) := by
        unfold loadLine
        rw [ha pa (Nat.le_refl _) (by omega)]
        rfl
      simp only [List.foldl_cons, ← hk, hl]
      rw [loadLines_uncached s die part ctx q leaf strong fuel (pa + k) (n - k) _ (by omega) fun a h2 h3 => ha a (by omega) (by omega),
        List.append_assoc, ← readSlot_add, Nat.add_sub_cancel' h1.2]

theorem loadAt_uncached (s : State) (die part : Nat) (ctx : BitVec 12) (q : Option SeqId) (leaf : Leaf) (strong : Bool) (pa n : Nat)
    (ha : ∀ a, pa ≤ a → a < pa + n → allocatable leaf a = false) :
    loadAt s die part ctx q leaf strong pa n = (s, readSlot s leaf.key pa n) := by
  have := loadLines_uncached s die part ctx q leaf strong n pa n [] (Nat.le_refl _) ha
  simpa [loadAt] using this

@[simp] theorem touchEntries_readSlot (s : State) (h : Holder) (ctx : BitVec 12) (ps : List Part) (slot pa n : Nat) :
    readSlot (touchEntries s h ctx ps) slot pa n = readSlot s slot pa n := by
  obtain ⟨_, _, _, e⟩ := touchEntries_eq s h ctx ps
  rw [e]; rfl

/-- A load of the sequencer that nothing outstanding holds and that the request ports have admitted, of bytes that lie in one page
which it holds, and in no cache. -/
theorem seqLoad_of_hit (s : State) (u : UnitRec) (va n : Nat) (leaf : Leaf) (req : PortReq) (own : s.accesses = [])
    (hw : s.walkFaults = []) (hm : missOf s (.seq s.cur) = none) (hn : 0 < n) (hp : va % 65536 + n ≤ 65536)
    (hit : tlbLookup s (.seq s.cur) u.ctx va false false = .hit leaf) (hr : reachCheck s leaf va false false false = none)
    (ha : ∀ a, leaf.pa va ≤ a → a < leaf.pa va + n → allocatable leaf a = false)
    (hq : s.portReqs.find? (fun r => r.holder == .seq s.cur && r.va == va) = some req) (paid : req.unpaid = [])
    (metered : meteredLines [{ va := va, pa := leaf.pa va, n := n, leaf := leaf }] ≠ [])
    (whole : s.piece = none) (fresh : s.cpu.reading = none) :
    seqLoad s u va n =
      ({ touchEntries s (.seq s.cur) u.ctx [{ va := va, pa := leaf.pa va, n := n, leaf := leaf }] with
          portReqs := s.portReqs.erase req },
       .bytes (readSlot s leaf.key (leaf.pa va) n)) := by
  have hc : chunks 65536 (n + 1) va n = [(va, n)] := by
    obtain ⟨m, rfl⟩ : ∃ m, n = m + 1 := ⟨n - 1, by omega⟩
    unfold chunks
    rw [if_neg (by omega), show min (m + 1) (65536 - va % 65536) = m + 1 by omega]
    simp [chunks]
  have ht := translate_of_hits s (.seq s.cur) rfl u.ctx u.part (dieOfSeq s.cur) va n false false false leaf hw hm
    (by rw [hc]; simpa using ⟨hit, hr⟩)
  rw [hc] at ht
  simp only [List.map_cons, List.map_nil] at ht
  obtain ⟨es, kept, k, e⟩ := touchEntries_eq s (.seq s.cur) u.ctx [{ va := va, pa := leaf.pa va, n := n, leaf := leaf }]
  have fresh' : (s.seqs.get s.cur).reading = none := fresh
  unfold seqLoad seqLoadAt
  rw [ht, e]
  simp [inTurn, pieceReady, own, seqRead, State.cpu, fresh', Reading.same, admitLines, metered, hq, paid, Reading.goOn, whole,
    Reading.start, loadParts, loadAt_uncached _ _ _ _ _ _ _ _ _ ha, keepReading]
  rfl

end Sys2Proof.Machine
end

