-- ==== Sys2Proof/Laws/Crypto.lean ====
section
/-! SUPPORT. How long the byte strings of an image are, whatever keys and random bits go into them. -/

namespace Sys2Proof.Machine

@[simp] theorem toBytes_length : ∀ n x : Nat, (toBytes n x).length = n
  | 0, _ => rfl
  | n + 1, x => by simp [toBytes, toBytes_length n]

@[simp] theorem toBytesBE_length (n x : Nat) : (toBytesBE n x).length = n := by simp [toBytesBE]

@[simp] theorem sliceOf_length (bs : List Byte) (off n : Nat) : (sliceOf bs off n).length = n := by
  simp [sliceOf]

@[simp] theorem pubBytes_length (q : Nat × Nat) : (pubBytes q).length = 64 := by simp [pubBytes]

theorem shaBlocks_length : ∀ (n : Nat) (m : List Byte) (h : List (BitVec 32)), h.length = 8 → (shaBlocks n m h).length = 8
  | 0, _, _, hh => hh
  | n + 1, m, h, _ => by
    unfold shaBlocks
    exact shaBlocks_length n _ _ (by simp)

@[simp] theorem sha256_length (m : List Byte) : (sha256 m).length = 32 := by
  simp [sha256, List.length_flatMap, List.map_const', shaBlocks_length _ _ shaInit rfl]

/-- The counter stream adds no byte. -/
theorem gcmCtr_length_le (ks : List (List Nat)) :
    ∀ (n : Nat) (j : BitVec 128) (bs : List Byte), (gcmCtr ks n j bs).length ≤ bs.length
  | 0, _, _ => by simp [gcmCtr]
  | n + 1, j, bs => by
    have := gcmCtr_length_le ks n (j.extractLsb' 32 96 ++ (j.extractLsb' 0 32 + 1)) (bs.drop 16)
    simp only [gcmCtr, List.length_append, List.length_zipWith, List.length_take, toBytesBE_length, List.length_drop] at *
    omega

theorem gcmCrypt_length_le (key iv bs : List Byte) : (gcmCrypt key iv bs).length ≤ bs.length := gcmCtr_length_le _ _ _ _

@[simp] theorem gcmTagOf_length (key iv aad ct : List Byte) : (gcmTagOf key iv aad ct).length = 16 := by
  simp [gcmTagOf, gcmTag]

/-- Pieces of one length, put together. -/
theorem length_flatMap_const {α : Type} (f : α → List Byte) (k : Nat) (h : ∀ x, (f x).length = k) :
    ∀ l : List α, (l.flatMap f).length = k * l.length
  | [] => rfl
  | x :: l => by
    simp only [List.flatMap_cons, List.length_append, h, length_flatMap_const f k h l, List.length_cons, Nat.mul_add]
    omega

@[simp] theorem tensBytes_length (s : State) (ctx : BitVec 12) : (tensBytes s ctx).length = 65536 := by
  unfold tensBytes
  rw [length_flatMap_const _ 64 fun i => toBytes_length 64 _, List.length_range]

@[simp] theorem tmeas_length (s : State) (part : Nat) (ctx : BitVec 12) : (tmeas s part ctx).length = 32 := by
  unfold tmeas
  split
  · simp
  · rw [length_flatMap_const _ 8 fun i => toBytes_length 8 _, List.length_range]

@[simp] theorem keyBytes_length (s : State) (k : Nat) : (keyBytes s k).length = 64 := by simp [keyBytes]

/-- An image is no longer than its header, its keys, its table and its cut (R422). -/
theorem buildImage_length_le (s : State) (part : Nat) (mig : Bool) (r : SealReq) (pkr cut : List Byte) (ks : List Nat)
    (hp : r.pol.length = 32) :
    (buildImage s part mig r pkr cut ks).1.length ≤ 512 + 64 * ks.length + 65536 + cut.length := by
  have h1 := fun k iv bs => gcmCrypt_length_le k iv bs
  have hf : (fwMeas s).length = 32 := by simp [fwMeas]
  have ho : (ownIdentity s).length = 32 := by simp [ownIdentity]
  have hq : (if r.polfw then r.pol else toBytes 32 0).length = 32 := by split <;> simp [hp]
  have hk : (ks.flatMap (keyBytes s)).length = 64 * ks.length := by
    rw [length_flatMap_const _ 64 fun k => keyBytes_length s k]
  unfold buildImage
  simp only [List.length_append, toBytes_length, sliceOf_length, tmeas_length, hf, hq, ho, pubBytes_length, gcmTagOf_length,
    List.length_take]
  refine Nat.le_trans (Nat.add_le_add (Nat.add_le_add (Nat.add_le_add_right (Nat.add_le_add_right (Nat.add_le_add_right
    (Nat.add_le_add_right (Nat.add_le_add_left (h1 _ _ _) _) _) _) _) _) (Nat.le_refl _)) (h1 _ _ _)) ?_
  simp only [List.length_append, toBytes_length, tensBytes_length, hk]
  omega

end Sys2Proof.Machine
end

