-- ==== Sys2Proof/Laws/Ops.lean ====
section
/-! SUPPORT. What the shared operations do: each keeps the canonical form of memory and every counter, a record that
was put is the record found, and what a trap and the return from one leave. -/

namespace Sys2Proof.Machine

/-- What every operation of the machine but a counter increment or a write of SEAL keeps. -/
structure Keeps (s t : State) : Prop where
  canonical : MemoryCanonical s → MemoryCanonical t
  counters : t.counters = s.counters

theorem Keeps.refl (s : State) : Keeps s s := ⟨id, rfl⟩

theorem Keeps.trans {s t u : State} (h : Keeps s t) (k : Keeps t u) : Keeps s u :=
  ⟨fun m => k.canonical (h.canonical m), k.counters.trans h.counters⟩

/-- An operation that leaves the bytes and the counters as they are. -/
theorem Keeps.of_eq {s t : State} (hm : t.mem = s.mem) (hc : t.counters = s.counters) : Keeps s t :=
  ⟨fun h => h.of_mem hm, hc⟩

theorem Keeps.foldl {α : Type} {f : State → α → State} (hf : ∀ s x, Keeps s (f s x)) (l : List α) (s : State) :
    Keeps s (l.foldl f s) := by
  induction l generalizing s with
  | nil => exact .refl s
  | cons x t ih => exact (hf s x).trans (ih _)

theorem Keeps.foldl_fst {α β : Type} {f : State × β → α → State × β} (hf : ∀ r x, Keeps r.1 (f r x).1) (l : List α)
    (r : State × β) : Keeps r.1 (l.foldl f r).1 := by
  induction l generalizing r with
  | nil => exact .refl r.1
  | cons x t ih => exact (hf r x).trans (ih _)

/-! ## Bytes -/

theorem keeps_llcMark (s : State) (part line : Nat) : Keeps s (llcMark s part line) := by
  refine ⟨fun h => h.llcMark part line, ?_⟩
  unfold llcMark; simp only; split <;> rfl

theorem keeps_retag (s : State) (line : Nat) (key : KeyMat) : Keeps s (retag s line key) := by
  refine ⟨fun h => h.retag line key, ?_⟩
  unfold retag; split
  · rfl
  · split <;> rfl

theorem keeps_writeLine (s : State) (part : Nat) (key : KeyMat) (pa : Nat) (bs : List Byte) :
    Keeps s (writeLine s part key pa bs) := by
  refine ⟨fun h => h.writeLine part key pa bs, ?_⟩
  unfold writeLine; split
  · rfl
  · split
    · exact (keeps_retag _ _ _).counters.trans (keeps_llcMark _ _ _).counters
    · exact (keeps_retag _ _ _).counters

theorem keeps_writeMem (s : State) (part : Nat) (key : KeyMat) (pa : Nat) (bs : List Byte) :
    Keeps s (writeMem s part key pa bs) := Keeps.foldl (fun _ _ => keeps_writeLine _ _ _ _ _) _ s

theorem keeps_bearContext (s : State) (c : Fin 48 × BitVec 12) : Keeps s (bearContext s c) := by
  refine ⟨fun h => h.bearContext c, ?_⟩
  unfold bearContext; simp only; split
  · exact (keeps_writeMem _ _ _ _ _).counters
  · rfl

/-- What the hardware sees of a write keeps what the write has kept. -/
theorem keeps_seeWrite (s t : State) (pa n : Nat) : Keeps t (seeWrite s t pa n) := by
  refine ⟨fun h => h.seeWrite s pa n, ?_⟩
  unfold seeWrite; simp only; split
  · exact (Keeps.foldl keeps_bearContext _ _).counters
  · rfl

theorem keeps_writeSlot (s : State) (part slot pa : Nat) (bs : List Byte) : Keeps s (writeSlot s part slot pa bs) := by
  unfold writeSlot; split
  · exact keeps_writeMem _ _ _ _ _
  · split
    · exact (keeps_writeMem _ _ _ _ _).trans (keeps_seeWrite _ _ _ _)
    · exact .refl s

theorem keeps_writeWord (s : State) (part slot pa : Nat) (w : Word) : Keeps s (writeWord s part slot pa w) :=
  keeps_writeSlot _ _ _ _ _

theorem keeps_llcLose (s : State) (e : LlcDirty) : Keeps s (llcLose s e) := by
  refine ⟨fun h => h.llcLose e, ?_⟩
  unfold llcLose; simp only; split
  · rfl
  · refine (?_ : ∀ (l : List Nat) (u : State), (l.foldl _ u).counters = u.counters) _ _
    intro l
    induction l with
    | nil => exact fun _ => rfl
    | cons i t ih => intro u; rw [List.foldl_cons, ih]; split <;> rfl

theorem keeps_llcDiscard (s : State) (e : LlcDirty) : Keeps s (llcDiscard s e) := by
  unfold llcDiscard; simp only; split
  · exact .of_eq rfl rfl
  · exact (Keeps.of_eq rfl rfl : Keeps s { s with freeCtr := s.freeCtr + 1 }).trans (keeps_llcLose _ e)

theorem keeps_llcDiscardIf (s : State) (p : LlcDirty → Bool) : Keeps s (llcDiscardIf s p) :=
  (Keeps.foldl (fun _ _ => keeps_llcDiscard _ _) _ s).trans (.of_eq rfl rfl)

theorem keeps_zeroArray (s : State) (r : ArrayRef) : Keeps s (zeroArray s r) := ⟨fun h => h.zeroArray r, rfl⟩

theorem keeps_setDescWord (s : State) (part : Nat) (ctx : BitVec 12) (off : Nat) (w : Word) :
    Keeps s (setDescWord s part ctx off w) := keeps_writeWord _ _ _ _ _

theorem keeps_setCtxState (s : State) (part : Nat) (ctx : BitVec 12) (n : Nat) : Keeps s (setCtxState s part ctx n) :=
  keeps_setDescWord _ _ _ _ _

/-! ## The L2 -/

theorem keeps_l2WriteBack (s : State) (l : L2Line) : Keeps s (l2WriteBack s l) := by
  unfold l2WriteBack; split
  · exact (keeps_writeSlot s _ _ _ _).trans (.of_eq rfl rfl)
  · exact .refl s

theorem keeps_l2Invalidate (s : State) (l : L2Line) : Keeps s (l2Invalidate s l) := by
  unfold l2Invalidate; simp only; split <;> exact .of_eq rfl rfl

theorem keeps_l2Flush (s : State) (l : L2Line) : Keeps s (l2Flush s l) :=
  (keeps_l2WriteBack s l).trans (keeps_l2Invalidate _ _)

theorem keeps_l2Each (s : State) (p : L2Line → Bool) {f : State → L2Line → State} (hf : ∀ s l, Keeps s (f s l)) :
    Keeps s (l2Each s p f) := Keeps.foldl hf _ s

theorem keeps_l2Yield (s : State) (die part line : Nat) : Keeps s (l2Yield s die part line) := by
  unfold l2Yield; split
  · exact keeps_l2Flush _ _
  · exact .refl s

theorem keeps_l2Get (s : State) (die part : Nat) (ctx : BitVec 12) (leaf : Leaf) (pa : Nat) :
    Keeps s (l2Get s die part ctx leaf pa).1 := by
  unfold l2Get; split
  · split
    · exact (keeps_l2WriteBack _ _).trans (.of_eq rfl rfl)
    · exact .of_eq rfl rfl
  · split
    · exact .refl s
    · rename_i s' way hv
      have hk : Keeps s s' := by
        unfold l2Victim at hv; simp only at hv; split at hv
        · cases hv; exact .refl s
        · split at hv
          · cases hv; exact keeps_l2Flush _ _
          · cases hv
      exact hk.trans (.of_eq rfl rfl)

theorem keeps_loadLine (s : State) (die part : Nat) (ctx : BitVec 12) (q : Option SeqId) (leaf : Leaf) (strong : Bool)
    (pa n : Nat) : Keeps s (loadLine s die part ctx q leaf strong pa n).1 := by
  unfold loadLine; split
  · exact .refl s
  · split
    · exact keeps_l2Yield _ _ _ _
    · have hg := keeps_l2Get s die part ctx leaf pa
      split
      · rename_i e; rw [e] at hg
        split <;> exact hg.trans (.of_eq rfl rfl)
      · rename_i e; rw [e] at hg; exact hg

theorem keeps_storeLine (s : State) (die part : Nat) (ctx : BitVec 12) (leaf : Leaf) (strong : Bool) (pa : Nat)
    (bs : List Byte) : Keeps s (storeLine s die part ctx leaf strong pa bs) := by
  unfold storeLine; split
  · exact keeps_writeSlot _ _ _ _ _
  · split
    · exact (keeps_l2Yield s _ _ _).trans (keeps_writeSlot _ _ _ _ _)
    · have hg := keeps_l2Get s die part ctx leaf pa
      split
      · rename_i e; rw [e] at hg; exact hg.trans (.of_eq rfl rfl)
      · rename_i e; rw [e] at hg; exact hg.trans (keeps_writeSlot _ _ _ _ _)

theorem keeps_loadAt (s : State) (die part : Nat) (ctx : BitVec 12) (q : Option SeqId) (leaf : Leaf) (strong : Bool)
    (pa n : Nat) : Keeps s (loadAt s die part ctx q leaf strong pa n).1 := by
  unfold loadAt
  refine Keeps.foldl_fst (fun r x => ?_) _ (s, [])
  exact keeps_loadLine _ _ _ _ _ _ _ _ _

theorem keeps_storeAt (s : State) (die part : Nat) (ctx : BitVec 12) (leaf : Leaf) (strong : Bool) (pa : Nat)
    (bs : List Byte) : Keeps s (storeAt s die part ctx leaf strong pa bs) :=
  Keeps.foldl (fun _ _ => keeps_storeLine _ _ _ _ _ _ _ _) _ s

theorem keeps_loadParts (s : State) (die part : Nat) (ctx : BitVec 12) (q : Option SeqId) (strong : Bool)
    (ps : List Part) : Keeps s (loadParts s die part ctx q strong ps).1 := by
  unfold loadParts
  refine Keeps.foldl_fst (fun r x => ?_) _ (s, [])
  exact keeps_loadAt _ _ _ _ _ _ _ _ _

theorem keeps_storeParts (die part : Nat) (ctx : BitVec 12) (strong : Bool) (ps : List Part) (bs : List Byte) (s : State) :
    Keeps s (storeParts s die part ctx strong ps bs) := by
  induction ps generalizing s bs with
  | nil => exact .refl s
  | cons p t ih => exact (keeps_storeAt s _ _ _ _ _ _ _).trans (ih _ _)

theorem keeps_writeParts (part : Nat) (ps : List Part) (bs : List Byte) (s : State) : Keeps s (writeParts s part ps bs) := by
  induction ps generalizing s bs with
  | nil => exact .refl s
  | cons p t ih => exact (keeps_writeSlot s _ _ _ _).trans (ih _ _)

/-! ## Translation -/

theorem keeps_markAD (s : State) (part ptkey pa : Nat) (write : Bool) : Keeps s (markAD s part ptkey pa write) := by
  unfold markAD
  refine (?_ : ∀ new : Word, Keeps s (if new = readWord s ptkey pa then s else writeWord s part ptkey pa new)) _
  intro new
  split
  · exact .refl s
  · exact keeps_writeWord _ _ _ _ _

theorem keeps_tlbPut (s : State) (r : WalkReq) (leaf : Leaf) : Keeps s (tlbPut s r leaf) := .of_eq rfl rfl

theorem keeps_tlbEmpty (s : State) (r : WalkReq) : Keeps s (tlbEmpty s r) := .of_eq rfl rfl

theorem keeps_takeFrame (s : State) (part : Nat) (ctx : BitVec 12) (p : PoolRing) : Keeps s (takeFrame s part ctx p).1 :=
  keeps_writeWord _ _ _ _ _

theorem keeps_serveCow (s : State) (r : WalkReq) (leafPa : Nat) (pte : Word) : Keeps s (serveCow s r leafPa pte).1 := by
  unfold serveCow; lift_lets; extract_lets page cwkey pool cow t
  have ht : Keeps s t.1 := keeps_takeFrame _ _ _ _
  repeat' split
  all_goals first | exact ht | exact ht.trans (.of_eq rfl rfl) | exact .of_eq rfl rfl

theorem keeps_servePull (s : State) (r : WalkReq) (leafPa : Nat) (pte : Word) : Keeps s (servePull s r leafPa pte).1 := by
  unfold servePull; lift_lets; extract_lets
  repeat' split
  all_goals exact .of_eq rfl rfl

theorem keeps_pickLine (l : List WalkLine) (s : State) : Keeps s (pickLine s l).1 := by
  induction l generalizing s with
  | nil => exact .refl s
  | cons c t ih =>
    unfold pickLine; simp only; split
    · exact .of_eq rfl rfl
    · exact Keeps.trans (t := { s with freeCtr := s.freeCtr + 1 }) (.of_eq rfl rfl) (ih _)

theorem keeps_walkKeep (s : State) (r : WalkReq) (new : List WalkLine) : Keeps s (walkKeep s r new) := .of_eq rfl rfl

theorem keeps_walkLine (s : State) (r : WalkReq) (w : Walk × List (Nat × Nat × Word)) : Keeps s (walkLine s r w).1 := by
  unfold walkLine; split
  · exact .refl s
  · exact keeps_pickLine _ _

theorem keeps_walkFor (s : State) (r : WalkReq) : Keeps s (walkFor s r).1 := by
  unfold walkFor; split
  · exact .refl s
  · rename_i ptkey root _
    have hp := keeps_walkLine s r (walkMemory s ptkey root r.va)
    extract_lets w
    split
    · rename_i e; rw [e] at hp; split
      · exact hp
      · exact hp.trans (keeps_walkKeep _ _ _)
    · rename_i e; rw [e] at hp; exact hp.trans (keeps_walkKeep _ _ _)

theorem keeps_serveWalk (s : State) (r : WalkReq) : Keeps s (serveWalk s r).1 := by
  unfold serveWalk
  have hw := keeps_walkFor s r
  split
  · rename_i e; rw [e] at hw; exact hw.trans (keeps_tlbEmpty _ _)
  · rename_i s' pa lg level pte e; rw [e] at hw
    split
    · exact hw.trans (keeps_tlbEmpty _ _)
    · refine hw.trans ?_
      extract_lets leaf s2 got
      have hg : Keeps s' got.1 := by
        unfold got; split
        · exact keeps_servePull _ _ _ _
        · split
          · exact keeps_serveCow _ _ _ _
          · exact ((keeps_markAD s' _ _ _ _).trans (keeps_walkKeep _ _ _)).trans (keeps_tlbPut _ _ _)
      clear_value got
      obtain ⟨s3, g⟩ := got
      cases g with
      | fault f => exact hg.trans (keeps_tlbEmpty _ _)
      | filled l => exact hg
      | held => exact hg

theorem keeps_dropLatched (s : State) (h : Holder) : Keeps s (dropLatched s h) := .of_eq rfl rfl

theorem keeps_forgetMisses (s : State) (p : Holder → Bool) : Keeps s (forgetMisses s p) := .of_eq rfl rfl

theorem keeps_touchEntries (s : State) (h : Holder) (ctx : BitVec 12) (ps : List Part) : Keeps s (touchEntries s h ctx ps) := by
  unfold touchEntries; cases h <;> simp only
  case seq q =>
    refine (keeps_dropLatched s _).trans (Keeps.foldl (fun s p => ?_) ps _)
    exact .of_eq rfl rfl
  all_goals exact keeps_dropLatched s _

theorem keeps_translateWith (s : State) (h : Holder) (ctx : BitVec 12) (part die va n : Nat) (w a soft : Bool) (reach : Reach) :
    Keeps s (translateWith s h ctx part die va n w a soft reach).1 := by
  unfold translateWith; lift_lets; extract_lets pieces mine s1
  have h1 : Keeps s s1 := by unfold s1; split <;> exact .of_eq rfl rfl
  refine h1.trans ?_
  repeat' split
  all_goals first | exact .refl _ | exact keeps_touchEntries _ _ _ _ | exact .of_eq rfl rfl

theorem keeps_walkPieces (h : Holder) (ctx : BitVec 12) (part die : Nat) (w : Bool) (l : List (Nat × Nat)) (s : State) :
    Keeps s (walkPieces h ctx part die w s l).1 := by
  induction l generalizing s with
  | nil => exact .refl s
  | cons p t ih =>
    obtain ⟨va, n⟩ := p
    unfold walkPieces; lift_lets; extract_lets r got
    have hg : Keeps s got.1 := by
      unfold got; split
      · exact .refl s
      · exact .refl s
      · exact keeps_serveWalk _ _
    clear_value got
    obtain ⟨s', g⟩ := got
    cases g with
    | fault f => exact hg
    | held => exact hg
    | filled leaf =>
      have hr := ih s'
      simp only
      split
      · exact hg
      · exact hg
      · split
        · rename_i e; rw [e] at hr; exact hg.trans hr
        · exact hg.trans hr

theorem keeps_translate (s : State) (h : Holder) (ctx : BitVec 12) (part die va n : Nat) (w a sc : Bool) :
    Keeps s (translate s h ctx part die va n w a sc).1 := by
  unfold translate; split
  · split
    · exact .of_eq rfl rfl
    · exact keeps_walkPieces _ _ _ _ _ _ _
  · exact keeps_translateWith _ _ _ _ _ _ _ _ _ _ _

theorem keeps_admitLines (s : State) (h : Holder) (ctx : BitVec 12) (part die va : Nat) (ps : List Part) :
    Keeps s (admitLines s h ctx part die va ps).1 := by
  unfold admitLines; lift_lets; extract_lets
  repeat' split
  all_goals first | exact .refl s | exact .of_eq rfl rfl

theorem keeps_dropTranslations (s : State) (ctx : BitVec 12) (page : Option Nat) : Keeps s (dropTranslations s ctx page) :=
  .of_eq rfl rfl

/-! ## Rings -/

theorem keeps_ringHold (s : State) (us : List RingUse) : Keeps s (ringHold s us).1 := by
  unfold ringHold; extract_lets s1
  have h1 : Keeps s s1 := .of_eq rfl rfl
  refine h1.trans (Keeps.foldl_fst (fun r u => ?_) us (s1, true))
  have h := keeps_translate r.1 (.queue u.x.part u.x.q) u.x.ctx u.x.part (partOf r.1 u.x.part).dieOf u.va u.n u.write false false
  split <;> (rename_i e; rw [e] at h; exact h)

theorem keeps_ringWrite (s : State) (x : Queue) (va : Nat) (bs : List Byte) : Keeps s (ringWrite s x va bs) := by
  unfold ringWrite; split
  · exact keeps_writeParts _ _ _ _
  · exact .refl s

theorem keeps_setRecWord (s : State) (x : Queue) (i k : Nat) (w : Word) : Keeps s (setRecWord s x i k w) :=
  keeps_ringWrite _ _ _ _

theorem keeps_setRecState (s : State) (x : Queue) (i n : Nat) : Keeps s (setRecState s x i n) := by
  unfold setRecState; split
  · exact keeps_setRecWord _ _ _ _ _
  · exact .refl s

theorem keeps_watchTail (s : State) (x : Queue) : Keeps s (watchTail s x) := by
  unfold watchTail; split <;> exact .of_eq rfl rfl

theorem keeps_setQueue (s : State) (x : Queue) : Keeps s (setQueue s x) := .of_eq rfl rfl

theorem keeps_advanceHead (fuel : Nat) (s : State) (part q : Nat) : Keeps s (advanceHead fuel s part q) := by
  induction fuel generalizing s with
  | zero => exact .refl s
  | succ n ih =>
    unfold advanceHead; simp only; split
    · exact .refl s
    · have h := keeps_ringHold s [headUse (queueOf s part q), recUse (queueOf s part q) (queueOf s part q).head false]
      split
      · rename_i e; rw [e] at h; exact h
      · rename_i e; rw [e] at h; split
        · split
          · exact ((h.trans (keeps_ringWrite _ _ _ _)).trans (keeps_setQueue _ _)).trans (ih _)
          · exact h
        · exact h

theorem keeps_retireHead (s : State) (part q : Nat) : Keeps s (retireHead s part q) := by
  unfold retireHead; simp only; split
  · exact .refl s
  · exact keeps_advanceHead _ _ _ _

/-! ## Units and traps -/

theorem keeps_pushEvent (s : State) (src code part ctx : Nat) (args : List Word) : Keeps s (pushEvent s src code part ctx args) :=
  .of_eq rfl rfl

theorem keeps_updSeq (s : State) (q : SeqId) (f : Seq → Seq) : Keeps s (s.updSeq q f) := .of_eq rfl rfl

theorem keeps_updCpu (s : State) (f : Seq → Seq) : Keeps s (s.updCpu f) := .of_eq rfl rfl

theorem keeps_updLaunch (s : State) (ctx : BitVec 12) (id : BitVec 32) (f : Launch → Launch) : Keeps s (updLaunch s ctx id f) :=
  .of_eq rfl rfl

theorem keeps_stopStreams (s : State) (q : SeqId) : Keeps s (stopStreams s q) := .of_eq rfl rfl

theorem keeps_retireUnit (s : State) (q : SeqId) (removed : Bool) : Keeps s (retireUnit s q removed) := by
  unfold retireUnit; split
  · exact .refl s
  · rename_i u _
    lift_lets
    extract_lets aq s1 s2 s3 s4 s5
    have h1 : Keeps s s1 := keeps_setRecState _ _ _ _
    have h2 : Keeps s1 s2 := by
      unfold s2; split
      · exact .refl s1
      · exact keeps_setRecState _ _ _ _
    have h3 : Keeps s2 s3 := (keeps_retireHead _ _ _).trans (keeps_retireHead _ _ _)
    have h4 : Keeps s3 s5 := (keeps_updLaunch s3 _ _ _).trans (keeps_updSeq _ _ _)
    have h := ((h1.trans h2).trans h3).trans h4
    exact Keeps.trans (t := s5) h (keeps_forgetMisses _ _)

theorem keeps_finishAbort (s : State) (q : SeqId) : Keeps s (finishAbort s q) := by
  unfold finishAbort; simp only; split
  · exact .refl s
  · rename_i u _
    have h := keeps_ringHold s (retireUses s u)
    split
    · rename_i e; rw [e] at h; exact h
    · rename_i e; rw [e] at h; exact (h.trans (keeps_retireUnit _ q true)).trans (keeps_pushEvent _ _ _ _ _ _)

theorem keeps_takeTrap (s : State) (q : SeqId) (t : TrapInfo) : Keeps s (takeTrap s q t) := by
  unfold takeTrap; lift_lets; extract_lets c s1 s2 s3
  have h1 : Keeps s s1 := keeps_forgetMisses _ _
  have h3 : Keeps s s3 := (h1.trans (keeps_stopStreams s1 q)).trans (keeps_updSeq s2 _ _)
  split
  · exact h1.trans (keeps_updSeq _ _ _)
  · split
    · exact h3
    · exact h3.trans (keeps_finishAbort _ _)

theorem keeps_trapHere (s : State) (code : Nat) (fault : Option (Word × Word)) : Keeps s (trapHere s code fault) :=
  keeps_takeTrap _ _ _

theorem keeps_trapOprng (s : State) : Keeps s (trapOprng s) := keeps_takeTrap _ _ _

theorem keeps_trapMisal (s : State) (va : Word) (w a : Bool) : Keeps s (trapMisal s va w a) := keeps_takeTrap _ _ _

theorem keeps_trapIllop (s : State) (i : Instr) : Keeps s (trapIllop s i) := keeps_takeTrap _ _ _

theorem keeps_trapFault (s : State) (f : FaultInfo) : Keeps s (trapFault s f) := keeps_takeTrap _ _ _

/-- An instruction of the unit of the moving sequencer answers what it does for that unit, and nothing else. -/
theorem withUnit_next {s t : State} {f : UnitRec → State} (h : withUnit s f = .next t) : ∃ u, s.cpu.run = some u ∧ t = f u := by
  unfold withUnit at h
  split at h
  · rename_i u e; exact ⟨u, e, (Host.Outcome.next.inj h).symm⟩
  · cases h

theorem withUnit_of_run {s : State} {f : UnitRec → State} {u : UnitRec} (h : s.cpu.run = some u) : withUnit s f = .next (f u) := by
  unfold withUnit; rw [h]

/-- What a trap leaves of the sequencer that takes it where a handler is installed and none runs (R385). -/
theorem takeTrap_handler (s : State) (q : SeqId) (t : TrapInfo) (hh : (s.seqs.get q).h = false)
    (hv : bit (s.seqs.get q).tvec 63 = true) :
    takeTrap s q t =
      (forgetMisses s (· == .seq q)).updSeq q fun c =>
        { c with
          epc := t.pc &&& epcMask
          ecode := ecodeOf t.code t.arg
          eword := t.eword
          faddr := (t.fault.map Prod.fst).getD c.faddr
          finfo := (t.fault.map Prod.snd).getD c.finfo
          h := true
          wait := .none
          pc := BitVec.ofNat 64 (bits c.tvec 51 2 * 4)
          ahead := []
          reading := none } := by
  unfold takeTrap; simp only [hh, hv]; rfl

/-! ## Records by their place -/

/-- The record that upsert puts is the one that a search by the same test finds. -/
theorem find_upsert_self {α : Type} (p : α → Bool) (x : α) (hx : p x = true) (l : List α) : (upsert p x l).find? p = some x := by
  unfold upsert
  split
  · rename_i h
    induction l with
    | nil => simp at h
    | cons a t ih =>
      by_cases ha : p a = true
      · simp [ha, hx]
      · simp only [List.any_cons, ha, Bool.false_or] at h
        simp [ha, ih h]
  · rename_i h
    have hn : l.find? p = none := by simpa using h
    simp [List.find?_append, hn, hx]

@[simp] theorem arrayOf_setArray (s : State) (r : ArrayRef) (f : ArrayState → ArrayState) (hf : (f (arrayOf s r)).ref = r) :
    arrayOf (setArray s r f) r = f (arrayOf s r) := by
  have h := find_upsert_self (fun a => a.ref == r) (f (arrayOf s r)) (by simp [hf]) s.arrays
  unfold setArray
  generalize f (arrayOf s r) = x at h
  unfold arrayOf
  simp only [h]

@[simp] theorem queueOf_setQueue (s : State) (x : Queue) : queueOf (setQueue s x) x.part x.q = x := by
  have h := find_upsert_self (fun y : Queue => y.part == x.part && y.q == x.q) x (by simp) s.queues
  unfold queueOf setQueue
  simp only [h]

theorem partOf_setPart (s : State) (p : Nat) (f : Partition → Partition) (hp : p < 48) :
    partOf (setPart s p f) p = f (partOf s p) := by
  unfold partOf setPart
  simp [hp, Vector.get_eq_getElem]

@[simp] theorem keyState_setKey (s : State) (k : Nat) (kst : KeyState) (key : KeyMat) : keyState (setKey s k kst key) k = kst := by
  have h := find_upsert_self (fun e : KeySlot => e.slot == k) { slot := k, kst := kst, key := key } (by simp) s.keySlots
  unfold keyState keyEntry setKey
  simp only [h]

end Sys2Proof.Machine
end

