-- ==== Sys2Proof/Tests/Slice0.lean ====
section
/-! SUPPORT. Tests of the model: ill-formed terms that WellFormed refuses, words of the spec's encodings, single steps
on a small package, and for each statement states and operands that meet its hypotheses. -/

open Sys2Proof Sys2Proof.Machine

namespace Sys2Proof.Tests

set_option maxRecDepth 100000
set_option Elab.async false
set_option exponentiation.threshold 600

/-! ## Ill-formed terms, which the checks of WellFormed refuse -/

/-- The reasons of an element word, as R44 numbers them. -/
def reasonsOf (i : Instr) : List Nat :=
  match encodeElem i with
  | some w => wordReasons 3 (opKind (eOp w)) w
  | none => []

/-- An element word with local targets only. -/
def ill (ty mod t0 t1 x : Nat) : EWord :=
  { ty := BitVec.ofNat 4 ty, mod := BitVec.ofNat 4 mod, t0 := BitVec.ofNat 16 t0, t1 := BitVec.ofNat 16 t1, x := BitVec.ofNat 16 x }

/-- R33, R124 to R126: pairs of registers start at an even one, and a width is one the form has. -/
theorem test_wf_pairs :
    [Instr.ldsShort 7 3 1 0, .stsShort 4 3 1 0, .stsShort 5 2 1 0, .ldsLong 7 3 1 ⟨0, 0⟩ 0, .stsLong 7 3 1 ⟨0, 0⟩ 0,
      .stsLong 1 2 1 ⟨0, 0⟩ 0, .stsLong 3 2 1 ⟨0, 0⟩ 0, .stsLong 5 2 1 ⟨0, 0⟩ 0, .strm2 1 2 4 5 0x80000,
      .spawn 1 2 4 5 0xB0].all (fun i => !i.wf 3) = true := by decide

/-- R32, R121: the orders each form takes, and five scopes. -/
theorem test_wf_orders :
    [Instr.ldsLong 0 2 1 ⟨2, 0⟩ 0, .ldsLong 0 2 1 ⟨3, 0⟩ 0, .ldsLong 0 2 1 ⟨0, 5⟩ 0, .stsLong 0 2 1 ⟨1, 0⟩ 0,
      .stsLong 0 2 1 ⟨3, 0⟩ 0, .stsLong 0 2 1 ⟨0, 5⟩ 0, .amoadd 1 2 3 ⟨5, 0⟩, .amoadd 1 2 3 ⟨0, 5⟩, .amomin 1 2 3 ⟨5, 0⟩,
      .amomax 1 2 3 ⟨0, 6⟩, .amoand 1 2 3 ⟨6, 0⟩, .amoor 1 2 3 ⟨0, 7⟩, .amoxor 1 2 3 ⟨7, 0⟩, .amoswap 1 2 3 ⟨0, 5⟩,
      .amocas 1 2 3 ⟨5, 0⟩, .amaxrs 1 2 ⟨5, 0⟩, .amaxrs 1 2 ⟨0, 5⟩, .fence ⟨0, 0⟩, .fence ⟨5, 0⟩,
      .fence ⟨1, 5⟩].all (fun i => !i.wf 3) = true := by decide

/-- R42: the two CSRs with a row of their own, the modes, levels and payload fields of the other forms. -/
theorem test_wf_fields :
    [Instr.csrw 1 0x412, .csrw 1 0x409, .aconv 1 5, .cancel 1 2 0, .cancel 1 2 5, .cdone 1 2 0 0, .cdone 1 2 1 5,
      .copyx 1 2 3 0 0x000007C0, .copyx 1 2 3 4 0x000028C0, .copyx 1 2 3 0 0x000008C0, .copyx 1 2 3 0 0x00022800,
      .copyx 1 2 3 0 0x0001A8C0, .copyx 1 2 3 4 0x00001800, .copyg 1 2 3 4 0x180, .copyg 1 2 3 4 0x440,
      .copyg 1 2 3 4 0x9C0, .bdot 1 2 3 0x1000, .bdot 1 2 3 0xC00, .bdot 1 2 3 0x180, .strm 1 2 3 0x10000,
      .strm 1 2 3 0xC0000, .strm 1 2 3 0x80200, .strm 1 2 3 0x80001, .strm 1 2 3 0xC800, .strm 1 2 3 0x0001,
      .strm2 1 2 3 4 0x20000, .spawn 1 2 3 4 0xB1, .spawn 1 2 3 4 0xA0, .spawn 1 2 3 4 0x1B0].all
      (fun i => !i.wf 3) = true := by decide

/-- ACONV to the modes of version 2 in a version 1 image (R46). -/
theorem test_wf_version : (Instr.aconv 1 3).wf 1 = false ∧ (Instr.tbound (ill 0 0 0 0 0)).wf 2 = false ∧
    (Instr.ceval (ill 0 0 0 0 0)).wf 1 = false ∧ (Instr.cvts (ill 8 8 0 0 0)).wf 2 = false ∧
    (Instr.mma (ill 0 8 0 0 0)).wf 2 = false := by decide

/-- R34 to R37, R230: targets without V, long routes with other bits, the type codes past 11. -/
theorem test_wf_targets :
    ([Instr.iadd (ill 0 0 1 0 0), .iadd (ill 0 0 0 1 0), .iadd (ill 0 0 0xC801 0 0), .iadd (ill 0 0 0 0xC801 0)].map reasonsOf).all
      (· == [0x02]) = true ∧ (reasonsOf (.vperm (ill 12 0 0 0 0))).contains 0x02 ∧
    (reasonsOf (.sync (ill 0 0 0x8000 0 1))) = [0x02] ∧ (reasonsOf (.sync (ill 0 0 0xC800 0 1))) = [] := by decide

/-- R294, R295, R300 to R304: types, conditions, saturation, rounding, immediates and the hold fields. -/
theorem test_wf_arithmetic :
    [(Instr.iadd (ill 8 0 0 0 0), [0x0A]), (.iadd (ill 11 0 0 0 0), [0x0A]), (.iand (ill 11 8 0 0 1), [0x0A]),
      (.fadd (ill 7 0 0 0 0), [0x0A]), (.icmp (ill 0 6 0 0 0), [0x02]), (.fcmp (ill 8 7 0 0 0), [0x02]),
      (.imulh (ill 0 4 0 0 0), [0x02]), (.iadd (ill 0 1 0 0 0), [0x02]), (.fadd (ill 8 4 0 0 0), [0x02]),
      (.fmin (ill 8 1 0 0 0), [0x02]), (.iadd (ill 0 8 0 0 0x80), [0x02]), (.iadd (ill 4 8 0 0 0x100), [0x02]),
      (.iadd (ill 0 0 0 0 1), [0x02]), (.iadd (ill 0 0 0 0 0x1000), [0x02]), (.iadd (ill 0 0 0 0 0x100), [0x02]),
      (.iabs (ill 0 8 0 0 0), [0x02]), (.iabs (ill 0 0 0 0 0x8000), [0x02]),
      (.iadd (ill 0 8 0xC800 0 0), [0x0B])].all (fun p => reasonsOf p.1 == p.2) = true := by decide

/-- R305 to R315: the lane and dataflow words. -/
theorem test_wf_lanes_and_flow :
    [(Instr.vred (ill 11 0 0 0 0), [0x0A]), (.vred (ill 8 12 0 0 0), [0x02]), (.vred (ill 0 1 0 0 0), [0x02]),
      (.vperm (ill 0 1 0 0 0), [0x02]), (.vperm (ill 0 0 0 0 1), [0x02]), (.vbcast (ill 3 0 0 0 4), [0x02]),
      (.vext (ill 3 0 0xC800 0 0), [0x0B]), (.vins (ill 0 0 0 0 0x100), [0x02]), (.vshuf (ill 0 0 0 0 4), [0x02]),
      (.vshuf (ill 0 0 0xC800 0 0), [0x0B]), (.wadv (ill 1 0 0 0 0), [0x0A]), (.wadv (ill 0 3 0 0 0), [0x02]),
      (.wadv (ill 0 0 0xC800 0 0), [0x0B]), (.gate (ill 0 2 0 0 0), [0x02]), (.dup (ill 0 1 0 0 0), [0x02]),
      (.dup (ill 0 0 0 0 0xC800), [0x02]), (.dup (ill 0 0 0xC800 0 0), [0x0B]), (.const (ill 11 0 0 0 0), [0x0A]),
      (.const (ill 0 1 0 0 0), [0x02]), (.const (ill 0 8 0 0 8), [0x02]), (.const (ill 4 0 0 0 0x100), [0x02]),
      (.sink (ill 0 0 0x8000 0 0), [0x02]), (.sink (ill 0 1 0 0 0), [0x02]), (.tagset (ill 0 3 0 0 0), [0x02]),
      (.tagset (ill 0 1 0 0 0x100), [0x02]), (.tagset (ill 0 1 0xC800 0 0), [0x0B]), (.steer (ill 1 0 0 0 0), [0x0A]),
      (.merge (ill 0 1 0 0 0), [0x02]), (.blkx (ill 0 0 0 0 1), [0x02])].all (fun p => reasonsOf p.1 == p.2) = true := by decide

/-- R316 to R321: orders, scopes, types, widths and the reserved bits of a memory word. -/
theorem test_wf_memory :
    [(Instr.lde (ill 0 0 0 0 0x40), [0x02]), (.ste (ill 0 0 0 0 0x20), [0x02]), (.ldx (ill 0 0 0 0 0x80), [0x02]),
      (.stx (ill 0 0 0 0 0x20), [0x02]), (.amoe (ill 0 0 0 0 0xA0), [0x02]), (.fencee (ill 0 0 0 0 0), [0x02]),
      (.lde (ill 0 0 0 0 0x14), [0x02]), (.lde (ill 0 0 0 0 1), [0x02]), (.lde (ill 0 0 0 0 0x100), [0x02]),
      (.lde (ill 1 0 0 0 0), [0x0A]), (.ldx (ill 8 0 0 0 0), [0x0A]), (.lde (ill 0 6 0 0 0), [0x02]),
      (.lde (ill 0 5 0 0 0x80), [0x02]), (.amoe (ill 0 8 0 0 0), [0x02]), (.fencee (ill 0 1 0 0 0x20), [0x02]),
      (.lde (ill 0 0 0xC800 0 0), [0x0B])].all (fun p => reasonsOf p.1 == p.2) = true := by decide

/-- R324 to R327, R335, R340, R354, R328: the words of converters, islands and combs, and TRAPE. -/
theorem test_wf_units :
    [(Instr.cvt (ill 11 0 0 0 0), [0x0A]), (.cvt (ill 0 0 0 0 0xB), [0x0A]), (.cvt (ill 0 8 0 0 0), [0x02]),
      (.cvt (ill 0 0 0 0 0x40), [0x02]), (.cvt (ill 0 0 0 0 0x10), [0x02]), (.cvt (ill 0 0 0 0 0x21), [0x02]),
      (.cvt (ill 0 4 0 0 1), [0x02]), (.cvt (ill 0 0 0xC800 0 0), [0x0B]), (.cvts (ill 10 0 0 0 0), [0x0A]),
      (.cvts (ill 8 0 0 0 0x800), [0x02]), (.cvts (ill 8 5 0 0 0), [0x02]), (.cvts (ill 8 4 0 0 0x400), [0x02]),
      (.qnt (ill 10 0 0 0 0), [0x0A]), (.qnt (ill 8 1 0 0 0), [0x02]), (.qnt (ill 8 0 0 0 0x400), [0x02]),
      (.mma (ill 1 0 0 0 0), [0x0A]), (.mma (ill 0 1 0 0 0), [0x02]), (.tload (ill 0 8 0 0 0), [0x02]),
      (.tstore (ill 0 1 0 0 0), [0x02]), (.tzero (ill 0 0 0 0 1), [0x02]), (.ceval (ill 0 2 0 0 0), [0x02]),
      (.ceval (ill 0 0 0 0 0x10), [0x02]), (.ceval (ill 0 1 0 0 0x100), [0x02]), (.csched (ill 0 1 0 0 0), [0x02]),
      (.csched (ill 0 0 0 0 0x10), [0x02]), (.cstate (ill 0 2 0 0 0), [0x02]), (.cstate (ill 0 0 0 0 0x10), [0x02]),
      (.cloadctx (ill 0 0 0 0 0x10), [0x02]), (.csavectx (ill 0 0 0 0 0x100), [0x02]), (.cloadctx (ill 1 0 0 0 0), [0x0A]),
      (.ceval (ill 0 0 0xC800 0 0), [0x0B]), (.trape (ill 0 2 0 0 0), [0x02]), (.trape (ill 1 0 0 0 0), [0x0A]),
      (.trape (ill 0 0 0xC800 0 0), [0x0B])].all (fun p => reasonsOf p.1 == p.2) = true := by decide

/-- Opcodes no row assigns, and a word in a slot of another kind (R38, R41); a NOP with bits (R328). -/
theorem test_wf_kinds : wordReasons 3 .element 0x1100000000000000 = [0x01] ∧ wordReasons 3 .element 0x8000000000000000 = [0x04] ∧
    wordReasons 3 .converter 0x0000000000000000 = [0x03] ∧ wordReasons 3 .island 0xF100000000000000 = [0x03] ∧
    wordReasons 3 .element 0xF000000000000001 = [0x02] ∧ wordReasons 3 .comb 0xA000000000000000 = [] := by decide


/-- Words put together from the match and the fields of the opcode table: ADD, SUB, MUL, MULH, MULHU, DIV, DIVU, REM, REMU, AND. -/
theorem test_decode_seq_1 :
    decodeSeq 0x00BD1B40 0 = .ok (.add 47 17 45) ∧
    decodeSeq 0x01630180 0 = .ok (.sub 24 48 6) ∧
    decodeSeq 0x021B2540 0 = .ok (.mul 6 50 21) ∧
    decodeSeq 0x03D380C0 0 = .ok (.mulh 52 56 3) ∧
    decodeSeq 0x04D36D00 0 = .ok (.mulhu 52 54 52) ∧
    decodeSeq 0x05248BC0 0 = .ok (.div 9 8 47) ∧
    decodeSeq 0x069DBDC0 0 = .ok (.divu 39 27 55) ∧
    decodeSeq 0x07757640 0 = .ok (.rem 29 23 25) ∧
    decodeSeq 0x083F5B00 0 = .ok (.remu 15 53 44) ∧
    decodeSeq 0x0955BE00 0 = .ok (.and 21 27 56) := by decide +kernel

/-- Words put together from the match and the fields of the opcode table: OR, XOR, SHL, SHR, SRA, MIN, MAX, MINU, MAXU, CLZ. -/
theorem test_decode_seq_2 :
    decodeSeq 0x0A8C2140 0 = .ok (.or 35 2 5) ∧
    decodeSeq 0x0B129600 0 = .ok (.xor 4 41 24) ∧
    decodeSeq 0x0C16CB00 0 = .ok (.shl 5 44 44) ∧
    decodeSeq 0x0D561800 0 = .ok (.shr 21 33 32) ∧
    decodeSeq 0x0EF74880 0 = .ok (.sra 61 52 34) ∧
    decodeSeq 0x0F3660C0 0 = .ok (.min 13 38 3) ∧
    decodeSeq 0x10D87A80 0 = .ok (.max 54 7 42) ∧
    decodeSeq 0x1109AB80 0 = .ok (.minu 2 26 46) ∧
    decodeSeq 0x1279F540 0 = .ok (.maxu 30 31 21) ∧
    decodeSeq 0x13BD1000 0 = .ok (.clz 47 17) := by decide +kernel

/-- Words put together from the match and the fields of the opcode table: POPC, SEL, MOV, ADDI, ANDI, ORI, XORI, SHLI, SHRI, SRAI. -/
theorem test_decode_seq_3 :
    decodeSeq 0x14A6B000 0 = .ok (.popc 41 43) ∧
    decodeSeq 0x157575C8 0 = .ok (.sel 29 23 23 8) ∧
    decodeSeq 0x16055000 0 = .ok (.mov 1 21) ∧
    decodeSeq 0x2024B246 0 = .ok (.addi 9 11 582) ∧
    decodeSeq 0x2116E4FB 0 = .ok (.andi 5 46 1275) ∧
    decodeSeq 0x22E5759B 0 = .ok (.ori 57 23 1435) ∧
    decodeSeq 0x23678C01 0 = .ok (.xori 25 56 3073) ∧
    decodeSeq 0x24A2001B 0 = .ok (.shli 40 32 27) ∧
    decodeSeq 0x257A0018 0 = .ok (.shri 30 32 24) ∧
    decodeSeq 0x261FA00D 0 = .ok (.srai 7 58 13) := by decide +kernel

/-- Words put together from the match and the fields of the opcode table: CMPEQI, CMPNEI, CMPLTI, CMPGEI, LI_SHORT, LIH, CMPEQ, CMPNE, CMPLT, CMPGE. -/
theorem test_decode_seq_4 :
    decodeSeq 0x27259425 0 = .ok (.cmpeqi 9 25 1061) ∧
    decodeSeq 0x283A06D8 0 = .ok (.cmpnei 14 32 1752) ∧
    decodeSeq 0x291274CA 0 = .ok (.cmplti 4 39 1226) ∧
    decodeSeq 0x2A0B63F2 0 = .ok (.cmpgei 2 54 1010) ∧
    decodeSeq 0x2EE4005D 0 = .ok (.liShort 57 93) ∧
    decodeSeq 0x2FEC1165 0 = .ok (.lih 59 4453) ∧
    decodeSeq 0x30187AC0 0 = .ok (.cmpeq 6 7 43) ∧
    decodeSeq 0x31292E00 0 = .ok (.cmpne 10 18 56) ∧
    decodeSeq 0x32108B80 0 = .ok (.cmplt 4 8 46) ∧
    decodeSeq 0x3339BD00 0 = .ok (.cmpge 14 27 52) := by decide +kernel

/-- Words put together from the match and the fields of the opcode table: CMPLTU, CMPGEU, PAND, POR, PNOT, B, BC, CALL, RET, JR. -/
theorem test_decode_seq_5 :
    decodeSeq 0x34369600 0 = .ok (.cmpltu 13 41 24) ∧
    decodeSeq 0x351FC740 0 = .ok (.cmpgeu 7 60 29) ∧
    decodeSeq 0x3824C040 0 = .ok (.pand 9 12 1) ∧
    decodeSeq 0x393C2180 0 = .ok (.por 15 2 6) ∧
    decodeSeq 0x3A202000 0 = .ok (.pnot 8 2) ∧
    decodeSeq 0x40001B0F 0 = .ok (.b 6927) ∧
    decodeSeq 0x4138035E 0 = .ok (.bc 3 1 862) ∧
    decodeSeq 0x4200176D 0 = .ok (.call 5997) ∧
    decodeSeq 0x43000000 0 = .ok .ret ∧
    decodeSeq 0x44005000 0 = .ok (.jr 5) := by decide +kernel

/-- Words put together from the match and the fields of the opcode table: LOOP, LDS_SHORT, STS_SHORT, AMOADD, AMOMIN, AMOMAX, AMOAND, AMOOR, AMOXOR, AMOSWAP. -/
theorem test_decode_seq_6 :
    decodeSeq 0x45A00526 0 = .ok (.loop 40 1318) ∧
    decodeSeq 0x532BF69D 0 = .ok (.ldsShort 3 10 63 1693) ∧
    decodeSeq 0x5B2A108B 0 = .ok (.stsShort 3 10 33 139) ∧
    decodeSeq 0x605A6053 0 = .ok (.amoadd 22 38 1 { ord := 2, scope := 3 }) ∧
    decodeSeq 0x6104E613 0 = .ok (.amomin 1 14 24 { ord := 2, scope := 3 }) ∧
    decodeSeq 0x629DBD13 0 = .ok (.amomax 39 27 52 { ord := 2, scope := 3 }) ∧
    decodeSeq 0x63E58893 0 = .ok (.amoand 57 24 34 { ord := 2, scope := 3 }) ∧
    decodeSeq 0x64FBC693 0 = .ok (.amoor 62 60 26 { ord := 2, scope := 3 }) ∧
    decodeSeq 0x657E4D13 0 = .ok (.amoxor 31 36 52 { ord := 2, scope := 3 }) ∧
    decodeSeq 0x66D857D3 0 = .ok (.amoswap 54 5 31 { ord := 2, scope := 3 }) := by decide +kernel

/-- Words put together from the match and the fields of the opcode table: AMOCAS, AMAXRS, FENCE, CCLEAN, CINVAL, CFLUSH, CPREF, ACONV, AQUERY, WANY. -/
theorem test_decode_seq_7 :
    decodeSeq 0x672D6593 0 = .ok (.amocas 11 22 22 { ord := 2, scope := 3 }) ∧
    decodeSeq 0x68C64013 0 = .ok (.amaxrs 49 36 { ord := 2, scope := 3 }) ∧
    decodeSeq 0x69000013 0 = .ok (.fence { ord := 2, scope := 3 }) ∧
    decodeSeq 0x6A00D980 0 = .ok (.cclean 13 38) ∧
    decodeSeq 0x6B03DD00 0 = .ok (.cinval 61 52) ∧
    decodeSeq 0x6C01E800 0 = .ok (.cflush 30 32) ∧
    decodeSeq 0x6D014500 0 = .ok (.cpref 20 20) ∧
    decodeSeq 0x6E002004 0 = .ok (.aconv 2 4) ∧
    decodeSeq 0x6F5A3000 0 = .ok (.aquery 22 35) ∧
    decodeSeq 0x70AF6000 0 = .ok (.wany 43 54) := by decide +kernel

/-- Words put together from the match and the fields of the opcode table: WALL, CFFR, CTAGCLR, WAITC, STRMEND, JOIN, CONT, END, CANCEL, CDONE. -/
theorem test_decode_seq_8 :
    decodeSeq 0x71AB1000 0 = .ok (.wall 42 49) ∧
    decodeSeq 0x7231E000 0 = .ok (.cffr 12 30) ∧
    decodeSeq 0x73002000 0 = .ok (.ctagclr 2) ∧
    decodeSeq 0x74004841 0 = .ok (.waitc 4 8 4 1) ∧
    decodeSeq 0x80BD6001 0 = .ok (.strmend 47 22 1) ∧
    decodeSeq 0x81678100 0 = .ok (.join 25 56 4) ∧
    decodeSeq 0x8203DD80 0 = .ok (.cont 61 54) ∧
    decodeSeq 0x83000000 0 = .ok .endU ∧
    decodeSeq 0x84C1B003 0 = .ok (.cancel 48 27 3) ∧
    decodeSeq 0x85AB200B 0 = .ok (.cdone 42 50 1 3) := by decide +kernel

/-- Words put together from the match and the fields of the opcode table: BAR, BARC, RECFG, LOADCFG, TDEF, TSCALE, TREAD, TRAP, ERET, CSRR. -/
theorem test_decode_seq_9 :
    decodeSeq 0x86206000 0 = .ok (.bar 8 6) ∧
    decodeSeq 0x8701B1C0 0 = .ok (.barc 27 7) ∧
    decodeSeq 0x888B91C1 0 = .ok (.recfg 34 57 7 1) ∧
    decodeSeq 0x89D38F80 0 = .ok (.loadcfg 52 56 62) ∧
    decodeSeq 0x903AF140 0 = .ok (.tdef 14 47 5) ∧
    decodeSeq 0x910E2940 0 = .ok (.tscale 3 34 37) ∧
    decodeSeq 0x9282DCC0 0 = .ok (.tread 32 45 51) ∧
    decodeSeq 0xC0000AC2 0 = .ok (.trap 2754) ∧
    decodeSeq 0xC1000000 0 = .ok .eret ∧
    decodeSeq 0xC2540F5D 0 = .ok (.csrr 21 3933) := by decide +kernel

/-- Words put together from the match and the fields of the opcode table: CSRW, MARK, SEAL, UNSEAL, KEYZ, SCRUB, CTRINC. -/
theorem test_decode_seq_10 :
    decodeSeq 0xC303E416 0 = .ok (.csrw 62 1046) ∧
    decodeSeq 0xC45C0001 0 = .ok (.mark 23 1) ∧
    decodeSeq 0xC5B01E01 0 = .ok (.seal 44 1 56 1) ∧
    decodeSeq 0xC64CE680 0 = .ok (.unseal 19 14 26) ∧
    decodeSeq 0xC74CE000 0 = .ok (.keyz 19 14) ∧
    decodeSeq 0xC8480000 0 = .ok (.scrub 18) ∧
    decodeSeq 0xC9170001 0 = .ok (.ctrinc 5 48 1) := by decide +kernel

/-- Words of two words, from R30 and R33, and the CSRs of their own: LDS_LONG, STS_LONG, LI_LONG, COPY, COPYX, COPYG, BDOT, STRM, STRM2, SPAWN. -/
theorem test_decode_qx_1 :
    decodeSeq 0xE0143189 0x00000040 = .ok (.ldsLong 6 5 3 { ord := 1, scope := 1 } 0x40) ∧
    decodeSeq 0xE11891D3 0xFFFFFFF0 = .ok (.stsLong 7 6 9 { ord := 2, scope := 3 } 0xFFFFFFF0) ∧
    decodeSeq 0xE2141678 0x9ABCDEF0 = .ok (.liLong 5 0x16789ABCDEF0) ∧
    decodeSeq 0xE32CA300 0x00000005 = .ok (.copy 11 10 12 5) ∧
    decodeSeq 0xE40420C4 0x00000087 = .ok (.copyx 1 2 3 4 0x87) ∧
    decodeSeq 0xE52481C6 0x000001C9 = .ok (.copyg 9 8 7 6 0x1C9) ∧
    decodeSeq 0xE6515580 0x000006C7 = .ok (.bdot 20 21 22 0x6C7) ∧
    decodeSeq 0xE728B300 0x19548110 = .ok (.strm 10 11 12 0x19548110) ∧
    decodeSeq 0xE828B30E 0x19548110 = .ok (.strm2 10 11 12 14 0x19548110) ∧
    decodeSeq 0xE91461C8 0x00033AB0 = .ok (.spawn 5 6 7 8 0x33AB0) := by decide +kernel

/-- Words of two words, from R30 and R33, and the CSRs of their own: XLINV_WRITE, RADEPTH_WRITE, CSRW TVEC. -/
theorem test_decode_qx_2 :
    decodeSeq 0xC3009412 0 = .ok (.xlinvWrite 9) ∧
    decodeSeq 0xC3009409 0 = .ok (.radepthWrite 9) ∧
    decodeSeq 0xC3005416 0 = .ok (.csrw 5 0x416) := by decide +kernel

/-- Words of OP, TY, MOD, T0, T1 and X, from R34 and the opcode tables of 10 and 12: IADD, ISUB, IMUL, IMULH, IMAC, IMIN, IMAX, IABS, IAND, IOR. -/
theorem test_decode_elem_1 :
    decodeElem 0x00A780F2027E0333 = some (.iadd { ty := 10, mod := 7, t0 := 0x80F2, t1 := 0x027E, x := 0x0333 }) ∧
    decodeElem 0x019785070D4110EE = some (.isub { ty := 9, mod := 7, t0 := 0x8507, t1 := 0x0D41, x := 0x10EE }) ∧
    decodeElem 0x0245997043105595 = some (.imul { ty := 4, mod := 5, t0 := 0x9970, t1 := 0x4310, x := 0x5595 }) ∧
    decodeElem 0x033DFF7D501BACD8 = some (.imulh { ty := 3, mod := 13, t0 := 0xFF7D, t1 := 0x501B, x := 0xACD8 }) ∧
    decodeElem 0x0476EE2122577274 = some (.imac { ty := 7, mod := 6, t0 := 0xEE21, t1 := 0x2257, x := 0x7274 }) ∧
    decodeElem 0x053597553D834E80 = some (.imin { ty := 3, mod := 5, t0 := 0x9755, t1 := 0x3D83, x := 0x4E80 }) ∧
    decodeElem 0x06ABF4F6345A896F = some (.imax { ty := 10, mod := 11, t0 := 0xF4F6, t1 := 0x345A, x := 0x896F }) ∧
    decodeElem 0x076EB97E1792C167 = some (.iabs { ty := 6, mod := 14, t0 := 0xB97E, t1 := 0x1792, x := 0xC167 }) ∧
    decodeElem 0x0804EFE426FC7861 = some (.iand { ty := 0, mod := 4, t0 := 0xEFE4, t1 := 0x26FC, x := 0x7861 }) ∧
    decodeElem 0x0949A02454BC6C21 = some (.ior { ty := 4, mod := 9, t0 := 0xA024, t1 := 0x54BC, x := 0x6C21 }) := by decide +kernel

/-- Words of OP, TY, MOD, T0, T1 and X, from R34 and the opcode tables of 10 and 12: IXOR, INOT, ISHL, ISHR, ICLZ, IPOPC, ICMP, FADD, FSUB, FMUL. -/
theorem test_decode_elem_2 :
    decodeElem 0x0A31A10228771D94 = some (.ixor { ty := 3, mod := 1, t0 := 0xA102, t1 := 0x2877, x := 0x1D94 }) ∧
    decodeElem 0x0B66E5D60C7A568F = some (.inot { ty := 6, mod := 6, t0 := 0xE5D6, t1 := 0x0C7A, x := 0x568F }) ∧
    decodeElem 0x0CB79DBE1FDB1298 = some (.ishl { ty := 11, mod := 7, t0 := 0x9DBE, t1 := 0x1FDB, x := 0x1298 }) ∧
    decodeElem 0x0DA7D582616E1FA3 = some (.ishr { ty := 10, mod := 7, t0 := 0xD582, t1 := 0x616E, x := 0x1FA3 }) ∧
    decodeElem 0x0E7ECC19489FFFFC = some (.iclz { ty := 7, mod := 14, t0 := 0xCC19, t1 := 0x489F, x := 0xFFFC }) ∧
    decodeElem 0x0F419D0C4C9461B9 = some (.ipopc { ty := 4, mod := 1, t0 := 0x9D0C, t1 := 0x4C94, x := 0x61B9 }) ∧
    decodeElem 0x1039918A7FAFE98C = some (.icmp { ty := 3, mod := 9, t0 := 0x918A, t1 := 0x7FAF, x := 0xE98C }) ∧
    decodeElem 0x206E987E40925267 = some (.fadd { ty := 6, mod := 14, t0 := 0x987E, t1 := 0x4092, x := 0x5267 }) ∧
    decodeElem 0x2118FAC343A59CF2 = some (.fsub { ty := 1, mod := 8, t0 := 0xFAC3, t1 := 0x43A5, x := 0x9CF2 }) ∧
    decodeElem 0x229FD67F640922F6 = some (.fmul { ty := 9, mod := 15, t0 := 0xD67F, t1 := 0x6409, x := 0x22F6 }) := by decide +kernel

/-- Words of OP, TY, MOD, T0, T1 and X, from R34 and the opcode tables of 10 and 12: FFMA, FMIN, FMAX, FABS, FNEG, FCMP, FCLAMP, FRCP, FRSQ, FEXP2. -/
theorem test_decode_elem_3 :
    decodeElem 0x2324D10A55A6109B = some (.ffma { ty := 2, mod := 4, t0 := 0xD10A, t1 := 0x55A6, x := 0x109B }) ∧
    decodeElem 0x2431B5C10DB7B4D4 = some (.fmin { ty := 3, mod := 1, t0 := 0xB5C1, t1 := 0x0DB7, x := 0xB4D4 }) ∧
    decodeElem 0x2593DD3375B53982 = some (.fmax { ty := 9, mod := 3, t0 := 0xDD33, t1 := 0x75B5, x := 0x3982 }) ∧
    decodeElem 0x2628F28E2E028157 = some (.fabs { ty := 2, mod := 8, t0 := 0xF28E, t1 := 0x2E02, x := 0x8157 }) ∧
    decodeElem 0x2720AD7677DA98EF = some (.fneg { ty := 2, mod := 0, t0 := 0xAD76, t1 := 0x77DA, x := 0x98EF }) ∧
    decodeElem 0x2841B3BC0864AE09 = some (.fcmp { ty := 4, mod := 1, t0 := 0xB3BC, t1 := 0x0864, x := 0xAE09 }) ∧
    decodeElem 0x2924D31A5B16178B = some (.fclamp { ty := 2, mod := 4, t0 := 0xD31A, t1 := 0x5B16, x := 0x178B }) ∧
    decodeElem 0x2A31C01128E7D784 = some (.frcp { ty := 3, mod := 1, t0 := 0xC011, t1 := 0x28E7, x := 0xD784 }) ∧
    decodeElem 0x2B9390C47DA5E6F2 = some (.frsq { ty := 9, mod := 3, t0 := 0x90C4, t1 := 0x7DA5, x := 0xE6F2 }) ∧
    decodeElem 0x2C0094A036604565 = some (.fexp2 { ty := 0, mod := 0, t0 := 0x94A0, t1 := 0x3660, x := 0x4565 }) := by decide +kernel

/-- Words of OP, TY, MOD, T0, T1 and X, from R34 and the opcode tables of 10 and 12: FLOG2, VRED, VPERM, VBCAST, VSEL, VEXT, VINS, VSHUF, STEER, STEERC. -/
theorem test_decode_elem_4 :
    decodeElem 0x2D72E76D10AB5BE8 = some (.flog2 { ty := 7, mod := 2, t0 := 0xE76D, t1 := 0x10AB, x := 0x5BE8 }) ∧
    decodeElem 0x4045A5B134D02D55 = some (.vred { ty := 4, mod := 5, t0 := 0xA5B1, t1 := 0x34D0, x := 0x2D55 }) ∧
    decodeElem 0x41BBFD414A37A554 = some (.vperm { ty := 11, mod := 11, t0 := 0xFD41, t1 := 0x4A37, x := 0xA554 }) ∧
    decodeElem 0x42BFE2F504E34CE0 = some (.vbcast { ty := 11, mod := 15, t0 := 0xE2F5, t1 := 0x04E3, x := 0x4CE0 }) ∧
    decodeElem 0x43088F5979E8E22D = some (.vsel { ty := 0, mod := 8, t0 := 0x8F59, t1 := 0x79E8, x := 0xE22D }) ∧
    decodeElem 0x44398D8923AF2D8C = some (.vext { ty := 3, mod := 9, t0 := 0x8D89, t1 := 0x23AF, x := 0x2D8C }) ∧
    decodeElem 0x45AFC3FA3336E4AB = some (.vins { ty := 10, mod := 15, t0 := 0xC3FA, t1 := 0x3336, x := 0xE4AB }) ∧
    decodeElem 0x468AA451313028B5 = some (.vshuf { ty := 8, mod := 10, t0 := 0xA451, t1 := 0x3130, x := 0x28B5 }) ∧
    decodeElem 0x5076F66138178E34 = some (.steer { ty := 7, mod := 6, t0 := 0xF661, t1 := 0x3817, x := 0x8E34 }) ∧
    decodeElem 0x5135C0952A43D940 = some (.steerc { ty := 3, mod := 5, t0 := 0xC095, t1 := 0x2A43, x := 0xD940 }) := by decide +kernel

/-- Words of OP, TY, MOD, T0, T1 and X, from R34 and the opcode tables of 10 and 12: MERGE, WADV, GATE, SYNC, DUP, CONST, SINK, TAGGET, TAGSET, BLKX. -/
theorem test_decode_elem_5 :
    decodeElem 0x529793580471EF9E = some (.merge { ty := 9, mod := 7, t0 := 0x9358, t1 := 0x0471, x := 0xEF9E }) ∧
    decodeElem 0x5304A184585C70C1 = some (.wadv { ty := 0, mod := 4, t0 := 0xA184, t1 := 0x585C, x := 0x70C1 }) ∧
    decodeElem 0x5476A7E23A9734B4 = some (.gate { ty := 7, mod := 6, t0 := 0xA7E2, t1 := 0x3A97, x := 0x34B4 }) ∧
    decodeElem 0x55208837671ACA2F = some (.sync { ty := 2, mod := 0, t0 := 0x8837, t1 := 0x671A, x := 0xCA2F }) ∧
    decodeElem 0x562899BF15520527 = some (.dup { ty := 2, mod := 8, t0 := 0x99BF, t1 := 0x1552, x := 0x0527 }) ∧
    decodeElem 0x571CC1872CC1DC6E = some (.const { ty := 1, mod := 12, t0 := 0xC187, t1 := 0x2CC1, x := 0xDC6E }) ∧
    decodeElem 0x58BB981210E7FF84 = some (.sink { ty := 11, mod := 11, t0 := 0x9812, t1 := 0x10E7, x := 0xFF84 }) ∧
    decodeElem 0x59ABB92616AAC03F = some (.tagget { ty := 10, mod := 11, t0 := 0xB926, t1 := 0x16AA, x := 0xC03F }) ∧
    decodeElem 0x5A86EE2C22747299 = some (.tagset { ty := 8, mod := 6, t0 := 0xEE2C, t1 := 0x2274, x := 0x7299 }) ∧
    decodeElem 0x5B86978C3E144F39 = some (.blkx { ty := 8, mod := 6, t0 := 0x978C, t1 := 0x3E14, x := 0x4F39 }) := by decide +kernel

/-- Words of OP, TY, MOD, T0, T1 and X, from R34 and the opcode tables of 10 and 12: LDE, STE, LDX, STX, AMOE, FENCEE, CVT, CVTS, QNT, MMA. -/
theorem test_decode_elem_6 :
    decodeElem 0x70B3F609372F8D0C = some (.lde { ty := 11, mod := 3, t0 := 0xF609, t1 := 0x372F, x := 0x8D0C }) ∧
    decodeElem 0x71B7BEDD25BBD378 = some (.ste { ty := 11, mod := 7, t0 := 0xBEDD, t1 := 0x25BB, x := 0xD378 }) ∧
    decodeElem 0x72148AC06DC9D2B6 = some (.ldx { ty := 1, mod := 4, t0 := 0x8AC0, t1 := 0x6DC9, x := 0xD2B6 }) ∧
    decodeElem 0x739BA66C36BD2FCA = some (.stx { ty := 9, mod := 11, t0 := 0xA66C, t1 := 0x36BD, x := 0x2FCA }) ∧
    decodeElem 0x740880E953D8B19D = some (.amoe { ty := 0, mod := 8, t0 := 0x80E9, t1 := 0x53D8, x := 0xB19D }) ∧
    decodeElem 0x754DF53835088A4D = some (.fencee { ty := 4, mod := 13, t0 := 0xF538, t1 := 0x3508, x := 0x8A4D }) ∧
    decodeElem 0x8008BAC81AF8C5BD = some (.cvt { ty := 0, mod := 8, t0 := 0xBAC8, t1 := 0x1AF8, x := 0xC5BD }) ∧
    decodeElem 0x8166F65637FA8E0F = some (.cvts { ty := 6, mod := 6, t0 := 0xF656, t1 := 0x37FA, x := 0x8E0F }) ∧
    decodeElem 0x82A3C05E29B2D887 = some (.qnt { ty := 10, mod := 3, t0 := 0xC05E, t1 := 0x29B2, x := 0xD887 }) ∧
    decodeElem 0x908E9245019CEC01 = some (.mma { ty := 8, mod := 14, t0 := 0x9245, t1 := 0x019C, x := 0xEC01 }) := by decide +kernel

/-- Words of OP, TY, MOD, T0, T1 and X, from R34 and the opcode tables of 10 and 12: TLOAD, TSTORE, TZERO, TBOUND, TCVT, CEVAL, CSCHED, CLOADCTX, CSAVECTX, CSTATE. -/
theorem test_decode_elem_7 :
    decodeElem 0x917A9C254A335EB0 = some (.tload { ty := 7, mod := 10, t0 := 0x9C25, t1 := 0x4A33, x := 0x5EB0 }) ∧
    decodeElem 0x92668D0773CADA5F = some (.tstore { ty := 6, mod := 6, t0 := 0x8D07, t1 := 0x73CA, x := 0xDA5F }) ∧
    decodeElem 0x939F81EF05190686 = some (.tzero { ty := 9, mod := 15, t0 := 0x81EF, t1 := 0x0519, x := 0x0686 }) ∧
    decodeElem 0x944D89F81A48218D = some (.tbound { ty := 4, mod := 13, t0 := 0x89F8, t1 := 0x1A48, x := 0x218D }) ∧
    decodeElem 0x9535B2250433A8B0 = some (.tcvt { ty := 3, mod := 5, t0 := 0xB225, t1 := 0x0433, x := 0xA8B0 }) ∧
    decodeElem 0xA097CB274621FCCE = some (.ceval { ty := 9, mod := 7, t0 := 0xCB27, t1 := 0x4621, x := 0xFCCE }) ∧
    decodeElem 0xA12C9852401E51D3 = some (.csched { ty := 2, mod := 12, t0 := 0x9852, t1 := 0x401E, x := 0x51D3 }) ∧
    decodeElem 0xA251F9E741619A0E = some (.cloadctx { ty := 5, mod := 1, t0 := 0xF9E7, t1 := 0x4161, x := 0x9A0E }) ∧
    decodeElem 0xA35DD23358B51482 = some (.csavectx { ty := 5, mod := 13, t0 := 0xD233, t1 := 0x58B5, x := 0x1482 }) ∧
    decodeElem 0xA46EBB8E1D02C857 = some (.cstate { ty := 6, mod := 14, t0 := 0xBB8E, t1 := 0x1D02, x := 0xC857 }) := by decide +kernel

/-- Words of OP, TY, MOD, T0, T1 and X, from R34 and the opcode tables of 10 and 12: TRAPE. -/
theorem test_decode_elem_8 :
    decodeElem 0xF104FA34422C9B11 = some (.trape { ty := 0, mod := 4, t0 := 0xFA34, t1 := 0x422C, x := 0x9B11 }) := by decide +kernel

/-! ## A small package: sequencer 0 runs a unit, and its page 0x20000 lies in a SCRATCH array -/

/-- The answer of an instruction, where it is a next state. -/
def nextOf (i : Instr) (s : State) : Option State :=
  match exec i s with
  | .next t => some t
  | _ => none

/-- A test of the next state of an instruction. -/
def after (i : Instr) (s : State) (p : State → Bool) : Bool := (nextOf i s).any p

/-- The unit of sequencer 0. -/
def unit0 : UnitRec :=
  { ctx := 1, part := 0, handle := 1, launch := 7, lcm1 := 3, unit := 2, phase := 0, frame := 5, prio := 2, queue := 0
    ring := 0, anchor := 0, ver := 3, codeBase := 0x10000, started := [] }

/-- Partition 0: ACTIVE, a table of contexts at 0x10000 under key slot 1, and a few of each resource. -/
def part0 : Partition :=
  { Partition.free with
    pctl := 0x90000100F0000000
    ctxtab := 0x0001000000010000
    tiles := BitVec.allOnes 1024, quads := 0b1111, seqs := 0b1111, llcWays := 0b111, pchs := 1, lp6 := 1
    keys := 0b111110, ctrs := 0b100000 }

/-- The array at page 0x20000. -/
def arr0 : ArrayRef := { die := 0, slice := 0, index := 4 }

/-- Its leaf. -/
def leaf0 : Leaf := { frame := arrayPa arr0, lg := 16, w := true, la := false, ord := 1, key := 0, d := true }

/-- The package. -/
def base : State :=
  { State.reset with
    bstatStage := 2
    parts := State.reset.parts.set 0 part0
    arrays := [{ ref := arr0, owner := 0, mode := .scratch, busy := false, fromMode := .off, sched := 0 }]
    tlb := [{ holder := .seq 0, ctx := 1, va := 0x20000, leaf := leaf0, used := 0 }]
    seqs := State.reset.seqs.set 0 { Seq.reset with run := some unit0, pc := 0x10000, tvec := 0x8000000000040000, preds := 1 } }

/-- A package with a register of the moving sequencer set. -/
def put (s : State) (r : Reg) (v : Word) : State := s.updCpu fun c => c.setReg r v

/-- Registers 1 and 2 set. -/
def two (x y : Word) : State := put (put base 1 x) 2 y

/-- A translation has given pieces. -/
def mapped (r : State × Trans) : Bool :=
  match r.2 with
  | .ok _ => true
  | _ => false

/-- A translation has given a fault. -/
def refused (r : State × Trans) : Bool :=
  match r.2 with
  | .fault _ => true
  | _ => false

/-- A load of an instruction has given bytes with a property, its sequencer as it was. -/
def loaded (s : State) (r : State × Got) (p : List Byte → Bool) : Bool :=
  match r.2 with
  | .bytes bs => r.1.seqs == s.seqs && r.1.cur == s.cur && p bs
  | _ => false

/-- It has given a fault, the sequencer able to take it; or it waits. -/
def loadFaults (s : State) (r : State × Got) : Bool :=
  match r.2 with
  | .fault _ => r.1.cur == s.cur && r.1.cpu == s.cpu && !r.1.cpu.h && bit r.1.cpu.tvec 63
  | _ => false

def loadWaits (r : State × Got) : Bool := r.2 == .wait

/-- The request ports have admitted a load of a holder. -/
def paid (s : State) (h : Holder) (va : Nat) : State :=
  { s with portReqs := s.portReqs ++ [{ id := 0, holder := h, va := va, ctx := 1, part := 0, die := 0, unpaid := [] }] }

/-- The page with bytes at its start. -/
def filled (s : State) (bs : List Byte) : State := { s with mem := memPutAll [] (arrayPa arr0) bs }
/-! ## The sequencer -/

/-- Register r of the moving sequencer. -/
def rg (r : Reg) (t : State) : Word := t.cpu.reg r

/-- An instruction on two register values gives a value in register 3. -/
def gives3 (i : Instr) (x y v : Word) : Bool := after i (two x y) fun t => rg 3 t == v && t.cpu.pc == 0x10004

theorem test_sums :
    gives3 (.add 3 1 2) 0xFFFFFFFFFFFFFFFF 2 1 ∧ gives3 (.sub 3 1 2) 1 2 0xFFFFFFFFFFFFFFFF ∧
    gives3 (.mul 3 1 2) (-3) 5 (-15) ∧ gives3 (.mulh 3 1 2) (-1) 2 (-1) ∧
    gives3 (.mulhu 3 1 2) (-1) 2 1 ∧ gives3 (.addi 3 1 0xFFE) 5 0 3 := by decide +kernel

theorem test_quotients :
    gives3 (.div 3 1 2) (-7) 2 (-3) ∧ gives3 (.rem 3 1 2) (-7) 2 (-1) ∧ gives3 (.div 3 1 2) 7 0 (-1) ∧
    gives3 (.rem 3 1 2) 7 0 7 ∧ gives3 (.div 3 1 2) 0x8000000000000000 (-1) 0x8000000000000000 ∧
    gives3 (.rem 3 1 2) 0x8000000000000000 (-1) 0 ∧ gives3 (.divu 3 1 2) (-1) 2 0x7FFFFFFFFFFFFFFF ∧
    gives3 (.divu 3 1 2) 5 0 (-1) ∧ gives3 (.remu 3 1 2) (-1) 4 3 ∧ gives3 (.remu 3 1 2) 5 0 5 := by decide +kernel

theorem test_bits :
    gives3 (.and 3 1 2) 12 10 8 ∧ gives3 (.or 3 1 2) 12 10 14 ∧ gives3 (.xor 3 1 2) 12 10 6 ∧
    gives3 (.andi 3 1 0xFFC) 0x17 0 0x14 ∧ gives3 (.ori 3 1 0x801) 0 0 0xFFFFFFFFFFFFF801 ∧
    gives3 (.xori 3 1 0xFFF) 5 0 0xFFFFFFFFFFFFFFFA ∧ gives3 (.shl 3 1 2) 3 65 6 ∧ gives3 (.shr 3 1 2) (-8) 1 0x7FFFFFFFFFFFFFFC ∧
    gives3 (.sra 3 1 2) (-8) 1 (-4) ∧ gives3 (.shli 3 1 63) 1 0 0x8000000000000000 ∧ gives3 (.shri 3 1 63) (-1) 0 1 ∧
    gives3 (.srai 3 1 63) (-2) 0 (-1) := by decide +kernel

theorem test_selections :
    gives3 (.min 3 1 2) (-1) 1 (-1) ∧ gives3 (.max 3 1 2) (-1) 1 1 ∧ gives3 (.minu 3 1 2) (-1) 1 1 ∧
    gives3 (.maxu 3 1 2) (-1) 1 (-1) ∧ gives3 (.clz 3 1) 0 0 64 ∧ gives3 (.clz 3 1) 1 0 63 ∧
    gives3 (.popc 3 1) 0xF0F 0 8 ∧ gives3 (.sel 3 1 2 0) 8 9 8 ∧ gives3 (.sel 3 1 2 4) 8 9 9 ∧
    gives3 (.mov 3 1) 77 0 77 ∧ gives3 (.liShort 3 0x20000) 0 0 0xFFFFFFFFFFFE0000 := by decide +kernel

theorem test_constants :
    after (.liLong 3 0x200000000000) base (fun t => rg 3 t == 0xFFFFE00000000000 && t.cpu.pc == 0x10008) ∧
    after (.lih 3 0x3FFFF) (put base 3 0x400000000001) (fun t => rg 3 t == 0xFFFFC00000000001) ∧
    after (.add 0 1 2) (two 1 2) (fun t => rg 0 t == 0) := by decide +kernel

/-- A compare of 1 and 2 gives a value in predicate 5. -/
def givesP (i : Instr) (x y : Word) (v : Bool) : Bool := after i (two x y) fun t => t.cpu.pred 5 == v

theorem test_compares :
    givesP (.cmpeq 5 1 2) 3 3 true ∧ givesP (.cmpne 5 1 2) 3 3 false ∧ givesP (.cmplt 5 1 2) (-1) 0 true ∧
    givesP (.cmpge 5 1 2) (-1) 0 false ∧ givesP (.cmpltu 5 1 2) (-1) 0 false ∧ givesP (.cmpgeu 5 1 2) (-1) 0 true ∧
    givesP (.cmpeqi 5 1 0xFFF) (-1) 0 true ∧ givesP (.cmpnei 5 1 0xFFF) (-1) 0 false ∧ givesP (.cmplti 5 1 0xFFF) (-2) 0 true ∧
    givesP (.cmpgei 5 1 0xFFF) (-2) 0 false ∧ givesP (.pand 5 0 4) 0 0 false ∧ givesP (.por 5 0 4) 0 0 true ∧
    givesP (.pnot 5 4) 0 0 true := by decide +kernel

/-- The package inside a handler. -/
def inHandler : State := base.updCpu fun c => { c with h := true, epc := 0x20000 }

/-- The package with a full return-address store, the most recent sixteen on the sequencer. -/
def deep : State := base.updCpu fun c => { c with depth := 272, ras := List.replicate 16 0x10000 }

/-- The package with one return address. -/
def called : State := base.updCpu fun c => { c with depth := 1, ras := [0x10044] }

theorem test_branches :
    after (.b 0x7FFFF) base (fun t => t.cpu.pc == 0xFFFC) ∧ after (.bc 4 1 3) base (fun t => t.cpu.pc == 0x1000C) ∧
    after (.bc 4 0 3) base (fun t => t.cpu.pc == 0x10004) ∧ after (.jr 1) (two 0x10040 0) (fun t => t.cpu.pc == 0x10040) ∧
    after (.loop 1 0xFFF) (two 2 0) (fun t => t.cpu.pc == 0xFFFC && rg 1 t == 1) ∧
    after (.loop 1 0xFFF) (two 1 0) (fun t => t.cpu.pc == 0x10004 && rg 1 t == 0) ∧
    after (.loop 0 0xFFF) base (fun t => t.cpu.pc == 0xFFFC) := by decide +kernel

theorem test_calls :
    after (.call 16) base (fun t => t.cpu.pc == 0x10040 && t.cpu.depth == 1 && t.cpu.ras == [0x10004]) ∧
    after .ret called (fun t => t.cpu.pc == 0x10044 && t.cpu.depth == 0) ∧
    after (.call 16) deep (fun t => t.cpu.ecode == 0x08 && t.cpu.epc == 0x10000 && t.cpu.pc == 0x40000) ∧
    after .ret base (fun t => t.cpu.ecode == 0x09 && t.cpu.h) ∧
    after (.jr 1) (two 0x10041 0) (fun t => t.cpu.ecode == 0x05 && t.cpu.faddr == 0x10041) := by decide +kernel

theorem test_traps :
    after (.trap 0x2A) base (fun t => t.cpu.ecode == 0xA800D && t.cpu.epc == 0x10004 && t.cpu.h && t.cpu.pc == 0x40000) ∧
    after (.trap 1) inHandler (fun t => (t.seqs.get 0).run.isNone && (t.seqs.get 0).epc == 0x10004) ∧
    after .eret inHandler (fun t => t.cpu.pc == 0x20000 && !t.cpu.h) ∧
    after .eret base (fun t => t.cpu.ecode == 0x01 && t.cpu.eword == 0xC1000000) := by decide +kernel

theorem test_csrs :
    after (.csrr 3 0x400) base (fun t => rg 3 t == 2) ∧ after (.csrr 3 0x401) base (fun t => rg 3 t == 4) ∧
    after (.csrw 1 0x413) (two 0x20004 0) (fun t => t.cpu.epc == 0x20004) ∧
    after (.csrw 1 0x413) (two 0x20001 0) (fun t => t.cpu.ecode == 0x01) ∧
    after (.radepthWrite 1) called (fun t => t.cpu.depth == 0 && t.cpu.ras == []) ∧
    after (.radepthWrite 1) (put called 1 2) (fun t => t.cpu.ecode == 0x06 && t.cpu.finfo == 0xF5) := by decide +kernel

theorem witness_QuotientsAndRemainders :
    rg 2 (two 7 0) = 0 ∧ ((rg 1 (two 0x8000000000000000 (-1))).toInt = -2 ^ 63 ∧ (rg 2 (two 0x8000000000000000 (-1))).toInt = -1) ∧
    (rg 2 (two 0x8000000000000000 1) ≠ 0 ∧
      ¬((rg 1 (two 0x8000000000000000 1)).toInt = -2 ^ 63 ∧ (rg 2 (two 0x8000000000000000 1)).toInt = -1)) := by decide +kernel

/-- A unit whose frame, at an address, holds its oldest return addresses, with a depth and so many of the most recent. -/
def spilling (frame depth keep : Nat) : State :=
  base.updCpu fun c =>
    { c with run := some { unit0 with frame := BitVec.ofNat 52 frame }, depth := BitVec.ofNat 9 depth
             ras := List.replicate keep 0x10000 }

/-- The translation of the store that a CALL makes there. -/
def spillStore (s : State) (frame depth : Nat) : State × Trans :=
  translate s (.seq s.cur) 1 0 0 (frame + 8 * (depth - 16)) 8 true false false

/-- The load that a RET makes there. -/
def refill (s : State) (u : UnitRec) (depth : Nat) : State × Got :=
  seqLoad (paid s (.seq 0) (u.frame.toNat + 8 * (depth - 1))) u (u.frame.toNat + 8 * (depth - 1)) 8

/-- An aligned and a misaligned return address in the spill area. -/
def spilt (ra : Nat) : State := filled (spilling 0x20000 1 0) (toBytes 8 ra)

theorem witness_ControlFlow :
    (rg 1 (two 0x10040 0)).toNat % 4 = 0 ∧ (rg 1 (two 0x10041 0)).toNat % 4 ≠ 0 ∧
    (base.cpu.run.isSome ∧ base.cpu.depth.toNat < 272 ∧ base.cpu.ras.length < 16) ∧
    (called.cpu.run.isSome ∧ called.cpu.depth.toNat < 272 ∧ called.cpu.ras.length < 16 ∧ called.cpu.ras = 0x10044 :: [] ∧
      called.cpu.depth ≠ 0) ∧
    (deep.cpu.run.isSome ∧ deep.cpu.h = false ∧ bit deep.cpu.tvec 63 = true ∧ 272 ≤ deep.cpu.depth.toNat) ∧
    (base.cpu.run.isSome ∧ base.cpu.h = false ∧ bit base.cpu.tvec 63 = true ∧ base.cpu.depth = 0) := by decide +kernel

theorem witness_ControlFlow_spills :
    ((spilling 0x20000 271 16).cpu.depth.toNat < 272 ∧ 16 ≤ (spilling 0x20000 271 16).cpu.ras.length ∧
      mapped (spillStore (spilling 0x20000 271 16) 0x20000 271)) ∧
    (refused (spillStore (spilling 0xFFFFFFFFFFFFF 17 16) 0xFFFFFFFFFFFFF 17) ∧
      (spilling 0xFFFFFFFFFFFFF 17 16).cpu.h = false ∧ bit (spilling 0xFFFFFFFFFFFFF 17 16).cpu.tvec 63 = true) ∧
    ((spilt 0x10044).cpu.ras = [] ∧ (spilt 0x10044).cpu.depth ≠ 0 ∧
      loaded (spilt 0x10044) (refill (spilt 0x10044) { unit0 with frame := 0x20000 } 1) (fun bs => ofBytes bs % 4 == 0) ∧
      loaded (spilt 0x10046) (refill (spilt 0x10046) { unit0 with frame := 0x20000 } 1) (fun bs => ofBytes bs % 4 != 0)) := by
  decide +kernel

/-- A unit with no handler. -/
def noHandler : State := base.updCpu fun c => { c with tvec := 0 }

theorem witness_ReturnFromHandler :
    inHandler.cpu.h = true ∧ handlerReady base ∧
    (noHandler.cpu.run = some unit0 ∧ noHandler.cpu.h = false ∧ ¬handlerReady noHandler ∧
      leavesAtOnce noHandler unit0 1 0 noHandler.cpu.pc) := by
  unfold handlerReady leavesAtOnce; decide +kernel

theorem witness_CsrReads : base.cpu.run = some unit0 ∧ handlerReady base ∧ State.reset.cpu.run = none := by
  unfold handlerReady; decide +kernel

theorem witness_CsrWrites :
    rg 1 (two 0x000FFFFFFFFFFFFC 0) &&& ~~~0x000FFFFFFFFFFFFC#64 = 0 ∧
    rg 1 (two 0x800FFFFFFFFFFFFC 0) &&& ~~~0x800FFFFFFFFFFFFC#64 = 0 ∧
    ((two 0x20001 0).cpu.h = false ∧ bit (two 0x20001 0).cpu.tvec 63 = true ∧ (two 0x20001 0).cpu.run.isSome ∧
      rg 1 (two 0x20001 0) &&& ~~~0x000FFFFFFFFFFFFC#64 ≠ 0) ∧
    (rg 1 (put called 1 1)).toNat ≤ (put called 1 1).cpu.depth.toNat ∧
    ((put called 1 511).cpu.h = false ∧ bit (put called 1 511).cpu.tvec 63 = true ∧
      (put called 1 511).cpu.depth.toNat < (rg 1 (put called 1 511)).toNat ∧ (rg 1 (put called 1 511)).toNat < 512) ∧
    ((put called 1 512).cpu.h = false ∧ bit (put called 1 512).cpu.tvec 63 = true ∧ 512 ≤ (rg 1 (put called 1 512)).toNat) := by
  decide +kernel

/-- The package whose sequencer waits in an XLINV of page 2. -/
def inXlinv : State := base.updCpu fun c => { c with wait := .xlinv (some 2) [9] }

theorem test_xlinv :
    after (.xlinvWrite 1) (two 0x20000 0) (fun t => t.tlb == [] && t.cpu.pc == 0x10000) ∧
    after (.xlinvWrite 1) (two 0x30000 0) (fun t => t.tlb.length == 1) ∧
    after (.xlinvComplete 0) inXlinv (fun t => t.cpu.pc == 0x10004 && t.cpu.wait == .none) := by decide +kernel

theorem witness_XlinvRemovesTranslations :
    ((two 0x20000 0).cpu.run = some unit0 ∧ (two 0x20000 0).cpu.wait = .none ∧
      (two 0x20000 0).cpu.reg 1 &&& ~~~0x800FFFFFFFFF0000#64 = 0 ∧ (two 0x20000 0).accesses = [] ∧ (two 0x20000 0).pulls = []) ∧
    (rg 1 (two 0x800FFFFFFFFF0000 0) &&& ~~~0x800FFFFFFFFF0000#64 = 0 ∧
      rg 1 (two 0x20001 0) &&& ~~~0x800FFFFFFFFF0000#64 ≠ 0 ∧ handlerReady (two 0x20001 0)) ∧
    ((inXlinv.seqs.get 0).wait = .xlinv (some 2) [9] ∧ (inXlinv.seqs.get 0).run = some unit0 ∧ inXlinv.accesses = [] ∧
      inXlinv.pulls = []) := by
  unfold handlerReady; decide +kernel

/-- The package with tags 2 READY, 4 READY and FAULTed, 6 BUSY. -/
def tagged (m : Word) : State :=
  put (base.updCpu fun c => { c with ctag := 0x14, ctagf := 0x10, ctbusy := 0x40 }) 1 m

theorem test_tags :
    after (.wany 3 1) (tagged 0x54) (fun t => rg 3 t == 0x14) ∧ after (.wany 3 1) (tagged 0x40) (fun t => t.cpu.pc == 0x10000) ∧
    after (.wany 3 1) (tagged 1) (fun t => t.cpu.ecode == 0x07) ∧ after (.wall 3 1) (tagged 0x14) (fun t => rg 3 t == 0x10) ∧
    after (.wall 3 1) (tagged 0x54) (fun t => t.cpu.pc == 0x10000) ∧ after (.wall 3 1) (tagged 0x15) (fun t => t.cpu.ecode == 0x07) ∧
    after (.cffr 3 1) (tagged 0x50) (fun t => rg 3 t == 4) ∧ after (.cffr 3 1) (tagged 0x40) (fun t => rg 3 t == 64) ∧
    after (.ctagclr 1) (tagged 0x50) (fun t => t.cpu.ctag == 4 && t.cpu.ctagf == 0 && t.cpu.ctbusy == 0x40) := by decide +kernel

/-- The package with a load outstanding. -/
def loading : State :=
  { base with
    nextAcc := 1
    accesses := [{ id := 0, q := 0, elem := none, ctx := 1, part := 0, die := 0, kind := .load true, dest := 3, n := 2
                   va := 0x20002, parts := [{ va := 0x20002, pa := arrayPa arr0 + 2, n := 2, leaf := leaf0 }], data := 0, cmp := 0
                   ord := 0, scope := 1, counted := true, unpaid := [], ringed := false, left := [] }] }

theorem test_waitc :
    after (.waitc 1 0 0 0) loading (fun t => t.cpu.pc == 0x10004) ∧
    after (.waitc 0 0 0 0) loading (fun t => t.cpu.pc == 0x10000) := by decide +kernel

/-- A unit with a load outstanding, inside a handler. -/
def busyInHandler : State := { inHandler with accesses := loading.accesses }

theorem witness_Traps :
    handlerReady base ∧
    (inHandler.cpu.run = some unit0 ∧ ¬handlerReady inHandler ∧ leavesAtOnce inHandler unit0 0x0D 262143 (inHandler.cpu.pc + 4)) ∧
    (busyInHandler.cpu.run = some unit0 ∧ ¬handlerReady busyInHandler ∧ unitBusy busyInHandler busyInHandler.cur = true) := by
  unfold handlerReady leavesAtOnce; decide +kernel

/-- An XLINV that waits for a load. -/
def xlinvHeld : State := loading.updCpu fun c => { c with wait := .xlinv none [0] }

theorem witness_XlinvRemovesTranslations_held :
    (xlinvHeld.seqs.get 0).wait = .xlinv none [0] ∧ (xlinvHeld.seqs.get 0).run = some unit0 ∧
    ∃ x ∈ xlinvHeld.accesses, x.id ∈ ([0] : List Nat) := by decide +kernel

theorem witness_Waits :
    (rg 1 (tagged 0) = 0) ∧ ((tagged 0x54).cpu.ctag &&& rg 1 (tagged 0x54) ≠ 0) ∧
    (rg 1 (tagged 0x14) ≠ 0 ∧ (tagged 0x14).cpu.ctag &&& rg 1 (tagged 0x14) = rg 1 (tagged 0x14)) ∧
    ((tagged 0x40).cpu.ctag &&& rg 1 (tagged 0x40) = 0 ∧ (tagged 0x40).cpu.ctbusy &&& rg 1 (tagged 0x40) ≠ 0) ∧
    (rg 1 (tagged 0x54) &&& ~~~((tagged 0x54).cpu.ctag ||| (tagged 0x54).cpu.ctbusy) = 0 ∧
      (tagged 0x54).cpu.ctag &&& rg 1 (tagged 0x54) ≠ rg 1 (tagged 0x54)) ∧
    ((tagged 1).cpu.h = false ∧ bit (tagged 1).cpu.tvec 63 = true ∧ rg 1 (tagged 1) ≠ 0 ∧
      ((tagged 1).cpu.ctag ||| (tagged 1).cpu.ctbusy) &&& rg 1 (tagged 1) = 0) ∧
    ((tagged 0x15).cpu.h = false ∧ rg 1 (tagged 0x15) &&& ~~~((tagged 0x15).cpu.ctag ||| (tagged 0x15).cpu.ctbusy) ≠ 0) ∧
    (loadCount loading loading.cur ≤ 1 ∧ storeCount loading loading.cur ≤ 0 ∧ copyCount loading loading.cur ≤ 0 ∧
      tilesOf loading loading.cur ≤ 0) ∧ 0 < loadCount loading loading.cur := by decide +kernel

/-! ## Memory instructions -/

/-- The base register at an address of the page, and a value in register 2. -/
def at20 (off : Word) : State := two (0x20000 + off) 0x1122334455667788

/-- The translation of eight bytes for the moving sequencer. -/
def tr8 (s : State) (va : Nat) (write atomic sc : Bool) : State × Trans := translate s (.seq s.cur) 1 0 0 va 8 write atomic sc

theorem test_loads :
    after (.ldsShort 3 3 1 0xFFE) (at20 4) (fun t =>
      t.accesses.map (fun a => (a.va, a.n, a.dest)) == [(0x20002, 2, 3)] && t.cpu.pc == 0x10004) ∧
    after (.ldsLong 7 4 1 { ord := 0, scope := 1 } 0xFFFFFFFF) (at20 0x11) (fun t =>
      t.accesses.map (fun a => (a.va, a.n)) == [(0x20010, 16)] && t.cpu.pc == 0x10008) ∧
    after (.stsShort 3 2 1 0) (at20 0) (fun t => t.accesses.map (fun a => (a.kind, a.n)) == [(.store, 8)]) ∧
    after (.stsLong 6 2 1 { ord := 4, scope := 4 } 0) (at20 0) (fun t =>
      t.accesses.map (fun a => a.kind) == [.fence, .store, .fence]) ∧
    after (.ldsLong 6 2 1 { ord := 4, scope := 4 } 1) (at20 0) (fun t => t.cpu.ecode == 5 && t.cpu.faddr == 0x20001) := by
  decide +kernel

theorem test_atomics :
    after (.amoadd 3 1 2 { ord := 3, scope := 3 }) (at20 8) (fun t => t.accesses.map (fun a => (a.kind, a.va)) == [(.amo 0, 0x20008)]) ∧
    after (.amocas 3 1 2 { ord := 0, scope := 1 }) (put (at20 8) 3 9) (fun t => t.accesses.map (fun a => (a.kind, a.cmp)) == [(.amo 7, 9)]) ∧
    after (.amaxrs 3 1 { ord := 0, scope := 3 }) (at20 8) (fun t => t.accesses.map (fun a => a.kind) == [.amaxrs]) ∧
    after (.amoswap 3 1 2 { ord := 0, scope := 1 }) (at20 4) (fun t => t.cpu.ecode == 5) := by decide +kernel

theorem witness_TranslationByEntry :
    ((∀ w ∈ base.walkFaults, w.holder ≠ .seq base.cur) ∧ missOf base (.seq base.cur) = none ∧ 0x2FFFF < 2 ^ 52 ∧ 0 < 1 ∧
      0x2FFFF % 65536 + 1 ≤ 65536) ∧
    (∃ e ∈ entryFor base (.seq base.cur) 1 0x2FFFF, e.leaf.d = true ∧ inArrays e.leaf.frame = true ∧
      reachCheck base e.leaf 0x2FFFF true true true = none) ∧
    (entryFor base (.seq base.cur) 1 0x30000 = none ∧ (base.walks.filter fun r => r.die == 0).length < 256 ∧
      0x30000 % 65536 + 65536 ≤ 65536) ∧ mapped (tr8 base 0x20000 true true true) := by decide +kernel

/-- The package with so many operations of a kind outstanding. -/
def crowd (n : Nat) (k : AccKind) : State :=
  { at20 8 with accesses := (List.range n).map fun i => { id := i, q := 0, elem := none, ctx := 1, part := 0, die := 0, kind := k
                                                          dest := 3, n := 8, va := 0x20008, parts := [], data := 0, cmp := 0
                                                          ord := 0, scope := 1, counted := true, unpaid := [], ringed := false
                                                          left := [] } }

theorem witness_LoadsAndStores :
    ((at20 8).cpu.run = some unit0 ∧ loadCount (crowd 62 .amaxrs) 0 < 63 ∧ storeCount (crowd 62 .store) 0 < 63 ∧
      63 ≤ loadCount (crowd 63 .amaxrs) 0 ∧ 63 ≤ storeCount (crowd 63 .store) 0) ∧
    (mapped (tr8 (at20 8) 0x20008 false false false) ∧ mapped (tr8 (at20 8) 0x20008 true false false) ∧
      mapped (tr8 (at20 8) 0x20008 false false true) ∧ mapped (tr8 (at20 8) 0x20008 true false true)) ∧
    (refused (tr8 (at20 8) (2 ^ 52) false false false) ∧ refused (tr8 (at20 8) (2 ^ 52) true false true) ∧
      handlerReady (at20 8) ∧ (2 ^ 52) % 8 = 0) ∧
    ((at20 8).cpu.reg 1).toNat % 8 = 0 ∧
    (handlerReady (at20 9) ∧ ((at20 9).cpu.reg 1).toNat % 8 ≠ 0 ∧ loadCount (at20 9) 0 < 63 ∧ storeCount (at20 9) 0 < 63) := by
  unfold handlerReady; decide +kernel

theorem witness_AtomicsIssue :
    ((at20 8).cpu.run = some unit0 ∧ loadCount (at20 8) 0 < 63 ∧ ((at20 8).cpu.reg 1).toNat % 8 = 0 ∧
      mapped (tr8 (dropOwnL1 (at20 8) 0x20008) 0x20008 true true false) ∧
      mapped (tr8 (dropOwnL1 (at20 8) 0x20008) 0x20008 true true true)) ∧
    (refused (tr8 (dropOwnL1 (two (2 ^ 52) 0) (2 ^ 52)) (2 ^ 52) true true false) ∧ handlerReady (two (2 ^ 52) 0)) ∧
    (((at20 15).cpu.reg 1).toNat % 8 ≠ 0 ∧ handlerReady (at20 15)) ∧ 63 ≤ loadCount (crowd 63 (.amo 0)) 0 := by
  unfold handlerReady; decide +kernel

/-- An operation of the array's bytes 8 on that is next. -/
def opAt (k : AccKind) (n : Nat) (data : BitVec 256) (cmp : Word) : Access :=
  { id := 0, q := 0, elem := none, ctx := 1, part := 0, die := 0, kind := k, dest := 3, n := n, va := 0x20008
    parts := [{ va := 0x20008, pa := arrayPa arr0 + 8, n := n, leaf := leaf0 }], data := data, cmp := cmp, ord := 0, scope := 1
    counted := true, unpaid := [], ringed := false, left := [{ va := 0x20008, pa := arrayPa arr0 + 8, n := n, leaf := leaf0 }] }

/-- The package with it, and with bytes there. -/
def doing (a : Access) : State :=
  { base with accesses := [a], nextAcc := 1, mem := memPutAll [] (arrayPa arr0 + 8) [0xFE, 0xFF, 0, 0, 0, 0, 0, 0] }

/-- A 64-bit word of the array. -/
def word8 (t : State) : Nat := ofBytes ((List.range 8).map fun k => (memGet t.mem (arrayPa arr0 + 8 + k)).getD 0)

theorem test_performed :
    after (.accessPerformed 0) (doing (opAt (.load true) 2 0 0)) (fun t => rg 3 t == 0xFFFFFFFFFFFFFFFE && t.accesses == []) ∧
    after (.accessPerformed 0) (doing (opAt (.load false) 2 0 0)) (fun t => rg 3 t == 0xFFFE) ∧
    after (.accessPerformed 0) (doing (opAt .store 2 0xABCDEF 0)) (fun t => word8 t == 0xCDEF) ∧
    after (.accessPerformed 0) (doing (opAt (.amo 0) 8 3 0)) (fun t => word8 t == 0x10001 && rg 3 t == 0xFFFE) ∧
    after (.accessPerformed 0) (doing (opAt (.amo 7) 8 3 0xFFFE)) (fun t => word8 t == 3) ∧
    after (.accessPerformed 0) (doing (opAt (.amo 7) 8 3 1)) (fun t => word8 t == 0xFFFE) ∧
    after (.accessPerformed 0) (doing (opAt .amaxrs 8 0 0)) (fun t => word8 t == 0 && rg 3 t == 0xFFFE) := by decide +kernel

/-- What AccessPerformed asks of an operation. -/
def ready (a : Access) : Bool :=
  (doing a).accesses.find? (fun x => x.id == a.id) == some a && !a.ringed && a.elem.isNone && a.ord == 0 &&
  canPerform (doing a) a && a.left == a.parts && (0 < a.n && a.n ≤ 16 && a.va % a.n == 0) &&
  match a.parts with
  | [p] => p.n == a.n && inArrays p.pa && inArrays (p.pa + (a.n - 1))
  | _ => false

/-- A load of sixteen bytes at the last of the page. -/
def load16 : Access :=
  let p : Part := { va := 0x2FFF0, pa := arrayPa arr0 + 0xFFF0, n := 16, leaf := leaf0 }
  { opAt (.load false) 16 0 0 with va := 0x2FFF0, parts := [p], left := [p] }

theorem witness_AccessPerformed :
    ready (opAt (.load true) 1 0 0) ∧ ready load16 ∧ ready (opAt .store 8 5 0) ∧ ready (opAt (.amo 7) 8 5 0xFFFE) ∧
    ready (opAt (.amo 7) 8 5 0) ∧ ready (opAt .amaxrs 8 0 0) ∧ word8 (doing (opAt (.amo 7) 8 5 0xFFFE)) = 0xFFFE := by
  decide +kernel

/-- Key slot 1 LOADED, and eight bytes of HBM4E written under it. -/
def keyed : State := { base with keySlots := [{ slot := 1, kst := .loaded, key := 77 }] }

theorem test_keys :
    readWord (writeWord keyed 0 1 0x40000 0x1234) 1 0x40000 = 0x1234 ∧
    (writeWord keyed 0 1 0x40000 0x1234).llc.map LlcDirty.line = [0x800] := by decide +kernel

theorem witness_WrittenBytesReadBack :
    inArrays (arrayPa arr0) = true ∧
    (lineTag keyed (0x40000 / 128) = none ∧ memGet keyed.mem 0x40000 = none) ∧
    (∃ t ∈ lineTag (writeWord keyed 0 1 0x40000 0x1234) (0x40008 / 128), t.key = 77) := by decide +kernel

/-- A range of the page. -/
def range0 : State := two 0x20000 256

/-- A conversion of the array to RUN that has started. -/
def converting (frm : ArrayMode) : State :=
  { base with
    mem := memPutAll [] (arrayPa arr0) [1, 2, 3]
    arrays := [{ ref := arr0, owner := 0, mode := .run, busy := true, fromMode := frm, sched := 0 }]
    accesses := [{ opAt .aconv 0 0 0 with dest := 4 }]
    conversions := [{ ref := arr0, mode := .run, acc := 0, started := true }] }

theorem test_cache_operations :
    after (.fence { ord := 3, scope := 2 }) base (fun t => t.accesses.map (fun a => (a.kind, a.ord, a.scope)) == [(.fence, 3, 2)]) ∧
    after (.cclean 1 2) range0 (fun t => t.accesses.map (fun a => (a.kind, a.parts.map Part.n)) == [(.cclean, [256])]) ∧
    after (.cinval 1 2) range0 (fun t => t.accesses.map (fun a => a.kind) == [.cinval]) ∧
    after (.cflush 1 2) range0 (fun t => t.accesses.map (fun a => a.kind) == [.cflush]) ∧
    after (.cpref 1 2) range0 (fun t => t.accesses.map (fun a => a.kind) == [.cpref]) ∧
    after (.aquery 3 1) range0 (fun t => t.accesses.map (fun a => (a.kind, a.dest)) == [(.aquery, 3)]) ∧
    after (.aconv 1 4) range0 (fun t => t.conversions.map (fun c => (c.ref, c.mode)) == [(arr0, .run)]) := by decide +kernel

theorem test_conversions :
    after (.aconvComplete arr0) (converting .load) (fun t => !(arrayOf t arr0).busy && t.mem.length == 3) ∧
    after (.aconvComplete arr0) (converting .scratch) (fun t => !(arrayOf t arr0).busy && t.mem.length == 0) := by decide +kernel

/-- The pieces of a range that starts afresh. -/
def rangeOf (s : State) (soft : Bool) (va len : Nat) : State × Trans :=
  let r := rangeWalk unit0 soft (va + len) (len / 65536 + 2) s [] va
  (r.1, r.2.1)

/-- The page of an address, translated for ACONV and AQUERY, its sequencer as it was. -/
def pageOf (s : State) (va : Nat) (p : Part → Bool) : Bool :=
  match (translateByte s unit0 va).2 with
  | .ok [x] => p x
  | _ => false

/-- The package with the page's leaf changed. -/
def leafed (f : Leaf → Leaf) : State := { range0 with tlb := [{ holder := .seq 0, ctx := 1, va := 0x20000, leaf := f leaf0, used := 0 }] }

/-- A leaf of the partition's first overflow array, and one of HBM4E. -/
def overflowed : State := leafed fun l => { l with frame := arrayPa { die := 0, slice := 0, index := 0 } }
def inHbm : State := { leafed (fun l => { l with frame := 0x40000, key := 1 }) with keySlots := keyed.keySlots }

theorem witness_CacheOperations :
    (range0.cpu.run = some unit0 ∧ range0.cpu.wait = .none ∧ rg 2 (two 0x20000 0) = 0 ∧ 0 < (rg 2 range0).toNat ∧
      storeCount (crowd 62 .cflush) 0 < 63 ∧ loadCount (crowd 62 .cpref) 0 < 63) ∧
    (mapped (rangeOf range0 false 0x20000 65536) ∧ mapped (rangeOf range0 true 0x20000 65536)) ∧
    (63 ≤ storeCount (crowd 63 .cflush) 0 ∧ 63 ≤ loadCount (crowd 63 .cpref) 0 ∧ 0 < (rg 2 (crowd 63 .cpref)).toNat) ∧
    pageOf range0 0x20000 (fun p => region p.pa == .array arr0 && p.leaf.w && !isOverflowArray range0 0 arr0) ∧
    (let s := leafed fun l => { l with w := false }
     pageOf s 0x20000 (fun p => !p.leaf.w && region p.pa == .array arr0) ∧ handlerReady s) ∧
    (pageOf overflowed 0x20000 (fun p => region p.pa == .array { die := 0, slice := 0, index := 0 } && p.leaf.w) ∧
      isOverflowArray overflowed 0 { die := 0, slice := 0, index := 0 } = true) ∧
    (pageOf inHbm 0x20000 (fun p => !inArrays p.pa) ∧ handlerReady inHbm) := by
  unfold handlerReady; decide +kernel

theorem witness_CacheOperations_conversions :
    let c : Conversion := { ref := arr0, mode := .run, acc := 0, started := true }
    (converting .load).conversions.find? (fun x => x.ref == c.ref) = some c ∧ c.started = true ∧
    (arrayOf (converting .load) arr0).mode = c.mode ∧ (arrayOf (converting .load) arr0).fromMode = .load ∧
    (arrayOf (converting .scratch) arr0).mode = c.mode ∧ (arrayOf (converting .scratch) arr0).fromMode = .scratch := by
  decide +kernel

/-! ## Operations performed at lines -/

/-- A store of two bytes at an odd address, none of them stored yet. -/
def oddStore : Access :=
  let p : Part := { va := 0x20009, pa := arrayPa arr0 + 9, n := 2, leaf := leaf0 }
  let byte : Nat → Part := fun k => { p with va := p.va + k, pa := p.pa + k, n := 1 }
  { opAt .store 2 0xABCD 0 with va := 0x20009, parts := [p], left := [byte 0, byte 1] }

/-- The dirty line of context 1 at 0x50000 in way 512 of the L2 of die 0. -/
def dirtyLine : L2Line :=
  { die := 0, line := 0xA00, way := 512, ctx := 1, part := 0, key := 1, ord := 1, dirty := true, live := true, pins := [], used := 0
    data := List.replicate 128 7 }

/-- A leaf of the frame 0x50000, its lines in the L2 or not. -/
def leafH (la : Bool) : Leaf := { leaf0 with frame := 0x50000, la := la, key := 1 }

/-- An operation on n bytes at its start. -/
def opL2 (k : AccKind) (n : Nat) (la : Bool) (ord scope : BitVec 3) : Access :=
  let p : Part := { va := 0x50000, pa := 0x50000, n := n, leaf := leafH la }
  { opAt k n 5 5 with va := 0x50000, parts := [p], left := [p], ord := ord, scope := scope }

/-- The package with way 512 in CACHE, with L2 lines and an operation outstanding. -/
def lined (l2 : List L2Line) (a : Access) : State :=
  { keyed with
    l2 := l2
    arrays := base.arrays ++ [{ ref := { die := 0, slice := 0, index := 512 }, owner := 0, mode := .cache, busy := false, fromMode := .off, sched := 0 }]
    accesses := [a]
    nextAcc := 1
    tick := 9 }

/-- What AccessPerformed asks of an operation within a line. -/
def lineReady (s : State) (a : Access) : Bool :=
  s.accesses.find? (fun x => x.id == a.id) == some a && !a.ringed && a.elem.isNone && canPerform s a && a.left == a.parts &&
  (0 < a.n && a.n ≤ 16 && a.va % a.n == 0) &&
  match a.parts with
  | [p] => p.n == a.n && p.pa % 128 + a.n ≤ 128
  | _ => false

theorem witness_AccessPerformed_misaligned :
    let s := doing oddStore
    s.accesses.find? (fun x => x.id == 0) = some oddStore ∧ canPerform s oddStore = true ∧ 2 ≤ oddStore.left.length ∧ oddStore.left.Nodup ∧
    ∀ p ∈ oddStore.left, inArrays p.pa = true ∧ p.n = 1 := by decide +kernel

theorem witness_AccessPerformed_line :
    lineReady (lined [dirtyLine] (opL2 (.load true) 8 true 0 1)) (opL2 (.load true) 8 true 0 1) ∧
    lineReady (lined [] (opL2 (.load false) 16 true 1 4)) (opL2 (.load false) 16 true 1 4) ∧
    lineReady (lined [dirtyLine] (opL2 .store 8 true 2 4)) (opL2 .store 8 true 2 4) ∧
    lineReady (lined [dirtyLine] (opL2 (.amo 7) 8 true 0 1)) (opL2 (.amo 7) 8 true 0 1) ∧
    lineReady (lined [dirtyLine] (opL2 .amaxrs 8 true 4 1)) (opL2 .amaxrs 8 true 4 1) ∧
    lineReady (lined [] (opL2 (.amo 0) 8 false 3 3)) (opL2 (.amo 0) 8 false 3 3) := by decide +kernel

theorem witness_AccessPerformed_atomic :
    (let a := opL2 (.amo 7) 8 true 0 1
     let r := l2Get (lined [dirtyLine] a) 0 0 1 (leafH true) 0x50000
     allocatable (leafH true) 0x50000 = true ∧ allocatable (leafH false) 0x50000 = false ∧
     r.2.any (fun l => l.die == 0 && l.part == 0 && l.line == 0xA00 && l.live && !leavingCache r.1 l.array &&
       l2Find r.1 0 0 0xA00 == some l && ofBytes (sliceOf l.data 0 8) != 5)) ∧
    l2Find (lined [] (opL2 .amaxrs 8 true 4 1)) 0 0 0xA00 = none := by decide +kernel

/-- The package with a conversion of way 512 out of CACHE that waits. -/
def lineLeaving : State :=
  { lined [dirtyLine] (opL2 .store 8 true 0 1) with
    conversions := [{ ref := { die := 0, slice := 0, index := 512 }, mode := .run, acc := 5, started := false }] }

/-- The line that a way holds at the index of 0x50000. -/
def otherLine (pins : List (NodeRef × Nat)) : L2Line := { dirtyLine with line := 0x800A00, pins := pins }

theorem witness_AccessPerformed_ways :
    let a := opL2 .store 8 true 0 1
    (l2Find (lined [dirtyLine] a) 0 0 0xA00 = some dirtyLine ∧ leavingCache (lined [dirtyLine] a) dirtyLine.array = false ∧
      leavingCache lineLeaving dirtyLine.array = true) ∧
    (l2Find (lined [] a) 0 0 0xA00 = none ∧ l2Ways (lined [] a) 0 0 0x50000 = [512] ∧ l2Occupant (lined [] a) 0 0x50000 512 = none) ∧
    (l2Find (lined [otherLine []] a) 0 0 0xA00 = none ∧ l2Occupant (lined [otherLine []] a) 0 0x50000 512 = some (otherLine [])) ∧
    (l2Occupant (lined [otherLine [({ die := 0, id := 6144 }, 1)]] a) 0 0x50000 512).any (fun l => l.pins != []) := by decide +kernel

/-- A cache operation on the whole line at 0x50000, and on part of the line and part of the next. -/
def cacheAt (k : AccKind) : Access := opL2 k 128 true 0 1
def cacheTwo (k : AccKind) : Access :=
  let p : Part := { va := 0x50040, pa := 0x50040, n := 128, leaf := leafH true }
  { cacheAt k with va := 0x50040, parts := [p], left := piecesOf k 128 0x50040 [p] }

/-- What CacheOperations asks of an operation that is performed. -/
def cacheReady (s : State) (a : Access) : Bool :=
  s.accesses.find? (fun x => x.id == a.id) == some a && (s.accesses.all fun x => x.id != a.id || x == a) && !a.ringed && a.elem.isNone &&
  canPerform s a

/-- A cache operation with one part within a line, its only piece. -/
def oneLine (a : Access) : Bool :=
  a.ord == 0 && a.left == a.parts && match a.parts with
  | [p] => isDram p.pa && 0 < p.n && p.pa % 128 + p.n ≤ 128
  | _ => false

theorem test_lines :
    after (.accessPerformed 0) (lined [dirtyLine] (cacheAt .cclean)) (fun t =>
      t.l2 == [{ dirtyLine with dirty := false }] && readSlot t 1 0x50000 1 == [7] && t.accesses == []) ∧
    after (.accessPerformed 0) (lined [dirtyLine] (cacheAt .cinval)) (fun t => t.l2 == [] && t.mem == keyed.mem) ∧
    after (.accessPerformed 0) (lined [dirtyLine] (cacheAt .cflush)) (fun t => t.l2 == [] && readSlot t 1 0x50000 1 == [7]) ∧
    after (.accessPerformed 0) (lined [] (cacheAt .cpref)) (fun t => t.l2.map L2Line.line == [0xA00]) := by decide +kernel

theorem witness_CacheOperations_performed :
    (cacheReady (lined [dirtyLine] (cacheAt .cclean)) (cacheAt .cclean) ∧ oneLine (cacheAt .cclean)) ∧
    (cacheReady (lined [dirtyLine] (cacheAt .cinval)) (cacheAt .cinval) ∧ oneLine (cacheAt .cinval)) ∧
    (cacheReady (lined [] (cacheAt .cflush)) (cacheAt .cflush) ∧ oneLine (cacheAt .cflush)) ∧
    (cacheReady (lined [] (cacheAt .cpref)) (cacheAt .cpref) ∧ oneLine (cacheAt .cpref)) ∧
    (l2Find (lined [dirtyLine] (cacheAt .cclean)) 0 0 0xA00 = some dirtyLine ∧ dirtyLine.ctx = (cacheAt .cclean).ctx ∧ [dirtyLine].Nodup) ∧
    (l2Find (lined [] (cacheAt .cpref)) 0 0 0xA00 = none ∧ allocatable (leafH true) 0x50000 = true) := by decide +kernel

theorem witness_CacheOperations_pieces :
    let a := cacheTwo .cflush
    let last := { a with left := a.left.drop 1 }
    (cacheReady (lined [dirtyLine] a) a ∧ 2 ≤ a.left.length) ∧
    (cacheReady (lined [dirtyLine] last) last ∧ last.left.length = 1 ∧ last.left ≠ piecesOf last.kind last.n last.va last.parts) := by
  decide +kernel

/-- An AQUERY of the array, and a FENCE of an order and scope. -/
def queryAt : Access := { opAt .aquery 0 0 0 with n := 0 }
def fenceAt (ord scope : BitVec 3) : Access := { opAt .fence 0 0 0 with parts := [], left := [], ord := ord, scope := scope }

theorem test_query_and_fences :
    after (.accessPerformed 0) (doing queryAt) (fun t => rg 3 t == arrayWord base arr0 && t.accesses == []) ∧
    after (.accessPerformed 0) (lined [dirtyLine] (fenceAt 2 3)) (fun t => t.l2 == [{ dirtyLine with dirty := false }]) ∧
    after (.accessPerformed 0) (lined [{ dirtyLine with dirty := false }] (fenceAt 1 3)) (fun t => t.l2 == []) := by decide +kernel

theorem witness_CacheOperations_others :
    (cacheReady (doing queryAt) queryAt ∧ queryAt.left = queryAt.parts ∧ (queryAt.parts.map fun p => region p.pa) = [.array arr0]) ∧
    cacheReady (lined [dirtyLine] (fenceAt 4 1)) (fenceAt 4 1) := by decide +kernel

/-! ## Copies and tensors -/

/-- Destination, source, length and a fourth operand for a copy. -/
def copying (dst src len aux : Word) : State := put (put (put (put base 4 dst) 5 src) 6 len) 7 aux

/-- The package with the tag BUSY and its copy in flight, at its end but for nothing. -/
def copyDone : State :=
  { (base.updCpu fun c => { c with ctbusy := 4 }) with
    jobs := [{ q := 0, tag := 2, ctx := 1, part := 0, die := 0, handle := 1, launch := 7, kind := .copy, dst := 0x30000
               src := 0x20000, len := 1, aux := 0, tensor := 0, pos := 1, acc := 0, spilled := false, group := [] }] }

/-- A descriptor of a dot job in the array. -/
def dotting : State :=
  { paid (copying 0x30000 0x20000 0x30100 0) (.seq 0) 0x20000 with
    mem := memPutAll [] (arrayPa arr0) (toBytes 32 (0x100000 + 4 * 2 ^ 64 + 64 * 2 ^ 96 + 128 * 2 ^ 128)) }

/-- The payloads of a COPYX that scales FP16, of a COPYG of 32-byte rows and of a BDOT, with tag 2. -/
def plX : BitVec 32 := 0x00000802#32
def plG : BitVec 32 := 0x00000142#32
def plD : BitVec 32 := 0x00000002#32

theorem test_copies :
    after (.copy 4 5 6 2) (copying 0x30000 0x20000 64 0) (fun t => t.jobs.map (fun j => (j.tag, j.dst, j.src, j.len)) ==
      [(2, 0x30000, 0x20000, 64)] && t.cpu.ctbusy == 4 && t.cpu.pc == 0x10008) ∧
    after (.copy 4 5 6 2) (copying 0x30000 0x20000 0 0) (fun t => t.jobs == [] && t.cpu.ctag == 4 && t.cpu.ctagf == 0) ∧
    after (.copy 4 5 6 2) (copying 0x20020 0x20000 64 0) (fun t => t.cpu.ctagf == 4 && t.cpu.cfinfo == 0x226) ∧
    after (.copyg 4 5 6 7 plG) (copying 0x30000 0x20000 0x20400 2) (fun t => t.jobs.length == 1) ∧
    after (.copyg 4 5 6 7 plG) (copying 0x30001 0x20000 0x20400 2) (fun t => t.cpu.cfinfo == 0x221) ∧
    after (.copyx 4 5 6 7 plX) (copying 0x30000 0x20000 64 0) (fun t => t.jobs.length == 1) ∧
    after (.copyx 4 5 6 7 plX) (copying 0x30001 0x20000 64 0) (fun t => t.cpu.cfinfo == 0x221) ∧
    after (.bdot 4 5 6 plD) dotting (fun t => t.jobs.length == 1) ∧
    after (.copyComplete 0 2) copyDone (fun t => t.jobs == [] && (t.seqs.get 0).ctag == 4 && (t.seqs.get 0).ctbusy == 0) := by
  decide +kernel

/-- Whether the engines take a copy with a tag. -/
def freeTag (s : State) (tag : Nat) : Bool := !enginesHeld s s.cur && !bit s.cpu.ctbusy tag && decide (copyCount s s.cur < 63)

/-- The package behind a FENCE.rel of DIE scope, and with so many copies in flight. -/
def fenced : State := { crowd 1 .fence with accesses := (crowd 1 .fence).accesses.map fun a => { a with ord := 2, scope := 2 } }
def copies (n : Nat) : State := { copying 0x30000 0x20000 64 0 with jobs := (copyDone.jobs.flatMap fun j => List.replicate n j) }

/-- The register of the length of a copy. -/
def lenOf (n : Nat) : Nat := (rg 6 (copying 0x30000 0x20000 (BitVec.ofNat 64 n) 0)).toNat

theorem witness_Copies_issue :
    (base.cpu.run = some unit0 ∧ freeTag (copying 0x30000 0x20000 64 0) 2 = true ∧ freeTag fenced 2 = false ∧
      freeTag copyDone 2 = false ∧ freeTag (copies 62) 63 = true ∧ freeTag (copies 63) 63 = false) ∧
    (lenOf 0 = 0 ∧ lenOf (2 ^ 32) ≤ 2 ^ 32 ∧ 2 ^ 32 < lenOf (2 ^ 32 + 1) ∧ ¬(0x20040 < 0x20000 + 64 ∧ 0x20000 < 0x20040 + 64) ∧
      (0x2003F < 0x20000 + 64 ∧ 0x20000 < 0x2003F + 64)) ∧
    (xCauses plX 0 0x30000 0x20000 64 0 = [] ∧ xCauses plX 0 0x30000 0x20000 0 0 = [] ∧
      0x21 ∈ xCauses plX 0 0x30001 0x20000 64 0 ∧ ∀ y ∈ xCauses plX 0 0x30001 0x20000 64 0, 0x21 ≤ y) ∧
    (let z := 2 ^ (plG.extractLsb' 6 5).toNat
     z = 32 ∧ 0x20000 % z = 0 ∧ 0x30000 % z = 0 ∧ 0x40000 % 4 = 0 ∧ 0x30001 % z ≠ 0 ∧
     ¬(0x30000 < 0x40000 + 4 * 2 ^ 10 ∧ 0x40000 < 0x30000 + 2 ^ 10 * z) ∧ (0x30000 < 0x30020 + 4 ∧ 0x30020 < 0x30000 + 2 * z)) := by
  decide +kernel

/-- The load of a descriptor for BDOT, at the start of the page. -/
def descLoads (s : State) (bad : Bool) : Bool :=
  loaded s (seqLoad (paid s (.seq 0) 0x20000) unit0 0x20000 32) fun bs => dBad plD (BitVec.ofNat 256 (ofBytes bs)) 0x30000 0x30100 == bad

theorem witness_Copies_dot :
    descLoads dotting false ∧ descLoads (copying 0x30000 0x20000 0x30100 0) true ∧ 0x20000 % 32 = 0 ∧ 0x2001F % 32 ≠ 0 ∧
    loadFaults dotting (seqLoad dotting unit0 (2 ^ 52) 32) ∧ (2 ^ 52) % 32 = 0 := by decide +kernel

/-- A copy of the last 64 bytes of a line of HBM4E to the first of another, its engine's pages at hand. -/
def lineCopy : State :=
  let j : Job := { q := 0, tag := 2, ctx := 1, part := 0, die := 0, handle := 1, launch := 7, kind := .copy, dst := 0x60000
                   src := 0x50040, len := 64, aux := 0, tensor := 0, pos := 0, acc := 0, spilled := false, group := [] }
  let e := fun (side va : Nat) =>
    { holder := .engine 0 2 side, ctx := 1, va := va, leaf := { leaf0 with frame := va, key := 1 }, used := 0 : TlbEntry }
  { copyDone with jobs := [j], keySlots := [{ slot := 1, kst := .loaded, key := 77 }], tlb := [e 0 0x50000, e 2 0x60000] }

theorem witness_Copies_finish :
    (∃ j ∈ jobOf copyDone 0 2, jobOf (runJob (jobFuel j) copyDone 0 2) 0 2 = none) ∧
    (∃ j ∈ jobOf lineCopy 0 2, 0 < j.len.toNat ∧
      [(0, j.src.toNat), (2, j.dst.toNat)].all fun x =>
        let side := Holder.engine 0 2 x.1
        missOf lineCopy side == none && lineCopy.walkFaults == [] && x.2 % 128 + 64 ≤ 128 && keyState lineCopy 1 == .loaded &&
        (keyMat lineCopy 1).isSome && (lineCopy.tlb.find? fun e => e.covers side 1 x.2).any fun e =>
          e.leaf.key == 1 && e.leaf.d && e.leaf.lg == 16 && e.leaf.frame % 65536 == 0 && isDram (e.leaf.pa x.2)) := by
  decide +kernel

theorem test_line_copy :
    after (.copyComplete 0 2) (writeSlot lineCopy 0 1 0x50040 (toBytes 64 0x1234)) (fun t =>
      readSlot t 1 0x60000 64 == toBytes 64 0x1234 && t.jobs == []) := by decide +kernel

/-- A job of a kind with what its engine has read of it. -/
def engineJob (k : JobKind) (len : Nat) (ten : Tensor) (got : List (Nat × List Byte)) : Job :=
  { q := 0, tag := 2, ctx := 1, part := 0, die := 0, handle := 1, launch := 7, kind := k, dst := 0x30000, src := 0x20000
    len := BitVec.ofNat 64 len, aux := 0x40000000, tensor := ten, pos := 0, acc := 0, spilled := false, group := [], stage := 1, got := got }

/-- A T8 entry at the destination with a bound store, and a cast of two FP16 values into it; and a dot job of one group of 32. -/
def castJob : Job :=
  engineJob (.copyx 0x00000882) 4 (BitVec.ofNat 512 ((12 + 2 ^ 24 + 2 ^ 26) * 2 ^ 64 + 0x30000 + 0x50000 * 2 ^ 384)) [(0, toBytes 4 0x3C003C00)]
def groupDesc : BitVec 256 := BitVec.ofNat 256 (0x100000 + 4 * 2 ^ 64 + 32 * 2 ^ 96)
def groupJob : Job :=
  engineJob (.bdot plD groupDesc) 0x30100 0 [(0, List.replicate 32 1), (1, List.replicate 32 1), (2, toBytes 2 0x3F80)]

/-- An engine's access of the line copy has its page. -/
def enginePart (side va : Nat) (write : Bool) : Bool :=
  lineCopy.jobs.all fun j =>
    match engTranslate lineCopy j side va 64 write with
    | (_, .ok [p]) => p.n == 64
    | _ => false

theorem witness_Copies_engines :
    (castJob.kind = .copyx 0x00000882 ∧ ((0x00000882 : BitVec 32).extractLsb' 6 2).toNat = 2 ∧ tBsto castJob.tensor = true ∧ castJob.group = [] ∧
      castJob.pos = 0 ∧ (xBatch castJob 0x00000882).2.2 = 2 ∧ castJob.len.toNat / 2 = 2) ∧
    ((groupJob.bytesOf 0).length = 32 ∧ plD.getLsbD 6 = false ∧ 32 * 2 ^ (plD.extractLsb' 7 2).toNat = 32) ∧
    (∀ j ∈ lineCopy.jobs, j.checks = [] ∧ j.faults = [] ∧ j.writes = [] ∧ j.reads = []) ∧ lineCopy.jobs ≠ [] ∧
    enginePart 0 0x50040 false ∧ enginePart 2 0x60000 true ∧ groupJob.stage ≠ 0 ∧ groupJob.pos < groupJob.aux.toNat := by decide +kernel

/-- COPYX.scale of FP16 1.0 by 2.0 is 2.0; a group of 32 products of ones with the scale 1.0 is 32.0 (R150, R159). -/
theorem test_engines :
    (makeCopyx (engineJob (.copyx plX) 2 0 [(0, toBytes 2 0x3C00)]) plX).writes.map JobWrite.bytes = [toBytes 2 0x4000] ∧
    (makeBdot groupJob plD groupDesc).acc = 0x42000000 := by decide +kernel

/-- A good image of an entry, FP32 of rank 1 with SCALE 1.0. -/
def ten0 : BitVec 512 := (0x3F8000000100011A#64).setWidth 512 <<< 64

/-- Entry 5 defined, and an image of another in the array. -/
def tensored (img : Nat) (y : Word) : State :=
  { paid (put (two 5 y) 3 0) (.seq 0) 0x20000 with
    tensors := [((1, 5), ten0)]
    mem := memPutAll [] (arrayPa arr0) (toBytes 64 img) }

theorem test_tensors :
    after (.tdef 3 1 2) (tensored (0x0100001A * 2 ^ 64) 0x20000) (fun t =>
      rg 3 t == 0 && tensorOf t 1 5 == BitVec.ofNat 512 (0x0100001A * 2 ^ 64)) ∧
    after (.tdef 3 1 2) (tensored 0 0x20000) (fun t => rg 3 t == 0 && tensorOf t 1 5 == 0) ∧
    after (.tdef 3 1 2) (tensored (0x0100005A * 2 ^ 64) 0x20000) (fun t => rg 3 t == 2 && tensorOf t 1 5 == ten0) ∧
    after (.tscale 3 1 2) (tensored 0 0x40000000) (fun t => rg 3 t == 0 && (tensorOf t 1 5).extractLsb' 96 32 == 0x40000000) ∧
    after (.tscale 3 1 2) (tensored 0 0x7F800000) (fun t => rg 3 t == 7) ∧
    after (.tread 3 1 2) (tensored 0 1) (fun t => rg 3 t == 0x3F8000000100011A) ∧
    after (.tread 3 1 2) (two 1024 0) (fun t => t.cpu.ecode == 6) := by decide +kernel

/-- The load of an image from the array. -/
def imageLoads (img : Nat) : Bool :=
  loaded (tensored img 0x20000) (seqLoad (tensored img 0x20000) unit0 0x20000 64) fun bs => ofBytes bs == img

theorem witness_TensorTable :
    ((tensored 0 7).cpu.run = some unit0 ∧ (rg 1 (two 1023 0)).toNat ≤ 1023 ∧ (0 < 0x7F7FFFFF ∧ 0x7F7FFFFF < 0x7F800000) ∧
      ¬(0 < 0x7F800000 ∧ 0x7F800000 < 0x7F800000) ∧ tValid (tensorOf (tensored 0 0) 1 6) = false ∧
      tValid (tensorOf (tensored 0 0) 1 5) = true ∧ (rg 2 (tensored 0 0x20000)).toNat % 64 = 0) ∧
    (imageLoads 0 ∧ tValid 0 = false) ∧
    (let x := 0x0100001A * 2 ^ 64
     imageLoads x ∧ tValid (BitVec.ofNat 512 x) = true ∧ tStatus (BitVec.ofNat 512 x) = 0) ∧
    (let x := 0x0100005A * 2 ^ 64
     imageLoads x ∧ tValid (BitVec.ofNat 512 x) = true ∧ tStatus (BitVec.ofNat 512 x) ≠ 0) ∧
    (loadWaits (seqLoad (two 5 0x30000) unit0 0x30000 64) ∧ loadFaults (two 5 0) (seqLoad (two 5 0) unit0 (2 ^ 52) 64) ∧
      (2 ^ 52) % 64 = 0 ∧ 0x30000 % 64 = 0) ∧
    (handlerReady (two 5 0x2003F) ∧ 0x2003F % 64 ≠ 0 ∧ 7 < (rg 2 (two 5 8)).toNat) ∧
    (1023 < (rg 1 (two 1024 0)).toNat ∧ handlerReady (two 1024 0)) := by
  unfold handlerReady; decide +kernel
/-! ## Tables in HBM4E -/

/-- 64-bit words put at addresses. -/
def wordsAt (l : List (Nat × Word)) : List Host.Cell := l.foldl (fun m x => memPutAll m x.1 (toBytes 8 x.2.toNat)) []

/-- A LOADED key slot. -/
def slotKey (k : Nat) (v : KeyMat) : KeySlot := { slot := k, kst := .loaded, key := v }

/-- The tables of context 1 under key slot 1: its descriptor at 0x10000, and a walk down to the leaf of page 0x20000
at 0x32010; the descriptor has a pool of frames, CWKEY 2, a cut area at 0, remote pages, and CCTL in a state. -/
def tables (cst : Nat) (leaf : Word) (more : List (Nat × Word)) : State :=
  { base with
    keySlots := [slotKey 1 77, slotKey 2 78, slotKey 3 79]
    lineTags := [0x200, 0x400, 0x600, 0x620, 0x640, 0xC00, 0xC01].map fun l => { line := l, key := 77, epoch := 0 }
    mem := wordsAt ([(0x10000, 0x8000000000020010), (0x10008, 0x2000000000060000), (0x10010, 0x20),
      (0x10020, BitVec.ofNat 64 (2 ^ 63 + cst * 2 ^ 60 + 4)), (0x10028, 0), (0x10030, 0x8000000000000000),
      (0x10038, 0), (0x10040, 0), (0x10048, 0), (0x10050, 0), (0x10058, 0),
      (0x20000, 0x8000000000030000), (0x30000, 0x8000000000031000), (0x31000, 0x8400000000032000), (0x32010, leaf),
      (0x60000, 0), (0x60008, 0)] ++ more) }

/-- A leaf of the frame 0x50000 under key slot 3: V and W, ORD RC. -/
def pte0 : Word := 0xC800000000050030

/-! ## Streams and work -/

/-- The graph of handle 1: a rectangle of four by four tiles. -/
def graph0 : Graph :=
  { gid := 1, ctx := 1, part := 0, handle := 1, die := 0, x := 0, y := 0, w := 4, h := 4, ver := 3, prio := 0
    codeBase := 0x10000, seqSize := 0x1000, islands := [], loops := [], allocs := [], counter := 1, pool := [], phase := 1
    tree := [], recs := [], lost := false, sealing := [], reconf := none, cancelled := false, done := false, retiring := false
    retired := false }

/-- A node with words in its slots. -/
def nodeWith (id : Nat) (ws : List (BitVec 64)) : Node :=
  { ref := { die := 0, id := id }, ctx := 1, handle := 1, ver := 3, slots := ws, holds := List.replicate 8 0, store := []
    arrivals := 0, outs := [], depths := [], gated := [], drops := [], ends := [], links := [], marks := [], reconfs := []
    redepth := [], passed := false, saved := false, sealed := false, tiles := [], dead := [] }

/-- The leaf of the page in the array. -/
def pteA : Word := 0xC800300000040000

/-- The package with the graph, one node of SINK in it, and queue 0 with its ring in the array. -/
def working : State :=
  { tables 1 pteA [] with
    graphs := [graph0]
    nodes := [nodeWith 0 [0x5800000000000000]]
    queues := [{ part := 0, q := 0, qbase := 0x24000, qctl := 0x9000000000000001, head := 0, tail := 0, turn := none }]
    tlb := base.tlb ++ [{ holder := .agn { die := 0, x := 0, y := 0, str := 0 }, ctx := 1, va := 0x20000, leaf := leaf0, used := 0 }] }

/-- Word k of record i of queue 0, its page walked. -/
def ringWord (t : State) (i k : Nat) : Option Word :=
  let x := queueOf t 0 0
  recWord (ringHold t [recUse x i false]).1 x i k

/-- The package with the array about to be converted, so that its page must wait. -/
def waiting (s : State) : State := { s with conversions := [{ ref := arr0, mode := .run, acc := 9, started := false }] }

/-- Its stream at tile 0, of two tokens. -/
def stream0 : Stream :=
  { ref := { die := 0, x := 0, y := 0, str := 0 }, q := 0, ctx := 1, part := 0, handle := 1, sink := false, base := 0x20000
    count := 2, stride := 32, rows := 1, rowStride := 0, eos := true
    dst := { node := { die := 0, id := 0 }, slot := 0, opd := .a }, sent := 0, early := [], buf := [], old := [], ended := false
    err := false, marked := false }

/-- The package with a stream, its sequencer having started it. -/
def streaming (x : Stream) : State :=
  paid (paid { (working.updCpu fun c => { c with run := some { unit0 with started := [x.ref] } }) with streams := [x] }
    (.agn x.ref) 0x20000) (.agn x.ref) 0x20020

/-- The payload of a source at tile 0 to slot 0 of element 0 of tile 0, with EOS; and of a sink there. -/
def plS : BitVec 32 := 0x00048000#32
def plK : BitVec 32 := 0x00080000#32

/-- Base, count and stride for STRM. -/
def strmRegs (s : State) (va n stride : Word) : State := put (put (put s 4 va) 5 n) 6 stride

theorem test_streams :
    after (.strm 4 5 6 plS) (strmRegs working 0x20000 3 32) (fun t =>
      t.streams.map (fun x => (x.sink, x.count, x.eos, x.ended)) == [(false, 3, true, false)] && t.cpu.pc == 0x10008) ∧
    after (.strm 4 5 6 plK) (strmRegs working 0x20000 0 32) (fun t => t.streams.map (fun x => (x.sink, x.ended)) == [(true, true)]) ∧
    after (.strm2 4 5 6 7 plS) (put (put (strmRegs working 0x20000 3 32) 7 64) 8 2) (fun t =>
      t.streams.map (fun x => (x.rows, x.rowStride)) == [(2, 64)]) ∧
    after (.streamReadReturn stream0.ref) (streaming stream0) (fun t =>
      t.streams.map (fun x => (x.sent, x.buf.map Token.kind, x.ended)) == [(1, [.data], false)]) ∧
    after (.streamReadReturn stream0.ref) (streaming { stream0 with sent := 1 }) (fun t =>
      t.streams.map (fun x => (x.sent, x.buf.map Token.kind, x.ended)) == [(2, [.data, .eos], true)]) ∧
    after (.strmend 3 1 1) (streaming { stream0 with sent := 1 }) (fun t => rg 3 t == 1) := by decide +kernel

/-- A source that aims one step off the rectangle, at the island north of tile (0, 0): the target of spec/14 for slot 0,
operand a. -/
theorem test_stream_to_island :
    let on := fun (l : List (Nat × Nat)) => { (strmRegs working 0x20000 3 32) with graphs := [{ graph0 with islands := l }] }
    after (.strm 4 5 6 0x8E00) (on [(0, 0)]) (fun t => t.streams.map (fun x => x.dst.node.id) == [6144]) ∧
    after (.strm 4 5 6 0x8E00) (on [(0, 1)]) (fun t => t.streams.isEmpty && t.cpu.ecode == 0x06) := by decide +kernel

/-- What STRM asks of its operands. -/
def strmOk (s : State) (pl : BitVec 32) : Bool :=
  s.cpu.run == some unit0 && residentGraph s 1 (unit0.handle.setWidth 64) == some graph0 && stX pl < graph0.w && stY pl < graph0.h &&
  (if stSink pl then tapOk s (streamDest graph0 pl) else targetInside graph0 (stX pl) (stY pl) (pl.extractLsb' 0 16)) &&
  (s.cpu.reg 5).toNat < 2 ^ 32

/-- What it asks of its alignment. -/
def strmAligned (s : State) : Bool := (s.cpu.reg 4).toNat % 32 = 0 && (s.cpu.reg 6).toNat % 32 = 0

/-- A stream of the port that still runs. -/
def portBusy : State := { strmRegs working 0x20000 3 32 with streams := [stream0] }

/-- A FENCE.rel of DIE scope outstanding. -/
def fencedWork : State := { strmRegs working 0x20000 3 32 with accesses := fenced.accesses }

theorem witness_Streams_start :
    (let s := strmRegs working 0x20000 0xFFFFFFFF 32
     strmOk s plS ∧ strmAligned s ∧ streamsHeld s s.cur = false ∧ s.streams = []) ∧ strmOk (strmRegs working 0x20000 0 32) plK ∧
    (((put working 8 0xFFFFFFFF).cpu.reg 8).toNat < 2 ^ 32 ∧ ((put working 7 64).cpu.reg 7).toNat % 32 = 0) ∧
    (strmOk (strmRegs working 0x20000 0x100000000 32) plS = false ∧ handlerReady (strmRegs working 0x20000 0x100000000 32)) ∧
    (strmOk (strmRegs working 0x2001F 3 32) plS ∧ strmAligned (strmRegs working 0x2001F 3 32) = false) ∧
    (strmOk portBusy plS ∧ (streamOf portBusy stream0.ref).any fun x => !x.ended) ∧
    (strmOk fencedWork plS ∧ streamsHeld fencedWork fencedWork.cur = true) := by
  unfold handlerReady; decide +kernel

/-- The stream whose read has no translation that permits it: its page is beyond the address space. -/
def badStream : Stream := { stream0 with base := 0x10000000000000 }

/-- A read of a stream's first token ends so, its stream as it was. -/
def reads (s : State) (x : Stream) (p : Trans → Bool) : Bool :=
  let r := readToken s x 0
  p r.2.1 && streamOf r.1 x.ref == some x

theorem witness_Streams_reads :
    (streamOf (streaming stream0) stream0.ref = some stream0 ∧ stream0.sink = false ∧ stream0.ended = false ∧
      stream0.marked = false ∧ stream0.early.find? (fun e => e.1 == stream0.sent) = none ∧
      stream0.buf.countP (fun k => k.kind == .data) < 16 ∧ stream0.sent < stream0.rows * stream0.count) ∧
    reads (streaming stream0) stream0 (fun x => match x with | .ok _ => true | _ => false) ∧
    reads (waiting (streaming stream0)) stream0 (· == .wait) ∧
    reads (streaming badStream) badStream (fun x => match x with | .fault _ => true | _ => false) ∧
    ({ stream0 with early := [(0, 9)] } : Stream).early.find? (fun e => e.1 == stream0.sent) = some (0, 9) ∧
    16 ≤ (List.replicate 16 ({ key := { ctx := 1, iter := 0, path := 0 }, seq := 0, kind := .data, payload := 0 } : Token)).countP
      fun k => k.kind == .data := by decide +kernel

theorem witness_Streams_end :
    (let s := streaming stream0
     s.cpu.run = some { unit0 with started := [stream0.ref] } ∧ residentGraph s 1 1 = some graph0 ∧ (s.cpu.reg 1).toNat < 4096 ∧
     ({ die := 0, x := 0, y := 0, str := 0 } : StreamRef) = stream0.ref ∧ streamOf s stream0.ref = some stream0 ∧
     stream0.ended = false ∧ sinkPending s stream0.ref = false) ∧
    ((put working 1 4095).cpu.run = some unit0 ∧ residentGraph (put working 1 4095) 1 1 = some graph0 ∧
      ((put working 1 4095).cpu.reg 1).toNat < 4096 ∧ unit0.started = []) ∧
    (4096 ≤ ((put working 1 4096).cpu.reg 1).toNat ∧ handlerReady (put working 1 4096)) := by
  unfold handlerReady; decide +kernel

/-- The port's stream belongs to another unit and has ended; and sequencer 0's has been replaced so. -/
def replaced : State :=
  { strmRegs working 0x20000 3 32 with
    streams := [{ stream0 with q := 1, ended := true, buf := [stream0.token 1 .data 9] }]
    seqs := (strmRegs working 0x20000 3 32).seqs.set 1 { Seq.reset with run := some { unit0 with started := [stream0.ref] } } }
def replacedOwn : State :=
  working.updCpu fun c => { c with run := some { unit0 with started := [stream0.ref], ended := [(stream0.ref, 2)] } }

/-- R271, R273: a port taken over keeps the tokens that the earlier source has sent and the result it leaves. -/
theorem test_stream_replaced :
    after (.strm 4 5 6 plS) replaced (fun t => t.streams.map (fun x => (x.q, x.old.map fun k => k.2.payload)) == [(0, [9])] &&
      ((t.seqs.get 1).run.map UnitRec.ended) == some [(stream0.ref, 0)]) ∧
    after (.strmend 3 1 1) replacedOwn (fun t => rg 3 t == 2 && (t.cpu.run.map UnitRec.started) == some []) := by decide +kernel

theorem witness_Streams_replaced :
    (strmOk replaced plS ∧ strmAligned replaced ∧ (streamOf replaced stream0.ref).all (fun t => t.ended && t.q == 1)) ∧
    (replacedOwn.cpu.run = some { unit0 with started := [stream0.ref], ended := [(stream0.ref, 2)] } ∧
      (replacedOwn.cpu.reg 1).toNat < 4096 ∧ residentGraph replacedOwn 1 1 = some graph0) := by decide +kernel

/-- Registers of a SPAWN of graph 1: its entry, frame and join words. -/
def spawning : State := put (put (put (put (put working 1 1) 2 0x40) 4 0x100) 5 3) 3 0

/-- Two units on queue 0 with PRIO 5 and frames 16 bytes apart. -/
def plP : BitVec 32 := 0x00010A40#32

/-- A launch of one unit whose record stands at index 0. -/
def launch0 : Launch :=
  { ctx := 1, id := 7, part := 0, queue := 0, handle := 1, first := 0, units := 1, posted := 1, completed := 0, removed := 0
    cancelled := false, dead := false, gen := 1 }

/-- A queued record of it with a JOIN counter. -/
def queued (n : Nat) : State :=
  { put (put working 1 7) 2 0 with
    launches := [launch0]
    queues := [{ part := 0, q := 0, qbase := 0x24000, qctl := 0x9000000000000001, head := 0, tail := 1, turn := none }]
    mem := memPutAll working.mem (arrayPa arr0 + 0x4080)
      ((recordWords 1 5 0 0 n 0x40 0 0 7 1 1).flatMap fun w => toBytes 8 w.toNat) }

theorem test_spawn :
    after (.spawn 3 1 2 4 plP) spawning (fun t =>
      rg 3 t == 1 && (queueOf t 0 0).tail == 2 && t.launches.map (fun l => (l.units, l.posted, l.handle)) == [(2, 2, 1)] &&
      t.cpu.pc == 0x10008 && ringWord t 1 2 == some 0x0001000100000001 && ringWord t 1 0 == some 0x0150000000000110) := by decide +kernel

theorem test_join :
    after (.join 3 1 2) (queued 2) (fun t => rg 3 t == 2 && ringWord t 0 1 == some 0x0000000100000040) ∧
    after (.join 3 1 2) (queued 0) (fun t => rg 3 t == 0) ∧
    after (.join 3 1 2) (put (queued 2) 1 8) (fun t => rg 3 t == 0) := by decide +kernel

/-- What SPAWN asks of its operands, and what it waits for at issue. -/
def spawnFits (s : State) : Bool :=
  (s.cpu.reg 2).toNat % 4 = 0 && (s.cpu.reg 2).toNat < graph0.seqSize && (s.cpu.reg 4).toNat % 2 ^ (plP.extractLsb' 4 5).toNat = 0 &&
  (s.cpu.reg 5).toNat ≤ 65535 && queueTakes (queueOf s 0 0) 1
def spawnFree (s : State) : Bool :=
  ownAccesses s s.cur == [] && (queueOf s 0 0).turn == none && (s.launches.filter fun l => l.part == 0 && !l.done).length < 1024

/-- How many of its two units are posted, and whether its TAIL can then be written. -/
def spawnPosts (s : State) : Nat × Bool :=
  let r := postUnits unit0 1 4 (s.cpu.reg 2).toNat plP (jobRecOf s 1).nextLaunch
    (currentPhase (retireHead (spawnOpen s unit0 graph0 plP) 0 0) 1 0) 2 (retireHead (spawnOpen s unit0 graph0 plP) 0 0) 0
  (r.2, (ringHold r.1 [tailUse (queueOf r.1 0 0) true]).2)

/-- A ring with one place left. -/
def nearFull : State := { spawning with queues := [{ queueOf working 0 0 with head := 0, tail := 15 }] }

theorem witness_LaunchesAndJoins_spawn :
    (spawning.cpu.run = some unit0 ∧ spawning.cpu.wait = .none ∧ residentGraph spawning 1 (spawning.cpu.reg 1) = some graph0 ∧
      spawnFits spawning ∧ spawnFree spawning ∧ spawnPosts spawning = (2, true) ∧ spawnPosts nearFull = (1, true) ∧
      spawnPosts (waiting spawning) = (0, false) ∧ spawning.launches = []) ∧
    (spawnFits (put spawning 2 0x1000) = false ∧ handlerReady (put spawning 2 0x1000)) ∧
    (spawnFits { spawning with accesses := loading.accesses } ∧ spawnFree { spawning with accesses := loading.accesses } = false) ∧
    (residentGraph (put spawning 1 2) 1 2 = none ∧ handlerReady (put spawning 1 2)) := by
  unfold handlerReady; decide +kernel

/-- The launch that JOIN names, and what the JOIN of its first unit finds. -/
def joins (s : State) (ok found : Bool) : Bool :=
  s.launches.find? (fun l => l.ctx == 1 && l.id.toNat == (s.cpu.reg 1).toNat) == some launch0 &&
  (joinTarget (releasePkg s unit0) launch0 0).2.1 == ok && (joinTarget (releasePkg s unit0) launch0 0).2.2.isSome == found

theorem witness_LaunchesAndJoins_join :
    (ownAccesses (queued 2) (queued 2).cur = [] ∧ spawning.launches = [] ∧ launch0.posted ≤ 1) ∧
    ownAccesses { queued 2 with accesses := loading.accesses } 0 ≠ [] ∧
    joins (queued 2) true true ∧ joins (queued 0) true false ∧ joins (waiting (queued 2)) false false := by decide +kernel

theorem test_end_cont :
    after .endU (queued 0) (fun t => t.cpu.run.isNone && t.launches.map Launch.completed == [1]) ∧
    after .endU (streaming stream0) (fun t => t.cpu.run.isSome) ∧
    after (.cont 1 2) (put (queued 0) 1 0x80) (fun t => t.cpu.run.isNone && (queueOf t 0 0).tail == 2) := by decide +kernel

/-- What END waits for. -/
def quiet (s : State) : Bool :=
  ownAccesses s s.cur == [] && tilesOf s s.cur == 0 && s.cpu.ctbusy == 0 && s.jobs.all (fun j => j.q != s.cur) &&
  s.streams.all fun t => t.q != s.cur || t.ended

/-- Whether the pages that END touches are at hand, and so those of the record that CONT posts. -/
def endPages (s : State) : Bool := (ringHold (releasePkg s unit0) (retireUses s unit0)).2
def contPages (s : State) : Bool :=
  let s1 := retireHead (setTurn ((releasePkg s unit0).updCpu Seq.clearUnit) 0 0 (some s.cur)) 0 0
  ringRoom (queueOf s1 0 0) && (ringHold s1 (contUses s1 unit0)).2

/-- A CONT that goes on: with its turn, with the turn taken by another, and with a ring that is full. -/
def goesOn (x : Queue → Queue) : State :=
  { (queued 0).updCpu (fun c => { c with wait := .contPost }) with queues := [x (queueOf (queued 0) 0 0)] }

theorem witness_UnitsEndAndContinue :
    ((queued 0).cpu.run = some unit0 ∧ quiet (queued 0) ∧ endPages (queued 0) ∧
      ∃ l ∈ (queued 0).launches, l.ctx = 1 ∧ l.id = unit0.launch) ∧
    (quiet (streaming stream0) = false ∧ quiet (waiting (queued 0)) ∧ endPages (waiting (queued 0)) = false) ∧
    (let s := put (put (queued 0) 1 0xFFC) 2 65535
     (residentGraph s 1 (unit0.handle.setWidth 64)).elim 0 Graph.seqSize = 0x1000 ∧ (s.cpu.reg 1).toNat % 4 = 0 ∧
     (s.cpu.reg 1).toNat < 0x1000 ∧ (s.cpu.reg 2).toNat ≤ 65535 ∧ s.cpu.wait = .none ∧ quiet s ∧ contQueue s unit0 = 0 ∧
     (queueOf s 0 0).turn = none ∧ contPages s ∧ contPages (waiting s) = false) ∧
    (¬((put (queued 0) 1 0x1000).cpu.reg 1).toNat < 0x1000 ∧ handlerReady (put (queued 0) 1 0x1000)) ∧
    (goesOn fun x => { x with turn := some 0 }).cpu.wait = .contPost ∧
    (queueOf (goesOn fun x => { x with turn := some 5 }) 0 0).turn = some 5 ∧
    (let s := goesOn fun x => { x with turn := some 0, head := 1, tail := 17 }
     ringRoom (queueOf (retireHead (setTurn s 0 0 (some s.cur)) 0 0) 0 0) = false) := by
  unfold handlerReady; decide +kernel

/-- The level of a code, where something of it is left or nothing, and whether the pages of its rings are at hand. -/
def levelIs (s : State) (code : Nat) (done pages : Bool) : Bool :=
  (levelNamed s unit0 code (s.cpu.reg 1)).any fun lv => levelDone s unit0 lv == done && (cancelHold s (levelLaunches s unit0 lv)).2 == pages

theorem test_cancel :
    after (.cancel 3 1 1) (queued 2) (fun t => rg 3 t == 1 && t.launches.map Launch.cancelled == [true]) ∧
    after (.cdone 3 1 0 1) (queued 2) (fun t => rg 3 t == 0) ∧ after (.cdone 3 1 1 1) (queued 2) (fun t => t.cpu.pc == 0x10000) ∧
    after (.cdone 3 1 0 4) working (fun t => rg 3 t == 0x8000000000000000) ∧
    after (.cancel 3 1 1) (put (queued 2) 1 9) (fun t => t.cpu.ecode == 6) := by decide +kernel

theorem witness_CancelAndCompletion :
    (queued 2).cpu.run = some unit0 ∧ levelIs (queued 2) 1 false true ∧ levelIs (put (queued 2) 1 1) 2 false true ∧
    levelIs (queued 2) 4 false true ∧ levelIs working 4 true true ∧ levelIs (waiting (queued 2)) 1 false false ∧
    (launchQueues (queued 2) launch0).length = 1 ∧ launch0 ∈ (queued 2).launches ∧
    (levelNamed (put (queued 2) 1 9) unit0 1 9 = none ∧ handlerReady (put (queued 2) 1 9)) := by
  unfold handlerReady; decide +kernel

/-- A barrier of die scope for n parties, sequencer 5 waiting at it. -/
def barrier0 (n : Nat) : Barrier :=
  { ctx := 1, bar := 63, word := BitVec.ofNat 64 (2 * 2 ^ 48 + 1024 * 2 ^ 16 + 0x8000 + n), die := 0, arrivals := 1
    generation := 8, complete := false, waiting := [5], absent := [] }

/-- The package with it, its number in register 1 and a word in register 2. -/
def barred (n : Nat) : State := { put (put base 1 63) 2 0x2000004001000 with barriers := [barrier0 n] }

/-- Sequencer 0 waiting so. -/
def barWait (w : Wait) : State := (barred 3).updCpu fun c => { c with wait := w }

theorem test_barriers :
    after (.barc 1 2) (put (put base 1 63) 2 0x2000004001000) (fun t =>
      t.barriers.map (fun b => (b.bar, b.arrivals, b.word)) == [(63, 0, 0x2000004001000)]) ∧
    after (.bar 3 1) (barred 3) (fun t => t.barriers.map Barrier.arrivals == [2] && t.cpu.wait == .barrier 63 8) ∧
    after (.bar 3 1) (barred 2) (fun t => t.barriers.map Barrier.generation == [9] && rg 3 t == 9 &&
      (t.seqs.get 5).wait == .passed 9 false) ∧
    after (.bar 3 1) (barWait (.passed 9 true)) (fun t => rg 3 t == 9 && t.cpu.pc == 0x10004) ∧
    after (.bar 3 1) (barWait .timedOut) (fun t => t.cpu.ecode == 0x0A) ∧
    after (.barrierWatchdog 1 63) (barred 3) (fun t => t.barriers.map Barrier.arrivals == [0] && (t.seqs.get 5).wait == .timedOut) := by
  decide +kernel

/-- The package with the barrier complete, of another die, or with no party. -/
def barWith (f : Barrier → Barrier) : State := { barred 3 with barriers := [f (barrier0 3)] }

theorem witness_Barriers_arm :
    (let s := put (put base 1 63) 2 0x2000004001000
     s.cpu.run = some unit0 ∧ (s.cpu.reg 1).toNat ≤ 63 ∧ barOk (s.cpu.reg 2) = true ∧ barrierOf s 1 63 = none ∧ handlerReady s) ∧
    (63 < ((put base 1 64).cpu.reg 1).toNat ∧ barOk 0 = false) ∧
    (barrierOf (barred 3) 1 63 = some (barrier0 3) ∧ (barrier0 3).arrivals ≠ 0 ∧ (barrier0 3).complete = false ∧
      barOk ((barred 3).cpu.reg 2) = true) := by
  unfold handlerReady; decide +kernel

theorem witness_Barriers_arrive :
    (let x := barrier0 3
     (barred 3).cpu.run = some unit0 ∧ x.complete = false ∧ barScope x.word = 2 ∧ x.die = (barred 3).cur.val / 16 ∧
     ownAccesses (barred 3) (barred 3).cur = [] ∧ (barred 3).cpu.wait = .none ∧ (barred 3).cur ∉ x.waiting ∧
     x.arrivals + 1 ≠ barCount x.word ∧ (barrier0 2).arrivals + 1 = barCount (barrier0 2).word) ∧
    ownAccesses { barred 3 with accesses := loading.accesses } 0 ≠ [] ∧
    (barrierOf (barWith fun x => { x with complete := true }) 1 63).any (fun x => x.complete) ∧
    (barrierOf (barWith fun x => { x with die := 1 }) 1 63).any (fun x => barScope x.word == 2 && x.die != 0) ∧
    (barrierOf base 1 63 = none ∧ base.cpu.wait = .none ∧ handlerReady base) := by
  unfold handlerReady; decide +kernel

theorem witness_Barriers_go_on :
    (barWait (.passed 9 true)).cpu.wait = .passed 9 true ∧ (barWait (.barrier 63 8)).cpu.wait = .barrier 63 8 ∧
    ((barWait .timedOut).cpu.wait = .timedOut ∧ handlerReady (barWait .timedOut)) ∧
    (bits (barrier0 3).word 47 16 ≠ 0 ∧ (barrier0 3).waiting ≠ []) ∧
    (barrierOf (barWith fun x => { x with waiting := [] }) 1 63).any (fun x => x.waiting == [] && x.absent == []) := by
  unfold handlerReady; decide +kernel

/-! ## Configurations -/

/-- The graph with RECONF placed, and sequencer 0 waiting for it. -/
def reconfiguring : State :=
  { ({ working with nodes := [] }.updCpu fun c => { c with wait := .recfg 1 }) with graphs := [{ graph0 with reconf := some 0 }] }

theorem test_reconfiguration :
    after (.recfg 3 1 0 0) (put working 1 1) (fun t => t.cpu.wait == .recfg 1 && t.graphs.map Graph.reconf == [some 0]) ∧
    after (.reconfPass 1 1) reconfiguring (fun t => currentPhase t 1 0 == 2 && t.cpu.wait == .reconfPassed 2) ∧
    after (.recfg 3 1 0 0) (working.updCpu fun c => { c with wait := .reconfPassed 2 }) (fun t => rg 3 t == 2 && t.cpu.pc == 0x10004) := by
  decide +kernel

/-- A RECFG whose payload, of one word, is at an address. -/
def recfgAt (va : Word) (w : Nat) : State :=
  let s := put (put working 1 1) 2 va
  { s with mem := memPutAll s.mem (arrayPa arr0) (toBytes 8 w) }

/-- What the load of its payload gives. -/
def payloadOk (s : State) (good : Bool) : Bool :=
  let r := seqLoad (paid s (.seq 0) 0x20000) unit0 0x20000 32
  loaded s r (fun bs => (rcWords (BitVec.ofNat 256 (ofBytes bs))).all (rcOk r.1 graph0) == good) && r.1.graphs == s.graphs

theorem witness_Reconfiguration_begins :
    (let s := recfgAt 0x20000 0
     s.cpu.run = some unit0 ∧ ownAccesses s s.cur = [] ∧ s.cpu.wait = .none ∧ graph0.reconf = none ∧
     s.graphs.find? (fun x => x.ctx == unit0.ctx && x.handle == (s.cpu.reg 1).toNat && !x.retired) = some graph0 ∧
     payloadOk s true ∧ handlerReady s) ∧
    (payloadOk (recfgAt 0x20000 1) false ∧ 0x2001F % 32 ≠ 0 ∧ loadWaits (seqLoad (waiting (recfgAt 0x20000 0)) unit0 0x20000 32) ∧
      loadFaults (recfgAt 0 0) (seqLoad (recfgAt 0 0) unit0 (2 ^ 52) 32) ∧ (2 ^ 52) % 32 = 0) ∧
    (ownAccesses { recfgAt 0 0 with accesses := loading.accesses } 0 ≠ [] ∧
      (put working 1 2).graphs.find? (fun x => x.ctx == 1 && x.handle == 2 && !x.retired) = none) := by
  unfold handlerReady; decide +kernel

/-- The graph retiring, its RECONF passed, no unit of it left. -/
def retiringGraph : State :=
  { working.updCpu (fun c => { c with wait := .reconfPassed 2, run := some { unit0 with handle := 2 } }) with
    graphs := [{ graph0 with retiring := true, done := true }] }

theorem witness_Reconfiguration_passes :
    (retiringGraph.cpu.wait = .reconfPassed 2 ∧
      retiringGraph.graphs.all (fun g => !g.retired && g.retiring && g.reconf == none && graphDone retiringGraph g &&
        unitsOf retiringGraph g == [])) ∧
    (let g := { graph0 with reconf := some 0 }
     reconfiguring.graphs.find? (fun x => x.ctx == g.ctx && x.handle == g.handle && !x.retired) = some g ∧ g.reconf.isSome ∧
     graphNodes reconfiguring g = [] ∧ reconfReady reconfiguring g = true ∧
     (currentPhase reconfiguring g.ctx g.die).toNat + 1 < 2 ^ 32 ∧ reconfiguring.cpu.wait = .recfg g.handle ∧
     reconfiguring.cpu.run = some unit0 ∧ unit0.ctx = g.ctx ∧
     reconfReady { reconfiguring with accesses := loading.accesses } g = false) := by
  decide +kernel
/-- A good image of one tile with 64 bytes of code: HDR, SEQ and six empty sections; ver is its version. -/
def image0 (ver : Nat) : List Byte :=
  toBytes 4 0x4F4B4A2E ++ toBytes 4 ver ++ toBytes 8 192 ++ toBytes 8 0 ++ toBytes 40 0x101 ++
  (List.range 8).flatMap (fun i =>
    toBytes 8 (i + 1) ++ toBytes 4 (if i = 0 then 0 else if i = 1 then 192 else 256) ++
      toBytes 4 (if i = 0 then 192 else if i = 1 then 64 else 0)) ++ List.replicate 64 0

/-- The package with an image in the array. -/
def imaged (ver : Nat) : State :=
  { paid (paid (two 0x20000 7) (.seq 0) 0x20000) (.seq 0) 0x200C0 with mem := memPutAll [] (arrayPa arr0) (image0 ver) }

/-- Its sections. -/
def sections (ver : Nat) : List (List Byte) :=
  [(image0 ver).take 192, List.replicate 64 0, [], [], [], [], [], []]

/-- The package whose LOADCFG has a grant at tile (2, 3). -/
def ungranted : State :=
  { ((two 0x20000 7).updCpu fun c => { c with wait := .granted 2 3 (sections 3) }) with
    grants := [{ part := 0, q := 0, ctx := 1, x := 2, y := 3, w := 1, h := 1 }] }

/-- And whose partition has the key of its context table. -/
def granted : State := { ungranted with keySlots := keyed.keySlots }

/-- The package whose LOADCFG bids. -/
def bidding : State :=
  { ((two 0x20000 7).updCpu fun c => { c with wait := .bidding (sections 3) }) with
    bids := [imageBid base unit0 (sections 3) 7], nextBid := 1 }

/-- The answer of a LOADCFG's read of its image, its sequencer as it was. -/
def imageRead (s : State) (base : Nat) (p : State → Loaded → Bool) : Bool :=
  let r := readImage s unit0 base []
  r.1.cur == s.cur && r.1.seqs == s.seqs && p r.1 r.2

/-- Every tile of the partition taken but those of one row too few for two bids, and none at all. -/
def tileless : State := { imaged 3 with parts := base.parts.set 0 { part0 with tiles := 0 } }

/-- The package with its one tile granted to another. -/
def oneTile : State :=
  { imaged 3 with
    parts := base.parts.set 0 { part0 with tiles := 1 }
    grants := [{ part := 0, q := 5, ctx := 1, x := 0, y := 0, w := 1, h := 1 }] }

theorem test_configuration :
    after (.loadcfg 3 1 2) (imaged 3) (fun t => t.grants.map (fun b => (b.w, b.h, b.x, b.y)) == [(1, 1, 0, 0)] &&
      t.cpu.pc == 0x10000 && t.bids == []) ∧
    after (.loadcfg 3 1 2) oneTile (fun t => t.bids.map (fun b => (b.w, b.h, b.prio)) == [(1, 1, 7)] && t.cpu.pc == 0x10000) ∧
    after (.loadcfg 3 1 2) (imaged 9) (fun t => t.cpu.ecode == 0x0C && t.cpu.faddr == 0x20004 && t.cpu.finfo == 6) ∧
    after (.loadcfg 3 1 2) granted (fun t => rg 3 t == 1 && t.graphs.map (fun g => (g.x, g.y, g.handle)) == [(2, 3, 1)] &&
      t.nodes.length == 5) ∧
    after (.loadcfg 3 1 2) ungranted (fun t => t.cpu.ecode == 2 && t.cpu.finfo % 256 == 8 && t.grants == [] && t.graphs == []) ∧
    after (.admissionArbitrate 0) bidding (fun t => t.bids == [] && t.grants.map (fun g => (g.x, g.y)) == [(0, 0)]) := by
  decide +kernel

theorem witness_Configuration_reads :
    ((imaged 3).cpu.run = some unit0 ∧ (imaged 3).cpu.wait = .none ∧ ((imaged 3).cpu.reg 2).toNat < 8 ∧ 0x20000 % 64 = 0) ∧
    (handlerReady (two 0x20000 8) ∧ 8 ≤ ((two 0x20000 8).cpu.reg 2).toNat ∧ 0x2003F % 64 ≠ 0) ∧
    imageRead (imaged 3) 0x20000 (fun s1 a => a == .image (sections 3) && checkImage (sections 3) == none &&
      fitsSomewhere s1 (imageBid s1 unit0 (sections 3) 7) && s1.bids == [] &&
      (fitOrigin s1 (imageBid s1 unit0 (sections 3) 7)) == some (0, 0)) ∧
    imageRead oneTile 0x20000 (fun s1 a => a == .image (sections 3) && fitsSomewhere s1 (imageBid s1 unit0 (sections 3) 7) &&
      fitOrigin s1 (imageBid s1 unit0 (sections 3) 7) == none) ∧
    imageRead tileless 0x20000 (fun s1 a => a == .image (sections 3) && !fitsSomewhere s1 (imageBid s1 unit0 (sections 3) 7)) ∧
    imageRead (imaged 9) 0x20000 (fun _ a => a == .image (sections 9) && checkImage (sections 9) == some (6, 4)) := by
  unfold handlerReady; decide +kernel

/-- Whether the read of an image waits, faults, or rejects it. -/
def isWait : Loaded → Bool
  | .wait _ => true
  | _ => false
def isFault : Loaded → Bool
  | .fault _ => true
  | _ => false
def isReject : Loaded → Bool
  | .reject _ _ => true
  | _ => false

/-- An image whose first section ends past the largest image. -/
def tooLong : State := { imaged 3 with mem := memPutAll (imaged 3).mem (arrayPa arr0 + 76) (toBytes 4 0xFFFFFFFF) }

theorem witness_Configuration_stops :
    imageRead (waiting (imaged 3)) 0x20000 (fun _ a => isWait a) ∧ imageRead (imaged 3) (2 ^ 52) (fun _ a => isFault a) ∧
    (2 ^ 52) % 64 = 0 ∧ imageRead tooLong 0x20000 (fun _ a => isReject a) := by decide +kernel

theorem witness_Configuration_grants :
    ((tableFault ungranted 0 0x10000).isSome ∧ handlerReady ungranted) ∧
    (granted.cpu.wait = .granted 2 3 (sections 3) ∧ nextHandle granted unit0.ctx = some 1 ∧
      (let g := loadedGraph granted unit0 (sections 3) 1 2 3 7 0x20000
       let nodes := (loadedNodes (sections 3) g).map Node.ref
       partLocked granted g.die nodes = false ∧
       partLocked { granted with nodes := [nodeWith (32 * (32 * 3 + 2) / 8) [0]] } g.die nodes = true)) ∧
    (let s := { granted with jobRecs := [{ jobRecOf granted 1 with given := (List.range 255).map (· + 1) }] }
     nextHandle s 1 = none) ∧
    bidding.cpu.wait = .bidding (sections 3) ∧
    (let b := imageBid base unit0 (sections 3) 7
     (bidding.bids.filter fun c => c.part == b.part) = [b] ∧ b.restore = none ∧ (∀ r ∈ bidding.restores, r.part ≠ b.part) ∧
     fitOrigin bidding b = some (0, 0) ∧ (bidding.seqs.get b.q).wait = .bidding (sections 3)) := by
  unfold handlerReady; decide +kernel

/-! ## Keys, counters, scrubs -/

/-- Counter 5 at a value; its number in register 1. -/
def counted (v : Word) : State := { put keyed 1 5 with counters := [(5, v)] }

theorem test_keyz_ctrinc :
    after (.keyz 3 1) (put keyed 1 1) (fun t => rg 3 t == 1 && keyState t 1 == .zero) ∧
    after (.keyz 3 1) (put keyed 1 6) (fun t => t.cpu.ecode == 6) ∧
    after (.ctrinc 3 1 0) (counted 41) (fun t => rg 3 t == 42 && counterOf t 5 == 42) ∧
    after (.ctrinc 3 1 1) (counted 41) (fun t => rg 3 t == 41 && counterOf t 5 == 41) ∧
    after (.ctrinc 3 1 0) (counted 0xFFFFFFFFFFFFFFFF) (fun t => t.cpu.ecode == 0x10 && t.cpu.finfo == 0x0B) := by decide +kernel

theorem witness_KeysAndCounters :
    keyed.cpu.run = some unit0 ∧
    (let s := put keyed 1 5
     (s.cpu.reg 1).toNat ≤ 4095 ∧ (partOf s 0).keys.getLsbD 5 = true ∧ ownAccesses s s.cur = [] ∧ slotInUse s 5 = false ∧
     (partOf s 0).ctrs.getLsbD 5 = true) ∧
    (ownAccesses { keyed with accesses := loading.accesses } 0 ≠ [] ∧
      slotInUse { keyed with accesses := [{ opAt .store 8 5 0 with q := 5, parts := [{ va := 0x30000, pa := 0x40000, n := 8
                                                                                       leaf := { leaf0 with key := 5 } }] }] } 5 = true) ∧
    (counterOf (counted 0xFFFFFFFFFFFFFFFE) 5).toNat + 1 < 2 ^ 64 ∧
    ((counterOf (counted 0xFFFFFFFFFFFFFFFF) 5).toNat = 2 ^ 64 - 1 ∧ handlerReady (counted 0xFFFFFFFFFFFFFFFF)) ∧
    (4095 < ((put keyed 1 4096).cpu.reg 1).toNat ∧ handlerReady (put keyed 1 4096) ∧ (partOf keyed 0).keys.getLsbD 6 = false ∧
      (partOf keyed 0).ctrs.getLsbD 6 = false) := by
  unfold handlerReady; decide +kernel

/-- Partition 0 in a state, with a TOTAL. -/
def inState (n : Nat) : State :=
  { base with parts := base.parts.set 0 { part0 with pctl := BitVec.ofNat 64 (0x80000100F0000000 + n * 2 ^ 60), scrTotal := 9 } }

theorem test_scrubs :
    after (.scrub 3) base (fun t => rg 3 t == 0 && (partOf t 0).stateOf == 2) ∧
    after (.scrub 3) (queued 0) (fun t => rg 3 t == 1) ∧ after (.scrub 3) keyed (fun t => rg 3 t == 2) ∧
    after (.scrubBegin 0) (inState 2) (fun t => (partOf t 0).stateOf == 3 && (partOf t 0).scrTotal == 794624) ∧
    after (.scrubComplete 0) (inState 3) (fun t => (partOf t 0).stateOf == 0 && (partOf t 0).scrDone == 9) := by decide +kernel

/-- What SCRUB finds: the pages of the rings at hand, records queued, another unit or graph, a key LOADED, its unit free to
end, and the pages of its record at hand. -/
def scrubFinds (s : State) : List Bool :=
  let r := holdRings s (partRings s 0 fun _ => true)
  [r.2, anyRecord r.1 (partRings s 0 fun _ => true) 1, scrubHeld r.1 unit0, anyLoaded r.1 0, endWaits s s.cur,
   (ringHold (releasePkg r.1 unit0) (retireUses r.1 unit0)).2]

theorem witness_Scrubs :
    (base.cpu.run = some unit0 ∧ unit0.part < 48) ∧
    (scrubFinds (waiting (queued 0))).take 1 = [false] ∧ (scrubFinds (queued 0)).take 3 = [true, true, true] ∧
    scrubFinds base = [true, false, false, false, false, true] ∧ (scrubFinds keyed).take 4 = [true, false, false, true] ∧
    scrubFinds { base with accesses := loading.accesses } = [true, false, false, false, true, true] ∧
    ((partOf (inState 2) 0).stateOf = 2 ∧ (partOf (inState 3) 0).stateOf = 3 ∧ 0 < 48) := by decide +kernel
/-! ## Cuts and images -/

/-- The cut of context 1. -/
def cut0 (stop : Bool) : Cut := { ctx := 1, num := 5, stop := stop, failed := false }

/-- The entry of its area, the first GiB under key slot 1. -/
def cutEntry : TlbEntry :=
  { holder := .cut 1, ctx := 1, va := 0, leaf := { leaf0 with frame := 0, lg := 30, key := 1 }, used := 0 }

/-- The package with a cut in progress whose area has its translation. -/
def cutting (stop : Bool) : State :=
  { ((tables 1 pte0 []).updCpu fun c => { c with pc := 0x10004, wait := .marking 5 (!stop) 3 }) with
    cuts := [cut0 stop], tlb := [cutEntry] }

/-- It before its MARK. -/
def uncut : State := { tables 1 pte0 [] with tlb := [cutEntry] }

/-- The package with the context saved with some graphs in it, nothing of it resident. -/
def savedPkg (gs : List Graph) : State :=
  { uncut with
    seqs := State.reset.seqs
    savedCtxs := [{ bytes := [], ctx := 1, cutNo := 5, graphs := gs, nodes := [], tiles := [], streams := [], instances := []
                    barriers := [], units := [], jobs := [], launches := [], phases := [], job := none, queues := [], scheds := [] }] }

/-- The same with the cut area in the host window, the link down. -/
def farSaved : State :=
  { savedPkg [] with tlb := [{ cutEntry with leaf := { cutEntry.leaf with frame := 0x100000000000 } }], linkUp := false }

/-- A fault of the walks of the cut. -/
def cutFaulted (s : State) : State :=
  { s with walkFaults := [{ holder := .cut 1, info := { cause := 2, addr := 0, level := 3, write := true, atomic := false, key := 0 } }] }

theorem test_cuts :
    after (.mark 3 0) (tables 1 pte0 []) (fun t => t.cuts.map (fun c => (c.num, c.stop)) == [(5, true)] &&
      t.cpu.wait == .marking 5 false 3 && t.cpu.pc == 0x10004) ∧
    after (.mark 3 1) (cutting false) (fun t => t.cuts.map (fun c => (c.num, c.stop)) == [(5, false)]) ∧
    after (.mark 3 1) inHandler (fun t => t.cpu.run.isNone) ∧
    after (.sliceExpiry 1) { tables 1 pte0 [] with slices := [(1, 1000)] } (fun t => t.cuts.length == 1) ∧
    after (.restoreStart 1) (savedPkg [graph0]) (fun t => t.restores.map (fun r => (r.ctx, r.placed.length)) == [(1, 1)] &&
      t.responses == [.accepted 6]) ∧
    after (.restoreStart 1) farSaved (fun t => t.serving == some (.restoreStart 1) && t.responses == []) ∧
    after .summary { savedPkg [] with serving := some (.restoreStart 1) } (fun t => t.responses == []) := by decide +kernel

/-- The area of a cut has its translation whatever the length of the image. -/
theorem cut_area (s : State) (n : Nat) (hw : s.walkFaults = []) (ht : s.tlb = [cutEntry]) (hl : s.latched = [])
    (hk : keyState s 1 = .loaded) (hn : n ≤ 2 ^ 28) :
    ∃ ps, translate s (.cut 1) 1 0 0 0 n true false false = (s, .ok ps) :=
  ⟨_, translate_itself_of_hits s (.cut 1) rfl 1 0 0 0 n true cutEntry.leaf hw
    (hits_first_gib s (.cut 1) 1 0 n true cutEntry
      (fun a h => by
        unfold entryFor
        rw [ht, hl, List.append_nil]
        exact List.find?_cons_of_pos (by simp [cutEntry, TlbEntry.covers]; omega))
      (by decide) rfl rfl rfl hk (by omega))⟩

/-- What a cut that completes asks of its state. -/
def cutOk (s : State) (ready : Bool) : Bool :=
  cutOf s 1 == some (cut0 true) && partOfCtx s 1 == some 0 && cutReady (saveAll s 1) 1 == ready

theorem witness_CutsAndRestores_marks :
    uncut.cpu.run = some unit0 ∧ uncut.cpu.h = false ∧ cutOf uncut 1 = none ∧ (cutOf (cutting true) 1).isSome ∧
    nextOf (.mark 3 0) uncut = some (cutting true) ∧ nextOf (.mark 3 1) uncut = some (cutting false) ∧
    (inHandler.cpu.run = some unit0 ∧ inHandler.cpu.h = true ∧ leavesAtOnce inHandler unit0 1 0 inHandler.cpu.pc) ∧
    (busyInHandler.cpu.run = some unit0 ∧ unitBusy busyInHandler busyInHandler.cur = true) := by
  unfold leavesAtOnce; decide +kernel

theorem witness_CutsAndRestores_slices :
    (let s := { uncut with slices := [(1, 1)] }
     (partOfCtx s 1).isSome ∧ (1, 1) ∈ s.slices ∧ ctxResident s 1 = true) ∧
    (∀ n, ((1 : BitVec 12), n) ∈ uncut.slices → n = 0) ∧ ctxResident (savedPkg []) 1 = false ∧ partOfCtx uncut 0xFFF = none := by
  refine ⟨by decide +kernel, ?_, by decide +kernel⟩
  intro n h
  simp [uncut, tables, base, State.reset] at h

theorem witness_CutsAndRestores_writes (stop : Bool) :
    let s := cutting stop
    let n := (Config.cutBytes s.freeCtr).take (2 ^ 28)
    cutWriteBack (saveAll s 1) 1 = s ∧ cutBase s 0 1 = 0 ∧ cutReady (saveAll s 1) 1 = true ∧
    keyCause { s with freeCtr := s.freeCtr + 1 } 0 (partOf s 0).tkey = none ∧
    ∃ ps, translate { s with freeCtr := s.freeCtr + 1 } (.cut 1) 1 0 0 0 (max 1 n.length) true false false =
      ({ s with freeCtr := s.freeCtr + 1 }, .ok ps) :=
  ⟨rfl, by cases stop <;> decide +kernel, by cases stop <;> decide +kernel, by cases stop <;> decide +kernel,
    cut_area _ _ rfl rfl rfl (by cases stop <;> decide +kernel) (by rw [List.length_take]; omega)⟩

theorem witness_CutsAndRestores_cut :
    cutOk (cutting true) true ∧ cutOk { cutting true with accesses := loading.accesses } false ∧
    (cutOf { cutting true with cuts := [{ cut0 true with failed := true }] } 1).any Cut.failed ∧
    (let s := cutFaulted (cutting true)
     let n := (Config.cutBytes s.freeCtr).take (2 ^ 28)
     cutOk s true ∧ keyCause { s with freeCtr := s.freeCtr + 1 } 0 (partOf s 0).tkey = none ∧
     refused (translate { s with freeCtr := s.freeCtr + 1 } (.cut 1) 1 0 0 0 (max 1 n.length) true false false)) := by
  refine ⟨by decide +kernel, by decide +kernel, by decide +kernel, by decide +kernel, by decide +kernel, ?_⟩
  rfl

/-- A translation waits. -/
def loadWaits' (r : State × Trans) : Bool := r.2 == .wait

/-- The context is free for a restore, and whether its area is read. -/
def restorable (s : State) (read : Bool) : Bool :=
  s.bstatStage == 2 && partOfCtx s 1 == some 0 && bit (descWord s 0 1 0x20) 63 && !ctxResident s 1 && restoreOf s 1 == none &&
  keyCause s 0 (partOf s 0).tkey == none && mapped (translate s (.cut 1) 1 0 0 (cutBase s 0 1) 1 false false false) == read

/-- How many live graphs the saved context has. -/
def liveSaved (s : State) : Nat :=
  match translate s (.cut 1) 1 0 0 (cutBase s 0 1) 1 false false false with
  | (s1, .ok ps) => ((cutOfBytes s1 1 (readParts s1 ps)).graphs.filter fun g => !g.retired).length
  | _ => 0

theorem witness_CutsAndRestores_restore :
    restorable (savedPkg [graph0]) true ∧ liveSaved (savedPkg [graph0]) = 1 ∧
    restorable (savedPkg []) true ∧ liveSaved (savedPkg []) = 0 ∧ restorable (cutFaulted (savedPkg [])) false ∧
    { savedPkg [] with bstatStage := 1 }.bstatStage ≠ 2 ∧ partOfCtx (savedPkg []) 0xFFF = none ∧ ctxResident uncut 1 = true ∧
    restorable farSaved false ∧
    loadWaits' (translate farSaved (.cut 1) 1 0 0 (cutBase farSaved 0 1) 1 false false false) ∧
    (partOf (savedPkg []) 0).stateOf = 1 ∧ { savedPkg [] with serving := some .summary }.serving = some .summary := by
  decide +kernel
/-! ## The fabric -/

/-- The key of the tokens. -/
def key0 : Key := { ctx := 1, iter := 0, path := 0 }

/-- A token held on an operand of slot 0. -/
def held (o : Opd) (arr : Nat) (p : Payload) : Held :=
  { slot := 0, opd := o, tok := { key := key0, seq := 0, kind := .data, payload := p }
    src := .slot { die := 0, id := 0 } 1 0, arr := arr, spilled := false }

/-- Element 0 with a payload on operands a, b and c of slot 0. -/
def fab (a b c : Payload) : State :=
  { working with
    site := { node := { die := 0, id := 0 }, slot := 0, key := key0 }
    nodes := [{ nodeWith 0 [0x5800000000000000, 0x5800000000000000] with
      store := [held .a 0 a, held .b 1 b, held .c 2 c], arrivals := 3 }] }

/-- A word of a type and modifiers whose output T0 goes to operand a of slot 1 of the same element. -/
def ew (ty md x : Nat) : EWord := { ty := BitVec.ofNat 4 ty, mod := BitVec.ofNat 4 md, t0 := 0x8004, t1 := 0, x := BitVec.ofNat 16 x }

/-- The payloads that stand on outputs of element 0. -/
def sent (t : State) : List Payload := (t.nodes.headD (nodeWith 0 [])).outs.map fun o => o.tok.payload

/-- A word leaves a value in lane 0 of its output. -/
def lane0 (i : Instr) (s : State) (w v : Nat) : Bool :=
  after i s fun t => (sent t).map (fun p => lane p w 0) == [v]

theorem test_element_integers :
    lane0 (.iadd (ew 0 0 0)) (fab 0x7F 1 0) 8 0x80 ∧ lane0 (.iadd (ew 0 4 0)) (fab 0x7F 1 0) 8 0x7F ∧
    lane0 (.isub (ew 4 4 0)) (fab 1 2 0) 8 0 ∧ lane0 (.imul (ew 1 0 0)) (fab 0x8000 2 0) 16 0 ∧
    lane0 (.imulh (ew 1 0 0)) (fab 0x8000 2 0) 16 0xFFFF ∧ lane0 (.imac (ew 2 0 0)) (fab 3 4 5) 32 17 ∧
    lane0 (.imin (ew 0 0 0)) (fab 0xFF 1 0) 8 0xFF ∧ lane0 (.imax (ew 4 0 0)) (fab 0xFF 1 0) 8 0xFF ∧
    lane0 (.iabs (ew 0 4 0)) (fab 0x80 0 0) 8 0x7F ∧ lane0 (.iand (ew 2 8 6)) (fab 5 0 0) 32 4 ∧
    lane0 (.ior (ew 2 0 0)) (fab 5 6 0) 32 7 ∧ lane0 (.ixor (ew 2 0 0)) (fab 5 6 0) 32 3 ∧
    lane0 (.inot (ew 0 0 0)) (fab 5 0 0) 8 0xFA ∧ lane0 (.ishl (ew 0 0 0)) (fab 1 9 0) 8 0 ∧
    lane0 (.ishr (ew 0 0 0)) (fab 0x80 9 0) 8 0xFF ∧ lane0 (.iclz (ew 1 0 0)) (fab 1 0 0) 16 15 ∧
    lane0 (.ipopc (ew 1 0 0)) (fab 0xF0F 0 0) 16 8 ∧ lane0 (.icmp (ew 0 2 0)) (fab 0xFF 1 0) 8 0xFF := by decide +kernel

theorem test_element_floats :
    lane0 (.fadd (ew 10 0 0)) (fab 0x3F800000 0x40000000 0) 32 0x40400000 ∧
    lane0 (.fsub (ew 10 0 0)) (fab 0x3F800000 0x3F800000 0) 32 0 ∧
    lane0 (.fmul (ew 10 0 0)) (fab 0x40000000 0x40400000 0) 32 0x40C00000 ∧
    lane0 (.ffma (ew 8 0 0)) (fab 0x3C00 0x4000 0x3C00) 16 0x4200 ∧ lane0 (.fmin (ew 10 0 0)) (fab 0x80000000 0 0) 32 0x80000000 ∧
    lane0 (.fmax (ew 10 0 0)) (fab 0x80000000 0 0) 32 0 ∧ lane0 (.fabs (ew 10 0 0)) (fab 0xBF800000 0 0) 32 0x3F800000 ∧
    lane0 (.fneg (ew 10 0 0)) (fab 0x3F800000 0 0) 32 0xBF800000 ∧
    lane0 (.fclamp (ew 10 0 0)) (fab 0x40400000 0x3F800000 0x40000000) 32 0x40000000 ∧
    lane0 (.frcp (ew 10 0 0)) (fab 0x40000000 0 0) 32 0x3F000000 ∧ lane0 (.frsq (ew 10 0 0)) (fab 0x40800000 0 0) 32 0x3F000000 := by
  decide +kernel

theorem test_element_transcendentals :
    lane0 (.fexp2 (ew 8 0 0)) (fab 0x4200 0 0) 16 0x4800 ∧ lane0 (.flog2 (ew 8 0 0)) (fab 0x4800 0 0) 16 0x4200 ∧
    lane0 (.fcmp (ew 10 2 0)) (fab 0x3F800000 0x40000000 0) 32 0xFFFFFFFF := by decide +kernel

/-- FP16: the least subnormal is 2^-24, a tie goes to even, and overflow goes to infinity or, towards zero, to the largest finite
value (R226 to R228). -/
theorem test_float_formats :
    fdec fp16 1 = .fin false 1 (-24) ∧ fdec fp16 0xFC00 = .inf true ∧ fenc fp16 .rne (.fin false 2049 0) = 0x6800 ∧
    fenc fp16 .rup (.fin false 2049 0) = 0x6801 ∧ fenc fp16 .rne (.fin false 65536 0) = 0x7C00 ∧
    fenc fp16 .rtz (.fin false 65536 0) = 0x7BFF ∧ fenc fp16 .rne (.fin true 1 (-26)) = 0x8000 := by decide +kernel

theorem test_element_lanes :
    lane0 (.vperm (ew 2 0 0)) (fab (7 * 2 ^ 32 + 9) 1 0) 32 7 ∧ lane0 (.vbcast (ew 2 0 1)) (fab (7 * 2 ^ 32 + 9) 0 0) 32 7 ∧
    lane0 (.vsel (ew 2 0 0)) (fab 5 6 0) 32 6 ∧ lane0 (.vext (ew 2 0 8)) (fab 5 6 0) 32 6 ∧ lane0 (.vins (ew 2 0 0)) (fab 5 6 0) 32 6 ∧
    lane0 (.vshuf (ew 2 0 1)) (fab (5 * 2 ^ 128) 6 0) 32 5 ∧ lane0 (.vred (ew 2 0 0)) (fab (5 * 2 ^ 128 + 7) 0 0) 32 12 := by
  decide +kernel

theorem test_dataflow :
    lane0 (.sync (ew 2 0 0)) (fab 5 6 0) 32 5 ∧ lane0 (.dup (ew 2 0 0)) (fab 5 6 0) 32 5 ∧ lane0 (.const (ew 2 0 0xFFFF)) (fab 5 6 0) 32 0xFFFFFFFF ∧
    lane0 (.gate (ew 2 0 0)) (fab 5 1 0) 32 5 ∧ after (.gate (ew 2 0 0)) (fab 5 0 0) (fun t => sent t == []) ∧
    after (.sink (ew 0 0 0)) (fab 5 0 0) (fun t => sent t == [] && (t.nodes.headD (nodeWith 0 [])).store.length == 2) ∧
    after (.steer (ew 0 0 0)) (fab 5 0 0) (fun t => sent t == [5]) ∧ after (.steer (ew 0 0 0)) (fab 5 1 0) (fun t => sent t == []) ∧
    after (.steerc (ew 0 0 0)) (fab 5 1 0) (fun t => (t.nodes.headD (nodeWith 0 [])).outs.map (fun o => o.tok.kind) == [.cancel]) ∧
    after (.merge (ew 0 0 0)) (fab 5 6 0) (fun t => sent t == [5]) ∧
    lane0 (.tagget (ew 2 0 0)) (fab 5 6 0) 64 0x1000000000 ∧ lane0 (.tagset (ew 2 2 9)) (fab 5 6 0) 32 5 ∧
    after (.trape (ew 0 1 7)) (fab 5 6 0) (fun t => t.graphs.map (fun g => g.tree.map fun r => (r.code, r.aux)) == [[(0x29, 7)]]) := by
  decide +kernel

/-- The site fires a word of an opcode on data, with no exception. -/
def canFireOn (s : State) (op : Nat) (e : EWord) : Bool :=
  (firingAt s s.site op e).any fun f => modeOf f.heads == .fire && !excepted s f && !excepted (ensureInstance s f) f

/-- The words that fire on tokens of a, b and c. -/
theorem witness_words_fire :
    (∀ op ∈ [0x00, 0x01, 0x02, 0x03, 0x04, 0x05, 0x06, 0x07, 0x08, 0x09, 0x0A, 0x0B, 0x0C, 0x0D, 0x0E, 0x0F, 0x10,
      0x20, 0x21, 0x22, 0x23, 0x24, 0x25, 0x26, 0x27, 0x28, 0x29, 0x2A, 0x2B, 0x2C, 0x2D,
      0x40, 0x41, 0x42, 0x43, 0x44, 0x45, 0x46,
      0x50, 0x51, 0x52, 0x53, 0x54, 0x55, 0x56, 0x57, 0x58, 0x59, 0x5A, 0x5B,
      0x70, 0x71, 0x72, 0x73, 0x74, 0x75, 0x80, 0x81, 0x82, 0xF1], canFireOn (fab 0x20008 1 2) op (ew 2 0 0) = true) := by
  decide +kernel

/-- A token of a kind on an operand of slot 0. -/
def heldAs (k : Kind) (o : Opd) (arr : Nat) (p : Payload) : Held :=
  { slot := 0, opd := o, tok := { key := key0, seq := 0, kind := k, payload := p }
    src := .slot { die := 0, id := 0 } 1 0, arr := arr, spilled := false }

/-- Element 0 with tokens on slot 0, some slots gated. -/
def fabOf (gated : List Nat) (l : List Held) : State :=
  { fab 0 0 0 with
    nodes := [{ nodeWith 0 [0x5800000000000000, 0x5800000000000000] with gated := gated, store := l, arrivals := l.length }] }

/-- The site fires a word in a mode. -/
def firesAs (s : State) (op : Nat) (e : EWord) (m : Mode) : Bool := (firingAt s s.site op e).any fun f => modeOf f.heads == m

/-- A word that asks for a fires in each mode; behind a false gate it takes its tokens alone; and one that asks for a and b
with an EOS and a datum is mixed.  A site with no token cannot fire. -/
theorem witness_FiringsTakeAndEmit_modes :
    (∀ x ∈ [(Kind.data, Mode.fire), (.cancel, .cancel), (.eos, .ends), (.eeos, .eeos)],
      firesAs (fabOf [] [heldAs x.1 .a 0 5]) 0x56 (ew 2 0 0) x.2) ∧
    firesAs (fabOf [0] [heldAs .data .a 0 5, heldAs .data .g 1 0]) 0x56 (ew 2 0 0) .quiet ∧
    firesAs (fabOf [] [heldAs .eos .a 0 5, heldAs .data .b 1 0]) 0x00 (ew 2 0 0) .mixed ∧
    firingAt (fabOf [] []) (fabOf [] []).site 0x56 (ew 2 0 0) = none := by decide +kernel

theorem witness_FiringsTakeAndEmit :
    ∃ f, firingAt (fab 5 6 0) (fab 5 6 0).site 0x55 (ew 2 0 0) = some f ∧ nodeOf (fab 5 6 0) f.n.ref = some f.n ∧
      excepted (fab 5 6 0) f = false ∧ (nodeOf (endFiring (fab 5 6 0) f .fire (both (f.token 5))) f.n.ref).isSome ∧
      f.heads ≠ [] ∧ wordConsumers (fab 5 6 0) f.n f.op f.w 0 ≠ [] :=
  ⟨_, rfl, by decide +kernel, by decide +kernel, by decide +kernel, by decide +kernel, by decide +kernel⟩

/-- A loop with a window of two positions and a pool whose base wave runs. -/
def looped (pool : List PoolEntry) (allocs : List (BitVec 16 × Nat)) : State :=
  { fab 5 6 0 with graphs := [{ graph0 with loops := [{ id := 3, window := 2, reserve := 1 }], pool := pool, allocs := allocs }] }

theorem test_wadv :
    after (.wadv (ew 0 0 3)) (looped [] []) (fun t => (t.nodes.headD (nodeWith 0 [])).outs.length == 1) := by decide +kernel

/-- A place in the pool. -/
def wave (loop iter : BitVec 16) (ord pos : Nat) : PoolEntry :=
  { iter := iter, loop := loop, parent := 0, ordinal := ord, pos := pos, fromReserve := false }

/-- A WADV at the site fires in a mode with a plan of its next wave. -/
def waved (s : State) (mode : Nat) (m : Mode) (p : Graph → Wave → Bool) : Bool :=
  (firingAt s s.site 0x53 (ew 0 mode 3)).any fun f =>
    modeOf f.heads == m && p f.g (wavePlan f.g mode 3 f.key.iter)

/-- The loop of the WADV with its waves, and tokens on slot 0. -/
def loopOf (pool : List PoolEntry) (gated : List Nat) (l : List Held) : State :=
  { fabOf gated l with graphs := (looped pool []).graphs }

theorem witness_Dataflow_waves :
    (∀ x ∈ [(Kind.data, Mode.fire), (.cancel, .cancel), (.eos, .ends), (.eeos, .eeos)],
      waved (loopOf [wave 3 7 0 0] [] [heldAs x.1 .a 0 5]) 0 x.2 (fun _ w => w == .mapped 7) ∧
      waved (loopOf [] [] [heldAs x.1 .a 0 5]) 0 x.2 (fun _ w => w == .fresh 0 0) ∧
      waved (loopOf [] [] [heldAs x.1 .a 0 5]) 1 x.2 (fun _ w => w == .tagx)) ∧
    waved (loopOf [] [0] [heldAs .data .a 0 5, heldAs .data .g 1 0]) 0 .quiet (fun _ _ => true) ∧
    waved (loopOf [wave 3 7 0 0] [0] [heldAs .eos .a 0 5, heldAs .data .g 1 1]) 0 .mixed (fun _ w => w == .mapped 7) ∧
    waved (loopOf [] [0] [heldAs .eos .a 0 5, heldAs .data .g 1 1]) 0 .mixed (fun _ w => w == .fresh 0 0) ∧
    waved (loopOf [] [] [heldAs .data .a 0 5]) 0 .fire (fun g _ => (grantFor g 3 0 0).isSome) ∧
    waved (loopOf [wave 3 7 4 0, wave 3 8 5 1] [] [heldAs .data .a 0 5]) 0 .fire (fun g _ => (grantFor g 3 0 0).isNone) ∧
    firingAt (fabOf [] []) (fabOf [] []).site 0x53 (ew 0 0 3) = none := by decide +kernel

/-- A WADV in slot 0 whose turn it is. -/
def wadvSite : State :=
  { looped [] [] with nodes := [{ nodeWith 0 [0x5300000080040003, 0x5800000000000000] with store := [held .a 0 5], arrivals := 1 }] }

theorem witness_Dataflow_grant :
    ((nodeOf wadvSite wadvSite.site.node).any fun n => n.opAt wadvSite.site.slot == 0x53) ∧
    nextSite wadvSite wadvSite.site.node = some wadvSite.site ∧
    ((nodeOf working { die := 0, id := 0 }).any fun n => n.opAt 0 != 0x53) := by decide +kernel

/-- The tokens that STEER, STEERC and SINK take, in each mode. -/
theorem witness_Dataflow_ends :
    (∀ op ∈ [0x50, 0x51], ∀ x ∈ [(Kind.data, Mode.fire), (.cancel, .cancel), (.eos, .ends), (.eeos, .eeos)],
      firesAs (fabOf [] [heldAs x.1 .a 0 5, heldAs x.1 .b 1 1]) op (ew 0 0 0) x.2) ∧
    (∀ op ∈ [0x50, 0x51], firesAs (fabOf [] [heldAs .eos .a 0 5, heldAs .data .b 1 1]) op (ew 0 0 0) .mixed ∧
      firesAs (fabOf [0] [heldAs .data .a 0 5, heldAs .data .b 1 1, heldAs .data .g 2 0]) op (ew 0 0 0) .quiet) ∧
    (∀ x ∈ [(Kind.data, Mode.fire), (.cancel, .cancel), (.eos, .ends), (.eeos, .eeos)],
      firesAs (fabOf [] [heldAs x.1 .a 0 5]) 0x58 (ew 0 0 0) x.2) ∧
    firesAs (fabOf [0] [heldAs .eos .a 0 5, heldAs .data .g 1 1]) 0x58 (ew 0 0 0) .mixed := by decide +kernel

/-- A MERGE fires in a mode, its token of the side that its path names or astray. -/
def merges (s : State) (m : Mode) (astray : Bool) : Bool :=
  (firingAt s s.site 0x52 (ew 0 0 0)).any fun f0 =>
    let f := mergeFiring f0
    modeOf f.heads == m && (mergeHead f).isSome && mergeAstray f == astray

/-- The EOS of the other side, held. -/
def endHeld : State :=
  { fabOf [] [heldAs .eos .a 0 5] with
    nodes := [{ nodeWith 0 [0x5800000000000000] with
      store := [heldAs .eos .a 0 5], arrivals := 1
      ends := [(0, .b, { key := { key0 with path := 1 }, seq := 0, kind := .eos, payload := 0 })] }] }

theorem witness_Dataflow_merge :
    (∀ x ∈ [(Kind.data, Mode.fire), (.cancel, .cancel), (.eos, .ends), (.eeos, .eeos)],
      merges (fabOf [] [heldAs x.1 .a 0 5]) x.2 false ∧ merges (fabOf [] [heldAs x.1 .b 0 5]) x.2 true) ∧
    merges (fabOf [0] [heldAs .data .a 0 5, heldAs .data .g 1 0]) .quiet false ∧
    merges (fabOf [0] [heldAs .eos .a 0 5, heldAs .data .g 1 1]) .mixed false ∧ merges endHeld .ends false ∧
    ((firingAt (fabOf [0] [heldAs .data .b 0 5, heldAs .eeos .g 1 0]) { node := { die := 0, id := 0 }, slot := 0, key := key0 } 0x52
        (ew 0 0 0)).any fun f => mergeAstray (mergeFiring f) && (mergeFiring f).heads.any fun h => h.opd == .g && h.tok.kind == .eeos) ∧
    firingAt (fabOf [] []) (fabOf [] []).site 0x52 (ew 0 0 0) = none := by decide +kernel

/-- A MERGE with an astray token and EEOS on its gate takes both and passes the EEOS on, with SMISM (R209, R308). -/
theorem test_merge_gate_ends :
    after (.merge (ew 0 0 0)) (fabOf [0] [heldAs .data .b 0 5, heldAs .eeos .g 1 0]) (fun t =>
      (t.nodes.headD (nodeWith 0 [])).outs.map (fun o => o.tok.kind) == [.eeos] && (t.nodes.headD (nodeWith 0 [])).store == []) := by
  decide +kernel

/-- TRAPE with its T bit, with the low bit of a, and with neither; GATE open and shut; CONST with each form. -/
theorem witness_Dataflow_choices :
    (ew 0 1 7).mod.toNat % 2 = 1 ∧ (ew 0 0 7).mod.toNat % 2 ≠ 1 ∧ (ew 2 8 7).mod.getLsbD 3 = true ∧ (ew 2 0 7).mod.getLsbD 3 = false ∧
    canFireOn (fab 1 1 0) 0xF1 (ew 0 0 7) ∧ canFireOn (fab 0 0 0) 0x54 (ew 2 1 0) := by decide +kernel
/-! ## Propolis images -/

/-- The leaf of the first GiB under key slot 1. -/
def gib : Leaf := { leaf0 with frame := 0, lg := 30, key := 1 }

/-- The x coordinate of twice the base point. -/
def twiceX : Nat := 56515219790691171413109057904011688695424810155802929973526481321309856242040

/-- A report that the device key signer signs: CTRIDX 5, CTRVAL 7, and the base point as SEALPUB. -/
def pkr0 : List Byte :=
  toBytes 4 0x31524B50 ++ toBytes 2 5 ++ toBytes 2 0 ++ toBytes 8 7 ++ toBytes 32 0 ++ pubBytes p256g ++ toBytes 32 0 ++
  toBytesBE 32 twiceX ++ toBytesBE 32 twiceX ++ toBytes 48 0

/-- A device key. -/
def signer : Nat × Nat :=
  (81261359040481909580759551288361952217431735606243642160829260620610405428339,
   76923105757074200056080102464251432965211683113397865544889665556326831737590)

/-- The saved cut of context 2, of one byte. -/
def saved0 : SavedCtx :=
  { bytes := [5], ctx := 2, cutNo := 5, graphs := [], nodes := [], tiles := [], streams := [], instances := [], barriers := [],
    units := [], jobs := [], launches := [], phases := [], job := none, queues := [], scheds := [] }

/-- The descriptor of context 2 in HBM4E: no table, PTKEY 1, no pool, CCTL in a state, a cut area at 0. -/
def desc2 (cst : Nat) : List Host.Cell :=
  wordsAt [(0x10080, 0x10), (0x10088, 0), (0x10090, 0), (0x100A0, BitVec.ofNat 64 (2 ^ 63 + cst * 2 ^ 60 + 4)), (0x100A8, 0)]

/-- The entries of sequencer 0 for the array at 0x20000 and for a GiB of HBM4E, and of the cut area of context 2. -/
def gibs : List TlbEntry :=
  [{ holder := .seq 0, ctx := 1, va := 0x20000, leaf := leaf0, used := 0 },
    { holder := .seq 0, ctx := 1, va := 0x40000000, leaf := gib, used := 0 },
    { holder := .cut 2, ctx := 2, va := 0, leaf := gib, used := 0 }]

/-- The package with pieces of bytes in the array, registers 1 and 2, and the descriptor of context 2. -/
def inArray (cst : Nat) (r1 r2 : Word) (bytes : List (Nat × List Byte)) : State :=
  { two r1 r2 with
    keySlots := [slotKey 1 77]
    lineTags := [{ line := 0x201, key := 77, epoch := 0 }]
    tlb := gibs
    mem := bytes.foldl (fun m x => memPutAll m (arrayPa arr0 + x.1) x.2) (desc2 cst) }

/-- The request of a SEAL of a context with a limit: report at 0x20100, chain of one byte at 0x20200. -/
def sealBytes (ctx limit : Nat) : List Byte :=
  toBytes 2 ctx ++ toBytes 2 0 ++ toBytes 4 1 ++ toBytes 8 limit ++ toBytes 8 0x20100 ++ toBytes 8 0x20200 ++ toBytes 96 0
def sealReq0 : SealReq :=
  { ctx := 2, polfw := false, chainLen := 1, limit := 0x100000, pkr := 0x20100, chain := 0x20200, pol := List.replicate 32 0 }

/-- The package with a saved cut of context 2, a request at 0x20000, a report and a chain, the loads of each admitted. -/
def sealWith (rb pkr : List Byte) : State :=
  { ([0x20000, 0x20100, 0x20200].foldl (fun s va => paid s (.seq 0) va) <| inArray 2 0x20000 0x40080000 [(0, rb), (0x100, pkr), (0x200, [0xCC])]) with
    sealable := [2]
    savedCtxs := [saved0] }
def sealing : State := sealWith (sealBytes 2 0x100000) pkr0

/-- A package as a SEAL reads its request, the report, the chain and the cut area. -/
def seal1 (s : State) : State := (seqLoad s unit0 0x20000 128).1
def seal2 (s : State) : State := (seqLoad (seal1 s) unit0 0x20100 256).1
def seal3 (s : State) : State := (seqLoad (seal2 s) unit0 0x20200 1).1
def sealCut (s : State) : State × Trans := translate (seal3 s) (.cut 2) 2 0 0 (cutBase (seal3 s) 0 2) 1 false false false

/-- What it reads: the request, and then the report, the chain and the cut area. -/
def reads1 (s : State) (rb : List Byte) : Bool := s.cpu.run == some unit0 && loaded s (seqLoad s unit0 0x20000 128) (· == rb)
def reads3 (s : State) (pkr : List Byte) : Bool :=
  loaded (seal1 s) (seqLoad (seal1 s) unit0 0x20100 256) (· == pkr) &&
  loaded (seal2 s) (seqLoad (seal2 s) unit0 0x20200 1) (· == [0xCC])
def reads4 (s : State) : Bool :=
  match sealCut s with
  | (s4, .ok ps) => (readParts s4 ps).length == 1 && s4.seqs == s.seqs && s4.cur == s.cur
  | _ => false

theorem seal_reads : reads1 sealing (sealBytes 2 0x100000) ∧ reads3 sealing pkr0 ∧ reads4 sealing := by decide +kernel

theorem test_report : pkr0.length = 256 ∧ ecdsaOk signer.1 signer.2 (sliceOf pkr0 0x90 64) (sha256 (pkr0.take 0x90)) = true := by
  decide +kernel
theorem seal_facts :
    let s := (sealCut sealing).1
    (carriedKeys (seal3 sealing) 0 2).length = 1 ∧ (s.cpu.reg 2).toNat = 0x40080000 ∧ keyState s 1 = .loaded ∧
    s.tlb.find? (fun e => e.holder == .seq 0) = some { holder := .seq 0, ctx := 1, va := 0x20000, leaf := leaf0, used := 2 } ∧
    s.tlb = [{ holder := .seq 0, ctx := 1, va := 0x20000, leaf := leaf0, used := 2 },
      { holder := .seq 0, ctx := 1, va := 0x40000000, leaf := gib, used := 0 },
      { holder := .cut 2, ctx := 2, va := 0, leaf := gib, used := 0 }] ∧ s.latched = [] ∧ s.walkFaults = [] ∧
    missOf s (.seq 0) = none ∧ s.cur = 0 := by decide +kernel

/-- What SEAL asks of the context it saves: it may be named, it has been cut, and its state lets it be lent. -/
def sealOpen (s : State) (ctx : Nat) : Bool := (partOf s 0).hasCtx ctx && (tableFault s 0 0x20000).isNone
def sealStands (s : State) : Bool :=
  (cutOf s 2).isNone && s.sealable.contains 2 && ctxState s 0 2 == 2

/-- A request that breaks no limit names a context. -/
def asks (rb : List Byte) (ctx limit : Nat) : Bool := (sealReqOf rb).any fun r => r.ctx == ctx && r.limit == limit

theorem witness_SealsAndUnseals_request :
    (handlerReady sealing ∧ (sealing.cpu.reg 1).toNat % 64 = 0 ∧ ownAccesses sealing sealing.cur = []) ∧
    ownAccesses { sealing with accesses := loading.accesses } 0 ≠ [] ∧ ((put sealing 1 0x2003F).cpu.reg 1).toNat % 64 ≠ 0 ∧
    loadFaults sealing (seqLoad sealing unit0 (2 ^ 52) 128) ∧ loadWaits (seqLoad (waiting sealing) unit0 0x20000 128) ∧
    (reads1 (sealWith [] []) (List.replicate 128 0) ∧ sealReqOf (List.replicate 128 0) = none) ∧
    asks (sealBytes 2 0x100000) 2 0x100000 ∧ asks (sealBytes 2 0x101FF) 2 0x101FF ∧
    (reads1 (sealWith (sealBytes 4095 1) []) (sealBytes 4095 1) ∧ asks (sealBytes 4095 1) 4095 1 ∧
      sealOpen (seal1 (sealWith (sealBytes 4095 1) [])) 4095 = false) := by
  unfold handlerReady; decide +kernel

/-- The package with no key in slot 1, with the context being cut, and with no cut of it. -/
def unkeyed : State := { sealing with keySlots := [] }
def beingCut : State := { sealing with cuts := [{ cut0 true with ctx := 2 }] }
def neverCut : State := { sealing with sealable := [] }

theorem witness_SealsAndUnseals_context :
    (sealOpen (seal1 sealing) 2 ∧ sealStands (seal1 sealing)) ∧
    (reads1 unkeyed (sealBytes 2 0x100000) ∧ (partOf (seal1 unkeyed) 0).hasCtx 2 ∧ (tableFault (seal1 unkeyed) 0 0x20000).isSome) ∧
    (reads1 beingCut (sealBytes 2 0x100000) ∧ sealOpen (seal1 beingCut) 2 ∧ (cutOf (seal1 beingCut) 2).isSome) ∧
    (reads1 neverCut (sealBytes 2 0x100000) ∧ sealOpen (seal1 neverCut) 2 ∧ cutOf (seal1 neverCut) 2 = none ∧
      (seal1 neverCut).sealable = []) := by decide +kernel

/-- A report that no key signs. -/
theorem pkr_unsigned (chain : List Byte) : pkrOk chain (List.replicate 256 0) = false := by
  unfold pkrOk
  split
  · rfl
  · unfold ecdsaOk
    rw [show ofBytesBE (sliceOf (sliceOf (List.replicate 256 (0 : Byte)) 0x90 64) 0 32) = 0 by decide +kernel]
    simp

theorem witness_SealsAndUnseals_unsigned :
    let s := sealWith (sealBytes 2 0x100000) []
    reads1 s (sealBytes 2 0x100000) ∧ sealOpen (seal1 s) 2 ∧ sealStands (seal1 s) ∧ reads3 s (List.replicate 256 0) := by
  decide +kernel

/-- The area of an image of the package has its translation. -/
theorem image_area (s : State) (n : Nat) (hn : n ≤ 2 ^ 24) (hkey : keyState s 1 = .loaded)
    (htlb : s.tlb = [{ holder := .seq 0, ctx := 1, va := 0x20000, leaf := leaf0, used := 2 },
      { holder := .seq 0, ctx := 1, va := 0x40000000, leaf := gib, used := 0 },
      { holder := .cut 2, ctx := 2, va := 0, leaf := gib, used := 0 }])
    (hlat : s.latched = []) (hwf : s.walkFaults = []) (hm : missOf s (.seq 0) = none) :
    ∃ qs, translate s (.seq 0) 1 0 0 0x40080000 n true false false = (touchEntries s (.seq 0) 1 qs, .ok qs) :=
  ⟨_, translate_of_hits s (.seq 0) rfl 1 0 0 0x40080000 n true false false gib hwf hm
    (hits_first_gib s (.seq 0) 1 0x40080000 n true { holder := .seq 0, ctx := 1, va := 0x40000000, leaf := gib, used := 0 }
      (fun a h => by
        unfold entryFor
        rw [htlb, hlat, List.append_nil, List.find?_cons_of_neg (by simp [TlbEntry.covers, leaf0]; omega)]
        exact List.find?_cons_of_pos (by simp [TlbEntry.covers, gib]; omega))
      (by decide) rfl rfl rfl hkey (by omega))⟩

/-- SEAL on an image that stays in its limit and on one that does not, where the chain of one byte ends at the root and has
the key signer: no value of Config.chainKey is known. -/
theorem witness_SealsAndUnseals_seal (hk : Config.chainKey [0xCC] = some signer) (m : BitVec 1) (cut : List Byte)
    (hc : cut.length = 1) :
    let s4 := (sealCut sealing).1
    let n := (buildImage s4 0 (m == 1) sealReq0 pkr0 cut (carriedKeys (seal3 sealing) 0 2)).1.length
    pkrOk [0xCC] pkr0 = true ∧ (carriedKeys (seal3 sealing) 0 2).length ≤ 16 ∧
    512 + 64 * (carriedKeys (seal3 sealing) 0 2).length + 65536 + 1 ≤ 0x100000 ∧
    0x101FF < 512 + 64 * (carriedKeys (seal3 sealing) 0 2).length + 65536 + 1 ∧
    ∃ qs, translate { s4 with freeCtr := s4.freeCtr + 4 } (.seq 0) 1 0 0 (s4.cpu.reg 2).toNat n true false false =
      (touchEntries { s4 with freeCtr := s4.freeCtr + 4 } (.seq 0) 1 qs, .ok qs) := by
  obtain ⟨hks, h2, hkey, -, htlb, hlat, hwf, hm, -⟩ := seal_facts
  have hlen := buildImage_length_le (sealCut sealing).1 0 (m == 1) sealReq0 pkr0 cut (carriedKeys (seal3 sealing) 0 2) (by decide)
  refine ⟨by unfold pkrOk; rw [hk]; exact test_report.2, by omega, by omega, by omega, ?_⟩
  rw [h2]
  generalize (sealCut sealing).1 = s4 at *
  exact image_area { s4 with freeCtr := s4.freeCtr + 4 } _ (by omega) hkey htlb hlat hwf hm

/-- A leaf's key slot is among those of its table, and those of a table among those of the table above it. -/
theorem mem_leafKeys_leaf (s : State) (pk fuel l tbl i : Nat) (hi : i < levelEntries l)
    (hv : bit (readWord s pk (tbl + 8 * i)) 63 = true) (ha : inArrays (bits (readWord s pk (tbl + 8 * i)) 47 16 * 65536) = false) :
    bits (readWord s pk (tbl + 8 * i)) 15 4 ∈ leafKeys s pk (fuel + 1) l tbl true :=
  List.mem_flatMap.2 ⟨i, List.mem_range.2 hi, by simp [hv, ha]⟩

theorem mem_leafKeys_table (s : State) (pk fuel l tbl i k : Nat) (e : Word) (nxt lg : Nat) (he : readWord s pk (tbl + 8 * i) = e)
    (hi : i < levelEntries l ∧ bit e 63 = true ∧ szAt l (bits e 59 58) = some lg ∧ bits e 47 8 * 256 = nxt ∧ tableOk (l + 1) nxt = true)
    (hk : k ∈ leafKeys s pk fuel (l + 1) nxt (lg != 0)) : k ∈ leafKeys s pk (fuel + 1) l tbl false :=
  List.mem_flatMap.2 <| by
  obtain ⟨hi, hv, hz, hn, ht⟩ := hi
  exact ⟨i, List.mem_range.2 hi, by simpa [he, hv, hz, hn, ht] using hk⟩

theorem mem_sortBy {α : Type} (le : α → α → Bool) (x : α) (l : List α) (h : x ∈ l) : x ∈ sortBy le l := by
  unfold sortBy
  induction l with
  | nil => exact h
  | cons y t ih =>
    rw [List.foldr_cons, List.mem_append, List.mem_cons, or_left_comm, ← List.mem_append, List.takeWhile_append_dropWhile]
    exact (List.mem_cons.1 h).imp id ih

/-- The package whose context 2 has a table with leaves under the key slots 1 to 17. -/
def manyKeys : State :=
  { sealing with
    lineTags := [0x201, 0x400, 0x600, 0x620, 0x640, 0x641].map fun l => { line := l, key := 77, epoch := 0 }
    mem := ((0x10080, (0x8000000000020010 : Word)) :: (0x20000, 0x8000000000030000) :: (0x30000, 0x8000000000031000) ::
      (0x31000, 0x8400000000032000) :: (List.range 17).map fun k => (0x32000 + 8 * k, BitVec.ofNat 64 (2 ^ 63 + 0x50000 + 16 * (k + 1)))).foldl
        (fun m x => memPutAll m x.1 (toBytes 8 x.2.toNat)) sealing.mem }

theorem many_reads : reads1 manyKeys (sealBytes 2 0x100000) ∧ sealOpen (seal1 manyKeys) 2 ∧ sealStands (seal1 manyKeys) ∧
    reads3 manyKeys pkr0 := by decide +kernel

theorem many_tables :
    let s := seal3 manyKeys
    descWord s 0 2 0 = 0x8000000000020010 ∧ readWord s 1 0x20000 = 0x8000000000030000 ∧
    readWord s 1 0x30000 = 0x8000000000031000 ∧ readWord s 1 0x31000 = 0x8400000000032000 ∧
    (∀ k ∈ List.range 17, readWord s 1 (0x32000 + 8 * k) = BitVec.ofNat 64 (2 ^ 63 + 0x50000 + 16 * (k + 1))) := by decide +kernel

theorem many_of_range {l : List Nat} (h : ∀ k ∈ List.range 17, k + 1 ∈ l) : 16 < l.length := by
  have sub : (List.range 17).map (· + 1) ⊆ l := fun x hx => by
    obtain ⟨k, hk, rfl⟩ := List.mem_map.1 hx
    exact h k hk
  have := ((by decide : ((List.range 17).map (· + 1)).Nodup).subperm sub).length_le
  simp only [List.length_map, List.length_range] at this
  omega

theorem many_leaves : ∀ k ∈ List.range 17, bit (BitVec.ofNat 64 (2 ^ 63 + 0x50000 + 16 * (k + 1))) 63 = true ∧
    inArrays (bits (BitVec.ofNat 64 (2 ^ 63 + 0x50000 + 16 * (k + 1))) 47 16 * 65536) = false ∧
    bits (BitVec.ofNat 64 (2 ^ 63 + 0x50000 + 16 * (k + 1))) 15 4 = k + 1 ∧ k < levelEntries 3 := by decide

theorem mem_leafKeys_many (s : State) (h1 : readWord s 1 0x20000 = 0x8000000000030000) (h2 : readWord s 1 0x30000 = 0x8000000000031000)
    (h3 : readWord s 1 0x31000 = 0x8400000000032000)
    (h4 : ∀ k ∈ List.range 17, readWord s 1 (0x32000 + 8 * k) = BitVec.ofNat 64 (2 ^ 63 + 0x50000 + 16 * (k + 1)))
    (k : Nat) (hk : k ∈ List.range 17) : k + 1 ∈ leafKeys s 1 4 0 0x20000 false :=
  mem_leafKeys_table _ 1 3 0 0x20000 0 _ _ 0x30000 0 h1 (by decide)
  (mem_leafKeys_table _ 1 2 1 0x30000 0 _ _ 0x31000 0 h2 (by decide)
  (mem_leafKeys_table _ 1 1 2 0x31000 0 _ _ 0x32000 16 h3 (by decide) (by
    obtain ⟨b1, b2, b3, b4⟩ := many_leaves k hk
    have := mem_leafKeys_leaf s 1 0 3 0x32000 k b4 (by rw [h4 k hk]; exact b1) (by rw [h4 k hk]; exact b2)
    rwa [h4 k hk, b3] at this)))

theorem mem_carriedKeys_many (s : State) (h0 : descWord s 0 2 0 = 0x8000000000020010) (k : Nat)
    (h : k ∈ leafKeys s 1 4 0 0x20000 false) : k ∈ carriedKeys s 0 2 := by
  have b1 : bits (0x8000000000020010 : Word) 47 16 * 65536 = 0x20000 := by decide
  have b2 : bits (0x8000000000020010 : Word) 15 4 = 1 := by decide
  have b3 : (bit (0x8000000000020010 : Word) 63 && tableOk 0 0x20000) = true := by decide
  unfold carriedKeys
  simp only [h0, b1, b2, b3, if_true]
  exact mem_sortBy _ _ _ (List.mem_eraseDups.2 (List.mem_append_right _ h))

theorem witness_SealsAndUnseals_many_keys : 16 < (carriedKeys (seal3 manyKeys) 0 2).length :=
  many_of_range fun k hk => mem_carriedKeys_many _ many_tables.1 _
    (mem_leafKeys_many _ many_tables.2.1 many_tables.2.2.1 many_tables.2.2.2.1 many_tables.2.2.2.2 k hk)
/-- An image header for the identity of the private key 1, whose seal key is 1 too: of no body, for a counter 5 at a
value, with its two tags, and a magic. -/
def header (magic val tag1 tag2 : Nat) : List Byte :=
  toBytes 4 magic ++ toBytes 2 1 ++ toBytes 2 0 ++ toBytes 2 5 ++ toBytes 2 1 ++ toBytes 4 5 ++ toBytes 8 val ++
  toBytes 24 0 ++ toBytes 96 0 ++
  toBytesBE 32 97907811278191982235302962885333371635414970209241257599998103047552781061535 ++ toBytes 32 0 ++
  pubBytes p256g ++ toBytes 32 0 ++ toBytesBE 16 tag1 ++ toBytes 12 0 ++ toBytes 2 1 ++ toBytes 162 0 ++ toBytesBE 16 tag2

/-- The same with its magic and the tags of an image at a counter value of 7, and of one at 2^64 - 1. -/
def header7 : List Byte := header 0x4C505250 7 205415783706126467490078123892477283880 277845218996249050784234375253264560508
def headerMax : List Byte :=
  header 0x4C505250 (2 ^ 64 - 1) 227301086191794079679514197202254170087 194577857147734338446389774815801167908

/-- The request of an UNSEAL into context 2, slot 1, and what it holds. -/
def unsealBytes : List Byte := toBytes 2 2 ++ toBytes 2 1 ++ toBytes 12 0 ++ toBytes 32 0 ++ toBytes 2 1 ++ toBytes 78 0
def unsealReq0 : UnsealReq := { ctx := 2, nslot := 1, slots := [1], tmexp := List.replicate 32 0 }

/-- The package with bytes in the array as an UNSEAL meets it, the loads of its request and of its header admitted. -/
def unsealFrom (bytes : List (Nat × List Byte)) : State :=
  paid (paid (inArray 0 0x20200 0x20000 bytes) (.seq 0) 0x20000) (.seq 0) 0x20200

/-- The package with an image at 0x20200 and the request at 0x20000, counter 5 at a value. -/
def unsealing (h : List Byte) (v : Word) : State := { unsealFrom [(0, unsealBytes), (0x200, h)] with counters := [(5, v)] }

/-- A package as an UNSEAL reads its request, looks at its rings, and reads the header and the image of no bytes. -/
def unseal1 (s : State) : State := (seqLoad s unit0 0x20000 128).1
def unsealRings (s : State) : List Queue := partRings (unseal1 s) 0 fun x => x.ctx.toNat == 2
def unseal2 (s : State) : State := (holdRings (unseal1 s) (unsealRings s)).1
def unseal3 (s : State) : State := (seqLoad (unseal2 s) unit0 (s.cpu.reg 1).toNat 512).1
def unseal4 (s : State) : State := (seqLoad (unseal3 s) unit0 ((s.cpu.reg 1).toNat + 512) 0).1
def unsealCut (s : State) : State × Trans := translate (unseal4 s) (.cut 2) 2 0 0 (cutBase (unseal4 s) 0 2) 1 true false false

/-- What it reads: the request; a request that is good, its rings at hand; the header; and the cut area. -/
def opens1 (s : State) (rb : List Byte) : Bool := s.cpu.run == some unit0 && s.cpu.wait == .none && loaded s (seqLoad s unit0 0x20000 128) (· == rb)
def opens2 (s : State) (r : UnsealReq) (held good : Bool) : Bool :=
  (tableFault (unseal1 s) 0 0x20000).isNone && (holdRings (unseal1 s) (unsealRings s)).2 == held && (unseal2 s).seqs == s.seqs &&
  (unseal2 s).cur == s.cur && unsealReqOk (unseal2 s) 0 r (anyRecord (unseal2 s) (unsealRings s) 1) == good
def opens3 (s : State) (h : List Byte) : Bool := loaded (unseal2 s) (seqLoad (unseal2 s) unit0 (s.cpu.reg 1).toNat 512) (· == h)
def opens4 (s : State) : Bool :=
  loaded (unseal3 s) (seqLoad (unseal3 s) unit0 ((s.cpu.reg 1).toNat + 512) 0) (· == []) && mapped (unsealCut s) &&
  (unsealCut s).1.seqs == s.seqs && (unsealCut s).1.cur == s.cur

theorem headers_length : header7.length = 512 ∧ headerMax.length = 512 ∧ (header 0 7 0 0).length = 512 := by decide

/-- The package with the counter at 7. -/
def unsealing7 : State := unsealing header7 7

theorem witness_SealsAndUnseals_unseal_request :
    (handlerReady unsealing7 ∧ ownAccesses unsealing7 unsealing7.cur = [] ∧ (unsealing7.cpu.reg 2).toNat % 64 = 0) ∧
    ownAccesses { unsealing7 with accesses := loading.accesses } 0 ≠ [] ∧ ((put unsealing7 2 0x2003F).cpu.reg 2).toNat % 64 ≠ 0 ∧
    loadFaults unsealing7 (seqLoad unsealing7 unit0 (2 ^ 52) 128) ∧ loadWaits (seqLoad (waiting unsealing7) unit0 0x20000 128) ∧
    (opens1 (unsealFrom [(0, List.replicate 128 255)]) (List.replicate 128 255) ∧ unsealReqOf (List.replicate 128 255) = none) ∧
    (opens1 unsealing7 unsealBytes ∧ unsealReqOf unsealBytes = some unsealReq0) := by
  unfold handlerReady; decide +kernel

/-- The package with no key in slot 1; with a ring of context 2 whose pages must wait; and with a context that runs. -/
def unsealUnkeyed : State := { unsealing7 with keySlots := [] }
def ring2 : Queue := { part := 0, q := 0, qbase := 0x24000, qctl := 0x9000000000000002, head := 0, tail := 1, turn := none }
def unsealWaiting : State :=
  { unsealing7 with
    queues := [ring2]
    arrays := base.arrays ++ [{ ref := { arr0 with index := 5 }, owner := 0, mode := .scratch, busy := false, fromMode := .off, sched := 0 }]
    conversions := [{ ref := { arr0 with index := 5 }, mode := .run, acc := 9, started := false }]
    lineTags := [0x201, 0x400, 0x600, 0x620, 0x640].map fun l => { line := l, key := 77, epoch := 0 }
    mem := [(0x10080, (0x8000000000020010 : Word)), (0x20000, 0x8000000000030000), (0x30000, 0x8000000000031000),
      (0x31000, 0x8400000000032000), (0x32010, 0xC800300000050000)].foldl
        (fun m x => memPutAll m x.1 (toBytes 8 x.2.toNat)) unsealing7.mem }
def unsealBusy : State := { unsealing7 with graphs := [{ graph0 with ctx := 2 }] }

theorem witness_SealsAndUnseals_unseal_good :
    opens2 unsealing7 unsealReq0 true true ∧
    (opens1 unsealUnkeyed unsealBytes ∧ (tableFault (unseal1 unsealUnkeyed) 0 0x20000).isSome) ∧
    (opens1 unsealWaiting unsealBytes ∧ (tableFault (unseal1 unsealWaiting) 0 0x20000).isNone ∧
      (holdRings (unseal1 unsealWaiting) (unsealRings unsealWaiting)).2 = false) ∧
    (opens1 unsealBusy unsealBytes ∧ opens2 unsealBusy unsealReq0 true false) ∧ opens3 unsealing7 header7 ∧ opens4 unsealing7 := by
  decide +kernel
/-- The checks of a header of the right identity. -/
theorem header_checks (hd : Config.deviceKey 0 = 1) (s : State) (h : List Byte) (hs : s.seed = 0)
    (ht : sliceOf h 0x90 32 = sha256 (pubBytes p256g)) (e : Option Nat)
    (he : (if !headerOk h 1 then some 0x04
      else if 4095 < fieldOf h 8 2 || !(partOf s 0).ctrs.getLsbD (fieldOf h 8 2) then some 0x0A
      else if fieldOf h 0x10 8 < (counterOf s (fieldOf h 8 2)).toNat then some 0
      else if (counterOf s (fieldOf h 8 2)).toNat < fieldOf h 0x10 8 then some 0x09
      else if fieldOf h 6 2 / 2 == 1 then some 0x07
      else if sliceOf h 0x30 32 != List.replicate 32 0 then some 0x08
      else (none : Option Nat)) = e) (hp : (fieldOf h 6 2 / 2 == 1) = false) :
    headerFails s 0 h unsealReq0 = e := by
  have hi : ownIdentity s = sha256 (pubBytes p256g) := by
    unfold ownIdentity
    rw [hs, hd, show publicKey 1 = p256g by decide +kernel]
  rw [hp] at he
  unfold headerFails
  rw [hi, ht, hp]
  simpa [unsealReq0] using he

/-- The header of counter value 7 with a seal key that is no point. -/
def headerBad : List Byte := header7.take 0xD0 ++ List.replicate 64 0 ++ header7.drop 0x110

/-- The packages of each header: the counter past it, at it, at the greatest value, and the header malformed. -/
def stale : State := unsealing header7 8
def unsealingMax : State := unsealing headerMax (BitVec.allOnes 64)
def unsealingBad : State := unsealing headerBad 7
def malformed : State := unsealing (header 0 7 0 0) 7

theorem identity_bytes :
    sliceOf header7 0x90 32 = sha256 (pubBytes p256g) ∧ sliceOf headerMax 0x90 32 = sha256 (pubBytes p256g) ∧
    sliceOf headerBad 0x90 32 = sha256 (pubBytes p256g) := by decide +kernel

/-- What each of them reads before the header is judged. -/
def opensTo (s : State) (h : List Byte) : Bool := opens1 s unsealBytes && opens2 s unsealReq0 true true && opens3 s h && (unseal3 s).seed == 0

theorem stale_read : opensTo stale header7 := by decide +kernel

theorem max_read : opensTo unsealingMax headerMax := by decide +kernel

theorem bad_read : opensTo unsealingBad headerBad := by decide +kernel

theorem malformed_read :
    opensTo malformed (header 0 7 0 0) ∧ headerFails (unseal3 malformed) 0 (header 0 7 0 0) unsealReq0 = some 4 := by decide +kernel

theorem unseals_read : opensTo stale header7 ∧ opensTo unsealingMax headerMax ∧ opensTo unsealingBad headerBad ∧
    opensTo malformed (header 0 7 0 0) ∧ headerFails (unseal3 malformed) 0 (header 0 7 0 0) unsealReq0 = some 4 :=
  ⟨stale_read, max_read, bad_read, malformed_read⟩

/-- Where the device key is 1, which no value of Config excludes: the header of a counter at 8 is STALE, that of a counter at
7 holds, and so do that of a counter at 2^64 - 1 and the one with a bad seal key. -/
theorem unseal_headers (hd : Config.deviceKey 0 = 1) :
    headerFails (unseal3 stale) 0 header7 unsealReq0 = some 0 ∧ headerFails (unseal3 unsealing7) 0 header7 unsealReq0 = none ∧
    headerFails (unseal3 unsealingMax) 0 headerMax unsealReq0 = none ∧
    headerFails (unseal3 unsealingBad) 0 headerBad unsealReq0 = none :=
  ⟨header_checks hd _ _ (by decide +kernel) identity_bytes.1 _ (by decide +kernel) (by decide +kernel),
    header_checks hd _ _ (by decide +kernel) identity_bytes.1 _ (by decide +kernel) (by decide +kernel),
    header_checks hd _ _ (by decide +kernel) identity_bytes.2.1 _ (by decide +kernel) (by decide +kernel),
    header_checks hd _ _ (by decide +kernel) identity_bytes.2.2 _ (by decide +kernel) (by decide +kernel)⟩

/-- A body of no bytes opens under the seal key 1. -/
theorem opens (hk : Config.sealKey 0 = 1) (s : State) (h : List Byte) (hs : s.seed = 0) (he : sliceOf h 0xD0 64 = pubBytes p256g)
    (h1 : gcmTagOf (sha256 (toBytesBE 32 p256g.1 ++ h.take 0x110)) (toBytes 12 0) [] (sliceOf h 0x110 32) = sliceOf h 0x130 16)
    (h2 : gcmTagOf (gcmCrypt (sha256 (toBytesBE 32 p256g.1 ++ h.take 0x110)) (toBytes 12 0) (sliceOf h 0x110 32)) (sliceOf h 0x140 12)
      (h.take 0x1F0) [] = sliceOf h 0x1F0 16) : openBody s h [] = some [] := by
  have hz : ecdh 1 (pubBytes p256g) = some (toBytesBE 32 p256g.1) := by decide +kernel
  unfold openBody
  rw [hs, hk, he, hz]
  simp only [h1, h2, bne_self_eq_false, Bool.false_eq_true, if_false]
  rfl

theorem tags7 :
    sliceOf header7 0xD0 64 = pubBytes p256g ∧
    gcmTagOf (sha256 (toBytesBE 32 p256g.1 ++ header7.take 0x110)) (toBytes 12 0) [] (sliceOf header7 0x110 32)
      = sliceOf header7 0x130 16 := by decide +kernel

theorem tags7_body :
    gcmTagOf (gcmCrypt (sha256 (toBytesBE 32 p256g.1 ++ header7.take 0x110)) (toBytes 12 0) (sliceOf header7 0x110 32))
      (sliceOf header7 0x140 12) (header7.take 0x1F0) [] = sliceOf header7 0x1F0 16 := by decide +kernel

theorem tagsMax :
    sliceOf headerMax 0xD0 64 = pubBytes p256g ∧
    gcmTagOf (sha256 (toBytesBE 32 p256g.1 ++ headerMax.take 0x110)) (toBytes 12 0) [] (sliceOf headerMax 0x110 32)
      = sliceOf headerMax 0x130 16 ∧
    gcmTagOf (gcmCrypt (sha256 (toBytesBE 32 p256g.1 ++ headerMax.take 0x110)) (toBytes 12 0) (sliceOf headerMax 0x110 32))
      (sliceOf headerMax 0x140 12) (headerMax.take 0x1F0) [] = sliceOf headerMax 0x1F0 16 := by decide +kernel

/-- UNSEAL on a body that opens under the seal key 1, with a counter that is counted up and with one that cannot be, and on
one that opens under no key. -/
theorem witness_SealsAndUnseals_unseal (hk : Config.sealKey 0 = 1) :
    (opens4 unsealing7 ∧ openBody (unsealCut unsealing7).1 header7 [] = some [] ∧ fieldOf header7 0x20 8 = 0 ∧
      fieldOf header7 0x10 8 < 2 ^ 64 - 1) ∧
    (opens4 unsealingMax ∧ openBody (unsealCut unsealingMax).1 headerMax [] = some [] ∧ fieldOf headerMax 0x20 8 = 0 ∧
      fieldOf headerMax 0x10 8 = 2 ^ 64 - 1) ∧
    (opens4 unsealingBad ∧ openBody (unsealCut unsealingBad).1 headerBad [] = none ∧ fieldOf headerBad 0x20 8 = 0) := by
  have hf : opens4 unsealingMax ∧ opens4 unsealingBad ∧ fieldOf header7 0x20 8 = 0 ∧ fieldOf headerMax 0x20 8 = 0 ∧
      fieldOf headerBad 0x20 8 = 0 ∧ fieldOf header7 0x10 8 < 2 ^ 64 - 1 ∧ fieldOf headerMax 0x10 8 = 2 ^ 64 - 1 ∧
      (unsealCut unsealing7).1.seed = 0 ∧ (unsealCut unsealingMax).1.seed = 0 := by decide +kernel
  obtain ⟨o2, o3, f1, f2, f3, v1, v2, s1, s2⟩ := hf
  have hz : ∀ d, ecdh d (sliceOf headerBad 0xD0 64) = none := fun d => by
    have hc : onCurve (ofBytesBE (sliceOf (sliceOf headerBad 0xD0 64) 0 32))
      (ofBytesBE (sliceOf (sliceOf headerBad 0xD0 64) 32 32)) = false := by decide +kernel
    unfold ecdh
    simp only [hc, Bool.false_eq_true, if_false]
  refine ⟨⟨witness_SealsAndUnseals_unseal_good.2.2.2.2.2, opens hk _ _ s1 tags7.1 tags7.2 tags7_body, f1, v1⟩,
    ⟨o2, opens hk _ _ s2 tagsMax.1 tagsMax.2.1 tagsMax.2.2, f2, v2⟩, o3, ?_, f3⟩
  unfold openBody
  rw [hz]

/-- An UNSEAL that waits for the graphs of a restore. -/
def unsealWaits (gs : List Graph) : State :=
  { base.updCpu (fun c => { c with wait := .unsealing 2 8 }) with
    restores := [{ ctx := 2, part := 0, die := 0, saved := saved0, graphs := gs, units := [], placed := [] }] }

theorem witness_SealsAndUnseals_waiting :
    (unsealWaits []).cpu.run = some unit0 ∧ (unsealWaits []).cpu.wait = .unsealing 2 8 ∧
    (restoreOf (unsealWaits []) 2).any (fun r => r.graphs == []) ∧ (restoreOf (unsealWaits [graph0]) 2).any fun r => r.graphs == [graph0] := by
  decide +kernel

theorem test_seals :
    after (.seal 3 1 2 0) (two 0x20004 0x40080000) (fun t => t.cpu.ecode == 0x05) ∧
    after (.unseal 3 1 2) (two 0x20000 0x20001) (fun t => t.cpu.ecode == 0x05) := by decide +kernel

/-! ## More of the fabric -/

/-- A firing of the site satisfies a test. -/
def firing (s : State) (op : Nat) (e : EWord) (p : Firing → State → Bool) : Bool :=
  (firingAt s s.site op e).any fun f => modeOf f.heads == .fire && p f (ensureInstance s f)

/-- The request ports have admitted the loads of the site at 0x20008 and 0x2000C. -/
def admitted (s : State) : State :=
  paid (paid s (holderAt { die := 0, id := 0 }) 0x20008) (holderAt { die := 0, id := 0 }) 0x2000C

/-- The fabric with an address on a whose loads the ports have admitted; with its page to wait; with a leaf that the L2 may hold; in a tile with a block whose
instance has something. -/
def fabM : State := admitted (fab 0x20008 1 2)
def fabLost : State := fab (2 ^ 52) 1 2
def fabL2 : State :=
  { fab 0x20008 1 2 with
    tlb := [{ holder := .agn { die := 0, x := 0, y := 0, str := 0 }, ctx := 1, va := 0x20000
              leaf := { leaf0 with frame := 0x50000, la := true, key := 1 }, used := 0 }] }
def fabIn (i : Instance) : State :=
  { fabM with
    nodes := [{ nodeWith 0 [0x5800000000000000, 0x5B00000000000000] with store := [held .a 0 0x20008, held .b 1 1, held .c 2 2], arrivals := 3 }]
    instances := [i] }
def openHere (exc : Bool) : Instance := newInstance { node := { die := 0, id := 0 }, key := key0 } 1 exc

/-- The fabric where an earlier wave of the key's loop runs, and where moreover the graph has a row read in the quad. -/
def later (s : State) : State := { s with graphs := [{ graph0 with pool := [wave 3 0 1 0, wave 3 5 0 1] }] }
def behind (s : State) : State := { later s with nodes := s.nodes ++ [nodeWith 5120 [0xA200000000000004]] }

/-- What a firing of a word reaches in its lanes: nothing yet; places of which none faults; and a fault. -/
def lanes (s : State) (op : Nat) (e : EWord) (k : Nat) (write : Bool) (vas : Firing → List Nat) (p : Option (List Reached) → Bool) : Bool :=
  firing s op e fun f s1 => !excepted s1 f && p (reachLanes f k write s1 (vas f)).2

/-- The four words that reach lanes: opcode, word, width, whether they write, and their addresses. -/
def laneWords : List (Nat × EWord × Nat × Bool × (Firing → List Nat)) :=
  [(0x70, ew 0 3 0, 8, false, fun f => [f.va]), (0x71, ew 0 3 0, 8, true, fun f => [f.va]),
   (0x72, ew 2 0 0, 4, false, laneVas), (0x73, ew 2 0 0, 4, true, laneVas)]

theorem witness_ElementMemory_lanes :
    (laneWords.all fun x =>
      lanes fabM x.1 x.2.1 x.2.2.1 x.2.2.2.1 x.2.2.2.2 (fun r => r.any fun xs => (lowestReached xs).isNone) &&
      lanes (fabIn (openHere false)) x.1 x.2.1 x.2.2.1 x.2.2.2.1 x.2.2.2.2 (fun r => r.any fun xs => (lowestReached xs).isNone) &&
      lanes (waiting fabM) x.1 x.2.1 x.2.2.1 x.2.2.2.1 x.2.2.2.2 Option.isNone &&
      lanes fabLost x.1 x.2.1 x.2.2.1 x.2.2.2.1 x.2.2.2.2 (fun r => r.any fun xs => (lowestReached xs).isSome) &&
      firing (fabIn (openHere true)) x.1 x.2.1 (fun f s1 => excepted s1 f && hasBlock s1 f.n.ref)) = true := by decide +kernel

/-- A word that acts itself, up to its translation: nothing logged, aligned, no place of its slot in the ring, and its wave's
turn; what it is given by its page; and whether it stands behind rows. -/
def directly (s : State) (op : Nat) (e : EWord) (n : Nat) (write atomic : Bool) (p : State × Trans → Bool) (rows : Bool) : Bool :=
  firing s op e fun f s1 =>
    !excepted s1 f && (loggedValue s1 f).isNone && f.va % n == 0 && !scPending s1 f.n.ref f.slot &&
    (e.x.toNat / 32 % 8 != 4 || waveFirst f.g f.key.iter) &&
    match f.translate s1 f.va n write atomic with
    | (s2, .ok ps) => p (s2, .ok ps) && behindRows s2 f ps == rows
    | r => p r && !rows

/-- The words that act themselves: LDE.sc, STE.sc and AMOE, this one without .sc. -/
def directWords : List (Nat × EWord × Bool × Bool) :=
  [(0x70, ew 0 3 0x80, false, false), (0x71, ew 0 3 0x80, true, false), (0x74, ew 0 0 0, true, true)]

/-- A place of slot 0 in the ring. -/
def inRing : State :=
  { fabM with accesses := loading.accesses.map fun a => { a with elem := some { node := { die := 0, id := 0 }, slot := 0, key := key0, seq := 0 } } }

/-- A fault of the walks of its stream. -/
def walkFaulted (s : State) (va : Nat) : State :=
  { s with walkFaults := [{ holder := holderAt { die := 0, id := 0 }
                            info := { cause := 2, addr := va, level := 3, write := false, atomic := false, key := 0 } }] }

theorem witness_ElementMemory_direct :
    (directWords.all fun x =>
      directly fabM x.1 x.2.1 8 x.2.2.1 x.2.2.2 mapped false && directly (waiting fabM) x.1 x.2.1 8 x.2.2.1 x.2.2.2 (fun r => r.2 == .wait) false &&
      directly (walkFaulted fabM 0x20008) x.1 x.2.1 8 x.2.2.1 x.2.2.2 refused false && firing (fabIn (openHere true)) x.1 x.2.1 (fun f s1 => excepted s1 f) &&
      firing (fabIn { openHere false with ahead := [(0, 0, 9)] }) x.1 x.2.1 (fun f s1 => !excepted s1 f && loggedValue s1 f == some 9) &&
      firing (fab 0x2000F 1 2) x.1 x.2.1 (fun f _ => f.va % 8 != 0) && firing inRing x.1 x.2.1 (fun f s1 => scPending s1 f.n.ref f.slot)) = true ∧
    firing (later fabM) 0x70 (ew 0 3 0x80) (fun f _ => !waveFirst f.g f.key.iter) ∧
    directly (behind (fabIn (openHere false))) 0x74 (ew 0 0 0) 8 true true mapped true := by decide +kernel

/-- What the ports of the die answer a firing's access. -/
def portsAnswer (s : State) (op : Nat) (e : EWord) : Option Bool :=
  (firingAt s s.site op e).bind fun f =>
    match f.translate s f.va 8 true true with
    | (s2, .ok ps) => some (admitLines s2 (holderAt f.n.ref) f.g.ctx f.g.part f.n.ref.die f.va ps).2
    | _ => none

/-- One whole part in an array. -/
def inOnePart (r : State × Trans) : Bool :=
  match r.2 with
  | .ok [p] => p.n == 8 && inArrays p.pa && inArrays (p.pa + 7)
  | _ => false

/-- The same, of a load that the request ports have admitted. -/
def admittedPart (r : State × Trans) : Bool :=
  inOnePart r && r.1.piece == none &&
  (r.1.portReqs.find? fun q => q.holder == holderAt { die := 0, id := 0 } && q.va == 0x20008).any fun q => q.unpaid == []

theorem witness_ElementMemory_ports :
    portsAnswer fabM 0x74 (ew 0 0 0) = some true ∧ portsAnswer fabL2 0x74 (ew 0 0 0) = some false ∧
    directly fabM 0x70 (ew 0 3 0) 8 false false admittedPart false ∧ directly fabM 0x74 (ew 0 0 0) 8 true true inOnePart false ∧
    fabM.partials = [] ∧ hasBlock fabM { die := 0, id := 0 } = false ∧
    firing fabM 0x75 (ew 0 0 0x20) (fun f s1 => !scPending s1 f.n.ref f.slot && !hasBlock s1 f.n.ref) ∧
    firing (fabIn (openHere false)) 0x75 (ew 0 0 0x20) (fun f s1 => !scPending s1 f.n.ref f.slot && hasBlock s1 f.n.ref) := by decide +kernel

theorem test_element_memory :
    lane0 (.lde (ew 0 0 0)) (admitted (fab 0x20008 0 0)) 8 0 ∧
    after (.ste (ew 0 1 0)) (fab 0x20008 0x1234 0) (fun t => t.instances.map (fun i => i.stores.map HeldStore.bytes) == [[[0x34, 0x12]]]) ∧
    after (.stx (ew 2 0 0)) (fab 0x20008 0 0x9) (fun t => t.instances.map (fun i => i.stores.map HeldStore.va) == [List.replicate 8 0x20008]) ∧
    after (.amoe (ew 0 0 0)) (admitted (fab 0x20008 5 0)) (fun t => readMem t 0 (arrayPa arr0 + 8) 2 == [5, 0] && sent t == [0]) ∧
    lane0 (.fencee (ew 0 0 0x20)) (fab 6 0 0) 64 6 ∧ lane0 (.ldx (ew 2 0 0)) (admitted (fab 0x20008 0 0)) 32 0 := by decide +kernel

/-- A T8 tensor without scale, and the same with an amax cell at 0x20040 of the array. -/
def tenT8 : Tensor := BitVec.ofNat 512 (0x20080 + 0x0100002C * 2 ^ 64 + (31 + 31 * 65536) * 2 ^ 128)
def tenAmax : Tensor := BitVec.ofNat 512 (0x20080 + 0x0100002C * 2 ^ 64 + (31 + 31 * 65536) * 2 ^ 128 + 0x20040 * 2 ^ 448)

/-- The fabric with tensor 5 of context 1. -/
def fabT (t : Tensor) (a b c : Payload) : State := { fab a b c with tensors := [((1, 5), t)] }

/-- What QNT is given by the page of its amax cell. -/
def amaxCell (s : State) (f : Firing) (t : Tensor) (p : State × Trans → Bool) : Bool :=
  tAmax t != 0 && !excepted s f && p (translate s (holderAt f.n.ref) f.g.ctx f.g.part f.n.ref.die (tAmax t) 8 true true false)

/-- A firing of QNT with its tensor. -/
def quantizes (s : State) (p : State → Firing → Tensor → Bool) : Bool :=
  firing s 0x82 (ew 8 0 5) fun f s1 => (converterTensor s1 f).any (p s1 f)

theorem witness_Converters :
    firing (fab 1 2 3) 0x80 (ew 8 0 0xA) (fun _ _ => true) ∧ firing (fab 1 2 3) 0x80 (ew 10 0 8) (fun _ _ => true) ∧
    tyWidth 8 < tyWidth 0xA ∧ firing (fab 1 2 3) 0x81 (ew 8 0 5) (fun f s => (converterTensor s f).isNone) ∧
    firing (fabT tenT8 1 2 3) 0x81 (ew 8 0 5) (fun f s => (converterTensor s f).isSome) ∧
    firing (fabT tenT8 1 2 3) 0x81 (ew 8 12 5) (fun f s => (converterTensor s f).isSome) ∧
    firing (fab 1 2 3) 0x82 (ew 8 0 5) (fun f s => (converterTensor s f).isNone) ∧
    quantizes (fabT tenT8 1 2 3) (fun _ _ t => tAmax t == 0) ∧ quantizes (fabT tenAmax 1 2 3) (fun s f t => amaxCell s f t mapped) ∧
    quantizes (waiting (fabT tenAmax 1 2 3)) (fun s f t => amaxCell s f t fun r => r.2 == .wait) ∧
    quantizes (walkFaulted (fabT tenAmax 1 2 3) 0x20040) (fun s f t => amaxCell s f t refused) ∧
    quantizes { fabIn (openHere true) with tensors := [((1, 5), tenAmax)] } (fun s f t => tAmax t != 0 && excepted s f) := by
  decide +kernel

/-- A T8 and a T6 entry, with a scale mode. -/
def taperEntry (fmt smode : Nat) : Tensor := BitVec.ofNat 512 ((fmt + smode * 2 ^ 8 + 2 ^ 24) * 2 ^ 64 + 0x3F800000 * 2 ^ 96)

/-- What the codes of a block with a block exponent, and without one, ask. -/
theorem witness_Converters_codes :
    (∀ fmt ∈ [12, 13], ∀ smode ∈ [1, 2],
      tFmt (taperEntry fmt smode) = fmt ∧ tSmode (taperEntry fmt smode) = smode ∧
      (tScale (taperEntry fmt smode) matches .fin false (_ + 1) _) ∧
      (convBlock (taperEntry fmt smode) [.fin false 3 (-200), .inf true, .fin true 3 5]).codes.all (fun c => c != 128 && (fmt = 12 || c != 32)) ∧
      (convBlock (taperEntry fmt smode) [.nan, .fin false 3 0]).codes.any fun c => c == 128 || c == 32) ∧
    (convBlock (taperEntry 12 2) [.fin false 3 5, .fin true 1 0]).exp = -5 ∧ (convBlock (taperEntry 12 2) [.fin false 1 300]).exp = 127 ∧
    (convBlock (taperEntry 13 2) [.fin false 1 (-300)]).exp = -128 ∧ (convBlock (taperEntry 12 2) [.fin false 0 300]).exp = 0 := by
  decide +kernel

theorem test_converters :
    lane0 (.cvt (ew 8 0 0xA)) (fab 0x3C00 0 0) 32 0x3F800000 ∧
    after (.cvts (ew 8 4 5)) (fabT tenT8 0x3C00 0 0) (fun t => (sent t).length == 1) ∧
    after (.qnt (ew 8 0 5)) (fabT tenAmax 0x3C00 0 0) (fun t => (sent t).length == 1 &&
      readMem t 0 (arrayPa arr0 + 0x40) 4 == [0, 0, 0x80, 0x3F]) := by decide +kernel
/-! ## Islands and combs -/

/-- A BF16 tensor of one element at 0x20000. -/
def tenB : Tensor := BitVec.ofNat 512 (0x20000 + 0x01000019 * 2 ^ 64)

/-- An open tile of the key. -/
def tile0 : AccTile :=
  { id := 0, acc := 0, key := key0, a64 := false, redone := false, cancelled := false, n := 0, bnd := 0, vals := List.replicate 1024 0
    startBnd := 0, source := none, ents := [], log := [] }

/-- The tokens of a slot at another node. -/
def heldAt (id slot : Nat) (o : Opd) (arr : Nat) (p : Payload) : Held :=
  { held o arr p with slot := slot, src := .slot { die := 0, id := id } 1 0 }

/-- Island 0 with a word in slot 0, descriptors of tensor 5 on operands a and b, tiles, and its translations; its loads are admitted. -/
def isle (w : BitVec 64) (tiles : List AccTile) : State :=
  { [0, 1, 2].foldl (fun s p => paid s (.island { die := 0, id := 6144 } p) 0x20000) working with
    site := { node := { die := 0, id := 6144 }, slot := 0, key := key0 }
    tensors := [((1, 5), tenB)]
    tlb := [0, 1, 2].map fun p => { holder := .island { die := 0, id := 6144 } p, ctx := 1, va := 0x20000, leaf := leaf0, used := 0 }
    nodes := [{ nodeWith 6144 [w] with store := [heldAt 6144 0 .a 0 5, heldAt 6144 0 .b 1 5], arrivals := 2, tiles := tiles }] }

/-- An island word of a mode. -/
def iw (md : Nat) : EWord := { ty := 0, mod := BitVec.ofNat 4 md, t0 := 0, t1 := 0, x := 0 }

/-- How a fetch ended: with what it fetched, waiting, or with a fault. -/
def fetched {α : Type} (r : State × Fetched α) : Bool :=
  match r.2 with
  | .ok _ => true
  | _ => false
def fetchWaits {α : Type} (r : State × Fetched α) : Bool :=
  match r.2 with
  | .wait => true
  | _ => false
def fetchFaults {α : Type} (r : State × Fetched α) : Bool :=
  match r.2 with
  | .fault _ => true
  | _ => false

/-- A fault of the walks of a port of the island. -/
def portFaulted (s : State) (port : Nat) : State :=
  { s with walkFaults := [{ holder := .island { die := 0, id := 6144 } port
                            info := { cause := 2, addr := 0x20000, level := 3, write := false, atomic := false, key := 0 } }] }

/-- An island command at its site with its heads, and a test of its firing. -/
def commanded (s : State) (op : Nat) (e : EWord) (m : Mode) (p : Firing → Bool) : Bool :=
  (islandAt s s.site op e).any fun f0 =>
    let hs := headsOf f0.n f0.slot op e f0.key
    !(f0.n.dead.contains f0.key && !(keyTokens f0).isEmpty) && hs.length == (slotWaits f0.n f0.slot op e).length && modeOf hs == m &&
    p { f0 with heads := hs }

/-- Whether a descriptor names the tensor. -/
def namedTile (s : State) (f : Firing) (d : Payload) (count : Bool) : Bool :=
  let t := tensorOf s f.g.ctx (dscTid d)
  !dscBad d count && tileFormat t && namesTile t (dscTile d)

/-- Island 0 with tokens of kinds on a and b of slot 0, and a gate token where the slot is gated. -/
def isleOf (a b : Kind) (p q : Payload) (gate : Option Payload) (tiles : List AccTile) : State :=
  { isle 0 [] with
    nodes := [{ nodeWith 6144 [0] with
      store := [{ heldAt 6144 0 .a 0 p with tok := { key := key0, seq := 0, kind := a, payload := p } },
                { heldAt 6144 0 .b 1 q with tok := { key := key0, seq := 0, kind := b, payload := q } }] ++
               (gate.map fun g => heldAt 6144 0 .g 2 g).toList
      gated := if gate.isSome then [0] else [], arrivals := 3, tiles := tiles }] }

/-- The package with no node; with a node that has no token; and with the tokens of a dead key. -/
def noTokens : State := { isle 0 [] with nodes := [nodeWith 6144 [0]] }
def deadKey : State := { isle 0 [] with nodes := (isle 0 []).nodes.map fun n => { n with dead := [key0] } }

theorem witness_IslandCommands_ends :
    (∀ op ∈ [0x90, 0x91, 0x92, 0x93, 0x94, 0x95],
      islandAt { isle 0 [] with nodes := [] } (isle 0 []).site op (iw 0) = none ∧
      commanded (isleOf .eos .eos 5 5 none [tile0]) op (iw 0) .ends (fun _ => true) ∧
      commanded (isleOf .eeos .eeos 5 5 none [tile0]) op (iw 0) .eeos (fun _ => true) ∧
      commanded (isleOf .eos .eos 5 5 (some 1) [tile0]) op (iw 0) .mixed (fun _ => true) ∧
      commanded (isleOf .data .data 5 5 (some 0) [tile0]) op (iw 0) .quiet (fun _ => true) ∧
      (islandAt noTokens noTokens.site op (iw 0)).any fun f => (headsOf f.n f.slot op (iw 0) f.key).isEmpty) ∧
    (∀ op ∈ [0x90, 0x92, 0x94], (islandAt deadKey deadKey.site op (iw 0)).any fun f =>
      f.n.dead.contains f.key && !(keyTokens f).isEmpty) := by decide +kernel

/-- An opening at an island with no accumulator free. -/
def fullIsle : State := isle 0 ((List.range 16).map fun k => { tile0 with acc := k, key := { key0 with iter := 9 } })

/-- An opening command with no open tile for its key, and the accumulator it takes. -/
def opensAt (s : State) (op : Nat) (m : Mode) (k : Option Nat) (p : Firing → Bool) : Bool :=
  commanded s op (iw 0) m fun f => (tileOf f.n f.key).isNone && freeAcc f.n == k && p f

/-- The same with accumulators 0 to 14 in use. -/
def lastIsle : State := isle 0 ((List.range 15).map fun k => { tile0 with acc := k, key := { key0 with iter := 9 } })

theorem witness_IslandCommands_open :
    (∀ op ∈ [0x91, 0x93],
      opensAt fullIsle op .fire none (fun _ => true) ∧ opensAt lastIsle op .fire (some 15) (fun _ => true) ∧
      opensAt (isle 0 []) op .fire (some 0) (fun _ => true) ∧ opensAt (isleOf .cancel .cancel 5 5 none []) op .cancel (some 0) (fun _ => true) ∧
      commanded (isle 0 [tile0]) op (iw 0) .fire (fun f => tileOf f.n f.key == some tile0)) ∧
    (let load := fun (s : State) (f : Firing) => loadSource false f.opens f (f.pay .a) tenB s
     opensAt (isle 0 []) 0x91 .fire (some 0) (fun f => namedTile (isle 0 []) f (f.pay .a) false && fetched (load (isle 0 []) f)) ∧
     opensAt (isle 0 []) 0x91 .fire (some 0) (fun f => fetchWaits (load (waiting (isle 0 [])) f)) ∧
     opensAt (isle 0 []) 0x91 .fire (some 0) (fun f => fetchFaults (load (portFaulted (isle 0 []) 0) f)) ∧
     opensAt (isleOf .data .data 6 6 none []) 0x91 .fire (some 0) (fun f => !namedTile (isle 0 []) f (f.pay .a) false)) := by decide +kernel

/-- An MMA at its site whose tile has its pair of tokens, and a test of its k-step. -/
def stepsAt (s : State) (e : EWord) (t : AccTile) (p : Firing → KStep → Bool) : Bool :=
  (islandAt s s.site 0x90 e).any fun f0 =>
    let hs := headsOf f0.n f0.slot 0x90 e f0.key
    !(f0.n.dead.contains f0.key && !(keyTokens f0).isEmpty) && modeOf hs != .eeos && modeOf hs != .ends && modeOf hs != .mixed &&
    tileOf f0.n f0.key == some t &&
    (mmaHeads f0 t.n).any fun pair =>
      let f := { f0 with heads := pair }
      let md := if t.cancelled then .cancel else modeOf pair
      p f { a := f.pay .a, b := f.pay .b, bp := e.mod.getLsbD 3, idle := md == .cancel || md == .quiet }

/-- Both operands of a k-step are fetched. -/
def operands (s : State) (f : Firing) (k : KStep) (t : AccTile) : Bool :=
  let ea := tileEntry s f t (dscTid k.a)
  let eb := tileEntry s f t (dscTid k.b)
  !dscBad k.a false && !dscBad k.b false && namesTile ea (dscTile k.a) && namesTile eb (dscTile k.b) && tFmt ea == tFmt eb && tFmt ea == 9 &&
  match fetchOperand false t.id f 0 ea (dscTile k.a) k.bp s with
  | (s2, .ok _) => fetched (fetchOperand false t.id f 1 eb (dscTile k.b) k.bp s2)
  | _ => false

theorem witness_IslandCommands_mma :
    stepsAt (isle 0 [tile0]) (iw 0) tile0 (fun f k => !k.idle && operands (isle 0 [tile0]) f k tile0) ∧
    stepsAt (isle 0 [tile0]) (iw 0) tile0 (fun f k => fetchWaits (nextStep f k tile0 (waiting (isle 0 [tile0])))) ∧
    stepsAt (isle 0 [tile0]) (iw 0) tile0 (fun f k => fetchFaults (nextStep f k tile0 (portFaulted (isle 0 [tile0]) 1))) ∧
    stepsAt (isleOf .data .data 5 6 none [tile0]) (iw 0) tile0 (fun f k => !k.idle && !namedTile (isle 0 []) f k.b false) ∧
    stepsAt (isleOf .data .data 5 5 (some 0) [tile0]) (iw 0) tile0 (fun _ k => k.idle) ∧
    stepsAt (isleOf .cancel .cancel 5 5 none [tile0]) (iw 0) tile0 (fun _ k => k.idle) ∧
    (islandAt (isle 0 [{ tile0 with n := 1 }]) (isle 0 []).site 0x90 (iw 0)).any (fun f => (mmaHeads f 1).isNone) ∧
    (∀ op ∈ [0x92, 0x94], commanded (isle 0 []) op (iw 0) .fire (fun f => (tileOf f.n f.key).isNone)) ∧
    (islandAt (isle 0 []) (isle 0 []).site 0x90 (iw 0)).any (fun f => (tileOf f.n f.key).isNone) := by decide +kernel

/-- A tile that pins its lines again, from its source. -/
def tilePins : AccTile := { tile0 with repin := true, source := some (5, tenB) }

/-- What the pinning of its source gives at an island. -/
def pinsAgain (s : State) (op : Nat) (p : State × Fetched (List FV × Nat) → Bool) : Bool :=
  commanded (isle 0 [tilePins]) op (iw 0) .fire fun f =>
    tileOf f.n f.key == some tilePins && p (loadSource true tilePins.id (if op = 0x90 then { f with heads := [] } else f) 5 tenB s)

theorem witness_IslandCommands_repin :
    (∀ op ∈ [0x90, 0x92], pinsAgain (isle 0 [tilePins]) op fetched ∧ pinsAgain (waiting (isle 0 [tilePins])) op fetchWaits ∧
      pinsAgain (portFaulted (isle 0 [tilePins]) 0) op fetchFaults) ∧ tile0.repin = false ∧ tilePins.log = [] := by decide +kernel

/-- TSTORE or TBOUND with its tile, of as many steps as its descriptor says or not. -/
def storesAt (s : State) (op : Nat) (m : Mode) (t : AccTile) (full : Bool) (p : Firing → Bool) : Bool :=
  commanded s op (iw 0) m fun f => tileOf f.n f.key == some t && (t.n == dscCount (f.pay .a)) == full && p f

/-- The hold of a tile for commit. -/
def holds (t : AccTile) (f : Firing) (s : State) : State × Fetched State :=
  holdTile f t.id tenB 0 (t.vals.map fun v => fdec (accFmt t.a64) v.toNat) t.bnd.toNat (storeWord t) s

/-- The tile with a bound too great for the test of its tensor, in 64 and in 32 bits, and the tensor that tests it. -/
def tileWide (a64 : Bool) : AccTile := { tile0 with bnd := 0x7F800000, a64 := a64, source := some (5, tenB) }
def tenTest : Tensor := BitVec.ofNat 512 (0x20000 + 0x09000019 * 2 ^ 64)
def isleTest (a64 : Bool) : State := { isle 0 [tileWide a64] with tensors := [((1, 5), tenTest)] }

theorem witness_IslandCommands_store :
    (∀ op ∈ [0x92, 0x94],
      storesAt (isle 0 [tile0]) op .fire tile0 true (fun _ => true) ∧
      storesAt (isle 0 [{ tile0 with n := 1 }]) op .fire { tile0 with n := 1 } false (fun _ => true) ∧
      storesAt (isleOf .cancel .cancel 5 5 none [tile0]) op .cancel tile0 true (fun _ => true) ∧
      storesAt (isleOf .data .data 5 5 (some 0) [tile0]) op .quiet tile0 true (fun _ => true)) ∧
    storesAt (isle 0 [{ tile0 with cancelled := true }]) 0x92 .fire { tile0 with cancelled := true } true (fun _ => true) ∧
    storesAt (isleOf .data .data 6 5 none [tile0]) 0x92 .fire tile0 true (fun f => !namedTile (isle 0 []) f (f.pay .a) true) ∧
    storesAt (isle 0 [tile0]) 0x92 .fire tile0 true (fun f => namedTile (isle 0 []) f (f.pay .a) true &&
      fetched (testedTile f tenB tile0 (isle 0 [tile0])) && fetched (holds tile0 f (isle 0 [tile0])) &&
      fetchWaits (holds tile0 f (waiting (isle 0 [tile0]))) && fetchFaults (holds tile0 f (portFaulted (isle 0 [tile0]) 2))) ∧
    storesAt (isleTest true) 0x92 .fire (tileWide true) true (fun f => namedTile (isleTest true) f (f.pay .a) true &&
      fetchFaults (testedTile f tenTest (tileWide true) (isleTest true))) ∧
    storesAt (isleTest false) 0x92 .fire (tileWide false) true (fun f => namedTile (isleTest false) f (f.pay .a) true &&
      fetchWaits (testedTile f tenTest (tileWide false) (waiting (isleTest false)))) := by decide +kernel

theorem witness_IslandCommands_convert :
    commanded (isle 0 []) 0x95 (iw 0) .fire (fun f =>
      let fetch := fun (s : State) => fetchOperand false f.opens f 0 tenB 0 false s
      namedTile (isle 0 []) f (f.pay .a) false && namedTile (isle 0 []) f (f.pay .b) false &&
      fetchWaits (fetch (waiting (isle 0 []))) && fetchFaults (fetch (portFaulted (isle 0 []) 0)) &&
      match fetch (isle 0 []) with
      | (s, .ok x) =>
        let hold := fun (s : State) => holdTile f f.opens tenB 0 x.values x.eps (fun b => BitVec.ofNat 256 b) s
        fetched (hold s) && fetchWaits (hold (waiting s)) && fetchFaults (hold (portFaulted s 2))
      | _ => false) ∧
    commanded (isleOf .data .data 5 6 none []) 0x95 (iw 0) .fire (fun f => !namedTile (isle 0 []) f (f.pay .b) false) ∧
    commanded (isleOf .cancel .cancel 5 5 none []) 0x95 (iw 0) .cancel (fun _ => true) := by decide +kernel
/-- Comb node 5120 with a word in slot 0, a payload on operand a, and its array 0 in a mode; its loads are admitted. -/
def combed (md : ArrayMode) (p : Payload) (more : List Node) : State :=
  { paid working (.agn { die := 0, x := 0, y := 0, str := 3 }) 0x20000 with
    site := { node := { die := 0, id := 5120 }, slot := 0, key := key0 }
    tlb := [{ holder := .agn { die := 0, x := 0, y := 0, str := 3 }, ctx := 1, va := 0x20000, leaf := leaf0, used := 0 }]
    arrays := working.arrays ++ [{ ref := { die := 0, slice := 0, index := 0 }, owner := 0, mode := md, busy := false, fromMode := .off, sched := 0 }]
    nodes := [{ nodeWith 5120 [0] with store := [heldAt 5120 0 .a 0 p], arrivals := 1 }] ++ more }

/-- The same in a tile with a block, an instance of the key open there; and where an earlier wave runs. -/
def combIn (md : ArrayMode) (p : Payload) (exc : Bool) : State :=
  { combed md p [nodeWith 1 [0x5B00000000000000]] with instances := [openHere exc] }

/-- A comb word fires on its array: whether its instance has an exception, whether the array is busy, its mode, and a test. -/
def combAt (s : State) (op md : Nat) (exc busy : Bool) (p : Firing → State → ArrayState → Bool) : Bool :=
  firing s op (iw md) fun f s1 =>
    let a := arrayOf s1 (combArray f.n.ref 0)
    excepted s1 f == exc && a.busy == busy && p f s1 a

/-- Its array stands in one of its modes, and a test holds. -/
def combReady (s : State) (op md : Nat) (modes : List ArrayMode) (p : Firing → State → ArrayState → Bool) : Bool :=
  combAt s op md false false fun f s1 a => modes.contains a.mode && a.owner == f.g.part && p f s1 a

/-- The five words with the modes of their arrays. -/
def combWords : List (Nat × List ArrayMode) :=
  [(0xA0, [.run]), (0xA1, [.load, .run]), (0xA2, [.load, .run]), (0xA3, [.load, .run]), (0xA4, [.cache, .scratch, .load, .run])]

/-- An array being converted, and one of another partition. -/
def combBusy : State :=
  { combed .run 0 [] with
    arrays := working.arrays ++ [{ ref := { die := 0, slice := 0, index := 0 }, owner := 0, mode := .run, busy := true, fromMode := .run, sched := 0 }] }
def combOther : State :=
  { combed .run 0 [] with
    arrays := working.arrays ++ [{ ref := { die := 0, slice := 0, index := 0 }, owner := 1, mode := .run, busy := false, fromMode := .run, sched := 0 }] }

theorem witness_CombWords_array :
    ∀ x ∈ combWords,
      combAt (combIn .run 0 true) x.1 0 true false (fun _ _ _ => true) ∧ combAt combBusy x.1 0 false true (fun _ _ _ => true) ∧
      combAt (combed .off 0 []) x.1 0 false false (fun _ _ a => !x.2.contains a.mode) ∧
      combAt combOther x.1 0 false false (fun f _ a => a.owner != f.g.part) ∧
      combReady (combed .run 0 []) x.1 0 x.2 (fun _ _ _ => true) := by decide +kernel

/-- The package whose row 0 has a bit set that must be zero. -/
def badRow (s : State) : State := { s with mem := memPutAll s.mem (arrayPa { die := 0, slice := 0, index := 0 } + 192) [1] }

theorem witness_CombWords_schedules :
    combReady (combed .run 0 []) 0xA0 0 [.run] (fun f s a => !ringBad s (combArray f.n.ref 0) a.sched) ∧
    combReady (combed .run 0 []) 0xA0 1 [.run] (fun f s a => !ringBad s (combArray f.n.ref 0) a.sched) ∧
    combReady (badRow (combed .run 0 [])) 0xA0 0 [.run] (fun f s a => ringBad s (combArray f.n.ref 0) a.sched) ∧
    combReady (combed .load 0 []) 0xA1 0 [.load, .run] (fun f s _ =>
      decide ((f.pay .a).toNat < 2 ^ 67) && !ringBad s (combArray f.n.ref 0) (((f.pay .a).extractLsb' 0 67).setWidth 200)) ∧
    combReady (combed .load (2 ^ 67) []) 0xA1 0 [.load, .run] (fun f _ _ => decide (2 ^ 67 ≤ (f.pay .a).toNat)) ∧
    combReady (badRow (combed .load 0 [])) 0xA1 0 [.load, .run] (fun f s _ =>
      ringBad s (combArray f.n.ref 0) (((f.pay .a).extractLsb' 0 67).setWidth 200)) ∧
    combReady (combed .cache 0 []) 0xA4 0 [.cache, .scratch, .load, .run] (fun _ _ _ => true) ∧
    combReady (combed .cache (2 ^ 128 - 1) []) 0xA4 1 [.cache, .scratch, .load, .run] (fun f _ _ => decide ((f.pay .a).toNat < 2 ^ 128)) ∧
    combReady (combed .cache (2 ^ 128) []) 0xA4 1 [.cache, .scratch, .load, .run] (fun f _ _ => decide (2 ^ 128 ≤ (f.pay .a).toNat)) := by
  decide +kernel

/-- What CLOADCTX and CSAVECTX are given by their page. -/
def combGets (s : State) (op : Nat) (block : Bool) (p : Option Reached → Bool) : Bool :=
  combReady s op 0 [.load, .run] fun f s1 _ =>
    let a := f.pay .a
    let r := combReach f (a.toNat % 2 ^ 64) (op == 0xA3) s1
    decide (a.toNat < 2 ^ 72) && a.toNat % 8 == 0 && hasBlock r.1 f.n.ref == block && p r.2

/-- They have reached their place; it has no fault. -/
def reachedWell (r : Option Reached) : Bool :=
  match r with
  | some (.bytes _) => true
  | some (.parts _) => true
  | _ => false

/-- The package with a store that the graph has released to the row's quad. -/
def combReleased : State :=
  { combed .run 0x20000 [] with
    instances := [{ newInstance { node := { die := 0, id := 1 }, key := key0 } 1 false with
      exited := true, released := true
      stores := [{ slot := 0, node := { die := 0, id := 1 }, va := 0x30000, spilled := false
                   parts := [{ va := 0x30000, pa := arrayPa { die := 0, slice := 0, index := 1 }, n := 8, leaf := leaf0 }]
                   bytes := List.replicate 8 0, ord := 0, scope := 1, stream := none, row := none }] }] }

/-- The word's row is held, or not, where no block holds the word. -/
def combHeld (s : State) (op : Nat) (held : Bool) : Bool :=
  combReady s op 0 [.load, .run] fun f s1 _ =>
    let r := combReach f ((f.pay .a).toNat % 2 ^ 64) (op == 0xA3) s1
    rowHeld (if op == 0xA3 then s1 else r.1) f (combArray f.n.ref 0) == held && !hasBlock r.1 f.n.ref && reachedWell r.2

theorem witness_CombWords_held :
    ∀ op ∈ [0xA2, 0xA3], combHeld (combed .run 0x20000 []) op false ∧ combHeld combReleased op true := by decide +kernel

theorem witness_CombWords_rows :
    (∀ op ∈ [0xA2, 0xA3],
      combReady (combed .run (2 ^ 72) []) op 0 [.load, .run] (fun f _ _ => decide (2 ^ 72 ≤ (f.pay .a).toNat)) ∧
      combReady (combed .run 0x20007 []) op 0 [.load, .run] (fun f _ _ => (f.pay .a).toNat % 8 != 0) ∧
      combGets (combed .load (0x20000 + 255 * 2 ^ 64) []) op false reachedWell ∧ combGets (combIn .run 0x20000 false) op true reachedWell ∧
      combGets (waiting (combed .run 0x20000 [])) op false Option.isNone ∧
      combGets (combed .run (2 ^ 52) []) op false (fun r => match r with | some (.fault _) => true | _ => false)) ∧
    combReady (later (combIn .run 0x20000 false)) 0xA3 0 [.load, .run] (fun f s1 _ => hasBlock s1 f.n.ref && !waveFirst f.g f.key.iter) ∧
    combReady (combed .run 0x20000 []) 0xA3 0 [.load, .run] (fun _ s1 _ =>
      let x := (arrayOf s1 { die := 0, slice := 0, index := 0 }).sched
      schRing x 0 == 0 && schLen x == 0) := by decide +kernel

/-- A row whose first LUT of level A is one on every input, and whose output map takes that LUT for every output, gives all ones;
they are the new flops of the entry (R351). -/
theorem test_ceval :
    let s := combed .run 0 []
    let t := { s with mem := memPutAll s.mem (arrayPa { die := 0, slice := 0, index := 0 }) (List.replicate 8 0xFF) }
    schFlops (evalAll t { die := 0, slice := 0, index := 0 } 0 [0, 5]).1 0 = 0xFFFF ∧
      (evalAll t { die := 0, slice := 0, index := 0 } 0 [0, 5]).2 = [0xFFFF, 0xFFFF] := by decide +kernel

theorem test_combs :
    after (.cstate (iw 1)) (combed .run 5 []) (fun t => (arrayOf t { die := 0, slice := 0, index := 0 }).sched == 5 <<< 72) ∧
    after (.csched (iw 0)) (combed .load (2 ^ 68) []) (fun t => t.graphs.map (fun g => g.tree.map FRec.code) == [[0x28]]) ∧
    after (.ceval (iw 0)) (combed .scratch 0 []) (fun t => t.graphs.map (fun g => g.tree.map FRec.code) == [[0x21]]) ∧
    after (.cloadctx (iw 0)) (combed .load (0x20000 + 3 * 2 ^ 64) []) (fun t => (t.nodes.headD (nodeWith 0 [])).store.length == 0) ∧
    after (.csavectx (iw 0)) (combed .run 0x20000 []) (fun t => (t.nodes.headD (nodeWith 0 [])).store.length == 0) := by decide +kernel

theorem test_islands :
    after (.tzero (iw 4)) (isle 0 []) (fun t => (t.nodes.headD (nodeWith 0 [])).tiles.map (fun x => (x.acc, x.a64)) == [(0, true)]) ∧
    after (.mma (iw 0)) (isle 0 [tile0]) (fun t => (t.nodes.headD (nodeWith 0 [])).tiles.map AccTile.n == [1]) ∧
    after (.tbound (iw 0)) (isle 0 [tile0]) (fun t => (t.nodes.headD (nodeWith 0 [])).store.length == 1) ∧
    after (.tstore (iw 0)) (isle 0 [tile0]) (fun t => (t.nodes.headD (nodeWith 0 [])).tiles.length == 0 && t.instances.length == 1) := by
  decide +kernel

/-! ## Tokens, commits, walks and pulls -/

/-- Element 0 with a token on output T0 of slot 0 for operand a of slot 1. -/
def emitting : State :=
  { working with nodes := [{ nodeWith 0 [0x5500000080040000, 0x5800000000000000] with
      outs := [{ slot := 0, out := 0, tok := { key := key0, seq := 0, kind := .data, payload := 5 }
                 pend := [{ node := { die := 0, id := 0 }, slot := 1, opd := .a }] }] }] }

/-- That edge and its destination. -/
def edge0 : EdgeSrc := .slot { die := 0, id := 0 } 0 0
def dest0 : Dest := { node := { die := 0, id := 0 }, slot := 1, opd := .a }

/-- A node of one token on that edge, with a key and a kind, and what more it has. -/
def emittingAs (k : Key) (kind : Kind) (f : Node → Node) : State :=
  { emitting with nodes := emitting.nodes.map fun n => f { n with
      outs := [{ slot := 0, out := 0, tok := { key := k, seq := 0, kind := kind, payload := 5 }, pend := [dest0] }] } }

/-- The token of the edge arrives, admitted or not, at a node with a property after it has left its source. -/
def arrives (s : State) (admitted : Bool) (p : State → Token → Node → Graph → Bool) : Bool :=
  creditFor s edge0 dest0 &&
  match takeFromEdge s edge0 dest0 with
  | some (s2, tok) =>
    tileAdmits s2 dest0.node tok.key.ctx == admitted &&
    match nodeOf s2 dest0.node with
    | some n => (graphOfNode s2 n).any fun g => tok.kind.counted && (cutOf s n.ctx).isNone && (edgeGraph s edge0).isSome && p s2 tok n g
    | none => false
  | none => false

/-- A discard entry for operand a of slot 1. -/
def drop1 : Drop := { slot := 1, key := key0, opds := [.a] }

/-- Element 0 with a full store, of which some spilled, and in slot 1 a word that asks for a and b. -/
def stuffed (spilled : Nat) : State :=
  emittingAs key0 .data fun n => { n with
    slots := [0x5500000080040000, 0]
    store := List.replicate 64 (held .b 0 0) ++ List.replicate spilled { held .b 0 0 with spilled := true } }

/-- Whether the store is full, and the token does not make its slot fire. -/
def noFit (s2 : State) (tok : Token) (n : Node) : Bool :=
  let h : Held := { slot := dest0.slot, opd := dest0.opd, tok := tok, src := edge0, arr := n.arrivals, spilled := false }
  let s3 := setNode s2 dest0.node fun n => { n with store := n.store ++ [h], arrivals := n.arrivals + 1 }
  decide (64 ≤ n.store.countP fun h => !h.spilled) && (nodeOf s3 dest0.node).all fun n2 => !canFire s3 n2 dest0.slot tok.key

/-- Island 0 with sixteen tokens of the edge. -/
def noCredit : State :=
  { emitting with nodes := emitting.nodes ++ [{ nodeWith 6144 [0] with store := List.replicate 16 { heldAt 6144 0 .a 0 5 with src := edge0 } }] }

theorem witness_TokensAndCommits_arrival :
    creditFor noCredit edge0 { node := { die := 0, id := 6144 }, slot := 0, opd := .a } = false ∧
    arrives (emittingAs { key0 with ctx := 4095 } .data id) false (fun _ _ _ _ => true) ∧
    arrives (emittingAs key0 .data fun n => { n with sealed := true }) true (fun _ _ n _ => n.sealed) ∧
    arrives (emittingAs key0 .data fun n => { n with slots := [0x5500000080040000, 0xF000000000000000] }) true (fun _ _ n _ =>
      !n.sealed && n.opAt 1 == 0xF0) ∧
    (∀ k ∈ [Kind.data, .eos, .eeos], arrives (emittingAs key0 k fun n => { n with drops := [drop1] }) true (fun _ tok n _ =>
      !n.sealed && n.opAt 1 != 0xF0 && n.drops.find? (fun d => d.slot == 1 && d.key == tok.key && d.opds.contains .a) == some drop1)) ∧
    arrives emitting true (fun _ _ n _ => !n.sealed && n.opAt 1 != 0xF0 && n.drops == [] && n.store.length < 64) ∧
    arrives (stuffed 15) true (fun s2 tok n g => noFit s2 tok n && ovfRoom s2 g.part dest0.node.id tok.key) ∧
    arrives (stuffed 16) true (fun s2 tok n g => noFit s2 tok n && !ovfRoom s2 g.part dest0.node.id tok.key && !hasBlock s2 dest0.node) := by
  decide +kernel

/-- The same in a tile with a block, whose instance of the key is open or not. -/
def inBlock (s : State) (opened : Bool) : State :=
  { s with
    nodes := s.nodes ++ [nodeWith 1 [0x5B00000000000000]]
    instances := if opened then [openHere false] else [] }

theorem witness_TokensAndCommits_dropped :
    ∀ o ∈ [true, false],
      arrives (inBlock (emittingAs key0 .data fun n => { n with slots := [0x5500000080040000, 0xF000000000000000] }) o) true (fun s2 tok n _ =>
        !n.sealed && n.opAt 1 == 0xF0 && hasBlock s2 dest0.node && (openInstance s2 dest0.node tok.key).isSome == o) ∧
      arrives (inBlock (stuffed 16) o) true (fun s2 tok n g => noFit s2 tok n && !ovfRoom s2 g.part dest0.node.id tok.key &&
        hasBlock s2 dest0.node && (openInstance s2 dest0.node tok.key).isSome == o) := by decide +kernel

/-- An arrival at a NOP slot of a block is SMISM, and sets the exception bit of its instance (R330). -/
theorem test_dropped :
    after (.tokenArrival edge0 dest0)
      (inBlock (emittingAs key0 .data fun n => { n with slots := [0x5500000080040000, 0xF000000000000000] }) true) (fun t =>
        t.instances.map (fun i => (i.exc, i.soft)) == [(true, true)] && t.graphs.map (fun g => g.tree.map FRec.code) == [[0x25]]) := by
  decide +kernel

/-- An exited instance of the block of element 0's tile, with its exception bit, and stores. -/
def inst0 (exc : Bool) (stores : List HeldStore) : Instance :=
  { newInstance { node := { die := 0, id := 0 }, key := key0 } 1 exc with exited := true, stores := stores }

/-- A held store of two bytes at 0x20010, translated. -/
def hold0 : HeldStore :=
  { slot := 0, node := { die := 0, id := 0 }, va := 0x20010, spilled := false, parts := [{ va := 0x20010, pa := arrayPa arr0 + 16, n := 2, leaf := leaf0 }]
    bytes := [7, 8], ord := 0, scope := 1, stream := none, row := none, paid := true }

/-- The package with the instance, and a pool of which the instance's iteration is not the first. -/
def exited (i : Instance) (pool : List PoolEntry) : State :=
  { working with graphs := [{ graph0 with pool := pool }], instances := [i] }

/-- The instance of a block to commit, contained or not, with a test. -/
def commits (i : Instance) (pool : List PoolEntry) (p : State → Graph → Bool) : Bool :=
  let s := exited i pool
  let b := i.blk
  s.instances.find? (fun i => i.blk == b && i.exited) == some i && s.instances.count i == 1 &&
  (s.graphs.find? fun g => g.ctx == b.key.ctx && g.handle == i.handle && !g.retired).any fun g =>
    !contained s g b.node b.key.iter && p s g

/-- What the page of the store meets. -/
def bars (s : State) (p : Option (Option FaultInfo) → Bool) : Bool := hold0.parts.all fun x => p (pieceBar s x)

theorem witness_TokensAndCommits_commit :
    commits (inst0 true [hold0]) [] (fun _ _ => true) ∧
    commits (inst0 false [hold0]) [wave 3 0 1 1, wave 3 9 0 0] (fun _ g => !waveFirst g 0) ∧
    commits { inst0 false [hold0] with released := true } [wave 3 0 1 1, wave 3 9 0 0] (fun s _ => bars s Option.isNone) ∧
    commits (inst0 false [hold0]) [] (fun s g => waveFirst g 0 && bars s Option.isNone && bars (waiting s) (· == some none) &&
      bars { s with arrays := [{ ref := arr0, owner := 0, mode := .off, busy := false, fromMode := .off, sched := 0 }] }
        (fun r => match r with | some (some _) => true | _ => false)) ∧
    (hold0.row = none ∧ hold0.isFence = false ∧ hold0.paid = true ∧ hold0.ord = 0 ∧ hold0.parts.map Part.n = [hold0.bytes.length] ∧
      inArrays (arrayPa arr0 + 16) = true ∧ inArrays (arrayPa arr0 + 17) = true) := by decide +kernel

/-- The package where an instance of another tile has read a row of the quad that the store reaches. -/
def rowBefore : State :=
  { exited (inst0 false [hold0]) [] with
    nodes := (exited (inst0 false []) []).nodes ++ [nodeWith 5120 [0xA200000000000004]]
    instances := [inst0 false [hold0], { newInstance { node := { die := 0, id := 9 }, key := key0 } 1 false with
      touched := [{ quad := quadOf arr0, row := true, at_ := 0 }] }] }

theorem witness_TokensAndCommits_behind :
    (rowBefore.graphs.any fun g => commitBehind rowBefore g (inst0 false [hold0]) [hold0] && waveFirst g 0) ∧ bars rowBefore Option.isNone ∧
    ((exited (inst0 false [hold0]) []).graphs.any fun g => !commitBehind (exited (inst0 false [hold0]) []) g (inst0 false [hold0]) [hold0]) ∧
    hold0.done = [] ∧ (inst0 false [hold0]).result = [] ∧ (inst0 false [hold0]).blk ≠ { node := { die := 0, id := 9 }, key := key0 } := by
  decide +kernel

theorem test_commit_behind :
    after (.blockCommit (inst0 false []).blk) rowBefore (fun t => t == rowBefore) := by decide +kernel

theorem test_tokens :
    after (.tokenArrival edge0 dest0) emitting (fun t => (t.nodes.headD (nodeWith 0 [])).store.map (fun h => (h.slot, h.tok.payload)) == [(1, 5)] &&
      (t.nodes.headD (nodeWith 0 [])).outs.length == 0) ∧
    after (.blockCommit (inst0 false []).blk) (exited (inst0 false [hold0]) []) (fun t => t.instances.length == 0 &&
      readMem t 0 (arrayPa arr0 + 16) 2 == [7, 8]) ∧
    after (.blockCommit (inst0 false []).blk) (exited (inst0 true [hold0]) []) (fun t => t.instances.length == 0 &&
      readMem t 0 (arrayPa arr0 + 16) 2 == [0, 0]) := by decide +kernel

/-- A request of sequencer 0 to walk for 0x20000. -/
def walk0 (w : Bool) : WalkReq :=
  { holder := .seq 0, die := 0, ctx := 1, part := 0, va := 0x20000, first := 0x20000, write := w, atomic := false, soft := false }

/-- The package with a walk to serve. -/
def walking (leaf : Word) (more : List (Nat × Word)) (w : Bool) (va : Nat) : State :=
  { tables 1 leaf more with tlb := [], walks := [{ walk0 w with va := va, first := va }] }

/-- What the walk that is served comes to: the cause, or the leaf's causes and whether its bits CW and RM are clear. -/
def walked (s : State) : Option (Nat × List Nat × Bool × Bool) :=
  (walkNext s 0).map fun r =>
    let s1 := { s with walks := s.walks.erase r, walkTurn := upsert (fun t => t.1 == 0) (0, r.part) s.walkTurn }
    match walkFor s1 r with
    | (_, .fault c _ _) => (c, [], false, false)
    | (s2, .leaf _ lg _ pte) => (0, leafCauses s2 r.part lg pte (r.write || r.atomic), bit pte 57, bit pte 58)

/-- A walk that is served reaches a leaf, with a test of what is found there. -/
def reachesLeaf (s : State) (p : State → WalkReq → Nat → Word → Bool) : Bool :=
  (walkNext s 0).any fun r =>
    let s1 := { s with walks := s.walks.erase r, walkTurn := upsert (fun t => t.1 == 0) (0, r.part) s.walkTurn }
    match walkFor s1 r with
    | (s2, .leaf _ lg _ pte) => p s2 r lg pte
    | _ => false

/-- The same with a leaf that permits the walk, its bits RM and CW. -/
def permits (s : State) (rm cw : Bool) (p : State → WalkReq → Word → Bool) : Bool :=
  reachesLeaf s fun s2 r lg pte =>
    leafCauses s2 r.part lg pte (r.write || r.atomic) == [] && bit pte 57 == rm && bit pte 58 == cw && p s2 r pte

theorem witness_WalksAndCopyOnWrite_walk :
    walkNext (tables 1 pte0 []) 0 = none ∧ (tables 1 pte0 []).walks = [] := by decide +kernel

theorem witness_WalksAndCopyOnWrite_causes :
    ([(pte0, false, 2 ^ 39, some (1, [], false, false)), (0x8800000000050030, true, 0x20000, some (0, [2], false, false)),
      (0xC800000000050040, true, 0x20000, some (0, [8], false, false)), (0xC800000000050060, true, 0x20000, some (0, [7], false, false)),
      (0xCC00000000050030, false, 0x20000, some (0, [], false, true))] :
        List (Word × Bool × Nat × Option (Nat × List Nat × Bool × Bool))).all fun x =>
      walked (walking x.1 [(0x20008, 0)] x.2.1 x.2.2.1) == x.2.2.2 := by decide +kernel

theorem witness_WalksAndCopyOnWrite_leaf :
    ([false, true].all fun w => permits (walking pte0 [] w 0x2FFFF) false false fun s r _ =>
      !cowClosing s r && (keyMat s (ptKeyOf s 0 1)).isSome) ∧
    permits (walking 0xCC00000000050030 [] false 0x20000) false true (fun _ _ _ => true) := by decide +kernel

/-- A walk for a write to a leaf with CW, the pool of a frame or none, the holder a sequencer or a stream. -/
def cowWalk (leaf : Word) (frame : Bool) (h : Holder) : State :=
  { tables 1 leaf (if frame then [(0x60008, 1), (0x60080, 0x90000)] else []) with
    tlb := [], walks := [{ walk0 true with holder := h }] }

/-- CWKEY's cause, whether the page to copy lies in an array, and whether the pool has a frame. -/
def cowFinds (s : State) (key : Option Nat) (arr has : Bool) : Bool :=
  permits s false true fun s2 r pte =>
    let pool := poolRing s2 r.part r.ctx
    let frame := bits (readWord s2 (ptKeyOf s2 r.part r.ctx) (pool.base + 128 + 8 * (pool.head.toNat % 2 ^ pool.cap))) 47 16 * 65536
    s2.cows.isEmpty && keyCause s2 r.part (bits (descWord s2 r.part r.ctx 0x10) 15 4) == key &&
    inArrays (bits pte 47 16 * 65536) == arr && decide (4 ≤ pool.cap ∧ pool.cap ≤ 20 ∧ pool.head ≠ pool.tail) == has &&
    (!has || (!inArrays frame && (keyMat s2 (ptKeyOf s2 r.part r.ctx)).isSome))

/-- A stream of element 0. -/
def agn0 : Holder := .agn { die := 0, x := 0, y := 0, str := 0 }

theorem witness_WalksAndCopyOnWrite_begin :
    cowFinds { cowWalk 0xCC00000000050030 false (.seq 0) with keySlots := [slotKey 1 77, slotKey 3 79] } (some 8) false false ∧
    cowFinds (cowWalk 0xCC00300000040000 false (.seq 0)) none true false ∧
    cowFinds (cowWalk 0xCC00000000050030 false (.seq 0)) none false false ∧ cowFinds (cowWalk 0xCC00000000050030 false agn0) none false false ∧
    cowFinds (cowWalk 0xCC00000000050030 true (.seq 0)) none false true := by decide +kernel

/-- A copy-on-write of the page 0x20000 into the frame 0x70000, or waiting at the empty pool, or past its leaf's change. -/
def cow0 (empty : Bool) (closing : Option (List Nat)) : Cow :=
  { req := walk0 true, waiting := [], page := 2, leafPa := 0x32010, old := 0xCC00000000050030, frame := 0x70000, key := 2
    empty := empty, closing := closing }

/-- The package with it, a pool of one frame, and a graph that runs. -/
def cowing (c : Cow) : State :=
  { tables 1 0xCC00000000050030 [(0x60008, 1), (0x60080, 0x90000)] with
    lineTags := [0x200, 0x640, 0xC00, 0xC01].map fun l => { line := l, key := 77, epoch := 0 }
    graphs := working.graphs, nodes := working.nodes, cows := [c] }

/-- The same with an access of the old leaf. -/
def cowUsed (c : Cow) : State :=
  { cowing c with accesses := loading.accesses.map fun a =>
      { a with id := 7, parts := [{ va := 0x20000, pa := 0x50000, n := 8, leaf := { leaf0 with frame := 0x50000, key := 3 } }] } }

/-- Whether the leaf of a copy is as it was, and the causes of the old and the new key. -/
def leafIs (s : State) (same : Bool) (old new : Option Nat) : Bool :=
  match s.cows with
  | [c] =>
    s.cows.find? (fun c => c.req.ctx == 1 && c.page == 2 && !c.empty) == some c && c.closing.isNone &&
    (readWord s (ptKeyOf s 0 1) c.leafPa == c.old) == same && keyCause s 0 (bits c.old 15 4) == old && keyCause s 0 c.key == new &&
    (keyMat s (ptKeyOf s 0 1)).isSome && c.frame % 65536 == 0 && c.frame < 2 ^ 48 && c.leafPa % 8 == 0 && c.leafPa < c.frame
  | _ => false

theorem witness_WalksAndCopyOnWrite_copy :
    leafIs (cowing (cow0 false none)) true none none ∧ usersOf (cowing (cow0 false none)) 1 (some 2) = [] ∧
    leafIs (cowUsed (cow0 false none)) true none none ∧ usersOf (cowUsed (cow0 false none)) 1 (some 2) = [7] ∧
    leafIs { cowing (cow0 false none) with keySlots := [slotKey 1 77, slotKey 2 78] } true (some 8) none ∧
    leafIs { cowing (cow0 false none) with keySlots := [slotKey 1 77, slotKey 3 79] } true none (some 8) ∧
    leafIs (cowing { cow0 false none with old := 0xCC00000000060030 }) false none none ∧
    (let c := cow0 false (some [7])
     ∀ s ∈ [cowing c, cowUsed c], s.cows.find? (fun c => c.req.ctx == 1 && c.page == 2 && !c.empty) = some c) ∧
    (∃ a ∈ (cowUsed (cow0 false (some [7]))).accesses, a.id ∈ [7]) ∧ (cowing (cow0 false (some [7]))).accesses = [] := by
  decide +kernel

/-- A copy whose old or new frame lies in the host window waits for the link. -/
def cowAway (old : Bool) : Cow :=
  if old then { cow0 false none with old := 0xCC00100000000030 } else { cow0 false none with frame := 0x100000000000 }

theorem witness_WalksAndCopyOnWrite_away :
    ∀ o ∈ [true, false],
      (cowing (cowAway o)).cows.find? (fun c => c.req.ctx == 1 && c.page == 2 && !c.empty) = some (cowAway o) ∧
      (cowAway o).closing = none ∧ { cowing (cowAway o) with linkUp := false }.linkUp = false ∧
      (region (bits (cowAway o).old 47 16 * 65536) = .host ∨ region (cowAway o).frame = .host) := by decide +kernel

/-- A failed copy faults and leaves the entry of its holder empty (R65). -/
theorem test_failed_copy :
    after (.cowCopyDone 1 2) { cowing (cow0 false none) with
      keySlots := [slotKey 1 77, slotKey 3 79]
      tlb := [{ holder := .seq 0, ctx := 1, va := 0x20000, leaf := leaf0, used := 0 }] } (fun t =>
        t.tlb == [] && t.cows == [] && t.walkFaults.map (fun w => w.info.cause) == [8]) := by decide +kernel

/-- An empty pool that a copy waits at, with a frame again or not. -/
def refills (s : State) (has : Bool) : Bool :=
  s.cows.find? (fun c => c.req.ctx == 1 && c.page == 2 && c.empty) == s.cows.head? && s.cows.length == 1 &&
  let pool := poolRing s 0 1
  let frame := bits (readWord s (ptKeyOf s 0 1) (pool.base + 128 + 8 * (pool.head.toNat % 2 ^ pool.cap))) 47 16 * 65536
  decide (4 ≤ pool.cap ∧ pool.cap ≤ 20 ∧ pool.head.toNat < pool.tail.toNat) == has &&
  (!has || (!inArrays frame && (keyMat s (ptKeyOf s 0 1)).isSome))

/-- A CWEMPTY to deliver, of an engine of sequencer 0 or of a stream of a graph with no unit; the unit at a boundary or not. -/
def toDeliver (h : Holder) (handler : Bool) : State :=
  { (tables 1 pte0 []).updCpu (fun c => { c with h := handler }) with cwempties := [{ walk0 true with holder := h }] }

/-- What the delivery finds. -/
def delivers (s : State) (p : WalkReq → Bool) : Bool := (s.cwempties.find? fun r => r.ctx == 1 && r.va / 65536 == 2).any p

theorem witness_WalksAndCopyOnWrite_refill :
    refills (cowing (cow0 true none)) true ∧ refills { tables 1 0xCC00000000050030 [] with cows := [cow0 true none] } false ∧
    base.cwempties = [] ∧ delivers (toDeliver agn0 false) (fun r => (cwemptyUnit (toDeliver agn0 false) r.holder).isNone) ∧
    delivers (toDeliver (.engine 0 0 0) true) (fun r => cwemptyUnit (toDeliver (.engine 0 0 0) true) r.holder == some 0) ∧
    atBoundary (toDeliver (.engine 0 0 0) true) 0 = false ∧
    delivers (toDeliver (.engine 0 0 0) false) (fun r => cwemptyUnit (toDeliver (.engine 0 0 0) false) r.holder == some 0) ∧
    atBoundary (toDeliver (.engine 0 0 0) false) 0 = true ∧ bit ((toDeliver (.engine 0 0 0) false).seqs.get 0).tvec 63 = true := by
  decide +kernel

theorem test_walks :
    after (.pageWalk 0) (walking pte0 [] true 0x20000) (fun t => t.tlb.map (fun e => (e.va, e.leaf.frame, e.leaf.d)) == [(0x20000, 0x50000, true)] &&
      readWord t 1 0x32010 == 0xC980000000050030) ∧
    after (.pageWalk 0) (walking 0x8800000000050030 [] true 0x20000) (fun t => t.walkFaults.map (fun w => w.info.cause) == [2]) ∧
    after (.cwPoolRefill 1 2) (cowing (cow0 true none)) (fun t => t.cows.map (fun c => (c.frame, c.empty)) == [(0x90000, false)]) ∧
    after (.cwemptyDelivery 1 2) (toDeliver (.engine 0 0 0) false) (fun t => t.cpu.ecode == 3 && t.cpu.faddr == 0x20000) := by
  decide +kernel

/-- A walk that reaches a leaf with RM, one that must not wait, and one where MIGREC names no record. -/
def pullWalk (soft migrec : Bool) : State :=
  { tables 1 0xCA00000000050030 [(0x10030, if migrec then 0x8000000000000000 else 0)] with
    tlb := [], walks := [{ walk0 false with soft := soft }] }

theorem witness_RemotePulls_begin :
    ∀ x ∈ [(true, true), (false, false), (false, true)],
      permits (pullWalk x.1 x.2) true false (fun s r _ => r.soft == x.1 && bit (descWord s 0 1 0x30) 63 == x.2 && s.pulls.isEmpty) := by
  decide +kernel

/-- A pull of the page 0x20000, and the package with it. -/
def pull0 : Pull := { req := walk0 false, page := 2, leafPa := 0x32010, old := 0xCA00000000050030, waiting := [walk0 false] }
def pulling (leaf : Word) : State :=
  { tables 1 leaf [(0x20008, 0)] with pulls := [pull0], lends := [{ lendId := 9, tgt := 4, ctx := 1 }, { lendId := 10, tgt := 4, ctx := 4095 }] }

theorem witness_RemotePulls_complete :
    ([0xCA00000000050030, 0xC800000000050030].all fun leaf => (pulling leaf).pulls.find? (fun p => p.req.ctx == 1 && p.page == 2) == some pull0) ∧
    base.pulls = [] ∧ ([] : List Byte).length ≠ 65536 ∧
    (let s := pulling 0xCA00000000050030
     readWord s (ptKeyOf s 0 1) pull0.leafPa = pull0.old ∧ (keyMat s (ptKeyOf s 0 1)).isSome ∧ keyMat s (bits pull0.old 15 4) = some 79 ∧
     pull0.leafPa % 8 = 0 ∧ pull0.leafPa < bits pull0.old 47 16 * 65536) ∧
    readWord (pulling 0xC800000000050030) (ptKeyOf (pulling 0xC800000000050030) 0 1) pull0.leafPa ≠ pull0.old := by decide +kernel

/-- A walk that reaches a leaf with RM whose frame is that of an array; and a pull into the host window, the link down. -/
def pullArray : State :=
  { tables 1 0xCA00300000040000 [(0x10030, 0x8000000000000000)] with tlb := [], walks := [walk0 false] }
def pullAway : State := { pulling pte0 with pulls := [{ pull0 with old := 0xCA00100000000030 }], linkUp := false }

theorem witness_RemotePulls_far :
    permits pullArray true false (fun s r pte => !r.soft && s.pulls.isEmpty && inArrays (bits pte 47 16 * 65536)) ∧
    (pullAway.pulls.find? (fun p => p.req.ctx == 1 && p.page == 2)).any (fun p => region (bits p.old 47 16 * 65536) == .host) ∧
    pullAway.linkUp = false ∧ after (.pageWalk 0) pullArray (fun t => t.walkFaults.map (fun w => w.info.cause) == [0x0B]) := by decide +kernel

/-- A page has 64 KiB. -/
theorem witness_RemotePulls_page : (List.replicate 65536 (0 : Byte)).length = 65536 := List.length_replicate

/-- What a pull request under a lend reaches: a fault, or a leaf, valid or not, in DRAM or not. -/
def lent (s : State) (va : Nat) (p : Option (Bool × Bool) → Bool) : Bool :=
  partOfCtx s 1 == some 0 &&
  match walkTable s 0 1 va with
  | .leaf _ lg _ pte => p (some (bit pte 63, isDram (bits pte 47 16 * 65536 + (va / 65536 * 65536) % 2 ^ lg)))
  | _ => p none

theorem witness_RemotePulls_requests :
    (∀ l ∈ (pulling pte0).lends, ¬(l.lendId = 8 ∧ l.tgt = 4)) ∧
    (pulling pte0).lends.find? (fun l => l.lendId == 10 && l.tgt == 4) = some { lendId := 10, tgt := 4, ctx := 4095 } ∧
    partOfCtx (pulling pte0) 4095 = none ∧
    (pulling pte0).lends.find? (fun l => l.lendId == 9 && l.tgt == 4) = some { lendId := 9, tgt := 4, ctx := 1 } ∧
    lent (pulling pte0) (2 ^ 39) (· == none) ∧ lent (pulling 0x4800000000050030) 0x20000 (· == some (false, true)) ∧
    lent (pulling pteA) 0x20000 (· == some (true, false)) ∧ lent (pulling pte0) 0x2FFFF (· == some (true, true)) := by decide +kernel

theorem test_pulls :
    after (.remotePullFail 1 2) (pulling 0xCA00000000050030) (fun t => t.pulls.length == 0 && t.walkFaults.map (fun w => w.info.cause) == [0x0A]) ∧
    after (.pullRequest { lendId := 8, va := 0x20000, requester := 4, port := 0 }) (pulling pte0) (fun t => t.responses == [.pullRefused]) := by
  decide +kernel
/-! ## Power, the ring, bandwidth, queues -/

/-- What a dot job spilled, and the job, asleep or not. -/
def spill0 (tag : Nat) : Spill := { q := 0, tag := tag, pos := 1, acc := 9, slot := 3, key := some 79 }
def dotJob (tag : Nat) (asleep : Bool) : Job :=
  { q := 0, tag := tag, ctx := 1, part := 0, die := 0, handle := 1, launch := 7, kind := .bdot 0 0, dst := 0x30000
    src := 0x20000, len := 1, aux := 0, tensor := 0, pos := if asleep then 0 else 1, acc := if asleep then 0 else 9
    spilled := asleep, unit := if tag == 2 then some 0 else none, group := [] }

/-- The package with a dot job that reads pseudo-channel 0, and the channel's power state. -/
def pch0 (down deferred : Bool) (spill : List Spill) : PchState := { pch := 0, down := down, deferred := deferred, refreshes := [], spill := spill }
def dotted (p : PchState) : State :=
  { tables 1 pte0 [] with
    tlb := base.tlb ++ [{ holder := .engine 0 2 4, ctx := 1, va := 0x100000, leaf := { leaf0 with frame := 0x100000, key := 1 }, used := 0 },
      { holder := .engine 0 2 7, ctx := 1, va := 0x30000, leaf := { leaf0 with frame := 0x110000, key := 3 }, used := 0 }]
    jobs := [dotJob 2 p.down, dotJob 4 false]
    pchs := [p] }

theorem witness_PowerEvents :
    pchLive (dotted (pch0 false false [])) 0 = true ∧ pchLive base 0 = false ∧ (pchOf (dotted (pch0 false false [])) 0).deferred = false ∧
    (pchOf (dotted (pch0 false true [])) 0).deferred = true ∧
    (let s := dotted (pch0 true false [spill0 2])
     (s.jobs.map fun j => (j.q, j.tag)).Nodup ∧ ((pchOf s 0).spill.map fun x => (x.q, x.tag)).Nodup ∧
     (∀ x ∈ (pchOf s 0).spill, x.key.isSome = true ∧ keyMat s x.slot = x.key) ∧ jobOf s 0 2 = some (dotJob 2 true)) ∧
    (let s := { dotted (pch0 true false [spill0 2]) with keySlots := [slotKey 1 77, slotKey 3 80] }
     (pchOf s 0).spill = [spill0 2] ∧ jobOf s 0 2 = some (dotJob 2 true) ∧ keyMat s (spill0 2).slot ≠ (spill0 2).key) := by decide +kernel

theorem test_power :
    after (.refreshDue 0 1 2) (dotted (pch0 false false [])) (fun t => (pchOf t 0).refreshes == [(1, 2)]) ∧
    after (.pchPowerDownRequest 0) base (fun t => (pchOf t 0).down) ∧
    after (.pchPowerDownRequest 0) (dotted (pch0 false false [])) (fun t => (pchOf t 0).deferred && !(pchOf t 0).down) ∧
    after (.deferralExpiry 0) (dotted (pch0 false true [])) (fun t => (pchOf t 0).down && (pchOf t 0).spill == [spill0 2]) ∧
    after (.pchWake 0) (dotted (pch0 true false [spill0 2])) (fun t => !(pchOf t 0).down && t.jobs.map Job.spilled == [false, false]) ∧
    after (.powerTrim 5) { base with powerLimit := 4 } (fun t => t.trimmed == 1) ∧ after .powerLoss base (fun t => !t.powered) := by decide +kernel

/-- A ringed FENCE.sc of the sequencer, and the package with operations in the ring, its token before a station. -/
def fence0 : Access :=
  { id := 0, q := 0, elem := none, ctx := 1, part := 0, die := 0, kind := .fence, dest := 0, n := 0, va := 0, parts := [], data := 0
    cmp := 0, ord := 4, scope := 3, counted := true, unpaid := [], ringed := true, left := [] }
def ringing (at_ : Nat) (l : List Access) : State := { base with accesses := l, waggle := at_ }

/-- An LDE.sc of element 0 that stands in the ring, and one whose node has gone. -/
def elemSc (id : Nat) : Access :=
  { fence0 with elem := some { node := { die := 0, id := id }, slot := 0, key := key0, seq := 0 }, kind := .load false, n := 8, va := 0x20008, dest := 1 }
def ringElem (id : Nat) : State :=
  { fabM with
    nodes := [{ nodeWith 0 [0x7003000080040080, 0x5800000000000000] with store := [held .a 0 0x20008], arrivals := 1 }]
    accesses := [elemSc id], waggle := (stationOf (elemSc id) + 71) % 72 }

/-- The ring's token reaches the operation, which may be performed. -/
def reached (s : State) (a : Access) : Bool :=
  s.accesses == [a] && a.ringed && stationOf a == (s.waggle + 1) % 72 && canPerform { s with waggle := (s.waggle + 1) % 72 } a

/-- The word of the operation's slot, performed, leaves the ring empty. -/
def ringsOut (s : State) (o : ElemOwner) : Bool :=
  (nodeOf s o.node).any fun n =>
    match Machine.ringWord (eOp (n.word o.slot)) (eWord (n.word o.slot))
      { s with waggle := (s.waggle + 1) % 72, accesses := [], site := { node := o.node, slot := o.slot, key := o.key } } with
    | .next t => t.accesses == []
    | _ => false

theorem witness_RingAndBuckets_ring :
    (∀ a ∈ (ringing 5 [fence0]).accesses, a.ringed = true → stationOf a ≠ 6) ∧
    (reached (ringing 71 [fence0]) fence0 ∧ fence0.elem = none ∧ fence0.left.length ≤ 1 ∧
      fence0.left = piecesOf fence0.kind fence0.n fence0.va fence0.parts) ∧
    (reached (ringElem 1) (elemSc 1) ∧ nodeOf (ringElem 1) { die := 0, id := 1 } = none) ∧
    (reached (ringElem 0) (elemSc 0) ∧ (elemSc 0).elem.any (ringsOut (ringElem 0))) := by decide +kernel

/-- A load whose line waits at a port, with pieces left; and bucket entries of partition 0. -/
def load0 : Access :=
  { fence0 with
    kind := .load false, n := 8, va := 0x100000, ord := 0, ringed := false, unpaid := [0x2000]
    parts := [{ va := 0x100000, pa := 0x100000, n := 8, leaf := { leaf0 with frame := 0x100000, la := true, key := 1 } }]
    left := [{ va := 0x100000, pa := 0x100000, n := 8, leaf := { leaf0 with frame := 0x100000, la := true, key := 1 } }] }
def bucket0 (rate depth : Nat) : Word := BitVec.ofNat 64 (2 ^ 63 + depth * 2 ^ 32 + rate * 2 ^ 16)

/-- The package with accesses, bucket entries and what a bucket has borrowed in each cycle. -/
def metered (l : List Access) (es : List (Nat × Word)) (borrowed : List Nat) : State :=
  { tables 1 pte0 [] with
    accesses := l, bucketEntries := es, buckets := [{ port := portOf 0 0x2000, index := 0, tokens := 0, borrowed := borrowed }] }

/-- The load waits on the bucket of its context, which gains so much. -/
def gains (s : State) (v : Word) (n : Nat) : Bool :=
  s.accesses == [load0] && s.portReqs.isEmpty && portOf 0 0x2000 < 64 && bucketOf s 0 1 == 0 && s.bucketEntries.contains (0, v) &&
  bits v 5 0 == 0 && bit v 63 && min (64 * bits v 47 32) ((bucketAt s (portOf 0 0x2000) 0).tokens + bits v 31 16) == n

theorem witness_RingAndBuckets_buckets :
    (∀ a ∈ (metered [] [] []).accesses, a.unpaid = []) ∧ (metered [] [] []).portReqs = [] ∧
    ((metered [load0] [(0, bucket0 63 1), (1, bucket0 64 1)] []).bucketEntries.map Prod.fst).Nodup ∧
    (load0.unpaid = [0x2000] ∧ load0.left ≠ [] ∧ ∀ p ∈ load0.left, p.pa / 128 = 0x2000) ∧
    gains (metered [load0] [(0, bucket0 64 1)] []) (bucket0 64 1) 64 ∧
    gains (metered [load0] [(0, bucket0 63 1)] []) (bucket0 63 1) 63 ∧
    (let s := metered [load0] [(0, bucket0 63 1), (1, bucket0 64 1)] []
     gains s (bucket0 63 1) 63 ∧ min (64 * bits (bucket0 64 1) 47 32) ((bucketAt s (portOf 0 0x2000) 1).tokens + bits (bucket0 64 1) 31 16) = 64 ∧
     ((bucketAt s (portOf 0 0x2000) 0).borrowed.take 63).sum < 63) ∧
    (let s := metered [load0] [(0, bucket0 63 1), (1, bucket0 64 1)] [63]
     gains s (bucket0 63 1) 63 ∧ 63 ≤ ((bucketAt s (portOf 0 0x2000) 0).borrowed.take 63).sum) := by decide +kernel

theorem test_ring :
    after .waggleToken (ringing 5 [fence0]) (fun t => t.waggle == 6 && t.accesses.length == 1) ∧
    after .waggleToken (ringing 71 [fence0]) (fun t => t.waggle == 0 && t.accesses.length == 0) ∧
    after .bucketTokenGain (metered [load0] [(0, bucket0 64 2)] []) (fun t => t.accesses.map Access.unpaid == [[]] &&
      (bucketAt t (portOf 0 0x2000) 0).tokens == 0 && (bucketAt t ((portOf 0 0x2000 + 1) % 16) 0).tokens == 64) := by decide +kernel

/-- The graph with queue 0 under a leaf, internal or external, its TAIL and one record in the array. -/
def ringedOn (leaf : Word) (ext : Bool) (tail head htail : Nat) : State :=
  { working with
    mem := memPutAll (memPutAll (tables 1 leaf []).mem (arrayPa arr0 + 0x4008) (toBytes 8 tail))
      (arrayPa arr0 + 0x4000 + 0x80) (toBytes 8 (0x0130000000000000) ++ toBytes 8 0x40 ++ toBytes 8 7 ++ toBytes 8 (2 ^ 32))
    queues := [{ part := 0, q := 0, qbase := 0x24000, qctl := if ext then 0x9200000000000001 else 0x9000000000000001, head := head
                 tail := htail, turn := none }] }
def ringed (ext : Bool) (tail head htail : Nat) : State := ringedOn pteA ext tail head htail

/-- Whether a look at TAIL is to be made, and what it then finds: TAIL, where its page is at hand, and whether a store of
another value has been seen. -/
def looks (s : State) : Bool × Option Nat × Bool :=
  let x := queueOf s 0 0
  let s1 := (ringHold s [tailUse x false]).1
  (partRuns s 0 && x.valid && !x.err && x.stop.isNone && ctxPops s 0 x.ctx && !(jobRecOf s x.ctx).cancelled,
    (ringRead s1 x (x.baseVa + 8) 8).map ofBytes, tailStored (watchTail s1 x) x)

/-- The queue stopped, and a device queue whose TAIL has been written and put back. -/
def stopped : State := { ringed true 0 0 0 with queues := [{ queueOf (ringed true 0 0 0) 0 0 with qctl := 0x9300000000000001 }] }

def watched : State := { ringed false 0 0 0 with tailWatch := [{ part := 0, q := 0, pa := arrayPa arr0 + 0x4008, stored := true }] }

/-- The record that a look finds new: whether it is good, and the graph that it names. -/
def newRecord (s : State) (good resident : Bool) : Bool :=
  let x := queueOf s 0 0
  let w := watchTail (ringHold s [tailUse x false]).1 x
  let h := ringHold w [recUse x x.tail true]
  h.2 && x.ext && decide (x.tail + 1 ≤ x.head + x.cap) && decide (openLaunches w 0 < 1024) &&
  (readRecord h.1 x x.tail).any fun ws =>
    let g := residentGraph h.1 x.ctx (BitVec.ofNat 64 (recHandle ws))
    g.isSome == resident && recordOk g ws == good

/-- A record with a bit set that must be zero. -/
def badRecord : State :=
  { ringed true 1 0 0 with mem := memPutAll (ringed true 1 0 0).mem (arrayPa arr0 + 0x4080) (toBytes 8 (0x0130000000000000 + 1)) }

theorem witness_QueuesAndPops_tail :
    (looks stopped).1 = false ∧ looks (waiting (ringed true 0 0 0)) = (true, none, false) ∧ looks (ringed true 0 0 0) = (true, some 0, false) ∧
    (looks (ringed false 1 0 0) = (true, some 1, false) ∧ (queueOf (ringed false 1 0 0) 0 0).ext = false) ∧
    looks (ringed true 17 0 0) = (true, some 17, false) ∧ (queueOf (ringed true 17 0 0) 0 0).cap = 16 ∧
    looks (ringed true 1 0 2) = (true, some 1, false) ∧ looks watched = (true, some 0, true) := by decide +kernel

theorem witness_QueuesAndPops_record :
    (looks (ringed true 1 0 0)).1 ∧ newRecord (ringed true 1 0 0) true true ∧ newRecord { ringed true 1 0 0 with graphs := [] } true false ∧
    newRecord { ringed true 1 0 0 with graphs := [{ graph0 with cancelled := true }] } true true ∧ newRecord badRecord false true := by decide +kernel

/-- A pop by a sequencer of the partition that runs: whether it is the first idle one, and whether a ready record is chosen and
its page can be written. -/
def pops (s : State) (q : SeqId) : Bool × Option Bool :=
  let s0 := advanceRestores s 0
  ((idleSeqs s0 0).head? == some q,
    let a := allReady s0 0 (q.val / 16)
    (chooseReady a.1 0 (q.val / 16) a.2).map fun r =>
      let x := queueOf a.1 0 r.q
      (ringParts (ringHold a.1 [recUse x r.i true]).1 x (x.recVa r.i) 32 true).isSome)

theorem witness_QueuesAndPops_pop :
    partOfSeq base 5 = none ∧ partOfSeq base 1 = some 0 ∧ partRuns { base with parts := base.parts.set 0 { part0 with halted := true } } 0 = false ∧
    partRuns (ringed true 1 0 1) 0 = true ∧ (ringed true 1 0 1).restores = [] ∧
    (pops (ringed true 1 0 1) 2).1 = false ∧ pops (ringed true 0 0 0) 1 = (true, none) ∧ pops (ringed true 1 0 1) 1 = (true, some true) ∧
    pops (ringedOn 0xCC00300000040000 true 1 0 1) 1 = (true, some false) := by decide +kernel

theorem test_queues :
    after (.queueTailUpdate 0 0) (ringed false 1 0 0) (fun t => t.queues.map Queue.err == [true]) ∧
    after (.queueTailUpdate 0 0) (ringed true 1 0 0) (fun t => t.queues.map Queue.tail == [1] && t.launches.length == 1) ∧
    after (.recordPop 1) (ringed true 1 0 1) (fun t => (t.seqs.get 1).pc == 0x10040 && (t.seqs.get 1).run.any fun u => u.prio == 3) := by
  decide +kernel

/-! ## Faults, containment, the host, resets, management -/

/-- A fault record of an iteration and node. -/
def rec0 (iter : BitVec 16) (node : Nat) : FRec :=
  { count := 0, iter := iter, path := 0, cause := 0xF1, code := 0x21, aux := 0, slot := 0, node := node, addr := 0x20000, wave := none }

/-- The graph with records on their way and at the root, and containment begun at nodes. -/
def faulted (tree recs : List FRec) (sealed : List Sealing) : State :=
  { fab 5 6 0 with graphs := [{ graph0 with tree := tree, recs := recs, sealing := sealed }] }

/-- Containment begun at element 0. -/
def sealing0 : Sealing := { node := { die := 0, id := 0 }, key := key0, wave := none }

/-- The graph of handle 1, where a test holds of it. -/
def live (s : State) (p : Graph → Bool) : Bool := (liveGraph s 1 1).any p

theorem witness_FabricFaults :
    liveGraph base 1 1 = none ∧ live (faulted [] [] []) (fun g => g.tree == [] && g.sealing == []) ∧
    (∀ tree ∈ [[], [rec0 9 4, rec0 0 5]],
      (faulted tree [] []).graphs.find? (fun x => x.gid == graph0.gid) == some { graph0 with tree := tree }) ∧
    live (faulted [rec0 0 3] ((List.range 15).map fun i => rec0 (BitVec.ofNat 16 (i + 1)) 2) []) (fun g =>
      g.tree == [rec0 0 3] && g.recs.all (fun y => y.iter != 0) && g.recs.length == 15) ∧
    live (faulted [rec0 0 3] ((List.range 16).map fun i => rec0 (BitVec.ofNat 16 (i + 1)) 2) []) (fun g =>
      g.recs.all (fun y => y.iter != 0) && g.recs.length == 16) ∧
    live (faulted [rec0 0 3] [rec0 1 2, rec0 0 5] []) (fun g => g.recs == [rec0 1 2] ++ rec0 0 5 :: []) ∧
    live (faulted [] [rec0 0 3, rec0 1 2] []) (fun g => recordTarget (faulted [] [rec0 0 3, rec0 1 2] []) g == some 0) ∧
    bit ((faulted [] [rec0 0 3] []).seqs.get 0).tvec 63 = true ∧
    live (faulted [] [rec0 0 3] []) (fun g => (recordTarget { faulted [] [rec0 0 3] [] with seqs := State.reset.seqs } g).isNone) ∧
    live (faulted [] [] [sealing0]) (fun g => (g.sealing.find? fun c => waveClear g c.wave) == some sealing0) ∧
    live (later (faulted [] [] [])) (fun g =>
      ([{ sealing0 with wave := some (wave 3 0 1 0) }].find? fun c => waveClear g c.wave).isNone) := by decide +kernel

theorem test_faults :
    after (.faultRecordArrival 1 1) (faulted [rec0 0 3] [rec0 0 5] []) (fun t => live t fun g => g.recs == [{ rec0 0 3 with count := 1 }]) ∧
    after (.fabricTrap 1 1) (faulted [] [rec0 0 3] []) (fun t => t.cpu.ecode == 0x0E && t.cpu.frec2 == 0x20000 && t.cpu.frec0 == 0xF121) ∧
    after (.subgraphSeal 1 1) (faulted [] [] [sealing0]) (fun t =>
      t.nodes.map (fun n => (n.sealed, n.store.length)) == [(true, 0)]) := by decide +kernel

/-- The package with a dirty line of partition 0 in set 0 of the LLC of base die 0. -/
def dirtied : State :=
  { working with
    llc := [{ base := 0, line := 0, part := 0, old := [], oldTag := none, since := [0] }], residency := [{ base := 0, set := 0, part := 0 }] }

/-- Whether evictions have cleared the mask is free: partition 0 is in it where n is 0, partition 1 is not whatever n is. -/
theorem witness_Containment :
    (partOf State.reset 0).stateOf ≠ 1 ∧ (partOf dirtied 0).stateOf = 1 ∧
    0 ∈ (leftDirty dirtied 0 0).drop 0 ∧ 1 ∉ (leftDirty dirtied 0 0).drop 0 ∧
    llcWaysOf dirtied 1 0 = 0 ∧ llcWaysOf dirtied 0 0 ≠ 0 := by decide +kernel

theorem test_containment :
    after (.uncorrectableError 0) working (fun t => (partOf t 0).stateOf == 2 && t.cpu.run.isNone && t.blackBox.map (fun e => e.code == 0x102) == [true]) ∧
    after (.residencyMaskError 0 0) working (fun t => (partOf t 0).stateOf == 2) := by decide +kernel

/-- The package with entry 0 of the aperture open on the first 4 GiB of HBM4E under key slot 1, and the link. -/
def hosted (v : Word) (up : Bool) : State := { tables 1 pte0 [] with apertures := [(0, v)], linkUp := up }
def aperture0 : Word := 0x8000000000000001

theorem witness_HostAndPeers :
    (hosted aperture0 false).linkUp = false ∧
    ((hosted aperture0 true).linkUp = true ∧ bit (apertureOf (hosted aperture0 true) 0) 63 = true ∧
      (keyMat (hosted aperture0 true) (bits (apertureOf (hosted aperture0 true) 0) 11 0)).isSome) ∧
    bit (apertureOf (hosted 1 true) 0) 63 = false ∧
    (bits (apertureOf (hosted 0x8000000000000009 true) 0) 11 0 = 9 ∧ keyMat (hosted 0x8000000000000009 true) 9 = none) ∧
    (isDram 0x10000 = true ∧ isDram (0x10000 + 8 - 1) = true ∧ (keyMat (hosted aperture0 true) 1).isSome) ∧
    isDram (arrayPa arr0) = false ∧ (isDram (0x8000000000 - 1) = true ∧ isDram (0x8000000000 - 1 + 2 - 1) = false) := by decide +kernel

theorem test_host :
    after (.hostRead 0x10010 8) (hosted aperture0 true) (fun t => t.responses == [.data [0x20, 0, 0, 0, 0, 0, 0, 0]]) ∧
    after (.hostWrite 0x10010 [9]) (hosted aperture0 true) (fun t => readSlot t 1 0x10010 2 == [9, 0]) ∧
    after (.hostRead 0x10010 2) (hosted 1 true) (fun t => t.responses == [.data [0xFF, 0xFF]] && t.blackBox.map (fun e => e.code) == [0x104]) ∧
    after (.linkRetrain false) base (fun t => !t.linkUp) ∧
    after (.peerAccess (.read 0 0x10010 1 2)) (hosted aperture0 true) (fun t => t.responses == [.page (some 77) [0x20, 0] 0x10010]) ∧
    after (.peerAccess (.write 0 0x10010 1 [7])) (hosted aperture0 true) (fun t => readSlot t 1 0x10010 2 == [7, 0]) := by decide +kernel

/-- A firmware image of 128 bytes, version 1, and one with another magic. -/
def firmware0 : List Byte := toBytes 4 0x31574653 ++ toBytes 4 1 ++ toBytes 8 128 ++ List.replicate 112 1
def firmwareBad : List Byte := toBytes 4 0 ++ toBytes 4 1 ++ toBytes 8 128 ++ List.replicate 112 1

/-- The boot ROM checks an image. -/
def checking (img : List Byte) : State := { State.reset with bstatStage := 1, serving := some (.firmwareImage img) }

/-- The refusals of the boot ROM; whether a signature holds rests on the firmware key, of which no value is known. -/
theorem witness_ResetsAndFirmware_serving :
    State.reset.serving = none ∧ State.reset.bstatStage = 0 ∧ (checking firmware0).serving = some (.firmwareImage firmware0) ∧
    (checking firmware0).bstatStage = 1 ∧ Instr.summary ≠ .firmwareImage firmware0 ∧ 32735 + ([7] : List Byte).length ≤ 32736 ∧
    { base with serving := some .summary }.serving = some .summary ∧ base.llc = [] := by decide +kernel

theorem witness_ResetsAndFirmware :
    State.reset.bstatStage ≠ 2 ∧ imageRefusal (checking firmwareBad) firmwareBad = some 1 ∧
    (ecdsaOk Config.firmwareKeyX Config.firmwareKeyY (firmware0.drop 64) (sha256 (firmware0.take 64)) = false →
      imageRefusal (checking firmware0) firmware0 = some 2) ∧
    (ecdsaOk Config.firmwareKeyX Config.firmwareKeyY (firmware0.drop 64) (sha256 (firmware0.take 64)) = true →
      imageRefusal (checking firmware0) firmware0 = none ∧ imageRefusal { checking firmware0 with minVersion := 2 } firmware0 = some 3) ∧
    base.bstatStage = 2 ∧ (partOf base 1).stateOf = 0 ∧ (partOf base 0).stateOf ≠ 0 := by
  have hn : firmware0.length = 128 := by decide
  have h1 : (decide (fieldOf firmware0 0 4 ≠ 0x31574653) || decide (fieldOf firmware0 8 8 ≠ 128) || decide (2 ^ 24 < 128) || decide (128 < 128)) = false := by
    decide +kernel
  have h4 : fieldOf firmware0 4 4 = 1 := by decide +kernel
  refine ⟨by decide +kernel, by decide +kernel, fun h => ?_, fun h => ⟨?_, ?_⟩, rfl, by decide +kernel, by decide +kernel⟩ <;>
    (unfold imageRefusal; simp only [hn, h1, h, h4]; rfl)

theorem test_resets :
    after .coldReset working (fun t => t.nodes.length == 0 && (partOf t 0).stateOf == 0 && t.cpu.run.isNone) ∧
    after .warmReset working (fun t => t.nodes.length == 0 && (partOf t 0).stateOf == 3 && (partOf t 1).stateOf == 0) ∧
    after (.firmwareImage firmwareBad) State.reset (fun t => t.bstatErr == 0 && t.bstatStage == 1 && t.serving.isSome) ∧
    after (.firmwareImage firmwareBad) (checking firmwareBad) (fun t => t.bstatErr == 1 && t.bstatStage == 3 && t.serving.isNone) ∧
    (readBstat State.reset).responses = [.bstat 0] ∧ (firmwareWrites base (some 3) 5 [7]).fwArea = [(5, 7)] := by decide +kernel

/-- A request for partition 1 on die 1: contexts 16 to 31, its table under key slot 6, quad 0 with one overflow array. -/
def create0 : CreateReq :=
  { part := 1, pctl := BitVec.ofNat 64 (2 ^ 63 + 2 ^ 58 + 16 * 2 ^ 40 + 31 * 2 ^ 28), ctxtab := BitVec.ofNat 64 (6 * 2 ^ 48 + 0x80000)
    tiles := 1, quads := 1, seqs := 1, llcWays := 8, pchs := 2, lp6 := 2, keys := 64, ctrs := 64, buckets := [1] }

/-- A bucket entry of partition 0. -/
def entry0 : Word := bucket0 1 1

/-- The package with partition 0 contained. -/
def contained0 : State := setPart { base with seqs := State.reset.seqs } 0 fun p => { p.withState 2 with halted := true }

theorem witness_ManagementRequests_partitions :
    State.reset.bstatStage ≠ 2 ∧ base.bstatStage = 2 ∧ createOk base create0 = true ∧ createOk base { create0 with part := 0 } = false ∧
    (partOf contained0 0).stateOf = 2 ∧ contained0.bstatStage = 2 ∧ (partOf base 0).stateOf = 1 ∧ base.serving = none ∧
    ({ base with serving := some .summary } : State).serving = some .summary := by decide +kernel

theorem witness_ManagementRequests_entries :
    (bits entry0 62 48 = 0 ∧ bits entry0 15 6 = 0 ∧ bits entry0 31 16 ≤ 16384 ∧ 1 ≤ bits entry0 47 32 ∧ rateSum base 0 entry0 ≤ 16384) ∧
    rateSum base 0 (BitVec.ofNat 64 (2 ^ 63 + 2 ^ 32 + 16385 * 2 ^ 16)) > 16384 ∧
    queueWriteOk base 0 3 false 0x24000 = true ∧ queueWriteOk base 0 3 true 0x9000000000000001 = true ∧
    (bits aperture0 62 48 = 0 ∧ bits aperture0 25 12 = 0 ∧ isDram (bits aperture0 47 32 * 2 ^ 32) = true) := by decide +kernel

/-- The queue's ring in a page that must be pulled, and in the array; the partition idle but for it. -/
def pulledRing : State := { ringedOn 0xCA00000000050030 true 1 0 1 with seqs := State.reset.seqs, graphs := [] }

theorem witness_ManagementRequests_rings :
    let served := fun (s : State) => holdRings s (s.queues.filter fun x => x.part == 0 && x.valid && x.q == 0)
    (served pulledRing).2 = false ∧ pulledRing.serving = none ∧ (served (ringed true 1 0 1)).2 = true ∧
    queueWriteOk (served (ringed true 1 0 1)).1 0 0 false 0x24001 = false ∧
    (served (ringed true 0 0 0)).2 = true ∧ queueWriteOk (served (ringed true 0 0 0)).1 0 0 true 0x9000000000000001 = true ∧
    ({ pulledRing with serving := some (.queueRegisterWrite 0 0 false 0x24000) } : State).serving
      = some (.queueRegisterWrite 0 0 false 0x24000) := by decide +kernel

/-- A key of unlike halves that a host has wrapped to the seal key 1 with the key-encryption key of zeros, and one with another tag. -/
def wrapped0 : WrappedKey :=
  { epub := pubBytes p256g, wrapped := List.replicate 63 0 ++ [1]
    tag := gcmTagOf (List.replicate 32 0) (List.replicate 12 0) [] (List.replicate 63 0 ++ [1]) }
def wrappedBad : WrappedKey := { wrapped0 with tag := [] }

/-- What a key so wrapped is. -/
def unwrapped : KeyMat := BitVec.ofNat 512 (ofBytes (gcmCrypt (List.replicate 32 0) (List.replicate 12 0) wrapped0.wrapped))

theorem unwrapped_differs : unwrapped.extractLsb' 0 256 ≠ unwrapped.extractLsb' 256 256 := by decide +kernel

theorem ecdh_base : ecdh 1 (pubBytes p256g) = some (toBytesBE 32 p256g.1) := by decide +kernel

/-- A load of a key that unwraps, where the seal key is 1 and ECDH gives the key of zeros, which no value of Config excludes; one
whose tag is wrong; and one whose public key is no point. -/
theorem witness_ManagementRequests_keys (hs : Config.sealKey 0 = 1)
    (hk : ∀ z e, Config.keyLoadKek z e = (List.replicate 32 0, List.replicate 12 0)) :
    base.seed = 0 ∧ ecdh (Config.sealKey base.seed) wrapped0.epub = some (toBytesBE 32 p256g.1) ∧ (partOf base 0).keys.getLsbD 4 = true ∧
    (partOf base 0).stateOf = 1 ∧ wrapped0.wrapped.length = 64 ∧
    (let kek := Config.keyLoadKek (toBytesBE 32 p256g.1) wrapped0.epub
     gcmTagOf kek.1 kek.2 [] wrapped0.wrapped = wrapped0.tag ∧
     BitVec.ofNat 512 (ofBytes (gcmCrypt kek.1 kek.2 wrapped0.wrapped)) = unwrapped) ∧
    unwrapped.extractLsb' 0 256 ≠ unwrapped.extractLsb' 256 256 ∧ wrappedBad.tag.length = 0 ∧
    (∀ d, ecdh d [] = none) := by
  have h0 : base.seed = 0 := rfl
  refine ⟨h0, by rw [h0, hs]; exact ecdh_base, by decide +kernel, by decide +kernel, by decide, ?_, unwrapped_differs, rfl, fun d => ?_⟩
  · simp only [hk]; exact ⟨rfl, rfl⟩
  · have hc : onCurve (ofBytesBE (sliceOf ([] : List Byte) 0 32)) (ofBytesBE (sliceOf ([] : List Byte) 32 32)) = false := by decide +kernel
    unfold ecdh
    simp only [hc, Bool.false_eq_true, if_false]

theorem witness_ManagementRequests_contexts :
    ((partOfCtx base 1).isSome ∧ cutOf base 1 = none) ∧ partOfCtx base 4095 = none ∧ (cutOf (cutting true) 1).isSome ∧
    (let s := pulling pte0
     s.lends.find? (fun l => l.lendId == 9) = some { lendId := 9, tgt := 4, ctx := 1 } ∧ partOfCtx s 1 = some 0 ∧
     (keyMat s (partOf s 0).tkey).isSome ∧ ∀ l ∈ s.lends, l.lendId ≠ 8) := by decide +kernel

theorem test_management :
    after (.partitionCreate create0) base (fun t => (partOf t 1).stateOf == 1 && t.responses == [.accepted 1]) ∧
    after (.partitionDestroy 0) contained0 (fun t => (partOf t 0).stateOf == 3 && t.responses == [.accepted 1]) ∧
    after (.partitionDestroy 0) base (fun t => (partOf t 0).stateOf == 1 && t.responses == [.refused 1]) ∧
    after (.bucketWrite 0 entry0) base (fun t => bucketEntry t 0 == entry0) ∧
    after (.queueRegisterWrite 0 3 false 0x24000) base (fun t => (queueOf t 0 3).qbase == 0x24000) ∧
    after (.admissionRegisterWrite 0 9) base (fun t => (partOf t 0).blim == 9) ∧ after (.admissionRegisterWrite 0 0) base (fun t => t.responses == [.refused 3]) ∧
    after (.apertureWrite 0 aperture0) base (fun t => apertureOf t 0 == aperture0) ∧
    after (.sliceSet 1 1000) base (fun t => t.slices == [(1, 1000)]) ∧ after (.lendRelease 8) (pulling pte0) (fun t => t.responses == [.refused 7]) ∧
    after (.lendRelease 9) (pulling pte0) (fun t => t.lends.length == 1 && ctxState t 0 1 == 2) := by decide +kernel

/-- A SUMMARY that has read so much. -/
def summing (done : List (List (List Byte))) : State := { base with serving := some .summary, summary := done }

/-- The next item of a SUMMARY is there or not. -/
def nextItem (s : State) (there : Bool) : Bool :=
  let done := if s.summary = [] then [[]] else s.summary
  ((sectionItems s (done.length - 1))[(done.getLastD []).length]?).isSome == there

theorem witness_ReportsAndSpdm_summary :
    base.bstatStage = 2 ∧ base.serving = none ∧ nextItem base true ∧ nextItem (summing [List.replicate 48 []]) false ∧
    (summing [List.replicate 48 []]).summary.length < 8 ∧ nextItem (summing (List.replicate 7 [] ++ [[[]]])) false ∧
    8 ≤ (summing (List.replicate 7 [] ++ [[[]]])).summary.length ∧
    (List.range 48).all (fun p => (partItems base)[p]?.isSome) ∧ (working.graphs.any fun g => !g.retired && g.recs == []) ∧
    ((faulted [] [rec0 0 3] []).graphs.any fun g => !g.retired && g.recs == [rec0 0 3]) ∧ (partOf base 0).stateOf ≠ 0 ∧
    (partOf base 0).ctrs.getLsbD 5 = true := by decide +kernel

/-- A NEGOTIATE_ALGORITHMS request that offers the named algorithms, and one that does not. -/
def algorithms (m : Byte) : List Byte := [0x12, 0xE3, 0, 0, 32, 0, m, 0, 0x10, 0, 0, 0, 1] ++ List.replicate 19 0

theorem witness_ReportsAndSpdm_offers :
    (let req := algorithms 1; 32 ≤ req.length ∧ fieldOf req 6 1 % 2 = 1 ∧ fieldOf req 8 4 / 16 % 2 = 1 ∧ fieldOf req 12 4 % 2 = 1) ∧
    fieldOf (algorithms 2) 6 1 % 2 ≠ 1 := by decide +kernel

/-- The bytes of an event (R441). -/
theorem test_event_bytes :
    (let e : BlackBox := { sseq := 7, src := 0x100, code := 0x102, part := 3, ctx := 9, lcyc := 5, args := [6] }
     e.bytes = [7, 0, 0, 0, 0, 1, 2, 1, 3, 0, 9, 0, 0, 0, 0, 0, 5, 0, 0, 0, 0, 0, 0, 0, 6] ++ List.replicate 39 0) := by decide +kernel

theorem witness_ReportsAndSpdm :
    (base.bstatStage = 2 ∧ (∃ w, exec .warmReset base = .next w) ∧ (partOf base 0).ctrs.getLsbD 5 = true ∧ (partOf base 0).ctrs.getLsbD 4 = false) ∧
    (let req := [0x12, 0x84, 0, 0]; fieldOf req 1 1 = 0x84) ∧
    (let req := [0x12, 0x82, 0, 0, 0, 0, 8, 0]; fieldOf req 1 1 = 0x82 ∧ fieldOf req 2 1 % 16 = 0) ∧
    (let req := [0x12, 0xE0, 1, 0xFF]; fieldOf req 1 1 = 0xE0 ∧ fieldOf req 3 1 = 0xFF ∧ fieldOf req 2 1 % 2 = 1) ∧
    (let req := [0x12, 0x85, 0, 0]; fieldOf req 1 1 ∉ [0x84, 0xE1, 0xE3, 0x81, 0x82, 0x83, 0xE0]) ∧
    ([SpdmPhase.start, .version, .capabilities, .algorithms].map fun p => ({ base with spdm := p } : State).spdm)
      = [.start, .version, .capabilities, .algorithms] :=
  ⟨⟨rfl, ⟨_, rfl⟩, by decide +kernel, by decide +kernel⟩, by decide +kernel, by decide +kernel, by decide +kernel, by decide +kernel, rfl⟩

theorem test_reports :
    after .summary base (fun t => t.responses == [] && t.serving.isSome && t.summary.map List.length == [1]) ∧
    after .summary (summing (List.replicate 7 [] ++ [[[]]])) (fun t => t.responses == [.summary (List.replicate 7 [] ++ [[[]]])] && t.serving.isNone) ∧ after (.powerLimitSet 3601) base (fun t => t.responses == [.refused 10]) ∧
    after (.powerLimitSet 3600) { base with powerLimit := 1 } (fun t => t.powerLimit == 3600) ∧
    after (.managementRequestRefused 14) base (fun t => t.responses == [.refused 14]) ∧
    after (.getVersion [0x12, 0x84, 0, 0]) base (fun t => t.spdm == .version) ∧
    after (.getCapabilities [0x12, 0xE1, 0, 0]) { base with spdm := .version } (fun t => t.spdm == .capabilities) ∧
    after (.negotiateAlgorithms (algorithms 1)) { base with spdm := .capabilities } (fun t => t.spdm == .algorithms) ∧
    after (.negotiateAlgorithms (algorithms 2)) { base with spdm := .capabilities } (fun t => t.responses == [.spdm 0x7F [0x12, 0x7F, 1, 0]]) ∧
    after (.challenge [0x12, 0x83, 0, 0]) base (fun t => t.responses == [.spdm 0x7F [0x12, 0x7F, 4, 0]]) ∧
    after (.spdmUnsupportedRequest [0x12, 0x85, 0, 0]) base (fun t => t.responses == [.spdm 0x7F [0x12, 0x7F, 7, 0]]) ∧
    after (.spdmCarry [0x12, 0x84, 0, 0]) base (fun t => t.spdm == .version) := by decide +kernel

/-! ## Decoding and the step -/

/-- Words at the pc, in the array: the unit of sequencer 0 at 0x20000. -/
def fetching (ws : List (BitVec 32)) : State :=
  { paid (paid base (.seq 0) 0x20000) (.seq 0) 0x20004 with
    turns := [.seq 0]
    seqs := base.seqs.set 0 { (base.seqs.get 0) with pc := 0x20000 }
    mem := memPutAll [] (arrayPa arr0) (ws.flatMap fun w => toBytes 4 w.toNat) }

/-- What a fetch gives, and the sequencer that fetched. -/
def fetchedWords (ws : List (BitVec 32)) : Option (BitVec 32 × BitVec 32) :=
  let s0 := { fetching ws with turns := [], cur := 0 }
  match fetchInstr s0 0 unit0 with
  | (s1, .words w pl) => if s1.cur = 0 then some (w, pl) else none
  | _ => none

theorem witness_StepRunsTheInstruction_words :
    (let s0 := { fetching [0x20142003] with turns := [], cur := 0 }
     (s0.seqs.get 0).run = some unit0 ∧ (s0.seqs.get 0).wait = .none ∧ heldByCut s0 0 = false ∧ recordFor s0 0 unit0 = none) ∧
    fetchedWords [0x20142003] = some (0x20142003, 0) ∧ decodeSeq 0x20142003 0 = .ok (.addi 5 2 3) ∧
    seqOk 3 (.addi 5 2 3) = true ∧ hazard (fetching [0x20142003]) 0 (.addi 5 2 3) = false :=
  ⟨⟨by decide +kernel, by decide +kernel, by decide +kernel, by decide +kernel⟩, by decide +kernel, by decide +kernel, by decide +kernel,
    by decide +kernel⟩

/-- A unit to which a CWEMPTY, and one to which a fabric record, is due; and a load that the next instruction waits for. -/
theorem witness_StepRunsTheInstruction_held :
    (let s := toDeliver (.engine 0 0 0) false
     (s.seqs.get 0).run = some unit0 ∧ (s.seqs.get 0).wait = .none ∧ heldByCut s 0 = false ∧ atBoundary s 0 = true ∧ (cwemptyFor s 0).isSome) ∧
    (let s := faulted [] [rec0 0 3] []
     (s.seqs.get 0).run = some unit0 ∧ (s.seqs.get 0).wait = .none ∧ heldByCut s 0 = false ∧ cwemptyFor s 0 = none ∧
     (recordFor s 0 unit0).isSome) ∧
    (let s := { fetching [0x20143003] with turns := [], accesses := loading.accesses }
     (match fetchInstr s 0 unit0 with | (s1, .words w _) => s1.cur == 0 && w == 0x20143003 && hazard s1 0 (.addi 5 3 3) | _ => false) = true ∧
     decodeSeq 0x20143003 0 = .ok (.addi 5 3 3)) := by decide +kernel

/-- A unit that a cut holds, its next instruction a MARK or another. -/
def heldNext (w : BitVec 32) : State :=
  { cutting false with
    turns := [.seq 0]
    seqs := base.seqs.set 0 { base.seqs.get 0 with ahead := [(0x10000, w)] } }

/-- A WALL of a unit whose graph has a record on its way to the root. -/
def recordOnItsWay : State :=
  let s := faulted [rec0 0 3] [] []
  { s with turns := [.seq 0], seqs := s.seqs.set 0 { s.seqs.get 0 with ahead := [(0x10000, 0x710C1000)] } }

theorem witness_StepRunsTheInstruction_cut :
    ([0xC40C0001, 0x20142003].all fun w => heldByCut (heldNext w) 0 && ((heldNext w).seqs.get 0).run == some unit0 &&
      ((heldNext w).seqs.get 0).wait == .none && (heldNext w).powered) ∧
    marksNext (heldNext 0x20142003) 0 = false ∧ marksNext (heldNext 0xC40C0001) 0 = true ∧
    (match fetchInstr { heldNext 0xC40C0001 with turns := [], cur := 0 } 0 unit0 with
     | (s1, .words w pl) => s1.cur == 0 && !hazard (s1.updCpu fun c => c.hold w pl) 0 (.mark 3 1) && seqOk 3 (.mark 3 1) && w == 0xC40C0001
     | _ => false) = true ∧ decodeSeq 0xC40C0001 0 = .ok (.mark 3 1) := by decide +kernel

theorem witness_StepRunsTheInstruction_record :
    (let s0 := { recordOnItsWay with turns := [], cur := 0 }
     (s0.seqs.get 0).run = some unit0 ∧ (s0.seqs.get 0).wait = .none ∧ heldByCut s0 0 = false ∧ cwemptyFor s0 0 = none ∧
     recordFor s0 0 unit0 = none ∧
     (match fetchInstr s0 0 unit0 with
      | (s1, .words w pl) => s1.cur == 0 && awaitsRecord (s1.updCpu fun c => c.hold w pl) unit0 (.wall 3 1)
      | _ => false) = true) ∧
    decodeSeq 0x710C1000 0 = .ok (.wall 3 1) ∧ seqOk 3 (.wall 3 1) = true := by decide +kernel

/-- The unit that a cut holds goes on with its MARK, which joins the cut, and with nothing else; and a WALL stands while a record
is on its way (R395, R430). -/
theorem test_held :
    ((match step (heldNext 0xC40C0001) with | .next t => t.cpu.wait == .marking 5 true 3 && t.cpu.pc == 0x10004 | _ => false) = true) ∧
    ((match step (heldNext 0x20142003) with | .next t => t.cpu.pc == 0x10000 | _ => false) = true) ∧
    ((match step recordOnItsWay with | .next t => t.cpu.pc == 0x10000 | _ => false) = true) := by decide +kernel

theorem witness_StepRunsTheInstruction_reserved :
    fetchedWords [0xFF000000] = some (0xFF000000, 0) ∧ (match decodeSeq 0xFF000000 0 with | .error _ => true | _ => false) = true ∧
    handlerReady (fetching [0xFF000000]) := ⟨by decide +kernel, by decide +kernel, by unfold handlerReady; decide +kernel⟩

theorem witness_StepRunsTheInstruction_bytes :
    (let s := fetching [0x20142003]
     (s.seqs.get 0).ahead = [] ∧ fencePending s 0 = false ∧ isQX 0x20142003 = false ∧
     (match translate s (.seq 0) 1 0 0 (s.seqs.get 0).pc.toNat 4 false false false with
      | (s1, .ok [p]) => p.n == 4 && p.pa % 4 == 0 && inArrays p.pa &&
        (s1.portReqs.find? fun r => r.holder == .seq 0 && r.va == 0x20000).any (fun r => r.unpaid == [])
      | _ => false) = true ∧
     (∀ r ∈ { s with portReqs := [] }.portReqs, r.va ≠ 0x20000) ∧ (metered [load0] [] []).accesses.map Access.unpaid ≠ [[]]) ∧
    (let s := { base with seqs := base.seqs.set 0 { base.seqs.get 0 with ahead := [(0x10000, 0xE0000000), (0x10004, 3)] } }
     (s.seqs.get 0).ahead = [((s.seqs.get 0).pc, 0xE0000000), ((s.seqs.get 0).pc + 4, 3)]) := by decide +kernel

theorem witness_StepRunsTheInstruction_node :
    (let s := { fab 5 6 0 with turns := [.node (fab 5 6 0).site], nodes := [{ nodeWith 0 [0x5500000080040000, 0x5800000000000000] with
                  store := [held .a 0 5, held .b 1 6], arrivals := 2 }] }
     s.powered = true ∧ ∃ n x i, nodeOf s (fab 5 6 0).site.node = some n ∧ firingSite { s with turns := [] } n (fab 5 6 0).site = some x ∧
       decodeElem (n.word x.slot) = some i) ∧
    encode (.waggleToken) = [] ∧ base.powered = true :=
  ⟨⟨rfl, _, _, _, rfl, rfl, rfl⟩, by decide, rfl⟩

/-- One step of the machine runs a fetched word, a node's word and an event. -/
theorem test_step :
    ((match step (fetching [0x20142003]) with | .next t => t.cpu.reg 5 == 3 && t.cpu.pc == 0x20004 | _ => false) = true) ∧
    ((match step (fetching [0xFF000000]) with | .next t => t.cpu.ecode == 1 && t.cpu.eword == 0xFF000000 | _ => false) = true) ∧
    ((match step { base with turns := [.event .waggleToken] } with | .next t => t.waggle == 1 && t.turns == [] | _ => false) = true) := by
  decide +kernel

/-- The first step after reset of a word that is placed where the step fetches. -/
theorem test_first_step :
    (match step (State.reset.withFetchWord 32 0x20140003) with | .next t => t.cpu.reg 5 == 3 | _ => false) = true := by decide +kernel

theorem witness_EncodingsRoundTrip :
    (Instr.addi 5 2 3).wf 3 = true ∧ encodeSeq (.addi 5 2 3) = some (0x20142003, none) ∧ decodeSeq 0x20142003 0 = .ok (.addi 5 2 3) ∧
    encodeElem (.fadd (ew 9 0 0)) = some 0x2090800400000000 ∧ decodeElem 0x2090800400000000 = some (.fadd (ew 9 0 0)) := by
  decide +kernel

theorem witness_whole_machine :
    MemoryCanonical (fetching [0x20142003]) ∧ (∃ t, step (fetching [0x20142003]) = .next t) := by
  refine ⟨by unfold MemoryCanonical; decide +kernel, ?_⟩
  have h : (match step (fetching [0x20142003]) with | .next _ => true | _ => false) = true := by decide +kernel
  cases hs : step (fetching [0x20142003]) with
  | next t => exact ⟨t, rfl⟩
  | fault f => rw [hs] at h; cases h
  | refused r => rw [hs] at h; cases h

/-! ## Removed translations and graphs still to be placed -/

/-- An XLINV that waits for a held store whose translation was removed. -/
def xlinvStale : State :=
  { (combReleased.updCpu fun c => { c with wait := .xlinv (some 3) [] }) with
    instances := combReleased.instances.map fun i => { i with stores := i.stores.map fun h => { h with stale := true } } }

theorem witness_XlinvRemovesTranslations_stale :
    (xlinvStale.seqs.get 0).wait = .xlinv (some 3) [] ∧ (xlinvStale.seqs.get 0).run = some unit0 ∧
    (xlinvStale.instances.any fun i => i.blk.key.ctx == 1 && i.stores.any fun h => h.stale && h.parts.any fun p =>
      p.va / 2 ^ p.leaf.lg == 3 * 65536 / 2 ^ p.leaf.lg) = true ∧
    after (.xlinvComplete 0) xlinvStale (fun t => t.cpu.pc == 0x10000) := by decide +kernel

/-- A graph that a restore has still to place, its handle in register 1. -/
def unplaced : State :=
  { put (queued 2) 1 1 with
    graphs := []
    restores := [{ ctx := 1, part := 0, die := 0, saved := { saved0 with ctx := 1, graphs := [graph0] }, graphs := [graph0], units := []
                   placed := [] }] }

theorem witness_CancelAndCompletion_unplaced :
    unplaced.cpu.run = some unit0 ∧ levelIs unplaced 2 false true ∧
    (levelNamed unplaced unit0 2 (unplaced.cpu.reg 1)).any (fun lv => lv == .graph graph0) ∧
    (pendingPlace (cancelHold unplaced (levelLaunches unplaced unit0 (.graph graph0))).1 graph0).isSome := by decide +kernel

end Sys2Proof.Tests
end

section
/-! SUPPORT. What memory holds after a write under a key: the bytes that were written, as long as no context is created
there, and the zeros of TMEAS where one is (R79, R408, R409). -/

namespace Sys2Proof.Machine

/-! ## A byte that a line holds under a key -/

/-- The line of an address was last written under a key, and the list names a byte there. -/
structure HoldsByte (s : State) (key : KeyMat) (x : Nat) (b : Byte) : Prop where
  tagged : (lineTag s (x / 128)).map LineTag.key = some key
  listed : memGet s.mem x = some b

theorem HoldsByte.congr {s t : State} {key : KeyMat} {x : Nat} {b : Byte} (h : HoldsByte s key x b)
    (htag : lineTag t (x / 128) = lineTag s (x / 128)) (hmem : memGet t.mem x = memGet s.mem x) : HoldsByte t key x b :=
  ⟨by rw [htag, h.tagged], by rw [hmem, h.listed]⟩

theorem HoldsByte.of_eq {s t : State} {key : KeyMat} {x : Nat} {b : Byte} (h : HoldsByte s key x b)
    (hmem : t.mem = s.mem) (htags : t.lineTags = s.lineTags) : HoldsByte t key x b :=
  h.congr (by unfold lineTag; rw [htags]) (by rw [hmem])

theorem HoldsByte.readByte_eq {s : State} {key : KeyMat} {x : Nat} {b : Byte} (h : HoldsByte s key x b)
    (hx : inArrays x = false) : readByte s key x = b := by
  obtain ⟨t, ht, hk⟩ := Option.map_eq_some_iff.mp h.tagged
  simp [readByte, hx, ht, hk, h.listed]

theorem HoldsByte.vSet_eq {s : State} {key : KeyMat} {v : Nat} {b : Byte} (h : HoldsByte s key v b) :
    vSet s key v = b.getLsbD 7 := by
  obtain ⟨t, ht, hk⟩ := Option.map_eq_some_iff.mp h.tagged
  simp [vSet, ht, hk, h.listed]

theorem readSlot_getElem? (s : State) (slot pa n i : Nat) (hi : i < n) :
    (readSlot s slot pa n)[i]? = some (readByte s ((keyMat s slot).getD 0) (pa + i)) := by
  simp [readSlot, readMem, hi]

theorem byteAt_of_not_inArrays {x : Nat} (hx : inArrays x = false) (m : List Host.Cell) : byteAt m x = memGet m x := by
  unfold byteAt defaultByte
  cases memGet m x <;> simp [hx]

/-! ## The tag of a line -/

theorem lineTag_retag_same (s : State) (line : Nat) (key : KeyMat) :
    (lineTag (retag s line key) line).map LineTag.key = some key := by
  unfold retag
  cases h : lineTag s line with
  | none => simp only [lineTag] at h ⊢; simp [List.find?_append, h]
  | some t =>
    by_cases hk : t.key = key
    · simp [hk, h]
    · have hp : ((fun u : LineTag => u.line == line) ∘
          fun u => if u.line == line then { line := line, key := key, epoch := t.epoch + 1 } else u) = fun u => u.line == line := by
        funext u; by_cases hu : u.line = line <;> simp [hu]
      simp only [lineTag] at h
      have hline : t.line = line := by simpa using List.find?_some h
      simp only [hk, if_false, lineTag, mapIf, List.find?_map, hp, h]
      simp [hline]

theorem lineTag_retag_other (s : State) {line l : Nat} (hl : l ≠ line) (key : KeyMat) :
    lineTag (retag s line key) l = lineTag s l := by
  unfold retag
  cases h : lineTag s line with
  | none => simp [lineTag, List.find?_append, Ne.symm hl]
  | some t =>
    by_cases hk : t.key = key
    · simp [hk]
    · have hp : ((fun u : LineTag => u.line == l) ∘
          fun u => if u.line == line then { line := line, key := key, epoch := t.epoch + 1 } else u) = fun u => u.line == l := by
        funext u; by_cases hu : u.line = line <;> simp [hu]
      simp only [hk, if_false, lineTag, mapIf, List.find?_map, hp]
      cases hf : s.lineTags.find? (fun u => u.line == l) with
      | none => rfl
      | some u =>
        have hu : u.line = l := by simpa using List.find?_some hf
        simp [hu, hl]

theorem memGet_retag_other (s : State) {line x : Nat} (hx : x / 128 ≠ line) (key : KeyMat) :
    memGet (retag s line key).mem x = memGet s.mem x := by
  unfold retag
  cases lineTag s line with
  | none => rfl
  | some t =>
    by_cases hk : t.key = key
    · simp [hk]
    · simp only [hk, if_false]; exact memGet_filter _ _ _ fun b => by simp [hx]

/-! ## What a write leaves of the state -/

theorem llcMark_eq (s : State) (part line : Nat) : ∃ r l, llcMark s part line = { s with residency := r, llc := l } := by
  unfold llcMark
  simp only
  split
  · exact ⟨_, _, rfl⟩
  · exact ⟨_, _, rfl⟩

theorem retag_eq (s : State) (line : Nat) (key : KeyMat) : ∃ m g, retag s line key = { s with mem := m, lineTags := g } := by
  unfold retag
  split
  · exact ⟨_, _, rfl⟩
  · split
    · exact ⟨_, _, rfl⟩
    · exact ⟨_, _, rfl⟩

/-- A write of a line changes what memory holds, whose key it is under, and what the LLC notes of it; nothing else. -/
theorem writeLine_eq (s : State) (part : Nat) (key : KeyMat) (pa : Nat) (bs : List Byte) :
    ∃ m g r l, writeLine s part key pa bs = { s with mem := m, lineTags := g, residency := r, llc := l } := by
  have hmark : ∃ r l, (if isDram pa then llcMark s part (pa / 128) else s) = { s with residency := r, llc := l } := by
    split
    · exact llcMark_eq s part (pa / 128)
    · exact ⟨_, _, rfl⟩
  obtain ⟨r, l, hmark⟩ := hmark
  obtain ⟨m, g, htag⟩ := retag_eq { s with residency := r, llc := l } (pa / 128) key
  unfold writeLine
  split
  · exact ⟨_, _, _, _, rfl⟩
  · dsimp only
    rw [hmark, htag]
    exact ⟨_, _, _, _, rfl⟩

theorem writeMem_eq (s : State) (part : Nat) (key : KeyMat) (pa : Nat) (bs : List Byte) :
    ∃ m g r l, writeMem s part key pa bs = { s with mem := m, lineTags := g, residency := r, llc := l } := by
  unfold writeMem
  generalize chunks 128 bs.length pa bs.length = pieces
  induction pieces generalizing s with
  | nil => exact ⟨_, _, _, _, rfl⟩
  | cons c rest ih =>
    obtain ⟨m, g, r, l, e⟩ := writeLine_eq s part key c.1 (sliceOf bs (c.1 - pa) c.2)
    obtain ⟨m', g', r', l', e'⟩ := ih (writeLine s part key c.1 (sliceOf bs (c.1 - pa) c.2))
    rw [List.foldl_cons, e', e]
    exact ⟨_, _, _, _, rfl⟩

@[simp] theorem writeMem_parts (s : State) (part : Nat) (key : KeyMat) (pa : Nat) (bs : List Byte) :
    (writeMem s part key pa bs).parts = s.parts := by
  obtain ⟨_, _, _, _, e⟩ := writeMem_eq s part key pa bs
  rw [e]

@[simp] theorem writeMem_keySlots (s : State) (part : Nat) (key : KeyMat) (pa : Nat) (bs : List Byte) :
    (writeMem s part key pa bs).keySlots = s.keySlots := by
  obtain ⟨_, _, _, _, e⟩ := writeMem_eq s part key pa bs
  rw [e]

theorem keyMat_congr {s t : State} (h : t.keySlots = s.keySlots) (k : Nat) : keyMat t k = keyMat s k := by
  unfold keyMat keyEntry; rw [h]

/-! ## Reads after a write of a line -/

/-- The state in which a write outside the arrays puts its bytes: its line has the key. -/
theorem writeLine_of_not_inArrays (s : State) (part : Nat) (key : KeyMat) {pa : Nat} (bs : List Byte) (hpa : inArrays pa = false) :
    ∃ u : State, u.mem = s.mem ∧ u.lineTags = s.lineTags ∧ writeLine s part key pa bs =
      { retag u (pa / 128) key with mem := memPutAll (retag u (pa / 128) key).mem pa bs } := by
  obtain ⟨r, l, hmark⟩ := llcMark_eq s part (pa / 128)
  unfold writeLine
  rw [hpa]
  by_cases hd : isDram pa = true
  · exact ⟨llcMark s part (pa / 128), by rw [hmark], by rw [hmark], by simp [hd]⟩
  · exact ⟨s, rfl, rfl, by simp [hd]⟩

theorem holdsByte_writeLine (s : State) (part : Nat) (key : KeyMat) {pa x : Nat} {bs : List Byte} {b : Byte}
    (hline : x / 128 = pa / 128) (hpa : inArrays pa = false) (hx : inArrays x = false) (hge : pa ≤ x)
    (hb : bs[x - pa]? = some b) : HoldsByte (writeLine s part key pa bs) key x b := by
  obtain ⟨u, -, -, e⟩ := writeLine_of_not_inArrays s part key bs hpa
  obtain ⟨hlt, hget⟩ := List.getElem?_eq_some_iff.mp hb
  rw [e]
  refine ⟨?_, ?_⟩
  · rw [hline]; exact lineTag_retag_same u (pa / 128) key
  · rw [← byteAt_of_not_inArrays hx, byteAt_memPutAll, dif_pos ⟨hge, by omega⟩, hget]

theorem HoldsByte.writeLine_other {s : State} {key key' : KeyMat} {x pa : Nat} {b : Byte} {bs : List Byte} (h : HoldsByte s key x b)
    (part : Nat) (hpa : inArrays pa = false) (hx : inArrays x = false) (hlen : pa % 128 + bs.length ≤ 128)
    (hline : x / 128 ≠ pa / 128) : HoldsByte (writeLine s part key' pa bs) key x b := by
  obtain ⟨u, hmem, htags, e⟩ := writeLine_of_not_inArrays s part key' bs hpa
  rw [e]
  refine h.congr ?_ ?_
  · exact (lineTag_retag_other u hline key').trans (by unfold lineTag; rw [htags])
  · rw [← byteAt_of_not_inArrays hx, byteAt_memPutAll, dif_neg (by omega), byteAt_of_not_inArrays hx,
      memGet_retag_other u hline, hmem]

/-! ## Reads after a write of many lines -/

theorem sliceOf_getElem? (bs : List Byte) {off n i : Nat} (hi : i < n) (hn : off + n ≤ bs.length) :
    (sliceOf bs off n)[i]? = bs[off + i]? := by
  simp only [sliceOf]
  rw [List.getElem?_append_left (by simp; omega), List.getElem?_take_of_lt hi, List.getElem?_drop]

theorem sliceOf_zero_length (bs : List Byte) : sliceOf bs 0 bs.length = bs := by simp [sliceOf]

/-- Writing the pieces of [a, a + n), out of bytes given for base, leaves a byte of another line as it is held. -/
theorem HoldsByte.writePieces_other {key key' : KeyMat} {x : Nat} {b : Byte} (hx : inArrays x = false) (part base : Nat)
    (bs : List Byte) : ∀ (fuel a n : Nat) (s : State), HoldsByte s key x b → (∀ y, a ≤ y → y < a + n → inArrays y = false) →
      (∀ y, a ≤ y → y < a + n → x / 128 ≠ y / 128) →
      HoldsByte ((chunks 128 fuel a n).foldl (fun s c => writeLine s part key' c.1 (sliceOf bs (c.1 - base) c.2)) s) key x b
  | 0, _, _, _, h, _, _ => h
  | fuel + 1, a, n, s, h, harr, hline => by
    unfold chunks
    split
    · exact h
    · next hn =>
      refine HoldsByte.writePieces_other hx part base bs fuel _ _ _ ?_ (fun y h1 h2 => harr y (by omega) (by omega))
        (fun y h1 h2 => hline y (by omega) (by omega))
      exact h.writeLine_other part (harr a (Nat.le_refl _) (by omega)) hx (by simp; omega)
        (hline a (Nat.le_refl _) (by omega))

/-- It puts the bytes of [a, a + n): each is put in its own piece, and the later pieces lie in other lines. -/
theorem holdsByte_writePieces (key : KeyMat) {x : Nat} {b : Byte} (part : Nat) {base : Nat} {bs : List Byte}
    (hb : bs[x - base]? = some b) : ∀ (fuel a n : Nat) (s : State), n ≤ fuel → base ≤ a → a + n = base + bs.length → a ≤ x → x < a + n →
      (∀ y, a ≤ y → y < a + n → inArrays y = false) →
      HoldsByte ((chunks 128 fuel a n).foldl (fun s c => writeLine s part key c.1 (sliceOf bs (c.1 - base) c.2)) s) key x b
  | 0, _, _, _, hf, _, _, h1, h2, _ => by omega
  | fuel + 1, a, n, s, hf, hbase, hend, h1, h2, harr => by
    have hx : inArrays x = false := harr x h1 h2
    unfold chunks
    rw [if_neg (by omega)]
    obtain ⟨k, hk⟩ : ∃ k, k = min n (128 - a % 128) := ⟨_, rfl⟩
    simp only [List.foldl_cons, ← hk]
    by_cases hfirst : x < a + k
    · refine HoldsByte.writePieces_other hx part base bs fuel _ _ _ ?_ (fun y _ _ => harr y (by omega) (by omega))
        (fun y _ _ => by omega)
      refine holdsByte_writeLine s part key (by omega) (harr a (Nat.le_refl _) (by omega)) hx h1 ?_
      rw [sliceOf_getElem? bs (by omega) (by omega), show a - base + (x - a) = x - base by omega, hb]
    · exact holdsByte_writePieces key part hb fuel _ _ _ (by omega) (by omega) (by omega) (by omega) (by omega)
        (fun y _ _ => harr y (by omega) (by omega))

/-- A byte written under a key outside the arrays is held under it. -/
theorem holdsByte_writeMem (s : State) (part : Nat) (key : KeyMat) {pa x : Nat} {bs : List Byte} {b : Byte} (hge : pa ≤ x)
    (hb : bs[x - pa]? = some b) (harr : ∀ y, pa ≤ y → y < pa + bs.length → inArrays y = false) :
    HoldsByte (writeMem s part key pa bs) key x b := by
  obtain ⟨hlt, -⟩ := List.getElem?_eq_some_iff.mp hb
  exact holdsByte_writePieces key part hb _ _ _ _ (Nat.le_refl _) (Nat.le_refl _) rfl hge (by omega) harr

/-- A write of other lines leaves it held. -/
theorem HoldsByte.writeMem_other {s : State} {key : KeyMat} {x : Nat} {b : Byte} (h : HoldsByte s key x b) (hx : inArrays x = false)
    (part : Nat) (key' : KeyMat) {pa : Nat} {bs : List Byte} (harr : ∀ y, pa ≤ y → y < pa + bs.length → inArrays y = false)
    (hline : ∀ y, pa ≤ y → y < pa + bs.length → x / 128 ≠ y / 128) : HoldsByte (writeMem s part key' pa bs) key x b :=
  HoldsByte.writePieces_other hx part pa bs _ _ _ s h harr hline

/-! ## A write that creates a context -/

theorem inArrays_of_lt {x : Nat} (h : x < arrayBase) : inArrays x = false := by simp [inArrays]; omega

/-- A write under a slot covers the descriptor of the last context of partition 0, the only ACTIVE one, under TKEY's key,
and sets its CCTL.V, which was clear: the write creates that context. -/
structure CreatesLast (s : State) (slot : Nat) (key : KeyMat) (pa : Nat) (bs : List Byte) : Prop where
  active : (s.parts.get 0).stateOf = 1
  alone : ∀ p, p ≠ 0 → (s.parts.get p).stateOf ≠ 1
  table : keyMat s (s.parts.get 0).tkey = some key
  loaded : keyMat s slot = some key
  range : (s.parts.get 0).ctxBase ≤ (s.parts.get 0).ctxLast
  place : (s.parts.get 0).tablePa + 128 * ((s.parts.get 0).ctxLast - (s.parts.get 0).ctxBase) = pa
  below : pa + bs.length ≤ arrayBase
  covers : 0x60 ≤ bs.length
  clear : vSet s key (pa + 0x27) = false
  sets : ∃ b, bs[0x27]? = some b ∧ b.getLsbD 7 = true

theorem bornIn_of_not_active {s : State} {p : Fin 48} (h : (s.parts.get p).stateOf ≠ 1) (t : State) (pa n : Nat) :
    bornIn s t pa n p = [] := by
  simp [bornIn, h]

section
variable {s : State} {slot pa : Nat} {key : KeyMat} {bs : List Byte}

theorem CreatesLast.vSet_written (h : CreatesLast s slot key pa bs) (part : Nat) :
    vSet (writeMem s part key pa bs) key (pa + 0x27) = true := by
  obtain ⟨b, hb, hv⟩ := h.sets
  have hw : HoldsByte (writeMem s part key pa bs) key (pa + 0x27) b :=
    holdsByte_writeMem s part key (by omega) (by rw [Nat.add_sub_cancel_left]; exact hb) fun y _ _ =>
      inArrays_of_lt (by have := h.below; omega)
  rw [hw.vSet_eq, hv]

theorem CreatesLast.aligned (h : CreatesLast s slot key pa bs) : pa % 128 = 0 := by
  have := h.place
  unfold Partition.tablePa at this
  omega

theorem CreatesLast.not_inArrays (h : CreatesLast s slot key pa bs) (y : Nat) (hy : y < pa + bs.length) : inArrays y = false :=
  inArrays_of_lt (Nat.lt_of_lt_of_le hy h.below)

theorem filterMap_range_first {α : Type} {f : Nat → Option α} {b : α} (n : Nat) (first : f 0 = some b)
    (later : ∀ i, f (i + 1) = none) : (List.range (n + 1)).filterMap f = [b] := by
  rw [List.range_succ_eq_map, List.filterMap_cons_some first, List.filterMap_map]
  simp [later]

/-- What the hardware sees of it: the context is born, and no other. -/
theorem CreatesLast.born (h : CreatesLast s slot key pa bs) {t : State} (ht : vSet t key (pa + 0x27) = true) :
    (List.finRange 48).flatMap (bornIn s t pa bs.length) =
      [(0, BitVec.ofNat 12 (s.parts.get 0).ctxLast)] := by
  have others : ((List.finRange 47).map Fin.succ).flatMap (bornIn s t pa bs.length) = [] := by
    simp only [List.flatMap_eq_nil_iff, List.mem_map]
    rintro _ ⟨p, -, rfl⟩
    exact bornIn_of_not_active (h.alone _ (Fin.succ_ne_zero p)) _ _ _
  have first : bornIn s t pa bs.length 0 = [(0, BitVec.ofNat 12 (s.parts.get 0).ctxLast)] := by
    have hplace := h.place
    have hc : (s.parts.get 0).ctxBase + (pa - (s.parts.get 0).tablePa) / 128 = (s.parts.get 0).ctxLast := by
      have := h.range; omega
    have hv : (s.parts.get 0).tablePa + 128 * ((pa - (s.parts.get 0).tablePa) / 128) = pa := by omega
    have hcovers := h.covers
    simp only [bornIn, h.active, h.table, if_true]
    refine filterMap_range_first _ ?_ fun i => if_neg ?_
    · simp [hc, hv, h.clear, ht]; omega
    · simp; omega
  rw [List.finRange_succ, List.flatMap_cons, others, first, List.append_nil]

theorem toNat_ofNat_ctxLast (r : Partition) : (BitVec.ofNat 12 r.ctxLast).toNat = r.ctxLast := by
  have : r.ctxLast < 2 ^ 12 := Nat.mod_lt _ (by decide)
  rw [BitVec.toNat_ofNat, Nat.mod_eq_of_lt this]

/-- The bytes of a context's TMEAS when it is created. -/
theorem holdsByte_bearContext (s : State) (p : Fin 48) (ctx : BitVec 12) {k : KeyMat} {tmeas i : Nat}
    (hk : keyMat s (s.parts.get p).tkey = some k) (hi : i < 32)
    (hpa : (s.parts.get p).tablePa + 128 * (ctx.toNat - (s.parts.get p).ctxBase) + 0x40 = tmeas)
    (hlt : tmeas + 32 ≤ arrayBase) : HoldsByte (bearContext s (p, ctx)) k (tmeas + i) 0 := by
  have hw : HoldsByte (writeMem s p.val k tmeas (List.replicate 32 0)) k (tmeas + i) 0 :=
    holdsByte_writeMem s p.val k (Nat.le_add_right _ _)
      (by rw [Nat.add_sub_cancel_left, List.getElem?_replicate, if_pos hi]) fun y _ hy =>
      inArrays_of_lt (by rw [List.length_replicate] at hy; omega)
  unfold bearContext
  simp only [hk, hpa]
  exact hw.of_eq rfl rfl

/-- The first byte of the TMEAS of the context that a write creates is zero then, whatever was written there (R409). -/
theorem CreatesLast.tmeas_zero (h : CreatesLast s slot key pa bs) (part : Nat) :
    HoldsByte (writeSlot s part slot pa bs) key (pa + 0x40) 0 := by
  have hcovers := h.covers
  have hbelow := h.below
  have hpa : inArrays pa = false := h.not_inArrays pa (by omega)
  have sees : ((decide (pa % 128 ≤ 0x27) && decide (0x27 < pa % 128 + bs.length)) || decide (0xA7 < pa % 128 + bs.length)) = true := by
    simp [h.aligned]; omega
  obtain ⟨w, hw⟩ : ∃ w, w = { writeMem s part key pa bs with
    tailWatch := (writeMem s part key pa bs).tailWatch.map (TailWatch.see s (writeMem s part key pa bs) pa bs.length) } := ⟨_, rfl⟩
  have hparts : w.parts = s.parts := by rw [hw]; exact writeMem_parts s part key pa bs
  have hkeys : w.keySlots = s.keySlots := by rw [hw]; exact writeMem_keySlots s part key pa bs
  have hborn := h.born (t := w) (by rw [hw]; exact h.vSet_written part)
  have hwrite : writeSlot s part slot pa bs = bearContext w (0, BitVec.ofNat 12 (s.parts.get 0).ctxLast) := by
    unfold writeSlot
    simp only [hpa, h.loaded, Bool.false_eq_true, if_false]
    unfold seeWrite
    simp only [sees, if_true, ← hw, hborn, List.foldl_cons, List.foldl_nil]
  rw [hwrite]
  refine holdsByte_bearContext w 0 _ (i := 0) ?_ (by decide) ?_ (by omega)
  · rw [hparts, keyMat_congr hkeys, h.table]
  · rw [hparts, toNat_ofNat_ctxLast, ← h.place]

/-! ## A write that creates none -/

/-- A write that ends before the CCTL.V of its line is seen as no context's creation. -/
theorem seeWrite_of_before_cctl (s t : State) {pa n : Nat} (h : pa % 128 + n ≤ 0x27) :
    seeWrite s t pa n = { t with tailWatch := t.tailWatch.map (TailWatch.see s t pa n) } := by
  unfold seeWrite
  dsimp only
  rw [if_neg]
  simp; omega

/-- Such a write, in another line, leaves a byte as it is held. -/
theorem HoldsByte.writeWord_other {key : KeyMat} {s : State} {x : Nat} {b : Byte} (h : HoldsByte s key x b) (hx : inArrays x = false)
    (part slot : Nat) {pa : Nat} (w : Word) (hline : x / 128 ≠ pa / 128) (hcctl : pa % 128 + 8 ≤ 0x27) (hlt : pa + 8 ≤ arrayBase) :
    HoldsByte (writeWord s part slot pa w) key x b := by
  have hpa : inArrays pa = false := inArrays_of_lt (by omega)
  unfold writeWord writeSlot
  rw [hpa]
  cases keyMat s slot with
  | none => exact h
  | some k =>
    simp only [Bool.false_eq_true, if_false, toBytes_length]
    rw [seeWrite_of_before_cctl _ _ hcctl]
    refine (h.writeMem_other hx part k (pa := pa) (bs := toBytes 8 w.toNat) ?_ ?_).of_eq rfl rfl
    · exact fun y _ hy => inArrays_of_lt (by rw [toBytes_length] at hy; omega)
    · exact fun y _ hy => by rw [toBytes_length] at hy; omega

theorem CreatesLast.with_pulls (h : CreatesLast s slot key pa bs) (ps : List Pull) : CreatesLast { s with pulls := ps } slot key pa bs :=
  ⟨h.active, h.alone, h.table, h.loaded, h.range, h.place, h.below, h.covers, h.clear, h.sets⟩

/-! ## What these writes leave -/

@[simp] theorem writeSlot_keySlots (s : State) (part slot pa : Nat) (bs : List Byte) :
    (writeSlot s part slot pa bs).keySlots = s.keySlots := by
  have bear : ∀ (u : State) (c : Fin 48 × BitVec 12), (bearContext u c).keySlots = u.keySlots := by
    intro u c
    unfold bearContext
    dsimp only
    split
    · exact writeMem_keySlots _ _ _ _ _
    · rfl
  have births : ∀ (l : List (Fin 48 × BitVec 12)) (u : State), (l.foldl bearContext u).keySlots = u.keySlots := by
    intro l
    induction l with
    | nil => exact fun _ => rfl
    | cons c t ih => exact fun u => (ih _).trans (bear u c)
  unfold writeSlot
  split
  · exact writeMem_keySlots _ _ _ _ _
  · split
    · unfold seeWrite
      dsimp only
      split
      · rw [births]; exact writeMem_keySlots _ _ _ _ _
      · exact writeMem_keySlots _ _ _ _ _
    · rfl

@[simp] theorem dropTranslations_keySlots (s : State) (ctx : BitVec 12) (page : Option Nat) :
    (dropTranslations s ctx page).keySlots = s.keySlots := rfl

theorem HoldsByte.dropTranslations {x : Nat} {b : Byte} (h : HoldsByte s key x b) (ctx : BitVec 12) (page : Option Nat) :
    HoldsByte (dropTranslations s ctx page) key x b := h.of_eq rfl rfl

/-! ## The two events -/

/-- Bytes that lie between two multiples of m are one piece. -/
theorem chunks_one {m a n : Nat} (fuel : Nat) (hn : 0 < n) (hfit : a % m + n ≤ m) : chunks m (fuel + 1) a n = [(a, n)] := by
  have hmin : min n (m - a % m) = n := by omega
  have rest : chunks m fuel (a + n) 0 = [] := by cases fuel <;> simp [chunks]
  rw [chunks, if_neg (by omega)]
  simp only [hmin, Nat.sub_self, rest]

/-- A write of the host that lies in one open entry of the aperture. -/
theorem hostWrite_of_open (s : State) (addr : Nat) (bytes : List Byte) (hlink : s.linkUp = true)
    (hopen : apertureOpen s addr = true) {key pa : Nat} (hkey : apKey (apertureAt s addr) = key) (hpa : aperturePa s addr = pa)
    (hpos : 0 < bytes.length) (hfit : addr % 2 ^ 32 + bytes.length ≤ 2 ^ 32) :
    exec (.hostWrite addr bytes) s = .next (writeSlot s (apPart (apertureAt s addr)) key pa bytes) := by
  have one : aperturePieces addr bytes.length = [(addr, bytes.length)] := chunks_one _ hpos hfit
  show execHostWrite addr bytes s = _
  unfold execHostWrite
  rw [if_neg (by rw [hlink]; decide), one]
  simp only [List.foldl_cons, List.foldl_nil]
  rw [if_pos hopen, Nat.sub_self, sliceOf_zero_length, hkey, hpa]

/-- A pull that completes with a page whose leaf is as it was. -/
theorem remotePullComplete_of_unchanged (s : State) (ctx : BitVec 12) (page : Nat) (m : PulledPage) (p : Pull)
    (hp : s.pulls.find? (fun p => p.req.ctx == ctx && p.page == page) = some p) (hlen : m.bytes.length = 65536)
    (hlink : s.linkUp = true) (hleaf : readWord s (ptKeyOf s p.req.part ctx) p.leafPa = p.old) {key frame : Nat} {bs : List Byte}
    (hkey : bits p.old 15 4 = key) (hframe : bits p.old 47 16 * 65536 = frame) (hbs : openPage (keyMat s key) m = bs) :
    exec (.remotePullComplete ctx page m) s =
      .next (dropTranslations
        (writeWord (writeSlot { s with pulls := s.pulls.erase p } p.req.part key frame bs) p.req.part (ptKeyOf s p.req.part ctx)
          p.leafPa (pulledLeaf p.old (p.req.write || p.req.atomic)))
        ctx (some page)) := by
  have hnow : readWord { s with pulls := s.pulls.erase p } (ptKeyOf s p.req.part ctx) p.leafPa = p.old := hleaf
  have hmat : openPage (keyMat { s with pulls := s.pulls.erase p } key) m = bs := hbs
  show execRemotePullComplete ctx page m s = _
  unfold execRemotePullComplete
  simp only [hp]
  rw [if_neg (by simp [hlen, linkAway, hlink]), if_neg (by simp [hnow]), hkey, hframe, hmat]

end

/-! ## A page that creates a context -/

/-- A partition, ACTIVE, with contexts 1 and 2: its table, under key slot 1, ends in a second page, at 0x50000, where the
descriptor of context 2 lies. -/
def twoPageTable : Partition :=
  { Partition.free with pctl := 0x9000010020000000, ctxtab := 0x000100000004FF80, keys := 0b10 }

/-- A leaf with RM, of the frame 0x50000 under key slot 1. -/
def remoteLeaf : Word := 0xCA00000000050010

/-- A pull of context 1 for its page 0x20000, whose leaf lies at 0x32000. -/
def tablePull : Pull :=
  let r : WalkReq := { holder := .seq 0, die := 0, ctx := 1, part := 0, va := 0x20000, first := 0x20000, write := false
                       atomic := false, soft := false }
  { req := r, page := 2, leafPa := 0x32000, old := remoteLeaf, waiting := [r] }

/-- The package with partition 0 so, the first word of context 1's descriptor and the leaf in memory, the pull in progress,
and entry 0 of the aperture open on HBM4E under key slot 1.  Context 2 does not exist. -/
def beforeContext2 : State :=
  { State.reset with
    parts := State.reset.parts.set 0 twoPageTable
    keySlots := [{ slot := 1, kst := .loaded, key := 77 }]
    lineTags := [{ line := 0x4FF80 / 128, key := 77, epoch := 0 }, { line := 0x32000 / 128, key := 77, epoch := 0 }]
    mem := memPutAll (memPutAll [] 0x32000 (toBytes 8 remoteLeaf.toNat)) 0x4FF80 (toBytes 8 0x8000000000020010)
    pulls := [tablePull]
    apertures := [(0, 0x8000000000000001)] }

/-- Bytes at 0x50000 that set CCTL.V of context 2 and are not zero at its TMEAS. -/
def setsV (n : Nat) : List Byte := List.replicate n 0x80

/-- A page whose bytes are those. -/
def pulledTable : PulledPage := { key := 77, pa := 0, bytes := setsV 65536 }

@[simp] theorem setsV_length (n : Nat) : (setsV n).length = n := List.length_replicate

theorem beforeContext2_creates {n : Nat} (hn : 0x60 ≤ n) (hlt : n ≤ 65536) : CreatesLast beforeContext2 1 77 0x50000 (setsV n) where
  active := by decide +kernel
  alone := by decide +kernel
  table := by decide +kernel
  loaded := by decide +kernel
  range := by decide +kernel
  place := by decide +kernel
  below := by simp [arrayBase]; omega
  covers := by simpa using hn
  clear := by decide +kernel
  sets := ⟨0x80, by rw [setsV, List.getElem?_replicate, if_pos (by omega)], by decide⟩

/-- Where a byte at 0x50040 is held as zero, what was written there does not read back. -/
theorem readSlot_ne_setsV {t : State} (h : HoldsByte t 77 0x50040 0) (hk : keyMat t 1 = some 77) {n : Nat} (hn : 0x60 ≤ n) :
    readSlot t 1 0x50000 n ≠ setsV n := by
  intro e
  have hi := congrArg (·[0x40]?) e
  simp only [readSlot_getElem? t 1 0x50000 n 0x40 (by omega), hk, Option.getD_some,
    h.readByte_eq (by decide), setsV, List.getElem?_replicate, if_pos (show 0x40 < n by omega)] at hi
  exact absurd (Option.some.inj hi) (by decide)

/-! ## The obligations -/

/-- Refutes O51: a host write that sets CCTL.V of a descriptor in an ACTIVE partition's table creates the context, and TMEAS
of the descriptor is zero after it (R408, R409, log 126), whatever the host wrote there. -/
theorem not_hostAndPeers : ¬ Obligations.HostAndPeers := by
  unfold Obligations.HostAndPeers
  intro h
  obtain ⟨host, -, -⟩ := h beforeContext2
  obtain ⟨-, opened, -⟩ := host 0x50000 128 (setsV 128) (by decide) (by decide) (by decide) (setsV_length 128)
  obtain ⟨-, t, hexec, hread, -⟩ := opened rfl (by decide +kernel) (by decide +kernel)
  have hkey : apKey (apertureAt beforeContext2 0x50000) = 1 := by decide +kernel
  have hpa : aperturePa beforeContext2 0x50000 = 0x50000 := by decide +kernel
  change readSlot t (apKey (apertureAt beforeContext2 0x50000)) (aperturePa beforeContext2 0x50000) 128 = setsV 128 at hread
  rw [hkey, hpa] at hread
  rw [hostWrite_of_open beforeContext2 0x50000 (setsV 128) rfl (by decide +kernel) hkey hpa (by rw [setsV_length]; decide)
    (by rw [setsV_length]; decide)] at hexec
  injection hexec with ht
  have created := beforeContext2_creates (n := 128) (by decide) (by decide)
  refine readSlot_ne_setsV (t := t) ?_ ?_ (by decide) hread
  · rw [← ht]; exact created.tmeas_zero _
  · rw [← ht, keyMat_congr (writeSlot_keySlots _ _ _ _ _)]; exact created.loaded

/-- Refutes O45: a pulled page that holds such a descriptor creates the context as well, and the page in memory has zeros
for the TMEAS that the page had. -/
theorem not_remotePulls : ¬ Obligations.RemotePulls := by
  unfold Obligations.RemotePulls
  intro h
  obtain ⟨-, completes, -⟩ := h
  obtain ⟨-, -, found⟩ := completes beforeContext2 1 2 pulledTable
  have hp : beforeContext2.pulls.find? (fun p => p.req.ctx == 1 && p.page == 2) = some tablePull := by decide +kernel
  have hleaf : readWord beforeContext2 (ptKeyOf beforeContext2 0 1) 0x32000 = remoteLeaf := by decide +kernel
  have hkey : bits remoteLeaf 15 4 = 1 := by decide +kernel
  have hframe : bits remoteLeaf 47 16 * 65536 = 0x50000 := by decide +kernel
  have hmat : keyMat beforeContext2 1 = some 77 := by decide +kernel
  obtain ⟨-, -, stored, -⟩ := found tablePull hp
  obtain ⟨t, hexec, -, hread, -⟩ := stored (setsV_length 65536) (by decide +kernel) hleaf (by decide +kernel) (by decide +kernel)
    (by decide +kernel) (by decide +kernel)
  change readSlot t (bits remoteLeaf 15 4) (bits remoteLeaf 47 16 * 65536) 65536 =
    openPage (keyMat beforeContext2 (bits remoteLeaf 15 4)) pulledTable at hread
  have hopen : openPage (keyMat beforeContext2 1) pulledTable = setsV 65536 := by rw [hmat]; exact if_pos rfl
  rw [hkey, hframe, hopen] at hread
  rw [remotePullComplete_of_unchanged beforeContext2 1 2 pulledTable tablePull hp (setsV_length 65536) rfl hleaf hkey hframe hopen]
    at hexec
  injection hexec with ht
  have created := (beforeContext2_creates (n := 65536) (by decide) (by decide)).with_pulls (beforeContext2.pulls.erase tablePull)
  refine readSlot_ne_setsV (t := t) ?_ ?_ (by decide) hread
  · rw [← ht]
    exact ((created.tmeas_zero _).writeWord_other (by decide) _ _ _ (by decide) (by decide) (by decide)).dropTranslations _ _
  · have hslots : t.keySlots = beforeContext2.keySlots := by
      rw [← ht, dropTranslations_keySlots, writeWord, writeSlot_keySlots, writeSlot_keySlots]
    rw [keyMat_congr hslots, hmat]

end Sys2Proof.Machine
end

section
/-! SUPPORT. The layouts of a word, each said once as an equivalence: a word is what its fields make exactly where it has
those fields (R30, R34).  Encoding reads the equivalence from left to right and decoding from right to left. -/

namespace Sys2Proof

/-! ## Fields side by side -/

/-- Two fields side by side are a part of a word where each is its own part of it. -/
theorem append_eq_extract_iff {k m n s : Nat} {x : BitVec m} {y : BitVec n} {w : BitVec k} :
    x ++ y = w.extractLsb' s (m + n) ↔ x = w.extractLsb' (s + n) m ∧ y = w.extractLsb' s n := by
  rw [← BitVec.extractLsb'_append_extractLsb'_eq_extractLsb' (w := k) rfl]
  constructor
  · intro h
    exact ⟨by simpa only [BitVec.extractLsb'_append_eq_left] using congrArg (BitVec.extractLsb' n m) h,
      by simpa only [BitVec.extractLsb'_append_eq_right] using congrArg (BitVec.extractLsb' 0 n) h⟩
  · rintro ⟨rfl, rfl⟩
    rfl

/-- Two fields side by side make a whole word. -/
theorem append_eq_iff {m n : Nat} {x : BitVec m} {y : BitVec n} {w : BitVec (m + n)} :
    x ++ y = w ↔ x = w.extractLsb' n m ∧ y = w.extractLsb' 0 n := by
  simpa only [BitVec.extractLsb'_eq_self, Nat.zero_add] using append_eq_extract_iff (s := 0) (x := x) (y := y) (w := w)

/-! ## The layouts of R30 and R34 -/

theorem q3_eq_iff {op : BitVec 8} {d a b f : BitVec 6} {w : BitVec 32} :
    q3 op d a b f = w ↔ op = fOp w ∧ d = fD w ∧ a = fA w ∧ b = fB w ∧ f = fF w := calc
  _ ↔ op ++ d ++ a ++ b ++ f = w.extractLsb' 0 (8 + 6 + 6 + 6 + 6) := by rw [BitVec.extractLsb'_eq_self]; rfl
  _ ↔ _ := by simp only [append_eq_extract_iff, and_assoc]; rfl

theorem qi_eq_iff {op : BitVec 8} {d a : BitVec 6} {i : BitVec 12} {w : BitVec 32} :
    qi op d a i = w ↔ op = fOp w ∧ d = fD w ∧ a = fA w ∧ i = fI12 w := calc
  _ ↔ op ++ d ++ a ++ i = w.extractLsb' 0 (8 + 6 + 6 + 12) := by rw [BitVec.extractLsb'_eq_self]; rfl
  _ ↔ _ := by simp only [append_eq_extract_iff, and_assoc]; rfl

theorem ql_eq_iff {op : BitVec 8} {d : BitVec 6} {i : BitVec 18} {w : BitVec 32} :
    ql op d i = w ↔ op = fOp w ∧ d = fD w ∧ i = fI18 w := calc
  _ ↔ op ++ d ++ i = w.extractLsb' 0 (8 + 6 + 18) := by rw [BitVec.extractLsb'_eq_self]; rfl
  _ ↔ _ := by simp only [append_eq_extract_iff, and_assoc]; rfl

theorem qb_eq_iff {op : BitVec 8} {p : BitVec 4} {n : BitVec 1} {o : BitVec 19} {w : BitVec 32} :
    qb op p n o = w ↔ op = fOp w ∧ p = fP w ∧ n = fN w ∧ o = fOff w := calc
  _ ↔ op ++ p ++ n ++ o = w.extractLsb' 0 (8 + 4 + 1 + 19) := by rw [BitVec.extractLsb'_eq_self]; rfl
  _ ↔ _ := by simp only [append_eq_extract_iff, and_assoc]; rfl

theorem packE_eq_iff {op : BitVec 8} {e : EWord} {w : BitVec 64} :
    packE op e = w ↔ op.toNat = eOp w ∧ e = eWord w := calc
  _ ↔ op ++ e.ty ++ e.mod ++ e.t0 ++ e.t1 ++ e.x = w.extractLsb' 0 (8 + 4 + 4 + 16 + 16 + 16) := by
    rw [BitVec.extractLsb'_eq_self]; rfl
  _ ↔ _ := by
    obtain ⟨ty, mod, t0, t1, x⟩ := e
    simp only [append_eq_extract_iff, and_assoc, eOp, eWord, EWord.mk.injEq, BitVec.toNat_inj]

/-! ## Fields with zeros above their value (R30, R32, R33) -/

theorem pf_eq_iff {p : Pred} {f : BitVec 6} : pf p = f ↔ predOk f = true ∧ p = fPred f := calc
  _ ↔ 0#2 = f.extractLsb' 4 2 ∧ p = f.extractLsb' 0 4 := append_eq_iff
  _ ↔ _ := by rw [eq_comm, predOk, beq_iff_eq]; rfl

theorem osf_eq_iff {os : OrdScope} {w : BitVec 32} : osf os = fF w ↔ os = fOS w := calc
  _ ↔ os.ord ++ os.scope = w.extractLsb' 0 (3 + 3) := Iff.rfl
  _ ↔ _ := by rw [append_eq_extract_iff]; obtain ⟨o, c⟩ := os; simp only [fOS, OrdScope.mk.injEq]

theorem oneBit_eq_iff {x : BitVec 1} {f : BitVec 6} : 0#5 ++ x = f ↔ f.extractLsb' 1 5 = 0#5 ∧ x = f.extractLsb' 0 1 := by
  rw [eq_comm (b := 0#5)]; exact append_eq_iff

theorem twoBits_eq_iff {x : BitVec 2} {f : BitVec 6} : 0#4 ++ x = f ↔ f.extractLsb' 2 4 = 0#4 ∧ x = f.extractLsb' 0 2 := by
  rw [eq_comm (b := 0#4)]; exact append_eq_iff

theorem threeBits_eq_iff {x : BitVec 3} {f : BitVec 6} : 0#3 ++ x = f ↔ f.extractLsb' 3 3 = 0#3 ∧ x = f.extractLsb' 0 3 := by
  rw [eq_comm (b := 0#3)]; exact append_eq_iff

/-- The W and the level of CDONE. -/
theorem waitLevel_eq_iff {x : BitVec 1} {y : BitVec 3} {f : BitVec 6} :
    0#2 ++ x ++ y = f ↔ f.extractLsb' 4 2 = 0#2 ∧ x = f.extractLsb' 3 1 ∧ y = f.extractLsb' 0 3 := calc
  _ ↔ 0#2 ++ x ++ y = f.extractLsb' 0 (2 + 1 + 3) := by rw [BitVec.extractLsb'_eq_self]
  _ ↔ _ := by rw [append_eq_extract_iff, append_eq_extract_iff, and_assoc, eq_comm (b := 0#2)]

/-- The copy tag in the payload of COPY. -/
theorem copyTag_eq_iff {x : BitVec 6} {pl : BitVec 32} :
    0#26 ++ x = pl ↔ pl.extractLsb' 6 26 = 0#26 ∧ x = pl.extractLsb' 0 6 := by
  rw [eq_comm (b := 0#26)]; exact append_eq_iff

/-- The four counts of WAITC. -/
theorem counts_eq_iff {l s c t : BitVec 4} {w : BitVec 32} :
    0#2 ++ l ++ s ++ c ++ t = fI18 w ↔ w.extractLsb' 16 2 = 0#2 ∧ l = w.extractLsb' 12 4 ∧ s = w.extractLsb' 8 4 ∧
      c = w.extractLsb' 4 4 ∧ t = w.extractLsb' 0 4 := calc
  _ ↔ 0#2 ++ l ++ s ++ c ++ t = w.extractLsb' 0 (2 + 4 + 4 + 4 + 4) := Iff.rfl
  _ ↔ _ := by simp only [append_eq_extract_iff, and_assoc, eq_comm (a := 0#2)]

/-- The constant of the long LI, in three fields and the payload. -/
theorem liConstant_eq_iff {x : BitVec 2} {b f : BitVec 6} {pl : BitVec 32} {i : BitVec 46} :
    x ++ b ++ f ++ pl = i ↔
      x = i.extractLsb' 44 2 ∧ b = i.extractLsb' 38 6 ∧ f = i.extractLsb' 32 6 ∧ pl = i.extractLsb' 0 32 := calc
  _ ↔ x ++ b ++ f ++ pl = i.extractLsb' 0 (2 + 6 + 6 + 32) := by rw [BitVec.extractLsb'_eq_self]
  _ ↔ _ := by simp only [append_eq_extract_iff, and_assoc]

end Sys2Proof
end

section
/-! SUPPORT. Encoding and decoding agree (R30 to R41), first for the words of a sequencer, then for those of the fabric. -/

namespace Sys2Proof

/-! ## A sequencer word that decodes encodes back to itself -/

theorem need_eq_ok {ok : Bool} {i j : Instr} : need ok i = .ok j ↔ ok = true ∧ i = j := by
  cases ok <;> simp [need]

theorem eq_fOp_iff {op : BitVec 8} {w : BitVec 32} : op = fOp w ↔ op.toNat = (fOp w).toNat := BitVec.toNat_inj.symm

theorem some_words_eq {w x pl : BitVec 32} {p : Option (BitVec 32)} (hw : x = w) (hp : p = if isQX w then some pl else none) :
    some (x, p) = some (w, if isQX w then some pl else none) := by rw [hw, hp]

/-- CSRW has a form of its own for each of two registers, all in one layout. -/
theorem encodeSeq_csrw (a : Reg) (c : BitVec 12) :
    encodeSeq (if c == 0x412 then .xlinvWrite a else if c == 0x409 then .radepthWrite a else .csrw a c) =
      some (qi 0xC3 0 a c, none) := by
  by_cases hx : c = 0x412
  · subst hx; rfl
  · by_cases hr : c = 0x409
    · subst hr; rfl
    · rw [if_neg (by simpa using hx), if_neg (by simpa using hr)]; rfl

theorem encodeSeq_decodeSeq {w pl : BitVec 32} {i : Instr} (h : decodeSeq w pl = .ok i) :
    encodeSeq i = some (w, if isQX w then some pl else none) := by
  unfold decodeSeq at h
  split at h
  case h_119 => cases h -- the unassigned opcodes
  all_goals rename_i hop
  -- A branch either requires fields to be zero or does not.
  all_goals first | obtain ⟨hc, rfl⟩ := need_eq_ok.mp h | obtain rfl := Except.ok.inj h
  all_goals clear h
  all_goals try simp only [Bool.and_eq_true, beq_iff_eq] at hc
  case h_102 => -- CSRW
    rw [encodeSeq_csrw]
    exact some_words_eq (by simp [qi_eq_iff, eq_fOp_iff, hop, hc]) (by simp [isQX, hop])
  case h_111 => -- the long LI
    obtain ⟨hx, hb, hf, hpl⟩ := liConstant_eq_iff.mp (rfl : (fA w).extractLsb' 0 2 ++ fB w ++ fF w ++ pl = _)
    exact some_words_eq (by simp [q3_eq_iff, eq_fOp_iff, twoBits_eq_iff, hop, hc, ← hx, ← hb, ← hf]) (by simp [isQX, hop, ← hpl])
  all_goals refine some_words_eq ?_ ?_
  all_goals simp [q3_eq_iff, qi_eq_iff, ql_eq_iff, qb_eq_iff, eq_fOp_iff, pf_eq_iff, osf_eq_iff, oneBit_eq_iff,
    threeBits_eq_iff, waitLevel_eq_iff, copyTag_eq_iff, counts_eq_iff, isQX, *]

/-! ## A sequencer instruction that is encoded decodes to itself -/

theorem need_of {ok : Bool} {i : Instr} (h : ok = true) : need ok i = .ok i := need_eq_ok.mpr ⟨h, rfl⟩

theorem width_cases : ∀ w : BitVec 3, w = 0 ∨ w = 1 ∨ w = 2 ∨ w = 3 ∨ w = 4 ∨ w = 5 ∨ w = 6 ∨ w = 7 := by decide

theorem storeWidth_cases : ∀ w : BitVec 3, w.toNat ≤ 4 → w = 0 ∨ w = 1 ∨ w = 2 ∨ w = 3 ∨ w = 4 := by decide

theorem decodeSeq_encodeSeq {ver : Nat} {i : Instr} {w : BitVec 32} {pl : Option (BitVec 32)} (hok : seqOk ver i = true)
    (h : encodeSeq i = some (w, pl)) : decodeSeq w (pl.getD 0) = .ok i := by
  cases i
  all_goals try (cases h; done) -- an instruction that no sequencer executes has no such word
  all_goals obtain ⟨hw, rfl⟩ := Prod.mk.inj (Option.some.inj h)
  all_goals
    simp only [q3_eq_iff, qi_eq_iff, ql_eq_iff, qb_eq_iff, pf_eq_iff, osf_eq_iff, oneBit_eq_iff, threeBits_eq_iff,
      twoBits_eq_iff, waitLevel_eq_iff, counts_eq_iff, eq_comm (a := (0 : BitVec 6)), eq_comm (a := (0 : BitVec 1)),
      eq_comm (a := (0 : BitVec 4)), eq_comm (a := (0x412 : BitVec 12)), eq_comm (a := (0x409 : BitVec 12))] at hw
    obtain ⟨hop, hw⟩ := hw
    unfold decodeSeq
    rw [← hop]
  case addi | andi | ori | xori | liShort | lih | bc | amoadd | amomin | amomax | amoand | amoor | amoxor | amoswap
      | amocas | copyx | copyg | strm2 | spawn =>
    refine Eq.trans (b := Except.ok _) rfl (congrArg Except.ok ?_)
    simp [hw]
  case ldsShort width _ _ _ =>
    rcases width_cases width with rfl | rfl | rfl | rfl | rfl | rfl | rfl | rfl
    all_goals
      refine Eq.trans (b := Except.ok _) rfl (congrArg Except.ok ?_)
      simp [hw]
  case stsShort width _ _ _ =>
    obtain ⟨hle, -⟩ := (Bool.and_eq_true _ _).mp hok
    rcases storeWidth_cases width (of_decide_eq_true hle) with rfl | rfl | rfl | rfl | rfl
    all_goals
      refine Eq.trans (b := Except.ok _) rfl (congrArg Except.ok ?_)
      simp [hw]
  case csrw a c =>
    obtain ⟨hd, rfl, rfl⟩ := hw
    obtain ⟨hx, hr⟩ : fI12 w ≠ 0x412 ∧ fI12 w ≠ 0x409 := by simpa [seqOk] using hok
    refine (need_of (by simp [hd])).trans (congrArg Except.ok ?_)
    rw [if_neg (by simpa using hx), if_neg (by simpa using hr)]
  case liLong d i =>
    obtain ⟨hd, ⟨ha, hx⟩, hb, hf⟩ := hw
    refine (need_of (by simp [ha])).trans (congrArg Except.ok ?_)
    rw [hd, Option.getD_some, liConstant_eq_iff.mpr ⟨hx.symm, hb.symm, hf.symm, rfl⟩]
  case copy d a b tag =>
    obtain ⟨hzero, htag⟩ := copyTag_eq_iff.mp (rfl : 0#26 ++ tag = _)
    exact (need_of (by simp [hw, hzero])).trans (congrArg Except.ok (by simp [hw, ← htag]))
  all_goals
    refine (need_of ?_).trans (congrArg Except.ok ?_)
    all_goals simp [hw]

/-! ## The words of the fabric -/

/-- A word is a sequencer's or the fabric's, not both. -/
theorem encodeElem_of_encodeSeq {i : Instr} {x : BitVec 32 × Option (BitVec 32)} (h : encodeSeq i = some x) :
    encodeElem i = none := by
  cases i
  all_goals cases h
  all_goals rfl

theorem seqOk_of_wf {ver : Nat} {i : Instr} {x : BitVec 32 × Option (BitVec 32)} (hwf : i.wf ver = true)
    (h : encodeSeq i = some x) : seqOk ver i = true := by
  simpa only [Instr.wf, encodeElem_of_encodeSeq h] using hwf

theorem decodeElem_packE (op : BitVec 8) (e : EWord) : decodeElem (packE op e) = elemOf op.toNat e := by
  obtain ⟨hop, he⟩ := packE_eq_iff.mp (rfl : packE op e = _)
  rw [decodeElem, ← hop, ← he]

theorem decodeElem_encodeElem {i : Instr} {w : BitVec 64} (h : encodeElem i = some w) : decodeElem w = some i := by
  cases i
  case nop => cases h; decide
  all_goals cases h
  all_goals exact decodeElem_packE _ _

theorem encodeElem_decodeElem {i : Instr} {w : BitVec 64} (h : decodeElem w = some i) : encodeElem i = some w := by
  unfold decodeElem elemOf at h
  split at h
  case h_72 hop => -- NOP, the one word with no operand
    obtain ⟨he, rfl⟩ : eWord w = { ty := 0, mod := 0, t0 := 0, t1 := 0, x := 0 } ∧ .nop = i := by simpa using h
    exact congrArg some ((packE_eq_iff (op := 0xF0)).mpr ⟨hop.symm, he.symm⟩)
  all_goals rename_i hop
  all_goals cases h
  all_goals exact congrArg some (packE_eq_iff.mpr ⟨hop.symm, rfl⟩)

/-- Settles O56: each layout of a word is an equivalence between the word and its fields; in each opcode's branch of a decoder
the equivalence of its layout, with the zeros that the branch asks for, gives the word back, and the other way round. -/
theorem encodingsRoundTrip : Obligations.EncodingsRoundTrip := by
  unfold Obligations.EncodingsRoundTrip
  refine ⟨fun ver i w pl hwf h => ?_, fun i w pl => encodeSeq_decodeSeq, fun i w => decodeElem_encodeElem,
    fun i w => encodeElem_decodeElem⟩
  have hdec := decodeSeq_encodeSeq (seqOk_of_wf hwf h) h
  refine ⟨hdec, ?_⟩
  obtain ⟨-, hpl⟩ := Prod.mk.inj (Option.some.inj (h.symm.trans (encodeSeq_decodeSeq hdec)))
  rw [hpl]
  cases isQX w <;> rfl

end Sys2Proof
end

section
/-! SUPPORT. What every trap and every translation of the moving sequencer comes to: a trap enters a handler that is ready,
and a translation leaves the sequencers alone. -/

namespace Sys2Proof.Machine

/-! ## Fields of words -/

theorem getLsbD_pcMask : ∀ i < 64, (0x000FFFFFFFFFFFFC#64).getLsbD i = decide (2 ≤ i ∧ i < 52) := by decide

/-- An address made of bits 51 to 2 of a word is the word under the mask of EPC and TVEC (R384). -/
theorem ofNat_bits_51_2 (w : Word) : BitVec.ofNat 64 (bits w 51 2 * 4) = w &&& 0x000FFFFFFFFFFFFC#64 := by
  refine BitVec.eq_of_getLsbD_eq fun i hi => ?_
  rw [BitVec.getLsbD_and, getLsbD_pcMask i hi, BitVec.getLsbD_ofNat, bits, show 4 = 2 ^ 2 from rfl, Nat.testBit_mul_two_pow,
    Nat.testBit_mod_two_pow, Nat.testBit_div_two_pow]
  by_cases h : 2 ≤ i
  · have back : i - 2 + 2 = i := by omega
    have below : i - 2 < 50 ↔ i < 52 := by omega
    simp [back, below, h, hi, Bool.and_comm, BitVec.getLsbD]
  · simp [h]

theorem and_three_eq_zero_iff (w : Word) : w &&& 3 = 0 ↔ w.toNat % 4 = 0 := by
  rw [← BitVec.toNat_inj, BitVec.toNat_and]
  exact (Nat.and_two_pow_sub_one_eq_mod w.toNat 2) ▸ Iff.rfl

/-! ## Traps -/

/-- A trap of the moving sequencer enters a handler that is ready (R385). -/
theorem takeTrap_entersHandler {s : State} (h : handlerReady s) (t : TrapInfo) :
    entersHandler s (takeTrap s s.cur t) t.code t.arg t.pc t.eword t.fault := by
  obtain ⟨hh, hv⟩ := h
  rw [takeTrap_handler s s.cur t hh hv]
  refine ⟨rfl, fun q hq => ?_, ?_⟩
  · rw [State.updSeq_get, if_neg hq]; rfl
  · exact (State.cpu_updCpu _ _).trans (by rw [ofNat_bits_51_2]; rfl)

theorem handlerReady_of_cpu {s t : State} (hc : t.cpu.h = s.cpu.h) (hv : t.cpu.tvec = s.cpu.tvec) (h : handlerReady s) :
    handlerReady t := by
  rw [handlerReady, hc, hv]; exact h

theorem trapHere_entersHandler {s : State} (h : handlerReady s) (code : Nat) (fault : Option (Word × Word)) :
    entersHandler s (trapHere s code fault) code 0 s.cpu.pc 0 fault := takeTrap_entersHandler h _

theorem cpu_eq_of_seqs {s t : State} (hq : t.seqs = s.seqs) (hc : t.cur = s.cur) : t.cpu = s.cpu := by
  unfold State.cpu; rw [hq, hc]

/-- The trap of a step that has left the moving sequencer itself alone so far. -/
theorem trapHere_entersHandler_of_cpu {s s1 : State} (hcpu : s1.cpu = s.cpu) (h : handlerReady s) (code : Nat)
    (fault : Option (Word × Word)) : entersHandler s1 (trapHere s1 code fault) code 0 s.cpu.pc 0 fault :=
  hcpu ▸ trapHere_entersHandler (handlerReady_of_cpu (congrArg Seq.h hcpu) (congrArg Seq.tvec hcpu) h) code fault

/-! ## Translations of a holder with entries -/

/-- What a translation of a holder with entries may change: what it takes note of, faults that it takes, and the walk that it
asks for, none where it has its parts. -/
def LooksUp (s t : State) (x : Trans) : Prop :=
  ∃ es kept k fs ws, t = { s with tlb := es, latched := kept, tick := k, walkFaults := fs, walks := ws } ∧
    ((∃ ps, x = .ok ps) → ws = s.walks)

/-- Where every piece of an access is translated, none has missed. -/
theorem lookupPieces_ok {s : State} {h : Holder} {ctx : BitVec 12} {w a : Bool} {reach : Reach} {l : List (Nat × Nat)}
    {ps : List Part} {m : Option Nat} (e : lookupPieces s h ctx w a reach l = (.ok ps, m)) : m = none := by
  induction l generalizing ps m with
  | nil => cases e; rfl
  | cons p rest ih =>
    unfold lookupPieces at e
    split at e
    · cases e
    · cases e
    · split at e
      · cases e
      · cases e
      · split at e
        · cases e; exact ih ‹_›
        · exact ih e

theorem translateWith_looksUp (s : State) (h : Holder) (ctx : BitVec 12) (part die va n : Nat) (w a soft : Bool) (reach : Reach) :
    LooksUp s (translateWith s h ctx part die va n w a soft reach).1 (translateWith s h ctx part die va n w a soft reach).2 := by
  unfold translateWith
  extract_lets pieces mine s0
  have h0 : ∃ fs, s0 = { s with walkFaults := fs } := by
    unfold s0
    split
    · exact ⟨_, rfl⟩
    · exact ⟨s.walkFaults, rfl⟩
  obtain ⟨fs, h0⟩ := h0
  rw [h0]
  clear_value s0
  split
  · exact ⟨_, _, _, _, _, rfl, fun _ => rfl⟩
  · split
    · split
      · split
        · exact ⟨_, _, _, _, _, rfl, fun _ => rfl⟩
        · exact ⟨_, _, _, _, _, rfl, fun _ => rfl⟩
      · exact ⟨_, _, _, _, _, rfl, fun _ => rfl⟩
    · split
      · obtain ⟨es, kept, k, e⟩ := touchEntries_eq { s with walkFaults := fs } h ctx ‹_›
        exact ⟨es, kept, k, fs, s.walks, e, fun _ => rfl⟩
      · exact ⟨_, _, _, _, _, rfl, fun _ => rfl⟩
      · exact ⟨_, _, _, _, _, rfl, fun _ => rfl⟩
      · rename_i e
        split
        · exact ⟨_, _, _, _, _, rfl, fun _ => rfl⟩
        · refine ⟨s.tlb, s.latched, s.tick, fs, _, rfl, fun ⟨ps, hp⟩ => ?_⟩
          change _ = Trans.ok ps at hp
          subst hp
          cases lookupPieces_ok e

theorem translate_seq_looksUp (s : State) (q : SeqId) (ctx : BitVec 12) (part die va n : Nat) (w a sc : Bool) :
    LooksUp s (translate s (.seq q) ctx part die va n w a sc).1 (translate s (.seq q) ctx part die va n w a sc).2 :=
  translateWith_looksUp _ _ _ _ _ _ _ _ _ _ _

theorem LooksUp.cpu {s t : State} {x : Trans} (h : LooksUp s t x) : t.cpu = s.cpu := by
  obtain ⟨_, _, _, _, _, rfl, _⟩ := h; rfl

end Sys2Proof.Machine
end

section
/-! SUPPORT. Branches, calls and returns (R266 to R269). -/

namespace Sys2Proof.Machine

/-- The target of a branch as R31 reads it: the offset is signed and counts words. -/
theorem Seq.target_eq {n : Nat} (c : Seq) (o : BitVec n) : c.target o = BitVec.ofInt 64 (c.pc.toInt + 4 * o.toInt) := by
  rw [Seq.target, sext, BitVec.ofInt_add, BitVec.ofInt_toInt, BitVec.ofInt_mul, BitVec.shiftLeft_eq_mul_twoPow, BitVec.mul_comm]
  rfl

theorem onlyPc_updCpu {s : State} {g : Seq → Seq} {pc : Word} (hpc : (g s.cpu).pc = pc)
    (frame : { g s.cpu with pc := s.cpu.pc, ahead := s.cpu.ahead } = s.cpu) : onlyPc s (s.updCpu g) pc :=
  ⟨onlyCpu_updCpu _ _, by rw [State.cpu_updCpu, hpc], by rw [State.cpu_updCpu]; exact frame⟩

theorem pushAndBranch_eq (keep : Nat) (o : BitVec 19) (c : Seq) :
    pushAndBranch keep o c =
      { c with ras := (c.pc + 4) :: c.ras.take keep, depth := c.depth + 1, ahead := []
               pc := BitVec.ofInt 64 (c.pc.toInt + 4 * o.toInt) } := by
  rw [← Seq.target_eq]; rfl

section
variable {s : State} {u : UnitRec} (hrun : s.cpu.run = some u)
include hrun

theorem exec_call_of_room (o : BitVec 19) (hdepth : s.cpu.depth.toNat < 272) (hroom : s.cpu.ras.length < 16) :
    exec (.call o) s = .next (s.updCpu (pushAndBranch 16 o)) := by
  refine (withUnit_of_run hrun).trans ?_
  rw [if_neg (by omega), if_pos hroom]

theorem exec_call_of_spill (o : BitVec 19) {s1 : State} {ps : List Part} (hdepth : s.cpu.depth.toNat < 272)
    (hfull : 16 ≤ s.cpu.ras.length)
    (htr : translate s (.seq s.cur) u.ctx u.part (s.cur.val / 16) (u.frame.toNat + 8 * (s.cpu.depth.toNat - 16)) 8 true false false =
      (s1, .ok ps)) :
    exec (.call o) s = .next ((issue s1 { newAccess s1 u .store 0 8 (u.frame.toNat + 8 * (s.cpu.depth.toNat - 16)) ps
        (((s.cpu.ras[15]?).getD 0).setWidth 256) 0 { ord := 0, scope := 1 } with counted := false }).updCpu (pushAndBranch 15 o)) := by
  refine (withUnit_of_run hrun).trans ?_
  rw [if_neg (by omega), if_neg (by omega)]
  simp only [spillVa, Nat.sub_sub, dieOfSeq, htr]

theorem exec_call_of_fault (o : BitVec 19) {s1 : State} {f : FaultInfo} (hdepth : s.cpu.depth.toNat < 272)
    (hfull : 16 ≤ s.cpu.ras.length)
    (htr : translate s (.seq s.cur) u.ctx u.part (s.cur.val / 16) (u.frame.toNat + 8 * (s.cpu.depth.toNat - 16)) 8 true false false =
      (s1, .fault f)) : exec (.call o) s = .next (trapFault s1 f) := by
  refine (withUnit_of_run hrun).trans ?_
  rw [if_neg (by omega), if_neg (by omega)]
  simp only [spillVa, Nat.sub_sub, dieOfSeq, htr]

theorem exec_ret_of_ras {ra : Word} {rest : List Word} (hras : s.cpu.ras = ra :: rest) (hdepth : s.cpu.depth ≠ 0) :
    exec .ret s = .next (s.updCpu fun c => ({ c with ras := rest, depth := c.depth - 1 } : Seq).jump ra) := by
  refine (withUnit_of_run hrun).trans ?_
  rw [if_neg hdepth, hras]

theorem exec_ret_of_spilled {s1 : State} {bs : List Byte} (hras : s.cpu.ras = []) (hdepth : s.cpu.depth ≠ 0)
    (hload : seqLoad s u (u.frame.toNat + 8 * (s.cpu.depth.toNat - 1)) 8 = (s1, .bytes bs)) :
    exec .ret s = .next (if (BitVec.ofNat 64 (ofBytes bs)).toNat % 4 = 0 then
        s1.updCpu fun c => ({ c with depth := c.depth - 1 } : Seq).jump (BitVec.ofNat 64 (ofBytes bs))
      else trapMisal s1 (BitVec.ofNat 64 (ofBytes bs)) false false) := by
  refine (withUnit_of_run hrun).trans ?_
  rw [if_neg hdepth, hras]
  simp only [spillVa, hload, ne_eq, and_three_eq_zero_iff, ite_not]

end

end Sys2Proof.Machine
end

section
/-! SUPPORT. The branches, calls, returns and traps of ControlFlow, one theorem for each. -/

namespace Sys2Proof.Machine

theorem exec_jr_of_aligned {s : State} {a : Reg} (h : (s.cpu.reg a).toNat % 4 = 0) :
    exec (.jr a) s = .next (s.updCpu fun c => c.jump (s.cpu.reg a)) :=
  if_neg (not_not_intro ((and_three_eq_zero_iff _).mpr h))

theorem exec_jr_of_misaligned {s : State} {a : Reg} (h : (s.cpu.reg a).toNat % 4 ≠ 0) :
    exec (.jr a) s = .next (trapMisal s (s.cpu.reg a) false false) :=
  if_pos (mt (and_three_eq_zero_iff _).mp h)

theorem bc_onlyPc (s : State) (p : Pred) (n : BitVec 1) (o : BitVec 19) :
    runsTo (.bc p n o) s fun t => onlyPc s t
      (if xor (s.cpu.pred p) (n == 1) then BitVec.ofInt 64 (s.cpu.pc.toInt + 4 * o.toInt) else s.cpu.pc + 4) := by
  refine ⟨_, rfl, ?_⟩
  by_cases taken : xor (s.cpu.pred p) (n == 1) = true
  · rw [if_pos taken]
    exact onlyPc_updCpu (by rw [if_pos taken, Seq.target_eq]; rfl) (by rw [if_pos taken]; rfl)
  · rw [if_neg taken]
    exact onlyPc_updCpu (by rw [if_neg taken]; rfl) (by rw [if_neg taken]; rfl)

/-- A CALL with a full store spills its oldest entry by an access of its own (R269). -/
theorem call_spills {s s1 : State} {u : UnitRec} (hrun : s.cpu.run = some u) (o : BitVec 19) {ps : List Part}
    (hdepth : s.cpu.depth.toNat < 272) (hfull : 16 ≤ s.cpu.ras.length)
    (htr : translate s (.seq s.cur) u.ctx u.part (s.cur.val / 16) (u.frame.toNat + 8 * (s.cpu.depth.toNat - 16)) 8 true false false =
      (s1, .ok ps)) :
    runsTo (.call o) s fun t => t.cpu = pushAndBranch 15 o s.cpu ∧ ∃ x, outstanding s t [x] ∧
      x.isOf s u .store 0 8 (u.frame.toNat + 8 * (s.cpu.depth.toNat - 16)) ps ((s.cpu.ras[15]?.getD 0).setWidth 256)
        { ord := 0, scope := 1 } := by
  refine ⟨_, exec_call_of_spill hrun o hdepth hfull htr, ?_⟩
  have looked := translate_seq_looksUp s s.cur u.ctx u.part (s.cur.val / 16) (u.frame.toNat + 8 * (s.cpu.depth.toNat - 16)) 8 true
    false false
  rw [htr] at looked
  obtain ⟨es, kept, k, fs, ws, rfl, hws⟩ := looked
  obtain rfl := hws ⟨ps, rfl⟩
  refine ⟨State.cpu_updCpu _ _, _, ⟨rfl, rfl, rfl, fun q hq => ?_⟩, rfl, rfl, rfl, rfl, rfl, rfl, rfl, rfl, rfl, rfl, rfl, rfl, rfl⟩
  exact (onlyCpu_updCpu _ _).2 q hq

theorem call_faults {s s1 : State} {u : UnitRec} (hrun : s.cpu.run = some u) (o : BitVec 19) {f : FaultInfo}
    (hdepth : s.cpu.depth.toNat < 272) (hfull : 16 ≤ s.cpu.ras.length) (ready : handlerReady s)
    (htr : translate s (.seq s.cur) u.ctx u.part (s.cur.val / 16) (u.frame.toNat + 8 * (s.cpu.depth.toNat - 16)) 8 true false false =
      (s1, .fault f)) : faultsExactly (.call o) s s1 f := by
  refine ⟨_, exec_call_of_fault hrun o hdepth hfull htr, ?_⟩
  have looked := translate_seq_looksUp s s.cur u.ctx u.part (s.cur.val / 16) (u.frame.toNat + 8 * (s.cpu.depth.toNat - 16)) 8 true
    false false
  rw [htr] at looked
  exact trapHere_entersHandler_of_cpu looked.cpu ready _ _

theorem ret_of_ras {s : State} {u : UnitRec} (hrun : s.cpu.run = some u) {ra : Word} {rest : List Word}
    (hras : s.cpu.ras = ra :: rest) (hdepth : s.cpu.depth ≠ 0) :
    runsTo .ret s fun t =>
      onlyCpu s t ∧ t.cpu = { s.cpu with ras := rest, depth := s.cpu.depth - 1, ahead := [], pc := ra } :=
  ⟨_, exec_ret_of_ras hrun hras hdepth, onlyCpu_updCpu _ _, State.cpu_updCpu _ _⟩

/-- RET with an empty store goes to the address that it loads, or traps MISAL there (R267, R269, log 102). -/
theorem ret_of_spilled {s s1 : State} {u : UnitRec} (hrun : s.cpu.run = some u) {bs : List Byte} (hras : s.cpu.ras = [])
    (hdepth : s.cpu.depth ≠ 0) (hload : seqLoad s u (u.frame.toNat + 8 * (s.cpu.depth.toNat - 1)) 8 = (s1, .bytes bs))
    (same : { s1.cpu with reading := s.cpu.reading } = s.cpu) :
    let ra : Word := BitVec.ofNat 64 (ofBytes bs)
    (ra.toNat % 4 = 0 → runsTo .ret s fun t =>
      onlyCpu s1 t ∧ t.cpu = { s1.cpu with depth := s.cpu.depth - 1, ahead := [], pc := ra }) ∧
    (ra.toNat % 4 ≠ 0 → handlerReady s → runsTo .ret s fun t =>
      entersHandler s1 t 0x05 0 s.cpu.pc 0 (some (ra, 0xF3))) := by
  have hexec := exec_ret_of_spilled hrun hras hdepth hload
  have hd : s1.cpu.depth = s.cpu.depth := by rw [← same]
  have hpc : s1.cpu.pc = s.cpu.pc := by rw [← same]
  refine ⟨fun aligned => ?_, fun misaligned ready => ?_⟩
  · rw [if_pos aligned] at hexec
    exact ⟨_, hexec, onlyCpu_updCpu _ _, by rw [State.cpu_updCpu, ← hd]; rfl⟩
  · rw [if_neg misaligned] at hexec
    rw [← hpc]
    exact ⟨_, hexec, trapHere_entersHandler (handlerReady_of_cpu (by rw [← same]) (by rw [← same]) ready) _ _⟩

/-- A RET behind a CALL is back at the next word, with the store and the depth as they were. -/
theorem call_then_ret {s : State} {u : UnitRec} (hrun : s.cpu.run = some u) (o : BitVec 19) (hdepth : s.cpu.depth.toNat < 272)
    (hroom : s.cpu.ras.length < 16) :
    runsTo (.call o) s fun t => runsTo .ret t fun u =>
      u.cpu.pc = s.cpu.pc + 4 ∧ u.cpu.ras = s.cpu.ras ∧ u.cpu.depth = s.cpu.depth := by
  refine ⟨_, exec_call_of_room hrun o hdepth hroom, ?_⟩
  have hcpu : (s.updCpu (pushAndBranch 16 o)).cpu = pushAndBranch 16 o s.cpu := State.cpu_updCpu _ _
  have hnz : (s.updCpu (pushAndBranch 16 o)).cpu.depth ≠ 0 := by
    rw [hcpu]
    show s.cpu.depth + 1 ≠ 0
    bv_omega
  refine ⟨_, exec_ret_of_ras (by rw [hcpu]; exact hrun) (by rw [hcpu]; rfl) hnz, ?_⟩
  simp only [State.cpu_updCpu, hcpu]
  refine ⟨rfl, List.take_of_length_le (by omega), ?_⟩
  show s.cpu.depth + 1 - 1 = s.cpu.depth
  bv_omega

theorem call_overflows {s : State} {u : UnitRec} (hrun : s.cpu.run = some u) (o : BitVec 19) (hdepth : 272 ≤ s.cpu.depth.toNat)
    (ready : handlerReady s) : trapsExactly (.call o) s 0x08 0 none := by
  refine ⟨_, (withUnit_of_run hrun).trans ?_, trapHere_entersHandler ready 0x08 none⟩
  rw [if_pos hdepth]

theorem ret_underflows {s : State} {u : UnitRec} (hrun : s.cpu.run = some u) (hdepth : s.cpu.depth = 0)
    (ready : handlerReady s) : trapsExactly .ret s 0x09 0 none := by
  refine ⟨_, (withUnit_of_run hrun).trans ?_, trapHere_entersHandler ready 0x09 none⟩
  rw [if_pos hdepth]

/-- Settles O6, instruction by instruction: the branches and JR; CALL and RET with room, with a spill and with a fault of it; the
traps. -/
theorem controlFlow : Obligations.ControlFlow := by
  unfold Obligations.ControlFlow
  refine ⟨fun s o p n a => ⟨?_, bc_onlyPc s p n o, fun aligned => ?_⟩,
    fun s o u hrun _ => ⟨fun hopen hroom => ?_, fun ps hopen hfull htr => ?_, fun s1 f hopen hfull ready htr => ?_,
      fun ra rest hras hdepth => ret_of_ras hrun hras hdepth, fun s1 bs hras hdepth hload same _ =>
        ret_of_spilled hrun hras hdepth hload same, call_then_ret hrun o⟩,
    fun s o a hrun ready => ?_⟩
  · exact ⟨_, rfl, onlyPc_updCpu (Seq.target_eq _ _) rfl⟩
  · exact ⟨_, exec_jr_of_aligned aligned, onlyPc_updCpu rfl rfl⟩
  · refine ⟨_, exec_call_of_room hrun o hopen hroom, onlyCpu_updCpu _ _, ?_⟩
    rw [State.cpu_updCpu, pushAndBranch_eq]
  · obtain ⟨t, hexec, hcpu, spill⟩ := call_spills hrun o hopen hfull (Prod.ext rfl htr)
    exact ⟨t, hexec, hcpu.trans (pushAndBranch_eq _ _ _), spill⟩
  · exact call_faults hrun o hopen hfull ready htr
  · obtain ⟨u, hrun⟩ := Option.isSome_iff_exists.mp hrun
    exact ⟨fun hdepth => call_overflows hrun o hdepth ready, fun hdepth => ret_underflows hrun hdepth ready,
      fun misaligned => ⟨_, exec_jr_of_misaligned misaligned, trapHere_entersHandler ready _ _⟩⟩

end Sys2Proof.Machine
end

section
/-! SUPPORT. What a fetch reads: the bytes of a word, and the words that were fetched ahead (R7, R43, R112). -/

namespace Sys2Proof.Machine

/-! ## Words as bytes -/

theorem ofBytes_toBytes (n x : Nat) : ofBytes (toBytes n x) = x % 256 ^ n := by
  induction n generalizing x with
  | zero => simp [toBytes, ofBytes, Nat.mod_one]
  | succ n ih =>
    rw [toBytes, ofBytes, ih, BitVec.toNat_ofNat]
    calc x % 2 ^ 8 + 256 * (x / 256 % 256 ^ n) = x % (256 * 256 ^ n) := Nat.mod_mul.symm
      _ = x % 256 ^ (n + 1) := by rw [Nat.pow_succ']

@[simp] theorem wordOf_toBytes (w : BitVec 32) : wordOf (toBytes 4 w.toNat) = w := by
  rw [wordOf, ofBytes_toBytes, Nat.mod_eq_of_lt (by exact w.isLt), BitVec.ofNat_toNat, BitVec.setWidth_eq]

theorem wordOf_four (b0 b1 b2 b3 : Byte) : wordOf [b0, b1, b2, b3] = b3 ++ b2 ++ b1 ++ b0 := by
  apply BitVec.eq_of_toNat_eq
  simp only [wordOf, ofBytes, BitVec.toNat_append, BitVec.toNat_ofNat]
  rw [← Nat.shiftLeft_add_eq_or_of_lt b0.isLt, ← Nat.shiftLeft_add_eq_or_of_lt b1.isLt, ← Nat.shiftLeft_add_eq_or_of_lt b2.isLt]
  simp only [Nat.shiftLeft_eq]
  omega

/-! ## A word of an array -/

theorem inArrays_iff {pa : Nat} : inArrays pa = true ↔ arrayBase ≤ pa ∧ pa < arrayBase + 0x100000000 := by
  rw [inArrays, Bool.and_eq_true]
  exact and_congr decide_eq_true_iff decide_eq_true_iff

theorem allocatable_of_inArrays (leaf : Leaf) {pa : Nat} (h : inArrays pa = true) : allocatable leaf pa = false := by
  have notDram : isDram pa = false := by
    obtain ⟨hlo, hhi⟩ := inArrays_iff.mp h
    rw [arrayBase] at hlo hhi
    rw [isDram, region, if_neg (by omega), if_neg (by simp; omega), if_neg (by simp; omega), if_neg (by simp; omega), if_pos h]
  simp [allocatable, notDram]

theorem inArrays_of_aligned {pa k : Nat} (hk : k < 4) (aligned : pa % 4 = 0) (h : inArrays pa = true) :
    inArrays (pa + k) = true := by
  obtain ⟨hlo, hhi⟩ := inArrays_iff.mp h
  rw [arrayBase] at hlo hhi
  exact inArrays_iff.mpr ⟨by rw [arrayBase]; omega, by rw [arrayBase]; omega⟩

/-- A word of an array lies in one line of it, which the request ports admit (R112). -/
theorem meteredLines_of_word {p : Part} (hn : p.n = 4) (aligned : p.pa % 4 = 0) (h : inArrays p.pa = true) :
    meteredLines [p] = [p.pa / 128] := by
  have hk : min 4 (128 - p.pa % 128) = 4 := by omega
  simp [meteredLines, h, hn, chunks, hk]

/-- A word of an array is read as the list of bytes has it, whatever its leaf says (log 107). -/
theorem loadParts_of_word (s : State) (die part : Nat) (ctx : BitVec 12) (q : Option SeqId) {p : Part} (hn : p.n = 4)
    (aligned : p.pa % 4 = 0) (h : inArrays p.pa = true) :
    loadParts s die part ctx q false [p] = (s, (List.range 4).map fun k => (memGet s.mem (p.pa + k)).getD 0) := by
  have hload := loadAt_uncached s die part ctx q p.leaf false p.pa 4 fun a h1 h2 => by
    obtain ⟨k, rfl⟩ := Nat.exists_eq_add_of_le h1
    exact allocatable_of_inArrays _ (inArrays_of_aligned (by omega) aligned h)
  have hbytes : readSlot s p.leaf.key p.pa 4 = (List.range 4).map fun k => (memGet s.mem (p.pa + k)).getD 0 :=
    List.map_congr_left fun k hk => by rw [readByte, if_pos (inArrays_of_aligned (List.mem_range.mp hk) aligned h)]
  simp [loadParts, hn, hload, hbytes]

end Sys2Proof.Machine
end

section
/-! SUPPORT. What a turn of the schedule comes to: one theorem for each way that a sequencer's turn can go, and one for each way
that a fetch can (R4, R30, R42, R43, R76, R112, R120, R384, R387, R390, R395). -/

namespace Sys2Proof.Machine

theorem step_of_turn {s : State} {t : Turn} {rest : List Turn} (hp : s.powered = true) (ht : s.turns = t :: rest) :
    step s = takeTurn { s with turns := rest } t := by
  rw [step, ht]
  exact if_pos (by rw [hp]; rfl)

/-! ## Fetched words -/

theorem runWords_executes {s : State} {u : UnitRec} {w pl : BitVec 32} {i : Instr} (hd : decodeSeq w pl = .ok i)
    (hok : seqOk u.ver i = true) (hz : hazard s s.cur i = false) (ha : awaitsRecord s u i = false) :
    runWords s u w pl = exec i s := by
  simp [runWords, hd, hok, hz, ha]

theorem runWords_waits {s : State} {u : UnitRec} {w pl : BitVec 32} {i : Instr} (hd : decodeSeq w pl = .ok i)
    (hok : seqOk u.ver i = true) (hw : hazard s s.cur i = true ∨ awaitsRecord s u i = true) :
    runWords s u w pl = .next s := by
  simp [runWords, hd, hok, hw]

theorem runWords_traps {s : State} {u : UnitRec} {w pl : BitVec 32}
    (hd : (∃ e, decodeSeq w pl = .error e) ∨ ∃ i, decodeSeq w pl = .ok i ∧ seqOk u.ver i = false) :
    runWords s u w pl = .next (trapWord s w pl) := by
  obtain ⟨e, hd⟩ | ⟨i, hd, hok⟩ := hd
  · simp [runWords, hd]
  · simp [runWords, hd, hok]

/-- Keeping the fetched words leaves the sequencer that moves. -/
theorem hazard_of_cur {s : State} {q : SeqId} {g : Seq → Seq} {i : Instr} {b : Bool} (hcur : s.cur = q)
    (h : hazard (s.updCpu g) q i = b) : hazard (s.updCpu g) (s.updCpu g).cur i = b := by
  rw [show (s.updCpu g).cur = q from hcur, h]

theorem runNext_of_words {s s1 : State} {u : UnitRec} {w pl : BitVec 32} (hf : fetchInstr s s.cur u = (s1, .words w pl)) :
    runNext s u = runWords (s1.updCpu fun c => c.hold w pl) u w pl := by
  rw [runNext, hf]

/-! ## A sequencer's turn -/

theorem cwempty_none {s : State} {q : SeqId} (hn : atBoundary s q = false ∨ cwemptyFor s q = none) :
    (if atBoundary s q then cwemptyFor s q else none) = none := by
  obtain hn | hn := hn
  · rw [hn]; rfl
  · rw [hn]; exact ite_self none

section
variable {s : State} {q : SeqId} {u : UnitRec} (hrun : (s.seqs.get q).run = some u) (hwait : (s.seqs.get q).wait = .none)
include hrun hwait

theorem seqTurn_of_cut (hcut : heldByCut { s with cur := q } q = true) :
    seqTurn s q = if marksNext { s with cur := q } q then runNext { s with cur := q } u else .next { s with cur := q } := by
  simp [seqTurn, hrun, hwait, hcut]

theorem seqTurn_of_cwempty (hcut : heldByCut { s with cur := q } q = false) {r : WalkReq}
    (hb : atBoundary { s with cur := q } q = true) (hc : cwemptyFor { s with cur := q } q = some r) :
    seqTurn s q = .next (deliverCwempty { s with cur := q } q r) := by
  simp [seqTurn, hrun, hwait, hcut, hb, hc]

theorem seqTurn_of_record (hcut : heldByCut { s with cur := q } q = false)
    (hn : atBoundary { s with cur := q } q = false ∨ cwemptyFor { s with cur := q } q = none) {g : Graph}
    (hg : recordFor { s with cur := q } q u = some g) :
    seqTurn s q = exec (.fabricTrap g.ctx g.handle) { s with cur := q } := by
  simp [seqTurn, hrun, hwait, hcut, cwempty_none hn, hg, exec]

theorem seqTurn_of_next (hcut : heldByCut { s with cur := q } q = false)
    (hn : atBoundary { s with cur := q } q = false ∨ cwemptyFor { s with cur := q } q = none)
    (hg : recordFor { s with cur := q } q u = none) : seqTurn s q = runNext { s with cur := q } u := by
  simp [seqTurn, hrun, hwait, hcut, cwempty_none hn, hg]

end

/-! ## A fetch -/

theorem fetchWord_of_ahead {s : State} {q : SeqId} {u : UnitRec} {va : Word} {e : Word × BitVec 32}
    (h : (s.seqs.get q).ahead.find? (fun e => e.1 == va) = some e) : fetchWord s q u va = (s, .bytes (toBytes 4 e.2.toNat)) := by
  rw [fetchWord, h]

/-- The words of an instruction that has been fetched whole (R30, R43). -/
theorem fetchInstr_of_ahead {s : State} {q : SeqId} (u : UnitRec) {w pl : BitVec 32}
    (h : (s.seqs.get q).ahead = [((s.seqs.get q).pc, w), ((s.seqs.get q).pc + 4, pl)]) :
    fetchInstr s q u = (s, .words w (if isQX w then pl else 0)) := by
  have first := fetchWord_of_ahead (s := s) (q := q) (u := u) (va := (s.seqs.get q).pc) (e := ((s.seqs.get q).pc, w)) (by simp [h])
  have second := fetchWord_of_ahead (s := s) (q := q) (u := u) (va := (s.seqs.get q).pc + 4) (e := ((s.seqs.get q).pc + 4, pl))
    (by simp [h])
  simp only [fetchInstr, first, second, wordOf_toBytes]
  split <;> rfl

section
variable {s s1 : State} {q : SeqId} {u : UnitRec} {p : Part}

section
variable {h : Holder} {ctx : BitVec 12} {part die va : Nat} {ps : List Part} (hlines : meteredLines ps ≠ [])
include hlines

theorem admitLines_of_unpaid {r : PortReq} (hask : s.portReqs.find? (fun r => r.holder == h && r.va == va) = some r)
    (hunpaid : r.unpaid ≠ []) : admitLines s h ctx part die va ps = (s, false) := by
  simp [admitLines, hlines, hask, hunpaid]

theorem admitLines_of_none (hask : s.portReqs.find? (fun r => r.holder == h && r.va == va) = none) :
    admitLines s h ctx part die va ps =
      ({ s with
          portReqs := s.portReqs ++
            [{ id := s.nextAcc, holder := h, va := va, ctx := ctx, part := part, die := die, unpaid := meteredLines ps }]
          nextAcc := s.nextAcc + 1 }, false) := by
  simp [admitLines, hlines, hask]

theorem admitLines_of_paid {r : PortReq} (hask : s.portReqs.find? (fun r => r.holder == h && r.va == va) = some r)
    (hpaid : r.unpaid = []) : admitLines s h ctx part die va ps = ({ s with portReqs := s.portReqs.erase r }, true) := by
  simp [admitLines, hlines, hask, hpaid]

end

/-- A word that has not been fetched is translated, and then the request ports must admit it (R43, R112). -/
theorem fetchWord_of_not_admitted {s2 : State} (hahead : (s.seqs.get q).ahead = []) (hfence : fencePending s q = false) {va : Word}
    {ps : List Part} (htr : translate s (.seq q) u.ctx u.part (q.val / 16) va.toNat 4 false false false = (s1, .ok ps))
    (had : admitLines s1 (.seq q) u.ctx u.part (q.val / 16) va.toNat ps = (s2, false)) :
    fetchWord s q u va = (s2, .wait) := by
  simp [fetchWord, hahead, hfence, dieOfSeq, htr, had]

theorem fetchWord_of_admitted {s2 : State} (hahead : (s.seqs.get q).ahead = []) (hfence : fencePending s q = false) {va : Word}
    {ps : List Part} (htr : translate s (.seq q) u.ctx u.part (q.val / 16) va.toNat 4 false false false = (s1, .ok ps))
    (had : admitLines s1 (.seq q) u.ctx u.part (q.val / 16) va.toNat ps = (s2, true)) {r : State × List Byte}
    (hload : loadParts s2 (q.val / 16) u.part u.ctx (some q) false ps = r) : fetchWord s q u va = (r.1, .bytes r.2) := by
  simp [fetchWord, hahead, hfence, dieOfSeq, htr, had, hload]

theorem fetchInstr_of_wait (h : fetchWord s q u (s.seqs.get q).pc = (s1, .wait)) : fetchInstr s q u = (s1, .wait) := by
  simp [fetchInstr, h]

theorem fetchInstr_of_word {bs : List Byte} (h : fetchWord s q u (s.seqs.get q).pc = (s1, .bytes bs))
    (hq : isQX (wordOf bs) = false) : fetchInstr s q u = (s1, .words (wordOf bs) 0) := by
  simp [fetchInstr, h, hq]

/-- A word of an array is fetched once the request ports have admitted its line, and reads as the list of bytes has it. -/
theorem fetchInstr_of_array (hahead : (s.seqs.get q).ahead = []) (hfence : fencePending s q = false)
    (htr : translate s (.seq q) u.ctx u.part (q.val / 16) (s.seqs.get q).pc.toNat 4 false false false = (s1, .ok [p])) (hn : p.n = 4)
    (aligned : p.pa % 4 = 0) (harr : inArrays p.pa = true) :
    let byte := fun (k : Nat) => (memGet s.mem (p.pa + k)).getD 0
    let w := byte 3 ++ byte 2 ++ byte 1 ++ byte 0
    let ask := s1.portReqs.find? fun r => r.holder == .seq q && r.va == (s.seqs.get q).pc.toNat
    (∀ r, ask = some r → r.unpaid ≠ [] → fetchInstr s q u = (s1, .wait)) ∧
    (ask = none → fetchInstr s q u = ({ s1 with
      portReqs := s1.portReqs ++ [{ id := s1.nextAcc, holder := .seq q, va := (s.seqs.get q).pc.toNat, ctx := u.ctx, part := u.part
                                    die := q.val / 16, unpaid := [p.pa / 128] }]
      nextAcc := s1.nextAcc + 1 }, .wait)) ∧
    (∀ r, ask = some r → r.unpaid = [] → isQX w = false →
      fetchInstr s q u = ({ s1 with portReqs := s1.portReqs.erase r }, .words w 0)) := by
  intro byte w ask
  have hlines := meteredLines_of_word hn aligned harr
  have metered : meteredLines [p] ≠ [] := by rw [hlines]; exact List.cons_ne_nil _ _
  refine ⟨fun r hask hunpaid => fetchInstr_of_wait (fetchWord_of_not_admitted hahead hfence htr
      (admitLines_of_unpaid metered hask hunpaid)),
    fun hask => fetchInstr_of_wait (fetchWord_of_not_admitted hahead hfence htr ?_), fun r hask hpaid hqx => ?_⟩
  · rw [← hlines]
    exact admitLines_of_none metered hask
  · have had := admitLines_of_paid (ctx := u.ctx) (part := u.part) (die := q.val / 16) metered hask hpaid
    have hword := fetchWord_of_admitted hahead hfence htr had (loadParts_of_word _ _ _ _ _ hn aligned harr)
    have looked := translate_seq_looksUp s q u.ctx u.part (q.val / 16) (s.seqs.get q).pc.toNat 4 false false false
    rw [htr] at looked
    obtain ⟨es, kept, k, fs, ws, rfl, -⟩ := looked
    have hbytes : wordOf ((List.range 4).map byte) = w := wordOf_four _ _ _ _
    rw [← hbytes] at hqx ⊢
    exact fetchInstr_of_word hword hqx

end

/-! ## A node's turn and an event -/

theorem nodeTurn_executes {s : State} {site x : Site} {n : Node} {i : Instr} (hn : nodeOf s site.node = some n)
    (hx : firingSite s n site = some x) (hd : decodeElem (n.word x.slot) = some i) :
    nodeTurn s site = exec i { s with site := x } := by
  simp [nodeTurn, hn, hx, hd]

/-- Settles O57: the turn of a sequencer comes to its next instruction where nothing comes before it, and to what comes before it
where something does; a fetch reads an array's bytes or words fetched ahead; a node and an event have one way to go. -/
theorem stepRunsTheInstruction : Obligations.StepRunsTheInstruction := by
  unfold Obligations.StepRunsTheInstruction
  refine ⟨fun s s1 q rest u w pl hp ht hrun hwait => ?_, fun s q u p hahead hfence s1 htr hn aligned harr =>
    fetchInstr_of_array hahead hfence htr hn aligned harr, fun s q u w pl h => fetchInstr_of_ahead u h,
    fun s site x rest n i hp ht hn hx hd => ?_, fun s rest i hp ht he => ?_⟩
  · have turn : step s = seqTurn { s with turns := rest } q := step_of_turn hp ht
    refine ⟨fun hcut hmark => ?_, fun hcut hmark d k hf hcur hd hok hz => ?_, fun hcut => ⟨fun r hb hc => ?_, fun hn => ⟨fun g hg => ?_,
      fun hg hf hcur => ⟨fun i hd hok hz ha => ?_, fun i hd hok hw => ?_, fun hd ready => ?_⟩⟩⟩⟩
    · exact turn.trans ((seqTurn_of_cut hrun hwait hcut).trans (if_neg (by rw [hmark]; exact Bool.false_ne_true)))
    · have next := turn.trans ((seqTurn_of_cut hrun hwait hcut).trans (if_pos hmark))
      exact next.trans ((runNext_of_words hf).trans (runWords_executes hd hok (hazard_of_cur hcur hz) rfl))
    · exact turn.trans (seqTurn_of_cwempty hrun hwait hcut hb hc)
    · exact turn.trans (seqTurn_of_record hrun hwait hcut hn hg)
    all_goals have next := (turn.trans (seqTurn_of_next hrun hwait hcut hn hg)).trans (runNext_of_words hf)
    · exact next.trans (runWords_executes hd hok (hazard_of_cur hcur hz) ha)
    · exact next.trans (runWords_waits hd hok (hw.imp_left (hazard_of_cur hcur)))
    · exact ⟨_, next.trans (runWords_traps hd), takeTrap_entersHandler ready _⟩
  · exact (step_of_turn hp ht).trans (nodeTurn_executes hn hx hd)
  · exact (step_of_turn hp ht).trans (if_pos (by rw [he]; rfl))

end Sys2Proof.Machine
end

section
/-! Each word is written out, so the decoder computes what it stands for. -/

namespace Sys2Proof.Machine

/-- Settles O55: one evaluation of the decoder for each word. -/
theorem wordsDecode : Obligations.WordsDecode := by
  unfold Obligations.WordsDecode
  exact ⟨rfl, rfl, rfl, rfl, rfl, rfl, rfl, rfl, rfl⟩

end Sys2Proof.Machine
end

section
/-! SUPPORT. What a write to memory may change, by the hardware's own eyes too, and what an arbiter's pass may (R371, R376,
R409). -/

namespace Sys2Proof.Machine

/-! ## Writes to memory -/

/-- What a write may change: memory and its marks, and what follows from the creation of a context or a write to a TAIL. -/
def WritesMemory (s t : State) : Prop :=
  ∃ bytes tags masks dirty tails entries bars born, t =
    { s with mem := bytes, lineTags := tags, residency := masks, llc := dirty, tailWatch := tails, tensors := entries
             barriers := bars, fresh := born }

namespace WritesMemory

theorem refl (s : State) : WritesMemory s s := ⟨_, _, _, _, _, _, _, _, rfl⟩

theorem trans {s t u : State} (h : WritesMemory s t) (k : WritesMemory t u) : WritesMemory s u := by
  obtain ⟨_, _, _, _, _, _, _, _, rfl⟩ := h
  obtain ⟨_, _, _, _, _, _, _, _, rfl⟩ := k
  exact ⟨_, _, _, _, _, _, _, _, rfl⟩

theorem foldl {α : Type} {f : State → α → State} (hf : ∀ s x, WritesMemory s (f s x)) (l : List α) (s : State) :
    WritesMemory s (l.foldl f s) := by
  induction l generalizing s with
  | nil => exact refl s
  | cons x rest ih => exact (hf s x).trans (ih (f s x))

theorem writeMem (s : State) (part : Nat) (key : KeyMat) (pa : Nat) (bs : List Byte) :
    WritesMemory s (writeMem s part key pa bs) := by
  obtain ⟨_, _, _, _, e⟩ := writeMem_eq s part key pa bs
  exact ⟨_, _, _, _, _, _, _, _, e⟩

theorem bearContext (s : State) (c : Fin 48 × BitVec 12) : WritesMemory s (bearContext s c) := by
  have born : ∀ u : State, WritesMemory u
      { u with tensors := u.tensors.filter fun t => t.1.1 != c.2, barriers := u.barriers.filter fun b => b.ctx != c.2
               fresh := c.2 :: u.fresh.filter (· != c.2) } := fun u => ⟨_, _, _, _, _, _, _, _, rfl⟩
  unfold Machine.bearContext
  dsimp only
  split
  · exact (writeMem _ _ _ _ _).trans (born _)
  · exact born s

theorem seeWrite (s t : State) (pa n : Nat) : WritesMemory t (seeWrite s t pa n) := by
  have tails : WritesMemory t { t with tailWatch := t.tailWatch.map (TailWatch.see s t pa n) } := ⟨_, _, _, _, _, _, _, _, rfl⟩
  unfold Machine.seeWrite
  split
  · exact tails.trans (foldl bearContext _ _)
  · exact tails

theorem writeSlot (s : State) (part slot pa : Nat) (bs : List Byte) : WritesMemory s (writeSlot s part slot pa bs) := by
  unfold Machine.writeSlot
  split
  · exact writeMem _ _ _ _ _
  · split
    · exact (writeMem _ _ _ _ _).trans (seeWrite _ _ _ _)
    · exact refl s

theorem setDescWord (s : State) (part : Nat) (ctx : BitVec 12) (off : Nat) (w : Word) :
    WritesMemory s (setDescWord s part ctx off w) := writeSlot _ _ _ _ _

theorem setTmeas (s : State) (part : Nat) (ctx : BitVec 12) (d : List Byte) : WritesMemory s (setTmeas s part ctx d) :=
  trans (t := { s with fresh := s.fresh.filter (· != ctx) }) ⟨_, _, _, _, _, _, _, _, rfl⟩
    (foldl (fun _ _ => setDescWord _ _ _ _ _) _ _)

theorem writeTens (s : State) (ctx : BitVec 12) (m : Image) : WritesMemory s (writeTens s ctx m) :=
  foldl (fun _ _ => ⟨_, _, _, _, _, _, _, _, rfl⟩) _ s

end WritesMemory

/-! ## An arbiter's pass -/

/-- What an arbiter's pass may change: bids, grants, what restores have placed, and a LOADCFG's wait, from its bid to its grant. -/
def Arbitrated (s t : State) : Prop :=
  ∃ bids grants restores seqs, t = { s with bids := bids, grants := grants, restores := restores, seqs := seqs } ∧
    ∀ q, seqs.get q = s.seqs.get q ∨
      ∃ m x y, (s.seqs.get q).wait = .bidding m ∧ seqs.get q = { s.seqs.get q with wait := .granted x y m }

theorem Arbitrated.of_frame {s t : State} {bs : List Bid} {gs : List Grant} {rs : List Restore}
    (h : t = { s with bids := bs, grants := gs, restores := rs }) : Arbitrated s t := ⟨bs, gs, rs, s.seqs, h, fun _ => .inl rfl⟩

theorem Arbitrated.trans {s t u : State} (h : Arbitrated s t) (k : Arbitrated t u) : Arbitrated s u := by
  obtain ⟨_, _, _, sq, rfl, ht⟩ := h
  obtain ⟨bs, gs, rs, sq', rfl, hu⟩ := k
  refine ⟨bs, gs, rs, sq', rfl, fun q => ?_⟩
  obtain same | ⟨m, x, y, bidding, granted⟩ := ht q
  · exact same ▸ hu q
  · obtain same | ⟨_, _, _, waits, _⟩ := hu q
    · exact .inr ⟨m, x, y, bidding, same.trans granted⟩
    · have waits : (sq.get q).wait = _ := waits
      rw [granted] at waits
      cases waits

theorem arbitrated_updSeq (s : State) (q : SeqId) {f : Seq → Seq}
    (hf : f (s.seqs.get q) = s.seqs.get q ∨
      ∃ m x y, (s.seqs.get q).wait = .bidding m ∧ f (s.seqs.get q) = { s.seqs.get q with wait := .granted x y m }) :
    Arbitrated s (s.updSeq q f) := by
  refine ⟨_, _, _, (s.updSeq q f).seqs, rfl, fun p => ?_⟩
  rw [State.updSeq_get]
  by_cases hp : p = q
  · subst hp
    rw [if_pos rfl]
    exact hf
  · exact .inl (if_neg hp)

theorem arbitrated_grantBid (s : State) (b : Bid) (x y : Nat) : Arbitrated s (grantBid s b x y) := by
  unfold grantBid
  cases b.restore with
  | some handle => exact .of_frame rfl
  | none =>
    refine (Arbitrated.of_frame rfl).trans (arbitrated_updSeq _ b.q ?_)
    split
    · next m hm => exact .inr ⟨m, x, y, hm, rfl⟩
    · exact .inl rfl

theorem arbitrated_arbitrate (l : List Bid) (s : State) : Arbitrated s (arbitrate s l) := by
  induction l generalizing s with
  | nil => exact .of_frame rfl
  | cons b rest ih =>
    unfold arbitrate
    split
    · exact ih s
    · split
      · exact (Arbitrated.of_frame rfl : Arbitrated s (bypassAbove s _)).trans ((arbitrated_grantBid _ _ _ _).trans (ih _))
      · split
        · exact .of_frame rfl
        · exact ih s

/-! ## A partition's one bid -/

theorem mapIf_of_none {α : Type} {p : α → Bool} (f : α → α) {l : List α} (h : ∀ x ∈ l, p x = false) : mapIf p f l = l :=
  (List.map_congr_left fun x hx => by simp [h x hx]).trans (List.map_id l)

section
variable {s : State} {b : Bid} (hone : s.bids.filter (fun c => c.part == b.part) = [b])
include hone

theorem bypassAbove_of_one : bypassAbove s b = s := by
  have none_above : ∀ c ∈ s.bids, (c.part == b.part && c != b && bidAbove c b) = false := by
    intro c hc
    by_cases hp : (c.part == b.part) = true
    · have : c ∈ [b] := hone ▸ List.mem_filter.mpr ⟨hc, hp⟩
      simp [List.mem_singleton.mp this]
    · simp [hp]
  rw [bypassAbove, mapIf_of_none _ none_above]

theorem find_bid_of_one : s.bids.find? (fun c => c.part == b.part && c.issue == b.issue && c.q == b.q) = some b := by
  have found : (s.bids.filter fun c => c.part == b.part).find? (fun c => c.issue == b.issue && c.q == b.q) = some b := by
    simp [hone]
  rw [List.find?_filter] at found
  rw [← found]
  congr 1
  funext c
  simp [Bool.beq_eq_decide_eq, Bool.and_assoc]

/-- The one bid of a partition waits where it fits nowhere, and has the rectangle of its origin where it fits (R376). -/
theorem runArbiter_of_one :
    (fitOrigin s b = none → runArbiter s b.part = s) ∧
    ∀ x y, fitOrigin s b = some (x, y) → runArbiter s b.part = grantBid s b x y := by
  have ranked : rankedBids s b.part = [b] := by rw [rankedBids, hone]; rfl
  rw [runArbiter, ranked, arbitrate, find_bid_of_one hone]
  refine ⟨fun nowhere => ?_, fun x y fits => ?_⟩
  · simp [nowhere, arbitrate]
  · simp [fits, arbitrate, bypassAbove_of_one hone]

end

/-- The grant that a bid gets at an origin. -/
def Bid.grantAt (b : Bid) (x y : Nat) : Grant := { part := b.part, q := b.q, ctx := b.ctx, x := x, y := y, w := b.w, h := b.h }

/-- The grant of a LOADCFG's bid (R376). -/
theorem grantBid_of_bidding {s : State} {b : Bid} (x y : Nat) {m : Image} (hb : b.restore = none)
    (hw : (s.seqs.get b.q).wait = .bidding m) :
    grantBid s b x y = ({ s with grants := s.grants ++ [b.grantAt x y], bids := s.bids.erase b } : State).updSeq b.q
      fun c => { c with wait := .granted x y m } := by
  unfold grantBid State.updSeq
  simp only [hb, hw]
  rfl

theorem grantBid_bids (s : State) (b : Bid) (x y : Nat) : (grantBid s b x y).bids = s.bids.erase b := by
  unfold grantBid
  cases b.restore <;> rfl

theorem grantBid_grants (s : State) (b : Bid) (x y : Nat) : (grantBid s b x y).grants = s.grants ++ [b.grantAt x y] := by
  unfold grantBid
  cases b.restore <;> rfl

/-- A LOADCFG that moves and gets its grant goes on with it. -/
theorem grantBid_wait_of_bidding {s : State} {b : Bid} (x y : Nat) {m : Image} (hb : b.restore = none) (hq : b.q = s.cur)
    (hw : s.cpu.wait = .bidding m) : (grantBid s b x y).cpu.wait = .granted x y m := by
  rw [grantBid_of_bidding x y hb (by rw [hq]; exact hw), hq]
  exact congrArg Seq.wait (State.cpu_updCpu _ _)

theorem advanceRestores_of_none {s : State} {part : Nat} (h : ∀ r ∈ s.restores, r.part ≠ part) : advanceRestores s part = s := by
  have : s.restores.filter (fun r => r.part == part) = [] := List.filter_eq_nil_iff.mpr fun r hr => by simp [h r hr]
  rw [advanceRestores, this, List.foldl_nil]

theorem admissionArbitrate_grants (s : State) (b : Bid) (x y : Nat) (m : Image)
    (hone : (s.bids.filter fun c => c.part == b.part) = [b]) (hb : b.restore = none) (hnone : ∀ r ∈ s.restores, r.part ≠ b.part)
    (fits : fitOrigin s b = some (x, y)) (hw : (s.seqs.get b.q).wait = .bidding m) :
    runsTo (.admissionArbitrate b.part) s fun t =>
      t.bids = s.bids.erase b ∧
      t.grants = s.grants ++ [{ part := b.part, q := b.q, ctx := b.ctx, x := x, y := y, w := b.w, h := b.h }] ∧
      { t with bids := s.bids, grants := s.grants, seqs := s.seqs } = s ∧
      t.seqs.get b.q = { s.seqs.get b.q with wait := .granted x y m } ∧ ∀ q, q ≠ b.q → t.seqs.get q = s.seqs.get q := by
  have granted : arbitrate s (rankedBids s b.part) = _ :=
    ((runArbiter_of_one hone).2 x y fits).trans (grantBid_of_bidding x y hb hw)
  refine ⟨arbitrate s (rankedBids s b.part), congrArg _ (advanceRestores_of_none ?_), ?_⟩
  · rw [granted]
    exact hnone
  · rw [granted]
    refine ⟨rfl, rfl, rfl, ?_, fun q hq => ?_⟩
    · exact (State.updSeq_get _ _ _ _).trans (if_pos rfl)
    · exact (State.updSeq_get _ _ _ _).trans (if_neg hq)

end Sys2Proof.Machine
end

section
/-! SUPPORT. LOADCFG: what each outcome of its image comes to, its bid, and the graph that its grant makes resident (R274). -/

namespace Sys2Proof.Machine

/-! ## Reading and checking the image -/

/-- A LOADCFG that has not bid: its image's sections so far. -/
def HasRead (w : Wait) (sofar : Image) : Prop := (w = .none ∧ sofar = []) ∨ w = .loading sofar

section
variable {s s1 : State} {u : UnitRec} {d a b : Reg} {sofar m : Image}

theorem exec_loadcfg_of_hasRead (hrun : s.cpu.run = some u) (hread : HasRead s.cpu.wait sofar) :
    exec (.loadcfg d a b) s = .next (loadcfgBegin a b u s) := by
  refine (withUnit_of_run hrun).trans ?_
  obtain ⟨hw, -⟩ | hw := hread <;> rw [hw]

theorem exec_loadcfg_of_bidding (hrun : s.cpu.run = some u) (hw : s.cpu.wait = .bidding m) : exec (.loadcfg d a b) s = .next s := by
  refine (withUnit_of_run hrun).trans ?_
  rw [hw]

theorem exec_loadcfg_of_granted (hrun : s.cpu.run = some u) {x y : Nat} (hw : s.cpu.wait = .granted x y m) :
    exec (.loadcfg d a b) s = .next (makeResident d a b u m x y s) := by
  refine (withUnit_of_run hrun).trans ?_
  rw [hw]

theorem loadcfgBegin_of_oprng (hprio : 8 ≤ (s.cpu.reg b).toNat) : loadcfgBegin a b u s = trapOprng s := if_pos hprio

theorem loadcfgBegin_of_misal (hprio : (s.cpu.reg b).toNat < 8) (hbase : (s.cpu.reg a).toNat % 64 ≠ 0) :
    loadcfgBegin a b u s = trapMisal s (s.cpu.reg a) false false :=
  (if_neg (Nat.not_le_of_lt hprio)).trans (if_pos hbase)

section
variable (hread : HasRead s.cpu.wait sofar) (hprio : (s.cpu.reg b).toNat < 8) (hbase : (s.cpu.reg a).toNat % 64 = 0)
include hread hprio hbase

theorem loadcfgBegin_of_wait (h : readImage s u (s.cpu.reg a).toNat sofar = (s1, .wait m)) :
    loadcfgBegin a b u s = setWait s1 (.loading m) := by
  obtain ⟨hw, rfl⟩ | hw := hread <;> simp [loadcfgBegin, hw, Nat.not_le_of_lt hprio, hbase, h]

theorem loadcfgBegin_of_fault {f : FaultInfo} (h : readImage s u (s.cpu.reg a).toNat sofar = (s1, .fault f)) :
    loadcfgBegin a b u s = trapFault s1 f := by
  obtain ⟨hw, rfl⟩ | hw := hread <;> simp [loadcfgBegin, hw, Nat.not_le_of_lt hprio, hbase, h]

theorem loadcfgBegin_of_reject {r o : Nat} (h : readImage s u (s.cpu.reg a).toNat sofar = (s1, .reject r o)) :
    loadcfgBegin a b u s = trapReject s1 (s.cpu.reg a) r o := by
  obtain ⟨hw, rfl⟩ | hw := hread <;> simp [loadcfgBegin, hw, Nat.not_le_of_lt hprio, hbase, h]

variable (h : readImage s u (s.cpu.reg a).toNat sofar = (s1, .image m))
include h

theorem loadcfgBegin_of_checkImage {r o : Nat} (hcheck : checkImage m = some (r, o)) :
    loadcfgBegin a b u s = trapReject s1 (s.cpu.reg a) r o := by
  obtain ⟨hw, rfl⟩ | hw := hread <;> simp [loadcfgBegin, hw, Nat.not_le_of_lt hprio, hbase, h, hcheck]

theorem loadcfgBegin_of_not_fitsSomewhere (hcheck : checkImage m = none)
    (hfits : fitsSomewhere s1 (imageBid s1 u m (s.cpu.reg b).toNat) = false) :
    loadcfgBegin a b u s = trapReject s1 (s.cpu.reg a) 0x12 0 := by
  obtain ⟨hw, rfl⟩ | hw := hread <;> simp [loadcfgBegin, hw, Nat.not_le_of_lt hprio, hbase, h, hcheck, hfits]

end

/-! ## The bid -/

/-- The state in which a bid has arrived, before the arbiter runs. -/
def bidArrives (s : State) (bid : Bid) (m : Image) : State :=
  setWait { s with bids := s.bids ++ [bid], nextBid := s.nextBid + 1 } (.bidding m)

theorem loadcfgBegin_of_bid (hread : HasRead s.cpu.wait sofar) (hprio : (s.cpu.reg b).toNat < 8)
    (hbase : (s.cpu.reg a).toNat % 64 = 0) (h : readImage s u (s.cpu.reg a).toNat sofar = (s1, .image m))
    (hcheck : checkImage m = none) (hfits : fitsSomewhere s1 (imageBid s1 u m (s.cpu.reg b).toNat) = true) :
    loadcfgBegin a b u s = runArbiter (bidArrives s1 (imageBid s1 u m (s.cpu.reg b).toNat) m) u.part := by
  obtain ⟨hw, rfl⟩ | hw := hread <;> simp [loadcfgBegin, bidArrives, hw, Nat.not_le_of_lt hprio, hbase, h, hcheck, hfits]

/-- What Configuration says of a state in which a LOADCFG from s, its image read in s1, holds a wait. -/
def HoldsBid (s s1 t : State) (w : Wait) : Prop :=
  t.cpu = { s.cpu with wait := w } ∧
  (∀ q, q ≠ s.cur → (∀ k, (s.seqs.get q).wait ≠ .bidding k) → t.seqs.get q = s.seqs.get q) ∧
  { t with bids := s1.bids, grants := s1.grants, nextBid := s1.nextBid, seqs := s1.seqs, restores := s1.restores } = s1

theorem bidArrives_get {bid : Bid} (hcur : s1.cur = s.cur) (hseqs : s1.seqs = s.seqs) (q : SeqId) :
    (bidArrives s1 bid m).seqs.get q = if q = s.cur then { s.cpu with wait := .bidding m } else s.seqs.get q := by
  rw [bidArrives, setWait, State.updCpu, State.updSeq_get, hcur, hseqs]
  rfl

theorem bidArrives_one {bid : Bid} (h : ∀ c ∈ s.bids, c.part ≠ bid.part) :
    (bidArrives s bid m).bids.filter (fun c => c.part == bid.part) = [bid] := by
  have others : s.bids.filter (fun c => c.part == bid.part) = [] := List.filter_eq_nil_iff.mpr fun c hc => by simp [h c hc]
  calc (s.bids ++ [bid]).filter (fun c => c.part == bid.part) = [] ++ [bid].filter fun c => c.part == bid.part := by
        rw [List.filter_append, others]
    _ = [bid] := by simp

/-- The arbiter leaves the LOADCFG bidding or grants it a rectangle. -/
theorem holdsBid_of_arbitrated {t : State} {bid : Bid} (hcur : s1.cur = s.cur) (hseqs : s1.seqs = s.seqs)
    (h : Arbitrated (bidArrives s1 bid m) t) :
    HoldsBid s s1 t t.cpu.wait ∧ (t.cpu.wait = .bidding m ∨ ∃ x y, t.cpu.wait = .granted x y m) := by
  obtain ⟨bs, gs, rs, sq, ht, hq⟩ := h
  have hcpu : t.cpu = sq.get s.cur := by rw [ht, ← hcur]; rfl
  have hsq : t.seqs = sq := by rw [ht]
  have arrived := bidArrives_get (bid := bid) (m := m) hcur hseqs
  have others : ∀ q, q ≠ s.cur → (∀ k, (s.seqs.get q).wait ≠ .bidding k) → sq.get q = s.seqs.get q := by
    intro q hne quiet
    have was := (arrived q).trans (if_neg hne)
    obtain same | ⟨k, _, _, waits, _⟩ := hq q
    · exact same.trans was
    · exact absurd (was ▸ waits) (quiet k)
  have mine : sq.get s.cur = { s.cpu with wait := .bidding m } ∨ ∃ x y, sq.get s.cur = { s.cpu with wait := .granted x y m } := by
    have was := (arrived s.cur).trans (if_pos rfl)
    obtain same | ⟨k, x, y, waits, granted⟩ := hq s.cur
    · exact .inl (same.trans was)
    · rw [was] at waits granted
      cases waits
      exact .inr ⟨x, y, granted⟩
  refine ⟨⟨?_, fun q hne quiet => hsq ▸ others q hne quiet, by rw [ht]; rfl⟩, ?_⟩
  · obtain same | ⟨x, y, granted⟩ := mine
    · rw [hcpu, same]
    · rw [hcpu, granted]
  · obtain same | ⟨x, y, granted⟩ := mine
    · exact .inl (by rw [hcpu, same])
    · exact .inr ⟨x, y, by rw [hcpu, granted]⟩

/-- The bid of an image that fits somewhere: it waits or is granted; where it is its partition's one bid, by the origin that fits
(R274, R376). -/
theorem loadcfg_bids {prio : Nat} (hcur : s1.cur = s.cur) (hseqs : s1.seqs = s.seqs)
    (hexec : exec (.loadcfg d a b) s = .next (runArbiter (bidArrives s1 (imageBid s1 u m prio) m) u.part)) :
    (runsTo (.loadcfg d a b) s fun t => ∃ w, HoldsBid s s1 t w ∧ (w = .bidding m ∨ ∃ x y, w = .granted x y m)) ∧
    ((∀ c ∈ s1.bids, c.part ≠ u.part) →
      (fitOrigin s1 (imageBid s1 u m prio) = none → runsTo (.loadcfg d a b) s fun t =>
        HoldsBid s s1 t (.bidding m) ∧ t.bids = s1.bids ++ [imageBid s1 u m prio] ∧ t.grants = s1.grants) ∧
      ∀ x y, fitOrigin s1 (imageBid s1 u m prio) = some (x, y) → runsTo (.loadcfg d a b) s fun t =>
        HoldsBid s s1 t (.granted x y m) ∧ t.bids = s1.bids ∧
          t.grants = s1.grants ++ [(imageBid s1 u m prio).grantAt x y]) := by
  generalize hbid : imageBid s1 u m prio = bid at *
  obtain ⟨hpart, hq, hnew⟩ : bid.part = u.part ∧ bid.q = s.cur ∧ bid.restore = none := by
    subst hbid
    exact ⟨rfl, hcur, rfl⟩
  refine ⟨⟨_, hexec, _, holdsBid_of_arbitrated hcur hseqs (arbitrated_arbitrate _ _)⟩, fun alone => ?_⟩
  rw [← hpart] at alone hexec
  obtain ⟨waits, granted⟩ := runArbiter_of_one (bidArrives_one (m := m) alone)
  refine ⟨fun nowhere => ⟨_, hexec, ?_⟩, fun x y fits => ⟨_, hexec, ?_⟩⟩
  · rw [waits nowhere]
    have wait : (bidArrives s1 bid m).cpu.wait = .bidding m := congrArg Seq.wait (State.cpu_updCpu _ _)
    exact ⟨wait ▸ (holdsBid_of_arbitrated hcur hseqs (.of_frame rfl)).1, rfl, rfl⟩
  · rw [granted x y fits]
    have wait : (grantBid (bidArrives s1 bid m) bid x y).cpu.wait = .granted x y m :=
      grantBid_wait_of_bidding x y hnew (hq.trans hcur.symm) (congrArg Seq.wait (State.cpu_updCpu _ _))
    refine ⟨wait ▸ (holdsBid_of_arbitrated hcur hseqs (arbitrated_grantBid _ _ _ _)).1, ?_, grantBid_grants _ _ _ _⟩
    have fresh : bid ∉ s1.bids := fun h => alone bid h rfl
    calc (grantBid (bidArrives s1 bid m) bid x y).bids = (s1.bids ++ [bid]).erase bid := grantBid_bids _ _ _ _
      _ = s1.bids := by rw [List.erase_append_right _ fresh]; simp

end

/-! ## Residence -/

/-- The record of a job to which LOADCFG gives a handle. -/
def JobRec.give (j : JobRec) (h : Nat) : JobRec :=
  { j with given := if j.given.contains h then j.given else j.given ++ [h], freed := j.freed.erase h }

theorem JobRec.mem_given_give (j : JobRec) (h : Nat) : h ∈ (j.give h).given := by
  unfold JobRec.give
  dsimp only
  split
  · exact List.contains_iff_mem.mp ‹_›
  · simp

theorem jobRecOf_ctx (s : State) (ctx : BitVec 12) : (jobRecOf s ctx).ctx = ctx := by
  unfold jobRecOf
  cases hf : s.jobRecs.find? fun j => j.ctx == ctx with
  | none => rfl
  | some j => simpa using List.find?_some hf

theorem jobRecOf_setJob (s : State) (ctx : BitVec 12) {f : JobRec → JobRec} (hf : ∀ j, (f j).ctx = j.ctx) :
    jobRecOf (setJob s ctx f) ctx = f (jobRecOf s ctx) := by
  have found := find_upsert_self (fun j => j.ctx == ctx) (f (jobRecOf s ctx)) (by simp [hf, jobRecOf_ctx]) s.jobRecs
  exact congrArg (Option.getD · _) found

/-- Another node only in the operands that its slots wait on. -/
def SameButGated (n n2 : Node) : Prop := n2.ref = n.ref ∧ n2.slots = n.slots ∧ n2.depths = n.depths ∧ n2.store = n.store

theorem markGated_eq (s : State) (g : Graph) :
    ∃ p f, (∀ n, SameButGated n (f n)) ∧ markGated s g = { s with nodes := mapIf p f s.nodes } := by
  refine ⟨_, _, ?_, rfl⟩
  exact fun _ => ⟨rfl, rfl, rfl, rfl⟩

theorem ensurePhase_eq (s : State) (ctx : BitVec 12) (die : Nat) (n : BitVec 32) :
    ∃ ps, ensurePhase s ctx die n = { s with phases := ps } := by
  unfold ensurePhase
  split
  · exact ⟨_, rfl⟩
  · exact ⟨_, rfl⟩

theorem mem_mapIf_of_mem {α : Type} {P : α → α → Prop} {p : α → Bool} {f : α → α} (hrefl : ∀ x, P x x) (hf : ∀ x, P x (f x))
    {l : List α} {x : α} (hx : x ∈ l) : ∃ y ∈ mapIf p f l, P x y := by
  refine ⟨_, List.mem_map_of_mem hx, ?_⟩
  split
  · exact hf x
  · exact hrefl x

theorem store_of_mem_loadedNodes {m : Image} {g : Graph} {n : Node} (h : n ∈ loadedNodes m g) : n.store = [] := by
  simp only [loadedNodes, List.mem_append, List.mem_flatMap, List.mem_map, List.mem_singleton] at h
  obtain (⟨_, _, ⟨_, _, rfl⟩ | rfl⟩ | ⟨_, _, rfl⟩) | ⟨_, _, rfl⟩ := h <;> rfl

/-- The state in which a graph has its place, its handle given and its grant used, before the tensor entries and TMEAS of its
image are written. -/
def becomeResident (s : State) (ctx : BitVec 12) (m : Image) (h : Nat) (g : Graph) : State :=
  let s := setJob s ctx fun j => j.give h
  markGated (ensurePhase
    { s with
      graphs := s.graphs ++ [g]
      nodes := s.nodes ++ loadedNodes m g
      tiles := s.tiles ++ loadedTiles m g
      grants := s.grants.filter fun r => r.q != s.cur || r.ctx != ctx } ctx g.die g.phase) g

theorem becomeResident_eq (s : State) (ctx : BitVec 12) (m : Image) (h : Nat) (g : Graph) :
    ∃ phases p f, (∀ n, SameButGated n (f n)) ∧ becomeResident s ctx m h g =
      { s with
        jobRecs := (setJob s ctx fun j => j.give h).jobRecs
        graphs := s.graphs ++ [g]
        nodes := mapIf p f (s.nodes ++ loadedNodes m g)
        tiles := s.tiles ++ loadedTiles m g
        grants := s.grants.filter fun r => r.q != s.cur || r.ctx != ctx
        phases := phases } := by
  unfold becomeResident
  obtain ⟨p, f, hf, hmark⟩ := markGated_eq (ensurePhase _ ctx g.die g.phase) g
  obtain ⟨phases, hphase⟩ := ensurePhase_eq _ ctx g.die g.phase
  rw [hphase] at hmark
  refine ⟨phases, p, f, hf, ?_⟩
  dsimp only
  rw [hphase]
  exact hmark

section
variable {s : State} {u : UnitRec} {d a b : Reg} {m : Image} {h x y : Nat} {g : Graph} (hnext : nextHandle s u.ctx = some h)
  (hg : loadedGraph s u m h x y (s.cpu.reg b).toNat (s.cpu.reg a) = g)
include hnext hg

theorem makeResident_of_locked (hlocked : partLocked s g.die ((loadedNodes m g).map Node.ref) = true) :
    makeResident d a b u m x y s = s := by
  simp [makeResident, hnext, hg, hlocked]

variable (hlocked : partLocked s g.die ((loadedNodes m g).map Node.ref) = false)
include hlocked

theorem makeResident_of_tableFault {f : FaultInfo} (hfault : tableFault s u.part (s.cpu.reg a).toNat = some f) :
    makeResident d a b u m x y s = trapFault { s with grants := s.grants.filter fun r => r.q != s.cur || r.ctx != u.ctx } f := by
  simp [makeResident, hnext, hg, hlocked, hfault]

theorem makeResident_places (hkey : tableFault s u.part (s.cpu.reg a).toNat = none) :
    ∃ t, WritesMemory (becomeResident s u.ctx m h g) t ∧ makeResident d a b u m x y s =
      t.updCpu fun c => ({ c.setReg d (BitVec.ofNat 64 h) with wait := .none } : Seq).next := by
  have entries := WritesMemory.writeTens (becomeResident s u.ctx m h g) u.ctx m
  have measured := WritesMemory.setTmeas (writeTens (becomeResident s u.ctx m h g) u.ctx m) u.part u.ctx
    (sha256 (tmeas (writeTens (becomeResident s u.ctx m h g) u.ctx m) u.part u.ctx ++ m.measure))
  refine ⟨_, entries.trans measured, ?_⟩
  unfold makeResident
  simp only [hnext, hg, hlocked, hkey]
  rfl

/-- The LOADCFG with a grant makes its graph resident and gives its handle (R274). -/
theorem loadcfg_resides (hrun : s.cpu.run = some u) (hgrant : s.cpu.wait = .granted x y m)
    (hkey : tableFault s u.part (s.cpu.reg a).toNat = none) :
    runsTo (.loadcfg d a b) s fun t =>
      t.graphs = s.graphs ++ [g] ∧
      (∀ n ∈ loadedNodes m g, ∃ n2 ∈ t.nodes, SameButGated n n2) ∧
      h ∈ (jobRecOf t u.ctx).given ∧ (∀ r ∈ t.grants, ¬(r.q = s.cur ∧ r.ctx = u.ctx)) ∧
      (∀ q, q ≠ s.cur → t.seqs.get q = s.seqs.get q) ∧
      t.cpu = { s.cpu.setReg d (BitVec.ofNat 64 h) with pc := s.cpu.pc + 4, wait := .none } := by
  obtain ⟨t, written, hmake⟩ := makeResident_places (d := d) (a := a) (b := b) hnext hg hlocked hkey
  obtain ⟨phases, p, f, hf, placed⟩ := becomeResident_eq s u.ctx m h g
  rw [placed] at written
  obtain ⟨_, _, _, _, _, _, _, _, rfl⟩ := written
  refine ⟨_, (exec_loadcfg_of_granted hrun hgrant).trans (congrArg _ hmake), rfl, fun n hn => ?_, ?_,
    fun r hr => ?_, fun q hq => ?_, ?_⟩
  · exact mem_mapIf_of_mem (fun _ => ⟨rfl, rfl, rfl, rfl⟩) hf (List.mem_append_right _ hn)
  · have given : h ∈ (jobRecOf (setJob s u.ctx fun j => j.give h) u.ctx).given := by
      rw [jobRecOf_setJob s u.ctx (f := fun j => j.give h) fun _ => rfl]
      exact JobRec.mem_given_give _ _
    exact given
  · have other := (List.mem_filter.mp hr).2
    rintro ⟨hq, hctx⟩
    simp [hq, hctx] at other
  · exact (onlyCpu_updCpu _ _).2 q hq
  · refine (State.cpu_updCpu _ _).trans ?_
    show ({ s.cpu.setReg d (BitVec.ofNat 64 h) with pc := (s.cpu.setReg d (BitVec.ofNat 64 h)).pc + 4, wait := .none } : Seq) = _
    rw [Seq.setReg_pc]

end

/-! ## The obligation -/

/-- Settles O29: the image's outcomes, the bid, the wait, the grant, and the arbiter's own pass. -/
theorem configuration : Obligations.Configuration := by
  unfold Obligations.Configuration
  refine ⟨fun s s1 u d a b m hrun => ⟨fun sofar hread => ?_, exec_loadcfg_of_bidding hrun, fun x y hgrant => ⟨fun hnone => ?_,
    fun h hnext => ⟨fun hlocked => ?_, fun f hlocked hfault ready => ?_, fun hlocked hkey => ?_⟩⟩⟩, admissionArbitrate_grants⟩
  · have begins := exec_loadcfg_of_hasRead (d := d) (a := a) (b := b) hrun hread
    refine ⟨fun hprio ready => ?_, fun hprio hbase ready => ?_, fun hprio hbase hcur hseqs => ?_⟩
    · exact ⟨_, begins.trans (congrArg _ (loadcfgBegin_of_oprng hprio)), trapHere_entersHandler ready _ _⟩
    · exact ⟨_, begins.trans (congrArg _ (loadcfgBegin_of_misal hprio hbase)), trapHere_entersHandler ready _ _⟩
    have hcpu := cpu_eq_of_seqs hseqs hcur
    refine ⟨fun h => ?_, fun f h ready => ?_, fun r off h ready => ?_, fun h => ⟨fun r off hcheck ready => ?_,
      fun hcheck hfits ready => ?_, fun hcheck hfits => ?_⟩⟩
    · exact begins.trans (congrArg _ (loadcfgBegin_of_wait hread hprio hbase h))
    · exact ⟨_, begins.trans (congrArg _ (loadcfgBegin_of_fault hread hprio hbase h)),
        trapHere_entersHandler_of_cpu hcpu ready _ _⟩
    · exact ⟨_, begins.trans (congrArg _ (loadcfgBegin_of_reject hread hprio hbase h)),
        trapHere_entersHandler_of_cpu hcpu ready _ _⟩
    · exact ⟨_, begins.trans (congrArg _ (loadcfgBegin_of_checkImage hread hprio hbase h hcheck)),
        trapHere_entersHandler_of_cpu hcpu ready _ _⟩
    · exact ⟨_, begins.trans (congrArg _ (loadcfgBegin_of_not_fitsSomewhere hread hprio hbase h hcheck hfits)),
        trapHere_entersHandler_of_cpu hcpu ready _ _⟩
    · have arrives := begins.trans (congrArg _ (loadcfgBegin_of_bid hread hprio hbase h hcheck hfits))
      obtain ⟨bids, alone⟩ := loadcfg_bids hcur hseqs arrives
      refine ⟨bids, fun only => ⟨(alone only).1, fun x y fits => ?_⟩⟩
      obtain ⟨t, hexec, holds, hbids, hgrants⟩ := (alone only).2 x y fits
      refine ⟨t, hexec, holds, hbids, ?_⟩
      rw [hgrants, ← hcur]
      rfl
  · refine (exec_loadcfg_of_granted hrun hgrant).trans (congrArg _ ?_)
    rw [makeResident, hnone]
  · exact (exec_loadcfg_of_granted hrun hgrant).trans (congrArg _ (makeResident_of_locked hnext rfl hlocked))
  · have same : State.cpu { s with grants := s.grants.filter fun r => r.q != s.cur || r.ctx != u.ctx } = s.cpu := rfl
    exact ⟨_, (exec_loadcfg_of_granted hrun hgrant).trans (congrArg _ (makeResident_of_tableFault hnext rfl hlocked hfault)),
      trapHere_entersHandler_of_cpu same ready _ _⟩
  · obtain ⟨t, hexec, hgraphs, hnodes, hgiven, hgrants, hseqs, hcpu⟩ :=
      loadcfg_resides (d := d) (b := b) hnext rfl hlocked hrun hgrant hkey
    refine ⟨t, hexec, hgraphs, rfl, rfl, rfl, rfl, rfl, fun n hn => ?_, hgiven, hgrants, hseqs, hcpu⟩
    obtain ⟨n2, hn2, href, hslots, hdepths, hstore⟩ := hnodes n hn
    exact ⟨n2, hn2, href, hslots, hdepths, hstore.trans (store_of_mem_loadedNodes hn)⟩

end Sys2Proof.Machine
end

section
/-! SUPPORT. What each record reads as right after reset: every table is empty, and a record that no table names is the
free one (R86, R112, R407, R412, R432). -/

namespace Sys2Proof.Machine

theorem partOf_reset (k : Nat) : partOf State.reset k = Partition.free := by
  unfold partOf
  split
  · exact Vector.getElem_replicate _
  · rfl

theorem seqs_get_reset (q : SeqId) : State.reset.seqs.get q = Seq.reset := Vector.getElem_replicate _

theorem meas_get_reset (i : Fin 8) : State.reset.meas.get i = 0 := Vector.getElem_replicate _

theorem bucket_free (i : Nat) : bits (bucketEntry State.reset i) 5 0 = 0x3F ∧ bit (bucketEntry State.reset i) 63 = false := by
  have entry : bucketEntry State.reset i = 63 := rfl
  rw [entry]
  decide

theorem aperture_free (i : Nat) : bits (apertureOf State.reset i) 31 26 = 0x3F ∧ bit (apertureOf State.reset i) 63 = false := by
  have entry : apertureOf State.reset i = BitVec.ofNat 64 (0x3F * 2 ^ 26) := rfl
  rw [entry]
  decide

theorem queue_invalid (part q : Nat) : (queueOf State.reset part q).valid = false := by
  have register : (queueOf State.reset part q).qctl = 0 := rfl
  rw [Queue.valid, register]
  decide

/-- Settles O60: every table of the state after reset is empty, so each record reads as the free one. -/
theorem resetState : Obligations.ResetState := by
  unfold Obligations.ResetState
  refine ⟨rfl, rfl, fun k => ?_, fun r => ⟨rfl, rfl, rfl⟩, fun k => ⟨rfl, rfl⟩, bucket_free, aperture_free,
    queue_invalid, rfl, rfl, rfl, meas_get_reset, rfl, rfl, fun q => ?_⟩
  · rw [partOf_reset]
    exact ⟨rfl, rfl⟩
  · dsimp only
    rw [seqs_get_reset]
    exact ⟨rfl, rfl, rfl, rfl, rfl, rfl, rfl, rfl, rfl⟩

end Sys2Proof.Machine
end

section
/-! SUPPORT. Tables that name a record by a test, and the words whose fields R112, R369, R404 and R432 limit. -/

namespace Sys2Proof.Machine

/-! ## Records by their place -/

/-- Putting a record leaves a search as it was whose test fails on it and on those it replaces. -/
theorem find_upsert_other {α : Type} {p q : α → Bool} {x : α} (hx : q x = false) (hp : ∀ y, p y = true → q y = false)
    (l : List α) : (upsert p x l).find? q = l.find? q := by
  unfold upsert
  split
  · induction l with
    | nil => rfl
    | cons a t ih =>
      have ih : (t.map fun y => if p y then x else y).find? q = t.find? q := by
        by_cases ht : t.any p = true
        · exact ih ht
        · congr 1
          refine (List.map_congr_left fun y hy => ?_).trans (List.map_id t)
          exact if_neg fun h => ht (List.any_eq_true.mpr ⟨y, hy, h⟩)
      by_cases ha : p a = true
      · simp [ha, hx, hp a ha, ih]
      · simp [ha, List.find?_cons, ih]
  · simp [List.find?_append, hx]

theorem mem_upsert_self {α : Type} (p : α → Bool) (x : α) (l : List α) : x ∈ upsert p x l := by
  unfold upsert
  split
  · next h =>
    obtain ⟨y, hy, hp⟩ := List.any_eq_true.mp h
    exact List.mem_map.mpr ⟨y, hy, if_pos hp⟩
  · simp

/-! ## Fields of words -/

theorem testBit_bits (w : Word) (hi lo i : Nat) : (bits w hi lo).testBit i = (decide (lo + i ≤ hi) && w.getLsbD (lo + i)) := by
  rw [bits, Nat.testBit_mod_two_pow, Nat.testBit_div_two_pow, BitVec.getLsbD, Nat.add_comm i lo]
  congr 1
  rw [decide_eq_decide]
  omega

theorem bits_eq_zero_iff {w : Word} {hi lo : Nat} : bits w hi lo = 0 ↔ ∀ i, lo ≤ i → i ≤ hi → w.getLsbD i = false := by
  constructor
  · intro h i hlo hhi
    have := testBit_bits w hi lo (i - lo)
    rw [h, Nat.zero_testBit, show lo + (i - lo) = i by omega] at this
    simpa [hhi] using this.symm
  · intro h
    refine Nat.eq_of_testBit_eq fun i => ?_
    rw [testBit_bits, Nat.zero_testBit]
    by_cases hi : lo + i ≤ hi
    · simp [h (lo + i) (by omega) hi]
    · simp [hi]

/-- A field of three bits that is written reads back. -/
theorem bits_62_60_of_insert (w : Word) {n : Nat} (hn : n < 8) :
    bits ((w &&& ~~~(7#64 <<< 60)) ||| (BitVec.ofNat 64 n <<< 60)) 62 60 = n := by
  refine Nat.eq_of_testBit_eq fun i => ?_
  rw [testBit_bits]
  by_cases hi : i < 3
  · have cleared : (~~~(7#64 <<< 60)).getLsbD (60 + i) = false := by
      obtain rfl | rfl | rfl : i = 0 ∨ i = 1 ∨ i = 2 := by omega
      all_goals rfl
    rw [BitVec.getLsbD_or, BitVec.getLsbD_and, cleared, BitVec.getLsbD_shiftLeft, BitVec.getLsbD_ofNat]
    simp [show 60 + i ≤ 62 by omega, show 60 + i < 64 by omega, show i < 64 by omega]
  · have : n.testBit i = false :=
      Nat.testBit_lt_two_pow (Nat.lt_of_lt_of_le hn (Nat.pow_le_pow_right (n := 2) (by decide) (by omega : 3 ≤ i)))
    simp [this]; omega

theorem zeroBits_iff {w mask : Word} : zeroBits w mask = true ↔ ∀ i < 64, mask.getLsbD i = true → w.getLsbD i = false := by
  simp only [zeroBits, beq_iff_eq]
  constructor
  · intro h i hi hm
    have := congrArg (BitVec.getLsbD · i) h
    simpa [hm] using this
  · intro h
    refine BitVec.eq_of_getLsbD_eq fun i hi => ?_
    cases hm : mask.getLsbD i
    · simp [hm]
    · simp [h i hi hm]

/-- The zero bits of a mask of two fields are those of the fields. -/
theorem zeroBits_iff_of_fields {w mask : Word} {hi lo hi' lo' : Nat} (hhi : hi < 64) (hhi' : hi' < 64)
    (hmask : ∀ i < 64, mask.getLsbD i = decide ((lo ≤ i ∧ i ≤ hi) ∨ (lo' ≤ i ∧ i ≤ hi'))) :
    zeroBits w mask = true ↔ bits w hi lo = 0 ∧ bits w hi' lo' = 0 := by
  rw [zeroBits_iff, bits_eq_zero_iff, bits_eq_zero_iff]
  constructor
  · intro h
    exact ⟨fun i h1 h2 => h i (by omega) (by simp [hmask i (by omega), h1, h2]),
      fun i h1 h2 => h i (by omega) (by simp [hmask i (by omega), h1, h2])⟩
  · rintro ⟨h, h'⟩ i hi hm
    rw [hmask i hi, decide_eq_true_eq] at hm
    obtain ⟨h1, h2⟩ | ⟨h1, h2⟩ := hm
    · exact h i h1 h2
    · exact h' i h1 h2

theorem zeroBits_bucketReserved {v : Word} : zeroBits v bucketReserved = true ↔ bits v 62 48 = 0 ∧ bits v 15 6 = 0 :=
  zeroBits_iff_of_fields (by decide) (by decide) (by decide)

theorem zeroBits_apertureReserved {v : Word} : zeroBits v apertureReserved = true ↔ bits v 62 48 = 0 ∧ bits v 25 12 = 0 :=
  zeroBits_iff_of_fields (by decide) (by decide) (by decide)

theorem Partition.stateOf_withState (r : Partition) {n : Nat} (hn : n < 8) : (r.withState n).stateOf = n :=
  bits_62_60_of_insert r.pctl hn

end Sys2Proof.Machine
end

section
/-! SUPPORT. What the walks of a ring's pages may change (R52 to R84, R369). -/

namespace Sys2Proof.Machine

/-- A state with all that a walk may change as it was in another: memory and what hangs on it, entries and caches of
translations, and copies and pulls in progress. -/
def walkUndone (s t : State) : State :=
  { t with mem := s.mem, lineTags := s.lineTags, residency := s.residency, llc := s.llc, tailWatch := s.tailWatch
           tensors := s.tensors, barriers := s.barriers, fresh := s.fresh, tlb := s.tlb, latched := s.latched, tick := s.tick
           walkCache := s.walkCache, walkFaults := s.walkFaults, cows := s.cows, cwempties := s.cwempties, pulls := s.pulls
           pullsSent := s.pullsSent, freeCtr := s.freeCtr }

/-- Nothing differs but what a walk may change. -/
def Walked (s t : State) : Prop := walkUndone s t = s

namespace Walked

theorem refl (s : State) : Walked s s := rfl

theorem trans {s t u : State} (h : Walked s t) (k : Walked t u) : Walked s u :=
  calc walkUndone s u = walkUndone s (walkUndone t u) := rfl
    _ = walkUndone s t := congrArg _ k
    _ = s := h

theorem of_writesMemory {s t : State} (h : WritesMemory s t) : Walked s t := by
  obtain ⟨_, _, _, _, _, _, _, _, rfl⟩ := h
  rfl

theorem queues {s t : State} (h : Walked s t) : t.queues = s.queues :=
  (congrArg State.queues (show walkUndone s t = s from h) :)
theorem responses {s t : State} (h : Walked s t) : t.responses = s.responses :=
  (congrArg State.responses (show walkUndone s t = s from h) :)
theorem serving {s t : State} (h : Walked s t) : t.serving = s.serving :=
  (congrArg State.serving (show walkUndone s t = s from h) :)

theorem foldl_fst {α β : Type} {f : State × β → α → State × β} (hf : ∀ r x, Walked r.1 (f r x).1) (l : List α) (r : State × β) :
    Walked r.1 (l.foldl f r).1 := by
  induction l generalizing r with
  | nil => exact refl r.1
  | cons x t ih => exact (hf r x).trans (ih _)

theorem markAD (s : State) (part ptkey pa : Nat) (write : Bool) : Walked s (markAD s part ptkey pa write) := by
  unfold Machine.markAD
  dsimp only
  split
  · exact refl s
  · exact of_writesMemory (WritesMemory.writeSlot _ _ _ _ _)

theorem takeFrame (s : State) (part : Nat) (ctx : BitVec 12) (p : PoolRing) : Walked s (takeFrame s part ctx p).1 :=
  of_writesMemory (WritesMemory.writeSlot _ _ _ _ _)

theorem serveCow (s : State) (r : WalkReq) (leafPa : Nat) (pte : Word) : Walked s (serveCow s r leafPa pte).1 := by
  unfold Machine.serveCow
  extract_lets page cwkey pool cow t
  have taken : Walked s t.1 := takeFrame _ _ _ _
  split
  · split <;> exact refl s
  · split
    · exact refl s
    · split
      · exact refl s
      · split
        · split <;> exact refl s
        · split <;> exact taken

theorem servePull (s : State) (r : WalkReq) (leafPa : Nat) (pte : Word) : Walked s (servePull s r leafPa pte).1 := by
  unfold Machine.servePull
  extract_lets page m ask
  split
  · split <;> exact refl s
  · split
    · exact refl s
    · split <;> exact refl s

theorem pickLine (l : List WalkLine) (s : State) : Walked s (pickLine s l).1 := by
  induction l generalizing s with
  | nil => exact refl s
  | cons c t ih =>
    unfold Machine.pickLine
    dsimp only
    split
    · exact refl s
    · have counted : Walked s { s with freeCtr := s.freeCtr + 1 } := rfl
      exact counted.trans (ih _)

theorem walkLine (s : State) (r : WalkReq) (w : Walk × List (Nat × Nat × Word)) : Walked s (walkLine s r w).1 := by
  unfold Machine.walkLine
  split
  · exact refl s
  · exact pickLine _ _

theorem walkFor (s : State) (r : WalkReq) : Walked s (walkFor s r).1 := by
  unfold Machine.walkFor
  split
  · exact refl s
  · next ptkey root _ =>
    have line := walkLine s r (walkMemory s ptkey root r.va)
    extract_lets w
    split
    · next s1 c e =>
      rw [e] at line
      split <;> exact line
    · next s1 e =>
      rw [e] at line
      exact line

theorem tlbEmpty (s : State) (r : WalkReq) : Walked s (tlbEmpty s r) := rfl

theorem filled (s : State) (r : WalkReq) (new : List WalkLine) (leaf : Leaf) : Walked s (tlbPut (walkKeep s r new) r leaf) := rfl

theorem serveWalk (s : State) (r : WalkReq) : Walked s (serveWalk s r).1 := by
  have walk := walkFor s r
  unfold Machine.serveWalk
  split
  · next s1 c l k e =>
    rw [e] at walk
    exact walk.trans (tlbEmpty _ _)
  · next s1 pa lg level pte e =>
    rw [e] at walk
    split
    · exact walk.trans (tlbEmpty _ _)
    · extract_lets leaf s2 got
      have served : Walked s1 got.1 := by
        unfold got
        split
        · exact servePull _ _ _ _
        · split
          · exact serveCow _ _ _ _
          · exact (markAD _ _ _ _ _).trans (filled _ _ _ _)
      clear_value got
      obtain ⟨s3, g⟩ := got
      cases g with
      | fault f => exact (walk.trans served).trans (tlbEmpty _ _)
      | filled l => exact walk.trans served
      | held => exact walk.trans served

theorem walkPieces (h : Holder) (ctx : BitVec 12) (part die : Nat) (w : Bool) (l : List (Nat × Nat)) (s : State) :
    Walked s (walkPieces h ctx part die w s l).1 := by
  induction l generalizing s with
  | nil => exact refl s
  | cons p t ih =>
    obtain ⟨va, n⟩ := p
    unfold Machine.walkPieces
    extract_lets r got
    have served : Walked s got.1 := by
      unfold got
      split
      · exact refl s
      · exact refl s
      · exact serveWalk _ _
    clear_value got
    obtain ⟨s1, g⟩ := got
    cases g with
    | fault f => exact served
    | held => exact served
    | filled leaf =>
      have rest := ih s1
      dsimp only
      split
      · exact served
      · exact served
      · split
        · next e => rw [e] at rest; exact served.trans rest
        · exact served.trans rest

/-- A translation of hardware that walks itself. -/
theorem translate {h : Holder} (hw : h.walksItself = true) (s : State) (ctx : BitVec 12) (part die va n : Nat) (w a sc : Bool) :
    Walked s (translate s h ctx part die va n w a sc).1 := by
  unfold Machine.translate
  rw [if_pos hw]
  split
  · exact refl s
  · exact walkPieces _ _ _ _ _ _ _

theorem ringHold (s : State) (us : List RingUse) : Walked s (ringHold s us).1 := by
  have begun : Walked s { s with tlb := s.tlb.filter fun e => !us.any fun u => e.holder == .queue u.x.part u.x.q } := rfl
  refine begun.trans (foldl_fst (fun r u => ?_) us (_, true))
  have one := translate (h := .queue u.x.part u.x.q) rfl r.1 u.x.ctx u.x.part (partOf r.1 u.x.part).dieOf u.va u.n u.write false false
  split <;> (rename_i e; rw [e] at one; exact one)

theorem holdRings (s : State) (xs : List Queue) : Walked s (holdRings s xs).1 := by
  unfold Machine.holdRings
  refine foldl_fst (fun r x => ?_) xs (s, true)
  exact ringHold r.1 _

end Walked

end Sys2Proof.Machine
end

section
/-! SUPPORT. A word of a context's descriptor reads back as it was written, whatever contexts the write creates: what that
writes under the same key lies elsewhere in a descriptor (R59, R408, R409). -/

namespace Sys2Proof.Machine

/-! ## Bytes that a write of other bytes leaves -/

/-- A line written under the key that it has keeps what is known of it. -/
theorem retag_of_key {s : State} {line : Nat} {key : KeyMat} (h : (lineTag s line).map LineTag.key = some key) :
    retag s line key = s := by
  obtain ⟨t, ht, hk⟩ := Option.map_eq_some_iff.mp h
  unfold retag
  simp [ht, hk]

theorem HoldsByte.writeLine_outside {s : State} {key : KeyMat} {x pa : Nat} {b : Byte} {bs : List Byte} (h : HoldsByte s key x b)
    (part : Nat) (hpa : inArrays pa = false) (hx : inArrays x = false) (hlen : pa % 128 + bs.length ≤ 128)
    (hout : x < pa ∨ pa + bs.length ≤ x) : HoldsByte (writeLine s part key pa bs) key x b := by
  by_cases hline : x / 128 = pa / 128
  · obtain ⟨u, hmem, htags, e⟩ := writeLine_of_not_inArrays s part key bs hpa
    have tags : lineTag u (pa / 128) = lineTag s (x / 128) := by unfold lineTag; rw [htags, hline]
    rw [e, retag_of_key (by rw [tags, h.tagged])]
    refine h.congr ?_ ?_
    · rw [← tags, hline]; rfl
    · rw [← byteAt_of_not_inArrays hx, byteAt_memPutAll, dif_neg (by omega), byteAt_of_not_inArrays hx, hmem]
  · exact h.writeLine_other part hpa hx hlen hline

/-- A write under the key of a byte leaves it where it lies outside the bytes that are written. -/
theorem HoldsByte.writeMem_outside {s : State} {key : KeyMat} {x pa : Nat} {b : Byte} {bs : List Byte} (h : HoldsByte s key x b)
    (part : Nat) (hx : inArrays x = false) (harr : ∀ y, pa ≤ y → y < pa + bs.length → inArrays y = false)
    (hout : x < pa ∨ pa + bs.length ≤ x) : HoldsByte (writeMem s part key pa bs) key x b := by
  have pieces : ∀ (fuel a n : Nat) (u : State), HoldsByte u key x b → pa ≤ a → a + n ≤ pa + bs.length →
      HoldsByte ((chunks 128 fuel a n).foldl (fun s c => writeLine s part key c.1 (sliceOf bs (c.1 - pa) c.2)) u) key x b := by
    intro fuel
    induction fuel with
    | zero => exact fun _ _ _ hu _ _ => hu
    | succ fuel ih =>
      intro a n u hu hge hle
      unfold chunks
      split
      · exact hu
      · refine ih _ _ _ (hu.writeLine_outside part (harr a hge (by omega)) hx ?_ ?_) (by omega) (by omega)
        · simp; omega
        · simp; omega
  exact pieces _ _ _ s h (Nat.le_refl _) (Nat.le_refl _)

/-! ## Bytes that the creation of a context leaves -/

/-- Where a context that a write creates lies: its CCTL.V is written, under the key of its line. -/
theorem bornIn_mem {s t : State} {pa n : Nat} {p : Fin 48} {c : Fin 48 × BitVec 12} (h : c ∈ bornIn s t pa n p) :
    ∃ k i, c.1 = p ∧ keyMat s (s.parts.get p).tkey = some k ∧ c.2.toNat - (s.parts.get p).ctxBase = i ∧
      pa ≤ (s.parts.get p).tablePa + 128 * i + 0x27 ∧ (s.parts.get p).tablePa + 128 * i + 0x27 < pa + n ∧
      vSet t k ((s.parts.get p).tablePa + 128 * i + 0x27) = true := by
  unfold bornIn at h
  dsimp only at h
  split at h
  · cases h
  · next k hk =>
    have hk : keyMat s (s.parts.get p).tkey = some k := by
      split at hk
      · exact hk
      · cases hk
    obtain ⟨j, -, hj⟩ := List.mem_filterMap.mp h
    obtain ⟨i, hi⟩ : ∃ i, i = (pa - (s.parts.get p).tablePa) / 128 + j := ⟨_, rfl⟩
    rw [← hi] at hj
    split at hj
    · next hcond =>
      cases hj
      simp only [Bool.and_eq_true, decide_eq_true_eq, Bool.not_eq_true'] at hcond
      obtain ⟨⟨⟨⟨hge, hlt⟩, hlast⟩, -⟩, hv⟩ := hcond
      have last : (s.parts.get p).ctxLast < 2 ^ 12 := Nat.mod_lt _ (by decide)
      refine ⟨k, i, rfl, hk, ?_, hge, hlt, hv⟩
      rw [BitVec.toNat_ofNat, Nat.mod_eq_of_lt (by omega)]
      omega
    · cases hj

theorem vSet_key {s : State} {key key' : KeyMat} {v : Nat} (h : vSet s key v = true)
    (htag : (lineTag s (v / 128)).map LineTag.key = some key') : key = key' := by
  obtain ⟨t, ht, hk⟩ := Option.map_eq_some_iff.mp htag
  simp only [vSet, ht, Option.any_some, Bool.and_eq_true, beq_iff_eq] at h
  exact h.1.symm.trans hk

theorem bearContext_keySlots (u : State) (c : Fin 48 × BitVec 12) : (bearContext u c).keySlots = u.keySlots := by
  obtain ⟨_, _, _, _, _, _, _, _, e⟩ := WritesMemory.bearContext u c
  exact (congrArg State.keySlots e :)

theorem bearContext_parts (u : State) (c : Fin 48 × BitVec 12) : (bearContext u c).parts = u.parts := by
  obtain ⟨_, _, _, _, _, _, _, _, e⟩ := WritesMemory.bearContext u c
  exact (congrArg State.parts e :)

/-- The creation of a context writes TMEAS alone, at 0x40 of its descriptor. -/
theorem HoldsByte.bearContext {u : State} {key : KeyMat} {x : Nat} {b : Byte} (h : HoldsByte u key x b) (hx : inArrays x = false)
    (hoff : x % 128 < 0x40) {c : Fin 48 × BitVec 12} {i : Nat} (hkey : keyMat u (u.parts.get c.1).tkey = some key)
    (hi : c.2.toNat - (u.parts.get c.1).ctxBase = i)
    (harr : ∀ y, y / 128 = ((u.parts.get c.1).tablePa + 128 * i) / 128 → inArrays y = false) :
    HoldsByte (bearContext u c) key x b := by
  have aligned : (u.parts.get c.1).tablePa % 128 = 0 := by unfold Partition.tablePa; omega
  obtain ⟨tmeas, htmeas⟩ : ∃ tmeas, (u.parts.get c.1).tablePa + 128 * i + 0x40 = tmeas := ⟨_, rfl⟩
  have written : HoldsByte (writeMem u c.1.val key tmeas (List.replicate 32 0)) key x b := by
    refine h.writeMem_outside c.1.val hx (fun y h1 h2 => harr y ?_) ?_
    · rw [List.length_replicate] at h2; omega
    · rw [List.length_replicate]; omega
  unfold Machine.bearContext
  simp only [hkey, hi, htmeas]
  exact written.of_eq rfl rfl

/-! ## A word of a descriptor -/

/-- Addresses of one line lie in the arrays together. -/
theorem inArrays_of_line {x y : Nat} (h : x / 128 = y / 128) : inArrays x = inArrays y := by
  unfold inArrays arrayBase
  rw [Bool.eq_iff_iff]
  simp only [Bool.and_eq_true, decide_eq_true_eq]
  omega

/-- What the hardware sees of a write of a word before TMEAS leaves the word's bytes. -/
theorem HoldsByte.seeWrite {s t : State} {key : KeyMat} {pa x n : Nat} {b : Byte} (h : HoldsByte t key x b)
    (hpa : inArrays pa = false) (hx : inArrays x = false) (hoff : x % 128 < 0x40) (hline : x / 128 = pa / 128)
    (hn : pa % 128 + n ≤ 128) (hkeys : t.keySlots = s.keySlots) (hparts : t.parts = s.parts) :
    HoldsByte (seeWrite s t pa n) key x b := by
  obtain ⟨w, hw⟩ : ∃ w, w = { t with tailWatch := t.tailWatch.map (TailWatch.see s t pa n) } := ⟨_, rfl⟩
  have start : HoldsByte w key x b := h.of_eq (by rw [hw]) (by rw [hw])
  have bears : ∀ (l : List (Fin 48 × BitVec 12)) (u : State), (∀ c ∈ l, c ∈ (List.finRange 48).flatMap (bornIn s w pa n)) →
      HoldsByte u key x b → u.keySlots = s.keySlots → u.parts = s.parts → HoldsByte (l.foldl Machine.bearContext u) key x b := by
    intro l
    induction l with
    | nil => exact fun _ _ hu _ _ => hu
    | cons c rest ih =>
      intro u hl hu hk hp
      refine ih _ (fun c hc => hl c (List.mem_cons_of_mem _ hc)) ?_ ((bearContext_keySlots u c).trans hk)
        ((bearContext_parts u c).trans hp)
      obtain ⟨p, -, hc⟩ := List.mem_flatMap.mp (hl c List.mem_cons_self)
      obtain ⟨k, i, hcp, hkey, hi, hge, hlt, hv⟩ := bornIn_mem hc
      obtain ⟨v, hvx⟩ : ∃ v, v = (s.parts.get p).tablePa + 128 * i + 0x27 := ⟨_, rfl⟩
      rw [← hvx] at hge hlt hv
      have vline : v / 128 = x / 128 := by omega
      have same : k = key := vSet_key hv (by rw [vline]; exact start.tagged)
      subst hcp same
      have aligned : (s.parts.get c.1).tablePa % 128 = 0 := by unfold Partition.tablePa; omega
      refine hu.bearContext (i := i) hx hoff ?_ ?_ ?_
      · rw [hp, keyMat_congr hk]; exact hkey
      · rw [hp]; exact hi
      · rw [hp]
        exact fun y hy => (inArrays_of_line (by omega)).trans hpa
  unfold Machine.seeWrite
  rw [← hw]
  split
  · exact bears _ w (fun _ hc => hc) start (by rw [hw]; exact hkeys) (by rw [hw]; exact hparts)
  · exact start

/-- The bytes of a word written before TMEAS in its line read back under the slot that they were written under. -/
theorem readByte_writeSlot {s : State} {part slot pa i : Nat} {key : KeyMat} {bs : List Byte} {b : Byte}
    (hkey : keyMat s slot = some key) (hend : pa % 128 + bs.length ≤ 0x40) (hb : bs[i]? = some b) :
    readByte (writeSlot s part slot pa bs) ((keyMat (writeSlot s part slot pa bs) slot).getD 0) (pa + i) = b := by
  obtain ⟨hi, hget⟩ := List.getElem?_eq_some_iff.mp hb
  have line : ∀ y, pa ≤ y → y < pa + bs.length → y / 128 = pa / 128 := fun y h1 h2 => by omega
  cases hpa : inArrays pa with
  | true =>
    have hx : inArrays (pa + i) = true := (inArrays_of_line (line _ (by omega) (by omega))).trans hpa
    obtain ⟨n, hn⟩ : ∃ n, bs.length = n + 1 := ⟨bs.length - 1, by omega⟩
    have write : writeSlot s part slot pa bs = { s with mem := memPutAll s.mem pa bs } := by
      unfold writeSlot
      rw [if_pos hpa, writeMem, hn, chunks_one n (by omega) (by omega), List.foldl_cons, List.foldl_nil, writeLine, if_pos hpa]
      dsimp only
      rw [Nat.sub_self, ← hn, sliceOf_zero_length]
    rw [write]
    have put := byteAt_memPutAll bs s.mem pa (pa + i)
    rw [dif_pos ⟨by omega, by omega⟩] at put
    simp only [Nat.add_sub_cancel_left, hget] at put
    unfold readByte
    rw [if_pos hx]
    unfold byteAt defaultByte at put
    rw [if_pos hx] at put
    dsimp only
    cases hm : memGet (memPutAll s.mem pa bs) (pa + i) with
    | none => rw [hm] at put; exact Option.some.inj put
    | some y => rw [hm] at put; exact Option.some.inj put
  | false =>
    have harr : ∀ y, pa ≤ y → y < pa + bs.length → inArrays y = false := fun y h1 h2 => (inArrays_of_line (line y h1 h2)).trans hpa
    have hx := harr (pa + i) (by omega) (by omega)
    have held : HoldsByte (writeMem s part key pa bs) key (pa + i) b :=
      holdsByte_writeMem s part key (by omega) (by rw [Nat.add_sub_cancel_left]; exact hb) harr
    have seen := held.seeWrite (s := s) (pa := pa) (n := bs.length) hpa hx (by omega) (line _ (by omega) (by omega)) (by omega)
      (writeMem_keySlots s part key pa bs) (writeMem_parts s part key pa bs)
    rw [keyMat_congr (writeSlot_keySlots s part slot pa bs), hkey]
    have write : writeSlot s part slot pa bs = seeWrite s (writeMem s part key pa bs) pa bs.length := by
      simp [writeSlot, hpa, hkey]
    rw [write]
    exact seen.readByte_eq hx

theorem readWord_writeWord {s : State} {part slot pa : Nat} (w : Word) (hkey : (keyMat s slot).isSome)
    (hend : pa % 128 + 8 ≤ 0x40) : readWord (writeWord s part slot pa w) slot pa = w := by
  obtain ⟨key, hkey⟩ := Option.isSome_iff_exists.mp hkey
  have bytes : readSlot (writeWord s part slot pa w) slot pa 8 = toBytes 8 w.toNat := by
    refine List.ext_getElem? fun i => ?_
    by_cases hi : i < 8
    · have hb : (toBytes 8 w.toNat)[i]? = some ((toBytes 8 w.toNat)[i]'(by rw [toBytes_length]; exact hi)) := by simp [hi]
      rw [readSlot_getElem? _ _ _ _ _ hi, hb]
      exact congrArg some (readByte_writeSlot hkey (by rw [toBytes_length]; exact hend) hb)
    · rw [List.getElem?_eq_none, List.getElem?_eq_none]
      · rw [toBytes_length]; omega
      · simp [readSlot, readMem]; omega
  rw [readWord, bytes, ofBytes_toBytes, Nat.mod_eq_of_lt (Nat.lt_of_lt_of_le w.isLt (by decide)), BitVec.ofNat_toNat,
    BitVec.setWidth_eq]

/-- CCTL.CST as it was written, where TKEY's slot holds a key (R408). -/
theorem ctxState_setCtxState {s : State} {part : Nat} (ctx : BitVec 12) {n : Nat} (hn : n < 8)
    (hkey : (keyMat s (partOf s part).tkey).isSome) : ctxState (setCtxState s part ctx n) part ctx = n := by
  have parts : (setCtxState s part ctx n).parts = s.parts := by
    obtain ⟨_, _, _, _, _, _, _, _, e⟩ := WritesMemory.setDescWord s part ctx 0x20
      ((descWord s part ctx 0x20 &&& ~~~(7#64 <<< 60)) ||| (BitVec.ofNat 64 n <<< 60))
    exact (congrArg State.parts e :)
  have same : partOf (setCtxState s part ctx n) part = partOf s part := by unfold partOf; rw [parts]
  have aligned : descPa s part ctx % 128 = 0 := by unfold descPa Partition.tablePa; omega
  have place : descPa (setCtxState s part ctx n) part ctx = descPa s part ctx := by unfold descPa; rw [same]
  rw [ctxState, descWord, place, same]
  exact (congrArg (bits · 62 60) (readWord_writeWord _ hkey (by omega))).trans (bits_62_60_of_insert _ hn)

end Sys2Proof.Machine
end

section
/-! SUPPORT. The requests to the management core: how a request that is served, one that waits and one that is refused end,
and what each changes (R112, R369, R375, R404, R405, R407, R412, R426, R431, R432, R438, R439). -/

namespace Sys2Proof.Machine

/-! ## What each request comes to -/

section
variable (s : State) (r : CreateReq) (part slot i cycles watts : Nat) (w : WrappedKey) (ctl : Bool) (v : Word) (ctx : BitVec 12)

theorem exec_partitionCreate : exec (.partitionCreate r) s = serve 1 (createOk s r) (createPart r) s := rfl

theorem exec_partitionDestroy :
    exec (.partitionDestroy part) s = serve 1 ((partOf s part).stateOf == 2) (fun s => beginScrub s part) s := rfl

theorem exec_keyLoad : exec (.keyLoad slot part w) s =
    serve 2 (decide (slot < 4096) && (partOf s part).stateOf == 1 && (partOf s part).keys.getLsbD slot && (unwrapKey s w).any halvesDiffer)
      (fun t => setKey t slot .loaded ((unwrapKey s w).getD 0)) s := rfl

theorem exec_bucketWrite : exec (.bucketWrite i v) s =
    serve 3 (decide (i < 256) && zeroBits v bucketReserved && bkRate v ≤ 16384 && (!bkEn v || 1 ≤ bkDepth v) && rateSum s i v ≤ 16384)
      (fun s => { s with
        bucketEntries := upsert (fun e => e.1 == i) (i, v) s.bucketEntries
        buckets := mapIf (fun b => b.index == i) (fun b => { b with tokens := min b.tokens (64 * bkDepth v) }) s.buckets }) s := rfl

theorem exec_admissionRegisterWrite : exec (.admissionRegisterWrite part v) s =
    serve 3 (decide (part < 48) && decide (1 ≤ v.toNat) && decide (v.toNat ≤ 255))
      (fun s => setPart s part fun p => { p with blim := v }) s := rfl

theorem exec_apertureWrite : exec (.apertureWrite i v) s =
    serve 4 (decide (i < 256) && zeroBits v apertureReserved && (!apV v || isDram (apBase v)))
      (fun s => { s with apertures := upsert (fun e => e.1 == i) (i, v) s.apertures }) s := rfl

theorem exec_sliceSet : exec (.sliceSet ctx cycles) s =
    serve 5 (partOfCtx s ctx).isSome (fun s =>
      if (cutOf s ctx).isSome then { s with slicePend := upsert (fun e => e.1 == ctx) (ctx, cycles) s.slicePend }
      else { s with slices := upsert (fun e => e.1 == ctx) (ctx, cycles) s.slices }) s := rfl

/-- A lend that its request names ends, and its context is suspended again (R426). -/
def releaseLend (e : Option Lend) (s : State) : State :=
  match e with
  | none => s
  | some l =>
    let s := { s with lends := s.lends.erase l }
    match partOfCtx s l.ctx with
    | some part => setCtxState s part l.ctx 2
    | none => s

theorem exec_lendRelease : exec (.lendRelease v) s =
    serve 7 (s.lends.find? fun l => l.lendId == v).isSome (releaseLend (s.lends.find? fun l => l.lendId == v)) s := rfl

theorem exec_summary : exec .summary s =
    inService .summary (fun s => if s.bstatStage = 2 then summaryStep s else .done (refuseRequest s 8)) s := rfl

theorem exec_blackBoxRead : exec (.blackBoxRead i part) s =
    atOnce (fun s => if s.bstatStage = 2 && true then
      { s with responses := s.responses ++ [.events (((s.blackBox.drop i).take part).map BlackBox.bytes)] } else refuseRequest s 9) s := rfl

theorem exec_powerLimitSet : exec (.powerLimitSet watts) s =
    serve 10 (decide (watts ≤ 3600)) (fun s => { s with powerLimit := watts }) s := rfl

theorem exec_warmResetRequest : exec .warmResetRequest s = serve 11 true warmReset s := rfl

theorem exec_peerKeyReport : exec (.peerKeyReport part i) s =
    atOnce (fun s => if s.bstatStage = 2 && decide (i < 4096) && (partOf s part).ctrs.getLsbD i then
      { s with responses := s.responses ++ [.report (pkrOf s i)], freeCtr := s.freeCtr + 1 } else refuseRequest s 12) s := rfl

theorem exec_managementRequestRefused : exec (.managementRequestRefused i) s =
    atOnce (fun s => if s.bstatStage = 2 && decide (1 ≤ i) && decide (i ≤ 0x0D) then s else refuseRequest s i) s := rfl

/-- The registers of a queue after a write of one of them (R369). -/
def Queue.written (x : Queue) (ctl : Bool) (v : Word) : Queue :=
  if ctl then
    let y := { x with qctl := v &&& ~~~(1#64 <<< 56), stop := none }
    if x.valid then y else { y with head := 0, tail := 0 }
  else { x with qbase := v, head := 0, tail := 0, stop := none }

/-- The state after a write of a queue's register. -/
def writeQueue (s : State) (part q : Nat) (ctl : Bool) (v : Word) : State :=
  setQueue { s with tailWatch := s.tailWatch.filter fun w => (w.part == part && w.q == q) == false } ((queueOf s part q).written ctl v)

theorem exec_queueRegisterWrite (q : Nat) : exec (.queueRegisterWrite part q ctl v) s =
    serveRings (.queueRegisterWrite part q ctl v) 3 (partRings s part fun x => x.q == q) (fun s => queueWriteOk s part q ctl v)
      (fun s => writeQueue s part q ctl v) s := by
  cases ctl <;> rfl

end

/-! ## Service -/

theorem atOnce_of_serving {f : State → State} {s : State} {j : Instr} (h : s.serving = some j) : atOnce f s = .next s := by
  simp [atOnce, h]

theorem atOnce_of_free {f : State → State} {s : State} (h : s.serving = none) : atOnce f s = .next (f s) := by
  simp [atOnce, h]

theorem inService_of_other {i j : Instr} {f : State → Service} {s : State} (h : s.serving = some j) (hne : j ≠ i) :
    inService i f s = .next s := by
  simp [inService, h, hne]

section
variable {i : Instr} {s t : State} (hs : s.serving = none ∨ s.serving = some i) (ht : t.serving = s.serving)
include hs ht

theorem inService_of_done {f : State → Service} (hf : f s = .done t) : inService i f s = .next { t with serving := none } := by
  obtain hs | hs := hs
  · have same : { t with serving := none } = t := by rw [← hs, ← ht]
    simp [inService, hs, hf, same]
  · simp [inService, hs, hf]

theorem inService_of_wait {f : State → Service} (hf : f s = .wait t) : inService i f s = .next { t with serving := some i } := by
  obtain hs | hs := hs
  · simp [inService, hs, hf]
  · have same : { t with serving := some i } = t := by rw [← hs, ← ht]
    simp [inService, hs, hf, same]

end

section
variable {i : Instr} {code : Nat} {rings : List Queue} {ok : State → Bool} {f : State → State} {s t : State}
  (hs : s.serving = none ∨ s.serving = some i) (hready : s.bstatStage = 2)
include hs hready

theorem serveRings_of_wait (hheld : holdRings s rings = (t, false)) : serveRings i code rings ok f s = .next { t with serving := some i } := by
  have walked := Walked.holdRings s rings
  rw [hheld] at walked
  exact inService_of_wait hs walked.serving (by simp only [hready, if_true, hheld])

theorem serveRings_of_refused (hheld : holdRings s rings = (t, true)) (hno : ok t = false) :
    serveRings i code rings ok f s = .next { refuseRequest s code with serving := none } :=
  inService_of_done (t := refuseRequest s code) hs rfl (by simp only [hready, if_true, hheld, hno, Bool.false_eq_true, if_false])

theorem serveRings_of_served (hheld : holdRings s rings = (t, true)) (hok : ok t = true) (hf : (f t).serving = t.serving) :
    serveRings i code rings ok f s = .next { acceptRequest (f t) code with serving := none } := by
  have walked := Walked.holdRings s rings
  rw [hheld] at walked
  exact inService_of_done (t := acceptRequest (f t) code) hs (hf.trans walked.serving) (by simp only [hready, if_true, hheld, hok])

end

theorem serveRings_of_not_ready {i : Instr} {code : Nat} {rings : List Queue} {ok : State → Bool} {f : State → State} {s : State}
    (hs : s.serving = none) (hstage : s.bstatStage ≠ 2) : serveRings i code rings ok f s = .next (refuseRequest s code) := by
  simp [serveRings, inService, hs, hstage]

/-- A request is served: it is accepted, and of the next state a property holds. -/
def Serves (i : Instr) (code : Nat) (s : State) (P : State → Prop) : Prop :=
  runsTo i s fun t => t.responses = s.responses ++ [.accepted code] ∧ P t

/-- A request is refused, and nothing else changes. -/
def Refuses (i : Instr) (code : Nat) (s : State) : Prop :=
  exec i s = .next { s with responses := s.responses ++ [.refused code] }

section
variable {i : Instr} {code : Nat} {ok : Bool} {f : State → State} {s : State} {P : State → Prop}
  (hexec : exec i s = serve code ok f s) (hfree : s.serving = none)
include hexec hfree

theorem refuses_of_serve (h : s.bstatStage ≠ 2 ∨ ok = false) : Refuses i code s := by
  refine hexec.trans ((atOnce_of_free hfree).trans (congrArg _ (if_neg ?_)))
  obtain h | h := h <;> simp [h]

variable (hready : s.bstatStage = 2)
include hready

theorem serves_of_serve (hok : ok = true) (hresp : (f s).responses = s.responses) (hP : P (acceptRequest (f s) code)) :
    Serves i code s P := by
  refine ⟨acceptRequest (f s) code, hexec.trans ((atOnce_of_free hfree).trans (congrArg _ (if_pos ?_))), ?_, hP⟩
  · simp [hready, hok]
  · exact congrArg (· ++ _) hresp

/-- A request is served exactly where its condition holds. -/
theorem serves_iff_ok {cond : Prop} (hiff : ok = true ↔ cond) (hresp : (f s).responses = s.responses)
    (hP : cond → P (acceptRequest (f s) code)) : (cond → Serves i code s P) ∧ (¬cond → Refuses i code s) :=
  ⟨fun h => serves_of_serve hexec hfree hready (hiff.mpr h) hresp (hP h),
    fun h => refuses_of_serve hexec hfree (.inr (Bool.eq_false_iff.mpr fun e => h (hiff.mp e)))⟩

end

/-! ## Partitions -/

theorem ctxState_acceptRequest (s : State) (code part : Nat) (ctx : BitVec 12) :
    ctxState (acceptRequest s code) part ctx = ctxState s part ctx := rfl

theorem partOf_setPart_other (s : State) {p k : Nat} (f : Partition → Partition) (h : k ≠ p) :
    partOf (setPart s p f) k = partOf s k := by
  unfold partOf setPart
  split
  · next hp =>
    split
    · next hk =>
      simp only [get_eq_getElem]
      exact Vector.getElem_set_ne _ _ (Ne.symm h)
    · rfl
  · rfl

theorem setPart_arrays (s : State) (p : Nat) (f : Partition → Partition) : (setPart s p f).arrays = s.arrays := by
  unfold setPart; split <;> rfl

theorem setPart_responses (s : State) (p : Nat) (f : Partition → Partition) : (setPart s p f).responses = s.responses := by
  unfold setPart; split <;> rfl

theorem lt_of_stateOf_ne_zero {s : State} {p : Nat} (h : (partOf s p).stateOf ≠ 0) : p < 48 := by
  refine Decidable.byContradiction fun hp => h ?_
  rw [partOf, dif_neg hp]
  rfl

theorem ownsArray_of_mem_partArrays {p : Partition} {a : ArrayRef} (h : a ∈ partArrays p) : ownsArray p a = true := by
  simp only [partArrays, List.mem_flatMap, List.mem_filter, List.mem_map, List.mem_range] at h
  obtain ⟨i, ⟨-, hbit⟩, k, hk, rfl⟩ := h
  have quad : 256 * (i / 256) + (4 * (i % 256) + k) / 4 = i := by omega
  simp [ownsArray, mapBit, quad, hbit]

/-- Among the arrays of others and the new ones of a partition, each of its own is found as it is new. -/
theorem find_array_of_own {p : Partition} (xs : List ArrayState) {g : ArrayRef → ArrayState} (hg : ∀ a, (g a).ref = a)
    {a : ArrayRef} (ha : a ∈ partArrays p) :
    ((xs.filter fun x => !ownsArray p x.ref) ++ (partArrays p).map g).find? (fun x => x.ref == a) = some (g a) := by
  have others : (xs.filter fun x => !ownsArray p x.ref).find? (fun x => x.ref == a) = none := by
    refine List.find?_eq_none.mpr fun x hx hxa => ?_
    simpa [beq_iff_eq.mp hxa, ownsArray_of_mem_partArrays ha] using (List.mem_filter.mp hx).2
  have own : (partArrays p).find? ((fun x => x.ref == a) ∘ g) = some a := by
    obtain ⟨x, hx⟩ := Option.isSome_iff_exists.mp (List.find?_isSome.mpr ⟨a, ha, (by simp [hg] : ((fun x => x.ref == a) ∘ g) a = true)⟩)
    have same : x = a := by simpa [hg] using List.find?_some hx
    rw [hx, same]
  rw [List.find?_append, others, List.find?_map, own]
  rfl

/-- What a created partition holds, and that its arrays are its own (R86, R405). -/
theorem createPart_holds (s : State) {r : CreateReq} (hr : r.part < 48) :
    partOf (createPart r s) r.part = (createRecord r).withState 1 ∧
    (∀ k, k ≠ r.part → partOf (createPart r s) k = partOf s k) ∧
    ∀ a ∈ partArrays ((createRecord r).withState 1), (arrayOf (createPart r s) a).owner = r.part := by
  refine ⟨partOf_setPart _ _ _ hr, fun k hk => (partOf_setPart_other _ _ hk).trans rfl, fun a ha => ?_⟩
  unfold arrayOf createPart
  rw [setPart_arrays]
  dsimp only [clearArrays]
  rw [find_array_of_own s.arrays (fun _ => rfl) ha]

theorem lt_of_createOk {s : State} {r : CreateReq} (h : createOk s r = true) : r.part < 48 := by
  simp only [createOk, Bool.and_eq_true, decide_eq_true_eq] at h
  obtain ⟨⟨⟨⟨⟨⟨hr, -⟩, -⟩, -⟩, -⟩, -⟩, -⟩ := h
  exact hr

/-- A scrub that begins leaves the partition SCRUBBING with nothing done, and the others as they were (R407). -/
theorem beginScrub_holds {s : State} {part : Nat} (h : (partOf s part).stateOf = 2) :
    (beginScrub s part).responses = s.responses ∧ (partOf (beginScrub s part) part).stateOf = 3 ∧
    (partOf (beginScrub s part) part).scrDone = 0 ∧ ∀ k, k ≠ part → partOf (beginScrub s part) k = partOf s k := by
  have hp : part < 48 := lt_of_stateOf_ne_zero (by rw [h]; decide)
  obtain ⟨f, hf⟩ : ∃ f : Partition → Partition, beginScrub s part = setPart s part f ∧
      (∀ p, (f p).stateOf = 3 ∧ (f p).scrDone = 0) :=
    ⟨_, if_neg (by simp [h]), fun p => ⟨bits_62_60_of_insert p.pctl (by decide), rfl⟩⟩
  obtain ⟨scrub, scrubbing⟩ := hf
  rw [scrub, partOf_setPart s part f hp]
  exact ⟨setPart_responses s part f, (scrubbing _).1, (scrubbing _).2, fun k hk => partOf_setPart_other s f hk⟩

/-! ## Keys -/

theorem keyEntry_setKey (s : State) (k : Nat) (kst : KeyState) (key : KeyMat) :
    keyEntry (setKey s k kst key) k = some { slot := k, kst := kst, key := key } :=
  find_upsert_self (fun e : KeySlot => e.slot == k) _ (beq_self_eq_true k) _

theorem keyEntry_setKey_other (s : State) {k j : Nat} (kst : KeyState) (key : KeyMat) (h : j ≠ k) :
    keyEntry (setKey s k kst key) j = keyEntry s j := by
  refine find_upsert_other ?_ (fun y hy => ?_) _
  · exact beq_false_of_ne h.symm
  · rw [beq_iff_eq.mp hy]; exact beq_false_of_ne h.symm

/-- A slot that is loaded holds its key, and no other slot changes. -/
theorem setKey_loads (s : State) (k : Nat) (key : KeyMat) :
    keyState (setKey s k .loaded key) k = .loaded ∧ keyMat (setKey s k .loaded key) k = some key ∧
    ∀ j, j ≠ k → keyState (setKey s k .loaded key) j = keyState s j ∧ keyMat (setKey s k .loaded key) j = keyMat s j := by
  refine ⟨keyState_setKey _ _ _ _, ?_, fun j hj => ?_⟩
  · simp [keyMat, keyEntry_setKey]
  · simp [keyState, keyMat, keyEntry_setKey_other s .loaded key hj]

theorem unwrapKey_of_ecdh {s : State} {w : WrappedKey} {z : List Byte} (h : ecdh (Config.sealKey s.seed) w.epub = some z) :
    unwrapKey s w = if w.wrapped.length = 64 ∧ gcmTagOf (Config.keyLoadKek z w.epub).1 (Config.keyLoadKek z w.epub).2 [] w.wrapped = w.tag
      then some (BitVec.ofNat 512 (ofBytes (gcmCrypt (Config.keyLoadKek z w.epub).1 (Config.keyLoadKek z w.epub).2 w.wrapped)))
      else none := by
  simp [unwrapKey, h]

/-! ## Queues -/

theorem queueOf_part (s : State) (part q : Nat) : (queueOf s part q).part = part ∧ (queueOf s part q).q = q := by
  unfold queueOf
  split
  · next x hx => simpa using List.find?_some hx
  · exact ⟨rfl, rfl⟩

theorem queueOf_setQueue_other (s : State) (x : Queue) {k j : Nat} (h : (k, j) ≠ (x.part, x.q)) :
    queueOf (setQueue s x) k j = queueOf s k j := by
  have miss : ∀ y : Queue, y.part = x.part ∧ y.q = x.q → (y.part == k && y.q == j) = false := by
    rintro y ⟨hp, hq⟩
    rw [Bool.eq_false_iff]
    intro e
    obtain ⟨hk, hj⟩ := Bool.and_eq_true_iff.mp e
    exact h (by rw [← hp, ← hq, ← beq_iff_eq.mp hk, ← beq_iff_eq.mp hj])
  have find := find_upsert_other (p := fun y : Queue => y.part == x.part && y.q == x.q) (miss x ⟨rfl, rfl⟩)
    (fun y hy => miss y (by simpa using hy)) s.queues
  unfold queueOf setQueue
  dsimp only
  rw [find]

/-- What a write of a queue's registers leaves: of its own, and of the other queues (R369). -/
theorem setQueue_holds {s t : State} {x : Queue} {part q : Nat} (hp : x.part = part ∧ x.q = q) (hq : t.queues = s.queues) :
    queueOf (setQueue t x) part q = x ∧ ∀ k j, (k, j) ≠ (part, q) → queueOf (setQueue t x) k j = queueOf s k j := by
  obtain ⟨rfl, rfl⟩ := hp
  refine ⟨queueOf_setQueue t x, fun k j h => (queueOf_setQueue_other t x h).trans ?_⟩
  unfold queueOf
  rw [hq]

theorem Queue.written_place (x : Queue) (ctl : Bool) (v : Word) : (x.written ctl v).part = x.part ∧ (x.written ctl v).q = x.q := by
  cases ctl with
  | false => exact ⟨rfl, rfl⟩
  | true =>
    simp only [Queue.written, if_true]
    split <;> exact ⟨rfl, rfl⟩

theorem Queue.written_qctl (x : Queue) (v : Word) :
    (x.written true v).qctl = v &&& ~~~(1#64 <<< 56) ∧ (x.written true v).qbase = x.qbase := by
  simp only [Queue.written, if_true]
  split <;> exact ⟨rfl, rfl⟩

/-- The three ends of a write to a queue's registers: a page of its ring must wait, a record of it is open, or it is done. -/
theorem queueRegisterWrite_ends {s : State} {part q : Nat} (ctl : Bool) (v : Word) (hready : s.bstatStage = 2)
    (hs : s.serving = none ∨ s.serving = some (.queueRegisterWrite part q ctl v)) :
    let i := Instr.queueRegisterWrite part q ctl v
    let h := holdRings s (s.queues.filter fun x => x.part == part && x.valid && x.q == q)
    (h.2 = false → exec i s = .next { h.1 with serving := some i }) ∧
    (h.2 = true → queueWriteOk h.1 part q ctl v = false →
      exec i s = .next { s with serving := none, responses := s.responses ++ [.refused 3] }) ∧
    (h.2 = true → queueWriteOk h.1 part q ctl v = true → runsTo i s fun t =>
      t.responses = s.responses ++ [.accepted 3] ∧ t.serving = none ∧
      (let x := queueOf s part q
       (ctl = false → queueOf t part q = { x with qbase := v, head := 0, tail := 0, stop := none }) ∧
       (ctl = true → (queueOf t part q).qctl = v &&& ~~~(1#64 <<< 56) ∧ (queueOf t part q).qbase = x.qbase) ∧
       ∀ k j, (k, j) ≠ (part, q) → queueOf t k j = queueOf s k j)) := by
  intro i h
  have walked : Walked s h.1 := Walked.holdRings s _
  have hheld : holdRings s (partRings s part fun x => x.q == q) = h := rfl
  obtain ⟨t, held⟩ := h
  refine ⟨fun wait => ?_, fun go hno => ?_, fun go hok => ?_⟩
  · exact (exec_queueRegisterWrite ..).trans (serveRings_of_wait hs hready (hheld.trans (congrArg _ wait)))
  · exact (exec_queueRegisterWrite ..).trans (serveRings_of_refused hs hready (hheld.trans (congrArg _ go)) hno)
  · have served := (exec_queueRegisterWrite ..).trans (serveRings_of_served hs hready (hheld.trans (congrArg _ go)) hok rfl)
    have same : queueOf t part q = queueOf s part q := by unfold queueOf; rw [walked.queues]
    obtain ⟨hpart, hq⟩ := queueOf_part s part q
    obtain ⟨wpart, wq⟩ := (queueOf s part q).written_place ctl v
    obtain ⟨mine, others⟩ := setQueue_holds (s := s) (x := (queueOf s part q).written ctl v)
      (t := { t with tailWatch := t.tailWatch.filter fun w => (w.part == part && w.q == q) == false })
      ⟨wpart.trans hpart, wq.trans hq⟩ walked.queues
    rw [writeQueue, same] at served
    refine ⟨_, served, congrArg (· ++ _) walked.responses, rfl, fun hctl => ?_, fun hctl => ?_, others⟩
    · subst hctl
      exact mine
    · subst hctl
      have written := (queueOf s part q).written_qctl v
      exact ⟨(congrArg Queue.qctl mine).trans written.1, (congrArg Queue.qbase mine).trans written.2⟩

/-! ## Buckets, apertures, slices and lends -/

theorem find_upsert_entry {α β : Type} [BEq α] [LawfulBEq α] (i : α) (v : β) (l : List (α × β)) :
    (upsert (fun e : α × β => e.1 == i) (i, v) l).find? (fun e => e.1 == i) = some (i, v) :=
  find_upsert_self (fun e : α × β => e.1 == i) _ (beq_self_eq_true i) l

theorem find_upsert_entry_other {α β : Type} [BEq α] [LawfulBEq α] {i j : α} (h : j ≠ i) (v : β) (l : List (α × β)) :
    (upsert (fun e : α × β => e.1 == i) (i, v) l).find? (fun e => e.1 == j) = l.find? fun e => e.1 == j := by
  refine find_upsert_other ?_ (fun y hy => ?_) l
  · exact beq_false_of_ne h.symm
  · rw [beq_iff_eq.mp hy]; exact beq_false_of_ne h.symm

section
variable {s : State} (hfree : s.serving = none) (hready : s.bstatStage = 2)
include hfree hready

theorem partitionCreate_serves {r : CreateReq} (hok : createOk s r = true) :
    Serves (.partitionCreate r) 1 s fun t =>
      let p := partOf t r.part
      p.stateOf = 1 ∧ p.ctxtab = r.ctxtab ∧ p.tiles = r.tiles ∧ p.quads = r.quads ∧ p.seqs = r.seqs ∧ p.llcWays = r.llcWays ∧
      p.pchs = r.pchs ∧ p.lp6 = r.lp6 ∧ p.keys = r.keys ∧ p.ctrs = r.ctrs ∧ p.blim = 8 ∧
      (∀ k, k ≠ r.part → partOf t k = partOf s k) ∧ ∀ a ∈ partArrays p, (arrayOf t a).owner = r.part := by
  obtain ⟨record, others, arrays⟩ := createPart_holds s (lt_of_createOk hok)
  refine serves_of_serve (exec_partitionCreate ..) hfree hready hok (setPart_responses _ _ _) ?_
  have record : partOf (acceptRequest (createPart r s) 1) r.part = (createRecord r).withState 1 := record
  dsimp only
  rw [record]
  exact ⟨Partition.stateOf_withState _ (by decide), rfl, rfl, rfl, rfl, rfl, rfl, rfl, rfl, rfl, rfl, others, arrays⟩

theorem partitionDestroy_serves {part : Nat} (h : (partOf s part).stateOf = 2) :
    Serves (.partitionDestroy part) 1 s fun t => (partOf t part).stateOf = 3 ∧ (partOf t part).scrDone = 0 ∧
      ∀ k, k ≠ part → partOf t k = partOf s k := by
  obtain ⟨resp, scrubbing, done, others⟩ := beginScrub_holds h
  exact serves_of_serve (exec_partitionDestroy ..) hfree hready (by simp [h]) resp ⟨scrubbing, done, others⟩

theorem keyLoad_serves_iff {slot part : Nat} {w : WrappedKey} {z : List Byte} (hz : ecdh (Config.sealKey s.seed) w.epub = some z) :
    let kek := Config.keyLoadKek z w.epub
    let key := BitVec.ofNat 512 (ofBytes (gcmCrypt kek.1 kek.2 w.wrapped))
    let ok := slot < 4096 ∧ (partOf s part).stateOf = 1 ∧ (partOf s part).keys.getLsbD slot = true ∧
      w.wrapped.length = 64 ∧ gcmTagOf kek.1 kek.2 [] w.wrapped = w.tag ∧ key.extractLsb' 0 256 ≠ key.extractLsb' 256 256
    (ok → Serves (.keyLoad slot part w) 2 s fun t => keyState t slot = .loaded ∧ keyMat t slot = some key ∧
      ∀ j, j ≠ slot → keyState t j = keyState s j ∧ keyMat t j = keyMat s j) ∧
    (¬ok → Refuses (.keyLoad slot part w) 2 s) := by
  intro kek key ok
  have unwrapped : unwrapKey s w = if w.wrapped.length = 64 ∧ gcmTagOf kek.1 kek.2 [] w.wrapped = w.tag then some key else none :=
    unwrapKey_of_ecdh hz
  refine serves_iff_ok (exec_keyLoad ..) hfree hready ?_ rfl fun hok => ?_
  · by_cases hw : w.wrapped.length = 64 ∧ gcmTagOf kek.1 kek.2 [] w.wrapped = w.tag
    · simp [unwrapped, ok, hw, halvesDiffer, and_assoc]
    · rw [unwrapped, if_neg hw]
      simp only [Option.any_none, Bool.and_false, Bool.false_eq_true, false_iff]
      rintro ⟨-, -, -, hlen, htag, -⟩
      exact hw ⟨hlen, htag⟩
  · obtain ⟨-, -, -, hlen, htag, -⟩ := hok
    have loads := setKey_loads s slot key
    rw [unwrapped, if_pos ⟨hlen, htag⟩]
    exact loads

theorem bucketWrite_serves_iff (i : Nat) (v : Word) :
    let ok := i < 256 ∧ bits v 62 48 = 0 ∧ bits v 15 6 = 0 ∧ bits v 31 16 ≤ 16384 ∧
      (bit v 63 = true → 1 ≤ bits v 47 32) ∧ rateSum s i v ≤ 16384
    (ok → Serves (.bucketWrite i v) 3 s fun t => bucketEntry t i = v ∧ ∀ j, j ≠ i → bucketEntry t j = bucketEntry s j) ∧
    (¬ok → Refuses (.bucketWrite i v) 3 s) := by
  refine serves_iff_ok (exec_bucketWrite ..) hfree hready ?_ rfl fun _ => ⟨?_, fun j hj => ?_⟩
  · simp only [zeroBits_bucketReserved, and_assoc, imp_iff_not_or, Bool.and_eq_true, Bool.or_eq_true, decide_eq_true_eq,
      Bool.not_eq_true', Bool.not_eq_true]
    exact Iff.rfl
  · simp [bucketEntry, acceptRequest, find_upsert_entry]
  · simp [bucketEntry, acceptRequest, find_upsert_entry_other hj]

theorem admissionRegisterWrite_serves {part : Nat} {v : Word} (hp : part < 48) (h1 : 1 ≤ v.toNat) (h2 : v.toNat ≤ 255) :
    Serves (.admissionRegisterWrite part v) 3 s fun t =>
      partOf t part = { partOf s part with blim := v } ∧ ∀ k, k ≠ part → partOf t k = partOf s k :=
  serves_of_serve (exec_admissionRegisterWrite ..) hfree hready (by simp [hp, h1, h2]) (setPart_responses _ _ _)
    ⟨partOf_setPart s part _ hp, fun _ hk => partOf_setPart_other s _ hk⟩

theorem apertureWrite_serves_iff (i : Nat) (v : Word) :
    let ok := i < 256 ∧ bits v 62 48 = 0 ∧ bits v 25 12 = 0 ∧ (bit v 63 = true → isDram (bits v 47 32 * 2 ^ 32) = true)
    (ok → Serves (.apertureWrite i v) 4 s fun t => apertureOf t i = v ∧ ∀ j, j ≠ i → apertureOf t j = apertureOf s j) ∧
    (¬ok → Refuses (.apertureWrite i v) 4 s) := by
  refine serves_iff_ok (exec_apertureWrite ..) hfree hready ?_ rfl fun _ => ⟨?_, fun j hj => ?_⟩
  · simp only [zeroBits_apertureReserved, apV, apBase, and_assoc, imp_iff_not_or, Bool.and_eq_true, Bool.or_eq_true,
      decide_eq_true_eq, Bool.not_eq_true', Bool.not_eq_true]
  · simp [apertureOf, acceptRequest, find_upsert_entry]
  · simp [apertureOf, acceptRequest, find_upsert_entry_other hj]

theorem sliceSet_serves {ctx : BitVec 12} (cycles : Nat) (h : (partOfCtx s ctx).isSome) :
    Serves (.sliceSet ctx cycles) 5 s fun t =>
      (cutOf s ctx = none → (ctx, cycles) ∈ t.slices ∧ t.slicePend = s.slicePend) ∧
      ((cutOf s ctx).isSome → (ctx, cycles) ∈ t.slicePend ∧ t.slices = s.slices) := by
  refine serves_of_serve (exec_sliceSet ..) hfree hready h ?_ ?_
  · split <;> rfl
  · cases hc : cutOf s ctx with
    | none => simp [acceptRequest, mem_upsert_self]
    | some c => simp [acceptRequest, mem_upsert_self]

theorem lendRelease_serves {id : Word} {l : Lend} {part : Nat} (hl : s.lends.find? (fun l => l.lendId == id) = some l)
    (hpart : partOfCtx s l.ctx = some part) (hkey : (keyMat s (partOf s part).tkey).isSome) :
    Serves (.lendRelease id) 7 s fun t => t.lends = s.lends.erase l ∧ ctxState t part l.ctx = 2 := by
  obtain ⟨u, hu⟩ : ∃ u, u = { s with lends := s.lends.erase l } := ⟨_, rfl⟩
  have released := WritesMemory.setDescWord u part l.ctx 0x20
    ((descWord u part l.ctx 0x20 &&& ~~~(7#64 <<< 60)) ||| (BitVec.ofNat 64 2 <<< 60))
  have state : ctxState (setCtxState u part l.ctx 2) part l.ctx = 2 := ctxState_setCtxState l.ctx (by decide) (by rw [hu]; exact hkey)
  change WritesMemory u (setCtxState u part l.ctx 2) at released
  have ends : releaseLend (s.lends.find? fun l => l.lendId == id) s = setCtxState u part l.ctx 2 := by
    have upart : partOfCtx u l.ctx = some part := by rw [hu]; exact hpart
    rw [hl]
    simp only [releaseLend, ← hu, upart]
  refine serves_of_serve (exec_lendRelease ..) hfree hready (by rw [hl]; rfl) ?_ ?_
  · rw [ends]
    obtain ⟨_, _, _, _, _, _, _, _, e⟩ := released
    rw [e, hu]
  · rw [ends]
    refine ⟨?_, (ctxState_acceptRequest ..).trans state⟩
    obtain ⟨_, _, _, _, _, _, _, _, e⟩ := released
    rw [e, hu]
    rfl

end

/-! ## Requests that are not served -/

section
variable (r : CreateReq) (part slot i cycles watts : Nat) (key : WrappedKey) (ctl : Bool) (v : Word) (ctx : BitVec 12)

/-- Behind a request in service every other stands (R431). -/
theorem behind_another {s : State} {j : Instr} (hj : s.serving = some j) :
    ∀ x ∈ [Instr.partitionCreate r, .partitionDestroy part, .keyLoad slot part key, .bucketWrite i v, .queueRegisterWrite part i ctl v,
        .admissionRegisterWrite part v, .apertureWrite i v, .sliceSet ctx cycles, .restoreStart ctx, .lendRelease v, .summary,
        .blackBoxRead i part, .powerLimitSet watts, .warmResetRequest, .peerKeyReport part i, .managementRequestRefused i],
      j ≠ x → exec x s = .next s := by
  have once : ∀ {x : Instr} {f : State → State}, exec x s = atOnce f s → j ≠ x → exec x s = .next s :=
    fun h _ => h.trans (atOnce_of_serving hj)
  have served : ∀ {x : Instr} {f : State → Service}, exec x s = inService x f s → j ≠ x → exec x s = .next s :=
    fun h hne => h.trans (inService_of_other hj hne)
  have restore : j ≠ .restoreStart ctx → exec (.restoreStart ctx) s = .next s := fun hne =>
    show execRestoreStart ctx s = _ by unfold execRestoreStart; exact inService_of_other hj hne
  simp only [List.forall_mem_cons]
  exact ⟨once (exec_partitionCreate ..), once (exec_partitionDestroy ..), once (exec_keyLoad ..), once (exec_bucketWrite ..),
    served (exec_queueRegisterWrite ..), once (exec_admissionRegisterWrite ..), once (exec_apertureWrite ..), once (exec_sliceSet ..),
    restore, once (exec_lendRelease ..), served (exec_summary ..), once (exec_blackBoxRead ..), once (exec_powerLimitSet ..),
    once (exec_warmResetRequest ..), once (exec_peerKeyReport ..), once (exec_managementRequestRefused ..), fun _ h => nomatch h⟩

/-- Before STAGE is 2 each is refused (R438). -/
theorem refused_before_ready {s : State} (hfree : s.serving = none) (hstage : s.bstatStage ≠ 2) :
    Refuses (.partitionCreate r) 1 s ∧ Refuses (.partitionDestroy part) 1 s ∧ Refuses (.keyLoad slot part key) 2 s ∧
    Refuses (.bucketWrite i v) 3 s ∧ Refuses (.queueRegisterWrite part i ctl v) 3 s ∧
    Refuses (.admissionRegisterWrite part v) 3 s ∧ Refuses (.apertureWrite i v) 4 s ∧ Refuses (.sliceSet ctx cycles) 5 s ∧
    Refuses (.lendRelease v) 7 s ∧ Refuses .summary 8 s ∧ Refuses (.blackBoxRead i part) 9 s ∧ Refuses (.powerLimitSet watts) 10 s ∧
    Refuses .warmResetRequest 11 s ∧ Refuses (.peerKeyReport part i) 12 s ∧ Refuses (.managementRequestRefused i) i s := by
  have no : ∀ {x : Instr} {code : Nat} {ok : Bool} {f : State → State}, exec x s = serve code ok f s → Refuses x code s :=
    fun h => refuses_of_serve h hfree (.inl hstage)
  have once : ∀ {x : Instr} {code : Nat} {f : State → State}, exec x s = atOnce f s → f s = refuseRequest s code → Refuses x code s :=
    fun h hf => h.trans ((atOnce_of_free hfree).trans (congrArg _ hf))
  exact ⟨no (exec_partitionCreate ..), no (exec_partitionDestroy ..), no (exec_keyLoad ..), no (exec_bucketWrite ..),
    (exec_queueRegisterWrite ..).trans (serveRings_of_not_ready hfree hstage), no (exec_admissionRegisterWrite ..),
    no (exec_apertureWrite ..), no (exec_sliceSet ..), no (exec_lendRelease ..),
    (exec_summary s).trans (by simp [inService, hfree, hstage, refuseRequest]), once (exec_blackBoxRead ..) (by simp [hstage]),
    no (exec_powerLimitSet ..), no (exec_warmResetRequest ..), once (exec_peerKeyReport ..) (by simp [hstage]),
    once (exec_managementRequestRefused ..) (by simp [hstage])⟩

end

/-! ## The obligation -/

/-- Settles O53: behind a request in service every other stands; a write of a queue's registers has three ends; and every other
request is served exactly where its condition holds. -/
theorem managementRequests : Obligations.ManagementRequests := by
  unfold Obligations.ManagementRequests
  refine ⟨fun s j hj r part slot i cycles watts key ctl v ctx => ?_,
    fun s part q ctl v hready hs => queueRegisterWrite_ends ctl v hready hs,
    fun s hfree => ⟨fun hstage r part slot i cycles watts key ctl v ctx => ?_, fun hready => ?_⟩⟩
  · exact behind_another r part slot i cycles watts key ctl v ctx hj
  · exact refused_before_ready r part slot i cycles watts key ctl v ctx hfree hstage
  · refine ⟨fun r hok => partitionCreate_serves hfree hready hok, fun r hno => refuses_of_serve (exec_partitionCreate ..) hfree (.inr hno),
      fun part => ⟨fun h => partitionDestroy_serves hfree hready h, fun h => refuses_of_serve (exec_partitionDestroy ..) hfree (.inr ?_)⟩,
      fun slot part w => ⟨fun hnone => refuses_of_serve (exec_keyLoad ..) hfree (.inr ?_), fun z hz => keyLoad_serves_iff hfree hready hz⟩,
      fun i v => bucketWrite_serves_iff hfree hready i v,
      fun part v => ⟨fun hp h1 h2 => admissionRegisterWrite_serves hfree hready hp h1 h2,
        fun h => refuses_of_serve (exec_admissionRegisterWrite ..) hfree (.inr ?_)⟩,
      fun i v => apertureWrite_serves_iff hfree hready i v,
      fun ctx cycles hnone => refuses_of_serve (exec_sliceSet ..) hfree (.inr ?_), fun ctx cycles hsome => sliceSet_serves hfree hready cycles hsome,
      fun id l part hl hpart hkey => lendRelease_serves hfree hready hl hpart hkey,
      fun id hnone => refuses_of_serve (exec_lendRelease ..) hfree (.inr ?_)⟩
    · exact beq_false_of_ne h
    · simp [unwrapKey, hnone]
    · obtain h | h | h := h
      · simp [Nat.not_lt.mpr h]
      · simp [h]
      · simp [Nat.not_le.mpr h]
    · rw [hnone]; rfl
    · rw [Option.isSome_eq_false_iff, Option.isNone_iff_eq_none, List.find?_eq_none]
      exact fun l hl => by simpa using hnone l hl

end Sys2Proof.Machine
end

section
/-! SUPPORT. What the caches' operations may change: memory and what hangs on it, the lines of the L2 and the L1, and the
count by which their use is told (R97 to R104, R119, R138). -/

namespace Sys2Proof.Machine

/-- A state with all that an operation of the caches may change as it was in another. -/
def cachesUndone (s t : State) : State :=
  { t with mem := s.mem, lineTags := s.lineTags, residency := s.residency, llc := s.llc, tailWatch := s.tailWatch
           tensors := s.tensors, barriers := s.barriers, fresh := s.fresh, l2 := s.l2, l1 := s.l1, tick := s.tick }

/-- Nothing differs but what an operation of the caches may change. -/
def ThroughCaches (s t : State) : Prop := cachesUndone s t = s

namespace ThroughCaches

theorem refl (s : State) : ThroughCaches s s := rfl

theorem trans {s t u : State} (h : ThroughCaches s t) (k : ThroughCaches t u) : ThroughCaches s u :=
  calc cachesUndone s u = cachesUndone s (cachesUndone t u) := rfl
    _ = cachesUndone s t := congrArg _ k
    _ = s := h

theorem of_writesMemory {s t : State} (h : WritesMemory s t) : ThroughCaches s t := by
  obtain ⟨_, _, _, _, _, _, _, _, rfl⟩ := h
  rfl

theorem accesses {s t : State} (h : ThroughCaches s t) : t.accesses = s.accesses :=
  (congrArg State.accesses (show cachesUndone s t = s from h) :)
theorem waggle {s t : State} (h : ThroughCaches s t) : t.waggle = s.waggle :=
  (congrArg State.waggle (show cachesUndone s t = s from h) :)
theorem seqs {s t : State} (h : ThroughCaches s t) : t.seqs = s.seqs :=
  (congrArg State.seqs (show cachesUndone s t = s from h) :)
theorem cur {s t : State} (h : ThroughCaches s t) : t.cur = s.cur :=
  (congrArg State.cur (show cachesUndone s t = s from h) :)
theorem arrays {s t : State} (h : ThroughCaches s t) : t.arrays = s.arrays :=
  (congrArg State.arrays (show cachesUndone s t = s from h) :)
theorem conversions {s t : State} (h : ThroughCaches s t) : t.conversions = s.conversions :=
  (congrArg State.conversions (show cachesUndone s t = s from h) :)

theorem foldl {α : Type} {f : State → α → State} (hf : ∀ s x, ThroughCaches s (f s x)) (l : List α) (s : State) :
    ThroughCaches s (l.foldl f s) := by
  induction l generalizing s with
  | nil => exact refl s
  | cons x t ih => exact (hf s x).trans (ih _)

theorem foldl_fst {α β : Type} {f : State × β → α → State × β} (hf : ∀ r x, ThroughCaches r.1 (f r x).1) (l : List α)
    (r : State × β) : ThroughCaches r.1 (l.foldl f r).1 := by
  induction l generalizing r with
  | nil => exact refl r.1
  | cons x t ih => exact (hf r x).trans (ih _)

/-! ## Lines -/

theorem l2WriteBack (s : State) (l : L2Line) : ThroughCaches s (l2WriteBack s l) := by
  unfold Machine.l2WriteBack
  split
  · exact (of_writesMemory (WritesMemory.writeSlot s _ _ _ _)).trans rfl
  · exact refl s

theorem l2Invalidate (s : State) (l : L2Line) : ThroughCaches s (l2Invalidate s l) := by
  unfold Machine.l2Invalidate
  dsimp only
  split <;> rfl

theorem l2Flush (s : State) (l : L2Line) : ThroughCaches s (l2Flush s l) := (l2WriteBack s l).trans (l2Invalidate _ _)

theorem l2Each (s : State) (p : L2Line → Bool) {f : State → L2Line → State} (hf : ∀ s l, ThroughCaches s (f s l)) :
    ThroughCaches s (l2Each s p f) := foldl hf _ s

theorem l2Yield (s : State) (die part line : Nat) : ThroughCaches s (l2Yield s die part line) := by
  unfold Machine.l2Yield
  split
  · exact l2Flush _ _
  · exact refl s

theorem l2Victim {s t : State} {die part pa way : Nat} (h : l2Victim s die part pa = some (t, way)) : ThroughCaches s t := by
  unfold Machine.l2Victim at h
  dsimp only at h
  split at h
  · cases h; exact refl s
  · split at h
    · cases h; exact l2Flush _ _
    · cases h

theorem l2Get (s : State) (die part : Nat) (ctx : BitVec 12) (leaf : Leaf) (pa : Nat) :
    ThroughCaches s (l2Get s die part ctx leaf pa).1 := by
  unfold Machine.l2Get
  split
  · split
    · exact (l2WriteBack _ _).trans rfl
    · rfl
  · split
    · exact refl s
    · next hv => exact (l2Victim hv).trans rfl

/-! ## Accesses -/

theorem loadLine (s : State) (die part : Nat) (ctx : BitVec 12) (q : Option SeqId) (leaf : Leaf) (strong : Bool) (pa n : Nat) :
    ThroughCaches s (loadLine s die part ctx q leaf strong pa n).1 := by
  unfold Machine.loadLine
  split
  · exact refl s
  · split
    · exact l2Yield _ _ _ _
    · have got := l2Get s die part ctx leaf pa
      split
      · next e =>
        rw [e] at got
        split <;> exact got
      · next e =>
        rw [e] at got
        exact got

theorem storeLine (s : State) (die part : Nat) (ctx : BitVec 12) (leaf : Leaf) (strong : Bool) (pa : Nat) (bs : List Byte) :
    ThroughCaches s (storeLine s die part ctx leaf strong pa bs) := by
  have write : ∀ u : State, ThroughCaches u (writeSlot u part leaf.key pa bs) := fun u =>
    of_writesMemory (WritesMemory.writeSlot u _ _ _ _)
  unfold Machine.storeLine
  split
  · exact write s
  · split
    · exact (l2Yield s _ _ _).trans (write _)
    · have got := l2Get s die part ctx leaf pa
      split
      · next e =>
        rw [e] at got
        exact got.trans rfl
      · next e =>
        rw [e] at got
        exact got.trans (write _)

theorem loadParts (s : State) (die part : Nat) (ctx : BitVec 12) (q : Option SeqId) (strong : Bool) (ps : List Part) :
    ThroughCaches s (loadParts s die part ctx q strong ps).1 := by
  unfold Machine.loadParts
  refine foldl_fst (fun r p => ?_) ps (s, [])
  dsimp only [loadAt]
  refine foldl_fst (fun x c => ?_) _ (r.1, [])
  exact loadLine _ _ _ _ _ _ _ _ _

theorem storeParts (die part : Nat) (ctx : BitVec 12) (strong : Bool) (ps : List Part) (bs : List Byte) (s : State) :
    ThroughCaches s (storeParts s die part ctx strong ps bs) := by
  induction ps generalizing s bs with
  | nil => exact refl s
  | cons p t ih =>
    have one : ThroughCaches s (storeAt s die part ctx p.leaf strong p.pa (bs.take p.n)) :=
      foldl (fun s _ => storeLine s _ _ _ _ _ _ _) _ s
    exact one.trans (ih _ _)

theorem treatLine (k : AccKind) (a : Access) (s : State) (p : Part) : ThroughCaches s (treatLine k a s p) := by
  unfold Machine.treatLine
  split
  · split
    · exact refl s
    · split
      · exact l2WriteBack _ _
      · exact l2Flush _ _
      · split
        · exact l2Invalidate _ _
        · exact l2Flush _ _
      · exact refl s
  · exact refl s

theorem prefetchLine (a : Access) (s : State) (p : Part) : ThroughCaches s (prefetchLine a s p) := by
  unfold Machine.prefetchLine
  split
  · exact l2Get _ _ _ _ _ _
  · exact refl s

/-! ## Performing an operation -/

theorem releaseWriteBack (s : State) (die : Nat) (ctx : BitVec 12) : ThroughCaches s (releaseWriteBack s die ctx) :=
  l2Each s _ l2WriteBack

theorem acquireInvalidate (s : State) (die : Nat) (ctx : BitVec 12) : ThroughCaches s (acquireInvalidate s die ctx) :=
  l2Each s _ l2Invalidate

theorem releaseEffect (s : State) (a : Access) : ThroughCaches s (releaseEffect s a) := by
  unfold Machine.releaseEffect
  split
  · exact releaseWriteBack _ _ _
  · exact refl s

theorem acquireEffect (s : State) (a : Access) : ThroughCaches s (acquireEffect s a) := by
  unfold Machine.acquireEffect
  split
  · exact acquireInvalidate _ _ _
  · exact refl s

theorem accessEffect (s : State) (a : Access) : ThroughCaches s (accessEffect s a).1 := by
  unfold Machine.accessEffect
  dsimp only
  split
  · exact loadParts _ _ _ _ _ _ _
  · exact storeParts _ _ _ _ _ _ _
  · split
    · exact (loadParts _ _ _ _ _ _ _).trans (storeParts _ _ _ _ _ _ _)
    · exact loadParts _ _ _ _ _ _ _
  · exact (loadParts _ _ _ _ _ _ _).trans (storeParts _ _ _ _ _ _ _)
  · split
    · split <;> exact refl s
    · exact refl s
  · exact foldl (prefetchLine a) _ s
  · exact foldl (treatLine _ a) _ s
  · exact foldl (treatLine _ a) _ s
  · exact foldl (treatLine _ a) _ s
  · exact refl s
  · exact refl s

end ThroughCaches

theorem accessReturn_accesses (s : State) (a : Access) (v : Nat) : (accessReturn s a v).accesses = s.accesses := by
  unfold accessReturn
  split <;> rfl

theorem accessReturn_waggle (s : State) (a : Access) (v : Nat) : (accessReturn s a v).waggle = s.waggle := by
  unfold accessReturn
  split <;> rfl

/-- An operation that ends is no longer outstanding. -/
theorem completeAccess_accesses (s : State) (a : Access) (v : Nat) :
    (completeAccess s a v).accesses = s.accesses.filter fun e => e.id != a.id := by
  unfold completeAccess
  dsimp only
  rw [accessReturn_accesses, (ThroughCaches.acquireEffect s a).accesses]

theorem completeAccess_waggle (s : State) (a : Access) (v : Nat) : (completeAccess s a v).waggle = s.waggle := by
  unfold completeAccess
  dsimp only
  rw [accessReturn_waggle, (ThroughCaches.acquireEffect s a).waggle]

theorem performWhole_accesses (s : State) (a : Access) :
    (performWhole s a).accesses = s.accesses.filter fun e => e.id != a.id := by
  unfold performWhole
  dsimp only
  rw [completeAccess_accesses, (ThroughCaches.accessEffect _ a).accesses, (ThroughCaches.releaseEffect s a).accesses]

theorem performWhole_waggle (s : State) (a : Access) : (performWhole s a).waggle = s.waggle := by
  unfold performWhole
  dsimp only
  rw [completeAccess_waggle, (ThroughCaches.accessEffect _ a).waggle, (ThroughCaches.releaseEffect s a).waggle]

end Sys2Proof.Machine
end

section
/-! SUPPORT. The Waggle ring (R168, R169). -/

namespace Sys2Proof.Machine

theorem ringServe_of_none {st : Nat} {s : State} (h : ringNext s st = none) (n : Nat) : ringServe st n s = s := by
  cases n with
  | zero => rfl
  | succ n => simp [ringServe, h]

theorem ringServe_of_some {st n : Nat} {s : State} {a : Access} (h : ringNext s st = some a) :
    ringServe st (n + 1) s = ringServe st n (ringPerform s a) := by
  simp [ringServe, h]

theorem ringNext_of_empty {s : State} (h : s.accesses = []) (st : Nat) : ringNext s st = none := by
  simp [ringNext, h]

theorem exec_waggleToken (s : State) :
    exec .waggleToken s = .next (ringServe ((s.waggle + 1) % 72) 8 { s with waggle := (s.waggle + 1) % 72 }) := rfl

/-- The one operation that stands queued at the station is performed, and nothing is left there. -/
theorem waggleToken_performs {s s1 t : State} {a : Access} (hs1 : s1 = { s with waggle := (s.waggle + 1) % 72 })
    (hone : s1.accesses = [a]) (hringed : a.ringed = true) (hstation : stationOf a = (s.waggle + 1) % 72)
    (hcan : canPerform s1 a = true) (ht : ringPerform s1 a = t) (hgone : t.accesses = []) : exec .waggleToken s = .next t := by
  have next : ringNext s1 ((s.waggle + 1) % 72) = some a := by simp [ringNext, hone, hringed, hstation, hcan]
  rw [exec_waggleToken, ← hs1, ringServe_of_some next, ht, ringServe_of_none (ringNext_of_empty hgone _)]

theorem ringPerform_of_seq {s : State} {a : Access} (h : a.elem = none) : ringPerform s a = perform s a := by
  simp [ringPerform, h]

theorem perform_of_whole {s : State} {a : Access} (hlen : a.left.length ≤ 1) (hleft : a.left = piecesOf a.kind a.n a.va a.parts) :
    perform s a = performWhole s a := by
  unfold perform
  rw [if_pos]
  rw [Bool.and_eq_true, decide_eq_true_eq, beq_iff_eq]
  exact ⟨hlen, hleft⟩

theorem filter_ids_of_one {l : List Access} {a : Access} (h : l = [a]) : (l.filter fun e => e.id != a.id) = [] := by
  simp [h]

/-- What the ring's token does at its next station (R168, R169). -/
theorem waggleToken_serves (s : State) :
    let st := (s.waggle + 1) % 72
    let s1 := { s with waggle := st }
    ((∀ a ∈ s.accesses, a.ringed = true → stationOf a = st → canPerform s1 a = false) → runsTo .waggleToken s fun t => t = s1) ∧
    (∀ a, s.accesses = [a] → a.ringed = true → stationOf a = st → canPerform s1 a = true →
      (a.elem = none → a.left.length ≤ 1 → a.left = piecesOf a.kind a.n a.va a.parts → runsTo .waggleToken s fun t => t = perform s1 a ∧ t.accesses = [] ∧ t.waggle = st) ∧
      (∀ o, a.elem = some o → (nodeOf s o.node = none → runsTo .waggleToken s fun t => t = { s1 with accesses := [] }) ∧
        ∀ n, nodeOf s o.node = some n → let w := n.word o.slot
          ∀ t, ringWord (eOp w) (eWord w) { s1 with accesses := [], site := { node := o.node, slot := o.slot, key := o.key } } = .next t →
            t.accesses = [] → exec .waggleToken s = .next t)) := by
  intro st s1
  refine ⟨fun hnone => ⟨s1, ?_, rfl⟩, fun a hone hringed hstation hcan => ⟨fun helem hlen hleft => ?_, fun o ho => ⟨fun hnode => ?_, fun n hnode => ?_⟩⟩⟩
  · have none_ready : ringNext s1 st = none := by
      refine List.find?_eq_none.mpr fun a ha => ?_
      intro h
      simp only [Bool.and_eq_true, beq_iff_eq] at h
      obtain ⟨⟨hringed, hstation⟩, hcan⟩ := h
      rw [hnone a ha hringed hstation] at hcan
      cases hcan
    exact congrArg _ (ringServe_of_none none_ready 8)
  · have whole : perform s1 a = performWhole s1 a := perform_of_whole hlen hleft
    have gone : (perform s1 a).accesses = [] := by rw [whole, performWhole_accesses]; exact filter_ids_of_one hone
    exact ⟨perform s1 a, waggleToken_performs rfl hone hringed hstation hcan (ringPerform_of_seq helem) gone, rfl, gone,
      by rw [whole, performWhole_waggle]⟩
  · have performed : ringPerform s1 a = { s1 with accesses := [] } := by
      have hnode : nodeOf { s1 with accesses := [] } o.node = none := hnode
      simp only [ringPerform, ho, filter_ids_of_one (l := s1.accesses) hone, hnode]
    exact ⟨_, waggleToken_performs rfl hone hringed hstation hcan performed rfl, rfl⟩
  · intro w t hword hgone
    have performed : ringPerform s1 a = t := by
      have hnode : nodeOf { s1 with accesses := [] } o.node = some n := hnode
      simp only [ringPerform, ho, filter_ids_of_one (l := s1.accesses) hone, hnode]
      change (match ringWord (eOp w) (eWord w) { s1 with accesses := [], site := { node := o.node, slot := o.slot, key := o.key } } with
        | .next s => s
        | _ => { s1 with accesses := [] }) = t
      rw [hword]
    exact waggleToken_performs rfl hone hringed hstation hcan performed hgone

end Sys2Proof.Machine
end

section
/-! SUPPORT. The buckets at the slice request ports: what a cycle gains, and the admission of the one line that waits (R112 to
R114). -/

namespace Sys2Proof.Machine

/-! ## Buckets by their place -/

theorem bucketAt_place (s : State) (port i : Nat) : (bucketAt s port i).port = port ∧ (bucketAt s port i).index = i := by
  unfold bucketAt
  cases h : s.buckets.find? fun b => b.port == port && b.index == i with
  | none => exact ⟨rfl, rfl⟩
  | some b => simpa using List.find?_some h

theorem bucketAt_setBucket (s : State) (b : Bucket) : bucketAt (setBucket s b) b.port b.index = b := by
  have h := find_upsert_self (fun x : Bucket => x.port == b.port && x.index == b.index) b (by simp) s.buckets
  unfold bucketAt setBucket
  dsimp only
  rw [h]
  rfl

theorem bucketAt_setBucket_other (s : State) {b : Bucket} {port i : Nat} (h : port ≠ b.port ∨ i ≠ b.index) :
    bucketAt (setBucket s b) port i = bucketAt s port i := by
  have miss : ∀ x : Bucket, x.port = b.port ∧ x.index = b.index → (x.port == port && x.index == i) = false := by
    rintro x ⟨hp, hi⟩
    rw [hp, hi, Bool.and_eq_false_iff]
    exact h.imp (fun h => beq_false_of_ne h.symm) fun h => beq_false_of_ne h.symm
  have find := find_upsert_other (p := fun x : Bucket => x.port == b.port && x.index == b.index) (miss b ⟨rfl, rfl⟩)
    (fun x hx => miss x (by simpa using hx)) s.buckets
  unfold bucketAt setBucket
  dsimp only
  rw [find]

/-! ## A cycle's gain -/

/-- A bucket at a port after the gain of one cycle, for its entry (R113). -/
def gainedBucket (s : State) (port : Nat) (e : Nat × Word) : Bucket :=
  { bucketAt s port e.1 with
    tokens := if bkEn e.2 then min (64 * bkDepth e.2) ((bucketAt s port e.1).tokens + bkRate e.2) else (bucketAt s port e.1).tokens
    borrowed := (0 :: (bucketAt s port e.1).borrowed).take 64 }

theorem gainBucket_eq (s : State) (port : Nat) (e : Nat × Word) : gainBucket s port e = setBucket s (gainedBucket s port e) := rfl

theorem bucketAt_gainBucket (s : State) (port : Nat) (e : Nat × Word) : bucketAt (gainBucket s port e) port e.1 = gainedBucket s port e := by
  have place := bucketAt_place s port e.1
  have self := bucketAt_setBucket s (gainedBucket s port e)
  rw [gainBucket_eq]
  rwa [show (gainedBucket s port e).port = port from place.1, show (gainedBucket s port e).index = e.1 from place.2] at self

theorem bucketAt_gainBucket_other (s : State) (port : Nat) (e : Nat × Word) {p i : Nat} (h : p ≠ port ∨ i ≠ e.1) :
    bucketAt (gainBucket s port e) p i = bucketAt s p i := by
  have place := bucketAt_place s port e.1
  refine bucketAt_setBucket_other s (b := gainedBucket s port e) ?_
  rw [show (gainedBucket s port e).port = port from place.1, show (gainedBucket s port e).index = e.1 from place.2]
  exact h

theorem gainedBucket_congr {s t : State} {port : Nat} {e : Nat × Word} (h : bucketAt t port e.1 = bucketAt s port e.1) :
    gainedBucket t port e = gainedBucket s port e := by
  unfold gainedBucket; rw [h]

/-- Some entries gain at a port: each its own bucket there, and no other bucket. -/
theorem gainEntries (port : Nat) (l : List (Nat × Word)) (hl : (l.map Prod.fst).Nodup) (s : State) :
    ∃ bs, l.foldl (fun s e => gainBucket s port e) s = { s with buckets := bs } ∧
      (∀ p i, p ≠ port ∨ i ∉ l.map Prod.fst → bucketAt { s with buckets := bs } p i = bucketAt s p i) ∧
      ∀ e ∈ l, bucketAt { s with buckets := bs } port e.1 = gainedBucket s port e := by
  induction l generalizing s with
  | nil => exact ⟨s.buckets, rfl, fun _ _ _ => rfl, fun _ h => nomatch h⟩
  | cons x rest ih =>
    obtain ⟨hx, hrest⟩ := List.nodup_cons.mp hl
    obtain ⟨bs, hfold, others, gains⟩ := ih hrest (gainBucket s port x)
    refine ⟨bs, hfold, fun p i h => ?_, fun e he => ?_⟩
    · rw [List.map_cons, List.mem_cons, not_or] at h
      exact (others p i (h.imp_right And.right)).trans (bucketAt_gainBucket_other s port x (h.imp_right And.left))
    · obtain rfl | he := List.mem_cons.mp he
      · exact (others port e.1 (.inr hx)).trans (bucketAt_gainBucket s port e)
      · refine (gains e he).trans (gainedBucket_congr (bucketAt_gainBucket_other s port x (.inr ?_)))
        intro same
        exact hx (same ▸ List.mem_map_of_mem he)

theorem gainPorts (l : List Nat) (hl : l.Nodup) (s : State) (hs : (s.bucketEntries.map Prod.fst).Nodup) :
    ∃ bs, l.foldl (fun s port => s.bucketEntries.foldl (fun s e => gainBucket s port e) s) s = { s with buckets := bs } ∧
      (∀ p i, p ∉ l → bucketAt { s with buckets := bs } p i = bucketAt s p i) ∧
      ∀ port ∈ l, ∀ e ∈ s.bucketEntries, bucketAt { s with buckets := bs } port e.1 = gainedBucket s port e := by
  induction l generalizing s with
  | nil => exact ⟨s.buckets, rfl, fun _ _ _ => rfl, fun _ h => nomatch h⟩
  | cons x rest ih =>
    obtain ⟨hx, hrest⟩ := List.nodup_cons.mp hl
    obtain ⟨bs, hfold, others, gains⟩ := gainEntries x s.bucketEntries hs s
    obtain ⟨bs', hfold', others', gains'⟩ := ih hrest { s with buckets := bs } hs
    refine ⟨bs', by rw [List.foldl_cons, hfold, hfold'], fun p i h => ?_, fun port hport e he => ?_⟩
    · rw [List.mem_cons, not_or] at h
      exact (others' p i h.2).trans (others p i (.inl h.1))
    · obtain rfl | hport := List.mem_cons.mp hport
      · exact (others' port e.1 hx).trans (gains e he)
      · exact (gains' port hport e he).trans (gainedBucket_congr (others port e.1 (.inl fun same => hx (same ▸ hport))))

/-- The gain of a cycle changes buckets alone, that of each entry at each port (R113). -/
theorem gainAll_eq {s : State} (hs : (s.bucketEntries.map Prod.fst).Nodup) :
    ∃ bs, gainAll s = { s with buckets := bs } ∧
      ∀ port < 64, ∀ e ∈ s.bucketEntries, bucketAt { s with buckets := bs } port e.1 = gainedBucket s port e := by
  obtain ⟨bs, hfold, -, gains⟩ := gainPorts (List.range 64) List.nodup_range s hs
  exact ⟨bs, hfold, fun port hport => gains port (List.mem_range.mpr hport)⟩

/-! ## Lines that wait -/

theorem flatMap_eq_nil_of_unpaid {α : Type} {unpaid : α → List Nat} {f : α → Nat → LineWait} {l : List α} (h : ∀ x ∈ l, unpaid x = []) :
    (l.flatMap fun x => (unpaid x).map (f x)) = [] :=
  List.flatMap_eq_nil_iff.mpr fun x hx => by rw [h x hx, List.map_nil]

theorem lineWaits_of_paid {s : State} (ha : ∀ a ∈ s.accesses, a.unpaid = []) (hr : ∀ r ∈ s.portReqs, r.unpaid = []) :
    lineWaits s = [] := by
  unfold lineWaits
  dsimp only
  rw [flatMap_eq_nil_of_unpaid ha, flatMap_eq_nil_of_unpaid hr]
  rfl

/-- The one line of the one access that waits. -/
def soleWait (s : State) (a : Access) (line : Nat) : LineWait :=
  { id := a.id, die := a.die, line := line, bucket := bucketOf s a.part a.ctx, part := a.part }

theorem lineWaits_of_one {s : State} {a : Access} {line : Nat} (ha : s.accesses = [a]) (hline : a.unpaid = [line])
    (hr : ∀ r ∈ s.portReqs, r.unpaid = []) : lineWaits s = [soleWait s a line] := by
  unfold lineWaits
  dsimp only
  rw [flatMap_eq_nil_of_unpaid hr, ha]
  simp [hline, soleWait, sortBy]

theorem admitOne_of_none_waiting {s : State} (h : lineWaits s = []) (pay : State → Nat → Nat → Option State) (port : Nat) (quads : List Nat) :
    admitOne pay s port quads = none := by
  simp [admitOne, waitsAtPort, h]

theorem admitRound_of_none {pay : State → Nat → Nat → Option State} {s : State} {port : Nat} {quads : List Nat}
    (h : admitOne pay s port quads = none) (n : Nat) : admitRound pay port n s quads = (s, quads, n) := by
  cases n with
  | zero => rfl
  | succ n => simp [admitRound, h]

theorem admitRound_of_some {pay : State → Nat → Nat → Option State} {s t : State} {port q : Nat} {quads : List Nat}
    (h : admitOne pay s port quads = some (t, q)) (hleft : lineWaits t = []) (n : Nat) :
    admitRound pay port (n + 1) s quads = (t, q :: quads, n) := by
  simp [admitRound, h, admitRound_of_none (admitOne_of_none_waiting hleft pay port _)]

/-- A search that has one value where it has any. -/
theorem findSome_of_one {α β : Type} {f : α → Option β} {v : β} {l : List α} (hsome : ∃ x ∈ l, f x = some v)
    (hone : ∀ x ∈ l, f x = none ∨ f x = some v) : l.findSome? f = some v := by
  obtain ⟨y, hy⟩ : ∃ y, l.findSome? f = some y := by
    obtain ⟨x, hx, hfx⟩ := hsome
    exact Option.isSome_iff_exists.mp (List.findSome?_isSome_iff.mpr ⟨x, hx, by rw [hfx]; rfl⟩)
  obtain ⟨x, hx, hfx⟩ := List.exists_of_findSome?_eq_some hy
  obtain h | h := hone x hx
  · rw [hfx] at h; cases h
  · rw [hy, ← hfx, h]

theorem find_entry_of_mem {β : Type} {l : List (Nat × β)} (hl : (l.map Prod.fst).Nodup) {e : Nat × β} (he : e ∈ l) :
    l.find? (fun x => x.1 == e.1) = some e := by
  induction l with
  | nil => cases he
  | cons x rest ih =>
    obtain ⟨hx, hrest⟩ := List.nodup_cons.mp hl
    obtain rfl | he := List.mem_cons.mp he
    · simp
    · have : x.1 ≠ e.1 := fun same => hx (same ▸ List.mem_map_of_mem he)
      simp [this, ih hrest he]

theorem bucketEntry_of_mem {s : State} (hs : (s.bucketEntries.map Prod.fst).Nodup) {e : Nat × Word} (he : e ∈ s.bucketEntries) :
    bucketEntry s e.1 = e.2 := by
  rw [bucketEntry, find_entry_of_mem hs he]
  rfl

/-! ## The admission of the one line -/

/-- A state after the one line that waits is admitted at a port. -/
def admitted (s : State) (w : LineWait) (port : Nat) : State :=
  { admitLine s w with portTurn := upsert (fun t => t.1 == port) (port, w.bucket) s.portTurn }

section
variable {s : State} {a : Access} {line : Nat} (ha : s.accesses = [a]) (hline : a.unpaid = [line])
  (hr : ∀ r ∈ s.portReqs, r.unpaid = [])
include ha hline hr

theorem waitsAtPort_of_one (port : Nat) :
    waitsAtPort s port = if portOf a.die line = port then [soleWait s a line] else [] := by
  unfold waitsAtPort
  rw [lineWaits_of_one ha hline hr]
  by_cases h : portOf a.die line = port <;> simp [soleWait, h]

theorem ports_of_one (hport : portOf a.die line < 64) :
    (List.range 64).filter (fun port => waitsAtPort s port != []) = [portOf a.die line] := by
  have test : (fun port => waitsAtPort s port != []) = fun port => port == portOf a.die line := by
    funext port
    rw [waitsAtPort_of_one ha hline hr]
    by_cases h : portOf a.die line = port
    · simp [h]
    · simp [h, Ne.symm h]
  rw [test, List.filter_beq, List.nodup_range.count, if_pos (List.mem_range.mpr hport)]
  rfl

theorem bucketTokenGain_of_one {s0 : State} (hgain : gainAll s0 = s) (hport : portOf a.die line < 64) :
    exec .bucketTokenGain s0 = .next (admitPort s (portOf a.die line)) := by
  show Host.Outcome.next (((List.range 64).filter fun port => waitsAtPort (gainAll s0) port != []).foldl admitPort (gainAll s0)) = _
  rw [hgain, ports_of_one ha hline hr hport]
  rfl

/-- The line is admitted exactly where its bucket can pay. -/
theorem admitOne_of_one (hpart : bkPart (bucketEntry s (bucketOf s a.part a.ctx)) = a.part) (hbucket : bucketOf s a.part a.ctx < 256)
    (pay : State → Nat → Nat → Option State) :
    admitOne pay s (portOf a.die line) [] = (pay s (portOf a.die line) (bucketOf s a.part a.ctx)).map fun t =>
      (admitted t (soleWait s a line) (portOf a.die line), quadPortOf s (soleWait s a line)) := by
  have ws : ((waitsAtPort s (portOf a.die line)).filter fun w => bkPart (bucketEntry s w.bucket) == w.part &&
      !([] : List Nat).contains (quadPortOf s w)) = [soleWait s a line] := by
    rw [waitsAtPort_of_one ha hline hr, if_pos rfl]
    simp [soleWait, hpart]
  unfold admitOne
  dsimp only
  rw [ws]
  obtain ⟨i, hi⟩ : ∃ i, bucketOf s a.part a.ctx = i := ⟨_, rfl⟩
  have find : ∀ j, [soleWait s a line].find? (fun w => w.bucket == j) = if j = i then some (soleWait s a line) else none := by
    intro j
    by_cases h : j = i
    · simp [soleWait, hi, h]
    · simp [soleWait, hi, h, Ne.symm h]
  simp only [find]
  rw [hi]
  cases hpay : pay s (portOf a.die line) i with
  | none =>
    refine List.findSome?_eq_none_iff.mpr fun k _ => ?_
    split
    · rfl
    · next w hw =>
      split at hw
      · next h => rw [h, hpay]; rfl
      · cases hw
  | some t =>
    have value : admitted t (soleWait s a line) (portOf a.die line) =
        { admitLine t (soleWait s a line) with portTurn := upsert (fun x => x.1 == portOf a.die line) (portOf a.die line, i) t.portTurn } := by
      rw [admitted, soleWait, hi]
    rw [Option.map_some, value]
    rw [hi] at hbucket
    refine findSome_of_one ⟨(i + 256 - (portLast s (portOf a.die line) + 1) % 256) % 256, List.mem_range.mpr (Nat.mod_lt _ (by decide)), ?_⟩
      fun k _ => ?_
    · rw [if_pos (by omega), show (portLast s (portOf a.die line) + 1 + (i + 256 - (portLast s (portOf a.die line) + 1) % 256) % 256) % 256 = i by omega,
        hpay]
      rfl
    · by_cases h : (portLast s (portOf a.die line) + 1 + k) % 256 = i
      · right; simp only [h, if_true, hpay]; rfl
      · left; simp only [h, if_false]

omit hr in
/-- An admitted line waits no more. -/
theorem admitted_accesses {t : State} (ht : t.accesses = s.accesses) (port : Nat) :
    (admitted t (soleWait s a line) port).accesses = [{ a with unpaid := [] }] := by
  simp [admitted, admitLine, mapIf, ht, ha, hline, soleWait]

theorem lineWaits_admitted {t : State} (ht : t.accesses = s.accesses) (hreqs : t.portReqs = s.portReqs) (port : Nat) :
    lineWaits (admitted t (soleWait s a line) port) = [] := by
  refine lineWaits_of_paid (fun x hx => ?_) fun r hr' => ?_
  · rw [admitted_accesses ha hline ht, List.mem_singleton] at hx
    rw [hx]
  · simp only [admitted, admitLine, mapIf, hreqs, List.mem_map] at hr'
    obtain ⟨r, hmem, rfl⟩ := hr'
    split
    · simp [hr r hmem]
    · exact hr r hmem

section
variable (hpart : bkPart (bucketEntry s (bucketOf s a.part a.ctx)) = a.part) (hbucket : bucketOf s a.part a.ctx < 256)
include hpart hbucket

/-- It pays from its own bucket. -/
theorem admitPort_of_pays {t : State} (hpay : takeToken s (portOf a.die line) (bucketOf s a.part a.ctx) = some t)
    (ht : t.accesses = s.accesses) (hreqs : t.portReqs = s.portReqs) :
    admitPort s (portOf a.die line) = admitted t (soleWait s a line) (portOf a.die line) := by
  have one := admitOne_of_one ha hline hr hpart hbucket takeToken
  rw [hpay] at one
  have left := lineWaits_admitted ha hline hr ht hreqs (portOf a.die line)
  rw [admitPort, admitRound_of_some one left 255]
  dsimp only
  rw [admitRound_of_none (admitOne_of_none_waiting left _ _ _)]

/-- It borrows where its own bucket cannot pay. -/
theorem admitPort_of_borrows {t : State} (hpay : takeToken s (portOf a.die line) (bucketOf s a.part a.ctx) = none)
    (hborrow : borrowToken s (portOf a.die line) (bucketOf s a.part a.ctx) = some t)
    (ht : t.accesses = s.accesses) (hreqs : t.portReqs = s.portReqs) :
    admitPort s (portOf a.die line) = admitted t (soleWait s a line) (portOf a.die line) := by
  have one := admitOne_of_one ha hline hr hpart hbucket takeToken
  rw [hpay] at one
  have lent := admitOne_of_one ha hline hr hpart hbucket borrowToken
  rw [hborrow] at lent
  have left := lineWaits_admitted ha hline hr ht hreqs (portOf a.die line)
  rw [admitPort, admitRound_of_none one]
  dsimp only
  rw [admitRound_of_some lent left 255]

/-- It waits where no bucket can pay for it. -/
theorem admitPort_of_waits (hpay : takeToken s (portOf a.die line) (bucketOf s a.part a.ctx) = none)
    (hborrow : borrowToken s (portOf a.die line) (bucketOf s a.part a.ctx) = none) : admitPort s (portOf a.die line) = s := by
  have one := admitOne_of_one ha hline hr hpart hbucket takeToken
  rw [hpay] at one
  have lent := admitOne_of_one ha hline hr hpart hbucket borrowToken
  rw [hborrow] at lent
  rw [admitPort, admitRound_of_none one]
  dsimp only
  rw [admitRound_of_none lent]

end

theorem bucketBusy_of_one {port k : Nat} (hk : k ≠ bucketOf s a.part a.ctx) : bucketBusy s port k = false := by
  rw [bucketBusy, waitsAtPort_of_one ha hline hr]
  split
  · simp [soleWait, Ne.symm hk]
  · rfl

end

/-! ## Paying -/

theorem takeToken_of_enough {s : State} {port i : Nat} (hen : bkEn (bucketEntry s i) = true) (h : 64 ≤ (bucketAt s port i).tokens) :
    takeToken s port i = some (setBucket s { bucketAt s port i with tokens := (bucketAt s port i).tokens - 64 }) := by
  simp [takeToken, hen, h]

theorem takeToken_of_short {s : State} {port i : Nat} (h : bkEn (bucketEntry s i) = false ∨ (bucketAt s port i).tokens < 64) :
    takeToken s port i = none := by
  obtain h | h := h
  · simp [takeToken, h]
  · simp [takeToken, Nat.not_le_of_lt h]

theorem bucketAt_update (s : State) (port i : Nat) {f : Bucket → Bucket} (hf : ∀ b, (f b).port = b.port ∧ (f b).index = b.index) :
    bucketAt (setBucket s (f (bucketAt s port i))) port i = f (bucketAt s port i) ∧
    ∀ k, k ≠ i → bucketAt (setBucket s (f (bucketAt s port i))) port k = bucketAt s port k := by
  obtain ⟨hp, hi⟩ := bucketAt_place s port i
  obtain ⟨fp, fi⟩ := hf (bucketAt s port i)
  refine ⟨?_, fun k hk => bucketAt_setBucket_other s (.inr ?_)⟩
  · have self := bucketAt_setBucket s (f (bucketAt s port i))
    rwa [fp, fi, hp, hi] at self
  · rw [fi, hi]; exact hk

/-- A bucket with 64 tokens fewer. -/
def Bucket.pay (b : Bucket) : Bucket := { b with tokens := b.tokens - 64 }

/-- A bucket that has borrowed a token more in this cycle. -/
def Bucket.borrow (b : Bucket) : Bucket :=
  { b with borrowed := match b.borrowed with
      | [] => [1]
      | k :: r => (k + 1) :: r }

/-- A token of another bucket is taken for one that borrows it. -/
def lendToken (s : State) (port i k : Nat) : State :=
  let t := setBucket s (bucketAt s port k).pay
  setBucket t (bucketAt t port i).borrow

theorem lendToken_tokens (s : State) (port : Nat) {i k : Nat} (hk : k ≠ i) :
    (bucketAt (lendToken s port i k) port k).tokens = (bucketAt s port k).tokens - 64 ∧
    (bucketAt (lendToken s port i k) port i).tokens = (bucketAt s port i).tokens := by
  have paid := bucketAt_update s port k (f := Bucket.pay) fun _ => ⟨rfl, rfl⟩
  have lent := bucketAt_update (setBucket s (bucketAt s port k).pay) port i (f := Bucket.borrow) fun _ => ⟨rfl, rfl⟩
  unfold lendToken
  dsimp only
  refine ⟨?_, ?_⟩
  · rw [lent.2 k hk, paid.1]; rfl
  · rw [lent.1]
    exact (congrArg Bucket.tokens (paid.2 i hk.symm) :)

section
variable {s : State} {port i : Nat} (hnodup : (s.bucketEntries.map Prod.fst).Nodup)
include hnodup

/-- None is borrowed where the bucket has had its RATE, and where no other can pay. -/
theorem borrowToken_of_none (h : bkRate (bucketEntry s i) ≤ (bucketAt s port i).borrowed.sum ∨
    ∀ e ∈ s.bucketEntries, e.1 ≠ i → bkEn e.2 = false ∨ (bucketAt s port e.1).tokens < 64) : borrowToken s port i = none := by
  unfold borrowToken
  dsimp only
  split
  · rfl
  · next hmay =>
    have short := h.resolve_left fun h => hmay (by simp [h])
    refine List.findSome?_eq_none_iff.mpr fun e he => ?_
    split
    · rfl
    · next hother =>
      have hne : e.1 ≠ i := fun h => hother (by simp [h])
      rw [takeToken_of_short (by rw [bucketEntry_of_mem hnodup he]; exact short e he hne)]
      rfl

/-- One is borrowed of the one bucket that can pay and has no line waiting. -/
theorem borrowToken_of_one (hrate : (bucketAt s port i).borrowed.sum < bkRate (bucketEntry s i)) (hown : (bucketAt s port i).tokens < 64)
    {e : Nat × Word} (he : e ∈ s.bucketEntries) (hne : e.1 ≠ i) (hbusy : bucketBusy s port e.1 = false) (hen : bkEn e.2 = true)
    (hpays : 64 ≤ (bucketAt s port e.1).tokens)
    (honly : ∀ x ∈ s.bucketEntries, x.1 ≠ i → x.1 ≠ e.1 → bkEn x.2 = false ∨ (bucketAt s port x.1).tokens < 64) :
    borrowToken s port i = some (lendToken s port i e.1) := by
  unfold borrowToken
  dsimp only
  rw [if_neg (by simp [Nat.not_le_of_lt hrate, Nat.not_le_of_lt hown])]
  have value : (takeToken s port e.1).map (fun s => setBucket s { bucketAt s port i with borrowed := match (bucketAt s port i).borrowed with
      | [] => [1]
      | k :: r => (k + 1) :: r }) = some (lendToken s port i e.1) := by
    rw [takeToken_of_enough (by rw [bucketEntry_of_mem hnodup he]; exact hen) hpays]
    rfl
  refine findSome_of_one ⟨e, he, ?_⟩ fun x hx => ?_
  · rw [if_neg (by simp [hne, hbusy])]
    exact value
  · by_cases hx1 : x.1 = i
    · exact .inl (if_pos (by simp [hx1]))
    · by_cases hxe : x.1 = e.1
      · right
        rw [hxe, if_neg (by simp [hne, hbusy])]
        exact value
      · left
        split
        · rfl
        · rw [takeToken_of_short (by rw [bucketEntry_of_mem hnodup hx]; exact honly x hx hx1 hxe)]
          rfl

end

/-! ## The obligation -/

theorem take_63_sum (l : List Nat) : ((0 :: l).take 64).sum = (l.take 63).sum := by simp

theorem canPerform_of_unpaid {s : State} {a : Access} {line : Nat} (hline : a.unpaid = [line]) (hleft : a.left ≠ [])
    (hall : ∀ p ∈ a.left, p.pa / 128 = line) : canPerform s a = false := by
  have notReady : a.left.any (pieceReady s a) = false := by
    refine List.any_eq_false.mpr fun p hp => ?_
    simp [pieceReady, hline, hall p hp]
  simp [canPerform, hleft, notReady]

theorem bucketOf_lt (s : State) (part : Nat) (ctx : BitVec 12) : bucketOf s part ctx < 256 := Nat.mod_lt _ (by decide)

section
variable {s : State} (hnodup : (s.bucketEntries.map Prod.fst).Nodup)
include hnodup

/-- The one line that waits, once the buckets have gained: it pays, it borrows, or it goes on waiting. -/
theorem bucketTokenGain_admits {a : Access} {line : Nat} {v : Word} (ha : s.accesses = [a]) (hline : a.unpaid = [line])
    (hr : ∀ r ∈ s.portReqs, r.unpaid = []) (hport : portOf a.die line < 64)
    (he : (bucketOf s a.part a.ctx, v) ∈ s.bucketEntries) (hpart : bits v 5 0 = a.part) (hen : bit v 63 = true) :
    let port := portOf a.die line
    let i := bucketOf s a.part a.ctx
    let gained := fun (e : Nat × Word) => (gainedBucket s port e).tokens
    (64 ≤ gained (i, v) → runsTo .bucketTokenGain s fun t =>
      t.accesses = [{ a with unpaid := [] }] ∧ (bucketAt t port i).tokens = gained (i, v) - 64) ∧
    (gained (i, v) < 64 → (∀ e ∈ s.bucketEntries, e.1 ≠ i → bit e.2 63 = false ∨ gained e < 64) →
      runsTo .bucketTokenGain s fun t => t.accesses = [a] ∧ (bucketAt t port i).tokens = gained (i, v)) ∧
    (∀ k u, gained (i, v) < 64 → (k, u) ∈ s.bucketEntries → k ≠ i → bit u 63 = true → 64 ≤ gained (k, u) →
      (∀ e ∈ s.bucketEntries, e.1 ≠ i → e.1 ≠ k → bit e.2 63 = false ∨ gained e < 64) →
      (((bucketAt s port i).borrowed.take 63).sum < bits v 31 16 →
        runsTo .bucketTokenGain s fun t => t.accesses = [{ a with unpaid := [] }] ∧
          (bucketAt t port k).tokens = gained (k, u) - 64 ∧ (bucketAt t port i).tokens = gained (i, v)) ∧
      (bits v 31 16 ≤ ((bucketAt s port i).borrowed.take 63).sum →
        runsTo .bucketTokenGain s fun t => t.accesses = [a])) := by
  intro port i gained
  obtain ⟨bs, hgain, gains⟩ := gainAll_eq hnodup
  obtain ⟨g, hg⟩ : ∃ g, g = { s with buckets := bs } := ⟨_, rfl⟩
  rw [← hg] at hgain gains
  have gains : ∀ e ∈ s.bucketEntries, bucketAt g port e.1 = gainedBucket s port e := gains port hport
  have entries : g.bucketEntries = s.bucketEntries := by rw [hg]
  have ga : g.accesses = [a] := by rw [hg]; exact ha
  have gr : ∀ r ∈ g.portReqs, r.unpaid = [] := by rw [hg]; exact hr
  have bucket : bucketOf g a.part a.ctx = i := by rw [hg]; rfl
  have gnodup : (g.bucketEntries.map Prod.fst).Nodup := by rw [entries]; exact hnodup
  have entry : bucketEntry g i = v := bucketEntry_of_mem gnodup (e := (i, v)) (by rw [entries]; exact he)
  have own : bucketAt g port i = gainedBucket s port (i, v) := gains (i, v) he
  have gpart : bkPart (bucketEntry g (bucketOf g a.part a.ctx)) = a.part := by rw [bucket, entry]; exact hpart
  have glt : bucketOf g a.part a.ctx < 256 := bucketOf_lt _ _ _
  have run := bucketTokenGain_of_one ga hline gr hgain hport
  have short : ∀ {e : Nat × Word}, e ∈ s.bucketEntries → gained e < 64 → (bucketAt g port e.1).tokens < 64 := fun he h => by
    rw [gains _ he]; exact h
  refine ⟨fun h => ?_, fun h hothers => ?_, fun k u h hk hne hken hkpays honly => ⟨fun hrate => ?_, fun hrate => ?_⟩⟩
  · have paid : takeToken g port i = some (setBucket g (bucketAt g port i).pay) :=
      takeToken_of_enough (by rw [entry]; exact hen) (by rw [own]; exact h)
    refine ⟨_, run.trans (congrArg _ (admitPort_of_pays (t := setBucket g (bucketAt g port i).pay) ga hline gr gpart glt (by rw [bucket]; exact paid) rfl rfl)),
      admitted_accesses ga hline rfl port, ?_⟩
    have tokens := congrArg Bucket.tokens (bucketAt_update g port i (f := Bucket.pay) fun _ => ⟨rfl, rfl⟩).1
    exact tokens.trans (congrArg (fun b : Bucket => b.tokens - 64) own)
  · have no_pay : takeToken g port i = none := takeToken_of_short (.inr (short he h))
    have no_loan : borrowToken g port i = none := borrowToken_of_none gnodup (.inr fun e hmem hne => by
      rw [entries] at hmem
      exact (hothers e hmem hne).imp_right (short hmem))
    refine ⟨g, run.trans (congrArg _ (admitPort_of_waits ga hline gr gpart glt (by rw [bucket]; exact no_pay) (by rw [bucket]; exact no_loan))),
      ga, ?_⟩
    rw [own]
  · have no_pay : takeToken g port i = none := takeToken_of_short (.inr (short he h))
    have loan : borrowToken g port i = some (lendToken g port i k) := by
      refine borrowToken_of_one gnodup ?_ (short he h) (e := (k, u)) (by rw [entries]; exact hk) hne
        (bucketBusy_of_one ga hline gr (by rw [bucket]; exact hne)) hken (by rw [gains (k, u) hk]; exact hkpays) fun x hx hxi hxk => ?_
      · rw [own, entry]
        exact (take_63_sum _).trans_lt hrate
      · rw [entries] at hx
        exact (honly x hx hxi hxk).imp_right (short hx)
    obtain ⟨tk, ti⟩ := lendToken_tokens g port hne
    refine ⟨_, run.trans (congrArg _ (admitPort_of_borrows (t := lendToken g port i k) ga hline gr gpart glt (by rw [bucket]; exact no_pay)
      (by rw [bucket]; exact loan) rfl rfl)), admitted_accesses ga hline rfl port, tk.trans ?_, ti.trans ?_⟩
    · rw [gains (k, u) hk]
    · rw [own]
  · have no_pay : takeToken g port i = none := takeToken_of_short (.inr (short he h))
    have no_loan : borrowToken g port i = none := borrowToken_of_none gnodup (.inl (by
      rw [own, entry]
      exact hrate.trans_eq (take_63_sum _).symm))
    exact ⟨g, run.trans (congrArg _ (admitPort_of_waits ga hline gr gpart glt (by rw [bucket]; exact no_pay) (by rw [bucket]; exact no_loan))), ga⟩

theorem bucketTokenGain_of_none_waiting (ha : ∀ a ∈ s.accesses, a.unpaid = []) (hr : ∀ r ∈ s.portReqs, r.unpaid = []) :
    runsTo .bucketTokenGain s fun t => { t with buckets := s.buckets } = s ∧
      ∀ port < 64, ∀ e ∈ s.bucketEntries, (bucketAt t port e.1).tokens = (gainedBucket s port e).tokens := by
  obtain ⟨bs, hgain, gains⟩ := gainAll_eq hnodup
  refine ⟨{ s with buckets := bs }, ?_, rfl, fun port hport e he => congrArg Bucket.tokens (gains port hport e he)⟩
  have none_waiting : lineWaits { s with buckets := bs } = [] := lineWaits_of_paid ha hr
  show Host.Outcome.next (((List.range 64).filter fun port => waitsAtPort (gainAll s) port != []).foldl admitPort (gainAll s)) = _
  rw [hgain]
  simp [waitsAtPort, none_waiting]

end

/-- Settles O47: the operations of one station, and the one line that waits at one port. -/
theorem ringAndBuckets : Obligations.RingAndBuckets := by
  unfold Obligations.RingAndBuckets
  refine ⟨waggleToken_serves, fun s hnodup => ⟨fun die line r hr => ?_, bucketTokenGain_of_none_waiting hnodup,
    fun a line v ha hline hr hport he hpart hen => ⟨fun hleft hall => canPerform_of_unpaid hline hleft hall, ?_⟩⟩⟩
  · simp [portOf, hr]
  · exact bucketTokenGain_admits hnodup ha hline hr hport he hpart hen

end Sys2Proof.Machine
end

section
/-! SUPPORT. The fields of a schedule register, and one evaluation of a context (R350 to R352). -/

namespace Sys2Proof.Machine

/-! ## Fields of the register -/

theorem getLsbD_withFlops (x : BitVec 200) (q : BitVec 16) {r i : Nat} (hi : i < 200) :
    (withFlops x r q).getLsbD i = if 72 + 16 * r ≤ i ∧ i < 72 + 16 * r + 16 then q.getLsbD (i - (72 + 16 * r)) else x.getLsbD i := by
  have mask : ∀ j, (0xFFFF#200).getLsbD j = decide (j < 16) := by
    intro j
    rw [BitVec.getLsbD_ofNat, show 0xFFFF = 2 ^ 16 - 1 from rfl, Nat.testBit_two_pow_sub_one]
    by_cases h : j < 16
    · simp [h]; omega
    · simp [h]
  unfold withFlops
  rw [BitVec.getLsbD_or, BitVec.getLsbD_and, BitVec.getLsbD_not, BitVec.getLsbD_shiftLeft, BitVec.getLsbD_shiftLeft,
    BitVec.getLsbD_setWidth, mask]
  by_cases hlow : i < 72 + 16 * r
  · simp [hi, hlow, Nat.not_le_of_lt hlow]
  · by_cases hin : i < 72 + 16 * r + 16
    · simp [hi, hlow, hin, show 72 + 16 * r ≤ i by omega, show i - (72 + 16 * r) < 16 by omega, show i - (72 + 16 * r) < 200 by omega]
    · have beyond : q.getLsbD (i - (72 + 16 * r)) = false := BitVec.getLsbD_of_ge q _ (by omega)
      simp [hi, hlow, hin, beyond, show ¬i - (72 + 16 * r) < 16 by omega]

theorem getLsbD_withPos (x : BitVec 200) (p : Nat) {i : Nat} (hi : i < 200) :
    (withPos x p).getLsbD i = if 67 ≤ i ∧ i < 70 then p.testBit (i - 67) else x.getLsbD i := by
  have mask : ∀ j, (7#200).getLsbD j = decide (j < 3) := by
    intro j
    rw [BitVec.getLsbD_ofNat, show 7 = 2 ^ 3 - 1 from rfl, Nat.testBit_two_pow_sub_one]
    by_cases h : j < 3
    · simp [h]; omega
    · simp [h]
  unfold withPos
  rw [BitVec.getLsbD_or, BitVec.getLsbD_and, BitVec.getLsbD_not, BitVec.getLsbD_shiftLeft, BitVec.getLsbD_shiftLeft,
    mask, BitVec.getLsbD_ofNat, show 8 = 2 ^ 3 from rfl, Nat.testBit_mod_two_pow]
  by_cases hlow : i < 67
  · simp [hi, hlow, Nat.not_le_of_lt hlow]
  · by_cases hin : i < 70
    · simp [hi, hlow, hin, show 67 ≤ i by omega, show i - 67 < 3 by omega, show i - 67 < 200 by omega]
    · simp [hi, hlow, hin, show ¬i - 67 < 3 by omega]

/-- Registers that agree in the bits of a field have the same field. -/
theorem extractLsb'_congr {x y : BitVec 200} {lo n : Nat} (h : ∀ i < n, x.getLsbD (lo + i) = y.getLsbD (lo + i)) :
    x.extractLsb' lo n = y.extractLsb' lo n := by
  refine BitVec.eq_of_getLsbD_eq fun i hi => ?_
  rw [BitVec.getLsbD_extractLsb', BitVec.getLsbD_extractLsb', h i hi]

section
variable (x : BitVec 200) (q : BitVec 16) {r : Nat}

theorem schFlops_withFlops (hr : r < 8) : schFlops (withFlops x r q) r = q := by
  refine BitVec.eq_of_getLsbD_eq fun i hi => ?_
  rw [schFlops, BitVec.getLsbD_extractLsb', getLsbD_withFlops x q (by omega), if_pos ⟨by omega, by omega⟩]
  simp [hi]

theorem schFlops_withFlops_other {j : Nat} (hj : j < 8) (h : j ≠ r) : schFlops (withFlops x r q) j = schFlops x j :=
  extractLsb'_congr fun i hi => by rw [getLsbD_withFlops x q (by omega), if_neg (by omega)]

theorem schRing_withFlops {j : Nat} (hj : j < 8) : schRing (withFlops x r q) j = schRing x j :=
  congrArg BitVec.toNat (extractLsb'_congr fun i hi => by rw [getLsbD_withFlops x q (by omega), if_neg (by omega)])

theorem schLen_withFlops : schLen (withFlops x r q) = schLen x :=
  congrArg BitVec.toNat (extractLsb'_congr fun i hi => by rw [getLsbD_withFlops x q (by omega), if_neg (by omega)])

end

section
variable (x : BitVec 200) (p : Nat)

theorem schFlops_withPos {j : Nat} (hj : j < 8) : schFlops (withPos x p) j = schFlops x j :=
  extractLsb'_congr fun i hi => by rw [getLsbD_withPos x p (by omega), if_neg (by omega)]

theorem schRing_withPos {j : Nat} (hj : j < 8) : schRing (withPos x p) j = schRing x j :=
  congrArg BitVec.toNat (extractLsb'_congr fun i hi => by rw [getLsbD_withPos x p (by omega), if_neg (by omega)])

theorem schLen_withPos : schLen (withPos x p) = schLen x :=
  congrArg BitVec.toNat (extractLsb'_congr fun i hi => by rw [getLsbD_withPos x p (by omega), if_neg (by omega)])

theorem schPos_withPos (hp : p < 8) : schPos (withPos x p) = p := by
  have field : (withPos x p).extractLsb' 67 3 = BitVec.ofNat 3 p := by
    refine BitVec.eq_of_getLsbD_eq fun i hi => ?_
    rw [BitVec.getLsbD_extractLsb', getLsbD_withPos x p (by omega), if_pos ⟨by omega, by omega⟩, BitVec.getLsbD_ofNat,
      Nat.add_sub_cancel_left]
  rw [schPos, field, BitVec.toNat_ofNat, Nat.mod_eq_of_lt hp]

theorem schPos_lt : schPos x < 8 := (x.extractLsb' 67 3).isLt

theorem schLen_lt : schLen x < 8 := (x.extractLsb' 64 3).isLt

end

/-! ## Lanes of one bit -/

theorem ofLanes_one_lt (l : List Nat) : ofLanes 1 l < 2 ^ l.length := by
  induction l with
  | nil => exact Nat.one_pos
  | cons x xs ih =>
    rw [ofLanes, List.length_cons, Nat.pow_succ]
    omega

theorem ofLanes_one_bit (l : List Nat) {j : Nat} (hj : j < l.length) : ofLanes 1 l / 2 ^ j % 2 = l[j] % 2 := by
  induction l generalizing j with
  | nil => cases hj
  | cons x xs ih =>
    rw [ofLanes]
    cases j with
    | zero => simp
    | succ j =>
      have step : (x % 2 ^ 1 + 2 ^ 1 * ofLanes 1 xs) / 2 ^ (j + 1) = ofLanes 1 xs / 2 ^ j := by
        rw [show 2 ^ (j + 1) = 2 * 2 ^ j from Nat.pow_succ', ← Nat.div_div_eq_div_mul]
        congr 1
        omega
      rw [step]
      exact ih (Nat.lt_of_succ_lt_succ hj)

/-! ## One evaluation -/

theorem inputWord_eq (f : Nat → Nat) : inputWord f = f 0 + 2 * f 1 + 4 * f 2 + 8 * f 3 + 16 * f 4 + 32 * f 5 := by
  simp only [inputWord, List.range, List.range.loop, List.foldl]
  omega

theorem levelA_lt (row : Nat) (inp : BitVec 16) (k : Nat) : levelA row inp k < 2 := Nat.mod_lt _ (by decide)

theorem levelB_lt (row : Nat) (inp q : BitVec 16) (k : Nat) : levelB row inp q k < 2 := Nat.mod_lt _ (by decide)

theorem levelA_eq (row : Nat) (inp : BitVec 16) (k : Nat) :
    levelA row inp k = row / 2 ^ (64 * k + inputWord fun m => bitNat inp (row / 2 ^ (1024 + 24 * k + 4 * m) % 16)) % 2 := rfl

theorem levelB_eq (row : Nat) (inp q : BitVec 16) (k : Nat) :
    levelB row inp q k = row / 2 ^ (512 + 64 * k + inputWord fun m => sourceB row inp q (row / 2 ^ (1216 + 30 * k + 5 * m) % 32)) % 2 := by
  rw [levelB, lutBit, show 64 * (8 + k) = 512 + 64 * k by omega]

/-- An output bit is the LUT that the map names (R351). -/
theorem evalRow_bit (row : Nat) (inp q : BitVec 16) {j : Nat} (hj : j < 16) :
    (evalRow row inp q).toNat / 2 ^ j % 2 =
      if row / 2 ^ (1472 + 4 * j) % 16 < 8 then levelA row inp (row / 2 ^ (1472 + 4 * j) % 16)
      else levelB row inp q (row / 2 ^ (1472 + 4 * j) % 16 - 8) := by
  unfold evalRow
  generalize hl : (List.range 16).map _ = l
  have hlen : l.length = 16 := by rw [← hl]; simp
  have lt := ofLanes_one_lt l
  rw [hlen] at lt
  rw [BitVec.toNat_ofNat, Nat.mod_eq_of_lt lt, ofLanes_one_bit l (by omega)]
  subst hl
  simp only [List.getElem_map, List.getElem_range]
  split
  · exact Nat.mod_eq_of_lt (levelA_lt _ _ _)
  · exact Nat.mod_eq_of_lt (levelB_lt _ _ _ _)

/-- The evaluation of the ring's next context gives its outputs to the entry's flops, and moves the ring on; nothing else of the
register changes (R351, R352). -/
theorem evalNext_register (s : State) (r : ArrayRef) (x : BitVec 200) (inp : BitVec 16) :
    let b := (evalNext s r x inp).1
    let p := schPos x
    schFlops b p = (evalNext s r x inp).2 ∧ (∀ j < 8, j ≠ p → schFlops b j = schFlops x j) ∧
    schPos b = (p + 1) % (schLen x + 1) ∧ schLen b = schLen x ∧ ∀ j < 8, schRing b j = schRing x j := by
  intro b p
  have hp : p < 8 := schPos_lt x
  have hnext : (p + 1) % (schLen x + 1) < 8 := Nat.lt_of_lt_of_le (Nat.mod_lt _ (Nat.succ_pos _)) (schLen_lt x)
  refine ⟨?_, fun j hj hne => ?_, ?_, ?_, fun j hj => ?_⟩
  · exact (schFlops_withPos _ _ hp).trans (schFlops_withFlops x _ hp)
  · exact (schFlops_withPos _ _ hj).trans (schFlops_withFlops_other x _ hj hne)
  · exact schPos_withPos _ _ hnext
  · exact (schLen_withPos _ _).trans (schLen_withFlops x _)
  · exact (schRing_withPos _ _ hj).trans (schRing_withFlops x _ hj)

/-- The registers that evaluations in order pass through. -/
def evalRegs (s : State) (r : ArrayRef) : BitVec 200 → List (BitVec 16) → List (BitVec 200)
  | x, [] => [x]
  | x, i :: is => x :: evalRegs s r (evalNext s r x i).1 is

theorem evalAll_length (s : State) (r : ArrayRef) (x : BitVec 200) (ins : List (BitVec 16)) :
    (evalAll s r x ins).2.length = ins.length := by
  induction ins generalizing x with
  | nil => rfl
  | cons i is ih => simp [evalAll, ih]

theorem evalRegs_length (s : State) (r : ArrayRef) (x : BitVec 200) (ins : List (BitVec 16)) :
    (evalRegs s r x ins).length = ins.length + 1 := by
  induction ins generalizing x with
  | nil => rfl
  | cons i is ih => simp [evalRegs, ih]

theorem evalRegs_first (s : State) (r : ArrayRef) (x : BitVec 200) (ins : List (BitVec 16)) : (evalRegs s r x ins)[0]? = some x := by
  cases ins <;> rfl

theorem evalRegs_last (s : State) (r : ArrayRef) (x : BitVec 200) (ins : List (BitVec 16)) :
    (evalRegs s r x ins)[ins.length]? = some (evalAll s r x ins).1 := by
  induction ins generalizing x with
  | nil => rfl
  | cons i is ih => simpa [evalRegs, evalAll] using ih _

/-- Each evaluation takes the register that the one before has left (R352). -/
theorem evalRegs_step (s : State) (r : ArrayRef) (x : BitVec 200) (ins : List (BitVec 16)) {k : Nat} (hk : k < ins.length) :
    ∃ a i, (evalRegs s r x ins)[k]? = some a ∧ ins[k]? = some i ∧ (evalRegs s r x ins)[k + 1]? = some (evalNext s r a i).1 ∧
      (evalAll s r x ins).2[k]? = some (evalNext s r a i).2.toNat := by
  induction ins generalizing x k with
  | nil => cases hk
  | cons i is ih =>
    cases k with
    | zero => exact ⟨x, i, rfl, rfl, evalRegs_first s r _ is, rfl⟩
    | succ k =>
      obtain ⟨a, j, h⟩ := ih (evalNext s r x i).1 (Nat.lt_of_succ_lt_succ hk)
      exact ⟨a, j, h⟩

/-- The evaluations of a ring's contexts in order, each from the register that the one before has left, and each with its own
outputs by its row's LUTs and map (R350 to R352). -/
theorem evalAll_evaluates (s : State) (r : ArrayRef) (x : BitVec 200) (ins : List (BitVec 16)) :
    let v := evalAll s r x ins
    let one := fun (a : BitVec 200) (i : BitVec 16) (b : BitVec 200) (out : Nat) =>
      let p := schPos a
      let row := arrayRow s r (schRing a p)
      let inp := fun (j : Nat) => if i.getLsbD j then 1 else 0
      let index := fun (g : Nat → Nat) => g 0 + 2 * g 1 + 4 * g 2 + 8 * g 3 + 16 * g 4 + 32 * g 5
      let la := fun (k : Nat) => row / 2 ^ (64 * k + index fun m => inp (row / 2 ^ (1024 + 24 * k + 4 * m) % 16)) % 2
      let src := fun (c : Nat) =>
        if c < 16 then inp c else if c < 24 then la (c - 16) else if (schFlops a p).getLsbD (c - 24) then 1 else 0
      let lb := fun (k : Nat) => row / 2 ^ (512 + 64 * k + index fun m => src (row / 2 ^ (1216 + 30 * k + 5 * m) % 32)) % 2
      out < 2 ^ 16 ∧
      (∀ j < 16, out / 2 ^ j % 2 = let m := row / 2 ^ (1472 + 4 * j) % 16; if m < 8 then la m else lb (m - 8)) ∧
      schFlops b p = BitVec.ofNat 16 out ∧ (∀ j < 8, j ≠ p → schFlops b j = schFlops a j) ∧
      schPos b = (p + 1) % (schLen a + 1) ∧ schLen b = schLen a ∧ ∀ j < 8, schRing b j = schRing a j
    ∃ regs : List (BitVec 200), regs.length = ins.length + 1 ∧ v.2.length = ins.length ∧ regs[0]? = some x ∧
      regs[ins.length]? = some v.1 ∧
      ∀ k < ins.length, ∃ a i b out, regs[k]? = some a ∧ ins[k]? = some i ∧ regs[k + 1]? = some b ∧ v.2[k]? = some out ∧
        one a i b out := by
  intro v one
  refine ⟨evalRegs s r x ins, evalRegs_length s r x ins, evalAll_length s r x ins, evalRegs_first s r x ins,
    evalRegs_last s r x ins, fun k hk => ?_⟩
  obtain ⟨a, i, ha, hi, hb, hout⟩ := evalRegs_step s r x ins hk
  obtain ⟨flops, others, pos, len, ring⟩ := evalNext_register s r a i
  refine ⟨a, i, _, _, ha, hi, hb, hout, BitVec.isLt _, fun j hj => ?_, ?_, others, pos, len, ring⟩
  · have bit := evalRow_bit (arrayRow s r (schRing a (schPos a))) i (schFlops a (schPos a)) hj
    simp only [levelB_eq, levelA_eq, sourceB, inputWord_eq] at bit
    exact bit
  · rw [BitVec.ofNat_toNat, BitVec.setWidth_eq]
    exact flops

end Sys2Proof.Machine
end

section
/-! SUPPORT. The comb words: what each comes to on its array (R355 to R359). -/

namespace Sys2Proof.Machine

/-! ## The outcome of a body -/

/-- What a firing comes to whose word's meaning has come to a body. -/
def bodyResult (s : State) (f : Firing) : Body → Result
  | .wait s2 => .next { s2 with instances := s.instances }
  | .done s2 outs => .next (endFiring s2 f .fire outs)
  | .fault s2 x silent => .next (if silent then endFiring (raiseFault s2 f x) f .fire [] else endFault s2 f x)

theorem fireWord_of_fires {s : State} {f : Firing} {op : Nat} {w : EWord} (hf : firingAt s s.site op w = some f)
    (hm : modeOf f.heads = .fire) (body : State → Firing → Body) :
    fireWord op w body s = bodyResult s f (body (ensureInstance s f) f) := by
  have fires : fireWord op w body s = fireOf (fun s f m => if m = .fire then body s f else .done (smismIf m s f) (f.plain m)) s f := by
    rw [fireWord, fireRaw, hf]
  rw [fires]
  unfold fireOf
  simp only [hm, if_true, reduceCtorEq, if_false]
  cases body (ensureInstance s f) f <;> rfl

/-- The array that a comb word names. -/
def Firing.combRef (f : Firing) (e : EWord) : ArrayRef := combArray f.n.ref (e.x.toNat % 16)

/-- A comb word that fires on data. -/
def CombFires (s : State) (e : EWord) (f : Firing) (op : Nat) : Prop :=
  firingAt s s.site op e = some f ∧ modeOf f.heads = .fire

/-- A comb word that reaches its array. -/
def CombReady (s : State) (e : EWord) (f : Firing) (op : Nat) (modes : List ArrayMode) : Prop :=
  CombFires s e f op ∧ excepted (ensureInstance s f) f = false ∧ (arrayOf (ensureInstance s f) (f.combRef e)).busy = false ∧
    (arrayOf (ensureInstance s f) (f.combRef e)).mode ∈ modes ∧ (arrayOf (ensureInstance s f) (f.combRef e)).owner = f.g.part

section
variable {s : State} {e : EWord} {f : Firing} {op : Nat} {modes : List ArrayMode} {body : State → Firing → ArrayRef → Body}

theorem combArray_low_nibble (f : Firing) (e : EWord) : combArray f.n.ref (e.x.extractLsb' 0 4).toNat = f.combRef e := by
  rw [BitVec.extractLsb'_toNat, Nat.shiftRight_zero, Firing.combRef]

theorem fireComb_of_excepted (on : CombFires s e f op) (hexc : excepted (ensureInstance s f) f = true) :
    fireComb op e modes body s = .next (endFiring (ensureInstance s f) f .fire (both (f.token 0))) := by
  rw [fireComb, fireWord_of_fires on.1 on.2, if_pos hexc]
  rfl

theorem fireComb_of_busy (on : CombFires s e f op) (hexc : excepted (ensureInstance s f) f = false)
    (hbusy : (arrayOf (ensureInstance s f) (f.combRef e)).busy = true) :
    fireComb op e modes body s = .next { ensureInstance s f with instances := s.instances } := by
  rw [fireComb, fireWord_of_fires on.1 on.2, if_neg (Bool.eq_false_iff.1 hexc), combArray_low_nibble]
  simp only
  rw [if_pos hbusy]
  rfl

theorem fireComb_of_wrong_array (on : CombFires s e f op) (hexc : excepted (ensureInstance s f) f = false)
    (hbusy : (arrayOf (ensureInstance s f) (f.combRef e)).busy = false)
    (hwrong : (arrayOf (ensureInstance s f) (f.combRef e)).mode ∉ modes ∨
      (arrayOf (ensureInstance s f) (f.combRef e)).owner ≠ f.g.part) :
    fireComb op e modes body s =
      .next (endFault (ensureInstance s f) f { code := 0x21, cause := 0xF1, aux := 0, addr := 0 }) := by
  rw [fireComb, fireWord_of_fires on.1 on.2, if_neg (Bool.eq_false_iff.1 hexc), combArray_low_nibble]
  simp only
  rw [if_neg (Bool.eq_false_iff.1 hbusy), if_pos (by simpa using hwrong)]
  rfl

theorem fireComb_of_ready (h : CombReady s e f op modes) :
    fireComb op e modes body s = bodyResult s f (body (ensureInstance s f) f (f.combRef e)) := by
  obtain ⟨on, hexc, hbusy, hmode, howner⟩ := h
  rw [fireComb, fireWord_of_fires on.1 on.2, if_neg (Bool.eq_false_iff.1 hexc), combArray_low_nibble]
  simp only
  rw [if_neg (Bool.eq_false_iff.1 hbusy), if_neg (by simpa using ⟨hmode, howner⟩)]

/-- What a comb word comes to that does not reach its array (R215, R359). -/
theorem combWord_without_array {i : Instr} (hi : ∃ body, exec i s = fireComb op e modes body s) (on : CombFires s e f op) :
    let s1 := ensureInstance s f
    let a := arrayOf s1 (f.combRef e)
    (excepted s1 f = true → runsTo i s fun t => endsWith s1 f (both (f.token 0)) t) ∧
    (excepted s1 f = false → a.busy = true → exec i s = .next { s1 with instances := s.instances }) ∧
    (excepted s1 f = false → a.busy = false → a.mode ∉ modes ∨ a.owner ≠ f.g.part →
      exec i s = .next (endFault s1 f { code := 0x21, cause := 0xF1, aux := 0, addr := 0 })) := by
  obtain ⟨body, hi⟩ := hi
  exact ⟨fun hexc => ⟨_, hi.trans (fireComb_of_excepted on hexc), rfl⟩, fun hexc hbusy => hi.trans (fireComb_of_busy on hexc hbusy),
    fun hexc hbusy hwrong => hi.trans (fireComb_of_wrong_array on hexc hbusy hwrong)⟩

end

/-! ## Payloads -/

theorem shiftRight_ne_zero_iff {w : Nat} (p : BitVec w) (n : Nat) : p >>> n ≠ 0 ↔ 2 ^ n ≤ p.toNat := by
  rw [Ne, BitVec.ofNat_eq_ofNat, ← BitVec.toNat_inj, BitVec.toNat_ushiftRight, BitVec.toNat_ofNat, Nat.zero_mod, Nat.shiftRight_eq_div_pow,
    Nat.div_eq_zero_iff_lt (Nat.two_pow_pos n), Nat.not_lt]

theorem modBit_iff (e : EWord) : e.mod.getLsbD 0 = true ↔ e.mod.toNat % 2 = 1 := by
  rw [BitVec.getLsbD, Nat.testBit_zero, decide_eq_true_iff]

section
variable {p : Payload}

theorem ctxOperand_of_high_bits (h : 2 ^ 72 ≤ p.toNat) : ctxOperand p = .error combx := by
  rw [ctxOperand, if_pos ((shiftRight_ne_zero_iff p 72).2 h)]

theorem ctxOperand_of_misaligned (h : p.toNat < 2 ^ 72) (hal : p.toNat % 8 ≠ 0) :
    ctxOperand p = .error { code := 0x22, cause := 0xF3, aux := 0, addr := p.toNat % 2 ^ 64 } := by
  rw [ctxOperand, if_neg (mt (shiftRight_ne_zero_iff p 72).1 (Nat.not_le_of_lt h)), if_pos (by omega)]

theorem ctxOperand_of_aligned (h : p.toNat < 2 ^ 72) (hal : p.toNat % 8 = 0) :
    ctxOperand p = .ok (p.toNat % 2 ^ 64, p.toNat / 2 ^ 64) := by
  rw [ctxOperand, if_neg (mt (shiftRight_ne_zero_iff p 72).1 (Nat.not_le_of_lt h)), if_neg (by omega), BitVec.extractLsb'_toNat,
    Nat.shiftRight_eq_div_pow, Nat.mod_eq_of_lt (Nat.div_lt_of_lt_mul h : p.toNat / 2 ^ 64 < 2 ^ 8)]

/-- The state half that CSTATE writes, above the register's low 72 bits (R358). -/
theorem stateHalf_eq (x : BitVec 200) :
    (x.extractLsb' 0 72).setWidth 200 ||| ((p.extractLsb' 0 128).setWidth 200 <<< 72) =
      BitVec.ofNat 200 (p.toNat * 2 ^ 72 + x.toNat % 2 ^ 72) := by
  refine BitVec.eq_of_getLsbD_eq fun i hi => ?_
  rw [BitVec.getLsbD_or, BitVec.getLsbD_setWidth, BitVec.getLsbD_extractLsb', BitVec.getLsbD_shiftLeft, BitVec.getLsbD_setWidth,
    BitVec.getLsbD_extractLsb', BitVec.getLsbD_ofNat, Nat.mul_comm,
    Nat.testBit_two_pow_mul_add _ (Nat.mod_lt _ (Nat.two_pow_pos _)), Nat.testBit_mod_two_pow]
  by_cases hlow : i < 72
  · simp [hi, hlow, BitVec.getLsbD]
  · simp [hi, hlow, BitVec.getLsbD, show i - 72 < 128 by omega, show i - 72 < 200 by omega]

end

/-! ## The row that CSAVECTX stores -/

section
variable {s : State} {f : Firing} {r : ArrayRef} {c : Nat}

theorem heldOf_of_no_block (h : hasBlock s f.n.ref = false) : heldOf s f = [] := by simp [heldOf, h]

theorem map_snd_zip_range_readMem (s : State) (pa : Nat) : (((List.range 256).zip (readMem s 0 pa 256)).map Prod.snd) = readMem s 0 pa 256 :=
  List.map_snd_zip (by simp [readMem])

theorem savedRow_of_no_entry (hblock : hasBlock s f.n.ref = false)
    (h : ∀ j, j ≤ schLen (arrayOf s r).sched → schRing (arrayOf s r).sched j ≠ c) :
    savedRow s f r c = readMem s 0 (arrayPa r + 256 * c) 256 := by
  have none : (List.range (schLen (arrayOf s r).sched + 1)).find? (fun e => schRing (arrayOf s r).sched e == c) = none := by
    rw [List.find?_range_eq_none]
    intro j hj
    simpa using h j (Nat.le_of_lt_succ hj)
  simp only [savedRow, none, heldOf_of_no_block hblock]
  exact map_snd_zip_range_readMem s _

/-- The row's flops are those of the lowest ring entry that holds it (R352, R357). -/
theorem savedRow_of_entry (hblock : hasBlock s f.n.ref = false) {j : Nat} (hj : j ≤ schLen (arrayOf s r).sched)
    (hc : schRing (arrayOf s r).sched j = c) (hfirst : ∀ i < j, schRing (arrayOf s r).sched i ≠ c) :
    savedRow s f r c = (readMem s 0 (arrayPa r + 256 * c) 256).take 182 ++
      toBytes 2 (schFlops (arrayOf s r).sched j).toNat ++ (readMem s 0 (arrayPa r + 256 * c) 256).drop 184 := by
  have entry : (List.range (schLen (arrayOf s r).sched + 1)).find? (fun e => schRing (arrayOf s r).sched e == c) = some j := by
    rw [List.find?_range_eq_some]
    exact ⟨by simpa using hc, List.mem_range.2 (Nat.lt_succ_of_le hj), fun i hi => by simpa using hfirst i hi⟩
  have row := map_snd_zip_range_readMem s (arrayPa r + 256 * c)
  have two : (toBytes 2 (schFlops (arrayOf s r).sched j).toNat).length = 2 := rfl
  have len : (readMem s 0 (arrayPa r + 256 * c) 256).length = 256 := by simp [readMem]
  simp only [savedRow, entry, heldOf_of_no_block hblock, List.flatMap_nil, List.reverse_nil, List.find?_nil, Option.map_none,
    Option.getD_none]
  rw [show (fun y : Nat × Byte => y.2) = Prod.snd from rfl, row, patch, two, len]
  exact List.take_of_length_le (by simp [two, readMem])

end

/-! ## Stores of a word -/

section
variable (s : State) (f : Firing) (qs : List (Nat × Nat × Nat)) (row : Bool) (h : HeldStore)

theorem hasBlock_noteTouch : hasBlock (noteTouch s f qs row) f.n.ref = hasBlock s f.n.ref := by
  unfold noteTouch
  split <;> rfl

theorem putStores_one_of_block (hblock : hasBlock s f.n.ref = true) :
    putStores (noteTouch s f qs row) f [h] = holdStore (noteTouch s f qs row) f h := by
  rw [putStores, if_pos ((hasBlock_noteTouch s f qs row).trans hblock)]
  rfl

theorem putStores_one_of_no_block (hblock : hasBlock s f.n.ref = false) :
    putStores (noteTouch s f qs row) f [h] = releaseStores s f [h] := by
  have keep : noteTouch s f qs row = s := by simp [noteTouch, hblock]
  simp [putStores, keep, hblock]

end

/-! ## The words -/

section
variable {s : State} {e : EWord} {f : Firing}

theorem exec_ceval : ∃ body, exec (.ceval e) s = fireComb 0xA0 e [.run] body s := by
  rw [show exec (.ceval e) s = execCeval e s from rfl, execCeval]
  exact ⟨_, rfl⟩

theorem exec_csched : ∃ body, exec (.csched e) s = fireComb 0xA1 e [.load, .run] body s := by
  rw [show exec (.csched e) s = execCsched e s from rfl, execCsched]
  exact ⟨_, rfl⟩

theorem exec_cloadctx : ∃ body, exec (.cloadctx e) s = fireComb 0xA2 e [.load, .run] body s := by
  rw [show exec (.cloadctx e) s = execCloadctx e s from rfl, execCloadctx]
  exact ⟨_, rfl⟩

theorem exec_csavectx : ∃ body, exec (.csavectx e) s = fireComb 0xA3 e [.load, .run] body s := by
  rw [show exec (.csavectx e) s = execCsavectx e s from rfl, execCsavectx]
  exact ⟨_, rfl⟩

theorem exec_cstate : ∃ body, exec (.cstate e) s = fireComb 0xA4 e [.cache, .scratch, .load, .run] body s := by
  rw [show exec (.cstate e) s = execCstate e s from rfl, execCstate]
  exact ⟨_, rfl⟩

theorem ceval_of_ready (h : CombReady s e f 0xA0 [.run]) :
    let s1 := ensureInstance s f
    let r := f.combRef e
    let a := arrayOf s1 r
    let p := f.pay .a
    (ringBad s1 r a.sched = true → exec (.ceval e) s = .next (endFault s1 f combx)) ∧
    (ringBad s1 r a.sched = false →
      let ins := if e.mod.toNat % 2 = 1 then List.replicate (e.x.toNat / 16 % 16 + 1) (p.extractLsb' 0 16)
        else (List.range 16).map fun k => p.extractLsb' (16 * k) 16
      let v := evalAll s1 r a.sched ins
      v.2.length = ins.length ∧
      runsTo (.ceval e) s fun t => endsWith (setArray s1 r fun a => { a with sched := v.1 }) f
        (both (f.token (BitVec.ofNat 256 (ofLanes 16 v.2)))) t) := by
  intro s1 r a p
  simp only [runsTo]
  rw [show exec (.ceval e) s = execCeval e s from rfl, execCeval, fireComb_of_ready h]
  refine ⟨fun hbad => ?_, fun hbad => ⟨evalAll_length _ _ _ _, _, ?_, rfl⟩⟩
  · simp only
    rw [if_pos hbad]
    rfl
  · have nibble : (e.x.extractLsb' 4 4).toNat = e.x.toNat / 16 % 16 := by
      rw [BitVec.extractLsb'_toNat, Nat.shiftRight_eq_div_pow]
    simp only
    rw [if_neg (Bool.eq_false_iff.1 hbad), nibble]
    simp only [modBit_iff]
    rfl

theorem csched_of_ready (h : CombReady s e f 0xA1 [.load, .run]) :
    let s1 := ensureInstance s f
    let r := f.combRef e
    let p := f.pay .a
    let x := (p.extractLsb' 0 67).setWidth 200
    (2 ^ 67 ≤ p.toNat ∨ ringBad s1 r x = true → exec (.csched e) s = .next (endFault s1 f combx)) ∧
    (p.toNat < 2 ^ 67 → ringBad s1 r x = false →
      runsTo (.csched e) s fun t => endsWith (setArray s1 r fun a => { a with sched := loadFlops s1 r x }) f (both (f.token p)) t) := by
  intro s1 r p x
  simp only [runsTo]
  rw [show exec (.csched e) s = execCsched e s from rfl, execCsched, fireComb_of_ready h]
  have bad : (decide (p >>> 67 ≠ 0) || ringBad s1 r x) = true ↔ 2 ^ 67 ≤ p.toNat ∨ ringBad s1 r x = true := by
    rw [Bool.or_eq_true, decide_eq_true_iff, shiftRight_ne_zero_iff]
  refine ⟨fun hbad => ?_, fun hlt hring => ⟨_, ?_, rfl⟩⟩
  · simp only
    rw [if_pos (bad.2 hbad)]
    rfl
  · simp only
    rw [if_neg fun hbad => (bad.1 hbad).elim (Nat.not_le_of_lt hlt) (by simp [hring])]
    rfl

theorem cstate_of_ready (h : CombReady s e f 0xA4 [.cache, .scratch, .load, .run]) :
    let s1 := ensureInstance s f
    let r := f.combRef e
    let a := arrayOf s1 r
    let p := f.pay .a
    (e.mod.toNat % 2 = 0 → runsTo (.cstate e) s fun t => endsWith s1 f (both (f.token (a.sched.setWidth 256))) t) ∧
    (e.mod.toNat % 2 = 1 → 2 ^ 128 ≤ p.toNat → exec (.cstate e) s = .next (endFault s1 f combx)) ∧
    (e.mod.toNat % 2 = 1 → p.toNat < 2 ^ 128 →
      runsTo (.cstate e) s fun t => endsWith (setArray s1 r fun a =>
        { a with sched := BitVec.ofNat 200 (p.toNat * 2 ^ 72 + (arrayOf s1 r).sched.toNat % 2 ^ 72) }) f (both (f.token p)) t) := by
  intro s1 r a p
  simp only [runsTo]
  rw [show exec (.cstate e) s = execCstate e s from rfl, execCstate, fireComb_of_ready h]
  have write : (!e.mod.getLsbD 0) = true ↔ ¬e.mod.toNat % 2 = 1 := by rw [Bool.not_eq_true', ← modBit_iff, Bool.not_eq_true]
  refine ⟨fun hmod => ⟨_, ?_, rfl⟩, fun hmod hp => ?_, fun hmod hp => ⟨_, ?_, rfl⟩⟩
  · simp only
    rw [if_pos (write.2 (by omega))]
    rfl
  · simp only
    rw [if_neg (fun hw => write.1 hw hmod), if_pos ((shiftRight_ne_zero_iff p 128).2 hp)]
    rfl
  · simp only
    rw [if_neg (fun hw => write.1 hw hmod), if_neg (mt (shiftRight_ne_zero_iff p 128).1 (Nat.not_le_of_lt hp)), stateHalf_eq]
    rfl

/-- A payload of CLOADCTX or CSAVECTX that is no address and context (R357, R359). -/
theorem ctxWord_of_bad_operand {i : Instr} (hi : ∀ x, ctxOperand (f.pay .a) = .error x →
      exec i s = .next (endFault (ensureInstance s f) f x)) :
    let p := f.pay .a
    (2 ^ 72 ≤ p.toNat → exec i s = .next (endFault (ensureInstance s f) f combx)) ∧
    (p.toNat < 2 ^ 72 → p.toNat % 8 ≠ 0 →
      exec i s = .next (endFault (ensureInstance s f) f { code := 0x22, cause := 0xF3, aux := 0, addr := p.toNat % 2 ^ 64 })) :=
  ⟨fun hp => hi _ (ctxOperand_of_high_bits hp), fun hp hal => hi _ (ctxOperand_of_misaligned hp hal)⟩

theorem cloadctx_of_operand_fault (h : CombReady s e f 0xA2 [.load, .run]) {x : FabFault} (hx : ctxOperand (f.pay .a) = .error x) :
    exec (.cloadctx e) s = .next (endFault (ensureInstance s f) f x) := by
  rw [show exec (.cloadctx e) s = execCloadctx e s from rfl, execCloadctx, fireComb_of_ready h]
  simp only [hx]
  rfl

theorem csavectx_of_operand_fault (h : CombReady s e f 0xA3 [.load, .run]) {x : FabFault} (hx : ctxOperand (f.pay .a) = .error x) :
    exec (.csavectx e) s = .next (endFault (ensureInstance s f) f x) := by
  rw [show exec (.csavectx e) s = execCsavectx e s from rfl, execCsavectx, fireComb_of_ready h]
  simp only [hx]
  rfl

theorem cloadctx_of_ready (h : CombReady s e f 0xA2 [.load, .run]) (hp : (f.pay .a).toNat < 2 ^ 72) (hal : (f.pay .a).toNat % 8 = 0)
    (s2 : State) :
    let s1 := ensureInstance s f
    let r := f.combRef e
    let p := f.pay .a
    let va := p.toNat % 2 ^ 64
    let c := p.toNat / 2 ^ 64
    (combReach f va false s1 = (s2, none) → exec (.cloadctx e) s = .next { s2 with instances := s.instances }) ∧
    (∀ x, combReach f va false s1 = (s2, some (.fault x)) → exec (.cloadctx e) s = .next (endFault s2 f x.fab)) ∧
    (∀ bs, combReach f va false s1 = (s2, some (.bytes bs)) →
      (hasBlock s2 f.n.ref = false → rowHeld s2 f r = true → exec (.cloadctx e) s = .next { s2 with instances := s.instances }) ∧
      (hasBlock s2 f.n.ref = false → rowHeld s2 f r = false →
        runsTo (.cloadctx e) s fun t => endsWith (writeRow s2 r c bs) f (both (f.token p)) t) ∧
      (hasBlock s2 f.n.ref = true →
        let h : HeldStore := { slot := f.slot, node := f.n.ref, va := va, spilled := false, parts := [], bytes := bs, ord := 0
                               scope := 1, stream := none, row := some (r, c) }
        runsTo (.cloadctx e) s fun t => endsWith (updInstance (holdStore s2 f h) f.n.ref f.key fun i =>
          { i with result := i.result ++ [(f.n.ref, f.slot, f.token p)] }) f [] t)) := by
  intro s1 r p va c
  have hx : ctxOperand (f.pay .a) = .ok (va, c) := ctxOperand_of_aligned hp hal
  simp only [runsTo]
  rw [show exec (.cloadctx e) s = execCloadctx e s from rfl, execCloadctx, fireComb_of_ready h]
  simp only [hx]
  refine ⟨fun hreach => ?_, fun x hreach => ?_, fun bs hreach => ⟨fun hblock hheld => ?_, fun hblock hheld => ⟨_, ?_, rfl⟩,
    fun hblock => ⟨_, ?_, rfl⟩⟩⟩
  · rw [hreach]
    rfl
  · rw [hreach]
    rfl
  · rw [hreach]
    simp only [hblock, hheld, Bool.false_eq_true, if_false, if_true, r]
    rfl
  · rw [hreach]
    simp only [hblock, hheld, Bool.false_eq_true, if_false, r]
    rfl
  · rw [hreach]
    simp only [hblock, if_true]
    rfl

theorem csavectx_of_rowHeld (h : CombReady s e f 0xA3 [.load, .run]) (hp : (f.pay .a).toNat < 2 ^ 72)
    (hal : (f.pay .a).toNat % 8 = 0) (hheld : rowHeld (ensureInstance s f) f (f.combRef e) = true) :
    exec (.csavectx e) s = .next { ensureInstance s f with instances := s.instances } := by
  rw [show exec (.csavectx e) s = execCsavectx e s from rfl, execCsavectx, fireComb_of_ready h]
  simp only [ctxOperand_of_aligned hp hal, hheld, if_true]
  rfl

theorem rowHeld_of_later_wave {r : ArrayRef} (hblock : hasBlock s f.n.ref = true) (hwave : waveFirst f.g f.key.iter = false) :
    rowHeld s f r = true := by
  simp [rowHeld, hblock, hwave]

theorem csavectx_of_ready (h : CombReady s e f 0xA3 [.load, .run]) (hp : (f.pay .a).toNat < 2 ^ 72) (hal : (f.pay .a).toNat % 8 = 0)
    (hheld : rowHeld (ensureInstance s f) f (f.combRef e) = false) (s2 : State) :
    let s1 := ensureInstance s f
    let r := f.combRef e
    let p := f.pay .a
    let va := p.toNat % 2 ^ 64
    let c := p.toNat / 2 ^ 64
    (combReach f va true s1 = (s2, none) → exec (.csavectx e) s = .next { s2 with instances := s.instances }) ∧
    (∀ x, combReach f va true s1 = (s2, some (.fault x)) → exec (.csavectx e) s = .next (endFault s2 f x.fab)) ∧
    (∀ ps, combReach f va true s1 = (s2, some (.parts ps)) →
      let h : HeldStore := { slot := f.slot, node := f.n.ref, va := va, spilled := false, parts := ps
                             bytes := savedRow s2 f r c, ord := 0, scope := 1, stream := none, row := none }
      (hasBlock s2 f.n.ref = true →
        runsTo (.csavectx e) s fun t => endsWith (holdStore (noteTouch s2 f [quadOf r] true) f h) f (both (f.token p)) t) ∧
      (hasBlock s2 f.n.ref = false →
        runsTo (.csavectx e) s fun t => endsWith { s2 with instances := s2.instances ++
          [{ newInstance { node := f.n.ref, key := f.key } f.g.handle false with exited := true, stores := [h], released := true }] }
          f (both (f.token p)) t)) := by
  intro s1 r p va c
  have hx : ctxOperand (f.pay .a) = .ok (va, c) := ctxOperand_of_aligned hp hal
  simp only [runsTo]
  rw [show exec (.csavectx e) s = execCsavectx e s from rfl, execCsavectx, fireComb_of_ready h]
  simp only [hx, hheld, Bool.false_eq_true, if_false]
  refine ⟨fun hreach => ?_, fun x hreach => ?_, fun ps hreach => ⟨fun hblock => ⟨_, ?_, rfl⟩, fun hblock => ⟨_, ?_, rfl⟩⟩⟩
  · rw [hreach]
    rfl
  · rw [hreach]
    rfl
  · rw [hreach]
    simp only [putStores_one_of_block s2 f _ true _ hblock]
    rfl
  · rw [hreach]
    simp only [putStores_one_of_no_block s2 f _ true _ hblock]
    rfl

end

/-- Settles O42: every comb word is `fireComb` with a body of its own, so what comes before the array is proved once for the five;
then each word's body is followed in its cases, and the evaluations by induction over the inputs. -/
theorem combWords : Obligations.CombWords := by
  unfold Obligations.CombWords
  refine ⟨fun s e f => ?_, evalAll_evaluates⟩
  intro s1 r a p va c on ready ends waits faults cx
  refine ⟨?_, ceval_of_ready, csched_of_ready, cstate_of_ready, ?_, fun h hp hal s2 => cloadctx_of_ready h hp hal s2,
    fun h hp hal => ⟨fun hwait => ?_, fun hheld s2 => ?_⟩⟩
  · simp only [List.forall_mem_cons, List.not_mem_nil, false_implies, implies_true, and_true]
    exact ⟨combWord_without_array exec_ceval, combWord_without_array exec_csched, combWord_without_array exec_cloadctx,
      combWord_without_array exec_csavectx, combWord_without_array exec_cstate⟩
  · simp only [List.forall_mem_cons, List.not_mem_nil, false_implies, implies_true, and_true]
    exact ⟨fun h => ctxWord_of_bad_operand fun _ => cloadctx_of_operand_fault h,
      fun h => ctxWord_of_bad_operand fun _ => csavectx_of_operand_fault h⟩
  · exact csavectx_of_rowHeld h hp hal (hwait.elim (fun ⟨hblock, hwave⟩ => rowHeld_of_later_wave hblock hwave) id)
  · obtain ⟨waits, faults, stores⟩ := csavectx_of_ready h hp hal hheld s2
    refine ⟨waits, faults, fun ps hreach => ⟨(stores ps hreach).1, fun hblock => ⟨⟨?_, ?_⟩, (stores ps hreach).2 hblock⟩⟩⟩
    · exact savedRow_of_no_entry hblock
    · exact fun j hj hc hfirst => savedRow_of_entry hblock hj hc hfirst

end Sys2Proof.Machine
end

section
/-! SUPPORT. The end of a conversion, and what the treatment of a line does to the L2 and the L1 (R91, R93, R98 to R103, R138). -/

namespace Sys2Proof.Machine

/-! ## Conversions -/

theorem arrayOf_ref (s : State) (r : ArrayRef) : (arrayOf s r).ref = r := by
  unfold arrayOf
  split
  · next h => simpa using List.find?_some h
  · rfl

/-- The bytes of an array that is zeroed (R91). -/
theorem zeroArray_byte (s : State) (r : ArrayRef) (x : Nat) :
    (memGet (zeroArray s r).mem x).getD 0 =
      if arrayPa r ≤ x ∧ x < arrayPa r + 65536 then 0 else (memGet s.mem x).getD 0 := by
  unfold zeroArray
  by_cases h : arrayPa r ≤ x ∧ x < arrayPa r + 65536
  · rw [if_pos h]
    dsimp only
    rw [memGet_filter_none s.mem _ x fun b => by simpa using h]
    rfl
  · rw [if_neg h]
    dsimp only
    rw [memGet_filter s.mem _ x fun b => by simp; omega]

/-- Whether a conversion keeps the bytes of its array (R91). -/
def keepsBytes (a : ArrayState) (m : ArrayMode) : Bool :=
  a.fromMode == m || (a.fromMode == .load && m == .run) || (a.fromMode == .run && m == .load)

theorem keepsBytes_iff (a : ArrayState) (m : ArrayMode) :
    keepsBytes a m = true ↔ a.fromMode = m ∨ (a.fromMode = .load ∧ m = .run) ∨ (a.fromMode = .run ∧ m = .load) := by
  simp only [keepsBytes, Bool.or_eq_true, Bool.and_eq_true, beq_iff_eq, or_assoc]

theorem endConversion_eq (s : State) (c : Conversion) :
    let s1 := if keepsBytes (arrayOf s c.ref) c.mode then s else zeroArray s c.ref
    ∃ sched, endConversion s c =
      { setArray s1 c.ref (fun a => { a with busy := false, sched := sched }) with
        conversions := s1.conversions.filter fun x => x.acc != c.acc
        accesses := s1.accesses.filter fun x => x.id != c.acc } := ⟨_, rfl⟩

/-- A conversion that has started ends with BUSY clear, in the mode that it entered, with the bytes that R91 keeps. -/
theorem endConversion_array {s : State} {c : Conversion} (hmode : (arrayOf s c.ref).mode = c.mode) :
    let a := arrayOf s c.ref
    let keep := a.fromMode = c.mode ∨ (a.fromMode = .load ∧ c.mode = .run) ∨ (a.fromMode = .run ∧ c.mode = .load)
    let t := endConversion s c
    (arrayOf t c.ref).busy = false ∧ (arrayOf t c.ref).mode = c.mode ∧ (arrayOf t c.ref).owner = a.owner ∧
    (∀ x ∈ t.accesses, x.id ≠ c.acc) ∧ (keep → t.mem = s.mem) ∧
    (¬keep → ∀ x, (memGet t.mem x).getD 0 =
      if arrayPa c.ref ≤ x ∧ x < arrayPa c.ref + 65536 then 0 else (memGet s.mem x).getD 0) := by
  intro a keep t
  have keep_iff : keepsBytes a c.mode = true ↔ keep := keepsBytes_iff a c.mode
  obtain ⟨sched, ht⟩ := endConversion_eq s c
  obtain ⟨s1, hs1⟩ : ∃ s1, s1 = if keepsBytes a c.mode then s else zeroArray s c.ref := ⟨_, rfl⟩
  have array : arrayOf s1 c.ref = a := by
    rw [hs1]
    split <;> rfl
  rw [← hs1] at ht
  change t = _ at ht
  have ended : arrayOf t c.ref = { a with busy := false, sched := sched } := by
    rw [ht, ← array]
    exact arrayOf_setArray s1 c.ref (fun a => { a with busy := false, sched := sched }) (arrayOf_ref s1 c.ref)
  have mem : t.mem = s1.mem := by rw [ht]; rfl
  refine ⟨by rw [ended], by rw [ended]; exact hmode, by rw [ended], fun x hx => ?_, fun h => ?_, fun h x => ?_⟩
  · rw [ht] at hx
    simpa using (List.mem_filter.1 hx).2
  · rw [mem, hs1, if_pos (keep_iff.2 h)]
  · rw [mem, hs1, if_neg (mt keep_iff.1 h)]
    exact zeroArray_byte s c.ref x

/-! ## One record replaced -/

theorem mapFirst_of_mem {α : Type} {p : α → Bool} {f : α → α} {l : List α} (h : ∃ x ∈ l, p x = true) :
    ∃ l1 y l2, l = l1 ++ y :: l2 ∧ p y = true ∧ mapFirst p f l = l1 ++ f y :: l2 := by
  induction l with
  | nil => simp at h
  | cons x t ih =>
    by_cases hx : p x = true
    · exact ⟨[], x, t, rfl, hx, by simp [mapFirst, List.findIdx_cons, hx]⟩
    · obtain ⟨l1, y, l2, ht, hy, hm⟩ := ih (by simpa [hx] using h)
      refine ⟨x :: l1, y, l2, by rw [ht]; rfl, hy, ?_⟩
      simpa [mapFirst, List.findIdx_cons, hx] using hm

section
variable {α : Type} [DecidableEq α] {l : List α} {y z : α}

/-- One record of a list without doubles is replaced by another. -/
theorem mem_mapFirst_replace (hnodup : l.Nodup) (hy : y ∈ l) (x : α) :
    x ∈ mapFirst (· == y) (fun _ => z) l ↔ (x ∈ l ∧ x ≠ y) ∨ x = z := by
  obtain ⟨l1, y', l2, rfl, hy', hm⟩ := mapFirst_of_mem (p := (· == y)) (f := fun _ => z) ⟨y, hy, beq_self_eq_true y⟩
  obtain rfl : y' = y := by simpa using hy'
  obtain ⟨-, -, apart⟩ := List.nodup_append.1 hnodup
  have fresh1 : y' ∉ l1 := fun h => apart y' h y' (List.mem_cons_self ..) rfl
  have fresh2 : y' ∉ l2 := (List.nodup_cons.1 (List.nodup_append.1 hnodup).2.1).1
  rw [hm]
  simp only [List.mem_append, List.mem_cons]
  constructor
  · rintro (h | rfl | h)
    · exact .inl ⟨.inl h, fun e => fresh1 (e ▸ h)⟩
    · exact .inr rfl
    · exact .inl ⟨.inr (.inr h), fun e => fresh2 (e ▸ h)⟩
  · rintro (⟨h | rfl | h, hne⟩ | rfl)
    · exact .inl h
    · exact absurd rfl hne
    · exact .inr (.inr h)
    · exact .inr (.inl rfl)

theorem nodup_mapFirst_replace (hnodup : l.Nodup) (hy : y ∈ l) (hz : z ∉ l) : (mapFirst (· == y) (fun _ => z) l).Nodup := by
  obtain ⟨l1, y', l2, rfl, hy', hm⟩ := mapFirst_of_mem (p := (· == y)) (f := fun _ => z) ⟨y, hy, beq_self_eq_true y⟩
  rw [hm]
  rw [List.mem_append, List.mem_cons] at hz
  rw [List.nodup_middle, List.nodup_cons] at hnodup ⊢
  exact ⟨fun h => hz ((List.mem_append.1 h).imp id .inr), hnodup.2⟩

end

/-! ## Lines of the L2 -/

section
variable {s : State} {l : L2Line}

/-- What the L1 and the L2 hold after one of their lines has been invalidated (R99, R101). -/
theorem l2Invalidate_lines (hnodup : s.l2.Nodup) (hl : l ∈ s.l2) :
    (∀ e, e ∈ (l2Invalidate s l).l1 ↔ e ∈ s.l1 ∧ ¬(e.1.val / 16 = l.die ∧ e.2 = l.line)) ∧
    ∀ x, x ∈ (l2Invalidate s l).l2 ↔ (x ∈ s.l2 ∧ x ≠ l) ∨ (l.pins ≠ [] ∧ x = { l with live := false, dirty := false }) := by
  have drop : (l2Invalidate s l).l1 = (l1Drop s l.die l.line).l1 := by
    unfold l2Invalidate
    dsimp only
    split <;> rfl
  constructor
  · intro e
    rw [drop, l1Drop]
    simp [imp_iff_not_or]
  · intro x
    by_cases hpins : l.pins = []
    · simp [l2Invalidate, hpins, l1Drop]
    · have set : (l2Invalidate s l).l2 = mapFirst (· == l) (fun _ => { l with live := false, dirty := false }) s.l2 := by
        rw [l2Invalidate, if_neg hpins]
        rfl
      rw [set, mem_mapFirst_replace hnodup hl]
      simp [hpins]

theorem l2Invalidate_frame (s : State) (l : L2Line) : { l2Invalidate s l with l1 := s.l1, l2 := s.l2 } = s := by
  unfold l2Invalidate
  dsimp only
  split <;> rfl

/-- A write to memory leaves the caches alone. -/
theorem writeSlot_caches (s : State) (part slot pa : Nat) (bs : List Byte) :
    (writeSlot s part slot pa bs).l1 = s.l1 ∧ (writeSlot s part slot pa bs).l2 = s.l2 := by
  obtain ⟨_, _, _, _, _, _, _, _, e⟩ := WritesMemory.writeSlot s part slot pa bs
  rw [e]
  exact ⟨rfl, rfl⟩

/-- What a write-back does: memory where the line is dirty, and the line is clean (R100, R103). -/
theorem l2WriteBack_effect (hnodup : s.l2.Nodup) (hl : l ∈ s.l2) :
    let t := l2WriteBack s l
    let back := if l.dirty = true then writeSlot s l.part l.key (128 * l.line) l.data else s
    { t with l1 := s.l1, l2 := s.l2 } = { back with l1 := s.l1, l2 := s.l2 } ∧ t.l1 = s.l1 ∧
    ∀ x, x ∈ t.l2 ↔ (x ∈ s.l2 ∧ x ≠ l) ∨ x = { l with dirty := false } := by
  intro t back
  obtain ⟨hl1, hl2⟩ := writeSlot_caches s l.part l.key (128 * l.line) l.data
  by_cases hdirty : l.dirty = true
  · have ht : t = l2Set (writeSlot s l.part l.key (128 * l.line) l.data) l { l with dirty := false } := if_pos hdirty
    have hback : back = writeSlot s l.part l.key (128 * l.line) l.data := if_pos hdirty
    rw [ht, hback]
    refine ⟨rfl, hl1, fun x => ?_⟩
    rw [l2Set, hl2]
    exact mem_mapFirst_replace hnodup hl x
  · have ht : t = s := if_neg hdirty
    have hback : back = s := if_neg hdirty
    have clean : { l with dirty := false } = l := by
      rw [Bool.not_eq_true] at hdirty
      rw [← hdirty]
    rw [ht, hback, clean]
    refine ⟨rfl, rfl, fun x => ⟨fun h => (em (x = l)).elim .inr fun hne => .inl ⟨h, hne⟩, ?_⟩⟩
    rintro (⟨h, -⟩ | rfl)
    · exact h
    · exact hl

/-- The lines of the L2 keep being no doubles as one of them is written back. -/
theorem nodup_l2WriteBack (hnodup : s.l2.Nodup) (hl : l ∈ s.l2) (hone : l.dirty = true → { l with dirty := false } ∉ s.l2) :
    (l2WriteBack s l).l2.Nodup := by
  by_cases hdirty : l.dirty = true
  · rw [l2WriteBack, if_pos hdirty, l2Set]
    dsimp only
    rw [(writeSlot_caches s _ _ _ _).2]
    exact nodup_mapFirst_replace hnodup hl (hone hdirty)
  · rw [l2WriteBack, if_neg hdirty]
    exact hnodup

/-- What a write-back and an invalidation after it do (R99 to R103). -/
theorem l2Flush_effect (hnodup : s.l2.Nodup) (hl : l ∈ s.l2) (hone : l.dirty = true → { l with dirty := false } ∉ s.l2) :
    let t := l2Flush s l
    let back := if l.dirty = true then writeSlot s l.part l.key (128 * l.line) l.data else s
    { t with l1 := s.l1, l2 := s.l2 } = { back with l1 := s.l1, l2 := s.l2 } ∧
    (∀ e, e ∈ t.l1 ↔ e ∈ s.l1 ∧ ¬(e.1.val / 16 = l.die ∧ e.2 = l.line)) ∧
    ∀ x, x ∈ t.l2 ↔ (x ∈ s.l2 ∧ x ≠ l) ∨ (l.pins ≠ [] ∧ x = { l with live := false, dirty := false }) := by
  intro t back
  obtain ⟨frame, sameL1, lines⟩ := l2WriteBack_effect hnodup hl
  have clean_mem : { l with dirty := false } ∈ (l2WriteBack s l).l2 := (lines _).2 (.inr rfl)
  obtain ⟨dropped, left⟩ := l2Invalidate_lines (nodup_l2WriteBack hnodup hl hone) clean_mem
  refine ⟨?_, fun e => sameL1 ▸ dropped e, fun x => (left x).trans ?_⟩
  · rw [← frame]
    exact congrArg (fun u : State => { u with l1 := s.l1, l2 := s.l2 })
      (l2Invalidate_frame (l2WriteBack s l) { l with dirty := false })
  · rw [lines x]
    refine or_congr_left ⟨?_, fun ⟨h, hne⟩ => ⟨.inl ⟨h, hne⟩, fun e => ?_⟩⟩
    · rintro ⟨h | h, hne⟩
      · exact h
      · exact absurd h hne
    · by_cases hdirty : l.dirty = true
      · exact hone hdirty (e ▸ h)
      · rw [Bool.not_eq_true] at hdirty
        exact hne (e.trans (by rw [← hdirty]))

end

end Sys2Proof.Machine
end

section
/-! SUPPORT. Cache operations, AQUERY and FENCE as they are performed (R119, R134, R135, R137, R138, R142). -/

namespace Sys2Proof.Machine

/-! ## One line -/

/-- What a cache operation does to one line that it names. -/
def lineEffect (a : Access) (s : State) (p : Part) : State :=
  if a.kind = .cpref then prefetchLine a s p else treatLine a.kind a s p

/-- What R138 says of the treatment of one line by an operation. -/
def TreatsLine (a : Access) (s : State) (p : Part) (t : State) : Prop :=
  (∀ l, (l2Find s a.die a.part (p.pa / 128) = none ∨ (l2Find s a.die a.part (p.pa / 128) = some l ∧ l.ctx ≠ a.ctx)) →
    a.kind ≠ .cpref → t = s) ∧
  (∀ l, l2Find s a.die a.part (p.pa / 128) = some l → l.ctx = a.ctx → s.l2.Nodup →
    (∀ x ∈ s.l2, x.live = true → x.die = l.die → x.part = l.part → x.line = l.line → x = l) →
    let back := if a.kind ≠ .cpref ∧ l.dirty = true ∧ ¬(a.kind = .cinval ∧ p.n = 128) then writeSlot s l.part l.key (128 * l.line) l.data
      else s
    { t with l1 := s.l1, l2 := s.l2 } = { back with l1 := s.l1, l2 := s.l2 } ∧
    (a.kind = .cclean → t.l1 = s.l1 ∧ ∀ x, x ∈ t.l2 ↔ (x ∈ s.l2 ∧ x ≠ l) ∨ x = { l with dirty := false }) ∧
    (a.kind = .cflush ∨ a.kind = .cinval →
      (∀ e, e ∈ t.l1 ↔ e ∈ s.l1 ∧ ¬(e.1.val / 16 = l.die ∧ e.2 = l.line)) ∧
      ∀ x, x ∈ t.l2 ↔ (x ∈ s.l2 ∧ x ≠ l) ∨ (l.pins ≠ [] ∧ x = { l with live := false, dirty := false }))) ∧
  (a.kind = .cpref →
    (∀ l, l2Find s a.die a.part (p.pa / 128) = some l → t = s) ∧
    (allocatable p.leaf p.pa = false → t = s) ∧
    (l2Find s a.die a.part (p.pa / 128) = none → allocatable p.leaf p.pa = true → t = (l2Get s a.die a.part a.ctx p.leaf p.pa).1))

section
variable {a : Access} {s : State} {p : Part} {l : L2Line} {k : AccKind}

theorem treatLine_of_absent (h : l2Find s a.die a.part (p.pa / 128) = none ∨ (l2Find s a.die a.part (p.pa / 128) = some l ∧ l.ctx ≠ a.ctx)) :
    treatLine k a s p = s := by
  unfold treatLine
  obtain h | ⟨h, hctx⟩ := h
  · rw [h]
  · rw [h]
    exact if_pos (by simpa using hctx)

theorem treatLine_of_present (h : l2Find s a.die a.part (p.pa / 128) = some l) (hctx : l.ctx = a.ctx) :
    treatLine .cclean a s p = l2WriteBack s l ∧ treatLine .cflush a s p = l2Flush s l ∧
    treatLine .cinval a s p = if p.n = 128 then l2Invalidate s l else l2Flush s l := by
  have same : ¬(l.ctx != a.ctx) = true := by simp [hctx]
  refine ⟨?_, ?_, ?_⟩ <;>
  · unfold treatLine
    rw [h]
    exact if_neg same

theorem prefetchLine_of_present (h : l2Find s a.die a.part (p.pa / 128) = some l) : prefetchLine a s p = s := by
  simp [prefetchLine, h]

/-- Where a live line is the only one of its place, its clean form is not among the lines beside it. -/
theorem clean_fresh (hlive : l.live = true)
    (hone : ∀ x ∈ s.l2, x.live = true → x.die = l.die → x.part = l.part → x.line = l.line → x = l) (hdirty : l.dirty = true) :
    { l with dirty := false } ∉ s.l2 := by
  intro h
  have clean : l.dirty = false := congrArg L2Line.dirty (hone _ h hlive rfl rfl rfl).symm
  exact Bool.false_ne_true (clean.symm.trans hdirty)

theorem treatsLine_prefetchLine (hk : a.kind = .cpref) : TreatsLine a s p (prefetchLine a s p) := by
  refine ⟨fun l _ hne => absurd hk hne, fun l h _ _ _ => ?_, fun _ => ⟨fun l h => prefetchLine_of_present h, fun h => ?_, fun h ha => ?_⟩⟩
  · refine ⟨?_, fun h => ?_, fun h => ?_⟩
    · rw [if_neg fun h => h.1 hk, prefetchLine_of_present h]
    · simp [hk] at h
    · simp [hk] at h
  · simp [prefetchLine, h]
  · simp [prefetchLine, h, ha]

theorem treatsLine_treatLine (hk : a.kind = .cclean ∨ a.kind = .cinval ∨ a.kind = .cflush) :
    TreatsLine a s p (treatLine a.kind a s p) := by
  have notPref : a.kind ≠ .cpref := by
    obtain h | h | h := hk <;> simp [h]
  refine ⟨fun l h _ => treatLine_of_absent h, fun l h hctx hnodup hone => ?_, fun h => absurd h notPref⟩
  have hl : l ∈ s.l2 := List.mem_of_find?_eq_some h
  have hlive : l.live = true := by
    have := List.find?_some h
    simp only [Bool.and_eq_true] at this
    exact this.2
  obtain ⟨clean, flush, inval⟩ := treatLine_of_present h hctx
  have flushed := l2Flush_effect hnodup hl (clean_fresh hlive hone)
  obtain hk | hk | hk := hk
  · obtain ⟨frame, l1, l2⟩ := l2WriteBack_effect hnodup hl
    rw [hk, clean]
    refine ⟨?_, fun _ => ⟨l1, l2⟩, fun h => by simp at h⟩
    simpa using frame
  · rw [hk, inval]
    by_cases hn : p.n = 128
    · rw [if_pos hn]
      refine ⟨?_, fun h => by simp at h, fun _ => l2Invalidate_lines hnodup hl⟩
      rw [if_neg fun h => h.2.2 ⟨rfl, hn⟩]
      exact l2Invalidate_frame s l
    · rw [if_neg hn]
      refine ⟨?_, fun h => by simp at h, fun _ => flushed.2⟩
      simpa [hn] using flushed.1
  · rw [hk, flush]
    refine ⟨?_, fun h => by simp at h, fun _ => flushed.2⟩
    simpa using flushed.1

/-- A cache operation (R136). -/
def Access.CacheOp (a : Access) : Prop := a.kind = .cclean ∨ a.kind = .cinval ∨ a.kind = .cflush ∨ a.kind = .cpref

theorem treatsLine_lineEffect (hk : a.CacheOp) : TreatsLine a s p (lineEffect a s p) := by
  unfold lineEffect
  split
  · next h => exact treatsLine_prefetchLine h
  · next h =>
    obtain hk | hk | hk | hk := hk
    · exact treatsLine_treatLine (.inl hk)
    · exact treatsLine_treatLine (.inr (.inl hk))
    · exact treatsLine_treatLine (.inr (.inr hk))
    · exact absurd hk h

theorem lineEffect_accesses : (lineEffect a s p).accesses = s.accesses := by
  unfold lineEffect
  split
  · exact (ThroughCaches.prefetchLine a s p).accesses
  · exact (ThroughCaches.treatLine _ a s p).accesses

end

/-! ## One operation -/

/-- An operation that ends is no longer outstanding. -/
def goneFrom (w : State) (id : Nat) : State := { w with accesses := w.accesses.filter fun x => x.id != id }

section
variable {a : Access} {s : State} {p : Part}

theorem releaseEffect_of_rlx (h : a.ord = 0) : releaseEffect s a = s := by simp [releaseEffect, h, isRel]

theorem acquireEffect_of_rlx (h : a.ord = 0) : acquireEffect s a = s := by simp [acquireEffect, h, isAcq]

theorem completeAccess_of_cacheOp (hk : a.CacheOp) (hord : a.ord = 0) (v : Nat) : completeAccess s a v = goneFrom s a.id := by
  have quiet : accessReturn s a v = s := by
    obtain hk | hk | hk | hk := hk <;> rw [accessReturn, hk]
  unfold completeAccess
  rw [acquireEffect_of_rlx hord, quiet]
  rfl

theorem accessEffect_of_cacheOp (hk : a.CacheOp) (hparts : a.parts = [p]) : (accessEffect s a).1 = lineEffect a s p := by
  obtain hk | hk | hk | hk := hk <;> simp [accessEffect, lineEffect, hk, hparts]

theorem performWhole_of_cacheOp (hk : a.CacheOp) (hord : a.ord = 0) (hparts : a.parts = [p]) :
    performWhole s a = goneFrom (lineEffect a s p) a.id := by
  rw [performWhole, releaseEffect_of_rlx hord, completeAccess_of_cacheOp hk hord, accessEffect_of_cacheOp hk hparts]

/-- A line of a cache operation is treated as the operation does, whatever the piece says of its place and data. -/
theorem accessEffect_piece (hk : a.CacheOp) (n : Nat) (data : BitVec 256) :
    (accessEffect s { a with parts := [p], n := n, data := data }).1 = lineEffect a s p := by
  obtain hk | hk | hk | hk := hk <;> simp only [accessEffect, lineEffect, hk] <;> rfl

theorem performPiece_of_cacheOp (hk : a.CacheOp) (hord : a.ord = 0) :
    performPiece s a p =
      if a.left.erase p = [] then goneFrom (lineEffect a s p) a.id
      else { lineEffect a s p with
              accesses := mapIf (fun e => e.id == a.id) (fun e => { e with left := a.left.erase p, data := a.data }) s.accesses } := by
  have start : (if a.left == piecesOf a.kind a.n a.va a.parts then releaseEffect s a else s) = s := by
    rw [releaseEffect_of_rlx hord, ite_self]
  unfold performPiece
  simp only [start, accessEffect_piece hk, lineEffect_accesses]
  by_cases hrest : a.left.erase p = []
  · rw [if_pos (beq_iff_eq.2 hrest), if_pos hrest]
    exact completeAccess_of_cacheOp (a := { a with data := _ }) hk hord _
  · rw [if_neg (mt beq_iff_eq.1 hrest), if_neg hrest]
    obtain hk | hk | hk | hk := hk <;> simp only [hk]

/-! ## Which piece is performed -/

theorem pieceReady_of_canPerform (hcan : canPerform s a = true) (hleft : a.left ≠ []) : ∃ p ∈ a.left, pieceReady s a p = true := by
  simp only [canPerform, Bool.and_eq_true, Bool.or_eq_true, beq_iff_eq, hleft, false_or, List.any_eq_true] at hcan
  exact hcan.2

/-- Of several pieces, or of the last of several, one that may be performed is (R61). -/
theorem perform_one (hcan : canPerform s a = true) (hleft : a.left ≠ [])
    (hpart : 2 ≤ a.left.length ∨ a.left ≠ piecesOf a.kind a.n a.va a.parts) :
    ∃ p ∈ a.left, pieceReady s a p = true ∧ perform s a = performPiece { s with freeCtr := s.freeCtr + 1 } a p := by
  obtain ⟨p, hp, hready⟩ := pieceReady_of_canPerform hcan hleft
  have some_ready : 0 < (a.left.filter (pieceReady s a)).length := List.length_pos_of_mem (List.mem_filter.2 ⟨hp, hready⟩)
  have pick := Nat.mod_lt (Config.freeIndex s.freeCtr) some_ready
  obtain ⟨hq, hqready⟩ := List.mem_filter.1 (List.getElem_mem pick)
  refine ⟨_, hq, hqready, ?_⟩
  have not_whole : ¬(decide (a.left.length ≤ 1) && a.left == piecesOf a.kind a.n a.va a.parts) = true := by
    rw [Bool.and_eq_true, decide_eq_true_eq, beq_iff_eq]
    exact fun ⟨few, whole⟩ => hpart.elim (fun many => by omega) (fun part => part whole)
  unfold perform
  rw [if_neg not_whole]
  dsimp only
  rw [List.getElem?_eq_getElem pick]

theorem exec_accessPerformed (hfind : s.accesses.find? (fun x => x.id == a.id) = some a) (hringed : a.ringed = false) (helem : a.elem = none)
    (hcan : canPerform s a = true) : exec (.accessPerformed a.id) s = .next (perform s a) := by
  show execAccessPerformed a.id s = _
  unfold execAccessPerformed
  rw [hfind]
  exact if_pos (by simp [hringed, helem, hcan])

/-- A range within one line is one piece (R137). -/
theorem piecesOf_one_line (hk : a.CacheOp) (hparts : a.parts = [p]) (hdram : isDram p.pa = true) (hn : 0 < p.n)
    (hfit : p.pa % 128 + p.n ≤ 128) : piecesOf a.kind a.n a.va a.parts = [p] := by
  have one : chunks 128 (p.n / 128 + 2) p.pa p.n = [(p.pa, p.n)] := chunks_one _ hn hfit
  obtain hk | hk | hk | hk := hk <;> simp [piecesOf, AccKind.isMaint, hk, hparts, hdram, one]

/-- One of several pieces is performed, and the operation stands with the others (R137). -/
theorem mapIf_id_eq {rest : List Part} (hone : ∀ x ∈ s.accesses, x.id = a.id → x = a) :
    mapIf (fun e => e.id == a.id) (fun e => { e with left := rest, data := a.data }) s.accesses =
      s.accesses.map fun x => if x = a then { a with left := rest } else x := by
  refine List.map_congr_left fun x hx => ?_
  by_cases h : x.id = a.id
  · obtain rfl := hone x hx h
    simp
  · rw [if_neg (by simpa using h), if_neg fun e => h (congrArg Access.id e)]

theorem performWhole_of_aquery {r : ArrayRef} (hk : a.kind = .aquery) (hord : a.ord = 0) (hparts : a.parts = [p]) (hr : region p.pa = .array r) :
    performWhole s a = goneFrom (s.updSeq a.q fun c => c.setReg (BitVec.ofNat 6 a.dest) (arrayWord s r)) a.id := by
  have word : accessEffect s a = (s, (arrayWord s r).toNat) := by simp [accessEffect, hk, hparts, hr]
  rw [performWhole, releaseEffect_of_rlx hord, word, completeAccess, acquireEffect_of_rlx hord, accessReturn, hk]
  simp only [BitVec.ofNat_toNat, BitVec.setWidth_eq]
  rfl

/-- A FENCE does what its order and scope ask of the L2 (R135). -/
theorem performWhole_of_fence (hk : a.kind = .fence) :
    let wide := a.ord = 4 ∨ a.scope = 3 ∨ a.scope = 4
    let w := if (a.ord = 2 ∨ a.ord = 3 ∨ a.ord = 4) ∧ wide then releaseWriteBack s a.die a.ctx else s
    performWhole s a =
      goneFrom (if (a.ord = 1 ∨ a.ord = 3 ∨ a.ord = 4) ∧ wide then acquireInvalidate w a.die a.ctx else w) a.id := by
  intro wide w
  have wide_iff : (wideScope a.scope || isSc a.ord) = true ↔ wide := by
    simp only [wideScope, isSc, Bool.or_eq_true, beq_iff_eq, wide]
    tauto
  have release : releaseEffect s a = w := by
    refine if_congr ?_ rfl rfl
    rw [Bool.and_eq_true, wide_iff]
    simp only [isRel, Bool.or_eq_true, beq_iff_eq, or_assoc]
  have acquire : acquireEffect w a = if (a.ord = 1 ∨ a.ord = 3 ∨ a.ord = 4) ∧ wide then acquireInvalidate w a.die a.ctx else w := by
    refine if_congr ?_ rfl rfl
    rw [Bool.and_eq_true, wide_iff]
    simp only [isAcq, Bool.or_eq_true, beq_iff_eq, or_assoc]
  have nothing : accessEffect w a = (w, 0) := by simp [accessEffect, hk]
  rw [performWhole, release, nothing, completeAccess, acquire, accessReturn, hk]
  rfl

end

end Sys2Proof.Machine
end

section
/-! SUPPORT. Operations that a sequencer issues behind translations of its own (R60, R63, R120, R137, R140 to R142). -/

namespace Sys2Proof.Machine

/-! ## What a translation leaves alone -/

theorem onlyLookedUp_iff {s t : State} :
    onlyLookedUp s t ↔ ∃ es kept k fs, t = { s with tlb := es, latched := kept, tick := k, walkFaults := fs } := by
  constructor
  · intro h
    refine ⟨t.tlb, t.latched, t.tick, t.walkFaults, ?_⟩
    exact congrArg (fun u : State => { u with tlb := t.tlb, latched := t.latched, tick := t.tick, walkFaults := t.walkFaults }) h
  · rintro ⟨_, _, _, _, rfl⟩
    rfl

theorem onlyLookedUp_refl (s : State) : onlyLookedUp s s := rfl

theorem onlyLookedUp_trans {s t u : State} (h : onlyLookedUp s t) (k : onlyLookedUp t u) : onlyLookedUp s u := by
  obtain ⟨_, _, _, _, rfl⟩ := onlyLookedUp_iff.1 h
  obtain ⟨_, _, _, _, rfl⟩ := onlyLookedUp_iff.1 k
  rfl

theorem cpu_of_onlyLookedUp {s t : State} (h : onlyLookedUp s t) : t.cpu = s.cpu := by
  obtain ⟨_, _, _, _, rfl⟩ := onlyLookedUp_iff.1 h
  rfl

/-- A page that misses makes its access wait. -/
theorem lookupPieces_miss {s : State} {h : Holder} {ctx : BitVec 12} {w a : Bool} {reach : Reach} {l : List (Nat × Nat)} {t : Trans}
    {m : Nat} (e : lookupPieces s h ctx w a reach l = (t, some m)) : t = .wait := by
  induction l generalizing t m with
  | nil => cases e
  | cons p rest ih =>
    unfold lookupPieces at e
    split at e
    · cases e
    · cases e; rfl
    · split at e
      · cases e
      · cases e
      · split at e
        · next ok =>
          cases e
          cases ih ok
        · exact ih e

theorem isOverflowArray_of_looked {s s1 : State} {r : ArrayRef} (looked : onlyLookedUp s s1) (part : Nat) : isOverflowArray s1 part r = isOverflowArray s part r := by
  obtain ⟨_, _, _, _, rfl⟩ := onlyLookedUp_iff.1 looked
  rfl

/-- A translation that does not wait has asked for no walk. -/
theorem translateWith_answered (s : State) (h : Holder) (ctx : BitVec 12) (part die va n : Nat) (w a soft : Bool) (reach : Reach)
    (answered : (translateWith s h ctx part die va n w a soft reach).2 ≠ .wait) :
    onlyLookedUp s (translateWith s h ctx part die va n w a soft reach).1 := by
  revert answered
  unfold translateWith
  extract_lets pieces mine s0
  have h0 : onlyLookedUp s s0 := by
    unfold s0
    split <;> rfl
  clear_value s0
  refine fun answered => onlyLookedUp_trans h0 ?_
  revert answered
  split
  · exact fun _ => onlyLookedUp_iff.2 ⟨_, _, _, _, rfl⟩
  · split
    · split
      · split
        · exact fun _ => onlyLookedUp_iff.2 ⟨_, _, _, _, rfl⟩
        · exact fun answered => absurd rfl answered
      · exact fun answered => absurd rfl answered
    · split
      · obtain ⟨es, kept, k, e⟩ := touchEntries_eq s0 h ctx ‹_›
        exact fun _ => onlyLookedUp_iff.2 ⟨es, kept, k, s0.walkFaults, e⟩
      · exact fun _ => onlyLookedUp_iff.2 ⟨_, _, _, _, rfl⟩
      · exact fun _ => onlyLookedUp_refl _
      · next miss =>
        split
        · exact fun answered => absurd (lookupPieces_miss miss) answered
        · exact fun answered => absurd (lookupPieces_miss miss) answered

theorem translateByte_answered {s s1 : State} {u : UnitRec} {va : Nat} {x : Trans} (h : translateByte s u va = (s1, x)) (hx : x ≠ .wait) :
    onlyLookedUp s s1 := by
  have answered := translateWith_answered s (.seq s.cur) u.ctx u.part (dieOfSeq s.cur) va 1 false false false anyReach
  rw [show translateWith s (.seq s.cur) u.ctx u.part (dieOfSeq s.cur) va 1 false false false anyReach = (s1, x) from h] at answered
  exact answered hx

/-- Nor has the translation of a range that has all its pages (R137). -/
theorem rangeWalk_answered (u : UnitRec) (soft : Bool) (last fuel : Nat) (s : State) (got : List Part) (va : Nat) {ps : List Part}
    (hok : (rangeWalk u soft last fuel s got va).2.1 = .ok ps) : onlyLookedUp s (rangeWalk u soft last fuel s got va).1 := by
  induction fuel generalizing s got va with
  | zero => exact onlyLookedUp_refl s
  | succ fuel ih =>
    revert hok
    unfold rangeWalk
    split
    · exact fun _ => onlyLookedUp_refl s
    · dsimp only
      have one := translateWith_answered s (.seq s.cur) u.ctx u.part (dieOfSeq s.cur) va (min (last - va) (65536 - va % 65536)) false false
        soft anyReach
      split
      · next e =>
        rw [e] at one
        exact fun hok => onlyLookedUp_trans (one (by simp)) (ih _ _ _ hok)
      · exact fun hok => by cases hok
      · next e =>
        rw [e] at one
        split
        · exact fun hok => onlyLookedUp_trans (one (by simp)) (ih _ _ _ hok)
        · exact fun hok => by cases hok

/-! ## Becoming outstanding -/

/-- The operation of an instruction whose pages have been translated becomes outstanding (R120). -/
theorem outstanding_issue {s s1 : State} (looked : onlyLookedUp s s1) (x : Access) (g : Seq → Seq) :
    outstanding s ((issue s1 x).updCpu g) [{ x with id := s.nextAcc }] ∧ ((issue s1 x).updCpu g).cpu = g s.cpu := by
  obtain ⟨_, _, _, _, rfl⟩ := onlyLookedUp_iff.1 looked
  exact ⟨⟨rfl, rfl, rfl, fun q hq => (onlyCpu_updCpu _ _).2 q hq⟩, State.cpu_updCpu _ _⟩

theorem newAccess_isOf {s s1 : State} (looked : onlyLookedUp s s1) (u : UnitRec) (k : AccKind) (dest n va : Nat) (ps : List Part) (id : Nat) :
    Access.isOf { newAccess s1 u k dest n va ps 0 0 rlxGraph with id := id } s u k dest n va ps 0 { ord := 0, scope := 1 } := by
  obtain ⟨_, _, _, _, rfl⟩ := onlyLookedUp_iff.1 looked
  exact ⟨rfl, rfl, rfl, rfl, rfl, rfl, rfl, rfl, rfl, rfl, rfl, rfl, rfl⟩

section
variable {s : State} {u : UnitRec} (hrun : s.cpu.run = some u)
include hrun

theorem fence_outstanding (os : OrdScope) : runsTo (.fence os) s fun t =>
    (∃ x, outstanding s t [x] ∧ x.q = s.cur ∧ x.kind = .fence ∧ x.ord = os.ord ∧ x.scope = os.scope) ∧
    t.cpu = { s.cpu with pc := s.cpu.pc + 4, ahead := [] } := by
  obtain ⟨stands, cpu⟩ := outstanding_issue (onlyLookedUp_refl s) { newAccess s u .fence 0 0 0 [] 0 0 os with counted := false }
    fun c => { c.next with ahead := [] }
  exact ⟨_, withUnit_of_run hrun, ⟨_, stands, rfl, rfl, rfl, rfl⟩, cpu⟩

/-! ## Cache operations -/

section
variable {i : Instr} {k : AccKind} {a b : Reg} (hi : exec i s = maintain k a b s)
include hi

theorem maintain_of_empty (hlen : (s.cpu.reg b).toNat = 0) :
    runsTo i s fun t => onlyCpu s t ∧ t.cpu = { s.cpu with pc := s.cpu.pc + 4 } := by
  refine ⟨s.updCpu Seq.next, hi.trans ((withUnit_of_run hrun).trans ?_), onlyCpu_updCpu _ _, State.cpu_updCpu _ _⟩
  rw [if_pos hlen]

theorem maintain_of_full (hlen : 0 < (s.cpu.reg b).toNat)
    (hfull : 63 ≤ if k.isLoad then loadCount s s.cur else storeCount s s.cur) : exec i s = .next s := by
  refine hi.trans ((withUnit_of_run hrun).trans ?_)
  rw [if_neg (by omega), if_pos hfull]

theorem maintain_outstanding (hlen : 0 < (s.cpu.reg b).toNat)
    (hroom : (if k.isLoad then loadCount s s.cur else storeCount s s.cur) < 63) {ps : List Part} :
    let va := (s.cpu.reg a).toNat
    let len := (s.cpu.reg b).toNat
    let start := match s.cpu.wait with
      | .range got next => (got, next)
      | _ => ([], va)
    (rangeWalk u (k == .cpref) (va + len) (len / 65536 + 2) s start.1 start.2).2.1 = .ok ps →
    runsTo i s fun t => t.cpu = { s.cpu with pc := s.cpu.pc + 4, wait := .none } ∧
      ∃ x, outstanding s t [x] ∧ x.isOf s u k 0 0 va ps 0 { ord := 0, scope := 1 } := by
  intro va len start hok
  have looked := rangeWalk_answered _ _ _ _ _ _ _ hok
  obtain ⟨s1, x, got, next, hwalk⟩ : ∃ s1 x got next,
      rangeWalk u (k == .cpref) (va + len) (len / 65536 + 2) s start.1 start.2 = (s1, x, got, next) := ⟨_, _, _, _, rfl⟩
  rw [hwalk] at hok looked
  obtain rfl : x = .ok ps := hok
  obtain ⟨stands, cpu⟩ := outstanding_issue looked (newAccess s1 u k 0 0 va ps 0 0 rlxGraph) fun c => { c.next with wait := .none }
  refine ⟨_, hi.trans ((withUnit_of_run hrun).trans ?_), cpu, _, stands, newAccess_isOf looked u k 0 0 va ps s.nextAcc⟩
  rw [if_neg (by omega), if_neg (by omega)]
  simp only
  erw [hwalk]

end

/-! ## ACONV and AQUERY -/

section
variable {s1 : State} {p : Part} {r : ArrayRef}

theorem aquery_of_full (d a : Reg) (hfull : 63 ≤ loadCount s s.cur) : exec (.aquery d a) s = .next s := by
  refine (withUnit_of_run hrun).trans ?_
  rw [if_pos hfull]

theorem aconv_of_full (a : Reg) (m : BitVec 3) (hfull : 63 ≤ storeCount s s.cur) : exec (.aconv a m) s = .next s := by
  refine (withUnit_of_run hrun).trans ?_
  rw [if_pos hfull]

theorem aquery_outstanding (d a : Reg) (hroom : loadCount s s.cur < 63)
    (htr : translateByte s u (s.cpu.reg a).toNat = (s1, .ok [p])) (hin : inArrays p.pa = true) :
    runsTo (.aquery d a) s fun t => ∃ x, queues s t [x] 4 ∧
      x.isOf s u .aquery d.toNat 0 (s.cpu.reg a).toNat [p] 0 { ord := 0, scope := 1 } := by
  have looked := translateByte_answered htr (by simp)
  obtain ⟨stands, cpu⟩ := outstanding_issue looked (newAccess s1 u .aquery d.toNat 0 (s.cpu.reg a).toNat [p] 0 0 rlxGraph) Seq.next
  refine ⟨_, (withUnit_of_run hrun).trans ?_, _, ⟨stands, cpu⟩, newAccess_isOf looked u _ _ _ _ _ s.nextAcc⟩
  rw [if_neg (by omega)]
  simp [htr, hin]

theorem aquery_outside (d a : Reg) (hroom : loadCount s s.cur < 63)
    (htr : translateByte s u (s.cpu.reg a).toNat = (s1, .ok [p])) (hin : inArrays p.pa = false) :
    exec (.aquery d a) s = .next (trapFault s1
      { cause := 0xF2, addr := (s.cpu.reg a).toNat, level := levelOf p.leaf.lg, write := false, atomic := false, key := 0 }) := by
  refine (withUnit_of_run hrun).trans ?_
  rw [if_neg (by omega)]
  simp [htr, hin]

/-- The fault that ACONV finds at the page of its array (R141, R201). -/
def aconvFault (va cause : Nat) (p : Part) : FaultInfo :=
  { cause := cause, addr := va, level := levelOf p.leaf.lg, write := true, atomic := false, key := 0 }

theorem aconv_outside (a : Reg) (m : BitVec 3) (hroom : storeCount s s.cur < 63)
    (htr : translateByte s u (s.cpu.reg a).toNat = (s1, .ok [p])) (hout : ∀ r, region p.pa ≠ .array r) :
    exec (.aconv a m) s = .next (trapFault s1 (aconvFault (s.cpu.reg a).toNat 0xF2 p)) := by
  refine (withUnit_of_run hrun).trans ?_
  rw [if_neg (by omega)]
  dsimp only
  rw [htr]
  dsimp only
  split
  · next r h => exact absurd h (hout r)
  · rfl

theorem aconv_read_only (a : Reg) (m : BitVec 3) (hroom : storeCount s s.cur < 63)
    (htr : translateByte s u (s.cpu.reg a).toNat = (s1, .ok [p])) (hr : region p.pa = .array r) (hw : p.leaf.w = false) :
    exec (.aconv a m) s = .next (trapFault s1 (aconvFault (s.cpu.reg a).toNat 0x02 p)) := by
  refine (withUnit_of_run hrun).trans ?_
  rw [if_neg (by omega)]
  simp only [htr, hr, hw]
  rfl

theorem aconv_overflow (a : Reg) (m : BitVec 3) (hroom : storeCount s s.cur < 63)
    (htr : translateByte s u (s.cpu.reg a).toNat = (s1, .ok [p])) (hr : region p.pa = .array r) (hw : p.leaf.w = true)
    (hover : isOverflowArray s u.part r = true) :
    exec (.aconv a m) s = .next (trapFault s1 (aconvFault (s.cpu.reg a).toNat 0xF4 p)) := by
  have looked := translateByte_answered htr (by simp)
  refine (withUnit_of_run hrun).trans ?_
  rw [if_neg (by omega)]
  simp only [htr, hr, hw, isOverflowArray_of_looked looked, hover]
  rfl

end

end

/-! ## A conversion taken up -/

/-- A conversion that is started, or that waits for its turn, leaves the sequencers and what is outstanding alone, and it stands. -/
theorem tryStart_keeps (s : State) (c : Conversion) (hc : c ∈ s.conversions) :
    (tryStart s c).seqs = s.seqs ∧ (tryStart s c).cur = s.cur ∧ (tryStart s c).accesses = s.accesses ∧
    ∃ x ∈ (tryStart s c).conversions, x.ref = c.ref ∧ x.mode = c.mode ∧ x.acc = c.acc := by
  have waits : ∃ x ∈ s.conversions, x.ref = c.ref ∧ x.mode = c.mode ∧ x.acc = c.acc := ⟨c, hc, rfl, rfl, rfl⟩
  unfold tryStart
  split
  · split
    · obtain ⟨s1, hs1⟩ : ∃ s1, s1 = if leavingCache s c.ref && c.mode != .cache then l2Each s (fun l => l.array == c.ref) l2Flush else s :=
        ⟨_, rfl⟩
      have flushed : ThroughCaches s s1 := by
        rw [hs1]
        split
        · exact ThroughCaches.l2Each s _ ThroughCaches.l2Flush
        · exact ThroughCaches.refl s
      have started : startConversion s c =
          { setArray s1 c.ref (fun a => { a with busy := true, fromMode := a.mode, mode := c.mode }) with
            conversions := mapIf (· == c) (fun c => { c with started := true }) s1.conversions } := by
        rw [hs1]
        rfl
      rw [started]
      refine ⟨flushed.seqs, flushed.cur, flushed.accesses, { c with started := true }, ?_, rfl, rfl, rfl⟩
      exact List.mem_map.2 ⟨c, flushed.conversions ▸ hc, by simp⟩
    · exact ⟨rfl, rfl, rfl, waits⟩
  · exact ⟨rfl, rfl, rfl, waits⟩

theorem aconv_outstanding {s s1 : State} {u : UnitRec} {p : Part} {r : ArrayRef} (hrun : s.cpu.run = some u) (a : Reg) (m : BitVec 3)
    (hroom : storeCount s s.cur < 63) (htr : translateByte s u (s.cpu.reg a).toNat = (s1, .ok [p])) (hr : region p.pa = .array r)
    (hw : p.leaf.w = true) (hover : isOverflowArray s u.part r = false) :
    runsTo (.aconv a m) s fun t => t.cpu = { s.cpu with pc := s.cpu.pc + 4 } ∧
      (∃ x ∈ t.accesses, x.id = s.nextAcc ∧ x.kind = .aconv ∧ x.dest = m.toNat ∧ x.parts = [p]) ∧
      ∃ c ∈ t.conversions, c.ref = r ∧ c.mode = modeOfCode m.toNat ∧ c.acc = s.nextAcc := by
  have looked := translateByte_answered htr (by simp)
  have next : s1.nextAcc = s.nextAcc := by
    obtain ⟨_, _, _, _, rfl⟩ := onlyLookedUp_iff.1 looked
    rfl
  obtain ⟨c, hc⟩ : ∃ c : Conversion, c = { ref := r, mode := modeOfCode m.toNat, acc := s1.nextAcc, started := false } := ⟨_, rfl⟩
  obtain ⟨x, hx⟩ : ∃ x, x = newAccess s1 u .aconv m.toNat 0 (s.cpu.reg a).toNat [p] 0 0 rlxGraph := ⟨_, rfl⟩
  obtain ⟨s2, hs2⟩ : ∃ s2, s2 = { issue s1 x with conversions := (issue s1 x).conversions ++ [c] } := ⟨_, rfl⟩
  have stands : c ∈ s2.conversions := by
    rw [hs2]
    exact List.mem_append_right _ (List.mem_singleton.2 rfl)
  have issued : { x with id := s1.nextAcc } ∈ s2.accesses := by
    rw [hs2]
    exact List.mem_append_right _ (List.mem_singleton.2 rfl)
  have cpu2 : s2.cpu = s.cpu := by
    rw [hs2]
    exact (rfl : _ = s1.cpu).trans (cpu_of_onlyLookedUp looked)
  obtain ⟨seqs, cur, accesses, y, hy, href, hmode, hacc⟩ := tryStart_keeps s2 c stands
  refine ⟨(tryStart s2 c).updCpu Seq.next, (withUnit_of_run hrun).trans ?_, ?_, ⟨_, accesses ▸ issued, next, ?_⟩, y, hy, ?_⟩
  · rw [if_neg (by omega), hs2, hx, hc]
    simp only [htr, hr, hw, isOverflowArray_of_looked looked, hover]
    rfl
  · rw [State.cpu_updCpu, cpu_eq_of_seqs seqs cur, cpu2]
    rfl
  · rw [hx]
    exact ⟨rfl, rfl, rfl⟩
  · rw [href, hmode, hacc, hc]
    exact ⟨rfl, rfl, next⟩

end Sys2Proof.Machine
end

section
/-! SUPPORT. Fences, cache operations and conversions put together. -/

namespace Sys2Proof.Machine

theorem inArrays_of_region {pa : Nat} {r : ArrayRef} (h : region pa = .array r) : inArrays pa = true := by
  unfold region at h
  by_contra hout
  split_ifs at h

/-- The trap of a fault found behind a translation (R123). -/
theorem trapFault_entersHandler {s s1 : State} (looked : onlyLookedUp s s1) (ready : handlerReady s) {f : FaultInfo}
    (hkey : f.key = 0) (hatomic : f.atomic = false) :
    entersHandler s1 (trapFault s1 f) f.code 0 s.cpu.pc 0 (some (BitVec.ofNat 64 f.addr,
      BitVec.ofNat 64 ((if f.write then 1024 else 0) + f.level * 256 + f.cause))) := by
  have word : f.word = BitVec.ofNat 64 ((if f.write then 1024 else 0) + f.level * 256 + f.cause) := by
    simp [FaultInfo.word, hkey, hatomic]
  exact word ▸ trapHere_entersHandler_of_cpu (cpu_of_onlyLookedUp looked) ready f.code _

section
variable {s s1 : State} {u : UnitRec} (hrun : s.cpu.run = some u)
include hrun

/-- What ACONV and AQUERY do at an address whose page translates (R141, R142, R201). -/
theorem arrayWords_of_translated (a d : Reg) (m : BitVec 3) {p : Part} (htr : translateByte s u (s.cpu.reg a).toNat = (s1, .ok [p])) :
    let va := (s.cpu.reg a).toNat
    let amode := fun (i : Instr) (code cause : Nat) (w : Bool) =>
      runsTo i s fun t => entersHandler s1 t code 0 s.cpu.pc 0 (some (BitVec.ofNat 64 va,
        BitVec.ofNat 64 ((if w then 1024 else 0) + (if p.leaf.lg = 30 then 1 else if p.leaf.lg = 21 then 2 else 3) * 256 + cause)))
    (∀ r, region p.pa = .array r →
      (loadCount s s.cur < 63 → runsTo (.aquery d a) s fun t => ∃ x, queues s t [x] 4 ∧
        x.isOf s u .aquery d.toNat 0 va [p] 0 { ord := 0, scope := 1 }) ∧
      (storeCount s s.cur < 63 → p.leaf.w = true → isOverflowArray s u.part r = false →
        runsTo (.aconv a m) s fun t => t.cpu = { s.cpu with pc := s.cpu.pc + 4 } ∧
          (∃ x ∈ t.accesses, x.id = s.nextAcc ∧ x.kind = .aconv ∧ x.dest = m.toNat ∧ x.parts = [p]) ∧
          ∃ c ∈ t.conversions, c.ref = r ∧ c.mode = modeOfCode m.toNat ∧ c.acc = s.nextAcc) ∧
      (storeCount s s.cur < 63 → handlerReady s →
        (p.leaf.w = false → amode (.aconv a m) 0x02 0x02 true) ∧
        (p.leaf.w = true → isOverflowArray s u.part r = true → amode (.aconv a m) 0x04 0xF4 true))) ∧
    (inArrays p.pa = false → handlerReady s →
      (loadCount s s.cur < 63 → amode (.aquery d a) 0x04 0xF2 false) ∧
      (storeCount s s.cur < 63 → amode (.aconv a m) 0x04 0xF2 true)) := by
  intro va amode
  have looked := translateByte_answered htr (by simp)
  refine ⟨fun r hr => ⟨fun room => ?_, fun room hw hover => ?_, fun room ready => ⟨fun hw => ?_, fun hw hover => ?_⟩⟩,
    fun hout ready => ⟨fun room => ?_, fun room => ?_⟩⟩
  · exact aquery_outstanding hrun d a room htr (inArrays_of_region hr)
  · exact aconv_outstanding hrun a m room htr hr hw hover
  · exact ⟨_, aconv_read_only hrun a m room htr hr hw, trapFault_entersHandler looked ready rfl rfl⟩
  · exact ⟨_, aconv_overflow hrun a m room htr hr hw hover, trapFault_entersHandler looked ready rfl rfl⟩
  · exact ⟨_, aquery_outside hrun d a room htr hout, trapFault_entersHandler looked ready rfl rfl⟩
  · refine ⟨_, aconv_outside hrun a m room htr fun r hr => ?_, trapFault_entersHandler looked ready rfl rfl⟩
    exact Bool.false_ne_true (hout.symm.trans (inArrays_of_region hr))

end

section
variable {s : State} {a : Access} (hfind : s.accesses.find? (fun x => x.id == a.id) = some a) (hringed : a.ringed = false)
  (helem : a.elem = none) (hcan : canPerform s a = true)
include hfind hringed helem hcan

theorem cacheOp_performs_one_line {p : Part} (hord : a.ord = 0) (hk : a.CacheOp) (hparts : a.parts = [p]) (hleft : a.left = [p])
    (hdram : isDram p.pa = true) (hn : 0 < p.n) (hfit : p.pa % 128 + p.n ≤ 128) :
    ∃ t, TreatsLine a s p t ∧ exec (.accessPerformed a.id) s = .next (goneFrom t a.id) := by
  refine ⟨_, treatsLine_lineEffect hk, (exec_accessPerformed hfind hringed helem hcan).trans ?_⟩
  rw [perform_of_whole (by simp [hleft]) (hleft.trans (piecesOf_one_line hk hparts hdram hn hfit).symm),
    performWhole_of_cacheOp hk hord hparts]

theorem cacheOp_performs_last_line {p : Part} (hord : a.ord = 0) (hk : a.CacheOp) (hleft : a.left = [p])
    (hpart : a.left ≠ piecesOf a.kind a.n a.va a.parts) :
    ∃ t, TreatsLine a { s with freeCtr := s.freeCtr + 1 } p t ∧ exec (.accessPerformed a.id) s = .next (goneFrom t a.id) := by
  obtain ⟨q, hq, -, hperform⟩ := perform_one hcan (by simp [hleft]) (.inr hpart)
  obtain rfl : q = p := by simpa [hleft] using hq
  refine ⟨_, treatsLine_lineEffect hk, (exec_accessPerformed hfind hringed helem hcan).trans ?_⟩
  rw [hperform, performPiece_of_cacheOp hk hord, if_pos (by simp [hleft])]

theorem cacheOp_performs_next_line (hone : ∀ x ∈ s.accesses, x.id = a.id → x = a) (hord : a.ord = 0) (hk : a.CacheOp)
    (hmany : 2 ≤ a.left.length) :
    ∃ p ∈ a.left, pieceReady s a p = true ∧ ∃ t, TreatsLine a { s with freeCtr := s.freeCtr + 1 } p t ∧
      exec (.accessPerformed a.id) s = .next
        { t with accesses := s.accesses.map fun x => if x = a then { a with left := a.left.erase p } else x } := by
  obtain ⟨p, hp, hready, hperform⟩ := perform_one hcan (List.ne_nil_of_length_pos (by omega)) (.inl hmany)
  have more : a.left.erase p ≠ [] := by
    apply List.ne_nil_of_length_pos
    rw [List.length_erase_of_mem hp]
    omega
  refine ⟨p, hp, hready, _, treatsLine_lineEffect hk, (exec_accessPerformed hfind hringed helem hcan).trans ?_⟩
  rw [hperform, performPiece_of_cacheOp hk hord, if_neg more]
  rw [show ({ s with freeCtr := s.freeCtr + 1 } : State).accesses = s.accesses from rfl, mapIf_id_eq hone]

theorem aquery_performs {p : Part} {r : ArrayRef} (hk : a.kind = .aquery) (hord : a.ord = 0) (hparts : a.parts = [p]) (hleft : a.left = [p])
    (hr : region p.pa = .array r) :
    exec (.accessPerformed a.id) s =
      .next (goneFrom (s.updSeq a.q fun c => c.setReg (BitVec.ofNat 6 a.dest) (arrayWord s r)) a.id) := by
  rw [exec_accessPerformed hfind hringed helem hcan, perform_of_whole (by simp [hleft]) (by rw [hleft, hk, hparts]; rfl),
    performWhole_of_aquery hk hord hparts hr]

theorem fence_performs (hk : a.kind = .fence) (hleft : a.left = []) : exec (.accessPerformed a.id) s = .next (performWhole s a) := by
  rw [exec_accessPerformed hfind hringed helem hcan, perform_of_whole (by simp [hleft]) (by rw [hleft, hk]; rfl)]

end

theorem conversion_ends {s : State} {c : Conversion} (hfind : s.conversions.find? (fun x => x.ref == c.ref) = some c) (hstarted : c.started = true) :
    exec (.aconvComplete c.ref) s = .next (endConversion s c) := by
  show execAconvComplete c.ref s = _
  unfold execAconvComplete
  rw [hfind]
  exact if_pos hstarted

/-- Settles O20: what an instruction makes outstanding follows from its translation, which asks for no walk where it does not wait;
what is performed, from what each operation does to one line. -/
theorem cacheOperations : Obligations.CacheOperations := by
  unfold Obligations.CacheOperations
  refine ⟨fun s u a b d os m hrun => ?_, fun s c hfind hstarted hmode => ⟨_, conversion_ends hfind hstarted, endConversion_array hmode⟩,
    fun s a hfind hone hringed helem hcan => ?_⟩
  · intro va len rlx start range out skips
    have clean : exec (.cclean a b) s = maintain .cclean a b s := rfl
    have inval : exec (.cinval a b) s = maintain .cinval a b s := rfl
    have flush : exec (.cflush a b) s = maintain .cflush a b s := rfl
    have pref : exec (.cpref a b) s = maintain .cpref a b s := rfl
    refine ⟨fence_outstanding hrun os, fun hlen => ?_, fun hlen hroom ps hps => ?_, fun hlen hroom ps hps => ?_, fun hfull => ?_,
      fun hfull => ?_, fun s1 p htr => arrayWords_of_translated hrun a d m htr⟩
    · exact ⟨maintain_of_empty hrun clean hlen, maintain_of_empty hrun inval hlen, maintain_of_empty hrun flush hlen,
        maintain_of_empty hrun pref hlen⟩
    · exact ⟨maintain_outstanding hrun clean hlen hroom hps, maintain_outstanding hrun inval hlen hroom hps,
        maintain_outstanding hrun flush hlen hroom hps⟩
    · exact maintain_outstanding hrun pref hlen hroom hps
    · exact ⟨aconv_of_full hrun a m hfull, fun hlen => ⟨maintain_of_full hrun clean hlen hfull, maintain_of_full hrun inval hlen hfull,
        maintain_of_full hrun flush hlen hfull⟩⟩
    · exact ⟨aquery_of_full hrun d a hfull, fun hlen => maintain_of_full hrun pref hlen hfull⟩
  · intro gone treats cacheOp
    refine ⟨fun p hop hparts hleft hdram hn hfit => ?_, fun p hop hleft hpart => ?_, fun hop hmany => ?_, fun p r hk hord hparts hleft hr => ?_,
      fun hk hleft => ?_⟩
    · exact cacheOp_performs_one_line hfind hringed helem hcan hop.1 hop.2 hparts hleft hdram hn hfit
    · exact cacheOp_performs_last_line hfind hringed helem hcan hop.1 hop.2 hleft hpart
    · exact cacheOp_performs_next_line hfind hringed helem hcan hone hop.1 hop.2 hmany
    · exact aquery_performs hfind hringed helem hcan hk hord hparts hleft hr
    · exact (fence_performs hfind hringed helem hcan hk hleft).trans (congrArg _ (performWhole_of_fence hk))

end Sys2Proof.Machine
end

section
/-! SUPPORT. CFFR, CTAGCLR, and the waits for tags and counters (R120, R154 to R156). -/

namespace Sys2Proof.Machine

/-! ## The lowest one bit -/

theorem lowestBit_le (w : Word) : lowestBit w ≤ 64 := by
  unfold lowestBit
  cases h : (List.range 64).find? fun i => w.getLsbD i with
  | none => exact Nat.le_refl 64
  | some i => exact Nat.le_of_lt (List.mem_range.mp (List.mem_of_find?_eq_some h))

theorem getLsbD_of_lt_lowestBit {w : Word} {k : Nat} (h : k < lowestBit w) : w.getLsbD k = false := by
  unfold lowestBit at h
  cases hf : (List.range 64).find? fun i => w.getLsbD i with
  | none =>
    rw [hf] at h
    simpa using List.find?_eq_none.mp hf k (List.mem_range.mpr h)
  | some i =>
    rw [hf] at h
    simpa using (List.find?_range_eq_some.mp hf).2.2 k h

theorem getLsbD_lowestBit {w : Word} (h : lowestBit w < 64) : w.getLsbD (lowestBit w) = true := by
  unfold lowestBit at h ⊢
  cases hf : (List.range 64).find? fun i => w.getLsbD i with
  | none => rw [hf] at h; exact absurd h (Nat.lt_irrefl 64)
  | some i => exact List.find?_some (p := fun i => w.getLsbD i) hf

/-! ## CFFR and CTAGCLR -/

theorem cffr_gives (s : State) (d a : Reg) :
    givesReg (.cffr d a) s d (BitVec.ofNat 64 (lowestBit (s.cpu.ctag &&& s.cpu.reg a))) := givesReg_of_updCpu rfl rfl

theorem ctagclr_clears (s : State) (a : Reg) :
    runsTo (.ctagclr a) s fun t => onlyCpu s t ∧
      t.cpu = { s.cpu with ctag := s.cpu.ctag &&& ~~~s.cpu.reg a, ctagf := s.cpu.ctagf &&& ~~~s.cpu.reg a
                           pc := s.cpu.pc + 4 } :=
  ⟨_, rfl, onlyCpu_updCpu s _, State.cpu_updCpu s _⟩

/-- The fields of a word of three registers are those that it is made of. -/
theorem fields_of_q3 (op : BitVec 8) (d a b f : BitVec 6) :
    fOp (q3 op d a b f) = op ∧ fD (q3 op d a b f) = d ∧ fA (q3 op d a b f) = a ∧ fB (q3 op d a b f) = b ∧ fF (q3 op d a b f) = f := by
  obtain ⟨hop, hd, ha, hb, hf⟩ := q3_eq_iff.mp (rfl : q3 op d a b f = _)
  exact ⟨hop.symm, hd.symm, ha.symm, hb.symm, hf.symm⟩

theorem decodeSeq_of_cffr {w : BitVec 32} (h : fOp w = 0x72) (pl : BitVec 32) :
    decodeSeq w pl = need (fB w == 0 && fF w == 0) (.cffr (fD w) (fA w)) := by
  unfold decodeSeq
  rw [h]
  rfl

theorem decodeSeq_of_ctagclr {w : BitVec 32} (h : fOp w = 0x73) (pl : BitVec 32) :
    decodeSeq w pl = need (fD w == 0 && fB w == 0 && fF w == 0) (.ctagclr (fA w)) := by
  unfold decodeSeq
  rw [h]
  rfl

theorem decodeSeq_cffr (d a b f : BitVec 6) (pl : BitVec 32) :
    decodeSeq (q3 0x72 d a b f) pl = if b = 0 ∧ f = 0 then .ok (.cffr d a) else .error .reserved := by
  obtain ⟨hop, hd, ha, hb, hf⟩ := fields_of_q3 0x72 d a b f
  rw [decodeSeq_of_cffr hop, hd, ha, hb, hf]
  simp [need]

theorem decodeSeq_ctagclr (d a b f : BitVec 6) (pl : BitVec 32) :
    decodeSeq (q3 0x73 d a b f) pl = if d = 0 ∧ b = 0 ∧ f = 0 then .ok (.ctagclr a) else .error .reserved := by
  obtain ⟨hop, hd, ha, hb, hf⟩ := fields_of_q3 0x73 d a b f
  rw [decodeSeq_of_ctagclr hop, hd, ha, hb, hf]
  simp [need, and_assoc]

/-- Settles O13: CFFR's register from what the lowest one bit is, the two words from the fields of their layout. -/
theorem tagReadAndClear : Obligations.TagReadAndClear := by
  unfold Obligations.TagReadAndClear
  refine ⟨fun s d a => ⟨⟨_, cffr_gives s d a, lowestBit_le _, fun k => getLsbD_of_lt_lowestBit, getLsbD_lowestBit⟩,
    ctagclr_clears s a⟩, fun d a b f pl => ⟨decodeSeq_cffr d a b f pl, decodeSeq_ctagclr d a b f pl⟩⟩

/-! ## WANY and WALL -/

section
variable {s : State} {d a : Reg}

theorem wany_of_no_mask (hm : s.cpu.reg a = 0) : givesReg (.wany d a) s d 0 :=
  givesReg_of_updCpu (g := fun c => (c.setReg d 0).next) (if_pos hm) rfl

theorem wall_of_no_mask (hm : s.cpu.reg a = 0) : givesReg (.wall d a) s d 0 :=
  givesReg_of_updCpu (g := fun c => (c.setReg d 0).next) (if_pos hm) rfl

theorem exec_wany (hm : s.cpu.reg a ≠ 0) :
    exec (.wany d a) s =
      if (s.cpu.ctag ||| s.cpu.ctbusy) &&& s.cpu.reg a = 0 then .next (trapHere s 0x07 none)
      else if s.cpu.ctag &&& s.cpu.reg a = 0 then .next s
      else .next (s.updCpu fun c => (c.setReg d (c.ctag &&& s.cpu.reg a)).next) :=
  (if_neg hm : execWany d a s = _)

theorem exec_wall (hm : s.cpu.reg a ≠ 0) :
    exec (.wall d a) s =
      if s.cpu.reg a &&& ~~~(s.cpu.ctag ||| s.cpu.ctbusy) ≠ 0 then .next (trapHere s 0x07 none)
      else if s.cpu.ctag &&& s.cpu.reg a ≠ s.cpu.reg a then .next s
      else .next (s.updCpu fun c => (c.setReg d (c.ctagf &&& s.cpu.reg a)).next) :=
  (if_neg hm : execWall d a s = _)

/-- No tag of a mask is READY or BUSY where none is READY and none is BUSY. -/
theorem or_and_eq_zero_iff {x y m : Word} : (x ||| y) &&& m = 0 ↔ x &&& m = 0 ∧ y &&& m = 0 := by
  rw [BitVec.and_comm, BitVec.and_or_distrib_left, BitVec.and_comm m x, BitVec.and_comm m y]
  exact BitVec.or_eq_zero_iff

/-- A mask whose tags are all READY names no idle one. -/
theorem idle_of_and_eq {x y m : Word} (h : x &&& m = m) : m &&& ~~~(x ||| y) = 0 := by
  rw [← h]
  ext i hi
  simp only [BitVec.getElem_and, BitVec.getElem_not, BitVec.getElem_or]
  cases x[i] <;> simp

theorem wany_of_ready (h : s.cpu.ctag &&& s.cpu.reg a ≠ 0) : givesReg (.wany d a) s d (s.cpu.ctag &&& s.cpu.reg a) := by
  have hm : s.cpu.reg a ≠ 0 := fun e => h (by rw [e]; exact BitVec.and_zero)
  refine givesReg_of_updCpu (g := fun c => (c.setReg d (c.ctag &&& s.cpu.reg a)).next) ?_ rfl
  rw [exec_wany hm, if_neg fun e => h (or_and_eq_zero_iff.mp e).1, if_neg h]

theorem wall_of_ready (hm : s.cpu.reg a ≠ 0) (h : s.cpu.ctag &&& s.cpu.reg a = s.cpu.reg a) :
    givesReg (.wall d a) s d (s.cpu.ctagf &&& s.cpu.reg a) := by
  refine givesReg_of_updCpu (g := fun c => (c.setReg d (c.ctagf &&& s.cpu.reg a)).next) ?_ rfl
  rw [exec_wall hm, if_neg (not_not.mpr (idle_of_and_eq h)), if_neg (not_not.mpr h)]

theorem wany_of_busy (h : s.cpu.ctag &&& s.cpu.reg a = 0) (hbusy : s.cpu.ctbusy &&& s.cpu.reg a ≠ 0) :
    exec (.wany d a) s = .next s := by
  have hm : s.cpu.reg a ≠ 0 := fun e => hbusy (by rw [e]; exact BitVec.and_zero)
  rw [exec_wany hm, if_neg fun e => hbusy (or_and_eq_zero_iff.mp e).2, if_pos h]

theorem wall_of_busy (hidle : s.cpu.reg a &&& ~~~(s.cpu.ctag ||| s.cpu.ctbusy) = 0)
    (h : s.cpu.ctag &&& s.cpu.reg a ≠ s.cpu.reg a) : exec (.wall d a) s = .next s := by
  have hm : s.cpu.reg a ≠ 0 := fun e => h (by rw [e]; exact BitVec.and_zero)
  rw [exec_wall hm, if_neg (not_not.mpr hidle), if_pos h]

theorem wany_traps (ready : handlerReady s) (hm : s.cpu.reg a ≠ 0)
    (h : (s.cpu.ctag ||| s.cpu.ctbusy) &&& s.cpu.reg a = 0) : trapsExactly (.wany d a) s 0x07 0 none :=
  ⟨_, (exec_wany hm).trans (if_pos h), trapHere_entersHandler ready 0x07 none⟩

theorem wall_traps (ready : handlerReady s) (hm : s.cpu.reg a ≠ 0)
    (h : s.cpu.reg a &&& ~~~(s.cpu.ctag ||| s.cpu.ctbusy) ≠ 0) : trapsExactly (.wall d a) s 0x07 0 none :=
  ⟨_, (exec_wall hm).trans (if_pos h), trapHere_entersHandler ready 0x07 none⟩

end

/-! ## WAITC -/

/-- Every class count is at or below its operand (R156). -/
def CountsWithin (s : State) (l st c t : BitVec 4) : Prop :=
  loadCount s s.cur ≤ l.toNat ∧ storeCount s s.cur ≤ st.toNat ∧ copyCount s s.cur ≤ c.toNat ∧ tilesOf s s.cur ≤ t.toNat

section
variable {s : State} {l st c t : BitVec 4}

theorem waitc_of_within (h : CountsWithin s l st c t) :
    runsTo (.waitc l st c t) s fun u => onlyCpu s u ∧ u.cpu = { s.cpu with pc := s.cpu.pc + 4 } := by
  refine ⟨_, if_pos ?_, onlyCpu_updCpu s Seq.next, State.cpu_updCpu s Seq.next⟩
  simpa [CountsWithin, and_assoc] using h

theorem waitc_of_above (h : ¬CountsWithin s l st c t) : exec (.waitc l st c t) s = .next s := by
  refine if_neg fun hw => h ?_
  simpa [CountsWithin, and_assoc] using hw

end

/-- Settles O14: each mask falls under one branch of WANY and one of WALL, and the counts decide WAITC. -/
theorem waits : Obligations.Waits := by
  unfold Obligations.Waits
  refine ⟨fun s d a => ⟨fun hm => ⟨wany_of_no_mask hm, wall_of_no_mask hm⟩, wany_of_ready, wall_of_ready, wany_of_busy, wall_of_busy,
    fun ready hm => ⟨wany_traps ready hm, wall_traps ready hm⟩⟩, fun s l st c t => ⟨fun hl hst hc ht => ?_, fun h => ?_⟩⟩
  · exact waitc_of_within ⟨hl, hst, hc, ht⟩
  · refine waitc_of_above fun ⟨hl, hst, hc, ht⟩ => ?_
    omega

end Sys2Proof.Machine
end

section
/-! SUPPORT. A copy that writes a descriptor into a context table (R79, R143, R147, R408, R409). -/

namespace Sys2Proof.Machine

/-- A copy of context 1, with tag 2: 128 bytes at 0x60000, which are those that set CCTL.V, to 0x50000. -/
def tableCopy : Job :=
  { q := 0, tag := 2, ctx := 1, part := 0, die := 0, handle := 1, launch := 7, kind := .copy, dst := 0x50000, src := 0x60000
    len := 128, aux := 0, tensor := 0, pos := 0, acc := 0, spilled := false, group := [] }

/-- The entry of a side of its engine: the page at an address, mapped to itself under key slot 1. -/
def tableEntry (side va : Nat) : TlbEntry :=
  { holder := .engine 0 2 side, ctx := 1, va := va, used := 0
    leaf := { frame := va, lg := 16, w := true, la := false, ord := 1, key := 1, d := true } }

/-- Before that copy: context 2, whose descriptor lies at 0x50000, does not exist, and the engine holds both pages. -/
def beforeTableCopy : State :=
  { beforeContext2.updSeq 0 fun c => { c with ctbusy := 4 } with
    pulls := []
    jobs := [tableCopy]
    tlb := [tableEntry 0 0x60000, tableEntry 2 0x50000]
    lineTags := { line := 0x60000 / 128, key := 77, epoch := 0 } :: beforeContext2.lineTags
    mem := memPutAll beforeContext2.mem 0x60000 (setsV 128) }

/-- The engine finishes it, and the byte of TMEAS at 0x50040 is zero. -/
theorem tableCopy_finishes :
    ∃ t, exec (.copyComplete 0 2) beforeTableCopy = .next t ∧ (readSlot t 1 0x50000 128)[0x40]? = some 0 := by
  refine ⟨_, rfl, ?_⟩
  decide +kernel

theorem beforeTableCopy_source : readSlot beforeTableCopy 1 0x60000 128 = setsV 128 := by decide +kernel

/-- Refutes O21, in its clause on a COPY of bytes of one line (R147): one that sets CCTL.V of a descriptor in an ACTIVE
partition's table creates the context, and TMEAS of the descriptor is zero after it (R408, R409), whatever the source held there. -/
theorem not_copies : ¬ Obligations.Copies := by
  unfold Obligations.Copies
  intro h
  obtain ⟨-, finishes, -⟩ := h
  obtain ⟨-, copied⟩ := finishes beforeTableCopy 0 2 tableCopy (by decide +kernel)
  obtain ⟨t, hexec, -, -, hread, -⟩ := copied (tableEntry 0 0x60000) (tableEntry 2 0x50000) rfl (by decide) (by decide +kernel)
    (by decide +kernel) rfl (by decide) (by decide)
  obtain ⟨t', hexec', hzero⟩ := tableCopy_finishes
  obtain rfl : t' = t := by injection hexec'.symm.trans hexec
  change readSlot t' 1 0x50000 128 = readSlot beforeTableCopy 1 0x60000 128 at hread
  rw [hread, beforeTableCopy_source] at hzero
  exact absurd hzero (by decide)

end Sys2Proof.Machine
end

section
/-! SUPPORT. The table of barriers, and the parties that wait at one (R283, R284). -/

namespace Sys2Proof.Machine

/-! ## The table -/

theorem barrierOf_setBarrier_self (s : State) (b : Barrier) : barrierOf (setBarrier s b) b.ctx b.bar = some b :=
  find_upsert_self _ b (by simp) s.barriers

theorem barrierOf_setBarrier_other (s : State) (b : Barrier) {c : BitVec 12} {k : Nat} (h : (c, k) ≠ (b.ctx, b.bar)) :
    barrierOf (setBarrier s b) c k = barrierOf s c k := by
  have apart : ¬(b.ctx = c ∧ b.bar = k) := fun ⟨hc, hk⟩ => h (by rw [hc, hk])
  refine find_upsert_other ?_ (fun y hy => ?_) s.barriers
  · simpa using apart
  · obtain ⟨hc, hk⟩ : y.ctx = b.ctx ∧ y.bar = b.bar := by simpa using hy
    simpa [hc, hk] using apart

/-- A barrier that a search finds is the one of its context and number. -/
theorem barrierOf_key {s : State} {ctx : BitVec 12} {n : Nat} {x : Barrier} (h : barrierOf s ctx n = some x) :
    x.ctx = ctx ∧ x.bar = n := by
  simpa using List.find?_some h

/-- A barrier that takes the place of one that was found is found there. -/
theorem barrierOf_setBarrier {s t : State} {ctx : BitVec 12} {n : Nat} {x b : Barrier} (h : barrierOf s ctx n = some x)
    (hc : b.ctx = x.ctx) (hb : b.bar = x.bar) : barrierOf (setBarrier t b) ctx n = some b := by
  obtain ⟨rfl, rfl⟩ := barrierOf_key h
  rw [← hc, ← hb]
  exact barrierOf_setBarrier_self t b

/-! ## The parties -/

/-- Where each step of a fold leaves something of the state, so does the fold. -/
theorem foldl_keeps {α β : Type} {f : State → α → State} {p : State → β} (hf : ∀ s x, p (f s x) = p s) (l : List α) (s : State) :
    p (l.foldl f s) = p s := by
  induction l generalizing s with
  | nil => rfl
  | cons x rest ih => exact (ih (f s x)).trans (hf s x)

theorem foldl_updSeq_frame (f : Seq → Seq) (l : List SeqId) (s : State) :
    { l.foldl (fun s q => s.updSeq q f) s with seqs := s.seqs } = s := by
  induction l generalizing s with
  | nil => rfl
  | cons q rest ih =>
    calc { (q :: rest).foldl (fun s q => s.updSeq q f) s with seqs := s.seqs }
      _ = { { rest.foldl (fun s q => s.updSeq q f) (s.updSeq q f) with seqs := (s.updSeq q f).seqs } with seqs := s.seqs } := rfl
      _ = { s.updSeq q f with seqs := s.seqs } := congrArg (fun t : State => { t with seqs := s.seqs }) (ih _)
      _ = s := rfl

/-- One update of each sequencer of a list, which made twice is as made once. -/
theorem foldl_updSeq_get {f : Seq → Seq} (hf : ∀ c, f (f c) = f c) (l : List SeqId) (s : State) (q : SeqId) :
    (l.foldl (fun s q => s.updSeq q f) s).seqs.get q = if q ∈ l then f (s.seqs.get q) else s.seqs.get q := by
  induction l generalizing s with
  | nil => rfl
  | cons p rest ih =>
    rw [List.foldl_cons, ih, State.updSeq_get]
    by_cases hp : q = p
    · subst hp; simp [hf]
    · simp [hp]

theorem releaseParties_get (s : State) (b : Barrier) (w : Wait) (q : SeqId) :
    (releaseParties s b w).seqs.get q = if q ∈ b.waiting then { s.seqs.get q with wait := w } else s.seqs.get q :=
  foldl_updSeq_get (f := fun c => { c with wait := w }) (fun _ => rfl) b.waiting s q

theorem releaseParties_frame (s : State) (b : Barrier) (w : Wait) :
    { releaseParties s b w with seqs := s.seqs, restores := s.restores } = s :=
  congrArg (fun t : State => { t with restores := s.restores }) (foldl_updSeq_frame (fun c => { c with wait := w }) b.waiting s)

theorem releaseParties_restores (s : State) (b : Barrier) (w : Wait) :
    (releaseParties s b w).restores = s.restores.map fun r => if r.ctx ≠ b.ctx then r else { r with
      units := r.units.map fun v => if b.absent.any v.ranOn then { v with state := { v.state with wait := w } } else v } := by
  have same : (b.waiting.foldl (fun s q => s.updSeq q fun c => { c with wait := w }) s).restores = s.restores :=
    (congrArg State.restores (foldl_updSeq_frame (fun c => { c with wait := w }) b.waiting s) :)
  simp only [releaseParties, mapIf, same]
  refine List.map_congr_left fun r _ => ?_
  by_cases h : r.ctx = b.ctx <;> simp [h]

theorem releaseParties_cur (s : State) (b : Barrier) (w : Wait) : (releaseParties s b w).cur = s.cur :=
  (congrArg State.cur (releaseParties_frame s b w) :)

end Sys2Proof.Machine
end

section
/-! SUPPORT. What BARC, BAR and the watchdog come to (R174, R283, R284). -/

namespace Sys2Proof.Machine

theorem trapsExactly_of_trapHere {i : Instr} {s : State} {code : Nat} {fault : Option (Word × Word)} (ready : handlerReady s)
    (h : exec i s = .next (trapHere s code fault)) : trapsExactly i s code 0 fault := ⟨_, h, trapHere_entersHandler ready code fault⟩

/-! ## BARC -/

/-- A barrier that has arrivals and is not complete cannot be armed (R283). -/
def hasArrivals (s : State) (ctx : BitVec 12) (n : Nat) : Prop :=
  ∃ y, barrierOf s ctx n = some y ∧ y.arrivals ≠ 0 ∧ y.complete = false

/-- The barrier that BARC arms. -/
def armedBarrier (s : State) (ctx : BitVec 12) (n : Nat) (w : Word) : Barrier :=
  { ctx := ctx, bar := n, word := w, die := s.cur.val / 16, arrivals := 0
    generation := ((barrierOf s ctx n).map Barrier.generation).getD 0, complete := false, waiting := [], absent := [] }

section
variable {s : State} {u : UnitRec} {a b : Reg} (hrun : s.cpu.run = some u)
include hrun

theorem exec_barc : exec (.barc a b) s =
    .next (if 63 < (s.cpu.reg a).toNat ∨ barOk (s.cpu.reg b) = false then trapOprng s
      else if (barrierOf s u.ctx (s.cpu.reg a).toNat).elim false (fun x => x.arrivals != 0 && !x.complete) then trapHere s 0x0B none
      else (setBarrier s (armedBarrier s u.ctx (s.cpu.reg a).toNat (s.cpu.reg b))).updCpu Seq.next) := by
  show execBarc a b s = _
  unfold execBarc withUnit
  rw [hrun]
  have gen : (barrierOf s u.ctx (s.cpu.reg a).toNat).elim 0 Barrier.generation =
      ((barrierOf s u.ctx (s.cpu.reg a).toNat).map Barrier.generation).getD 0 := by
    cases barrierOf s u.ctx (s.cpu.reg a).toNat <;> rfl
  simp [armedBarrier, gen, dieOfSeq]

theorem barc_arms (hn : (s.cpu.reg a).toNat ≤ 63) (hok : barOk (s.cpu.reg b) = true) (hfree : ¬hasArrivals s u.ctx (s.cpu.reg a).toNat) :
    runsTo (.barc a b) s fun t =>
      barrierOf t u.ctx (s.cpu.reg a).toNat = some (armedBarrier s u.ctx (s.cpu.reg a).toNat (s.cpu.reg b)) ∧
      (∀ c k, (c, k) ≠ (u.ctx, (s.cpu.reg a).toNat) → barrierOf t c k = barrierOf s c k) ∧
      { t with barriers := s.barriers, seqs := s.seqs } = s ∧ (∀ q, q ≠ s.cur → t.seqs.get q = s.seqs.get q) ∧
      t.cpu = { s.cpu with pc := s.cpu.pc + 4 } := by
  have free : ¬(barrierOf s u.ctx (s.cpu.reg a).toNat).elim false (fun x => x.arrivals != 0 && !x.complete) = true := by
    cases hx : barrierOf s u.ctx (s.cpu.reg a).toNat with
    | none => simp
    | some y => simpa using fun ha hc => hfree ⟨y, hx, ha, hc⟩
  have fits : ¬(63 < (s.cpu.reg a).toNat ∨ barOk (s.cpu.reg b) = false) := by simp [hok, hn]
  refine ⟨_, (exec_barc hrun).trans (congrArg _ ((if_neg fits).trans (if_neg free))), ?_⟩
  exact ⟨barrierOf_setBarrier_self s (armedBarrier s u.ctx _ _), fun c k h => barrierOf_setBarrier_other s _ h, rfl,
    (onlyCpu_updCpu (setBarrier s _) Seq.next).2, State.cpu_updCpu (setBarrier s _) Seq.next⟩

theorem barc_oprng (ready : handlerReady s) (h : 63 < (s.cpu.reg a).toNat ∨ barOk (s.cpu.reg b) = false) :
    trapsExactly (.barc a b) s 0x06 0 (some (0, 0xF5)) :=
  trapsExactly_of_trapHere ready ((exec_barc hrun).trans (congrArg _ (if_pos h)))

theorem barc_of_arrivals (ready : handlerReady s) (hn : (s.cpu.reg a).toNat ≤ 63) (hok : barOk (s.cpu.reg b) = true)
    (h : hasArrivals s u.ctx (s.cpu.reg a).toNat) : trapsExactly (.barc a b) s 0x0B 0 none := by
  obtain ⟨y, hy, harr, hopen⟩ := h
  refine trapsExactly_of_trapHere ready ((exec_barc hrun).trans (congrArg _ ?_))
  exact (if_neg (by simp [hok, hn])).trans (if_pos (by simp [hy, harr, hopen]))

end

/-! ## BAR -/

/-- The release that a barrier of PKG or SYS scope makes before an arrival (R174). -/
def barReleased (s : State) (u : UnitRec) (x : Barrier) : State := if 3 ≤ barScope x.word then releasePkg s u else s

/-- The acquire that it makes after the last (R174). -/
def barAcquired (s : State) (u : UnitRec) (wide : Bool) : State := if wide then acquireInvalidate s (dieOfSeq s.cur) u.ctx else s

theorem throughCaches_barReleased (s : State) (u : UnitRec) (x : Barrier) : ThroughCaches s (barReleased s u x) := by
  unfold barReleased releasePkg
  split
  · exact ThroughCaches.releaseWriteBack s _ _
  · exact ThroughCaches.refl s

theorem throughCaches_barAcquired (s : State) (u : UnitRec) (wide : Bool) : ThroughCaches s (barAcquired s u wide) := by
  unfold barAcquired
  split
  · exact ThroughCaches.acquireInvalidate s _ _
  · exact ThroughCaches.refl s

theorem l2Invalidate_barriers (s : State) (l : L2Line) : (l2Invalidate s l).barriers = s.barriers := by
  unfold l2Invalidate
  dsimp only
  split <;> rfl

/-- An acquire leaves every barrier. -/
theorem barAcquired_barriers (s : State) (u : UnitRec) (wide : Bool) : (barAcquired s u wide).barriers = s.barriers := by
  unfold barAcquired
  split
  · exact foldl_keeps l2Invalidate_barriers _ s
  · rfl

/-- A barrier with one arrival more. -/
def Barrier.arrived (x : Barrier) (q : SeqId) : Barrier := { x with arrivals := x.arrivals + 1, waiting := x.waiting ++ [q] }

/-- A barrier after its last arrival. -/
def Barrier.passed (x : Barrier) : Barrier :=
  { x with arrivals := 0, generation := x.generation + 1, complete := !bit x.word 15, waiting := [], absent := [] }

/-- An arrival that is not the last waits with the others (R284). -/
def earlyArrival (s : State) (n : Nat) (x : Barrier) : State := setWait (setBarrier s (x.arrived s.cur)) (.barrier n x.generation)

theorem earlyArrival_frame (s : State) (n : Nat) (x : Barrier) :
    { earlyArrival s n x with barriers := s.barriers, seqs := s.seqs } = s := rfl

theorem earlyArrival_cpu (s : State) (n : Nat) (x : Barrier) :
    (earlyArrival s n x).cpu = { s.cpu with wait := .barrier n x.generation } := State.cpu_updCpu (setBarrier s _) _

theorem earlyArrival_get {s : State} {q : SeqId} (hq : q ≠ s.cur) (n : Nat) (x : Barrier) :
    (earlyArrival s n x).seqs.get q = s.seqs.get q := (onlyCpu_updCpu (setBarrier s _) _).2 q hq

/-- Every party that waits goes on with the new generation. -/
def partiesGo (s : State) (x : Barrier) : State := setBarrier (releaseParties s x (.passed (x.generation + 1) x.wide)) x.passed

/-- The last arrival: the parties go on, and the issuer takes the new generation (R284). -/
def lastArrival (s : State) (u : UnitRec) (d : Reg) (x : Barrier) : State :=
  (barAcquired (partiesGo s x) u x.wide).updCpu fun c => (c.setReg d (BitVec.ofNat 64 (x.generation + 1))).next

theorem lastArrival_barrierOf {s t : State} {ctx : BitVec 12} {n : Nat} {x : Barrier} (h : barrierOf t ctx n = some x) (u : UnitRec)
    (d : Reg) : barrierOf (lastArrival s u d x) ctx n = some x.passed := by
  have kept : (lastArrival s u d x).barriers = (partiesGo s x).barriers := barAcquired_barriers (partiesGo s x) u x.wide
  rw [barrierOf, kept]
  exact barrierOf_setBarrier h rfl rfl

/-- Before the issuer takes the generation, the parties alone have changed. -/
theorem barAcquired_partiesGo_get (s : State) (u : UnitRec) (x : Barrier) (q : SeqId) :
    (barAcquired (partiesGo s x) u x.wide).seqs.get q =
      if q ∈ x.waiting then { s.seqs.get q with wait := .passed (x.generation + 1) x.wide } else s.seqs.get q := by
  rw [(throughCaches_barAcquired (partiesGo s x) u x.wide).seqs]
  exact releaseParties_get s x _ q

theorem barAcquired_partiesGo_cur (s : State) (u : UnitRec) (x : Barrier) : (barAcquired (partiesGo s x) u x.wide).cur = s.cur :=
  (throughCaches_barAcquired (partiesGo s x) u x.wide).cur.trans (releaseParties_cur s x _)

theorem lastArrival_cpu {s : State} {x : Barrier} (hnot : s.cur ∉ x.waiting) (u : UnitRec) (d : Reg) :
    (lastArrival s u d x).cpu = { s.cpu.setReg d (BitVec.ofNat 64 (x.generation + 1)) with pc := s.cpu.pc + 4 } := by
  have hcpu : (barAcquired (partiesGo s x) u x.wide).cpu = s.cpu := by
    rw [State.cpu, barAcquired_partiesGo_cur, barAcquired_partiesGo_get, if_neg hnot]
    rfl
  refine (State.cpu_updCpu (barAcquired (partiesGo s x) u x.wide) _).trans ?_
  rw [hcpu]
  simp [Seq.next]

theorem lastArrival_get {s : State} {q : SeqId} (hq : q ≠ s.cur) (u : UnitRec) (d : Reg) (x : Barrier) :
    (lastArrival s u d x).seqs.get q =
      if q ∈ x.waiting then { s.seqs.get q with wait := .passed (x.generation + 1) x.wide } else s.seqs.get q :=
  ((onlyCpu_updCpu (barAcquired (partiesGo s x) u x.wide) _).2 q (by rwa [barAcquired_partiesGo_cur])).trans
    (barAcquired_partiesGo_get s u x q)

section
variable {s : State} {u : UnitRec} {d a : Reg} {x : Barrier} (hrun : s.cpu.run = some u)
include hrun

theorem bar_of_passed {gen : Nat} {wide : Bool} (hw : s.cpu.wait = .passed gen wide) :
    exec (.bar d a) s =
      .next ((barAcquired s u wide).updCpu fun c => ({ c.setReg d (BitVec.ofNat 64 gen) with wait := .none } : Seq).next) := by
  show execBar d a s = _
  simp [execBar, withUnit, hrun, hw, barAcquired]

theorem bar_goes_on {gen : Nat} {wide : Bool} (hw : s.cpu.wait = .passed gen wide) :
    runsTo (.bar d a) s fun t => onlyCpu (barAcquired s u wide) t ∧
      t.cpu = { s.cpu.setReg d (BitVec.ofNat 64 gen) with pc := s.cpu.pc + 4, wait := .none } := by
  refine ⟨_, bar_of_passed hrun hw, onlyCpu_updCpu _ _, ?_⟩
  have through := throughCaches_barAcquired s u wide
  rw [State.cpu_updCpu, cpu_eq_of_seqs through.seqs through.cur]
  simp [Seq.next]

theorem bar_of_barrier {k gen : Nat} (hw : s.cpu.wait = .barrier k gen) : exec (.bar d a) s = .next s := by
  show execBar d a s = _
  simp [execBar, withUnit, hrun, hw]

theorem bar_of_timedOut (ready : handlerReady s) (hw : s.cpu.wait = .timedOut) : trapsExactly (.bar d a) s 0x0A 0 none := by
  refine trapsExactly_of_trapHere ready ?_
  show execBar d a s = _
  simp [execBar, withUnit, hrun, hw]

variable (hwait : s.cpu.wait = .none)
include hwait

theorem bar_of_unset (hx : barrierOf s u.ctx (s.cpu.reg a).toNat = none) : exec (.bar d a) s = .next (trapOprng s) := by
  show execBar d a s = _
  simp [execBar, withUnit, hrun, hwait, hx]

variable (hx : barrierOf s u.ctx (s.cpu.reg a).toNat = some x)
include hx

theorem exec_bar : exec (.bar d a) s =
    .next (if 63 < (s.cpu.reg a).toNat ∨ (barScope x.word = 2 ∧ x.die ≠ dieOfSeq s.cur) then trapOprng s
      else if x.complete = true then trapHere s 0x0B none
      else if ownAccesses s s.cur ≠ [] then s
      else if x.arrivals + 1 = barCount x.word then lastArrival (barReleased s u x) u d x
      else earlyArrival (barReleased s u x) (s.cpu.reg a).toNat x) := by
  show execBar d a s = _
  simp [execBar, withUnit, hrun, hwait, hx, lastArrival, partiesGo, earlyArrival, barReleased, barAcquired, Barrier.wide,
    Barrier.passed, Barrier.arrived, barAuto]

theorem bar_refused (h : 63 < (s.cpu.reg a).toNat ∨ (barScope x.word = 2 ∧ x.die ≠ dieOfSeq s.cur)) :
    exec (.bar d a) s = .next (trapOprng s) := (exec_bar hrun hwait hx).trans (congrArg _ (if_pos h))

variable (hn : (s.cpu.reg a).toNat ≤ 63) (hdie : barScope x.word = 2 → x.die = dieOfSeq s.cur)
include hn hdie

/-- An arrival that R283 allows. -/
theorem exec_bar_of_allowed : exec (.bar d a) s =
    .next (if x.complete = true then trapHere s 0x0B none
      else if ownAccesses s s.cur ≠ [] then s
      else if x.arrivals + 1 = barCount x.word then lastArrival (barReleased s u x) u d x
      else earlyArrival (barReleased s u x) (s.cpu.reg a).toNat x) := by
  have allowed : ¬(63 < (s.cpu.reg a).toNat ∨ (barScope x.word = 2 ∧ x.die ≠ dieOfSeq s.cur)) := by
    rintro (h | ⟨hs, hd⟩)
    · omega
    · exact hd (hdie hs)
  exact (exec_bar hrun hwait hx).trans (congrArg _ (if_neg allowed))

theorem bar_of_complete (ready : handlerReady s) (hc : x.complete = true) : trapsExactly (.bar d a) s 0x0B 0 none :=
  trapsExactly_of_trapHere ready ((exec_bar_of_allowed hrun hwait hx hn hdie).trans (congrArg _ (if_pos hc)))

variable (hc : x.complete = false)
include hc

theorem bar_behind (ho : ownAccesses s s.cur ≠ []) : exec (.bar d a) s = .next s := by
  rw [exec_bar_of_allowed hrun hwait hx hn hdie, if_neg (by simp [hc]), if_pos ho]

variable (ho : ownAccesses s s.cur = [])
include ho

theorem bar_arrives (hlast : x.arrivals + 1 ≠ barCount x.word) :
    runsTo (.bar d a) s fun t =>
      barrierOf t u.ctx (s.cpu.reg a).toNat = some (x.arrived s.cur) ∧
      { t with barriers := (barReleased s u x).barriers, seqs := (barReleased s u x).seqs } = barReleased s u x ∧
      (∀ q, q ≠ s.cur → t.seqs.get q = s.seqs.get q) ∧
      t.cpu = { s.cpu with wait := .barrier (s.cpu.reg a).toNat x.generation } := by
  have through := throughCaches_barReleased s u x
  have hcpu : (barReleased s u x).cpu = s.cpu := cpu_eq_of_seqs through.seqs through.cur
  refine ⟨earlyArrival (barReleased s u x) (s.cpu.reg a).toNat x, (exec_bar_of_allowed hrun hwait hx hn hdie).trans ?_, ?_,
    earlyArrival_frame _ _ _, fun q hq => ?_, ?_⟩
  · rw [if_neg (by simp [hc]), if_neg (not_not_intro ho), if_neg hlast]
  · rw [← through.cur]
    exact barrierOf_setBarrier hx rfl rfl
  · rw [earlyArrival_get (through.cur.symm ▸ hq), through.seqs]
  · rw [earlyArrival_cpu, hcpu]

theorem bar_arrives_last (hlast : x.arrivals + 1 = barCount x.word) (hnot : s.cur ∉ x.waiting) :
    runsTo (.bar d a) s fun t =>
      barrierOf t u.ctx (s.cpu.reg a).toNat = some x.passed ∧
      t.cpu = { s.cpu.setReg d (BitVec.ofNat 64 (x.generation + 1)) with pc := s.cpu.pc + 4 } ∧
      (∀ q ∈ x.waiting, t.seqs.get q = { s.seqs.get q with wait := .passed (x.generation + 1) x.wide }) ∧
      ∀ q, q ≠ s.cur → q ∉ x.waiting → t.seqs.get q = s.seqs.get q := by
  have through := throughCaches_barReleased s u x
  have hcpu : (barReleased s u x).cpu = s.cpu := cpu_eq_of_seqs through.seqs through.cur
  have others : ∀ q, q ≠ s.cur → (lastArrival (barReleased s u x) u d x).seqs.get q =
      if q ∈ x.waiting then { s.seqs.get q with wait := .passed (x.generation + 1) x.wide } else s.seqs.get q := by
    intro q hq
    rw [lastArrival_get (through.cur.symm ▸ hq), through.seqs]
  refine ⟨lastArrival (barReleased s u x) u d x, (exec_bar_of_allowed hrun hwait hx hn hdie).trans ?_, lastArrival_barrierOf hx u d, ?_,
    fun q hq => ?_, fun q hq hw => ?_⟩
  · rw [if_neg (by simp [hc]), if_neg (not_not_intro ho), if_pos hlast]
  · exact hcpu ▸ lastArrival_cpu (through.cur.symm ▸ hnot) u d
  · rw [others q fun e => hnot (e ▸ hq), if_pos hq]
  · rw [others q hq, if_neg hw]

end

/-! ## The watchdog -/

section
variable {s : State} {ctx : BitVec 12} {n : Nat} {x : Barrier} (hx : barrierOf s ctx n = some x)
include hx

theorem exec_barrierWatchdog : exec (.barrierWatchdog ctx n) s =
    if barWd x.word = 0 ∨ (x.waiting = [] ∧ x.absent = []) then .next s
    else .next (setBarrier (releaseParties s x .timedOut) { x with arrivals := 0, waiting := [], absent := [] }) := by
  show execBarrierWatchdog ctx n s = _
  unfold execBarrierWatchdog
  rw [hx]
  simp

theorem watchdog_of_none_waiting (h : bits x.word 47 16 = 0 ∨ (x.waiting = [] ∧ x.absent = [])) :
    exec (.barrierWatchdog ctx n) s = .next s := (exec_barrierWatchdog hx).trans (if_pos h)

theorem watchdog_times_out (hwd : bits x.word 47 16 ≠ 0) (hparty : x.waiting ≠ [] ∨ x.absent ≠ []) :
    runsTo (.barrierWatchdog ctx n) s fun t =>
      barrierOf t ctx n = some { x with arrivals := 0, waiting := [], absent := [] } ∧
      { t with barriers := s.barriers, seqs := s.seqs, restores := s.restores } = s ∧
      (∀ q, t.seqs.get q = if q ∈ x.waiting then { s.seqs.get q with wait := .timedOut } else s.seqs.get q) ∧
      t.restores = s.restores.map fun r => if r.ctx ≠ ctx then r else { r with
        units := r.units.map fun v => if x.absent.any v.ranOn then { v with state := { v.state with wait := .timedOut } } else v } := by
  have hparties : ¬(bits x.word 47 16 = 0 ∨ (x.waiting = [] ∧ x.absent = [])) := by tauto
  refine ⟨_, (exec_barrierWatchdog hx).trans (if_neg hparties), barrierOf_setBarrier hx rfl rfl, ?_, releaseParties_get s x .timedOut, ?_⟩
  · exact congrArg (fun t : State => { t with barriers := s.barriers }) (releaseParties_frame s x .timedOut)
  · obtain ⟨hctx, -⟩ := barrierOf_key hx
    exact hctx ▸ releaseParties_restores s x .timedOut

end

/-! ## The obligation -/

/-- Settles O27: what BARC and BAR come to is decided by the barrier that they find, and by what the sequencer waits for; the
release before an arrival and the acquire after the last go through the caches, which leave every sequencer. -/
theorem barriers : Obligations.Barriers := by
  unfold Obligations.Barriers
  refine ⟨fun s u d a b x hrun => ⟨barc_arms hrun, barc_oprng hrun, barc_of_arrivals hrun, fun hwait hx hn hdie => ?_,
      fun gen wide hw => bar_goes_on hrun hw, fun k gen hw => bar_of_barrier hrun hw, fun hw ready => bar_of_timedOut hrun ready hw,
      fun ready hwait h => trapsExactly_of_trapHere ready ?_⟩,
    fun s ctx n x hx => ⟨watchdog_of_none_waiting hx, watchdog_times_out hx⟩⟩
  · exact ⟨bar_of_complete hrun hwait hx hn hdie, bar_behind hrun hwait hx hn hdie, bar_arrives hrun hwait hx hn hdie,
      bar_arrives_last hrun hwait hx hn hdie⟩
  · obtain hnone | hbig | ⟨hx, hscope, hdie⟩ := h
    · exact bar_of_unset hrun hwait hnone
    · cases hx : barrierOf s u.ctx (s.cpu.reg a).toNat with
      | none => exact bar_of_unset hrun hwait hx
      | some y => exact bar_refused hrun hwait hx (.inl hbig)
    · exact bar_refused hrun hwait hx (.inr ⟨hscope, hdie⟩)

end Sys2Proof.Machine
end

section
/-! SUPPORT. The phases of a die whose numbers have gone round (R222, R282). -/

namespace Sys2Proof.Machine

/-- Phases of context 1 on die 0 that have ended: the first, the last that 32 bits number, and the one after it, which has number 0. -/
def roundPhases : List Phase :=
  [1, 0xFFFFFFFF, 0].map fun n => { ctx := 1, die := 0, num := n, passed := true, cancelled := false }

/-- A graph of context 1, resident on tile (0, 0) of die 0. -/
def bareGraph : Graph :=
  { gid := 1, ctx := 1, part := 0, handle := 1, die := 0, x := 0, y := 0, w := 1, h := 1, ver := 3, prio := 0, codeBase := 0x10000
    seqSize := 0x1000, islands := [], loops := [], allocs := [], counter := 1, pool := [], phase := 1, tree := [], recs := []
    lost := false, sealing := [], reconf := none, cancelled := false, done := false, retiring := false, retired := false }

/-- The graph where RECONF has still to pass it. -/
def passingGraph : Graph := { bareGraph with reconf := some 0 }

/-- The package with that graph, which has no node, after those phases. -/
def afterRound : State := { State.reset with graphs := [passingGraph], phases := roundPhases }

/-- The current phase has number 1 again, and nothing holds RECONF up. -/
theorem afterRound_ready : currentPhase afterRound 1 0 = 1 ∧ reconfReady afterRound passingGraph = true := by decide +kernel

/-- The phase that ends is the record of the first, which had ended before, so number 1 stays the current one. -/
theorem afterRound_passes : ∃ t, exec (.reconfPass 1 1) afterRound = .next t ∧ currentPhase t 1 0 = 1 := by
  refine ⟨_, rfl, ?_⟩
  decide +kernel

/-- Refutes O28, in its clause on the next phase (R222, R282): where the numbers have gone round, the phase that RECONF ends may have
the number of one that had ended, and then the next does not begin.  The records here are three of those that 2^32 phases leave. -/
theorem not_reconfiguration : ¬ Obligations.Reconfiguration := by
  unfold Obligations.Reconfiguration
  intro h
  obtain ⟨-, passes⟩ := h
  obtain ⟨-, -, ends⟩ := passes afterRound passingGraph rfl
  obtain ⟨hnow, hready⟩ := afterRound_ready
  obtain ⟨t, hexec, hnext, -⟩ := ends rfl hready (by change (currentPhase afterRound 1 0).toNat + 1 < 2 ^ 32; rw [hnow]; decide)
  obtain ⟨t', hexec', hsame⟩ := afterRound_passes
  obtain rfl : t' = t := by injection hexec'.symm.trans hexec
  change currentPhase t' 1 0 = currentPhase afterRound 1 0 + 1 at hnext
  rw [hsame, hnow] at hnext
  exact absurd hnext (by decide)

end Sys2Proof.Machine
end

section
/-! SUPPORT. What the end of an arrival leaves of what its node has been given: the store, and the count of its tokens (R198, R204). -/

namespace Sys2Proof.Machine

/-! ## Nodes by what they have been given -/

/-- What a node has been given: how many tokens have arrived at it, and when those in its store did. -/
def Node.intake (n : Node) : Nat × List Nat := (n.arrivals, n.store.map Held.arr)

/-- The same of every node. -/
def intakes (s : State) : List (Nat × List Nat) := s.nodes.map Node.intake

theorem setNode_intakes {f : Node → Node} (hf : ∀ n, (f n).intake = n.intake) (s : State) (r : NodeRef) :
    intakes (setNode s r f) = intakes s := by
  simp only [intakes, setNode, mapIf, List.map_map]
  refine List.map_congr_left fun n _ => ?_
  simp only [Function.comp_apply]
  split
  · exact hf n
  · rfl

theorem applyDepth_intakes (s : State) (g : Graph) (r : NodeRef) (d : Nat × Nat × Nat) : intakes (applyDepth s g r d) = intakes s := by
  unfold applyDepth
  split
  · rfl
  · split
    · rfl
    · dsimp only
      split
      · exact setNode_intakes (fun _ => by rfl) s r
      · exact (setNode_intakes (fun _ => by rfl) _ r).trans (setNode_intakes (fun _ => by rfl) s r)

theorem emitControl_intakes (s : State) (n : Node) (keep : Dest → Bool) (tok : Token) : intakes (emitControl s n keep tok) = intakes s := by
  refine foldl_keeps (fun s k => foldl_keeps (fun s o => ?_) _ s) _ s
  dsimp only
  split
  · rfl
  · exact setNode_intakes (fun _ => by rfl) s n.ref

/-- A node that passes RECONF on takes nothing into its store. -/
theorem passReconf_intakes (s : State) (g : Graph) (r : NodeRef) : intakes (passReconf s g r) = intakes s := by
  unfold passReconf
  split
  · split
    · rfl
    · dsimp only
      split
      · split
        · exact foldl_keeps (fun s d => applyDepth_intakes s g r d) _ s
        · exact (emitControl_intakes _ _ _ _).trans ((setNode_intakes (fun _ => by rfl) _ r).trans
            (foldl_keeps (fun s d => applyDepth_intakes s g r d) _ s))
      · exact foldl_keeps (fun s d => applyDepth_intakes s g r d) _ s
  · rfl

/-! ## Graphs that retire -/

theorem logRecords_nodes (s : State) (g : Graph) : (logRecords s g).nodes = s.nodes := foldl_keeps (fun _ _ => by rfl) _ s

theorem retireGraph_nodes_subset (s : State) (g : Graph) : (retireGraph s g).nodes ⊆ s.nodes := by
  have kept : ∀ refs : List NodeRef, (refs.foldl unpinNode (logRecords s g)).nodes = s.nodes := fun refs =>
    (foldl_keeps (p := State.nodes) (fun _ _ => by rfl) refs _).trans (logRecords_nodes s g)
  intro n hn
  rw [← kept]
  exact List.mem_of_mem_filter hn

theorem Arbitrated.nodes {s t : State} (h : Arbitrated s t) : t.nodes = s.nodes := by
  obtain ⟨_, _, _, _, rfl, -⟩ := h
  rfl

/-- Settling takes nodes away and changes none. -/
theorem settle_nodes_subset (s : State) : (settle s).nodes ⊆ s.nodes := by
  have each : ∀ (l : List Graph) (t : State), (l.foldl (fun s g => runArbiter (retireGraph s g) g.part) t).nodes ⊆ t.nodes := by
    intro l
    induction l with
    | nil => exact fun t => List.Subset.refl _
    | cons g rest ih =>
      intro t
      have one : (runArbiter (retireGraph t g) g.part).nodes ⊆ t.nodes := by
        rw [runArbiter, (arbitrated_arbitrate _ _).nodes]
        exact retireGraph_nodes_subset t g
      exact List.Subset.trans (ih _) one
  exact each _ s

/-! ## Arrivals -/

/-- A token that its island and its tile admit is accepted, and what its node then may do follows (R190, R203, R406). -/
theorem exec_tokenArrival_of_admitted {s s2 : State} {src : EdgeSrc} {dst : Dest} {tok : Token} {g : Graph}
    (hcredit : creditFor s src dst = true) (htake : takeFromEdge s src dst = some (s2, tok))
    (hadmits : tileAdmits s dst.node tok.key.ctx = true)
    (hgraph : (nodeOf (acceptToken s2 src dst tok) dst.node).bind (graphOfNode (acceptToken s2 src dst tok)) = some g) :
    exec (.tokenArrival src dst) s =
      .next (trySave (settle (passReconf (acceptToken s2 src dst tok) g dst.node)) dst.node) := by
  show execTokenArrival src dst s = _
  unfold execTokenArrival arriveToken
  simp [hcredit, htake, hadmits, hgraph]

/-- Behind an accepted token an arrival gives a node nothing more. -/
theorem intake_mem_of_arrival {s : State} {g : Graph} {r : NodeRef} {n : Node} (h : n ∈ (settle (passReconf s g r)).nodes) :
    n.intake ∈ intakes s :=
  passReconf_intakes s g r ▸ List.mem_map_of_mem (settle_nodes_subset _ h)

end Sys2Proof.Machine
end

section
/-! SUPPORT. A token that arrives where two records of nodes name one element. -/

namespace Sys2Proof.Machine

/-- A node of `bareGraph` at element 0 of tile (0, 0), with SINK in slot 0, at which so many tokens have arrived. -/
def sinkNode (arrivals : Nat) : Node :=
  { ref := { die := 0, id := 0 }, ctx := 1, handle := 1, ver := 3, slots := [0x5800000000000000], holds := [], store := []
    arrivals := arrivals, outs := [], depths := [], gated := [], drops := [], ends := [], links := [], marks := [], reconfs := []
    redepth := [], passed := false, saved := false, sealed := false, tiles := [], dead := [] }

/-- Operand a of its slot 0. -/
def sinkDest : Dest := { node := { die := 0, id := 0 }, slot := 0, opd := .a }

/-- A token of the base wave. -/
def waveToken : Token := { key := { ctx := 1, iter := 0, path := 0 }, seq := 0, kind := .data, payload := 5 }

/-- A source at tile (0, 0) that has sent tokens to that operand. -/
def sinkSource (buf : List Token) : Stream :=
  { ref := { die := 0, x := 0, y := 0, str := 0 }, q := 0, ctx := 1, part := 0, handle := 1, sink := false, base := 0, count := 1
    stride := 32, rows := 1, rowStride := 0, eos := false, dst := sinkDest, sent := 1, early := [], buf := buf, old := []
    ended := true, err := false, marked := false }

/-- The package with that graph, that source, and two records of the element, the second of which counts five arrivals. -/
def twoRecords (buf : List Token) : State :=
  { State.reset with
    parts := State.reset.parts.set 0 { Partition.free with pctl := 0x9000010020000000, tiles := 1 }
    graphs := [bareGraph]
    nodes := [sinkNode 0, sinkNode 5]
    streams := [sinkSource buf] }

/-- The model numbers the token by the count of the first record, in the store of both. -/
theorem twoRecords_arrival :
    ∃ t, exec (.tokenArrival (.stream (sinkSource []).ref) sinkDest) (twoRecords [waveToken]) = .next t ∧
      ∃ n ∈ t.nodes, n.intake = (6, [0]) := by
  refine ⟨_, exec_tokenArrival_of_admitted (s2 := twoRecords []) (tok := waveToken) (g := bareGraph) (by decide +kernel) (by decide +kernel)
    (by decide +kernel) (by decide +kernel), ?_⟩
  decide +kernel

/-- Refutes O43, in its clause on a token that is held (R196, R198): the statement numbers the token by each record's own count,
the model by that of the record that it finds, and no hypothesis excludes a second record of the node with another count. -/
theorem not_tokensAndCommits : ¬ Obligations.TokensAndCommits := by
  unfold Obligations.TokensAndCommits
  intro h
  obtain ⟨-, arrive, -⟩ := h
  obtain ⟨-, live⟩ := arrive (twoRecords [waveToken]) (twoRecords []) (.stream (sinkSource []).ref) sinkDest waveToken (sinkNode 0) bareGraph
    (by decide +kernel) (by decide +kernel) (by decide +kernel) (by decide +kernel) (by decide +kernel) rfl rfl
  obtain ⟨-, word⟩ := live rfl
  obtain ⟨-, taken⟩ := word (by decide +kernel)
  obtain ⟨fits, -⟩ := taken (fun _ hd => absurd hd List.not_mem_nil)
  obtain ⟨t, hexec, g, ht⟩ := fits (.inl (by decide +kernel))
  obtain ⟨t', hexec', n, hn, hintake⟩ := twoRecords_arrival
  obtain rfl : t' = t := by injection hexec'.symm.trans hexec
  rw [ht] at hn
  have given := intake_mem_of_arrival hn
  rw [hintake] at given
  revert given
  decide +kernel

end Sys2Proof.Machine
end

section
/-! SUPPORT. Words that follow the rules of ends (R206, R208, R209, R297). -/

namespace Sys2Proof.Machine

theorem fireRaw_of_none {s : State} {op : Nat} {w : EWord} (h : firingAt s s.site op w = none) (body : State → Firing → Mode → Body) :
    fireRaw op w body s = .next s := by
  rw [fireRaw, h]

theorem fireRaw_of_some {s : State} {f : Firing} {op : Nat} {w : EWord} (h : firingAt s s.site op w = some f)
    (body : State → Firing → Mode → Body) : fireRaw op w body s = fireOf body s f := by
  rw [fireRaw, h]

/-- A firing behind a closed gate takes its tokens alone (R297). -/
theorem fireOf_of_quiet {s : State} {f : Firing} (hm : modeOf f.heads = .quiet) (body : State → Firing → Mode → Body) :
    fireOf body s f = .next (endFiring (ensureInstance s f) f .quiet []) := by
  simp only [fireOf, hm, if_true]

/-- A firing that its word's meaning lets end. -/
theorem fireOf_of_done {s s2 : State} {f : Firing} {m : Mode} {outs : List (Nat × Token)} {body : State → Firing → Mode → Body}
    (hm : modeOf f.heads = m) (hq : m ≠ .quiet) (hb : body (ensureInstance s f) f m = .done s2 outs) :
    fireOf body s f = .next (endFiring s2 f m outs) := by
  unfold fireOf
  simp only [hm, if_neg hq, hb]

/-- A word whose meaning is in data alone follows the rules of ends. -/
theorem followsEnds_of_fireWord {i : Instr} {s : State} {op : Nat} {e : EWord} (h : ∃ body, exec i s = fireWord op e body s) :
    followsEnds i s op e := by
  obtain ⟨body, h⟩ := h
  rw [followsEnds, h]
  refine ⟨fun none => fireRaw_of_none none _, fun f some => ?_⟩
  have ends : fireWord op e body s = fireOf _ s f := fireRaw_of_some some _
  rw [ends]
  exact ⟨fun hm => fireOf_of_quiet hm _, fun hm => fireOf_of_done hm (by simp) rfl, fun hm => fireOf_of_done hm (by simp) rfl,
    fun hm => fireOf_of_done hm (by simp) rfl, fun hm => fireOf_of_done hm (by simp) rfl⟩

end Sys2Proof.Machine
end

section
/-! SUPPORT. What the end of a firing leaves of its node and of the edges of its graph (R196, R203, R210, R215, R388, R391). -/

namespace Sys2Proof.Machine

/-! ## Nodes by their name -/

theorem find_mapIf {α : Type} {p q : α → Bool} {f : α → α} (hf : ∀ x, q (f x) = q x) (l : List α) :
    (mapIf p f l).find? q = (l.find? q).map fun x => if p x then f x else x := by
  have same : (q ∘ fun x => if p x then f x else x) = q := by
    funext x
    simp only [Function.comp_apply]
    split
    · exact hf x
    · rfl
  rw [mapIf, List.find?_map, same]

/-- The node that an update of its own record gives. -/
theorem nodeOf_setNode {s : State} {r : NodeRef} {f : Node → Node} {n : Node} (hf : ∀ n, (f n).ref = n.ref) (h : nodeOf s r = some n) :
    nodeOf (setNode s r f) r = some (f n) := by
  have hr : (n.ref == r) = true := List.find?_some (p := fun n : Node => n.ref == r) h
  unfold nodeOf at h ⊢
  rw [setNode, find_mapIf (fun x => by rw [hf]), h, Option.map_some, if_pos hr]

/-! ## The edges of graphs -/

/-- What of a graph its edges depend on: all but its records, its containments and its iterations. -/
def Graph.plan (g : Graph) : Graph := { g with tree := [], sealing := [], pool := [] }

/-- The targets of every word stand. -/
def SameEdges (s t : State) : Prop := t.tiles = s.tiles ∧ t.graphs.map Graph.plan = s.graphs.map Graph.plan

theorem graphOfNode_plan (s : State) (n : Node) : (graphOfNode s n).map Graph.plan =
    (s.graphs.map Graph.plan).find? fun g => g.ctx == n.ctx && g.handle == n.handle && !g.retired := by
  rw [List.find?_map]
  rfl

theorem originTile_plan (g : Graph) (id : Nat) : originTile g.plan id = originTile g id := by
  unfold originTile
  split
  · rfl
  · dsimp only
    split <;> rfl

theorem reachNode_plan (g : Graph) (x y : Int) (e : Nat) : reachNode g.plan x y e = reachNode g x y e := rfl

theorem fanoutDest_plan (g : Graph) (x y : Nat) (w : BitVec 64) : fanoutDest g.plan x y w = fanoutDest g x y w := by
  simp only [fanoutDest, reachNode_plan]
  rfl

theorem targetDest_plan (s : State) (g : Graph) (x y : Nat) (t : BitVec 16) (k : Nat) :
    targetDest s g.plan x y t k = targetDest s g x y t k := by
  have fan : fanoutDest g.plan x y = fanoutDest g x y := funext fun w => fanoutDest_plan g x y w
  simp only [targetDest, reachNode_plan, fan]
  rfl

/-- The targets of a word, by the plan of its graph. -/
theorem wordConsumers_plan (s : State) (n : Node) (op : Nat) (e : EWord) (out : Nat) : wordConsumers s n op e out =
    ((graphOfNode s n).map Graph.plan).elim [] fun g =>
      let o := originTile g n.ref.id
      let main := targetDest s g o.1 o.2 (if out = 0 then e.t0 else e.t1) (if out = 0 then e.x.toNat % 256 else e.x.toNat / 256)
      let extra := if op == 0x56 && out == 0 then targetDest s g o.1 o.2 e.x 0 else none
      main.toList ++ extra.toList := by
  unfold wordConsumers
  cases graphOfNode s n with
  | none => rfl
  | some g => simp only [Option.map_some, Option.elim_some, originTile_plan, targetDest_plan]

theorem SameEdges.wordConsumers {s t : State} (h : SameEdges s t) (n : Node) (op : Nat) (e : EWord) (out : Nat) :
    wordConsumers t n op e out = wordConsumers s n op e out := by
  obtain ⟨tiles, graphs⟩ := h
  have target : ∀ g x y d k, targetDest t g x y d k = targetDest s g x y d k := by
    intro g x y d k
    simp only [targetDest, fanoutOf, tiles]
  rw [wordConsumers_plan, wordConsumers_plan, graphOfNode_plan, graphOfNode_plan, graphs]
  simp only [target]

/-! ## What every step of an end keeps -/

/-- A node's store and outputs stand, with more outputs behind them, and so do the edges of graphs. -/
structure FiringKeeps (r : NodeRef) (s t : State) : Prop where
  edges : SameEdges s t
  node : ∀ n, nodeOf s r = some n → ∃ m, nodeOf t r = some m ∧ m.store = n.store ∧ n.outs ⊆ m.outs

namespace FiringKeeps

variable {r : NodeRef} {s t u : State}

theorem of_eq (hn : t.nodes = s.nodes) (ht : t.tiles = s.tiles) (hg : t.graphs.map Graph.plan = s.graphs.map Graph.plan) :
    FiringKeeps r s t :=
  ⟨⟨ht, hg⟩, fun n h => ⟨n, by rw [nodeOf, hn]; exact h, rfl, List.Subset.refl _⟩⟩

theorem refl (s : State) : FiringKeeps r s s := of_eq rfl rfl rfl

theorem trans (h : FiringKeeps r s t) (k : FiringKeeps r t u) : FiringKeeps r s u := by
  refine ⟨⟨k.edges.1.trans h.edges.1, k.edges.2.trans h.edges.2⟩, fun n hn => ?_⟩
  obtain ⟨m, hm, mstore, mouts⟩ := h.node n hn
  obtain ⟨l, hl, lstore, louts⟩ := k.node m hm
  exact ⟨l, hl, lstore.trans mstore, List.Subset.trans mouts louts⟩

theorem ite {c : Prop} [Decidable c] (h : FiringKeeps r s t) (k : FiringKeeps r s u) : FiringKeeps r s (if c then t else u) := by
  split
  · exact h
  · exact k

theorem foldl {α : Type} {f : State → α → State} (hf : ∀ s x, FiringKeeps r s (f s x)) (l : List α) (s : State) :
    FiringKeeps r s (l.foldl f s) := by
  induction l generalizing s with
  | nil => exact refl s
  | cons x rest ih => exact (hf s x).trans (ih _)

theorem setNode {f : Node → Node} (href : ∀ n, (f n).ref = n.ref) (hstore : ∀ n, (f n).store = n.store)
    (houts : ∀ n, n.outs ⊆ (f n).outs) (s : State) : FiringKeeps r s (setNode s r f) :=
  ⟨⟨rfl, rfl⟩, fun n h => ⟨f n, nodeOf_setNode href h, hstore n, houts n⟩⟩

theorem setGraph {f : Graph → Graph} (hf : ∀ g, (f g).plan = g.plan) (s : State) (gid : Nat) :
    FiringKeeps r s (setGraph s gid f) := by
  refine of_eq rfl rfl ?_
  simp only [Machine.setGraph, mapIf, List.map_map]
  refine List.map_congr_left fun g _ => ?_
  simp only [Function.comp_apply]
  split
  · exact hf g
  · rfl

end FiringKeeps

/-! ## Faults -/

section
variable {r : NodeRef}

theorem treeTake_plan (g : Graph) (meet : Bool) (x : FRec) : (g.treeTake meet x).plan = g.plan := by
  unfold Graph.treeTake
  split <;> rfl

theorem climb_firingKeeps (s : State) (gid : Nat) (x : FRec) : FiringKeeps r s (climb s gid x) :=
  (FiringKeeps.setGraph (fun g => treeTake_plan g _ _) s gid).trans (.of_eq rfl rfl rfl)

theorem raiseRec_firingKeeps (s : State) (gid : Nat) (n : NodeRef) (key : Key) (x : FRec) (contain : Bool) :
    FiringKeeps r s (raiseRec s gid n key x contain) := by
  unfold raiseRec
  split
  · exact .refl s
  · dsimp only
    split
    · exact (climb_firingKeeps s gid x).trans (.setGraph (fun _ => by rfl) _ gid)
    · exact climb_firingKeeps s gid x

theorem updInstance_firingKeeps (s : State) (n : NodeRef) (key : Key) (f : Instance → Instance) :
    FiringKeeps r s (updInstance s n key f) := .of_eq rfl rfl rfl

theorem raiseFault_firingKeeps (s : State) (f : Firing) (x : FabFault) : FiringKeeps r s (raiseFault s f x) := by
  unfold raiseFault
  split
  · exact updInstance_firingKeeps _ _ _ _
  · exact raiseRec_firingKeeps _ _ _ _ _ _

/-! ## Sinks -/

theorem holdStore_firingKeeps (s : State) (f : Firing) (h : HeldStore) : FiringKeeps r s (holdStore s f h) := by
  unfold holdStore
  extract_lets add
  exact .ite (updInstance_firingKeeps _ _ _ _) (.ite (updInstance_firingKeeps _ _ _ _) (raiseFault_firingKeeps _ _ _))

theorem LooksUp.firingKeeps {s t : State} {x : Trans} (h : LooksUp s t x) : FiringKeeps r s t := by
  obtain ⟨_, _, _, _, _, rfl, -⟩ := h
  exact .of_eq rfl rfl rfl

theorem setStream_firingKeeps (s : State) (x : StreamRef) (f : Stream → Stream) : FiringKeeps r s (setStream s x f) := .of_eq rfl rfl rfl

theorem sinkData_firingKeeps (s : State) (f : Firing) (x : Stream) (p : Payload) : FiringKeeps r s (sinkData s f x p) := by
  unfold sinkData
  extract_lets h put taken
  have took : ∀ t, FiringKeeps r t (taken t) := fun t => setStream_firingKeeps t _ _
  have placed : ∀ t k, FiringKeeps r t (put t k) := by
    intro t k
    unfold put
    split
    · exact holdStore_firingKeeps _ _ _
    · exact .of_eq rfl rfl rfl
  have looked := (translateWith_looksUp s (.agn x.ref) x.ctx x.part x.ref.die h.va 32 true false false
    fun leaf a => reachCheck s leaf a true false false).firingKeeps (r := r)
  change FiringKeeps r s (translate s (.agn x.ref) x.ctx x.part x.ref.die h.va 32 true false false).1 at looked
  split
  · exact took s
  · split
    · next e =>
      rw [e] at looked
      exact looked.trans ((raiseFault_firingKeeps _ _ _).trans (took _))
    · next e =>
      rw [e] at looked
      exact looked.trans ((placed _ _).trans (took _))
    · next e =>
      rw [e] at looked
      exact looked.trans ((placed _ _).trans (took _))

theorem sinkTake_firingKeeps (f : Firing) (tok : Token) (s : State) (x : Stream) : FiringKeeps r s (sinkTake f tok s x) := by
  unfold sinkTake
  split
  · exact sinkData_firingKeeps _ _ _ _
  · exact setStream_firingKeeps _ _ _
  · exact setStream_firingKeeps _ _ _
  · exact setStream_firingKeeps _ _ _
  · exact .refl s

/-! ## Emission -/

theorem emitOne_firingKeeps (f : Firing) (loc : Bool) (s : State) (x : Nat × Token) : FiringKeeps f.n.ref s (emitOne f loc s x) := by
  unfold emitOne emitTo
  extract_lets ds s1
  have h1 : FiringKeeps f.n.ref s s1 := by
    unfold s1
    split
    · exact .refl s
    · exact .setNode (fun _ => by rfl) (fun _ => by rfl) (fun n => List.subset_append_left n.outs _) s
  split
  · exact h1.trans (.foldl (fun s t => sinkTake_firingKeeps f x.2 s t) _ _)
  · exact h1

theorem emitAll_firingKeeps (f : Firing) (loc : Bool) (outs : List (Nat × Token)) (s : State) :
    FiringKeeps f.n.ref s (emitAll s f loc outs) := .foldl (emitOne_firingKeeps f loc) outs s

/-- An output that has consumers holds its token for all of them (R203). -/
theorem emitOne_outs {f : Firing} {s : State} {x : Nat × Token} {n : Node} (hn : nodeOf s f.n.ref = some n)
    (hds : wordConsumers s f.n f.op f.w x.1 ≠ []) : ∃ m, nodeOf (emitOne f false s x) f.n.ref = some m ∧
      { slot := f.slot, out := x.1, tok := x.2, pend := wordConsumers s f.n f.op f.w x.1 } ∈ m.outs := by
  have all : (wordConsumers s f.n f.op f.w x.1).filter (fun d => !false || inTile f.n.ref d.node) = wordConsumers s f.n f.op f.w x.1 :=
    List.filter_eq_self.2 fun _ _ => rfl
  have put := nodeOf_setNode (f := fun n : Node => { n with
    outs := n.outs ++ [{ slot := f.slot, out := x.1, tok := x.2, pend := wordConsumers s f.n f.op f.w x.1 }] }) (fun _ => rfl) hn
  unfold emitOne emitTo
  simp only [all, List.isEmpty_iff, if_neg hds]
  split
  · obtain ⟨m, hm, -, houts⟩ := (FiringKeeps.foldl (fun s t => sinkTake_firingKeeps (r := f.n.ref) f x.2 s t) _ _).node _ put
    exact ⟨m, hm, houts (List.mem_append_right _ (List.mem_singleton.2 rfl))⟩
  · exact ⟨_, put, List.mem_append_right _ (List.mem_singleton.2 rfl)⟩

theorem emitAll_outs {f : Firing} {outs : List (Nat × Token)} {s : State} {n : Node} (hn : nodeOf s f.n.ref = some n)
    {x : Nat × Token} (hx : x ∈ outs) (hds : wordConsumers s f.n f.op f.w x.1 ≠ []) :
    ∃ m, nodeOf (emitAll s f false outs) f.n.ref = some m ∧
      { slot := f.slot, out := x.1, tok := x.2, pend := wordConsumers s f.n f.op f.w x.1 } ∈ m.outs := by
  induction outs generalizing s n with
  | nil => exact absurd hx List.not_mem_nil
  | cons y rest ih =>
    rcases List.mem_cons.1 hx with rfl | hx
    · obtain ⟨m, hm, hout⟩ := emitOne_outs hn hds
      obtain ⟨l, hl, -, houts⟩ := (emitAll_firingKeeps f false rest _).node m hm
      exact ⟨l, hl, houts hout⟩
    · have first := emitOne_firingKeeps f false s y
      obtain ⟨m, hm, -, -⟩ := first.node n hn
      have same := first.edges.wordConsumers f.n f.op f.w x.1
      rw [← same] at hds ⊢
      exact ih hm hx hds

/-! ## Exits and the ends of iterations -/

theorem markLink_firingKeeps (s : State) (f : Firing) : FiringKeeps f.n.ref s (markLink s f) := by
  unfold markLink updLink
  refine .ite (.refl s) (.setNode ?_ ?_ ?_ s)
  · exact fun _ => rfl
  · exact fun _ => rfl
  · exact fun n => List.Subset.refl n.outs

theorem markExit_firingKeeps (s : State) (f : Firing) : FiringKeeps r s (markExit s f) := by
  unfold markExit
  split
  · exact .refl s
  · dsimp only
    split
    · exact updInstance_firingKeeps _ _ _ _
    · split
      · exact (FiringKeeps.foldl (fun s x => raiseRec_firingKeeps _ _ _ _ _ _) _ s).trans (.of_eq rfl rfl rfl)
      · exact updInstance_firingKeeps _ _ _ _

theorem endIterations_firingKeeps (s : State) (g : Graph) : FiringKeeps r s (endIterations s g) := .setGraph (fun _ => by rfl) s g.gid

theorem dropPartials_firingKeeps (s : State) (f : Firing) : FiringKeeps r s (dropPartials s f) := by
  unfold dropPartials
  dsimp only
  split
  · exact .of_eq rfl rfl rfl
  · exact .of_eq rfl rfl rfl

end

/-! ## Taken tokens -/

/-- A node whose store has lost the tokens of some arrivals. -/
def Taken (f : Firing) (n m : Node) : Prop := m.ref = n.ref ∧ ∀ h ∈ f.heads, ∀ k ∈ m.store, k.arr ≠ h.arr

theorem unspill_arr {n : Node} {k : Held} (h : k ∈ (unspill n).store) : ∃ x ∈ n.store, x.arr = k.arr := by
  obtain ⟨x, hx, rfl⟩ := List.mem_map.1 h
  refine ⟨x, hx, ?_⟩
  split <;> rfl

theorem Taken.unspill {f : Firing} {n m : Node} (h : Taken f n m) : Taken f n (unspill m) := by
  refine ⟨h.1, fun x hx k hk => ?_⟩
  obtain ⟨y, hy, harr⟩ := unspill_arr hk
  exact harr ▸ h.2 x hx y hy

theorem dropOthers_ref (n : Node) (slot : Nat) (key : Key) (o : Opd) : (dropOthers n slot key o).ref = n.ref := by
  unfold dropOthers
  dsimp only
  split <;> rfl

theorem foldl_dropOthers_ref (slot : Nat) (key : Key) (os : List Opd) (n : Node) :
    (os.foldl (fun n o => dropOthers n slot key o) n).ref = n.ref := by
  induction os generalizing n with
  | nil => rfl
  | cons o rest ih => exact (ih _).trans (dropOthers_ref n slot key o)

theorem dropOthers_store_subset (n : Node) (slot : Nat) (key : Key) (o : Opd) : (dropOthers n slot key o).store ⊆ n.store := by
  unfold dropOthers
  dsimp only
  split
  · exact List.filter_subset_self _
  · exact List.filter_subset_self _

theorem Taken.dropOthers {f : Firing} {n m : Node} (h : Taken f n m) (slot : Nat) (key : Key) (o : Opd) :
    Taken f n (dropOthers m slot key o) :=
  ⟨(dropOthers_ref m slot key o).trans h.1, fun x hx k hk => h.2 x hx k (dropOthers_store_subset m slot key o hk)⟩

theorem Taken.foldl_dropOthers {f : Firing} {n : Node} (slot : Nat) (key : Key) (os : List Opd) {m : Node} (h : Taken f n m) :
    Taken f n (os.foldl (fun n o => Machine.dropOthers n slot key o) m) := by
  induction os generalizing m with
  | nil => exact h
  | cons o rest ih => exact ih (h.dropOthers slot key o)

/-- The tokens that a firing takes leave its node's store (R196, R198). -/
theorem takeTokens_node {s : State} {f : Firing} {n : Node} (h : nodeOf s f.n.ref = some n) (m : Mode) :
    SameEdges s (takeTokens s f m) ∧ ∃ k, nodeOf (takeTokens s f m) f.n.ref = some k ∧ Taken f n k := by
  unfold takeTokens
  extract_lets s1 others s2
  have h1 : SameEdges s s1 ∧ ∃ k, nodeOf s1 f.n.ref = some k ∧ Taken f n k := by
    refine ⟨⟨rfl, rfl⟩, _, nodeOf_setNode (fun _ => rfl) h, Taken.unspill ⟨rfl, fun x hx k hk e => ?_⟩⟩
    have kept := List.of_mem_filter hk
    have gone : (f.heads.any fun x => x.arr == k.arr) = true := List.any_eq_true.2 ⟨x, hx, by rw [e]; exact beq_self_eq_true _⟩
    rw [gone] at kept
    exact absurd kept (by decide)
  have h2 : SameEdges s s2 ∧ ∃ k, nodeOf s2 f.n.ref = some k ∧ Taken f n k := by
    obtain ⟨edges, k, hk, taken⟩ := h1
    unfold s2
    split
    · refine ⟨edges, _, nodeOf_setNode (fun n => ?_) hk, (taken.foldl_dropOthers _ _ _).unspill⟩
      change (others.foldl (fun n o => dropOthers n f.slot f.key o) n).ref = n.ref
      exact foldl_dropOthers_ref _ _ _ n
    · exact ⟨edges, k, hk, taken⟩
  split
  · exact h2
  · exact h2

/-! ## Graphs that retire -/

/-- What is found among records without some is the first of all, where the test holds of none or of every one that goes. -/
theorem find_filter_eq_some {α : Type} {p q : α → Bool} {x : α} (l : List α) (hp : ∀ y, q y = true → p y = p x)
    (h : (l.filter p).find? q = some x) : l.find? q = some x := by
  have hx : p x = true := List.of_mem_filter (List.mem_of_find?_eq_some h)
  rw [List.find?_filter] at h
  rw [← h]
  refine List.find?_congr fun y _ => ?_
  cases hq : q y with
  | false => simp
  | true => simp [hp y hq, hx]

theorem nodeOf_retireGraph {s : State} {g : Graph} {r : NodeRef} {n : Node} (h : nodeOf (retireGraph s g) r = some n) :
    nodeOf s r = some n := by
  obtain ⟨gone, hgone⟩ : ∃ gone : List NodeRef, (retireGraph s g).nodes = s.nodes.filter fun n => !gone.contains n.ref := by
    have kept : ∀ refs : List NodeRef, (refs.foldl unpinNode (logRecords s g)).nodes = s.nodes := fun refs =>
      (foldl_keeps (p := State.nodes) (fun _ _ => by rfl) refs _).trans (logRecords_nodes s g)
    refine ⟨(graphNodes (logRecords s g) g).map Node.ref, ?_⟩
    rw [← kept]
    rfl
  have hr : n.ref = r := by simpa using List.find?_some (p := fun n : Node => n.ref == r) h
  rw [nodeOf, hgone] at h
  refine find_filter_eq_some _ (fun m hm => ?_) h
  rw [show m.ref = r by simpa using hm, hr]

/-- A node that stays when the state settles is as it was. -/
theorem nodeOf_settle {s : State} {r : NodeRef} {n : Node} (h : nodeOf (settle s) r = some n) : nodeOf s r = some n := by
  have each : ∀ (l : List Graph) (t : State), nodeOf (l.foldl (fun s g => runArbiter (retireGraph s g) g.part) t) r = some n →
      nodeOf t r = some n := by
    intro l
    induction l with
    | nil => exact fun _ h => h
    | cons g rest ih =>
      intro t h
      have one : nodeOf (runArbiter (retireGraph t g) g.part) r = some n := ih _ h
      rw [nodeOf, runArbiter, (arbitrated_arbitrate _ _).nodes] at one
      exact nodeOf_retireGraph one
  exact each _ s h

/-! ## The end of a firing -/

/-- An output of a firing holds its token for all its consumers, and the tokens that the firing has taken are gone. -/
theorem endFiring_node {s : State} {f : Firing} {m : Mode} {outs : List (Nat × Token)} {n : Node} (hf : nodeOf s f.n.ref = some f.n)
    (hexc : excepted s f = false) (hn : nodeOf (endFiring s f m outs) f.n.ref = some n) :
    (∀ h ∈ f.heads, ∀ k ∈ n.store, k.arr ≠ h.arr) ∧
    ∀ x ∈ outs, wordConsumers s f.n f.op f.w x.1 ≠ [] →
      { slot := f.slot, out := x.1, tok := x.2, pend := wordConsumers s f.n f.op f.w x.1 } ∈ n.outs := by
  have leaves : muted s f m = false := by rw [muted, hexc, Bool.false_and]
  rw [endFiring, leaves] at hn
  unfold endFiringAt at hn
  extract_lets linked emitted exited at hn
  replace hn := nodeOf_settle hn
  have begun : FiringKeeps f.n.ref s (dropPartials s f) := dropPartials_firingKeeps s f
  obtain ⟨n0, hn0, -, -⟩ := begun.node _ hf
  obtain ⟨edges, n1, hn1, -, taken⟩ := takeTokens_node hn0 m
  have linking : FiringKeeps f.n.ref _ linked := markLink_firingKeeps _ f
  obtain ⟨n2, hn2, store2, -⟩ := linking.node _ hn1
  have emitting : FiringKeeps f.n.ref linked emitted := emitAll_firingKeeps f false outs linked
  have ending : FiringKeeps f.n.ref emitted (endIterations exited f.g) :=
    (FiringKeeps.ite (markExit_firingKeeps _ f) (.refl _)).trans (endIterations_firingKeeps _ f.g)
  constructor
  · obtain ⟨n3, hn3, store3, -⟩ := (emitting.trans ending).node _ hn2
    obtain rfl : n3 = n := Option.some.inj (hn3.symm.trans hn)
    rw [store3, store2]
    exact taken
  · intro x hx hds
    have same : wordConsumers linked f.n f.op f.w x.1 = wordConsumers s f.n f.op f.w x.1 :=
      (linking.edges.wordConsumers _ _ _ _).trans ((edges.wordConsumers _ _ _ _).trans (begun.edges.wordConsumers _ _ _ _))
    rw [← same] at hds ⊢
    obtain ⟨n3, hn3, hout⟩ := emitAll_outs hn2 hx hds
    obtain ⟨n4, hn4, -, houts⟩ := ending.node _ hn3
    obtain rfl : n4 = n := Option.some.inj (hn4.symm.trans hn)
    exact houts hout

/-- Settles O34: the store and the outputs stand from the firing on, and every word listed has its meaning in data alone. -/
theorem firingsTakeAndEmit : Obligations.FiringsTakeAndEmit := by
  unfold Obligations.FiringsTakeAndEmit
  refine ⟨fun s f m outs n hf hexc hn => endFiring_node hf hexc hn, fun s e x hx => followsEnds_of_fireWord ?_⟩
  revert x hx
  simp only [List.forall_mem_append, List.forall_mem_cons, List.not_mem_nil, false_imp_iff, implies_true, and_true]
  and_intros <;> exact ⟨_, rfl⟩

end Sys2Proof.Machine
end

section
/-! SUPPORT. The dataflow words, WADV apart: steering, merging, gates and tags (R205 to R209, R297, R307, R308, R310 to R315,
R328, R329). -/

namespace Sys2Proof.Machine

/-! ## Paths -/

theorem toNat_getLsbD_zero {w : Nat} (x : BitVec w) : (x.getLsbD 0).toNat = x.toNat % 2 := by
  rw [BitVec.getLsbD, Nat.testBit_zero]
  rcases Nat.mod_two_eq_zero_or_one x.toNat with h | h <;> simp [h]

theorem getLsbD_zero_iff {w : Nat} (x : BitVec w) : x.getLsbD 0 = true ↔ x.toNat % 2 = 1 := by
  rw [BitVec.getLsbD, Nat.testBit_zero, decide_eq_true_iff]

/-- A decision pushed doubles the path and stands lowest (R205). -/
theorem pushPath_eq (p : BitVec 8) (d : Bool) : pushPath p d = BitVec.ofNat 8 (2 * p.toNat + d.toNat) := by
  unfold pushPath
  cases d with
  | false =>
    rw [if_neg (by decide), BitVec.ofNat_eq_ofNat, BitVec.or_zero, Bool.toNat_false]
    bv_omega
  | true =>
    have apart : p <<< 1 ||| 1#8 = (p <<< 1) + 1#8 := by
      refine (BitVec.add_eq_or_of_and_eq_zero _ _ (BitVec.eq_of_getLsbD_eq fun i _ => ?_)).symm
      cases i <;> simp
    rw [if_pos rfl, BitVec.ofNat_eq_ofNat, apart, Bool.toNat_true]
    bv_omega

theorem popPath_eq (p : BitVec 8) : popPath p = BitVec.ofNat 8 (p.toNat / 2) := by
  unfold popPath
  bv_omega

/-! ## STEER and STEERC -/

/-- A token of a firing with a decision on its path. -/
def Firing.steered (f : Firing) (k : Kind) (p : Payload) (d : Nat) : Token :=
  { key := { f.key with path := BitVec.ofNat 8 (2 * f.key.path.toNat + d) }, seq := f.seq, kind := k, payload := p }

theorem pushed_eq_steered (f : Firing) (k : Kind) (p : Payload) (d : Bool) : f.pushed k p d = f.steered k p d.toNat := by
  rw [Firing.pushed, pushPath_eq]
  rfl

/-- What STEER, and STEERC with its cancel token, emit of data: to the output that b names (R307). -/
def Firing.steers (f : Firing) (cancelOther : Bool) : List (Nat × Token) :=
  let d := (f.pay .b).toNat % 2
  (d, f.steered .data (f.pay .a) d) :: if cancelOther then [(1 - d, f.steered .cancel 0 (1 - d))] else []

/-- SMISM where ends are mixed with data (R208). -/
def Firing.judged (f : Firing) (s : State) (m : Mode) : State := if m = .mixed then raiseFault s f (fabCode 0x25) else s

theorem steerBody_fire (cancelOther : Bool) (s : State) (f : Firing) :
    steerBody cancelOther s f .fire = .done s (f.steers cancelOther) := by
  unfold steerBody Firing.steers
  simp only [pushed_eq_steered, ← toNat_getLsbD_zero]
  cases (f.pay .b).getLsbD 0 <;> cases cancelOther <;> rfl

theorem steerBody_ends (cancelOther : Bool) (s : State) (f : Firing) {m : Mode} (hm : m ≠ .fire) :
    steerBody cancelOther s f m = .done (f.judged s m) [(0, f.steered m.kind 0 0), (1, f.steered m.kind 0 1)] := by
  unfold steerBody
  simp only [pushed_eq_steered]
  cases m with
  | fire => exact absurd rfl hm
  | _ => rfl

section
variable {i : Instr} {s : State} {op : Nat} {e : EWord}

/-- A firing on data that its word's meaning lets end. -/
theorem fires_of_fireRaw_done {body : State → Firing → Mode → Body} (h : exec i s = fireRaw op e body s) {g : Firing → State}
    {out : Firing → List (Nat × Token)} (hb : ∀ f, body (ensureInstance s f) f .fire = .done (g f) (out f)) :
    fires i s op e fun f t => endsWith (g f) f (out f) t :=
  fun f some hm => ⟨_, h.trans ((fireRaw_of_some some body).trans (fireOf_of_done hm (by simp) (hb f))), rfl⟩

/-- The same of a word that has its meaning in data alone. -/
theorem fires_of_done {body : State → Firing → Body} (h : exec i s = fireWord op e body s) {g : Firing → State}
    {out : Firing → List (Nat × Token)} (hb : ∀ f, body (ensureInstance s f) f = .done (g f) (out f)) :
    fires i s op e fun f t => endsWith (g f) f (out f) t :=
  fires_of_fireRaw_done h hb

/-- A word whose result is a payload sends it on both outputs. -/
theorem fires_of_payload {val val' : Firing → Payload} (h : exec i s = firePure op e val s) (hv : ∀ f, val f = val' f) :
    fires i s op e fun f t => endsWith (ensureInstance s f) f (both (f.token (val' f))) t :=
  fires_of_done h fun f => by rw [hv]

theorem givesLanes_of_payload {val : Firing → Payload} {w : Nat} {g : Firing → Nat → Nat} (h : exec i s = firePure op e val s)
    (hv : ∀ f l, l < 256 / w → lane (val f) w l = g f l % 2 ^ w) : givesLanes i s op e w false g := by
  intro f hfire hm
  obtain ⟨t, ht, ends⟩ := fires_of_payload h (fun _ => rfl) f hfire hm
  exact ⟨t, ht, val f, hv f, ends⟩

variable {cancelOther : Bool} (h : exec i s = fireRaw op e (steerBody cancelOther) s)
include h

theorem steer_fires : fires i s op e fun f t => endsWith (ensureInstance s f) f (f.steers cancelOther) t :=
  fires_of_fireRaw_done h fun f => steerBody_fire cancelOther _ f

/-- A token that is no data goes to both outputs, each with its own decision (R206, R307). -/
theorem steer_ends :
    (firingAt s s.site op e = none → exec i s = .next s) ∧
    ∀ f, firingAt s s.site op e = some f →
      (modeOf f.heads = .quiet → exec i s = .next (endFiring (ensureInstance s f) f .quiet [])) ∧
      ∀ x ∈ [(Mode.cancel, Kind.cancel), (.ends, .eos), (.eeos, .eeos), (.mixed, .eeos)], modeOf f.heads = x.1 →
        exec i s = .next (endFiring (f.judged (ensureInstance s f) x.1) f x.1 [(0, f.steered x.2 0 0), (1, f.steered x.2 0 1)]) := by
  rw [h]
  refine ⟨fun none => fireRaw_of_none none _, fun f some => ?_⟩
  rw [fireRaw_of_some some]
  have each : ∀ m : Mode, m ≠ .fire → m ≠ .quiet → modeOf f.heads = m → fireOf (steerBody cancelOther) s f =
      .next (endFiring (f.judged (ensureInstance s f) m) f m [(0, f.steered m.kind 0 0), (1, f.steered m.kind 0 1)]) :=
    fun m hf hq hm => fireOf_of_done hm hq (steerBody_ends cancelOther _ f hf)
  refine ⟨fun hm => fireOf_of_quiet hm _, ?_⟩
  simp only [List.forall_mem_cons, List.not_mem_nil, false_imp_iff, implies_true, and_true]
  exact ⟨each .cancel (by simp) (by simp), each .ends (by simp) (by simp), each .eeos (by simp) (by simp), each .mixed (by simp) (by simp)⟩

end

/-! ## MERGE -/

theorem mergeAstray_iff (f : Firing) :
    mergeAstray f = true ↔ ∃ h, mergeHead f = some h ∧ ¬(h.opd = .b ↔ f.key.path.toNat % 2 = 1) := by
  unfold mergeAstray
  rw [Option.any_eq_true]
  refine exists_congr fun h => and_congr_right fun _ => ?_
  rw [bne_iff_ne, Ne, Bool.eq_iff_iff, beq_iff_eq, getLsbD_zero_iff]

/-- The popped key of a MERGE's output (R205). -/
def poppedKey (k : Key) : Key := { k with path := BitVec.ofNat 8 (k.path.toNat / 2) }

/-- What a MERGE emits. -/
def Firing.merged (f : Firing) (k : Kind) (p : Payload) : List (Nat × Token) :=
  both { key := poppedKey f.key, seq := f.seq, kind := k, payload := p }

theorem popped_eq_merged (f : Firing) (k : Kind) (p : Payload) : f.popped k p = f.merged k p := by
  rw [Firing.popped, popPath_eq]
  rfl

/-- Whether an EOS that a MERGE holds is that of the other side and an equal popped key (R308). -/
def otherSide (f : Firing) (h : Held) (x : Nat × Opd × Token) : Bool :=
  x.1 == f.slot && x.2.1 == (if h.opd = .a then .b else .a) && poppedKey x.2.2.key == poppedKey f.key

theorem mergeEnd_eq (s : State) (f : Firing) (h : Held) : mergeEnd s f h = match f.n.ends.find? (otherSide f h) with
    | some x => .done (setNode s f.n.ref fun n => { n with ends := n.ends.erase x }) (f.merged .eos 0)
    | none => .done (setNode s f.n.ref fun n => { n with ends := n.ends ++ [(f.slot, h.opd, h.tok)] }) [] := by
  unfold mergeEnd
  simp only [popPath_eq, popped_eq_merged]
  rfl

theorem merge_of_none {s : State} {e : EWord} (h : firingAt s s.site 0x52 e = none) : exec (.merge e) s = .next s := by
  show execMerge e s = _
  rw [execMerge, h]

section
variable {s : State} {e : EWord} {f0 : Firing} (hfire : firingAt s s.site 0x52 e = some f0)
include hfire

/-- A token of the wrong side raises SMISM and is taken; an EEOS of the gate is passed on beside it (R209, R308). -/
theorem merge_of_astray (h : mergeAstray (mergeFiring f0) = true) : exec (.merge e) s =
    let f := mergeFiring f0
    let s1 := raiseFault (ensureInstance s f) f (fabCode 0x25)
    if f.heads.any fun h => h.opd == .g && h.tok.kind == .eeos then .next (endFiring s1 f .eeos (f.merged .eeos 0))
    else .next (endFiring s1 f .fire []) := by
  show execMerge e s = _
  unfold execMerge
  simp only [hfire, h, if_true, popped_eq_merged]

theorem merge_of_sided (h : mergeAstray (mergeFiring f0) = false) : exec (.merge e) s = fireOf mergeBody s (mergeFiring f0) := by
  show execMerge e s = _
  unfold execMerge
  simp only [hfire, h, Bool.false_eq_true, if_false]

end

/-- What a MERGE does with tokens that are no data, EOS apart: CANCEL is absorbed, and EEOS goes on (R206, R208, R209). -/
theorem mergeBody_of_no_data (s : State) (f : Firing) :
    mergeBody s f .cancel = .done s [] ∧ mergeBody s f .eeos = .done s (f.merged .eeos 0) ∧
    mergeBody s f .mixed = .done (raiseFault s f (fabCode 0x25)) (f.merged .eeos 0) := by
  rw [← popped_eq_merged]
  unfold mergeBody
  cases mergeHead f <;> exact ⟨rfl, rfl, rfl⟩

theorem mergeBody_of_head (s : State) {f : Firing} {h : Held} (hh : mergeHead f = some h) :
    mergeBody s f .fire = .done s (f.merged .data h.tok.payload) ∧ mergeBody s f .ends = mergeEnd s f h := by
  rw [← popped_eq_merged]
  simp only [mergeBody, hh, and_self]

/-! ## SINK and TRAPE -/

theorem sink_of_none {s : State} {e : EWord} (h : firingAt s s.site 0x58 e = none) : exec (.sink e) s = .next s := fireRaw_of_none h _

theorem sink_fires {s : State} {e : EWord} {f : Firing} (hfire : firingAt s s.site 0x58 e = some f) : exec (.sink e) s =
    .next (endFiring (f.judged (ensureInstance s f) (modeOf f.heads)) f (modeOf f.heads) []) := by
  refine (fireRaw_of_some hfire _).trans ?_
  by_cases hq : modeOf f.heads = .quiet
  · rw [fireOf_of_quiet hq, hq]
    rfl
  · exact fireOf_of_done rfl hq rfl

/-- TRAPE raises its code or passes its operand (R329). -/
theorem trape_fires (s : State) (e : EWord) : fires (.trape e) s 0xF1 e fun f t =>
    if e.mod.toNat % 2 = 1 ∨ (f.pay .a).toNat % 2 = 1
    then t = endFault (ensureInstance s f) f { code := 0x29, cause := 0, aux := e.x.toNat, addr := 0 }
    else endsWith (ensureInstance s f) f (both (f.token (f.pay .a))) t := by
  intro f hfire hm
  by_cases raised : e.mod.toNat % 2 = 1 ∨ (f.pay .a).toNat % 2 = 1
  · refine ⟨_, (fireWord_of_fires hfire hm _).trans ?_, (if_pos raised).mpr rfl⟩
    rw [if_pos (by rwa [Bool.or_eq_true, getLsbD_zero_iff, getLsbD_zero_iff])]
    rfl
  · refine ⟨_, (fireWord_of_fires hfire hm _).trans ?_, (if_neg raised).mpr rfl⟩
    rw [if_neg (by rwa [Bool.or_eq_true, getLsbD_zero_iff, getLsbD_zero_iff])]
    rfl

/-! ## Lanes -/

theorem ofLanes_lt (w : Nat) (l : List Nat) : ofLanes w l < 2 ^ (w * l.length) := by
  induction l with
  | nil => simp [ofLanes]
  | cons x xs ih =>
    have low : x % 2 ^ w < 2 ^ w := Nat.mod_lt _ (Nat.two_pow_pos w)
    calc ofLanes w (x :: xs) = x % 2 ^ w + 2 ^ w * ofLanes w xs := rfl
      _ < 2 ^ w * (ofLanes w xs + 1) := by rw [Nat.mul_add]; omega
      _ ≤ 2 ^ w * 2 ^ (w * xs.length) := Nat.mul_le_mul_left _ ih
      _ = 2 ^ (w * (x :: xs).length) := by rw [← Nat.pow_add, List.length_cons, Nat.mul_add, Nat.mul_one, Nat.add_comm]

theorem ofLanes_lane (w : Nat) (l : List Nat) {j : Nat} (hj : j < l.length) : ofLanes w l / 2 ^ (w * j) % 2 ^ w = l[j] % 2 ^ w := by
  induction l generalizing j with
  | nil => exact absurd hj (Nat.not_lt_zero j)
  | cons x xs ih =>
    cases j with
    | zero => simp [ofLanes]
    | succ j =>
      have step : ofLanes w (x :: xs) / 2 ^ w = ofLanes w xs := by
        rw [ofLanes, Nat.add_mul_div_left _ _ (Nat.two_pow_pos w), Nat.div_eq_of_lt (Nat.mod_lt _ (Nat.two_pow_pos w)), Nat.zero_add]
      rw [Nat.mul_add, Nat.mul_one, Nat.add_comm (w * j), Nat.pow_add, ← Nat.div_div_eq_div_mul, step]
      exact ih (Nat.lt_of_succ_lt_succ hj)

/-- A payload made of lanes has them (R230). -/
theorem lane_mapLanes (w : Nat) (g : Nat → Nat) {l : Nat} (hl : l < 256 / w) : lane (mapLanes w g) w l = g l % 2 ^ w := by
  have fits : ofLanes w ((List.range (256 / w)).map g) < 2 ^ 256 := by
    refine Nat.lt_of_lt_of_le (ofLanes_lt w _) (Nat.pow_le_pow_right (by decide) ?_)
    rw [List.length_map, List.length_range]
    exact Nat.mul_div_le 256 w
  rw [lane, mapLanes, BitVec.toNat_ofNat, Nat.mod_eq_of_lt fits, ofLanes_lane w _ (by simpa using hl)]
  simp

end Sys2Proof.Machine
end

section
/-! SUPPORT. WADV and the tag allocator (R197, R211, R212, R309). -/

namespace Sys2Proof.Machine

/-! ## A firing that waits -/

theorem hasBlock_of_nodes {s t : State} (h : t.nodes = s.nodes) (r : NodeRef) : hasBlock t r = hasBlock s r := by
  simp only [hasBlock, blkxSlots, nodeOf, h]

/-- What a firing of a block logs stands among the records of blocks alone. -/
theorem reserveLog_frame {s : State} {f : Firing} (h : hasBlock s f.n.ref = true) (l : List Instance) :
    { reserveLog s f with instances := l } = { s with instances := l } := by
  have fault : { raiseFault s f (fabCode 0x24) with instances := l } = { s with instances := l } := by
    rw [raiseFault, if_pos h]
    rfl
  unfold reserveLog
  dsimp only
  split
  · rfl
  · split
    · rfl
    · split
      · rfl
      · exact fault

/-- With the records of blocks as they were, what a firing begins with is undone. -/
theorem ensureInstance_undone (s : State) (f : Firing) : { ensureInstance s f with instances := s.instances } = s := by
  unfold ensureInstance
  cases hb : hasBlock s f.n.ref with
  | false => rfl
  | true =>
    have block : ∀ t : State, t.nodes = s.nodes → hasBlock t f.n.ref = true := fun t ht => (hasBlock_of_nodes ht _).trans hb
    simp only [Bool.not_true, Bool.false_eq_true, if_false]
    split
    · refine reserveLog_frame (block _ ?_) s.instances
      rfl
    · refine reserveLog_frame (block _ ?_) s.instances
      rfl

theorem fireOf_of_wait {s s2 : State} {f : Firing} {m : Mode} {body : State → Firing → Mode → Body}
    (hm : modeOf f.heads = m) (hq : m ≠ .quiet) (hb : body (ensureInstance s f) f m = .wait s2) :
    fireOf body s f = .next { s2 with instances := s.instances } := by
  unfold fireOf
  simp only [hm, if_neg hq, hb]

theorem fireOf_of_silent_fault {s s2 : State} {f : Firing} {m : Mode} {x : FabFault} {body : State → Firing → Mode → Body}
    (hm : modeOf f.heads = m) (hq : m ≠ .quiet) (hb : body (ensureInstance s f) f m = .fault s2 x true) :
    fireOf body s f = .next (endFiring (raiseFault s2 f x) f .fire []) := by
  unfold fireOf
  simp only [hm, if_neg hq, hb, if_true]

theorem fireRaw_next (op : Nat) (w : EWord) (body : State → Firing → Mode → Body) (s : State) : ∃ t, fireRaw op w body s = .next t := by
  unfold fireRaw fireOf
  split
  · exact ⟨_, rfl⟩
  · dsimp only
    split
    · exact ⟨_, rfl⟩
    · split <;> exact ⟨_, rfl⟩

/-! ## Grants -/

/-- A grant is of the iteration that is asked for, at a free place of the loop's window (R211, R212). -/
theorem grantFor_eq_some {g : Graph} {loop parent : BitVec 16} {ordinal : Nat} {x : PoolEntry} (h : grantFor g loop parent ordinal = some x) :
    x.loop = loop ∧ x.parent = parent ∧ x.ordinal = ordinal ∧ ∀ y ∈ g.pool, y.loop = loop → y.pos ≠ x.pos := by
  unfold grantFor at h
  split at h
  · cases h
  · dsimp only at h
    split at h
    · cases h
    · next free =>
      split at h
      · cases h
      · cases h
        refine ⟨rfl, rfl, rfl, fun y hy hl hp => free (List.any_eq_true.2 ⟨y, hy, ?_⟩)⟩
        rw [Bool.and_eq_true, beq_iff_eq, beq_iff_eq]
        exact ⟨hl, hp⟩

/-! ## WADV -/

theorem wadvMode_eq (e : EWord) : wadvMode e = e.mod.toNat % 4 := by
  rw [wadvMode, BitVec.extractLsb'_toNat, Nat.shiftRight_zero]

/-- What a WADV finds for its output. -/
def wadvPlan (e : EWord) (f : Firing) : Wave := wavePlan f.g (wadvMode e) e.x f.key.iter

theorem wadv_of_none {s : State} {e : EWord} (h : firingAt s s.site 0x53 e = none) : exec (.wadv e) s = .next s := fireRaw_of_none h _

section
variable {s : State} {e : EWord} {f : Firing} (hfire : firingAt s s.site 0x53 e = some f)
include hfire

theorem wadv_of_quiet (hm : modeOf f.heads = .quiet) :
    exec (.wadv e) s = .next (endFiring (ensureInstance s f) f (modeOf f.heads) []) := by
  rw [hm]
  exact (fireRaw_of_some hfire _).trans (fireOf_of_quiet hm _)

theorem wadv_of_tagx (hm : modeOf f.heads = .fire) (hp : wadvPlan e f = .tagx) :
    exec (.wadv e) s = .next (endFiring (raiseFault (ensureInstance s f) f (fabCode 0x26)) f (modeOf f.heads) []) := by
  unfold wadvPlan at hp
  rw [hm]
  exact (fireRaw_of_some hfire _).trans (fireOf_of_silent_fault hm (by simp) (by simp only [hp]))

/-- A WADV whose iteration is mapped gives a token of its mode's kind that ITER (R309). -/
theorem wadv_of_mapped {i : BitVec 16} (hp : wadvPlan e f = .mapped i) {m : Mode} (hm : modeOf f.heads = m) (hq : m ≠ .quiet)
    (hx : m ≠ .mixed) :
    exec (.wadv e) s = .next (endFiring (ensureInstance s f) f (modeOf f.heads) (f.withIter m.kind i)) := by
  unfold wadvPlan at hp
  rw [hm]
  refine (fireRaw_of_some hfire _).trans (fireOf_of_done hm hq ?_)
  cases m with
  | quiet => exact absurd rfl hq
  | mixed => exact absurd rfl hx
  | _ => simp only [hp, Mode.kind]

theorem wadv_of_mapped_mixed {i : BitVec 16} (hp : wadvPlan e f = .mapped i) (hm : modeOf f.heads = .mixed) : exec (.wadv e) s =
    .next (endFiring (raiseFault (ensureInstance s f) f (fabCode 0x25)) f .mixed (f.withIter .eeos i)) := by
  unfold wadvPlan at hp
  exact (fireRaw_of_some hfire _).trans (fireOf_of_done hm (by simp) (by simp only [hp]))

/-- Where no iteration is mapped, cancel tokens and ends are absorbed (R309). -/
theorem wadv_absorbs (hp : ∀ i, wadvPlan e f ≠ .mapped i) (hm : modeOf f.heads = .cancel ∨ modeOf f.heads = .ends) :
    exec (.wadv e) s = .next (endFiring (ensureInstance s f) f (modeOf f.heads) []) := by
  unfold wadvPlan at hp
  have hq : modeOf f.heads ≠ .quiet := by rcases hm with h | h <;> simp [h]
  refine (fireRaw_of_some hfire _).trans (fireOf_of_done rfl hq ?_)
  cases hw : wavePlan f.g (wadvMode e) e.x f.key.iter with
  | mapped i => exact absurd hw (hp i)
  | _ => rcases hm with h | h <;> rw [h]

/-- EEOS goes on with its own ITER (R209). -/
theorem wadv_of_eeos (hp : ∀ i, wadvPlan e f ≠ .mapped i) (hm : modeOf f.heads = .eeos) :
    exec (.wadv e) s = .next (endFiring (ensureInstance s f) f (modeOf f.heads) (f.plain .eeos)) := by
  unfold wadvPlan at hp
  rw [hm]
  refine (fireRaw_of_some hfire _).trans (fireOf_of_done hm (by simp) ?_)
  cases hw : wavePlan f.g (wadvMode e) e.x f.key.iter with
  | mapped i => exact absurd hw (hp i)
  | _ => rfl

theorem wadv_of_mixed (hp : ∀ i, wadvPlan e f ≠ .mapped i) (hm : modeOf f.heads = .mixed) : exec (.wadv e) s =
    .next (endFiring (raiseFault (ensureInstance s f) f (fabCode 0x25)) f .mixed (f.plain .eeos)) := by
  unfold wadvPlan at hp
  refine (fireRaw_of_some hfire _).trans (fireOf_of_done hm (by simp) ?_)
  cases hw : wavePlan f.g (wadvMode e) e.x f.key.iter with
  | mapped i => exact absurd hw (hp i)
  | _ => rfl

theorem wadv_of_no_grant (hm : modeOf f.heads = .fire) {p : BitVec 16} {o : Nat} (hp : wadvPlan e f = .fresh p o)
    (hg : grantFor f.g e.x p o = none) : exec (.wadv e) s = .next s := by
  unfold wadvPlan at hp
  refine (fireRaw_of_some hfire _).trans ((fireOf_of_wait (s2 := ensureInstance s f) hm (by simp) ?_).trans
    (congrArg _ (ensureInstance_undone s f)))
  simp only [hp, hg]

theorem wadv_of_grant (hm : modeOf f.heads = .fire) {p : BitVec 16} {o : Nat} (hp : wadvPlan e f = .fresh p o) {x : PoolEntry}
    (hg : grantFor f.g e.x p o = some x) :
    exec (.wadv e) s = .next (endFiring (allocate (ensureInstance s f) f.g x) f (modeOf f.heads) (f.withIter .data x.iter)) := by
  unfold wadvPlan at hp
  rw [hm]
  exact (fireRaw_of_some hfire _).trans (fireOf_of_done hm (by simp) (by simp only [hp, hg]))

end

/-- A WADV that its node fires next fires when it is granted (R197, R212). -/
theorem wadvGrant_fires {s : State} {n : Node} {site : Site} (hn : nodeOf s site.node = some n) (hop : n.opAt site.slot = 0x53)
    (hnext : nextSite s site.node = some site) : ∃ t, exec (.wadv (eWord (n.word site.slot))) { s with site := site } = .next t ∧
      exec (.wadvGrant site.node site.slot site.key) s = .next { t with site := s.site } := by
  obtain ⟨t, ht⟩ : ∃ t, execWadv (eWord (n.word site.slot)) { s with site := site } = .next t := fireRaw_next _ _ _ _
  refine ⟨t, ht, ?_⟩
  show execWadvGrant site.node site.slot site.key s = _
  unfold execWadvGrant
  simp only [hn, hop, hnext, ht, beq_self_eq_true, Bool.and_self, decide_true, if_true]

theorem wadvGrant_of_other {s : State} {n : Node} {site : Site} (hn : nodeOf s site.node = some n)
    (h : ¬(n.opAt site.slot = 0x53 ∧ nextSite s site.node = some site)) :
    exec (.wadvGrant site.node site.slot site.key) s = .next s := by
  show execWadvGrant site.node site.slot site.key s = _
  unfold execWadvGrant
  simp only [hn]
  rw [if_neg]
  rw [Bool.and_eq_true, decide_eq_true_iff, beq_iff_eq]
  exact h

end Sys2Proof.Machine
end

section
/-! SUPPORT. The dataflow words put together. -/

namespace Sys2Proof.Machine

/-- What MERGE comes to (R205, R206, R208, R209, R297, R308). -/
theorem merge_outcomes {s : State} {e : EWord} {f0 : Firing} (hfire : firingAt s s.site 0x52 e = some f0) :
    let f := mergeFiring f0
    let s1 := ensureInstance s f
    let ends := fun (s2 : State) (m : Mode) (outs : List (Nat × Token)) => exec (.merge e) s = .next (endFiring s2 f m outs)
    let astray := ∃ h, mergeHead f = some h ∧ ¬(h.opd = .b ↔ f.key.path.toNat % 2 = 1)
    let gateEnds := ∃ h ∈ f.heads, h.opd = .g ∧ h.tok.kind = .eeos
    (astray → gateEnds → ends (raiseFault s1 f (fabCode 0x25)) .eeos (f.merged .eeos 0)) ∧
    (astray → ¬gateEnds → ends (raiseFault s1 f (fabCode 0x25)) .fire []) ∧
    (¬astray →
      (modeOf f.heads = .quiet → ends s1 .quiet []) ∧
      (modeOf f.heads = .cancel → ends s1 .cancel []) ∧
      (modeOf f.heads = .eeos → ends s1 .eeos (f.merged .eeos 0)) ∧
      (modeOf f.heads = .mixed → ends (raiseFault s1 f (fabCode 0x25)) .mixed (f.merged .eeos 0)) ∧
      (∀ h, mergeHead f = some h → modeOf f.heads = .fire → ends s1 .fire (f.merged .data h.tok.payload)) ∧
      (∀ h, mergeHead f = some h → modeOf f.heads = .ends →
        (f.n.ends.find? (otherSide f h) = none →
          ends (setNode s1 f.n.ref fun n => { n with ends := n.ends ++ [(f.slot, h.opd, h.tok)] }) .ends []) ∧
        (∀ x, f.n.ends.find? (otherSide f h) = some x →
          ends (setNode s1 f.n.ref fun n => { n with ends := n.ends.erase x }) .ends (f.merged .eos 0)))) := by
  intro f s1 ends astray gateEnds
  have gate : (f.heads.any fun h => h.opd == .g && h.tok.kind == .eeos) = true ↔ gateEnds := by
    simp only [List.any_eq_true, Bool.and_eq_true, beq_iff_eq]
    rfl
  refine ⟨fun h hg => ?_, fun h hg => ?_, fun h => ?_⟩
  · exact (merge_of_astray hfire ((mergeAstray_iff f).2 h)).trans (if_pos (gate.2 hg))
  · exact (merge_of_astray hfire ((mergeAstray_iff f).2 h)).trans (if_neg (mt gate.1 hg))
  have sided := merge_of_sided hfire (Bool.eq_false_iff.2 (mt (mergeAstray_iff f).1 h))
  obtain ⟨cancel, eeos, mixed⟩ := mergeBody_of_no_data s1 f
  refine ⟨fun hm => sided.trans (fireOf_of_quiet hm _), fun hm => sided.trans (fireOf_of_done hm (by simp) cancel),
    fun hm => sided.trans (fireOf_of_done hm (by simp) eeos), fun hm => sided.trans (fireOf_of_done hm (by simp) mixed),
    fun h hh hm => sided.trans (fireOf_of_done hm (by simp) (mergeBody_of_head s1 hh).1), fun h hh hm => ?_⟩
  have body : mergeBody s1 f .ends = _ := (mergeBody_of_head s1 hh).2.trans (mergeEnd_eq s1 f h)
  constructor
  · intro hx
    rw [hx] at body
    exact sided.trans (fireOf_of_done hm (by simp) body)
  · intro x hx
    rw [hx] at body
    exact sided.trans (fireOf_of_done hm (by simp) body)

/-- GATE passes its operand where b holds, and otherwise nothing or a cancel token (R310). -/
theorem gate_fires (s : State) (e : EWord) : fires (.gate e) s 0x54 e fun f t => endsWith (ensureInstance s f) f
    (if (f.pay .b).toNat % 2 = 1 then both (f.token (f.pay .a))
     else if e.mod.toNat % 2 = 1 then both { f.token 0 with kind := .cancel } else []) t := by
  refine fires_of_done rfl fun f => ?_
  simp only [getLsbD_zero_iff]
  split
  · rfl
  · split <;> rfl

/-- TAGSET replaces PATH or SEQ (R314). -/
theorem tagset_fires (s : State) (e : EWord) : fires (.tagset e) s 0x5A e fun f t => endsWith (ensureInstance s f) f
    (let t := f.token (f.pay .a)
     both (match e.mod.toNat % 4 with
       | 0 => { t with key := { t.key with path := (f.pay .b).extractLsb' 12 8 } }
       | 1 => { t with key := { t.key with path := e.x.extractLsb' 0 8 } }
       | _ => { t with seq := e.x.extractLsb' 0 8 })) t := by
  have mode : (e.mod.extractLsb' 0 2).toNat = e.mod.toNat % 4 := by rw [BitVec.extractLsb'_toNat, Nat.shiftRight_zero]
  refine fires_of_done rfl fun f => ?_
  simp only [mode]
  generalize e.mod.toNat % 4 = k
  rcases k with _ | _ | k <;> rfl

/-- CONST gives a hold register (R312). -/
theorem const_fires_hold (s : State) {e : EWord} (h : e.mod.getLsbD 3 = true) : fires (.const e) s 0x57 e fun f t =>
    endsWith (ensureInstance s f) f (both (f.token ((f.n.holds[e.x.toNat % 8]?).getD 0))) t := by
  have reg : (e.x.extractLsb' 0 3).toNat = e.x.toNat % 8 := by rw [BitVec.extractLsb'_toNat, Nat.shiftRight_zero]
  exact fires_of_payload rfl fun f => (if_pos h).trans (by rw [reg]; rfl)

/-- CONST gives its immediate in every lane (R312). -/
theorem const_fires_lanes (s : State) {e : EWord} (h : e.mod.getLsbD 3 = false) :
    givesLanes (.const e) s 0x57 e (tyWidth e.ty.toNat) false fun _ _ => immLane e.ty.toNat e.x := by
  refine givesLanes_of_payload rfl fun f l hl => ?_
  rw [if_neg (by rw [h]; decide)]
  exact lane_mapLanes _ _ hl

/-- Settles O38: each word by what its operands' kinds leave to do, WADV by whether its iteration is mapped or granted. -/
theorem dataflow : Obligations.Dataflow := by
  unfold Obligations.Dataflow
  constructor
  · intro s e
    exact ⟨steer_fires (cancelOther := false) rfl, steer_ends (cancelOther := false) rfl, steer_fires (cancelOther := true) rfl,
      steer_ends (cancelOther := true) rfl, merge_of_none, fun f0 hfire => merge_outcomes hfire, gate_fires s e,
      fires_of_done rfl fun _ => rfl, fires_of_done rfl fun _ => rfl, const_fires_hold s, const_fires_lanes s,
      sink_of_none, fun f hfire => sink_fires hfire, fires_of_done rfl fun _ => rfl, tagset_fires s e,
      fires_of_done rfl fun _ => rfl, rfl, trape_fires s e⟩
  · intro s e
    refine ⟨wadv_of_none, fun f hfire => ?_, fun n site hn =>
      ⟨fun hop hnext => wadvGrant_fires hn hop hnext, wadvGrant_of_other hn⟩⟩
    intro s1 m plan out ends bad mixed
    have found : wadvPlan e f = plan := by rw [wadvPlan, wadvMode_eq]
    refine ⟨wadv_of_quiet hfire, fun hm hp => wadv_of_tagx hfire hm (found.trans hp), fun i hp => ?_, fun hp => ?_, fun p o hm hp => ?_⟩
    · have mapped {k : Mode} := wadv_of_mapped hfire (found.trans hp) (m := k)
      exact ⟨fun hm => mapped (k := .fire) hm (by decide) (by decide), fun hm => mapped (k := .cancel) hm (by decide) (by decide),
        fun hm => mapped (k := .ends) hm (by decide) (by decide), fun hm => mapped (k := .eeos) hm (by decide) (by decide),
        fun hm => wadv_of_mapped_mixed hfire (found.trans hp) hm⟩
    · rw [← found] at hp
      exact ⟨fun hm => wadv_absorbs hfire hp (.inl hm), fun hm => wadv_absorbs hfire hp (.inr hm),
        fun hm => wadv_of_eeos hfire hp hm, fun hm => wadv_of_mixed hfire hp hm⟩
    · refine ⟨wadv_of_no_grant hfire hm (found.trans hp), fun x hg => ?_⟩
      obtain ⟨hl, hpar, hord, hpos⟩ := grantFor_eq_some hg
      exact ⟨hl, hpar, hord, fun y hy hyl => hpos y hy hyl, wadv_of_grant hfire hm (found.trans hp) hg⟩

end Sys2Proof.Machine
end

section
/-! SUPPORT. The table of streams, and what the result of a replaced stream leaves (R270 to R273). -/

namespace Sys2Proof.Machine

/-! ## Streams by their place -/

theorem ref_of_streamOf {s : State} {r : StreamRef} {x : Stream} (h : streamOf s r = some x) : x.ref = r := by
  simpa using List.find?_some (p := fun t : Stream => t.ref == r) h

theorem streamOf_setStream {s : State} {r : StreamRef} {f : Stream → Stream} {x : Stream} (hf : ∀ t, (f t).ref = t.ref)
    (h : streamOf s r = some x) : streamOf (setStream s r f) r = some (f x) := by
  have found : (s.streams.find? fun t => t.ref == r) = some x := h
  unfold streamOf
  rw [setStream, find_mapIf (fun t => by rw [hf]), found, Option.map_some, if_pos (by rw [ref_of_streamOf h, beq_self_eq_true])]

theorem streamOf_setStream_other (s : State) {r k : StreamRef} {f : Stream → Stream} (hf : ∀ t, (f t).ref = t.ref) (hk : k ≠ r) :
    streamOf (setStream s r f) k = streamOf s k := by
  unfold streamOf
  rw [setStream, find_mapIf (fun t => by rw [hf])]
  cases h : s.streams.find? fun t => t.ref == k with
  | none => rfl
  | some x =>
    have hx : x.ref = k := ref_of_streamOf (s := s) h
    rw [Option.map_some, if_neg (by rw [beq_iff_eq, hx]; exact hk)]

/-- A stream put at a port is the one that stands there. -/
theorem find_replaced (l : List Stream) (x : Stream) : ((l.filter fun t => t.ref != x.ref) ++ [x]).find? (fun t => t.ref == x.ref) = some x := by
  have gone : (l.filter fun t => t.ref != x.ref).find? (fun t => t.ref == x.ref) = none := by
    rw [List.find?_eq_none]
    intro t ht
    simpa using List.of_mem_filter ht
  simp [List.find?_append, gone]

theorem find_replaced_other (l : List Stream) (x : Stream) {r : StreamRef} (h : r ≠ x.ref) :
    ((l.filter fun t => t.ref != x.ref) ++ [x]).find? (fun t => t.ref == r) = l.find? fun t => t.ref == r := by
  have kept : (l.filter fun t => t.ref != x.ref).find? (fun t => t.ref == r) = l.find? fun t => t.ref == r := by
    rw [List.find?_filter]
    refine List.find?_congr fun t _ => ?_
    rw [Bool.eq_iff_iff, decide_eq_true_iff, bne_iff_ne, beq_iff_eq]
    exact ⟨And.right, fun e => ⟨e ▸ h, e⟩⟩
  rw [List.find?_append, kept]
  simp [Ne.symm h]

/-! ## The result that a replaced stream leaves -/

/-- What is left at a port for the unit that started its stream (R272, R273). -/
def portLeft (s : State) (r : StreamRef) : State := (streamOf s r).elim s fun t => if t.q == s.cur then s else leaveResult s t

/-- The state with what is left has changed in the sequencer of the stream that stands there, at most. -/
theorem portLeft_cases (s : State) (r : StreamRef) :
    portLeft s r = s ∨ ∃ t, streamOf s r = some t ∧ t.q ≠ s.cur ∧ portLeft s r = leaveResult s t := by
  unfold portLeft
  cases h : streamOf s r with
  | none => exact .inl rfl
  | some t =>
    by_cases hq : t.q = s.cur
    · exact .inl (if_pos (by rw [beq_iff_eq]; exact hq))
    · exact .inr ⟨t, rfl, hq, if_neg (by rw [beq_iff_eq]; exact hq)⟩

theorem portLeft_frame (s : State) (r : StreamRef) : { portLeft s r with seqs := s.seqs } = s := by
  rcases portLeft_cases s r with h | ⟨t, -, -, h⟩
  · rw [h]
  · rw [h]
    rfl

@[simp] theorem portLeft_streams (s : State) (r : StreamRef) : (portLeft s r).streams = s.streams :=
  (congrArg State.streams (portLeft_frame s r) :)

@[simp] theorem portLeft_cur (s : State) (r : StreamRef) : (portLeft s r).cur = s.cur := (congrArg State.cur (portLeft_frame s r) :)

@[simp] theorem portLeft_graphs (s : State) (r : StreamRef) : (portLeft s r).graphs = s.graphs :=
  (congrArg State.graphs (portLeft_frame s r) :)

theorem portLeft_cur_seq (s : State) (r : StreamRef) : (portLeft s r).seqs.get s.cur = s.seqs.get s.cur := by
  rcases portLeft_cases s r with h | ⟨t, -, hq, h⟩
  · rw [h]
  · rw [h, leaveResult, State.updSeq_get, if_neg (Ne.symm hq)]

/-- A unit that started the stream and has no result of it yet. -/
def Awaits (s : State) (t : Stream) (v : UnitRec) : Prop :=
  (s.seqs.get t.q).run = some v ∧ v.started.contains t.ref = true ∧ ∀ e ∈ v.ended, e.1 ≠ t.ref

theorem ended_any_iff (v : UnitRec) (r : StreamRef) : (v.ended.any fun e => e.1 == r) = true ↔ ∃ e ∈ v.ended, e.1 = r := by
  simp only [List.any_eq_true, beq_iff_eq]

theorem leaveResult_of_awaits {s : State} {t : Stream} {v : UnitRec} (h : Awaits s t v) : (leaveResult s t).seqs.get t.q =
    { s.seqs.get t.q with run := some { v with ended := v.ended ++ [(t.ref, t.result)] } } := by
  obtain ⟨hrun, hstarted, hended⟩ := h
  have none : (v.ended.any fun e => e.1 == t.ref) = false := by
    rw [Bool.eq_false_iff, Ne, ended_any_iff]
    exact fun ⟨e, he, hr⟩ => hended e he hr
  rw [leaveResult, State.updSeq_get, if_pos rfl, hrun, Option.map_some, hstarted, none]
  rfl

theorem Seq.with_run (c : Seq) {x : Option UnitRec} (h : c.run = x) : { c with run := x } = c := by
  subst h
  rfl

theorem leaveResult_of_not_awaits {s : State} {t : Stream} (h : ∀ v, ¬Awaits s t v) : (leaveResult s t).seqs.get t.q = s.seqs.get t.q := by
  rw [leaveResult, State.updSeq_get, if_pos rfl]
  refine Seq.with_run _ ?_
  cases hrun : (s.seqs.get t.q).run with
  | none => rfl
  | some v =>
    rw [Option.map_some, if_neg]
    rw [Bool.and_eq_true, Bool.not_eq_true', Bool.eq_false_iff, Ne, ended_any_iff]
    exact fun ⟨hs, he⟩ => h v ⟨hrun, hs, fun e hm hr => he ⟨e, hm, hr⟩⟩

/-- What is left at a port changes a sequencer only by a result that its unit had not. -/
theorem portLeft_get (s : State) (r : StreamRef) (q : SeqId) : (portLeft s r).seqs.get q = s.seqs.get q ∨
    ∃ t v, streamOf s r = some t ∧ t.q = q ∧ Awaits s t v ∧
      (portLeft s r).seqs.get q = { s.seqs.get q with run := some { v with ended := v.ended ++ [(t.ref, t.result)] } } := by
  rcases portLeft_cases s r with h | ⟨t, ht, -, h⟩
  · exact .inl (by rw [h])
  · rw [h]
    by_cases hq : q = t.q
    · subst hq
      by_cases aw : ∃ v, Awaits s t v
      · obtain ⟨v, aw⟩ := aw
        exact .inr ⟨t, v, ht, rfl, aw, leaveResult_of_awaits aw⟩
      · exact .inl (leaveResult_of_not_awaits fun v hv => aw ⟨v, hv⟩)
    · exact .inl (by rw [leaveResult, State.updSeq_get, if_neg hq])

/-- The unit that started the stream has its result then. -/
theorem portLeft_ended {s : State} {r : StreamRef} {t : Stream} {v : UnitRec} (ht : streamOf s r = some t) (hq : t.q ≠ s.cur)
    (hrun : (s.seqs.get t.q).run = some v) (hstarted : v.started.contains r = true) :
    ∃ w, ((portLeft s r).seqs.get t.q).run = some w ∧ ∃ e ∈ w.ended, e.1 = r := by
  have left : portLeft s r = leaveResult s t := by
    rw [portLeft, ht, Option.elim_some, if_neg (by rw [beq_iff_eq]; exact hq)]
  have href := ref_of_streamOf ht
  rw [left]
  by_cases had : ∃ e ∈ v.ended, e.1 = r
  · have same : (leaveResult s t).seqs.get t.q = s.seqs.get t.q := by
      refine leaveResult_of_not_awaits fun w ⟨hw, _, he⟩ => ?_
      obtain ⟨e, hm, hr⟩ := had
      obtain rfl : w = v := Option.some.inj (hw.symm.trans hrun)
      exact he e hm (hr.trans href.symm)
    exact ⟨v, by rw [same, hrun], had⟩
  · have aw : Awaits s t v := ⟨hrun, by rw [href]; exact hstarted, fun e hm hr => had ⟨e, hm, hr.trans href⟩⟩
    rw [leaveResult_of_awaits aw]
    exact ⟨_, rfl, _, List.mem_append_right _ (List.mem_singleton.2 rfl), href⟩

end Sys2Proof.Machine
end

section
/-! SUPPORT. STRM and STRM2 (R204, R256, R270 to R272). -/

namespace Sys2Proof.Machine

/-- The stream that STRM names in a graph. -/
def streamPort (g : Graph) (pl : BitVec 32) : StreamRef := { die := g.die, x := g.x + stX pl, y := g.y + stY pl, str := stStr pl }

/-- The operands of STRM lie in its graph's rectangle and in range (R256, R270). -/
def StreamFits (s : State) (g : Graph) (a : Reg) (pl : BitVec 32) : Prop :=
  stX pl < g.w ∧ stY pl < g.h ∧ (stSink pl = false → targetInside g (stX pl) (stY pl) (stTgt pl) = true) ∧
  (stSink pl = true → tapOk s (streamDest g pl) = true) ∧ (s.cpu.reg a).toNat < 2 ^ 32

/-- Nothing holds a stream back at its port (R270, R272). -/
def PortFree (s : State) (r : StreamRef) : Prop :=
  streamsHeld s s.cur = false ∧ (∀ t, streamOf s r = some t → t.ended = true) ∧ sinkPending s r = false

/-- A control token of a stream's context. -/
def streamToken (ctx : BitVec 12) (n : Nat) (k : Kind) : Token :=
  { key := { ctx := ctx, iter := 0, path := 0 }, seq := BitVec.ofNat 8 n, kind := k, payload := 0 }

/-- What a new source begins with: a RECONF token that passes its graph (R204). -/
def firstTokens (ctx : BitVec 12) (g : Graph) (sink : Bool) : List Token :=
  match g.reconf with
  | some p => if sink then [] else [{ streamToken ctx 0 .reconf with payload := p }]
  | none => []

/-- The stream that STRM makes, before it has a token. -/
def blankStream (s : State) (u : UnitRec) (g : Graph) (d a b : Reg) (pl : BitVec 32) (rows : Nat) (rowStride : Word) : Stream :=
  let count := (s.cpu.reg a).toNat
  { ref := streamPort g pl, q := s.cur, ctx := u.ctx, part := u.part, handle := g.handle, sink := stSink pl, base := s.cpu.reg d
    count := count, stride := s.cpu.reg b, rows := rows, rowStride := rowStride, eos := stEos pl, dst := streamDest g pl, sent := 0
    early := [], buf := [], old := (streamOf s (streamPort g pl)).elim [] fun t => t.old ++ t.buf.map fun k => (t.dst, k)
    ended := decide (rows * count = 0), err := false, marked := false }

/-- The stream that stands then. -/
def newStream (s : State) (u : UnitRec) (g : Graph) (d a b : Reg) (pl : BitVec 32) (rows : Nat) (rowStride : Word) : Stream :=
  { blankStream s u g d a b pl rows rowStride with
    buf := firstTokens u.ctx g (stSink pl) ++
      if rows * (s.cpu.reg a).toNat = 0 ∧ stEos pl = true then [streamToken u.ctx 0 .eos] else [] }

/-- The unit that has started a stream. -/
def UnitRec.begin (u : UnitRec) (r : StreamRef) : UnitRec :=
  { u with started := (u.started.filter (· != r)) ++ [r], ended := u.ended.filter fun e => e.1 != r }

/-- The state with a new stream. -/
def begun (s : State) (u : UnitRec) (x : Stream) : State :=
  ({ portLeft s x.ref with streams := (s.streams.filter fun (t : Stream) => t.ref != x.ref) ++ [x] } : State).updCpu fun c =>
    ({ c with run := some (u.begin x.ref) } : Seq).next2

theorem resident_by_handle {s : State} {ctx : BitVec 12} {h : Word} {g : Graph} (hres : residentGraph s ctx h = some g) :
    (s.graphs.find? fun x => x.ctx == ctx && x.handle == g.handle && !x.retired) = some g := by
  have found := List.find?_some (p := fun g : Graph => g.ctx == ctx && g.handle == h.toNat && !g.retired) hres
  have hh : g.handle = h.toNat := by grind
  rw [hh]
  exact hres

theorem reconfFirst_eq {s : State} {ctx : BitVec 12} {handle : Nat} {g : Graph}
    (h : (s.graphs.find? fun g => g.ctx == ctx && g.handle == handle && !g.retired) = some g) (t : Stream) :
    reconfFirst s ctx handle t = { t with buf := firstTokens ctx g t.sink ++ t.buf } := by
  unfold reconfFirst firstTokens
  rw [h, Option.bind_some]
  cases g.reconf with
  | none => rfl
  | some p =>
    dsimp only
    by_cases hs : t.sink = true
    · rw [if_pos hs, if_pos hs]
      rfl
    · rw [if_neg hs, if_neg hs]
      rfl

section
variable {s : State} {u : UnitRec} {g : Graph} (d a b : Reg) (pl : BitVec 32) (rows : Nat) (rowStride : Word)
  (hrun : s.cpu.run = some u)
  (hres : residentGraph s u.ctx (u.handle.setWidth 64) = some g)

theorem fits_test_iff : (!(decide (stX pl < g.w) && decide (stY pl < g.h) && (stSink pl || targetInside g (stX pl) (stY pl) (stTgt pl))) ||
    decide ((s.cpu.reg a).toNat ≥ 2 ^ 32) || decide (rows ≥ 2 ^ 32) || (stSink pl && !tapOk s (streamDest g pl))) = true ↔
    ¬(StreamFits s g a pl ∧ rows < 2 ^ 32) := by
  unfold StreamFits
  grind

/-- Whether something holds a stream back at its port (R270, R272). -/
theorem held_test_iff (r : StreamRef) :
    (streamsHeld s s.cur || (streamOf s r).elim false (fun t => !t.ended) || sinkPending s r) = true ↔ ¬PortFree s r := by
  unfold PortFree
  cases streamOf s r with
  | none => grind
  | some t => grind

/-- Whether the base and the strides are multiples of 32 (R272). -/
theorem aligned_test_iff (x y z : Nat) :
    (decide (x % 32 ≠ 0) || decide (y % 32 ≠ 0) || decide (z % 32 ≠ 0)) = true ↔ ¬(x % 32 = 0 ∧ y % 32 = 0 ∧ z % 32 = 0) := by
  grind

include hrun hres

theorem startStream_of_unfit (h : ¬(StreamFits s g a pl ∧ rows < 2 ^ 32)) :
    startStream d a b pl rows rowStride s = .next (trapOprng s) := by
  unfold startStream
  rw [withUnit_of_run hrun, hres]
  exact congrArg _ (if_pos ((fits_test_iff a pl rows).2 h))

theorem startStream_of_misaligned (hfits : StreamFits s g a pl ∧ rows < 2 ^ 32)
    (hal : ¬((s.cpu.reg d).toNat % 32 = 0 ∧ (s.cpu.reg b).toNat % 32 = 0 ∧ rowStride.toNat % 32 = 0)) :
    startStream d a b pl rows rowStride s = .next (trapMisal s (s.cpu.reg d) false false) := by
  unfold startStream
  rw [withUnit_of_run hrun, hres]
  exact congrArg _ ((if_neg (mt (fits_test_iff a pl rows).1 (not_not_intro hfits))).trans (if_pos ((aligned_test_iff _ _ _).2 hal)))

theorem startStream_of_held (hfits : StreamFits s g a pl ∧ rows < 2 ^ 32)
    (hal : (s.cpu.reg d).toNat % 32 = 0 ∧ (s.cpu.reg b).toNat % 32 = 0 ∧ rowStride.toNat % 32 = 0)
    (hfree : ¬PortFree s (streamPort g pl)) : startStream d a b pl rows rowStride s = .next s := by
  unfold startStream
  rw [withUnit_of_run hrun, hres]
  refine congrArg _ ((if_neg (mt (fits_test_iff a pl rows).1 (not_not_intro hfits))).trans 
    ((if_neg (mt (aligned_test_iff _ _ _).1 (not_not_intro hal))).trans (if_pos ((held_test_iff _).2 hfree))))

theorem startStream_of_free (hfits : StreamFits s g a pl ∧ rows < 2 ^ 32)
    (hal : (s.cpu.reg d).toNat % 32 = 0 ∧ (s.cpu.reg b).toNat % 32 = 0 ∧ rowStride.toNat % 32 = 0)
    (hfree : PortFree s (streamPort g pl)) :
    startStream d a b pl rows rowStride s = .next (begun s u (newStream s u g d a b pl rows rowStride)) := by
  unfold startStream
  rw [withUnit_of_run hrun, hres]
  refine congrArg _ ((if_neg (mt (fits_test_iff a pl rows).1 (not_not_intro hfits))).trans 
    ((if_neg (mt (aligned_test_iff _ _ _).1 (not_not_intro hal))).trans ((if_neg (mt (held_test_iff _).1 (not_not_intro hfree))).trans ?_)))
  extract_lets left old n blank first owed placed
  have streams : left.streams = s.streams := portLeft_streams s (streamPort g pl)
  have cur : left.cur = s.cur := portLeft_cur s (streamPort g pl)
  have graphs : left.graphs = s.graphs := portLeft_graphs s (streamPort g pl)
  have hblank : blank = blankStream s u g d a b pl rows rowStride := by
    unfold blank old blankStream streamOf
    rw [cur, streams]
    rfl
  have tokens : firstTokens u.ctx g blank.sink ++ blank.buf = firstTokens u.ctx g (stSink pl) := List.append_nil _
  have hfirst : first = { blank with buf := firstTokens u.ctx g (stSink pl) } :=
    (reconfFirst_eq (graphs ▸ resident_by_handle hres) blank).trans (by rw [tokens])
  have howed : owed = newStream s u g d a b pl rows rowStride := by
    unfold owed newStream
    rw [hfirst, hblank]
    by_cases none : n = 0 ∧ stEos pl = true
    · rw [if_pos (by rwa [Bool.and_eq_true, decide_eq_true_iff]), if_pos none]
      rfl
    · rw [if_neg (by rwa [Bool.and_eq_true, decide_eq_true_iff]), if_neg none, List.append_nil]
  unfold placed begun
  rw [howed, streams]
  rfl

end

/-! ## What stands then -/

section
variable (s : State) (u : UnitRec) (x : Stream)

theorem streamOf_begun : streamOf (begun s u x) x.ref = some x := find_replaced s.streams x

theorem streamOf_begun_other {r : StreamRef} (h : r ≠ x.ref) : streamOf (begun s u x) r = streamOf s r := find_replaced_other s.streams x h

theorem begun_frame : { begun s u x with streams := s.streams, seqs := s.seqs } = s :=
  (congrArg (fun t : State => { t with streams := s.streams }) (portLeft_frame s x.ref) :)

theorem begun_get {q : SeqId} (hq : q ≠ s.cur) : (begun s u x).seqs.get q = (portLeft s x.ref).seqs.get q := by
  unfold begun
  rw [State.updCpu, State.updSeq_get, if_neg]
  rw [portLeft_cur]
  exact hq

theorem begun_cpu : (begun s u x).cpu = { s.cpu with pc := s.cpu.pc + 8, run := some (u.begin x.ref) } := by
  unfold begun
  rw [State.cpu_updCpu]
  show ({ (portLeft s x.ref).seqs.get (portLeft s x.ref).cur with run := some (u.begin x.ref) } : Seq).next2 = _
  rw [portLeft_cur, portLeft_cur_seq]
  rfl

end

end Sys2Proof.Machine
end

section
/-! SUPPORT. The reads of a source (R271). -/

namespace Sys2Proof.Machine

/-- A source that has sent its next token (R271). -/
def Stream.sentNext (t : Stream) (p : Payload) : Stream :=
  let last := t.sent + 1 = t.rows * t.count
  { t with
    sent := t.sent + 1, ended := decide last, early := t.early.filter fun e => e.1 != t.sent
    under := t.under.filter fun e => e.1 != t.sent
    buf := t.buf ++ [t.token t.sent .data p] ++ (if last ∧ t.eos = true then [t.token (t.sent + 1) .eos 0] else []) }

theorem send_eq_sentNext (t : Stream) (p : Payload) : t.send p = t.sentNext p := by
  have test : (t.sent + 1 == t.total && t.eos) = true ↔ t.sent + 1 = t.rows * t.count ∧ t.eos = true := by
    rw [Bool.and_eq_true, beq_iff_eq, Stream.total]
  unfold Stream.send Stream.sentNext Stream.keep
  simp only [test, Option.map_none, Option.toList_none, List.append_nil]
  rfl

/-- A source that has ended with an EEOS (R271). -/
def Stream.failed (t : Stream) : Stream :=
  { t with buf := t.buf ++ [t.token t.sent .eeos 0], ended := true, err := true, early := [], under := [] }

/-- A source reads no further than 16 tokens that have been read and not accepted. -/
theorem horizon_le {t : Stream} {n : Nat} (h : t.sent + 16 ≤ n + t.buf.countP fun k => k.kind == .data) : t.horizon ≤ n := by
  refine Nat.le_trans (Nat.min_le_right _ _) ?_
  omega

theorem sent_lt_horizon {t : Stream} (hheld : (t.buf.countP fun k => k.kind == .data) < 16) (hsent : t.sent < t.rows * t.count) :
    t.sent < t.horizon := by
  refine Nat.lt_min.2 ⟨hsent, ?_⟩
  omega

section
variable {s s0 : State} {r : StreamRef} {x : Stream}

/-- A token leaves at its source, and nothing else changes. -/
theorem runsTo_of_send {i : Instr} {p : Payload} (h : exec i s = .next (setStream s0 r fun t => t.send p)) (hx : streamOf s0 r = some x) :
    runsTo i s fun t => { t with streams := s0.streams } = s0 ∧ (∀ k, k ≠ r → streamOf t k = streamOf s0 k) ∧
      streamOf t r = some (x.sentNext p) :=
  ⟨_, h, rfl, fun _ hk => streamOf_setStream_other s0 (fun _ => rfl) hk,
    by rw [streamOf_setStream (f := fun t => t.send p) (fun _ => rfl) hx, send_eq_sentNext]⟩

variable (hx : streamOf s r = some x) (hsink : x.sink = false) (hended : x.ended = false) (hmarked : x.marked = false)
include hx hsink hended hmarked

theorem readReturn_of_early {e : Nat × Payload} (he : (x.early.find? fun e => e.1 == x.sent) = some e) :
    exec (.streamReadReturn r) s = .next (setStream s r fun t => t.send e.2) := by
  show execStreamReadReturn r s = _
  unfold execStreamReadReturn
  simp only [hx, hsink, hended, hmarked, Bool.or_self, Bool.false_eq_true, if_false, he]

section
variable (he : (x.early.find? fun e => e.1 == x.sent) = none)
include he

theorem readReturn_of_full (hheld : 16 ≤ x.buf.countP fun k => k.kind == .data) : exec (.streamReadReturn r) s = .next s := by
  show execStreamReadReturn r s = _
  unfold execStreamReadReturn
  simp only [hx, hsink, hended, hmarked, Bool.or_self, Bool.false_eq_true, if_false, he]
  exact if_pos (horizon_le (by omega))

/-- A source with room reads its next token. -/
theorem readReturn_reads (hheld : (x.buf.countP fun k => k.kind == .data) < 16) (hsent : x.sent < x.rows * x.count) :
    exec (.streamReadReturn r) s = match readToken s x x.sent with
      | (s, .ok _, p) => .next (setStream s r fun t => t.send p)
      | (s, .wait, _) => .next s
      | (s, .fault f, _) =>
        match (setStream s r Stream.failed).graphs.find? fun g => g.ctx == x.ctx && g.handle == x.handle && !g.retired with
        | none => .next (setStream s r Stream.failed)
        | some g => .next (climb (setStream s r Stream.failed) g.gid
            (mkRec (baseKey x.ctx) f.fabricCode f.cause 0 x.dst.slot x.dst.node.id f.addr)) := by
  show execStreamReadReturn r s = _
  unfold execStreamReadReturn
  simp only [hx, hsink, hended, hmarked, Bool.or_self, Bool.false_eq_true, if_false, he]
  rw [if_neg (Nat.not_le_of_lt (sent_lt_horizon hheld hsent))]
  rfl

end

omit hsink hended hmarked in
/-- A source whose tokens stand at the limit reads none ahead. -/
theorem readAhead_of_full {n : Nat} (h : x.sent + 16 ≤ n + x.buf.countP fun k => k.kind == .data) : readAhead s r n = s := by
  unfold readAhead
  rw [hx]
  refine if_pos ?_
  have far := horizon_le h
  simp [far]

end

/-- The streams behind a read that faults: its own has failed. -/
theorem failed_streams {s0 t : State} {r : StreamRef} {x : Stream} (ht : t.streams = (setStream s0 r Stream.failed).streams)
    (hx : streamOf s0 r = some x) : (∀ k, k ≠ r → streamOf t k = streamOf s0 k) ∧ streamOf t r = some x.failed := by
  unfold streamOf
  rw [ht]
  exact ⟨fun k hk => streamOf_setStream_other s0 (fun _ => rfl) hk, streamOf_setStream (fun _ => rfl) hx⟩

/-- A read that faults ends its stream with an EEOS, with a graph to climb to and without. -/
theorem readReturn_fault {s s1 : State} {r : StreamRef} {x : Stream} {i : Instr} {o : Option Graph} {F : Graph → FRec}
    (h : exec i s = match o with
      | none => .next (setStream s1 r Stream.failed)
      | some g => .next (climb (setStream s1 r Stream.failed) g.gid (F g)))
    (hx : streamOf s1 r = some x) :
    runsTo i s fun t => (∀ k, k ≠ r → streamOf t k = streamOf s1 k) ∧ streamOf t r = some x.failed := by
  cases o with
  | none => exact ⟨_, h, failed_streams rfl hx⟩
  | some g => exact ⟨_, h, failed_streams rfl hx⟩

end Sys2Proof.Machine
end

section
/-! SUPPORT. STRMEND (R256, R273). -/

namespace Sys2Proof.Machine

/-! ## A stream that stops -/

section
variable (t : Stream)

@[simp] theorem stop_ref : t.stop.ref = t.ref := by
  unfold Stream.stop
  split
  · rfl
  · split <;> rfl

@[simp] theorem stop_ended : t.stop.ended = true := by
  unfold Stream.stop
  split
  · assumption
  · split <;> rfl

@[simp] theorem stop_err : t.stop.err = t.err := by
  unfold Stream.stop
  split
  · rfl
  · split <;> rfl

@[simp] theorem stop_sent : t.stop.sent = t.sent := by
  unfold Stream.stop
  split
  · rfl
  · split <;> rfl

end

/-! ## The stream that is named -/

/-- The stream that STRMEND names in a graph. -/
def endPort (g : Graph) (v : Word) : StreamRef :=
  { die := g.die, x := g.x + v.toNat % 32, y := g.y + v.toNat / 32 % 32, str := v.toNat / 1024 }

theorem high_bits_iff (v : Word) : bits v 63 12 ≠ 0 ↔ 4096 ≤ v.toNat := by
  have := v.isLt
  simp only [bits]
  omega

theorem endPort_eq {g : Graph} {v : Word} (h : v.toNat < 4096) :
    { die := g.die, x := g.x + bits v 4 0, y := g.y + bits v 9 5, str := bits v 11 10 : StreamRef } = endPort g v := by
  have low : bits v 4 0 = v.toNat % 32 := by simp only [bits]; omega
  have mid : bits v 9 5 = v.toNat / 32 % 32 := by simp only [bits]; omega
  have high : bits v 11 10 = v.toNat / 1024 := by simp only [bits]; omega
  rw [low, mid, high, endPort]

/-- STRMEND gives a result, and the stream is no longer the unit's. -/
def giveResult (s : State) (u : UnitRec) (r : StreamRef) (d : Reg) (w : Word) : State :=
  s.updCpu fun c => ({ c.setReg d w with run := some (u.letGo r) } : Seq).next

/-- The state that STRMEND looks at: with X the stream has stopped (R273). -/
def stopped (s : State) (r : StreamRef) (w : BitVec 1) : State := if w = 1 then setStream s r Stream.stop else s

section
variable {s : State} {u : UnitRec} {g : Graph} {d a : Reg} {w : BitVec 1} (hrun : s.cpu.run = some u)
  (hres : residentGraph s u.ctx (u.handle.setWidth 64) = some g)
include hrun hres

theorem strmend_of_large (h : 4096 ≤ (s.cpu.reg a).toNat) : exec (.strmend d a w) s = .next (trapOprng s) := by
  show execStrmend d a w s = _
  unfold execStrmend
  rw [withUnit_of_run hrun, hres]
  exact congrArg _ (if_pos ((high_bits_iff _).2 h))

section
variable (hv : (s.cpu.reg a).toNat < 4096)
include hv

theorem strmend_of_foreign (hs : u.started.contains (endPort g (s.cpu.reg a)) = false) :
    exec (.strmend d a w) s = .next (s.updCpu fun c => (c.setReg d 0).next) := by
  show execStrmend d a w s = _
  unfold execStrmend
  rw [withUnit_of_run hrun, hres]
  simp only [endPort_eq hv, if_neg (mt (high_bits_iff _).1 (Nat.not_le_of_lt hv)), hs, Bool.not_false, if_true]

variable (hs : u.started.contains (endPort g (s.cpu.reg a)) = true)
include hs

theorem strmend_of_result {e : StreamRef × Word} (he : (u.ended.find? fun e => e.1 == endPort g (s.cpu.reg a)) = some e) :
    exec (.strmend d a w) s = .next (giveResult s u (endPort g (s.cpu.reg a)) d e.2) := by
  show execStrmend d a w s = _
  unfold execStrmend
  rw [withUnit_of_run hrun, hres]
  simp only [endPort_eq hv, if_neg (mt (high_bits_iff _).1 (Nat.not_le_of_lt hv)), hs, Bool.not_true, Bool.false_eq_true, if_false, he]
  rfl

variable (he : (u.ended.find? fun e => e.1 == endPort g (s.cpu.reg a)) = none) {y : Stream}
  (hy : streamOf (stopped s (endPort g (s.cpu.reg a)) w) (endPort g (s.cpu.reg a)) = some y)
include he hy

/-- A stream that the unit started and that stands: its result once it has ended. -/
theorem strmend_of_standing : exec (.strmend d a w) s =
    let s1 := stopped s (endPort g (s.cpu.reg a)) w
    .next (if !y.ended || sinkPending s1 (endPort g (s.cpu.reg a)) then s1 else giveResult s1 u (endPort g (s.cpu.reg a)) d y.result) := by
  show execStrmend d a w s = _
  unfold execStrmend
  rw [withUnit_of_run hrun, hres]
  unfold stopped at hy
  simp only [endPort_eq hv, if_neg (mt (high_bits_iff _).1 (Nat.not_le_of_lt hv)), hs, Bool.not_true, Bool.false_eq_true, if_false, he, hy]
  rfl

end

end

end Sys2Proof.Machine
end

section
/-! SUPPORT. The streams put together. -/

namespace Sys2Proof.Machine

/-! ## STRM and STRM2 -/

/-- A stream that stands: its own record, the unit that has started it, and the result left to the unit of the earlier one. -/
theorem begun_outcome (s : State) (u : UnitRec) (x : Stream) :
    let n := begun s u x
    streamOf n x.ref = some x ∧ (∀ r, r ≠ x.ref → streamOf n r = streamOf s r) ∧
    { n with streams := s.streams, seqs := s.seqs } = s ∧
    (∀ q, q ≠ s.cur → n.seqs.get q = s.seqs.get q ∨ ∃ t v, streamOf s x.ref = some t ∧ t.q = q ∧ (s.seqs.get q).run = some v ∧
      v.started.contains x.ref = true ∧ (∀ e ∈ v.ended, e.1 ≠ x.ref) ∧
      n.seqs.get q = { s.seqs.get q with run := some { v with ended := v.ended ++ [(x.ref, t.result)] } }) ∧
    (∀ t v, streamOf s x.ref = some t → t.q ≠ s.cur → (s.seqs.get t.q).run = some v → v.started.contains x.ref = true →
      ∃ w, (n.seqs.get t.q).run = some w ∧ ∃ e ∈ w.ended, e.1 = x.ref) ∧
    n.cpu = { s.cpu with pc := s.cpu.pc + 8, run := some (u.begin x.ref) } := by
  refine ⟨streamOf_begun s u x, fun r hr => streamOf_begun_other s u x hr, begun_frame s u x, fun q hq => ?_,
    fun t v ht hq hrun hstarted => ?_, begun_cpu s u x⟩
  · rw [begun_get s u x hq]
    refine (portLeft_get s x.ref q).imp id ?_
    rintro ⟨t, v, ht, rfl, ⟨hrun, hstarted, hended⟩, left⟩
    rw [ref_of_streamOf ht] at hstarted hended left
    exact ⟨t, v, ht, rfl, hrun, hstarted, hended, left⟩
  · rw [begun_get s u x hq]
    exact portLeft_ended ht hq hrun hstarted

/-- What STRM and STRM2 come to, by the limits that they have each (R256, R270 to R272). -/
theorem startStream_outcomes {i : Instr} {s : State} {u : UnitRec} {g : Graph} {d a b : Reg} {pl : BitVec 32} {rows : Nat}
    {rowStride : Word} (hi : exec i s = startStream d a b pl rows rowStride s) (hrun : s.cpu.run = some u)
    (hres : residentGraph s u.ctx (u.handle.setWidth 64) = some g) {fits aligned : Prop}
    (hfits : fits ↔ StreamFits s g a pl ∧ rows < 2 ^ 32)
    (hal : aligned ↔ (s.cpu.reg d).toNat % 32 = 0 ∧ (s.cpu.reg b).toNat % 32 = 0 ∧ rowStride.toNat % 32 = 0) :
    (fits → aligned → PortFree s (streamPort g pl) → exec i s = .next (begun s u (newStream s u g d a b pl rows rowStride))) ∧
    (fits → aligned → ¬PortFree s (streamPort g pl) → exec i s = .next s) ∧
    (handlerReady s → (¬fits → trapsExactly i s 0x06 0 (some (0, 0xF5))) ∧
      (fits → ¬aligned → trapsExactly i s 0x05 0 (some (s.cpu.reg d, 0xF3)))) := by
  rw [hfits, hal]
  exact ⟨fun hf ha hp => hi.trans (startStream_of_free d a b pl rows rowStride hrun hres hf ha hp),
    fun hf ha hp => hi.trans (startStream_of_held d a b pl rows rowStride hrun hres hf ha hp),
    fun ready => ⟨fun hf => trapsExactly_of_trapHere ready (hi.trans (startStream_of_unfit d a b pl rows rowStride hrun hres hf)),
      fun hf ha => trapsExactly_of_trapHere ready (hi.trans (startStream_of_misaligned d a b pl rows rowStride hrun hres hf ha))⟩⟩

/-! ## STRMEND -/

/-- A stream that has ended, with X by its stop, has moved what it had (R273). -/
theorem stopped_outcome {s : State} {r : StreamRef} {x : Stream} {w : BitVec 1} (hx : streamOf s r = some x) (h : w = 1 ∨ x.ended = true) :
    ∃ y, streamOf (stopped s r w) r = some y ∧ y.ended = true ∧ y.sent = x.sent ∧ y.result = x.result := by
  unfold stopped
  by_cases hw : w = 1
  · rw [if_pos hw]
    exact ⟨x.stop, streamOf_setStream stop_ref hx, stop_ended x, stop_sent x, by rw [Stream.result, stop_err, stop_sent]; rfl⟩
  · rw [if_neg hw]
    exact ⟨x, hx, h.resolve_left hw, rfl, rfl⟩

theorem stopped_frame (s : State) (r : StreamRef) (w : BitVec 1) : { stopped s r w with streams := s.streams } = s := by
  unfold stopped
  split <;> rfl

theorem streamOf_stopped_other (s : State) (w : BitVec 1) {r k : StreamRef} (hk : k ≠ r) : streamOf (stopped s r w) k = streamOf s k := by
  unfold stopped
  split
  · exact streamOf_setStream_other s stop_ref hk
  · rfl

/-- What STRMEND gives changes its own sequencer alone (R273). -/
theorem giveResult_outcome (s : State) (u : UnitRec) (r : StreamRef) (d : Reg) (v : Word) :
    onlyCpu s (giveResult s u r d v) ∧
    (giveResult s u r d v).cpu = { s.cpu.setReg d v with pc := s.cpu.pc + 4, run := some (u.letGo r) } := by
  refine ⟨onlyCpu_updCpu s _, (State.cpu_updCpu s _).trans ?_⟩
  have pc : (s.cpu.setReg d v).pc = s.cpu.pc := (congrArg Seq.pc (Seq.setReg_frame s.cpu d v) :)
  show { s.cpu.setReg d v with run := some (u.letGo r), pc := (s.cpu.setReg d v).pc + 4 } = _
  rw [pc]

/-- A stream that its unit started and that has ended gives its result (R273). -/
theorem strmend_of_ended {s : State} {u : UnitRec} {g : Graph} {x : Stream} {d a : Reg} {w : BitVec 1} (hrun : s.cpu.run = some u)
    (hres : residentGraph s u.ctx (u.handle.setWidth 64) = some g) (hv : (s.cpu.reg a).toNat < 4096)
    (hs : u.started.contains (endPort g (s.cpu.reg a)) = true)
    (he : (u.ended.find? fun e => e.1 == endPort g (s.cpu.reg a)) = none) (hx : streamOf s (endPort g (s.cpu.reg a)) = some x)
    (hend : w = 1 ∨ x.ended = true) (hpend : sinkPending s (endPort g (s.cpu.reg a)) = false) :
    runsTo (.strmend d a w) s fun t =>
      t.cpu = { s.cpu.setReg d x.result with pc := s.cpu.pc + 4, run := some (u.letGo (endPort g (s.cpu.reg a))) } ∧
      { t with streams := s.streams, seqs := s.seqs } = s ∧ (∀ q, q ≠ s.cur → t.seqs.get q = s.seqs.get q) ∧
      (∀ r, r ≠ endPort g (s.cpu.reg a) → streamOf t r = streamOf s r) ∧
      ∃ y, streamOf t (endPort g (s.cpu.reg a)) = some y ∧ y.ended = true ∧ y.sent = x.sent := by
  obtain ⟨y, hy, ended, sent, result⟩ := stopped_outcome hx hend
  have frame := stopped_frame s (endPort g (s.cpu.reg a)) w
  have cpu : (stopped s (endPort g (s.cpu.reg a)) w).cpu = s.cpu := (congrArg State.cpu frame :)
  have pend : sinkPending (stopped s (endPort g (s.cpu.reg a)) w) (endPort g (s.cpu.reg a)) = false :=
    (congrArg (sinkPending · (endPort g (s.cpu.reg a))) frame).trans hpend
  have gives := strmend_of_standing (d := d) hrun hres hv hs he hy
  simp only [ended, pend, Bool.not_true, Bool.or_self, Bool.false_eq_true, if_false, result] at gives
  obtain ⟨⟨-, others⟩, own⟩ := giveResult_outcome (stopped s (endPort g (s.cpu.reg a)) w) u (endPort g (s.cpu.reg a)) d x.result
  rw [cpu] at own
  refine ⟨_, gives, own, (congrArg (fun t : State => { t with seqs := s.seqs }) frame :), fun q hq => ?_,
    fun r hr => streamOf_stopped_other s w hr, y, hy, ended, sent⟩
  have cur : (stopped s (endPort g (s.cpu.reg a)) w).cur = s.cur := (congrArg State.cur frame :)
  exact (others q (by rw [cur]; exact hq)).trans (congrArg (fun t : State => t.seqs.get q) frame :)

/-- Settles O23: a stream's port, its reads and its STRMEND, each by the one state that it is left in. -/
theorem streams : Obligations.Streams := by
  unfold Obligations.Streams
  refine ⟨fun s u g d a b f pl hrun hres => ⟨?_, ?_⟩, fun s s1 r x ps p hx hsink hended hmarked => ?_, fun s u g x d a w hrun hres => ?_⟩
  · obtain ⟨free, held, traps⟩ := startStream_outcomes (i := .strm d a b pl) (rows := 1) (rowStride := 0) rfl hrun hres
      (fits := StreamFits s g a pl) (aligned := (s.cpu.reg d).toNat % 32 = 0 ∧ (s.cpu.reg b).toNat % 32 = 0) (by simp) (by simp)
    exact ⟨fun hf ha hp => ⟨_, free hf ha hp, begun_outcome s u _⟩, held, traps⟩
  · obtain ⟨free, held, traps⟩ := startStream_outcomes (i := .strm2 d a b f pl) rfl hrun hres Iff.rfl and_assoc
    exact ⟨fun hf ha hp => ⟨_, free hf ha hp, begun_outcome s u _⟩, held, traps⟩
  · refine ⟨fun e he => runsTo_of_send (readReturn_of_early hx hsink hended hmarked he) hx,
      readReturn_of_full hx hsink hended hmarked, fun n => readAhead_of_full hx, ?_, ?_, ?_⟩
    · rintro ⟨he, hheld, hsent, hx1⟩ hread
      refine runsTo_of_send ?_ hx1
      rw [readReturn_reads hx hsink hended hmarked he hheld hsent, hread]
    · rintro ⟨he, hheld, hsent, -⟩ hread
      rw [readReturn_reads hx hsink hended hmarked he hheld hsent, hread]
    · rintro f ⟨he, hheld, hsent, hx1⟩ hread
      have run := readReturn_reads hx hsink hended hmarked he hheld hsent
      rw [hread] at run
      exact readReturn_fault run hx1
  · refine ⟨fun hv ready => trapsExactly_of_trapHere ready (strmend_of_large hrun hres hv),
      fun hv hs => givesReg_of_updCpu (strmend_of_foreign hrun hres hv hs) rfl,
      fun e hv hs he => ⟨_, strmend_of_result hrun hres hv hs he, giveResult_outcome s u _ d e.2⟩,
      fun hv hs he hx => ⟨?_, ?_, strmend_of_ended hrun hres hv hs he hx⟩⟩
    · rintro rfl wait
      refine (strmend_of_standing (d := d) (w := 0) hrun hres hv hs he hx).trans (congrArg _ (if_pos ?_))
      exact (Bool.or_eq_true _ _).mpr (wait.imp (fun h => by rw [h]; rfl) id)
    · rintro rfl pend
      refine (strmend_of_standing (d := d) (w := 1) hrun hres hv hs he (streamOf_setStream stop_ref hx)).trans (congrArg _ (if_pos ?_))
      exact (Bool.or_eq_true _ _).mpr (.inr pend)

end Sys2Proof.Machine
end
